-- ==== Sys2Proof/Word.lean ====
section
/-!
DEFINITION. The words the Kranil K9 counts in, and their plainest arithmetic (03_encoding R42, R64).
-/
namespace Sys2Proof

/-- A 64-bit x register, p register or CSR (R64). -/
abbrev Word := BitVec 64

/-- A byte of memory or of a local buffer. -/
abbrev Byte := BitVec 8

/-- A vector register v0 to v31 (R64). -/
abbrev VReg := BitVec 512

/-- A generator register g0 to g7 (R64, R211). -/
abbrev GReg := BitVec 256

/-- The number of an x or v register in a 5-bit instruction field (R49). -/
abbrev Reg := BitVec 5

/-- A 32-bit instruction word (R42). -/
abbrev Inst := BitVec 32

end Sys2Proof
end

