-- ==== Sys2Proof/Syntax.lean ====
section
/-!
DEFINITION. The instructions, operations and events of the Kranil K9: one constructor of `Instr` for each
row of opcode_table.json. A Twirus instruction carries its park bit P first (R46, R47) and then the fields that
the opcode map of 03_encoding names. The standard instructions of RV64IMA, Zicsr, Zifencei, Zba and Zbb are grouped as the table
groups them. An operation or event that no thread issues names the unit it happens at and carries the data
that comes from outside the device.
-/
namespace Sys2Proof

/-- RV64I loads (R43, R44). -/
inductive LoadOp where
  | lb | lh | lw | ld | lbu | lhu | lwu
  deriving DecidableEq, Repr

/-- RV64I stores (R43, R44). -/
inductive StoreOp where
  | sb | sh | sw | sd
  deriving DecidableEq, Repr

/-- Register-register operations of OP: RV64I, M, Zba and Zbb (R43). -/
inductive AluOp where
  | add | sub | sll | slt | sltu | xor | srl | sra | or | and
  | mul | mulh | mulhsu | mulhu | div | divu | rem | remu
  | sh1add | sh2add | sh3add
  | andn | orn | xnor | max | maxu | min | minu | rol | ror
  deriving DecidableEq, Repr

/-- Register-register operations of OP-32: RV64I, M, Zba and Zbb (R43). -/
inductive AluWOp where
  | addw | subw | sllw | srlw | sraw
  | mulw | divw | divuw | remw | remuw
  | adduw | sh1adduw | sh2adduw | sh3adduw
  | rolw | rorw
  deriving DecidableEq, Repr

/-- Register-immediate operations with a 12-bit immediate (R43). -/
inductive ImmOp where
  | addi | slti | sltiu | xori | ori | andi | addiw
  deriving DecidableEq, Repr

/-- Shifts by a 6-bit immediate (R43). -/
inductive ShiftOp where
  | slli | srli | srai | rori | slliuw
  deriving DecidableEq, Repr

/-- Word shifts by a 5-bit immediate (R43). -/
inductive ShiftWOp where
  | slliw | srliw | sraiw | roriw
  deriving DecidableEq, Repr

/-- One-source operations of Zbb (R43). -/
inductive UnaryOp where
  | clz | ctz | cpop | sextb | sexth | orcb | rev8 | zexth | clzw | ctzw | cpopw
  deriving DecidableEq, Repr

/-- A register computation of the base (row BASE_COMPUTE, R43). -/
inductive Compute where
  | op (f : AluOp) (rd rs1 rs2 : Reg)
  | op32 (f : AluWOp) (rd rs1 rs2 : Reg)
  | imm (f : ImmOp) (rd rs1 : Reg) (imm : BitVec 12)
  | shift (f : ShiftOp) (rd rs1 : Reg) (sh : BitVec 6)
  | shiftW (f : ShiftWOp) (rd rs1 : Reg) (sh : BitVec 5)
  | unary (f : UnaryOp) (rd rs1 : Reg)
  | lui (rd : Reg) (imm : BitVec 20)
  | auipc (rd : Reg) (imm : BitVec 20)
  deriving DecidableEq, Repr

/-- Conditions of the conditional branches (R44). -/
inductive BranchOp where
  | beq | bne | blt | bge | bltu | bgeu
  deriving DecidableEq, Repr

/-- A branch or jump of the base (row BRANCH_JUMP, R42). An offset is held without its bit 0, which is always zero. -/
inductive Jump where
  | branch (f : BranchOp) (rs1 rs2 : Reg) (off : BitVec 12)
  | jal (rd : Reg) (off : BitVec 20)
  | jalr (rd rs1 : Reg) (imm : BitVec 12)
  deriving DecidableEq, Repr

/-- Operations of the A extension beside LR and SC (R44). -/
inductive AmoOp where
  | swap | add | xor | and | or | min | max | minu | maxu
  deriving DecidableEq, Repr

/-- What a CSR instruction does with its operand (R105). -/
inductive CsrOp where
  | rw | rs | rc
  deriving DecidableEq, Repr

/-- The register that a write without a row of its own addresses (row REGISTER_WRITE, R105, R347). -/
inductive RegTarget where
  /-- A CSR of the current thread, by number. -/
  | csr (num : BitVec 12)
  /-- A doubleword of BAR0, by its byte offset. -/
  | bar0 (off : Nat)
  deriving DecidableEq, Repr

/-- The signed configuration: the device number, the two timeouts, and where the pool of context regions stands (R301, R348,
R377; log 31). -/
structure BootConfig where
  devnum   : BitVec 11
  farto    : BitVec 32
  barto    : BitVec 32
  poolBase : Nat
  poolSize : Nat
  deriving DecidableEq, Repr

/-- The instructions, operations and events of opcode_table.json. -/
inductive Instr where
  /-- CHUNK (R78) -/
  | chunk (p : Bool)
  /-- YIELD (R78) -/
  | yield (p : Bool)
  /-- PAUSE (R78): a is the cycle count -/
  | pause (p : Bool) (a : Reg)
  /-- FENCE.S (R79): a is the scope -/
  | fenceS (p : Bool) (a : Reg)
  /-- BAR (R80): d status, a scope -/
  | bar (p : Bool) (d a : Reg)
  /-- WAITB (R222): n batch -/
  | waitb (p : Bool) (n : BitVec 4)
  /-- BATCH (R217): n batch -/
  | batch (p : Bool) (n : BitVec 4)
  /-- ENQ (R219): d ticket, a first register of the group, e engine -/
  | enq (p : Bool) (d a : Reg) (e : BitVec 2)
  /-- ENGQ (R223): d status word, a ticket -/
  | engq (p : Bool) (d a : Reg)
  /-- LCLR (R84): l level -/
  | lclr (p : Bool) (l : BitVec 1)
  /-- AEQW (R85): a data -/
  | aeqw (p : Bool) (a : Reg)
  /-- AEQR (R85): d data -/
  | aeqr (p : Bool) (d : Reg)
  /-- CTXSAVE (R86): a area, b slot -/
  | ctxsave (p : Bool) (a b : Reg)
  /-- CTXLOAD (R87): a area, b slot -/
  | ctxload (p : Bool) (a b : Reg)
  /-- TLBINV (R88): a virtual address, b address-space identifier -/
  | tlbinv (p : Bool) (a b : Reg)
  /-- ZLINE (R89): a line address -/
  | zline (p : Bool) (a : Reg)
  /-- LOOP (R82): l level, a count register, len body length -/
  | loop (p : Bool) (l : BitVec 1) (a : Reg) (len : BitVec 11)
  /-- SPAWN (R306) -/
  | spawn (p : Bool) (a b : Reg)
  /-- JOIN (R311) -/
  | join (p : Bool) (a : Reg)
  /-- TAKE (R307) -/
  | take (p : Bool) (d : Reg)
  /-- TNEW (R309) -/
  | tnew (p : Bool) (d a b : Reg)
  /-- TDEC (R310) -/
  | tdec (p : Bool) (a : Reg)
  /-- TEXIT (R313) -/
  | texit (p : Bool)
  /-- TLIST (R312) -/
  | tlist (p : Bool) (a : Reg)
  /-- SEND (R254) -/
  | send (p : Bool) (a b : Reg)
  /-- SENDT (R254): d holds the VRT and is read -/
  | sendt (p : Bool) (a b d : Reg)
  /-- RECV (R255) -/
  | recv (p : Bool) (d a : Reg)
  /-- RECVS (R255) -/
  | recvs (p : Bool) (d a b : Reg)
  /-- RECVT (R260) -/
  | recvt (p : Bool) (d : Reg)
  /-- EVEND (R261) -/
  | evend (p : Bool)
  /-- STIRV (R266) -/
  | stirv (p : Bool) (a b : Reg)
  /-- OPTON (R258) -/
  | opton (p : Bool) (a : Reg)
  /-- OPTOFF (R274) -/
  | optoff (p : Bool)
  /-- MSGQ (R257) -/
  | msgq (p : Bool) (d a : Reg)
  /-- IXPOP (R286) -/
  | ixpop (p : Bool) (d : Reg)
  /-- IXPAIR (R292) -/
  | ixpair (p : Bool) (a b : Reg)
  /-- IXNEW (R294) -/
  | ixnew (p : Bool) (d : Reg)
  /-- IXFREE (R294) -/
  | ixfree (p : Bool) (a : Reg)
  /-- IXLINK (R292) -/
  | ixlink (p : Bool) (a b : Reg)
  /-- IXRULE (R289) -/
  | ixrule (p : Bool) (a b : Reg)
  /-- IXDONE (R288) -/
  | ixdone (p : Bool)
  /-- PTRFMT (R90) -/
  | ptrfmt (p : Bool) (d a b : Reg)
  /-- PTRINFO (R90) -/
  | ptrinfo (p : Bool) (d a : Reg)
  /-- PTRCLR (R90) -/
  | ptrclr (p : Bool) (d a : Reg)
  /-- LDL (R91): mode, size and offset of the immediate (R57) -/
  | ldl (p : Bool) (d a : Reg) (mode size : BitVec 2) (off : BitVec 7)
  /-- STL (R91) -/
  | stl (p : Bool) (a b : Reg) (mode size : BitVec 2) (off : BitVec 7)
  /-- RED.ADD.W (R94): a address, b operand -/
  | redAddW (p : Bool) (a b : Reg)
  /-- RED.ADD.D (R94): a address, b operand -/
  | redAddD (p : Bool) (a b : Reg)
  /-- RED.MIN.W (R94): a address, b operand -/
  | redMinW (p : Bool) (a b : Reg)
  /-- RED.MIN.D (R94): a address, b operand -/
  | redMinD (p : Bool) (a b : Reg)
  /-- RED.MAX.W (R94): a address, b operand -/
  | redMaxW (p : Bool) (a b : Reg)
  /-- RED.MAX.D (R94): a address, b operand -/
  | redMaxD (p : Bool) (a b : Reg)
  /-- RED.AND.D (R94): a address, b operand -/
  | redAndD (p : Bool) (a b : Reg)
  /-- RED.OR.D (R94): a address, b operand -/
  | redOrD (p : Bool) (a b : Reg)
  /-- RED.XOR.D (R94): a address, b operand -/
  | redXorD (p : Bool) (a b : Reg)
  /-- RED.FADD.S (R94): a address, b operand -/
  | redFaddS (p : Bool) (a b : Reg)
  /-- RED.FXA (R94): a address, b operand -/
  | redFxa (p : Bool) (a b : Reg)
  /-- LRW.W (R96) -/
  | lrwW (p : Bool) (d a : Reg)
  /-- LRW.D (R96) -/
  | lrwD (p : Bool) (d a : Reg)
  /-- SCH.W (R98) -/
  | schW (p : Bool) (a b : Reg)
  /-- SCH.D (R98) -/
  | schD (p : Bool) (a b : Reg)
  /-- LRWQ (R99) -/
  | lrwq (p : Bool) (d a : Reg)
  /-- STX.W (R100) -/
  | stxW (p : Bool) (a b : Reg)
  /-- STX.D (R100) -/
  | stxD (p : Bool) (a b : Reg)
  /-- STX.REL.W (R101): d holds the scope and is read -/
  | stxRelW (p : Bool) (a b d : Reg)
  /-- STX.REL.D (R101) -/
  | stxRelD (p : Bool) (a b d : Reg)
  /-- LDA.W (R102): b scope -/
  | ldaW (p : Bool) (d a b : Reg)
  /-- LDA.D (R102) -/
  | ldaD (p : Bool) (d a b : Reg)
  /-- VLD (R194): g predicate -/
  | vld (p : Bool) (g : BitVec 3) (d a : Reg)
  /-- VST (R194): g predicate -/
  | vst (p : Bool) (g : BitVec 3) (d a : Reg)
  /-- VLDS (R194): b stride -/
  | vlds (p : Bool) (g : BitVec 3) (d a b : Reg)
  /-- VSTS (R194): b stride -/
  | vsts (p : Bool) (g : BitVec 3) (d a b : Reg)
  /-- VGATH (R194): b index vector -/
  | vgath (p : Bool) (g : BitVec 3) (d a b : Reg)
  /-- VSCAT (R194): b index vector -/
  | vscat (p : Bool) (g : BitVec 3) (d a b : Reg)
  /-- VLDL (R195) -/
  | vldl (p : Bool) (g : BitVec 3) (d a : Reg)
  /-- VSTL (R195) -/
  | vstl (p : Bool) (g : BitVec 3) (d a : Reg)
  /-- VADD (R186) -/
  | vadd (p : Bool) (g : BitVec 3) (d a b : Reg)
  /-- VSUB (R186) -/
  | vsub (p : Bool) (g : BitVec 3) (d a b : Reg)
  /-- VMUL (R186) -/
  | vmul (p : Bool) (g : BitVec 3) (d a b : Reg)
  /-- VFMA (R186) -/
  | vfma (p : Bool) (g : BitVec 3) (d a b : Reg)
  /-- VFMS (R186) -/
  | vfms (p : Bool) (g : BitVec 3) (d a b : Reg)
  /-- VMIN (R186) -/
  | vmin (p : Bool) (g : BitVec 3) (d a b : Reg)
  /-- VMAX (R186) -/
  | vmax (p : Bool) (g : BitVec 3) (d a b : Reg)
  /-- VABS (R186) -/
  | vabs (p : Bool) (g : BitVec 3) (d a : Reg)
  /-- VNEG (R186) -/
  | vneg (p : Bool) (g : BitVec 3) (d a : Reg)
  /-- VAND (R187) -/
  | vand (p : Bool) (g : BitVec 3) (d a b : Reg)
  /-- VOR (R187) -/
  | vor (p : Bool) (g : BitVec 3) (d a b : Reg)
  /-- VXOR (R187) -/
  | vxor (p : Bool) (g : BitVec 3) (d a b : Reg)
  /-- VSHL (R187) -/
  | vshl (p : Bool) (g : BitVec 3) (d a b : Reg)
  /-- VSHR (R187) -/
  | vshr (p : Bool) (g : BitVec 3) (d a b : Reg)
  /-- VSHRL (R187) -/
  | vshrl (p : Bool) (g : BitVec 3) (d a b : Reg)
  /-- VCMPEQ (R188): d names a p register -/
  | vcmpeq (p : Bool) (g d : BitVec 3) (a b : Reg)
  /-- VCMPLT (R188): d names a p register -/
  | vcmplt (p : Bool) (g d : BitVec 3) (a b : Reg)
  /-- VCMPLE (R188): d names a p register -/
  | vcmple (p : Bool) (g d : BitVec 3) (a b : Reg)
  /-- VSEL (R189) -/
  | vsel (p : Bool) (g : BitVec 3) (d a b : Reg)
  /-- VMOV (R189) -/
  | vmov (p : Bool) (g : BitVec 3) (d a : Reg)
  /-- VBCAST (R189): a names an x register -/
  | vbcast (p : Bool) (g : BitVec 3) (d a : Reg)
  /-- VINS (R189) -/
  | vins (p : Bool) (g : BitVec 3) (d a b : Reg)
  /-- VEXT (R189): d and b name x registers -/
  | vext (p : Bool) (g : BitVec 3) (d a b : Reg)
  /-- VPERM (R189) -/
  | vperm (p : Bool) (g : BitVec 3) (d a b : Reg)
  /-- VCVT (R190): fmt destination code, u unsigned -/
  | vcvt (p : Bool) (g : BitVec 3) (d a : Reg) (fmt : BitVec 4) (u : Bool)
  /-- VRSUM (R191) -/
  | vrsum (p : Bool) (g : BitVec 3) (d a : Reg)
  /-- VRMAX (R191) -/
  | vrmax (p : Bool) (g : BitVec 3) (d a : Reg)
  /-- VRMIN (R191) -/
  | vrmin (p : Bool) (g : BitVec 3) (d a : Reg)
  /-- VRCP (R177, R191) -/
  | vrcp (p : Bool) (g : BitVec 3) (d a : Reg)
  /-- VRSQRT (R177, R191) -/
  | vrsqrt (p : Bool) (g : BitVec 3) (d a : Reg)
  /-- VEXP2 (R177, R191) -/
  | vexp2 (p : Bool) (g : BitVec 3) (d a : Reg)
  /-- VLOG2 (R177, R191) -/
  | vlog2 (p : Bool) (g : BitVec 3) (d a : Reg)
  /-- VSETT (R192) -/
  | vsett (p : Bool) (d a : Reg)
  /-- PAND (R192) -/
  | pand (p : Bool) (d a b : BitVec 3)
  /-- POR (R192) -/
  | por (p : Bool) (d a b : BitVec 3)
  /-- PNOT (R192) -/
  | pnot (p : Bool) (d a : BitVec 3)
  /-- PCNT (R192) -/
  | pcnt (p : Bool) (d : Reg) (a : BitVec 3)
  /-- PFIRST (R192) -/
  | pfirst (p : Bool) (d : Reg) (a : BitVec 3)
  /-- PSET (R192) -/
  | pset (p : Bool) (d : BitVec 3) (a : Reg)
  /-- TLD (R200): pitched -/
  | tld (p : Bool) (td : BitVec 3) (a : Reg) (pitched : Bool)
  /-- TST (R200) -/
  | tst (p : Bool) (td : BitVec 3) (a : Reg) (pitched : Bool)
  /-- TZERO (R201) -/
  | tzero (p : Bool) (td : BitVec 3)
  /-- TMOV (R201) -/
  | tmov (p : Bool) (td ta : BitVec 3)
  /-- TTRANS (R201) -/
  | ttrans (p : Bool) (td ta : BitVec 3)
  /-- ACLD (R202) -/
  | acld (p : Bool) (td : BitVec 2) (a : Reg)
  /-- ACST (R202) -/
  | acst (p : Bool) (td : BitVec 2) (a : Reg)
  /-- ACZ (R202) -/
  | acz (p : Bool) (td : BitVec 2)
  /-- TCVT (R203) -/
  | tcvt (p : Bool) (td : BitVec 3) (ta : BitVec 2)
  /-- TGEN (R204): tr transposed -/
  | tgen (p : Bool) (td g : BitVec 3) (tr : Bool)
  /-- TFILL (R201) -/
  | tfill (p : Bool) (td : BitVec 3) (a : Reg)
  /-- TMMA (R205) -/
  | tmma (p : Bool) (td : BitVec 2) (ta tb : BitVec 3) (tr : Bool)
  /-- TMMAS (R206): tm metadata tile -/
  | tmmas (p : Bool) (td : BitVec 2) (ta tb tm : BitVec 3) (tr : Bool)
  /-- TMMAG (R207): g generator -/
  | tmmag (p : Bool) (td : BitVec 2) (ta g : BitVec 3) (tr : Bool)
  /-- GSET.K (R212) -/
  | gsetK (p : Bool) (gd : BitVec 3) (a : Reg)
  /-- GSET.SEED (R212) -/
  | gsetSeed (p : Bool) (gd : BitVec 3) (a : Reg)
  /-- GSET.SCOPE (R212): loc is the SCOPE-LOCAL bit -/
  | gsetScope (p : Bool) (gd : BitVec 3) (a : Reg) (loc : Bool)
  /-- GSET.ORG (R212) -/
  | gsetOrg (p : Bool) (gd : BitVec 3) (a : Reg)
  /-- GSET.PAR (R212) -/
  | gsetPar (p : Bool) (gd : BitVec 3) (a : Reg)
  /-- A standard load (R103) -/
  | standardLoad (f : LoadOp) (rd rs1 : Reg) (imm : BitVec 12)
  /-- A standard store (R103) -/
  | standardStore (f : StoreOp) (rs1 rs2 : Reg) (imm : BitVec 12)
  /-- A register computation of the base (R43) -/
  | baseCompute (c : Compute)
  /-- A branch or jump (R42) -/
  | branchJump (j : Jump)
  /-- FENCE (R45, R103), its fm, pred, succ, rd and rs1 fields without effect -/
  | fence (fm pred succ : BitVec 4) (rd rs1 : Reg)
  /-- FENCE.TSO (R45) -/
  | fenceTso (rd rs1 : Reg)
  /-- FENCE.I (R103) -/
  | fenceI (imm : BitVec 12) (rd rs1 : Reg)
  /-- LR.W and LR.D (R103): dbl selects LR.D -/
  | lr (dbl aq rl : Bool) (rd rs1 : Reg)
  /-- SC.W and SC.D (R103) -/
  | sc (dbl aq rl : Bool) (rd rs1 rs2 : Reg)
  /-- AMO* (R103) -/
  | amo (f : AmoOp) (dbl aq rl : Bool) (rd rs1 rs2 : Reg)
  /-- WFI (R103) -/
  | wfi
  /-- SFENCE.VMA (R103) -/
  | sfenceVma (rs1 rs2 : Reg)
  /-- ECALL (R103) -/
  | ecall
  /-- EBREAK (R103) -/
  | ebreak
  /-- SRET (R331) -/
  | sret
  /-- A CSR instruction (R105): the immediate forms take src as uimm -/
  | csrInstruction (f : CsrOp) (immediate : Bool) (csr : BitVec 12) (rd src : Reg)
  /-- R26: outstanding result k of thread t returns to its register -/
  | longLatencyResult (t k : Nat)
  /-- R121: the line at pa fills the L1 data or instruction cache of a core -/
  | missFill (core pa : Nat) (fetch : Bool)
  /-- R327: thread t takes its enabled pending interrupt -/
  | interrupt (t : Nat)
  /-- R327: the management processor sets or clears SEIP of thread t -/
  | seiChange (t : Nat) (on : Bool)
  /-- R327: the timer of thread t sets or clears STIP -/
  | stiTimer (t : Nat) (on : Bool)
  /-- R327: the management processor sets SSIP of thread t -/
  | mpWake (t : Nat)
  /-- R78: the YIELD or PAUSE wait of thread t expires -/
  | yieldEnd (t : Nat)
  /-- R138: the pending commit request of thread t is granted -/
  | commitGrant (t : Nat)
  /-- R140: commit broadcast k reaches its L1 -/
  | commitBroadcastApply (k : Nat)
  /-- R38: the package commit token goes to the first thread that asked -/
  | tokenGrant
  /-- R139: the post-commit list of thread t's granted chunk is released -/
  | postCommitRelease (t : Nat)
  /-- R221: action k in flight, an engine command, is installed -/
  | commandInstall (k : Nat)
  /-- R141: action k in flight, a relaxed store, is performed at its home -/
  | relaxedStorePerform (k : Nat)
  /-- R94: action k in flight, a reduction, is applied at its home -/
  | reductionApply (k : Nat)
  /-- R141: invalidation k is applied at its L1 -/
  | invalidationApply (k : Nat)
  /-- R145: action k in flight, a release, completes -/
  | releaseComplete (k : Nat)
  /-- R88: TLBINV k is complete in every TLB -/
  | tlbinvComplete (k : Nat)
  /-- R149: action k in flight, a far store group, is performed at its destination -/
  | farStoreGroup (k : Nat)
  /-- R149: the peer serves far request k -/
  | farRequestServe (k : Nat)
  /-- R150: far request k is acknowledged -/
  | farAck (k : Nat)
  /-- R151: far request k is refused late with a class -/
  | farRefusal (k : Nat) (cls : BitVec 4)
  /-- R151: far request k is refused after the far timeout -/
  | farTimeout (k : Nat)
  /-- R353: a peer has written data at pa, and the switch invalidates the span here -/
  | switchInvalidation (pa : Nat) (data : List Byte)
  /-- R80: action k in flight, a barrier arrival, reaches the Leash -/
  | barrierArrival (k : Nat)
  /-- R80: barrier instance k aborts -/
  | barrierTimeout (k : Nat)
  /-- R96: action k in flight, an LRW request, reaches its home bank -/
  | reservationRequest (k : Nat)
  /-- R98: action k in flight, a handover, frees its word -/
  | reservationHandover (k : Nat)
  /-- R96: refused request k is re-sent -/
  | reservationResend (k : Nat)
  /-- R97: the grant of reservation k passes to the next waiter -/
  | grantTimeout (k : Nat)
  /-- R97, R108: thread t has slept for WAITSWAP cycles and is swapped out -/
  | waitswapExpiry (t : Nat)
  /-- R251: action k in flight, a message, reaches its destination core -/
  | messageArrival (k : Nat)
  /-- R250: acknowledgement k frees its send-queue entry -/
  | messageAck (k : Nat)
  /-- R251: the spill ring of channel c of thread t drains -/
  | spillRingDrain (t : Nat) (c : BitVec 2)
  /-- R270: action k in flight, an anti-message, arrives -/
  | antiMessageArrival (k : Nat)
  /-- R269: the rollback sequencer of thread t runs -/
  | rollback (t : Nat)
  /-- R272: a new GVT is published for the group of a LAUNCHKEY -/
  | gvtPublish (key : Word)
  /-- R267: thread t has waited 1 ms for a ring entry -/
  | ringWaitTimeout (t : Nat)
  /-- R40: thread t, waiting in TAKE or IXPOP, tries its victims -/
  | steal (t : Nat)
  /-- R310: action k in flight, a decrement, is applied at its home core -/
  | taskDecrement (k : Nat)
  /-- R286: the Leash detects quiescence of launch l -/
  | launchQuiescent (l : Nat)
  /-- R293: the free-node cache of launch l on a core is refilled -/
  | nodeCacheRefill (core l : Nat)
  /-- R228: the matrix engine of a core runs the MMA at its head -/
  | mma (core : Nat)
  /-- R229: as MMA, with B from the generator snapshot -/
  | mmag (core : Nat)
  /-- R230: as MMA, with A in 2:4 form -/
  | mmas (core : Nat)
  /-- R231: the matrix engine clears accumulator blocks -/
  | accz (core : Nat)
  /-- R232: the matrix engine converts accumulator blocks out -/
  | accout (core : Nat)
  /-- R233: the matrix engines of a gang compute one product -/
  | gangmma (core : Nat)
  /-- R234: the copy engine runs the COPY at the head of a core's FIFO -/
  | copy (core : Nat)
  /-- R237: the copy engine sends the REDCOPY at the head of a core's FIFO -/
  | redcopy (core : Nat)
  /-- R235: the copy engine gathers -/
  | gather (core : Nat)
  /-- R235: the copy engine scatters -/
  | scatter (core : Nat)
  /-- R236: the copy engine delivers scales to the masked cores -/
  | scalecast (core : Nat)
  /-- R239: the collective port of a core takes an ALLRED -/
  | allred (core : Nat)
  /-- R239: the collective port takes a BCAST -/
  | bcast (core : Nat)
  /-- R239: the collective port takes a REDSCAT -/
  | redscat (core : Nat)
  /-- R239: the collective port takes an ALLGATH -/
  | allgath (core : Nat)
  /-- R361: the checkpoint engine takes the save at its head -/
  | ckpt
  /-- R363: the checkpoint engine runs the restore at its head -/
  | ckptRestore
  /-- R148: the command of that identifier retires and releases -/
  | commandRetire (ticketId : Nat)
  /-- R238: the controllers apply, hold, refuse or reject a reducing copy -/
  | redcopyApply (ticketId : Nat)
  /-- R238: a refused reducing copy is re-sent -/
  | redcopyResend (ticketId : Nat)
  /-- R238: region r has held a command for 1 ms -/
  | regionGapTimeout (r : Nat)
  /-- R356: the contributions of a collective reach the switch; remote gives those of ranks on other devices -/
  | collectiveContribution (slot : Nat) (remote : List (Nat × List Byte))
  /-- R356: the collective of a slot aborts -/
  | collectiveTimeout (slot : Nat)
  /-- R361: every device has posted the save -/
  | ckptAllArrived
  /-- R361: the save has not been posted everywhere within BARTO -/
  | ckptTimeout
  /-- R361: the second Leash round resumes the domain -/
  | ckptResume
  /-- R362: the records are drained to the buddy and the host -/
  | ckptDrain
  /-- R315: a window of the vector arbiter begins on a core -/
  | vectorWindow (core : Nat)
  /-- R126: a REFpb falls due at a bank -/
  | refpbDue (stack pc bank : Nat)
  /-- R126: a bank with owed refreshes and no queued read issues one -/
  | owedRefresh (stack pc bank : Nat)
  /-- R126: a refresh ends -/
  | refreshEnd (stack pc bank : Nat)
  /-- R153: the host snoops a line, and writes data to it where given -/
  | hostSnoop (pa : Nat) (data : Option (List Byte))
  /-- R154: the host reads HDM, or writes data to it where given -/
  | hostCxlMemAccess (pa : Nat) (data : Option (List Byte))
  /-- R154: the flip asked for in the bias control block starts -/
  | biasFlip
  /-- R154: the bias bit changes and the flip is complete -/
  | biasFlipComplete
  /-- R298: the host writes QTAIL of queue q -/
  | qtailWrite (q : Nat) (v : Word)
  /-- R298: the launch engine fetches the next record of queue q -/
  | recordFetch (q : Nat)
  /-- R298: a record with a stale SEQ is fetched again -/
  | recordRefetch (q : Nat)
  /-- R299: the launch engine places the head record it serves next -/
  | launchPlacement
  /-- R316: thread t is pre-empted and its context moves to the TCC -/
  | preemption (t : Nat)
  /-- R317: the context scheduler restores thread t into a free slot -/
  | contextRestore (t : Nat)
  /-- R321: firmware disables a slot -/
  | slotDisable (core slot : Nat)
  /-- R321: firmware re-enables a slot -/
  | slotEnable (core slot : Nat)
  /-- R303: launch l completes -/
  | launchComplete (l : Nat)
  /-- R297: a write of QSIZE's register or of QBASE -/
  | queueConfigWrite (q : Nat) (size : Bool) (v : Word)
  /-- R304: RES := 0 -/
  | queueSwitchOut (q : Nat)
  /-- R304: RES := 1 -/
  | queueSwitchIn (q : Nat)
  /-- R300: CLEAR -/
  | queueClear (q : Nat)
  /-- R300: CLEAR with SKIP -/
  | queueClearSkip (q : Nat)
  /-- R31: the current thread writes CHUNKLEN -/
  | chunklenWrite (v : Word)
  /-- R29: the current thread writes AEROLE -/
  | aeroleWrite (v : Word)
  /-- R38: the current thread writes SQUASHMAX -/
  | squashmaxWrite (v : Word)
  /-- R40: the current thread writes STEALDOM -/
  | stealdomWrite (v : Word)
  /-- R81: the current thread writes LOOPC0 or LOOPC1 -/
  | loopcWrite (l : BitVec 1) (v : Word)
  /-- R131: the current thread writes ERRINJ -/
  | errinjWrite (v : Word)
  /-- R130: the current thread writes the word of ERRLOG that ERRSEL selects -/
  | errlogEntryClear (v : Word)
  /-- R241: the current thread writes EVCNTn or EVTERMn -/
  | eventCsrWrite (cnt : Bool) (n : BitVec 3) (v : Word)
  /-- R324: the current thread writes THERMRANK or TCCCTL -/
  | perCoreCsrWrite (therm : Bool) (v : Word)
  /-- R318: the dirty TCC entries of a core are written to their areas -/
  | tccFlush (core : Nat)
  /-- R374: a committed TMARK write of thread t marks -/
  | tmarkMark (t : Nat) (v : Word)
  /-- R374: a committed TMARK write of thread t starts a capture -/
  | tmarkStart (t : Nat) (v : Word)
  /-- R374: a committed TMARK write of thread t stops a capture -/
  | tmarkStop (t : Nat) (v : Word)
  /-- R328: the current thread writes satp -/
  | satpWrite (v : Word)
  /-- R326: the current thread writes stvec -/
  | stvecWrite (v : Word)
  /-- R314: the current thread writes VSHARE -/
  | vshareWrite (v : Word)
  /-- R105, R347: a write to a register without a row of its own -/
  | registerWrite (r : RegTarget) (v : Word)
  /-- R352: the fabric manager writes doubleword i of the membership block -/
  | domainMembershipWrite (i : Nat) (v : Word)
  /-- R354: VALID of region r is set -/
  | regionValid (r : Nat)
  /-- R354: RESET of region r is written -/
  | regionReset (r : Nat)
  /-- R355: VALID of collective slot s is set -/
  | collectiveSlotValid (s : Nat)
  /-- R351: a link replays a flit -/
  | flitCrcReplay (port : Nat)
  /-- R351: a port goes down -/
  | portDown (port : Nat)
  /-- R365: HALT of a debug module -/
  | debugHalt (cluster : Nat)
  /-- R366: RESUME of a debug module -/
  | debugResume (cluster : Nat)
  /-- R364: a read of DMDATA -/
  | dmdataRead (cluster : Nat)
  /-- R367: a write of DMDATA -/
  | dmdataWrite (cluster : Nat) (v : Word)
  /-- R367: a read of DMMEM -/
  | dmmemRead (cluster : Nat)
  /-- R367: a write of DMMEM -/
  | dmmemWrite (cluster : Nat) (v : Word)
  /-- R369: the STATE packet of thread t is emitted -/
  | statePacketFlush (t : Nat)
  /-- R372: the host writes TRRDPTR -/
  | trrdptrWrite (v : Word)
  /-- R376: FRZ_N or the management processor freezes the package -/
  | freezeSignal
  /-- R376: a write of the freeze register -/
  | freezeRegisterWrite (v : Word)
  /-- R376: a warm reset -/
  | warmReset
  /-- R376: a cold reset -/
  | coldReset
  /-- R377: bring-up with the signed configuration, the outcome of the image check and the cores that failed the self-test -/
  | boot (ldb : BitVec 4) (conf : BootConfig) (imgErr recovery : Bool) (offline : List Nat)
  /-- R377: a write in the flash window -/
  | flashWindowWrite (off : Nat) (v : Word)
  /-- R378: a write of PWRCAP -/
  | pwrcapWrite (v : Word)
  /-- R378: firmware lowers the clock or disables a slot -/
  | powerThrottle
  /-- R378: firmware gates an idle cluster -/
  | clusterPowerGate (cluster : Nat)
  /-- R378: a gated cluster wakes -/
  | clusterWake (cluster : Nat)
  /-- R378: the module enters D3hot -/
  | d3hotEntry
  /-- R340: the host agent that held a line fails -/
  | hostAgentFailure (pa : Nat)
  /-- R378: the module leaves D3hot -/
  | d3hotExit
  deriving DecidableEq, Repr

end Sys2Proof
end

