-- ==== Sys2Proof/WellFormed.lean ====
section
/-!
DEFINITION. Which instructions the encoding admits: the limits of R49 to R61 that the fields of a constructor do
not already hold. An ill-formed term stands for no word; decode never answers with one.
-/
namespace Sys2Proof

/-- Register r lies in the run of n registers that starts at a (R49). -/
def inGroup (r a : Reg) (n : Nat) : Bool :=
  decide (a.toNat ≤ r.toNat) && decide (r.toNat < a.toNat + n)

/-- A destination pair of x registers starts at 1 to 30 (R49). -/
def xPairOk (d : Reg) : Bool :=
  decide (1 ≤ d.toNat) && decide (d.toNat ≤ 30)

/-- A destination pair of v registers starts at 30 or below (R49). -/
def vPairOk (d : Reg) : Bool :=
  decide (d.toNat ≤ 30)

/-- The source group of four of ENQ starts at 28 or below and does not overlap the destination (R49). -/
def enqGroupOk (d a : Reg) : Bool :=
  decide (a.toNat ≤ 28) && !inGroup d a 4

/-- A bank of an HBM stack exists (R125). -/
def bankOk (stack pc bank : Nat) : Bool :=
  decide (stack < 16) && decide (pc < 64) && decide (bank < 16)

/-- The limits of R49, R52, R57, R60 on the fields, and the ranges of units that an event names. -/
def Instr.wf : Instr → Bool
  | .loop _ _ _ len => len != 0
  | .enq _ d a _ => enqGroupOk d a
  | .take _ d => xPairOk d
  | .ixpop _ d => xPairOk d
  | .recv _ d _ => vPairOk d
  | .recvs _ d _ _ => vPairOk d
  | .recvt _ d => vPairOk d
  | .ldl _ _ _ mode _ _ => mode != 3
  | .stl _ _ _ mode _ _ => mode != 3
  | .tld _ _ a pitched => !pitched || decide (a.toNat ≤ 30)
  | .tst _ _ a pitched => !pitched || decide (a.toNat ≤ 30)
  | .fence fm pred succ _ _ => !(fm == 8 && pred == 3 && succ == 3)
  | .mma core | .mmag core | .mmas core | .accz core | .accout core | .gangmma core
  | .copy core | .redcopy core | .gather core | .scatter core | .scalecast core
  | .allred core | .bcast core | .redscat core | .allgath core
  | .vectorWindow core | .tccFlush core => decide (core < 1344)
  | .refpbDue s pc b | .owedRefresh s pc b | .refreshEnd s pc b => bankOk s pc b
  | .qtailWrite q _ | .recordFetch q | .recordRefetch q | .queueConfigWrite q _ _
  | .queueSwitchOut q | .queueSwitchIn q | .queueClear q | .queueClearSkip q => decide (q < 64)
  | .regionValid r | .regionReset r | .regionGapTimeout r => decide (r < 64)
  | .collectiveSlotValid s | .collectiveTimeout s | .collectiveContribution s _ => decide (s < 256)
  | .slotDisable core slot | .slotEnable core slot => decide (core < 1344) && decide (slot < 16)
  | .debugHalt c | .debugResume c | .dmdataRead c | .dmdataWrite c _ | .dmmemRead c | .dmmemWrite c _
  | .clusterPowerGate c | .clusterWake c => decide (c < 168)
  | .domainMembershipWrite i _ => decide (i < 32)
  | .flitCrcReplay p | .portDown p => decide (p < 12)
  | _ => true

end Sys2Proof
end

