-- ==== Sys2Proof/Decode.lean ====
section
/-!
DEFINITION. The decoder, total on any 32-bit word, and the encoder, both written from the encoding tables of
03_encoding, 05_scalar, 13_vector_tile, 15_engines, 17_messages, 19_nets and 21_scheduling, and for the standard
base from the RISC-V formats that R43 takes over. A rejected word is rejected by name; on the machine every
rejection is the illegal-instruction trap (R42, R43, R48).
-/
namespace Sys2Proof

/-- Why a word is no instruction of the K9. -/
inductive Reject where
  /-- Bits [1:0] are not 0b11: a 16-bit encoding (R42). -/
  | compressed
  /-- Bits [4:0] are 0b11111: an encoding of 48 bits or more (R42). -/
  | wide
  /-- A major opcode the K9 does not support (R44). -/
  | opcode
  /-- A reserved f3, or a function number that the map does not list (R43, R48). -/
  | function
  /-- A nonzero value in a field that must be zero, or a modifier without meaning (R48). -/
  | field
  /-- A register group out of bounds or overlapping (R49). -/
  | group
  /-- An immediate outside the limits of its entry (R48). -/
  | immediate
  deriving DecidableEq, Repr

/-! Fields of a word (R46). -/

def Inst.opc (w : Inst) : BitVec 7 := w.extractLsb' 0 7
def Inst.d (w : Inst) : Reg := w.extractLsb' 7 5
def Inst.f3 (w : Inst) : BitVec 3 := w.extractLsb' 12 3
def Inst.a (w : Inst) : Reg := w.extractLsb' 15 5
def Inst.b (w : Inst) : Reg := w.extractLsb' 20 5
def Inst.f6 (w : Inst) : BitVec 6 := w.extractLsb' 25 6
def Inst.f7 (w : Inst) : BitVec 7 := w.extractLsb' 25 7
def Inst.park (w : Inst) : Bool := w.getLsbD 31
def Inst.imm12 (w : Inst) : BitVec 12 := w.extractLsb' 20 12
def Inst.immS (w : Inst) : BitVec 12 := w.extractLsb' 25 7 ++ w.extractLsb' 7 5
/-- imm11 of the I format of Twirus. -/
def Inst.imm11 (w : Inst) : BitVec 11 := w.extractLsb' 20 11
/-- imm11 of the S format of Twirus. -/
def Inst.imm11S (w : Inst) : BitVec 11 := w.extractLsb' 25 6 ++ w.extractLsb' 7 5
/-- Fields of the V format. -/
def Inst.vg (w : Inst) : BitVec 3 := w.extractLsb' 22 3
def Inst.vb (w : Inst) : Reg := w.extractLsb' 17 5
def Inst.va (w : Inst) : Reg := w.extractLsb' 12 5
/-- Fields of the T format. -/
def Inst.tf5 (w : Inst) : BitVec 5 := w.extractLsb' 26 5
def Inst.ta (w : Inst) : Reg := w.extractLsb' 21 5
def Inst.ttb (w : Inst) : BitVec 3 := w.extractLsb' 18 3
def Inst.tta (w : Inst) : BitVec 3 := w.extractLsb' 15 3
def Inst.ttd (w : Inst) : BitVec 3 := w.extractLsb' 9 3
def Inst.tm (w : Inst) : BitVec 2 := w.extractLsb' 7 2

/-- The answer i when every named field is zero, the rejection `field` otherwise (R48). -/
def zeroed (ok : Bool) (i : Instr) : Except Reject Instr :=
  if ok then .ok i else .error .field

/-- The low two bits of a 3-bit field name an accumulator, and its high bit is zero (R60, R61). -/
def accOf (x : BitVec 3) : BitVec 2 := x.extractLsb' 0 2

/-- The low three bits of a 5-bit field (R49). -/
def low3 (x : Reg) : BitVec 3 := x.extractLsb' 0 3

/-- The high two bits of a 5-bit field are zero (R49). -/
def hi2z (x : Reg) : Bool := x.extractLsb' 3 2 == 0

/-- The control group, custom-0 f3 = 000 (R51). -/
def decodeControl (w : Inst) : Except Reject Instr :=
  match w.f6.toNat with
  | 0 => zeroed (w.d == 0 && w.a == 0 && w.b == 0) (.chunk w.park)
  | 1 => zeroed (w.d == 0 && w.a == 0 && w.b == 0) (.yield w.park)
  | 2 => zeroed (w.d == 0 && w.b == 0) (.pause w.park w.a)
  | 3 => zeroed (w.d == 0 && w.b == 0) (.fenceS w.park w.a)
  | 4 => zeroed (w.b == 0) (.bar w.park w.d w.a)
  | 5 => if w.b.getLsbD 4 then .error .immediate else zeroed (w.d == 0 && w.a == 0) (.waitb w.park (w.b.extractLsb' 0 4))
  | 6 => if w.b.getLsbD 4 then .error .immediate else zeroed (w.d == 0 && w.a == 0) (.batch w.park (w.b.extractLsb' 0 4))
  | 7 => if w.b.extractLsb' 2 3 != 0 then .error .immediate
    else if enqGroupOk w.d w.a then .ok (.enq w.park w.d w.a (w.b.extractLsb' 0 2)) else .error .group
  | 8 => zeroed (w.b == 0) (.engq w.park w.d w.a)
  | 9 => if w.b.extractLsb' 1 4 != 0 then .error .immediate else zeroed (w.d == 0 && w.a == 0) (.lclr w.park (w.b.extractLsb' 0 1))
  | 10 => zeroed (w.d == 0 && w.b == 0) (.aeqw w.park w.a)
  | 11 => zeroed (w.a == 0 && w.b == 0) (.aeqr w.park w.d)
  | 12 => zeroed (w.d == 0) (.ctxsave w.park w.a w.b)
  | 13 => zeroed (w.d == 0) (.ctxload w.park w.a w.b)
  | 14 => zeroed (w.d == 0) (.tlbinv w.park w.a w.b)
  | 15 => zeroed (w.d == 0 && w.b == 0) (.zline w.park w.a)
  | _ => .error .function

/-- LOOP, custom-0 f3 = 001 (R52). -/
def decodeLoop (w : Inst) : Except Reject Instr :=
  if w.d.extractLsb' 1 4 != 0 then .error .immediate
  else if w.imm11 == 0 then .error .immediate
  else .ok (.loop w.park (w.d.extractLsb' 0 1) w.a w.imm11)

/-- The tasks group, custom-0 f3 = 010 (R53). -/
def decodeTasks (w : Inst) : Except Reject Instr :=
  match w.f6.toNat with
  | 0 => zeroed (w.d == 0) (.spawn w.park w.a w.b)
  | 1 => zeroed (w.d == 0 && w.b == 0) (.join w.park w.a)
  | 2 => if xPairOk w.d then zeroed (w.a == 0 && w.b == 0) (.take w.park w.d) else .error .group
  | 3 => .ok (.tnew w.park w.d w.a w.b)
  | 4 => zeroed (w.d == 0 && w.b == 0) (.tdec w.park w.a)
  | 5 => zeroed (w.d == 0 && w.a == 0 && w.b == 0) (.texit w.park)
  | 6 => zeroed (w.d == 0 && w.b == 0) (.tlist w.park w.a)
  | _ => .error .function

/-- The messages group, custom-0 f3 = 011 (R54). -/
def decodeMessages (w : Inst) : Except Reject Instr :=
  match w.f6.toNat with
  | 0 => zeroed (w.d == 0) (.send w.park w.a w.b)
  | 1 => .ok (.sendt w.park w.a w.b w.d)
  | 2 => if vPairOk w.d then zeroed (w.b == 0) (.recv w.park w.d w.a) else .error .group
  | 3 => if vPairOk w.d then .ok (.recvs w.park w.d w.a w.b) else .error .group
  | 4 => if vPairOk w.d then zeroed (w.a == 0 && w.b == 0) (.recvt w.park w.d) else .error .group
  | 5 => zeroed (w.d == 0 && w.a == 0 && w.b == 0) (.evend w.park)
  | 6 => zeroed (w.d == 0) (.stirv w.park w.a w.b)
  | 7 => zeroed (w.d == 0 && w.b == 0) (.opton w.park w.a)
  | 8 => zeroed (w.d == 0 && w.a == 0 && w.b == 0) (.optoff w.park)
  | 9 => zeroed (w.b == 0) (.msgq w.park w.d w.a)
  | _ => .error .function

/-- The nets group, custom-0 f3 = 100 (R55). -/
def decodeNets (w : Inst) : Except Reject Instr :=
  match w.f6.toNat with
  | 0 => if xPairOk w.d then zeroed (w.a == 0 && w.b == 0) (.ixpop w.park w.d) else .error .group
  | 1 => zeroed (w.d == 0) (.ixpair w.park w.a w.b)
  | 2 => zeroed (w.a == 0 && w.b == 0) (.ixnew w.park w.d)
  | 3 => zeroed (w.d == 0 && w.b == 0) (.ixfree w.park w.a)
  | 4 => zeroed (w.d == 0) (.ixlink w.park w.a w.b)
  | 5 => zeroed (w.d == 0) (.ixrule w.park w.a w.b)
  | 6 => zeroed (w.d == 0 && w.a == 0 && w.b == 0) (.ixdone w.park)
  | _ => .error .function

/-- The pointers group, custom-0 f3 = 101 (R56). -/
def decodePointers (w : Inst) : Except Reject Instr :=
  match w.f6.toNat with
  | 0 => .ok (.ptrfmt w.park w.d w.a w.b)
  | 1 => zeroed (w.b == 0) (.ptrinfo w.park w.d w.a)
  | 2 => zeroed (w.b == 0) (.ptrclr w.park w.d w.a)
  | _ => .error .function

/-- LDL, custom-1 f3 = 000 (R57). -/
def decodeLdl (w : Inst) : Except Reject Instr :=
  let i := w.imm11
  if i.extractLsb' 9 2 == (3 : BitVec 2) then .error .immediate
  else .ok (.ldl w.park w.d w.a (i.extractLsb' 9 2) (i.extractLsb' 7 2) (i.extractLsb' 0 7))

/-- STL, custom-1 f3 = 001 (R57). -/
def decodeStl (w : Inst) : Except Reject Instr :=
  let i := w.imm11S
  if i.extractLsb' 9 2 == (3 : BitVec 2) then .error .immediate
  else .ok (.stl w.park w.a w.b (i.extractLsb' 9 2) (i.extractLsb' 7 2) (i.extractLsb' 0 7))

/-- Reductions and reservations, custom-1 f3 = 010 (R58). -/
def decodeReductions (w : Inst) : Except Reject Instr :=
  match w.f6.toNat with
  | 0 => zeroed (w.d == 0) (.redAddW w.park w.a w.b)
  | 1 => zeroed (w.d == 0) (.redAddD w.park w.a w.b)
  | 2 => zeroed (w.d == 0) (.redMinW w.park w.a w.b)
  | 3 => zeroed (w.d == 0) (.redMinD w.park w.a w.b)
  | 4 => zeroed (w.d == 0) (.redMaxW w.park w.a w.b)
  | 5 => zeroed (w.d == 0) (.redMaxD w.park w.a w.b)
  | 6 => zeroed (w.d == 0) (.redAndD w.park w.a w.b)
  | 7 => zeroed (w.d == 0) (.redOrD w.park w.a w.b)
  | 8 => zeroed (w.d == 0) (.redXorD w.park w.a w.b)
  | 9 => zeroed (w.d == 0) (.redFaddS w.park w.a w.b)
  | 10 => zeroed (w.d == 0) (.redFxa w.park w.a w.b)
  | 11 => zeroed (w.b == 0) (.lrwW w.park w.d w.a)
  | 12 => zeroed (w.b == 0) (.lrwD w.park w.d w.a)
  | 13 => zeroed (w.d == 0) (.schW w.park w.a w.b)
  | 14 => zeroed (w.d == 0) (.schD w.park w.a w.b)
  | 15 => zeroed (w.b == 0) (.lrwq w.park w.d w.a)
  | _ => .error .function

/-- Relaxed access, custom-1 f3 = 011 (R58). -/
def decodeRelaxed (w : Inst) : Except Reject Instr :=
  match w.f6.toNat with
  | 0 => zeroed (w.d == 0) (.stxW w.park w.a w.b)
  | 1 => zeroed (w.d == 0) (.stxD w.park w.a w.b)
  | 2 => .ok (.stxRelW w.park w.a w.b w.d)
  | 3 => .ok (.stxRelD w.park w.a w.b w.d)
  | 4 => .ok (.ldaW w.park w.d w.a w.b)
  | 5 => .ok (.ldaD w.park w.d w.a w.b)
  | _ => .error .function

/-- Vector memory, custom-1 f3 = 100: f6 holds the predicate and the operation (R58, R193). -/
def decodeVecMem (w : Inst) : Except Reject Instr :=
  let g := w.f6.extractLsb' 3 3
  match (w.f6.extractLsb' 0 3).toNat with
  | 0 => zeroed (w.b == 0) (.vld w.park g w.d w.a)
  | 1 => zeroed (w.b == 0) (.vst w.park g w.d w.a)
  | 2 => .ok (.vlds w.park g w.d w.a w.b)
  | 3 => .ok (.vsts w.park g w.d w.a w.b)
  | 4 => .ok (.vgath w.park g w.d w.a w.b)
  | 5 => .ok (.vscat w.park g w.d w.a w.b)
  | 6 => zeroed (w.b == 0) (.vldl w.park g w.d w.a)
  | _ => zeroed (w.b == 0) (.vstl w.park g w.d w.a)

/-- Vector and predicate functions, custom-2 (R59, R185). -/
def decodeVector (w : Inst) : Except Reject Instr :=
  match w.f6.toNat with
  | 0 => .ok (.vadd w.park w.vg w.d w.va w.vb)
  | 1 => .ok (.vsub w.park w.vg w.d w.va w.vb)
  | 2 => .ok (.vmul w.park w.vg w.d w.va w.vb)
  | 3 => .ok (.vfma w.park w.vg w.d w.va w.vb)
  | 4 => .ok (.vfms w.park w.vg w.d w.va w.vb)
  | 5 => .ok (.vmin w.park w.vg w.d w.va w.vb)
  | 6 => .ok (.vmax w.park w.vg w.d w.va w.vb)
  | 7 => zeroed (w.vb == 0) (.vabs w.park w.vg w.d w.va)
  | 8 => zeroed (w.vb == 0) (.vneg w.park w.vg w.d w.va)
  | 9 => .ok (.vand w.park w.vg w.d w.va w.vb)
  | 10 => .ok (.vor w.park w.vg w.d w.va w.vb)
  | 11 => .ok (.vxor w.park w.vg w.d w.va w.vb)
  | 12 => .ok (.vshl w.park w.vg w.d w.va w.vb)
  | 13 => .ok (.vshr w.park w.vg w.d w.va w.vb)
  | 14 => .ok (.vshrl w.park w.vg w.d w.va w.vb)
  | 15 => zeroed (hi2z w.d) (.vcmpeq w.park w.vg (low3 w.d) w.va w.vb)
  | 16 => zeroed (hi2z w.d) (.vcmplt w.park w.vg (low3 w.d) w.va w.vb)
  | 17 => zeroed (hi2z w.d) (.vcmple w.park w.vg (low3 w.d) w.va w.vb)
  | 18 => .ok (.vsel w.park w.vg w.d w.va w.vb)
  | 19 => zeroed (w.vb == 0) (.vmov w.park w.vg w.d w.va)
  | 20 => zeroed (w.vb == 0) (.vbcast w.park w.vg w.d w.va)
  | 21 => .ok (.vins w.park w.vg w.d w.va w.vb)
  | 22 => .ok (.vext w.park w.vg w.d w.va w.vb)
  | 23 => .ok (.vperm w.park w.vg w.d w.va w.vb)
  | 24 => .ok (.vcvt w.park w.vg w.d w.va (w.vb.extractLsb' 0 4) (w.vb.getLsbD 4))
  | 25 => zeroed (w.vb == 0) (.vrsum w.park w.vg w.d w.va)
  | 26 => zeroed (w.vb == 0) (.vrmax w.park w.vg w.d w.va)
  | 27 => zeroed (w.vb == 0) (.vrmin w.park w.vg w.d w.va)
  | 28 => zeroed (w.vb == 0) (.vrcp w.park w.vg w.d w.va)
  | 29 => zeroed (w.vb == 0) (.vrsqrt w.park w.vg w.d w.va)
  | 30 => zeroed (w.vb == 0) (.vexp2 w.park w.vg w.d w.va)
  | 31 => zeroed (w.vb == 0) (.vlog2 w.park w.vg w.d w.va)
  | 32 => zeroed (w.vg == 0 && w.vb == 0) (.vsett w.park w.d w.va)
  | 33 => zeroed (w.vg == 0 && hi2z w.d && hi2z w.va && hi2z w.vb) (.pand w.park (low3 w.d) (low3 w.va) (low3 w.vb))
  | 34 => zeroed (w.vg == 0 && hi2z w.d && hi2z w.va && hi2z w.vb) (.por w.park (low3 w.d) (low3 w.va) (low3 w.vb))
  | 35 => zeroed (w.vg == 0 && hi2z w.d && hi2z w.va && w.vb == 0) (.pnot w.park (low3 w.d) (low3 w.va))
  | 36 => zeroed (w.vg == 0 && hi2z w.va && w.vb == 0) (.pcnt w.park w.d (low3 w.va))
  | 37 => zeroed (w.vg == 0 && hi2z w.va && w.vb == 0) (.pfirst w.park w.d (low3 w.va))
  | 38 => zeroed (w.vg == 0 && hi2z w.d && w.vb == 0) (.pset w.park (low3 w.d) w.va)
  | _ => .error .function

/-- Tile data movement, custom-3 f3 = 000 (R60). -/
def decodeTileMove (w : Inst) : Except Reject Instr :=
  let az := w.ta == 0
  let tbz := w.ttb == 0
  let taz := w.tta == 0
  let mz := w.tm == 0
  let accd := !w.ttd.getLsbD 2
  match w.tf5.toNat with
  | 0 => if w.tm.getLsbD 0 && decide (w.ta.toNat = 31) then .error .group
         else zeroed (tbz && taz && !w.tm.getLsbD 1) (.tld w.park w.ttd w.ta (w.tm.getLsbD 0))
  | 1 => if w.tm.getLsbD 0 && decide (w.ta.toNat = 31) then .error .group
         else zeroed (tbz && taz && !w.tm.getLsbD 1) (.tst w.park w.ttd w.ta (w.tm.getLsbD 0))
  | 2 => zeroed (az && tbz && taz && mz) (.tzero w.park w.ttd)
  | 3 => zeroed (az && tbz && mz) (.tmov w.park w.ttd w.tta)
  | 4 => zeroed (az && tbz && mz) (.ttrans w.park w.ttd w.tta)
  | 5 => zeroed (accd && tbz && taz && mz) (.acld w.park (accOf w.ttd) w.ta)
  | 6 => zeroed (accd && tbz && taz && mz) (.acst w.park (accOf w.ttd) w.ta)
  | 7 => zeroed (accd && az && tbz && taz && mz) (.acz w.park (accOf w.ttd))
  | 8 => zeroed (!w.tta.getLsbD 2 && az && tbz && mz) (.tcvt w.park w.ttd (accOf w.tta))
  | 9 => zeroed (az && tbz && !w.tm.getLsbD 1) (.tgen w.park w.ttd w.tta (w.tm.getLsbD 0))
  | 10 => zeroed (tbz && taz && mz) (.tfill w.park w.ttd w.ta)
  | _ => .error .function

/-- Matrix instructions, custom-3 f3 = 001 (R61). -/
def decodeMatrix (w : Inst) : Except Reject Instr :=
  let ok := !w.ttd.getLsbD 2 && !w.tm.getLsbD 1
  match w.tf5.toNat with
  | 0 => zeroed (ok && w.ta == 0) (.tmma w.park (accOf w.ttd) w.tta w.ttb (w.tm.getLsbD 0))
  | 1 => zeroed (ok && hi2z w.ta) (.tmmas w.park (accOf w.ttd) w.tta w.ttb (low3 w.ta) (w.tm.getLsbD 0))
  | 2 => zeroed (ok && w.ta == 0) (.tmmag w.park (accOf w.ttd) w.tta w.ttb (w.tm.getLsbD 0))
  | _ => .error .function

/-- Generator instructions, custom-3 f3 = 010 (R61). -/
def decodeGenerator (w : Inst) : Except Reject Instr :=
  let ok := w.ttb == 0 && w.tta == 0
  match w.tf5.toNat with
  | 0 => zeroed (ok && w.tm == 0) (.gsetK w.park w.ttd w.ta)
  | 1 => zeroed (ok && w.tm == 0) (.gsetSeed w.park w.ttd w.ta)
  | 2 => zeroed (ok && !w.tm.getLsbD 1) (.gsetScope w.park w.ttd w.ta (w.tm.getLsbD 0))
  | 3 => zeroed (ok && w.tm == 0) (.gsetOrg w.park w.ttd w.ta)
  | 4 => zeroed (ok && w.tm == 0) (.gsetPar w.park w.ttd w.ta)
  | _ => .error .function

/-! The standard base (R43, R44). -/

/-- OP-IMM: RV64I and Zbb. -/
def decodeOpImm (w : Inst) : Except Reject Instr :=
  let un (f : UnaryOp) : Except Reject Instr := .ok (.baseCompute (.unary f w.d w.a))
  let sh (f : ShiftOp) : Except Reject Instr := .ok (.baseCompute (.shift f w.d w.a (w.extractLsb' 20 6)))
  let im (f : ImmOp) : Except Reject Instr := .ok (.baseCompute (.imm f w.d w.a w.imm12))
  match w.f3.toNat with
  | 0 => im .addi
  | 1 => match w.imm12.toNat with
    | 0x600 => un .clz
    | 0x601 => un .ctz
    | 0x602 => un .cpop
    | 0x604 => un .sextb
    | 0x605 => un .sexth
    | _ => if w.extractLsb' 26 6 == 0 then sh .slli else .error .function
  | 2 => im .slti
  | 3 => im .sltiu
  | 4 => im .xori
  | 5 => match w.imm12.toNat with
    | 0x287 => un .orcb
    | 0x6B8 => un .rev8
    | _ => match (w.extractLsb' 26 6).toNat with
      | 0x00 => sh .srli
      | 0x10 => sh .srai
      | 0x18 => sh .rori
      | _ => .error .function
  | 6 => im .ori
  | _ => im .andi

/-- OP-IMM-32: RV64I, Zba and Zbb. -/
def decodeOpImm32 (w : Inst) : Except Reject Instr :=
  let sh (f : ShiftWOp) : Except Reject Instr := .ok (.baseCompute (.shiftW f w.d w.a w.b))
  let un (f : UnaryOp) : Except Reject Instr := .ok (.baseCompute (.unary f w.d w.a))
  match w.f3.toNat with
  | 0 => .ok (.baseCompute (.imm .addiw w.d w.a w.imm12))
  | 1 => match w.imm12.toNat with
    | 0x600 => un .clzw
    | 0x601 => un .ctzw
    | 0x602 => un .cpopw
    | _ => if w.f7 == 0 then sh .slliw
           else if w.extractLsb' 26 6 == 2 then .ok (.baseCompute (.shift .slliuw w.d w.a (w.extractLsb' 20 6)))
           else .error .function
  | 5 => match w.f7.toNat with
    | 0x00 => sh .srliw
    | 0x20 => sh .sraiw
    | 0x30 => sh .roriw
    | _ => .error .function
  | _ => .error .function

/-- The operation of OP that funct7 and funct3 select (RV64I, M, Zba, Zbb). -/
def aluOf (f7 f3 : Nat) : Option AluOp :=
  match f7, f3 with
  | 0x00, 0 => some .add | 0x00, 1 => some .sll | 0x00, 2 => some .slt | 0x00, 3 => some .sltu
  | 0x00, 4 => some .xor | 0x00, 5 => some .srl | 0x00, 6 => some .or | 0x00, 7 => some .and
  | 0x20, 0 => some .sub | 0x20, 5 => some .sra
  | 0x20, 4 => some .xnor | 0x20, 6 => some .orn | 0x20, 7 => some .andn
  | 0x01, 0 => some .mul | 0x01, 1 => some .mulh | 0x01, 2 => some .mulhsu | 0x01, 3 => some .mulhu
  | 0x01, 4 => some .div | 0x01, 5 => some .divu | 0x01, 6 => some .rem | 0x01, 7 => some .remu
  | 0x10, 2 => some .sh1add | 0x10, 4 => some .sh2add | 0x10, 6 => some .sh3add
  | 0x05, 4 => some .min | 0x05, 5 => some .minu | 0x05, 6 => some .max | 0x05, 7 => some .maxu
  | 0x30, 1 => some .rol | 0x30, 5 => some .ror
  | _, _ => none

/-- The operation of OP-32 that funct7 and funct3 select (RV64I, M, Zba, Zbb). -/
def aluWOf (f7 f3 : Nat) : Option AluWOp :=
  match f7, f3 with
  | 0x00, 0 => some .addw | 0x00, 1 => some .sllw | 0x00, 5 => some .srlw
  | 0x20, 0 => some .subw | 0x20, 5 => some .sraw
  | 0x01, 0 => some .mulw | 0x01, 4 => some .divw | 0x01, 5 => some .divuw | 0x01, 6 => some .remw | 0x01, 7 => some .remuw
  | 0x04, 0 => some .adduw
  | 0x10, 2 => some .sh1adduw | 0x10, 4 => some .sh2adduw | 0x10, 6 => some .sh3adduw
  | 0x30, 1 => some .rolw | 0x30, 5 => some .rorw
  | _, _ => none

/-- OP. -/
def decodeOp (w : Inst) : Except Reject Instr :=
  match aluOf w.f7.toNat w.f3.toNat with
  | some f => .ok (.baseCompute (.op f w.d w.a w.b))
  | none => .error .function

/-- OP-32; ZEXT.H is the one-source form of funct7 4, funct3 4. -/
def decodeOp32 (w : Inst) : Except Reject Instr :=
  if w.f7 == 4 && w.f3 == 4 then
    if w.b == 0 then .ok (.baseCompute (.unary .zexth w.d w.a)) else .error .function
  else match aluWOf w.f7.toNat w.f3.toNat with
    | some f => .ok (.baseCompute (.op32 f w.d w.a w.b))
    | none => .error .function

/-- LOAD. -/
def decodeLoad (w : Inst) : Except Reject Instr :=
  let ld (f : LoadOp) : Except Reject Instr := .ok (.standardLoad f w.d w.a w.imm12)
  match w.f3.toNat with
  | 0 => ld .lb | 1 => ld .lh | 2 => ld .lw | 3 => ld .ld | 4 => ld .lbu | 5 => ld .lhu | 6 => ld .lwu
  | _ => .error .function

/-- STORE. -/
def decodeStore (w : Inst) : Except Reject Instr :=
  let st (f : StoreOp) : Except Reject Instr := .ok (.standardStore f w.a w.b w.immS)
  match w.f3.toNat with
  | 0 => st .sb | 1 => st .sh | 2 => st .sw | 3 => st .sd
  | _ => .error .function

/-- MISC-MEM: FENCE, FENCE.TSO, FENCE.I; the reserved fields of a fence are without effect (R45). -/
def decodeFence (w : Inst) : Except Reject Instr :=
  match w.f3.toNat with
  | 0 =>
    let fm : BitVec 4 := w.extractLsb' 28 4
    let pred : BitVec 4 := w.extractLsb' 24 4
    let succ : BitVec 4 := w.extractLsb' 20 4
    if fm == 8 && pred == 3 && succ == 3 then .ok (.fenceTso w.d w.a) else .ok (.fence fm pred succ w.d w.a)
  | 1 => .ok (.fenceI w.imm12 w.d w.a)
  | _ => .error .function

/-- The operation of an AMO from its funct5. -/
def amoOf : Nat → Option AmoOp
  | 0x01 => some .swap | 0x00 => some .add | 0x04 => some .xor | 0x0C => some .and | 0x08 => some .or
  | 0x10 => some .min | 0x14 => some .max | 0x18 => some .minu | 0x1C => some .maxu
  | _ => none

/-- AMO: LR, SC and the AMOs, in word and doubleword width. -/
def decodeAmo (w : Inst) : Except Reject Instr :=
  let aq := w.getLsbD 26
  let rl := w.getLsbD 25
  let go (dbl : Bool) : Except Reject Instr :=
    match (w.extractLsb' 27 5).toNat with
    | 0x02 => if w.b == 0 then .ok (.lr dbl aq rl w.d w.a) else .error .function
    | 0x03 => .ok (.sc dbl aq rl w.d w.a w.b)
    | n => match amoOf n with
      | some f => .ok (.amo f dbl aq rl w.d w.a w.b)
      | none => .error .function
  match w.f3.toNat with
  | 2 => go false
  | 3 => go true
  | _ => .error .function

/-- BRANCH: the offset's bits 12 to 1. -/
def decodeBranch (w : Inst) : Except Reject Instr :=
  let off : BitVec 12 := w.extractLsb' 31 1 ++ w.extractLsb' 7 1 ++ w.extractLsb' 25 6 ++ w.extractLsb' 8 4
  let br (f : BranchOp) : Except Reject Instr := .ok (.branchJump (.branch f w.a w.b off))
  match w.f3.toNat with
  | 0 => br .beq | 1 => br .bne | 4 => br .blt | 5 => br .bge | 6 => br .bltu | 7 => br .bgeu
  | _ => .error .function

/-- SYSTEM: ECALL, EBREAK, SRET, WFI, SFENCE.VMA and the CSR instructions (R44). -/
def decodeSystem (w : Inst) : Except Reject Instr :=
  let csr (f : CsrOp) (i : Bool) : Except Reject Instr := .ok (.csrInstruction f i w.imm12 w.d w.a)
  match w.f3.toNat with
  | 0 => match w.toNat with
    | 0x00000073 => .ok .ecall
    | 0x00100073 => .ok .ebreak
    | 0x10200073 => .ok .sret
    | 0x10500073 => .ok .wfi
    | _ => if w.f7 == 9 && w.d == 0 then .ok (.sfenceVma w.a w.b) else .error .function
  | 1 => csr .rw false
  | 2 => csr .rs false
  | 3 => csr .rc false
  | 5 => csr .rw true
  | 6 => csr .rs true
  | 7 => csr .rc true
  | _ => .error .function

/-- custom-0: f3 selects the group (R50). -/
def decodeCustom0 (w : Inst) : Except Reject Instr :=
  match w.f3.toNat with
  | 0 => decodeControl w
  | 1 => decodeLoop w
  | 2 => decodeTasks w
  | 3 => decodeMessages w
  | 4 => decodeNets w
  | 5 => decodePointers w
  | _ => .error .function

/-- custom-1: f3 selects the group (R50). -/
def decodeCustom1 (w : Inst) : Except Reject Instr :=
  match w.f3.toNat with
  | 0 => decodeLdl w
  | 1 => decodeStl w
  | 2 => decodeReductions w
  | 3 => decodeRelaxed w
  | 4 => decodeVecMem w
  | _ => .error .function

/-- custom-3: f3 selects the group (R61). -/
def decodeCustom3 (w : Inst) : Except Reject Instr :=
  match w.f3.toNat with
  | 0 => decodeTileMove w
  | 1 => decodeMatrix w
  | 2 => decodeGenerator w
  | _ => .error .function

/-- The instruction that a 32-bit word encodes (R42 to R61). -/
def decode (w : Inst) : Except Reject Instr :=
  if w.extractLsb' 0 2 != (3 : BitVec 2) then .error .compressed
  else if w.extractLsb' 2 3 == (7 : BitVec 3) then .error .wide
  else match w.opc.toNat with
    | 0x03 => decodeLoad w
    | 0x0B => decodeCustom0 w
    | 0x0F => decodeFence w
    | 0x13 => decodeOpImm w
    | 0x17 => .ok (.baseCompute (.auipc w.d (w.extractLsb' 12 20)))
    | 0x1B => decodeOpImm32 w
    | 0x23 => decodeStore w
    | 0x2B => decodeCustom1 w
    | 0x2F => decodeAmo w
    | 0x33 => decodeOp w
    | 0x37 => .ok (.baseCompute (.lui w.d (w.extractLsb' 12 20)))
    | 0x3B => decodeOp32 w
    | 0x5B => decodeVector w
    | 0x63 => decodeBranch w
    | 0x67 => if w.f3 == 0 then .ok (.branchJump (.jalr w.d w.a w.imm12)) else .error .function
    | 0x6F => .ok (.branchJump (.jal w.d
        (w.extractLsb' 31 1 ++ w.extractLsb' 12 8 ++ w.extractLsb' 20 1 ++ w.extractLsb' 21 10)))
    | 0x73 => decodeSystem w
    | 0x7B => decodeCustom3 w
    | _ => .error .opcode

/-- The instruction the decoder reads from an instruction whose bits are w. Every instruction is one 32-bit word (R42), and the table numbers its bits as the word does. -/
def decodeTableWord (_nbits w : Nat) : Option Instr :=
  (decode (BitVec.ofNat 32 w)).toOption

/-! ## The encoder -/

/-- The K format (R46). -/
def fmtK (p : Bool) (f6 : BitVec 6) (b a : Reg) (f3 : BitVec 3) (d : Reg) (opc : BitVec 7) : Inst :=
  BitVec.ofBool p ++ f6 ++ b ++ a ++ f3 ++ d ++ opc

/-- The I format (R46). -/
def fmtI (p : Bool) (imm : BitVec 11) (a : Reg) (f3 : BitVec 3) (d : Reg) (opc : BitVec 7) : Inst :=
  BitVec.ofBool p ++ imm ++ a ++ f3 ++ d ++ opc

/-- The S format (R46): imm11 is split into its high six and low five bits. -/
def fmtS (p : Bool) (hi : BitVec 6) (b a : Reg) (f3 : BitVec 3) (lo : BitVec 5) (opc : BitVec 7) : Inst :=
  BitVec.ofBool p ++ hi ++ b ++ a ++ f3 ++ lo ++ opc

/-- The V format (R46, R185). -/
def fmtV (p : Bool) (f6 : BitVec 6) (g : BitVec 3) (b a d : Reg) : Inst :=
  BitVec.ofBool p ++ f6 ++ g ++ b ++ a ++ d ++ (0x5B : BitVec 7)

/-- The T format (R46, R199). -/
def fmtT (p : Bool) (f5 : BitVec 5) (a : Reg) (tb ta f3 td : BitVec 3) (m : BitVec 2) : Inst :=
  BitVec.ofBool p ++ f5 ++ a ++ tb ++ ta ++ f3 ++ td ++ m ++ (0x7B : BitVec 7)

/-- The R format of the standard base. -/
def fmtR (f7 : BitVec 7) (rs2 rs1 : Reg) (f3 : BitVec 3) (rd : Reg) (opc : BitVec 7) : Inst :=
  f7 ++ rs2 ++ rs1 ++ f3 ++ rd ++ opc

/-- The I format of the standard base. -/
def fmtImm (imm : BitVec 12) (rs1 : Reg) (f3 : BitVec 3) (rd : Reg) (opc : BitVec 7) : Inst :=
  imm ++ rs1 ++ f3 ++ rd ++ opc

/-- A p register in a 5-bit field (R49). -/
def ext5 (x : BitVec 3) : Reg := (0 : BitVec 2) ++ x

/-- An accumulator in a 3-bit field (R60). -/
def ext3 (x : BitVec 2) : BitVec 3 := (0 : BitVec 1) ++ x

/-- A 1-bit modifier in the two bits of m (R60, R61). -/
def mod2 (x : Bool) : BitVec 2 := (0 : BitVec 1) ++ BitVec.ofBool x

/-- A loop level in a 5-bit field (R51, R52). -/
def level5 (l : BitVec 1) : Reg := (0 : BitVec 4) ++ l

def AluOp.functs : AluOp → BitVec 7 × BitVec 3
  | .add => (0x00, 0) | .sll => (0x00, 1) | .slt => (0x00, 2) | .sltu => (0x00, 3)
  | .xor => (0x00, 4) | .srl => (0x00, 5) | .or => (0x00, 6) | .and => (0x00, 7)
  | .sub => (0x20, 0) | .sra => (0x20, 5) | .xnor => (0x20, 4) | .orn => (0x20, 6) | .andn => (0x20, 7)
  | .mul => (0x01, 0) | .mulh => (0x01, 1) | .mulhsu => (0x01, 2) | .mulhu => (0x01, 3)
  | .div => (0x01, 4) | .divu => (0x01, 5) | .rem => (0x01, 6) | .remu => (0x01, 7)
  | .sh1add => (0x10, 2) | .sh2add => (0x10, 4) | .sh3add => (0x10, 6)
  | .min => (0x05, 4) | .minu => (0x05, 5) | .max => (0x05, 6) | .maxu => (0x05, 7)
  | .rol => (0x30, 1) | .ror => (0x30, 5)

def AluWOp.functs : AluWOp → BitVec 7 × BitVec 3
  | .addw => (0x00, 0) | .sllw => (0x00, 1) | .srlw => (0x00, 5) | .subw => (0x20, 0) | .sraw => (0x20, 5)
  | .mulw => (0x01, 0) | .divw => (0x01, 4) | .divuw => (0x01, 5) | .remw => (0x01, 6) | .remuw => (0x01, 7)
  | .adduw => (0x04, 0) | .sh1adduw => (0x10, 2) | .sh2adduw => (0x10, 4) | .sh3adduw => (0x10, 6)
  | .rolw => (0x30, 1) | .rorw => (0x30, 5)

def AmoOp.funct5 : AmoOp → BitVec 5
  | .swap => 0x01 | .add => 0x00 | .xor => 0x04 | .and => 0x0C | .or => 0x08
  | .min => 0x10 | .max => 0x14 | .minu => 0x18 | .maxu => 0x1C

/-- The word of a register computation. -/
def Compute.encode : Compute → Inst
  | .op f rd rs1 rs2 => fmtR f.functs.1 rs2 rs1 f.functs.2 rd 0x33
  | .op32 f rd rs1 rs2 => fmtR f.functs.1 rs2 rs1 f.functs.2 rd 0x3B
  | .imm .addi rd rs1 k => fmtImm k rs1 0 rd 0x13
  | .imm .slti rd rs1 k => fmtImm k rs1 2 rd 0x13
  | .imm .sltiu rd rs1 k => fmtImm k rs1 3 rd 0x13
  | .imm .xori rd rs1 k => fmtImm k rs1 4 rd 0x13
  | .imm .ori rd rs1 k => fmtImm k rs1 6 rd 0x13
  | .imm .andi rd rs1 k => fmtImm k rs1 7 rd 0x13
  | .imm .addiw rd rs1 k => fmtImm k rs1 0 rd 0x1B
  | .shift .slli rd rs1 sh => fmtImm ((0x00 : BitVec 6) ++ sh) rs1 1 rd 0x13
  | .shift .srli rd rs1 sh => fmtImm ((0x00 : BitVec 6) ++ sh) rs1 5 rd 0x13
  | .shift .srai rd rs1 sh => fmtImm ((0x10 : BitVec 6) ++ sh) rs1 5 rd 0x13
  | .shift .rori rd rs1 sh => fmtImm ((0x18 : BitVec 6) ++ sh) rs1 5 rd 0x13
  | .shift .slliuw rd rs1 sh => fmtImm ((0x02 : BitVec 6) ++ sh) rs1 1 rd 0x1B
  | .shiftW .slliw rd rs1 sh => fmtR 0x00 sh rs1 1 rd 0x1B
  | .shiftW .srliw rd rs1 sh => fmtR 0x00 sh rs1 5 rd 0x1B
  | .shiftW .sraiw rd rs1 sh => fmtR 0x20 sh rs1 5 rd 0x1B
  | .shiftW .roriw rd rs1 sh => fmtR 0x30 sh rs1 5 rd 0x1B
  | .unary .clz rd rs1 => fmtImm 0x600 rs1 1 rd 0x13
  | .unary .ctz rd rs1 => fmtImm 0x601 rs1 1 rd 0x13
  | .unary .cpop rd rs1 => fmtImm 0x602 rs1 1 rd 0x13
  | .unary .sextb rd rs1 => fmtImm 0x604 rs1 1 rd 0x13
  | .unary .sexth rd rs1 => fmtImm 0x605 rs1 1 rd 0x13
  | .unary .orcb rd rs1 => fmtImm 0x287 rs1 5 rd 0x13
  | .unary .rev8 rd rs1 => fmtImm 0x6B8 rs1 5 rd 0x13
  | .unary .zexth rd rs1 => fmtR 0x04 0 rs1 4 rd 0x3B
  | .unary .clzw rd rs1 => fmtImm 0x600 rs1 1 rd 0x1B
  | .unary .ctzw rd rs1 => fmtImm 0x601 rs1 1 rd 0x1B
  | .unary .cpopw rd rs1 => fmtImm 0x602 rs1 1 rd 0x1B
  | .lui rd k => k ++ rd ++ (0x37 : BitVec 7)
  | .auipc rd k => k ++ rd ++ (0x17 : BitVec 7)

def BranchOp.funct3 : BranchOp → BitVec 3
  | .beq => 0 | .bne => 1 | .blt => 4 | .bge => 5 | .bltu => 6 | .bgeu => 7

/-- The word of a branch or jump. -/
def Jump.encode : Jump → Inst
  | .branch f rs1 rs2 off =>
    off.extractLsb' 11 1 ++ off.extractLsb' 4 6 ++ rs2 ++ rs1 ++ f.funct3 ++ off.extractLsb' 0 4 ++
      off.extractLsb' 10 1 ++ (0x63 : BitVec 7)
  | .jal rd off =>
    off.extractLsb' 19 1 ++ off.extractLsb' 0 10 ++ off.extractLsb' 10 1 ++ off.extractLsb' 11 8 ++ rd ++
      (0x6F : BitVec 7)
  | .jalr rd rs1 imm => fmtImm imm rs1 0 rd 0x67

def LoadOp.funct3 : LoadOp → BitVec 3
  | .lb => 0 | .lh => 1 | .lw => 2 | .ld => 3 | .lbu => 4 | .lhu => 5 | .lwu => 6

def StoreOp.funct3 : StoreOp → BitVec 3
  | .sb => 0 | .sh => 1 | .sw => 2 | .sd => 3

/-- funct3 of a CSR instruction: bit 2 selects the immediate form. -/
def CsrOp.funct3 (f : CsrOp) (immediate : Bool) : BitVec 3 :=
  BitVec.ofBool immediate ++ (match f with | .rw => (1 : BitVec 2) | .rs => 2 | .rc => 3)

/-- funct3 of an AMO: the width. -/
def amoWidth (dbl : Bool) : BitVec 3 := if dbl then 3 else 2

/-- The word of an instruction; none for an operation or event, which has no encoding. -/
def encode? : Instr → Option Inst
  | .chunk p => some (fmtK p 0 0 0 0 0 0x0B)
  | .yield p => some (fmtK p 1 0 0 0 0 0x0B)
  | .pause p a => some (fmtK p 2 0 a 0 0 0x0B)
  | .fenceS p a => some (fmtK p 3 0 a 0 0 0x0B)
  | .bar p d a => some (fmtK p 4 0 a 0 d 0x0B)
  | .waitb p n => some (fmtK p 5 ((0 : BitVec 1) ++ n) 0 0 0 0x0B)
  | .batch p n => some (fmtK p 6 ((0 : BitVec 1) ++ n) 0 0 0 0x0B)
  | .enq p d a e => some (fmtK p 7 ((0 : BitVec 3) ++ e) a 0 d 0x0B)
  | .engq p d a => some (fmtK p 8 0 a 0 d 0x0B)
  | .lclr p l => some (fmtK p 9 (level5 l) 0 0 0 0x0B)
  | .aeqw p a => some (fmtK p 10 0 a 0 0 0x0B)
  | .aeqr p d => some (fmtK p 11 0 0 0 d 0x0B)
  | .ctxsave p a b => some (fmtK p 12 b a 0 0 0x0B)
  | .ctxload p a b => some (fmtK p 13 b a 0 0 0x0B)
  | .tlbinv p a b => some (fmtK p 14 b a 0 0 0x0B)
  | .zline p a => some (fmtK p 15 0 a 0 0 0x0B)
  | .loop p l a len => some (fmtI p len a 1 (level5 l) 0x0B)
  | .spawn p a b => some (fmtK p 0 b a 2 0 0x0B)
  | .join p a => some (fmtK p 1 0 a 2 0 0x0B)
  | .take p d => some (fmtK p 2 0 0 2 d 0x0B)
  | .tnew p d a b => some (fmtK p 3 b a 2 d 0x0B)
  | .tdec p a => some (fmtK p 4 0 a 2 0 0x0B)
  | .texit p => some (fmtK p 5 0 0 2 0 0x0B)
  | .tlist p a => some (fmtK p 6 0 a 2 0 0x0B)
  | .send p a b => some (fmtK p 0 b a 3 0 0x0B)
  | .sendt p a b d => some (fmtK p 1 b a 3 d 0x0B)
  | .recv p d a => some (fmtK p 2 0 a 3 d 0x0B)
  | .recvs p d a b => some (fmtK p 3 b a 3 d 0x0B)
  | .recvt p d => some (fmtK p 4 0 0 3 d 0x0B)
  | .evend p => some (fmtK p 5 0 0 3 0 0x0B)
  | .stirv p a b => some (fmtK p 6 b a 3 0 0x0B)
  | .opton p a => some (fmtK p 7 0 a 3 0 0x0B)
  | .optoff p => some (fmtK p 8 0 0 3 0 0x0B)
  | .msgq p d a => some (fmtK p 9 0 a 3 d 0x0B)
  | .ixpop p d => some (fmtK p 0 0 0 4 d 0x0B)
  | .ixpair p a b => some (fmtK p 1 b a 4 0 0x0B)
  | .ixnew p d => some (fmtK p 2 0 0 4 d 0x0B)
  | .ixfree p a => some (fmtK p 3 0 a 4 0 0x0B)
  | .ixlink p a b => some (fmtK p 4 b a 4 0 0x0B)
  | .ixrule p a b => some (fmtK p 5 b a 4 0 0x0B)
  | .ixdone p => some (fmtK p 6 0 0 4 0 0x0B)
  | .ptrfmt p d a b => some (fmtK p 0 b a 5 d 0x0B)
  | .ptrinfo p d a => some (fmtK p 1 0 a 5 d 0x0B)
  | .ptrclr p d a => some (fmtK p 2 0 a 5 d 0x0B)
  | .ldl p d a mode size off => some (fmtI p (mode ++ size ++ off) a 0 d 0x2B)
  | .stl p a b mode size off =>
    some (fmtS p (mode ++ size ++ off.extractLsb' 5 2) b a 1 (off.extractLsb' 0 5) 0x2B)
  | .redAddW p a b => some (fmtK p 0 b a 2 0 0x2B)
  | .redAddD p a b => some (fmtK p 1 b a 2 0 0x2B)
  | .redMinW p a b => some (fmtK p 2 b a 2 0 0x2B)
  | .redMinD p a b => some (fmtK p 3 b a 2 0 0x2B)
  | .redMaxW p a b => some (fmtK p 4 b a 2 0 0x2B)
  | .redMaxD p a b => some (fmtK p 5 b a 2 0 0x2B)
  | .redAndD p a b => some (fmtK p 6 b a 2 0 0x2B)
  | .redOrD p a b => some (fmtK p 7 b a 2 0 0x2B)
  | .redXorD p a b => some (fmtK p 8 b a 2 0 0x2B)
  | .redFaddS p a b => some (fmtK p 9 b a 2 0 0x2B)
  | .redFxa p a b => some (fmtK p 10 b a 2 0 0x2B)
  | .lrwW p d a => some (fmtK p 11 0 a 2 d 0x2B)
  | .lrwD p d a => some (fmtK p 12 0 a 2 d 0x2B)
  | .schW p a b => some (fmtK p 13 b a 2 0 0x2B)
  | .schD p a b => some (fmtK p 14 b a 2 0 0x2B)
  | .lrwq p d a => some (fmtK p 15 0 a 2 d 0x2B)
  | .stxW p a b => some (fmtK p 0 b a 3 0 0x2B)
  | .stxD p a b => some (fmtK p 1 b a 3 0 0x2B)
  | .stxRelW p a b d => some (fmtK p 2 b a 3 d 0x2B)
  | .stxRelD p a b d => some (fmtK p 3 b a 3 d 0x2B)
  | .ldaW p d a b => some (fmtK p 4 b a 3 d 0x2B)
  | .ldaD p d a b => some (fmtK p 5 b a 3 d 0x2B)
  | .vld p g d a => some (fmtK p (g ++ (0 : BitVec 3)) 0 a 4 d 0x2B)
  | .vst p g d a => some (fmtK p (g ++ (1 : BitVec 3)) 0 a 4 d 0x2B)
  | .vlds p g d a b => some (fmtK p (g ++ (2 : BitVec 3)) b a 4 d 0x2B)
  | .vsts p g d a b => some (fmtK p (g ++ (3 : BitVec 3)) b a 4 d 0x2B)
  | .vgath p g d a b => some (fmtK p (g ++ (4 : BitVec 3)) b a 4 d 0x2B)
  | .vscat p g d a b => some (fmtK p (g ++ (5 : BitVec 3)) b a 4 d 0x2B)
  | .vldl p g d a => some (fmtK p (g ++ (6 : BitVec 3)) 0 a 4 d 0x2B)
  | .vstl p g d a => some (fmtK p (g ++ (7 : BitVec 3)) 0 a 4 d 0x2B)
  | .vadd p g d a b => some (fmtV p 0 g b a d)
  | .vsub p g d a b => some (fmtV p 1 g b a d)
  | .vmul p g d a b => some (fmtV p 2 g b a d)
  | .vfma p g d a b => some (fmtV p 3 g b a d)
  | .vfms p g d a b => some (fmtV p 4 g b a d)
  | .vmin p g d a b => some (fmtV p 5 g b a d)
  | .vmax p g d a b => some (fmtV p 6 g b a d)
  | .vabs p g d a => some (fmtV p 7 g 0 a d)
  | .vneg p g d a => some (fmtV p 8 g 0 a d)
  | .vand p g d a b => some (fmtV p 9 g b a d)
  | .vor p g d a b => some (fmtV p 10 g b a d)
  | .vxor p g d a b => some (fmtV p 11 g b a d)
  | .vshl p g d a b => some (fmtV p 12 g b a d)
  | .vshr p g d a b => some (fmtV p 13 g b a d)
  | .vshrl p g d a b => some (fmtV p 14 g b a d)
  | .vcmpeq p g d a b => some (fmtV p 15 g b a (ext5 d))
  | .vcmplt p g d a b => some (fmtV p 16 g b a (ext5 d))
  | .vcmple p g d a b => some (fmtV p 17 g b a (ext5 d))
  | .vsel p g d a b => some (fmtV p 18 g b a d)
  | .vmov p g d a => some (fmtV p 19 g 0 a d)
  | .vbcast p g d a => some (fmtV p 20 g 0 a d)
  | .vins p g d a b => some (fmtV p 21 g b a d)
  | .vext p g d a b => some (fmtV p 22 g b a d)
  | .vperm p g d a b => some (fmtV p 23 g b a d)
  | .vcvt p g d a fmt u => some (fmtV p 24 g (BitVec.ofBool u ++ fmt) a d)
  | .vrsum p g d a => some (fmtV p 25 g 0 a d)
  | .vrmax p g d a => some (fmtV p 26 g 0 a d)
  | .vrmin p g d a => some (fmtV p 27 g 0 a d)
  | .vrcp p g d a => some (fmtV p 28 g 0 a d)
  | .vrsqrt p g d a => some (fmtV p 29 g 0 a d)
  | .vexp2 p g d a => some (fmtV p 30 g 0 a d)
  | .vlog2 p g d a => some (fmtV p 31 g 0 a d)
  | .vsett p d a => some (fmtV p 32 0 0 a d)
  | .pand p d a b => some (fmtV p 33 0 (ext5 b) (ext5 a) (ext5 d))
  | .por p d a b => some (fmtV p 34 0 (ext5 b) (ext5 a) (ext5 d))
  | .pnot p d a => some (fmtV p 35 0 0 (ext5 a) (ext5 d))
  | .pcnt p d a => some (fmtV p 36 0 0 (ext5 a) d)
  | .pfirst p d a => some (fmtV p 37 0 0 (ext5 a) d)
  | .pset p d a => some (fmtV p 38 0 0 a (ext5 d))
  | .tld p td a pitched => some (fmtT p 0 a 0 0 0 td (mod2 pitched))
  | .tst p td a pitched => some (fmtT p 1 a 0 0 0 td (mod2 pitched))
  | .tzero p td => some (fmtT p 2 0 0 0 0 td 0)
  | .tmov p td ta => some (fmtT p 3 0 0 ta 0 td 0)
  | .ttrans p td ta => some (fmtT p 4 0 0 ta 0 td 0)
  | .acld p td a => some (fmtT p 5 a 0 0 0 (ext3 td) 0)
  | .acst p td a => some (fmtT p 6 a 0 0 0 (ext3 td) 0)
  | .acz p td => some (fmtT p 7 0 0 0 0 (ext3 td) 0)
  | .tcvt p td ta => some (fmtT p 8 0 0 (ext3 ta) 0 td 0)
  | .tgen p td g tr => some (fmtT p 9 0 0 g 0 td (mod2 tr))
  | .tfill p td a => some (fmtT p 10 a 0 0 0 td 0)
  | .tmma p td ta tb tr => some (fmtT p 0 0 tb ta 1 (ext3 td) (mod2 tr))
  | .tmmas p td ta tb tm tr => some (fmtT p 1 (ext5 tm) tb ta 1 (ext3 td) (mod2 tr))
  | .tmmag p td ta g tr => some (fmtT p 2 0 g ta 1 (ext3 td) (mod2 tr))
  | .gsetK p gd a => some (fmtT p 0 a 0 0 2 gd 0)
  | .gsetSeed p gd a => some (fmtT p 1 a 0 0 2 gd 0)
  | .gsetScope p gd a loc => some (fmtT p 2 a 0 0 2 gd (mod2 loc))
  | .gsetOrg p gd a => some (fmtT p 3 a 0 0 2 gd 0)
  | .gsetPar p gd a => some (fmtT p 4 a 0 0 2 gd 0)
  | .standardLoad f rd rs1 imm => some (fmtImm imm rs1 f.funct3 rd 0x03)
  | .standardStore f rs1 rs2 imm =>
    some (fmtR (imm.extractLsb' 5 7) rs2 rs1 f.funct3 (imm.extractLsb' 0 5) 0x23)
  | .baseCompute c => some c.encode
  | .branchJump j => some j.encode
  | .fence fm pred succ rd rs1 => some (fmtImm (fm ++ pred ++ succ) rs1 0 rd 0x0F)
  | .fenceTso rd rs1 => some (fmtImm 0x833 rs1 0 rd 0x0F)
  | .fenceI imm rd rs1 => some (fmtImm imm rs1 1 rd 0x0F)
  | .lr dbl aq rl rd rs1 =>
    some (fmtR ((0x02 : BitVec 5) ++ BitVec.ofBool aq ++ BitVec.ofBool rl) 0 rs1 (amoWidth dbl) rd 0x2F)
  | .sc dbl aq rl rd rs1 rs2 =>
    some (fmtR ((0x03 : BitVec 5) ++ BitVec.ofBool aq ++ BitVec.ofBool rl) rs2 rs1 (amoWidth dbl) rd 0x2F)
  | .amo f dbl aq rl rd rs1 rs2 =>
    some (fmtR (f.funct5 ++ BitVec.ofBool aq ++ BitVec.ofBool rl) rs2 rs1 (amoWidth dbl) rd 0x2F)
  | .wfi => some 0x10500073
  | .sfenceVma rs1 rs2 => some (fmtR 0x09 rs2 rs1 0 0 0x73)
  | .ecall => some 0x00000073
  | .ebreak => some 0x00100073
  | .sret => some 0x10200073
  | .csrInstruction f i csr rd src => some (fmtImm csr src (f.funct3 i) rd 0x73)
  | _ => none

/-- The bits of an instruction, for stval of the illegal-instruction trap (R43). -/
def encode (i : Instr) : Inst := (encode? i).getD 0

/-- i is an operation or event that no thread fetches. -/
def Instr.isEvent (i : Instr) : Bool := (encode? i).isNone

end Sys2Proof
end

