-- ==== Sys2Proof/Config.lean ====
section
/-!
DEFINITION. What an NZK9-1344-M fixes for every run, and the free values of the model.
-/
namespace Sys2Proof.Config

/-- FREE VALUE (log 7): the values the manual leaves unpredictable, one for each count. Nothing in
Lean can evaluate it, so a statement that mentions it holds for every value. -/
opaque freeWord : Nat → BitVec 64

/-- FREE VALUE (log 7): whether the device that homes a line refuses, or does not answer, a far request of an agent other
than a thread: the agent's number and the line. -/
opaque farAnswer : Nat → Nat → Bool

/-- Cores of the package, 48 across and 28 down (R15). -/
def coreCount : Nat := 1344

/-- Columns of the mesh of cores (R15). -/
def meshWidth : Nat := 48

/-- Barrel slots of a core (R17). -/
def slotCount : Nat := 16

/-- Range-scoreboard entries of a core (R122). -/
def scoreboardEntries : Nat := 32

/-- Bytes of undo store of a core (R17). -/
def undoBytes : Nat := 65536

/-- Speculative lines a core can hold, in the cache and the overflow buffer together (R116). -/
def specLines : Nat := 1024

/-- Entries of a thread's send queue (R250). -/
def sendEntries : Nat := 8

/-- Messages a receive queue holds, and messages a spill ring holds (R251). -/
def recvEntries : Nat := 64

/-- Places of one Kennel: 256 on the core and 4,096 spilled (R301). -/
def kennelPlaces : Nat := 4352

end Sys2Proof.Config
end

