-- ==== Sys2Proof/Machine/State.lean ====
section
/-!
DEFINITION. The state of one Kranil K9 module, as plain data: threads with their chunks, cores, memory, the
Sheepdog, engines, messages, launch queues, fabric and debug blocks. INVENTORY.md lists every field with its rule
and its reset value.
-/
namespace Sys2Proof.Machine

/-- The model's only fault: an instruction is run where no thread is (no K9 does that; safe). Raised by every
meaning of a thread's instruction when `cur` names no thread in a slot. -/
inductive Fault where
  | noThread
  deriving DecidableEq, Repr

/-- Why the model gives an instruction no meaning. -/
inductive Refusal where
  /-- No meaning has been written yet; raised by Dispatch alone (safe). -/
  | notModelled (mnemonic : String)
  deriving DecidableEq, Repr

/-- A finite table keyed by numbers, sorted by key; a key not listed holds the table's default. -/
abbrev Map (α : Type) := List (Nat × α)

/-- Bytes by address, sorted, with no byte 0 listed (log 1). -/
abbrev Mem := List Host.Cell

/-! ## Names -/

/-- A register of one of the six files (R27, R64). -/
inductive RegName where
  | x (n : Reg)
  | v (n : Reg)
  | p (n : BitVec 3)
  | tl (n : BitVec 3)
  | ta (n : BitVec 2)
  | g (n : BitVec 3)
  deriving DecidableEq, Repr

/-- The local spaces (R111). -/
inductive Space where
  | wb | ab | cb | csp | st
  deriving DecidableEq, Repr

/-- The long-latency classes (R26). -/
inductive ResClass where
  | vector | tile | local | message | far
  deriving DecidableEq, Repr

/-- A tile register: 16 rows of 64 bytes, byte 0 lowest, and its scale side (R196). -/
structure Tile where
  bytes : BitVec 8192
  side  : BitVec 256
  deriving DecidableEq, Repr

/-- A value with the register it goes to. -/
inductive RegVal where
  | x (n : Reg) (w : Word)
  | v (n : Reg) (w : VReg)
  | p (n : BitVec 3) (w : Word)
  | tl (n : BitVec 3) (t : Tile)
  | ta (n : BitVec 2) (w : BitVec 8192)
  deriving DecidableEq, Repr

/-- A long-latency result not yet returned: the chunk that issued it, its class, its value, and the far request it still
waits for, if any (R26, R35, R150). With `vec` it is an instruction in the thread's vector queue, which may have no
value to return (R182). -/
structure Result where
  uid : Nat
  cls : ResClass
  val : Option RegVal
  far : Option Nat
  vec : Bool
  deriving DecidableEq, Repr

/-! ## Messages and optimistic execution -/

/-- A message as it is held by its receiver or carried by the network (R247, R256). -/
structure Msg where
  vrt     : Word
  seq     : BitVec 32
  anti    : Bool
  len     : Nat
  ch      : BitVec 2
  dthr    : BitVec 4
  sthr    : BitVec 4
  sy      : BitVec 5
  sx      : BitVec 6
  srcDev  : BitVec 11
  payload : VReg
  ordinal : Word
  /-- in the channel's spill ring, not in the receive queue (R251) -/
  ring    : Bool
  /-- its entry of the ring, which holds its payload and header image in memory (R251, R334) -/
  place   : Nat
  /-- taken by a RECVT of an event not yet collected (R260) -/
  processed : Bool
  deriving DecidableEq, Repr

/-- The entry image of optimistic mode (R259). -/
structure EntryImage where
  x     : Vector Word 32
  v     : Vector VReg 32
  p     : Vector Word 8
  vtype : BitVec 8
  deriving DecidableEq, Repr

/-- An undo-log entry (R259, R263). -/
structure UndoEntry where
  key : BitVec 128
  va  : Word
  pa  : Nat
  pre : List Byte
  deriving DecidableEq, Repr

/-- An output-log entry (R259, R265). -/
structure OutEntry where
  key  : BitVec 128
  desc : Word
  vrt  : Word
  seq  : BitVec 32
  deriving DecidableEq, Repr

/-- An irrevocable entry (R259, R266). -/
structure IrrEntry where
  key  : BitVec 128
  pa   : Nat
  data : Word
  /-- its number among the entries ever made: its place in the ring is this modulo IENT -/
  num  : Nat
  deriving DecidableEq, Repr

/-- The optimistic state of a thread (R258 to R262). -/
structure Opt where
  on      : Bool
  desc    : Word
  sbase   : Word
  ssize   : Word
  ubase   : Word
  obase   : Word
  ibase   : Word
  ient    : Nat
  oent    : Nat
  uent    : Nat
  iscope  : Word
  image   : EntryImage
  inEvent : Bool
  evKey   : BitVec 128
  evVrt   : Word
  /-- address of the RECVT that began the event in progress -/
  evPc    : Word
  lvt     : Word
  undo    : List UndoEntry
  out     : List OutEntry
  irr     : List IrrEntry
  /-- entries ever written to each ring, for the place of the next one -/
  uTail   : Nat
  oTail   : Nat
  iTail   : Nat
  /-- 1 + the greatest VRT of the events that fossil collection has freed, 0 for none (R262, R273) -/
  fossil  : Word
  /-- lines of the state region the event in progress has logged (R263) -/
  logged  : List Nat
  deriving DecidableEq, Repr

/-! ## Captured private state -/

/-- The CSRs of a thread that first-write capture covers (R34, R104). -/
structure Csrs where
  sstatus   : Word
  sie       : Word
  ssip      : Bool
  stvec     : Word
  sscratch  : Word
  sepc      : Word
  scause    : Word
  stval     : Word
  satp      : Word
  cbwin     : BitVec 8
  launchkey : Word
  errsel    : BitVec 16
  trctl     : Word
  squashmax : BitVec 4
  vtype     : BitVec 8
  nflags    : BitVec 6
  nctl      : Bool
  chunkLen  : Nat
  chunkCur  : Nat
  vshare    : BitVec 4
  stealdom  : Word
  bind      : Bool
  waitswap  : BitVec 32
  ixrules   : Word
  ixpool    : Word
  batchno   : BitVec 4
  loopS0    : Word
  loopC0    : Word
  loopS1    : Word
  loopC1    : Word
  tshape    : Vector (BitVec 32) 8
  tsat      : Vector (BitVec 32) 8
  deriving DecidableEq, Repr

/-- The trap set that a trap saves and SRET restores (R330). -/
structure TrapSet where
  marks   : List RegName
  act0    : Bool
  act1    : Bool
  inEvent : Bool
  deriving DecidableEq, Repr

/-- The fixed task list of a thread (R312). -/
structure TaskList where
  base    : Word
  count   : Nat
  blocked : Bool
  deriving DecidableEq, Repr

/-- The private state that a squash restores: registers, CSRs, marks and the hardware state that the manual
calls captured (R34, R217, R218, R254, R258, R286, R312). -/
structure Regs where
  x        : Vector Word 32
  v        : Vector VReg 32
  p        : Vector Word 8
  tl       : Vector Tile 8
  ta       : Vector (BitVec 8192) 4
  g        : Vector GReg 8
  pc       : Word
  /-- true in S mode -/
  smode    : Bool
  csr      : Csrs
  marks    : List RegName
  saved    : TrapSet
  serial   : BitVec 32
  opt      : Opt
  /-- next sequence numbers less one, by destination triple: untimed and timed (R250) -/
  seqU     : Map (BitVec 32)
  seqT     : Map (BitVec 32)
  tasks    : Option TaskList
  taskPos  : Nat
  inRewrite : Bool
  /-- address and destination of the IXPOP that began the rewrite, and the record it took (R287) -/
  popPc    : Word
  popD     : Reg
  popW0    : Word
  popW1    : Word
  /-- entries of Thread.codeSeen at the last FENCE.I: the older ones no longer count (R103) -/
  codeFrom : Nat
  /-- values that the thread itself has stored, or overwritten, in words since then: word address and value (R103) -/
  codeOwn  : List (Nat × Nat)
  deriving DecidableEq, Repr

/-! ## Engine commands -/

/-- Progress of a command (R223). -/
inductive CmdState where
  /-- installed and waiting -/
  | waiting
  /-- running: its accesses are under way at a controller, the switch or the checkpoint engine -/
  | running
  /-- its last access is made; it has not yet released -/
  | done
  /-- retired and released -/
  | retired
  deriving DecidableEq, Repr

/-- A page through which a running command translates in a 64 KiB grain of its accesses; stale once a TLBINV has named it
(R88, R225). -/
structure Held where
  grain : Nat
  vbase : Nat
  bits  : Nat
  pbase : Nat
  pte   : Word
  stale : Bool
  deriving DecidableEq, Repr

/-- An engine command, from ENQ to the WAITB that forgets it (R218, R219, R223). -/
structure Command where
  id      : Nat
  tid     : Nat
  lid     : Nat
  /-- the posting core: its buffers, scoreboard and crossbar are the command's (R245) -/
  core    : Nat
  engine  : BitVec 2
  serial  : BitVec 32
  batch   : BitVec 4
  w0      : Word
  w1      : Word
  w2      : Word
  w3      : Word
  /-- generator snapshot and LAUNCHKEY of an MMAG (R219) -/
  snap    : GReg
  key     : Word
  /-- satp and CBWIN of the posting thread at ENQ (R345, R224) -/
  satp    : Word
  cbwin   : BitVec 8
  /-- scoreboard entries reserved at ENQ (R219) -/
  entries : Nat
  /-- whether an EVWAIT has been met (R242) -/
  started : Bool
  state   : CmdState
  cls     : Nat
  detail  : Word
  /-- its fault has been reported: ENGQ still tells its class (R222, R223) -/
  reported : Bool
  /-- (row << 16) | col of the first new NaN (R176) -/
  mark    : Option Nat
  satcnt  : Nat
  /-- conditions for GFLAGS: GUARD, SAT, NV, DZ, OF, UF, NX (R163) -/
  flags   : BitVec 7
  /-- reducing copy: refused for now by a controller (R238) -/
  resend  : Bool
  /-- beats of its progress order that a running command has made (R216, R225) -/
  progress : Nat
  /-- reducing copy: its source is read, and it is at the destination's controllers (R238) -/
  sent    : Bool
  /-- bytes that a controller or the switch holds for the command: elements sent, or a contribution (R238, R356) -/
  data    : List Byte
  /-- the pages of the grains that it is in (R88) -/
  held    : List Held
  deriving DecidableEq, Repr

/-- An entry of a range scoreboard; a command without ranges holds one without a range (R122, R219). -/
structure SbEntry where
  cmd   : Nat
  range : Option (Space × Nat × Nat × Bool)
  deriving DecidableEq, Repr

/-! ## Post-commit actions -/

/-- The operation of a non-returning reduction (R94). -/
inductive RedOp where
  | add | min | max | and | or | xor | fadd | fxa
  deriving DecidableEq, Repr

/-- A position: device, core, thread index (R247). -/
structure Position where
  dev  : BitVec 11
  core : Nat
  thr  : BitVec 4
  deriving DecidableEq, Repr

/-- A part of a far store group, in program order: the chunk's plain writes, then relaxed stores, and reductions that stand
between two stores to their words (R134, R142, R149). -/
inductive FarPart where
  | plain (bytes : Mem)
  | store (bytes : Mem)
  | red (op : RedOp) (pa size : Nat) (operand : BitVec 128)
  deriving DecidableEq, Repr

/-- A post-commit action (R36). -/
inductive Act where
  /-- STX, ZLINE (which clears poison) and the stores of fossil collection and of the debugger -/
  | relaxed (pa : Nat) (bytes : List Byte) (zline : Bool)
  /-- STX.REL and irrevocable stores: a release on a scope, then the store (R101) -/
  | storeRel (scope : Word) (pa : Nat) (bytes : List Byte)
  | reduce (op : RedOp) (pa size : Nat) (operand : BitVec 128)
  /-- fence marker (R79) -/
  | fence (scope : Word)
  | command (c : Command)
  | message (dst : Position) (m : Msg)
  /-- barrier arrival with the release of R79: scope, destination register (R80) -/
  | arrive (scope : Word) (d : Reg)
  | lrwRequest (pa size : Nat) (d : Reg)
  | handover (pa : Nat)
  | decrement (handle : Word)
  | pairPush (w0 w1 : Word)
  | outLog (e : OutEntry)
  | irrLog (e : IrrEntry)
  /-- an irrevocable store of fossil collection: a release on a scope, then the store (R273) -/
  | irrStore (scope : Word) (e : IrrEntry)
  /-- far store group of a commit toward one device (R149), a far request with its number (R150); the lines that a ZLINE
  wrote lose their poison (R89). `bytes` are the last that the thread wrote; the device performs the parts, in order and as
  one unit -/
  | farGroup (dev : BitVec 11) (num : BitVec 32) (bytes : Mem) (zlines : List Nat) (parts : List FarPart)
  | evWrite (cnt : Bool) (n : BitVec 3) (w : Word)
  | tmark (w : Word)
  | perCore (therm : Bool) (w : Word)
  deriving DecidableEq, Repr

/-- A post-commit action released and not yet performed, in release order (R139, R142). -/
structure Flight where
  tid  : Nat
  lid  : Nat
  core : Nat
  act  : Act
  deriving DecidableEq, Repr

/-! ## Chunks -/

/-- An error-log entry (R130). -/
structure ErrEntry where
  addr     : Word
  launchid : BitVec 16
  lindex   : BitVec 32
  syndrome : BitVec 16
  attempt  : BitVec 8
  cls      : BitVec 4
  inj      : Bool
  lost     : Bool
  valid    : Bool
  chunkno  : Word
  /-- the model's own: CHUNKNO as it will stand at the start of the chunk that met the error -/
  index    : Word
  /-- the 64-bit word of the location, the cycle of detection, and the order of arrival (R130, R337) -/
  word     : Nat
  time     : Nat
  stamp    : Nat
  deriving DecidableEq, Repr

/-- What first-write capture has captured in a chunk (R34). -/
inductive UndoKey where
  | reg (r : RegName)
  | csr (n : BitVec 12)
  | marks
  | granule (s : Space) (n : Nat)
  deriving DecidableEq, Repr

/-- Progress of a chunk (R31, R138, R139). -/
inductive ChunkState where
  | running
  /-- commit requested and pending -/
  | requested
  /-- granted: its post-commit list is not yet released -/
  | granted
  deriving DecidableEq, Repr

/-- What a thread that stands before its IXPOP after the squash of its rewrite waits for (R32, R114, R220, R287). -/
inductive Hold where
  /-- room for these speculative lines -/
  | lines (own : List Nat)
  /-- undo space -/
  | undo (bytes : Nat)
  /-- a granule of a core's buffer that a chunk of another thread holds -/
  | granule (core : Nat) (sp : Space) (g : Nat)
  /-- scoreboard entries -/
  | entries (n : Nat)
  /-- an entry of its send queue -/
  | send
  deriving DecidableEq, Repr

/-- Why a ready thread could not issue its instruction; it tries again (R24, R32). -/
inductive Why where
  | olderCommit | parked
  /-- results that return before a handler is entered (R28) -/
  | entry
  /-- a read that waits at a bank or for an invalidation, other than the interlock of a standard load, LR, SC or AMO
  (R126, R128, R133) -/
  | read (pa : Nat)
  | capacity (code : Nat) | scoreboard | granule | queue | reverse | farRoom | ring (field : Word)
  | refill | miss (pa : Nat) (fetch : Bool) | far (num : Nat) | recvt | ixpop (d : Reg) | commandRoom | paused
  | token | engine | flip
  /-- a full queue of a bound pair, or an empty forward queue (R30) -/
  | pairFull | pairEmpty
  /-- a full vector queue (R182), and scoreboard entries for an ENQ (R220) -/
  | vecQueue | entries
  /-- earlier vector and tile instructions, for a CSR read of NFLAGS or TSAT (R183) -/
  | units
  /-- a rewrite that squashed for want of something waits before its IXPOP -/
  | held (h : Hold)
  /-- CTXSAVE waits until that thread's context is in the TCC (R86) -/
  | ctx (t : Nat)
  deriving DecidableEq, Repr

/-- A wait between two chunks (R32, R80, R97, R103, R222, R255, R274, R307, R311). -/
inductive Wait where
  | batch (n : BitVec 4) (pc : Word)
  /-- the reservation with LRW's address and its operand's -/
  | reservation (pa size : Nat) (d : Reg) (pc va : Word)
  | barrier (d : Reg)
  /-- a barrier's participant whose instance has ended, with the value for its register (R80) -/
  | released (d : Reg) (v : Word)
  /-- a waiting TAKE, or IXPOP, whose launch is quiescent, to be given zeros (R286, R307) -/
  | zeros (d : Reg) (pop : Bool)
  | join (handle : Word)
  | take (d : Reg)
  /-- RECV and RECVS, with the instruction's address -/
  | recv (d : Reg) (mask : BitVec 4) (pc : Word)
  | recvs (d : Reg) (mask : BitVec 4) (sel : Word) (pc : Word)
  | wfi
  | optoff (exit : Bool)
  deriving DecidableEq, Repr

/-- CTXSAVE and CTXLOAD take effect at commit (R86, R87); the area's 256-byte blocks stand at these physical
addresses. -/
inductive CtxOp where
  /-- the thread whose context is saved, and its partner's, if the slot was occupied -/
  | save (blocks : List Nat) (t u : Option Nat)
  | load (blocks : List Nat) (core slot : Nat)
  deriving DecidableEq, Repr

/-- A chunk in flight (R31 to R38, R133 to R135). -/
structure Chunk where
  uid     : Nat
  /-- private state at the chunk's start, its boundary effects included (log 8) -/
  start   : Regs
  count   : Nat
  undo    : List UndoKey
  /-- typed-buffer granules held, with their pre-images (R114) -/
  grans   : List (Space × Nat × List Byte)
  /-- bytes of speculative lines -/
  writes  : Mem
  rlines  : List Nat
  wlines  : List Nat
  /-- speculative lines in the overflow buffer (R116) -/
  ovf     : List Nat
  /-- words read, for the DET refinement, and the virtual address of each line's first access (R135, R155) -/
  rwords  : List Nat
  vas     : Map Word
  post    : List Act
  /-- messages taken from the receive queue or a ring, newest first -/
  taken   : List Msg
  /-- messages taken as the chunk's first effect: given again on its own squash (R255) -/
  first   : List Msg
  /-- forward and reverse queue entries this chunk removed: value and writing chunk (R30) -/
  aeTaken : List (Word × Nat)
  /-- queue entries of a bound pair that a write of BIND 0 discarded: reverse entries (R29) -/
  dropped : List (Word × Nat)
  /-- error-log entries that a write of VALID cleared: core, log, place and entry (R130) -/
  cleared : List (Nat × Nat × Nat × ErrEntry)
  lrs     : List Nat
  nodes   : List Word
  freed   : List Word
  /-- task-table entries of this core allocated, and entries to free, at commit (R309, R311) -/
  news    : List (Nat × Word × Word × BitVec 32)
  /-- those of them that are join entries (R309) -/
  newJoins : List Nat
  joins   : List Word
  tlbinv  : List (Option Word × Option Word)
  ctx     : List CtxOp
  sbRes   : Nat
  sendRes : Nat
  /-- Kennel places reserved by this chunk on its core (R302) -/
  places  : Nat
  rewrite : Bool
  token   : Bool
  attempt : Nat
  reason  : Nat
  exits   : Bool
  state   : ChunkState
  /-- the reach fixed at its cut: 0 cluster, 1 die, 2 package (R136) -/
  reach   : Nat
  /-- cycle of its commit request (R138) -/
  reqAt   : Nat
  /-- a speculative line of it failed the parity check at its cut, and whether the error is lasting (R117, R337) -/
  parity  : Option Bool
  /-- late refusals that its trap entry reported: they are queued again if the chunk before it squashes (R333) -/
  refused : List (BitVec 32 × BitVec 4)
  /-- DETCONFLICT to be taken before the instruction of that number in the chunk (R155) -/
  detAt   : Option (Nat × Word)
  /-- cut while its core was halted: its request is held (R365) -/
  heldReq : Bool
  /-- it executed FENCE.I (R103) -/
  fenced  : Bool
  /-- it executed SFENCE.VMA (R103) -/
  sfenced : Bool
  /-- the target key of the rollback whose step this hardware chunk is (R269) -/
  rollback : Option (BitVec 128)
  /-- the wait that a squash of the chunk begins again: the record or pair it took goes back (R286, R307) -/
  redo    : Option Wait
  /-- order stamp of the grant: stage and that stage's grant count (R370) -/
  order   : Word
  deriving DecidableEq, Repr

/-! ## Waits -/

/-- Whether a thread can issue. -/
inductive Status where
  | ready
  | retry (w : Why)
  | wait (w : Wait)
  deriving DecidableEq, Repr

/-- Where a thread's context is (R316, R335). -/
inductive Loc where
  | absent | slot | tcc | area
  /-- in an area that CTXSAVE wrote, for CTXLOAD alone (R86, R87) -/
  | saved
  | exited
  deriving DecidableEq, Repr

/-- Why a thread must be cut at its next boundary (R32, R114, R316, R365). -/
inductive CutReq where
  /-- a granule it holds is wanted (code 23) -/
  | granule
  /-- pre-emption or migration (code 15) -/
  | preempt
  deriving DecidableEq, Repr

/-- The trace capture of a thread (R374). -/
structure Capture where
  on     : Bool
  cnt    : Vector Nat 4
  pre    : Bool
  preCnt : BitVec 32
  deriving DecidableEq, Repr

/-- A hardware thread (R17 to R41). -/
structure Thread where
  loc       : Loc
  lid       : Nat
  tIndex    : Nat
  lindex    : Nat
  placeCore : Nat
  core      : Nat
  slot      : Nat
  tile      : Bool
  regs      : Regs
  chunk     : Chunk
  older     : Option Chunk
  status    : Status
  nextIssue : Nat
  results   : List Result
  chunkno   : Word
  squashcnt : Word
  sqRun     : Nat
  cutwhy    : Word
  mlatc     : Word
  farNext   : BitVec 32
  farseq    : Word
  farLate   : List (BitVec 32 × BitVec 4)
  /-- messages held, in the order of arrival: receive queue and spill rings (R251) -/
  recvq     : List Msg
  arrivals  : Word
  sendBusy  : Nat
  errinj    : BitVec 24
  /-- location and remaining occurrences of an injection in progress (R131) -/
  injAt     : Option (Nat × Nat)
  seip      : Bool
  stip      : Bool
  credit    : Nat
  cutReq    : Option CutReq
  halted    : Bool
  ks        : Option (BitVec 128)
  tmark     : Word
  capture   : Capture
  /-- state-log records gathered for the next STATE packet, and the time of the last record (R369) -/
  log       : List Word
  logTime   : Nat
  logState  : Nat
  /-- time of the first record gathered -/
  logStart  : Nat
  /-- the model's own: instructions completed, squashed ones included; it tells the counters of R374 that an
  instruction has completed -/
  retired   : Nat
  /-- instances of barriers joined, by scope value (R80) -/
  bars      : List (Word × Nat)
  /-- a pre-empted thread that has no wait is runnable (R317) -/
  runnable  : Bool
  /-- it has been swapped out on WAITSWAP expiry: runnable only when its wait is satisfied (R108, R317) -/
  swapped   : Bool
  /-- messages ever written to each spill ring: the next one's entry is this modulo 64 (R251) -/
  ringNext  : Vector Nat 4
  /-- values that words of memory, as the thread sees them, held before and after a write: word address and value, the
  latest first (R103) -/
  codeSeen  : List (Nat × Nat)
  /-- a commit whose COMMIT packet waits for the next commit to fill it: words 1 to 3 (R370) -/
  commitRec : List Word
  deriving DecidableEq, Repr

/-! ## Cores -/

/-- An entry of a Kennel (R39, R279). -/
structure KEntry where
  pair    : Bool
  w0      : Word
  w1      : Word
  /-- uncommitted chunk that pushed it -/
  pusher  : Option Nat
  /-- uncommitted chunk that popped it -/
  taker   : Option Nat
  spilled : Bool
  /-- a spilled entry's place in the Kennel spill area, which then holds its words (R39, R301) -/
  place   : Nat
  deriving DecidableEq, Repr

/-- A TLB entry: page base and size, address-space identifier, page-table entry, and the cores that may not use it since
their SFENCE.VMA (R103, R344). -/
structure TlbEntry where
  vbase : Nat
  bits  : Nat
  asid  : BitVec 16
  pbase : Nat
  pte   : Word
  barred : List Nat
  deriving DecidableEq, Repr

/-- An entry of a page-table walker's cache: the pointer met at a level for the upper bits of an address, and the cores
that may not use it since their SFENCE.VMA (R103, R344). -/
structure PtrEntry where
  lvl  : Nat
  top  : Nat
  asid : BitVec 16
  pte  : Word
  barred : List Nat
  deriving DecidableEq, Repr

/-- A flipped bit stored in an array (R131): array code; the chunk of a speculative line, the thread of a register or
saved context, else 0; address; bit, 64 and up for a check bit; whether ERRINJ did it. -/
structure Flip where
  array : Nat
  owner : Nat
  addr  : Nat
  bit   : Nat
  inj   : Bool
  deriving DecidableEq, Repr

/-- A bound pair of slots s and s + 8: the forward and reverse queues, oldest first, each entry with the chunk
that wrote it while that chunk is uncommitted (R29, R30). -/
structure Pair where
  fq : List (Word × Nat)
  rq : List (Word × Nat)
  deriving DecidableEq, Repr

/-- A core and its slice of the cluster (R17). -/
structure Core where
  wb        : Mem
  ab        : Mem
  cb        : Mem
  st        : Mem
  /-- committed copies in the L1 data cache: address and byte -/
  l1        : List (Nat × Byte)
  /-- copies in the L1 instruction cache -/
  l1i       : List (Nat × Byte)
  tlb       : List TlbEntry
  evcnt     : Vector Word 8
  evterm    : Vector Word 8
  sb        : List SbEntry
  kennels   : Map (List KEntry)
  /-- Kennel places reserved by live task-table entries homed here, by launch (R302, R309) -/
  kreserved : Map Nat
  /-- free-node caches by launch, most recently added first, and entries of the core's spill stacks (R293) -/
  caches    : Map (List Word)
  stacked   : Map Nat
  /-- threads whose contexts the TCC holds, least recently used first, each with its dirty mark -/
  tcc       : List (Nat × Bool)
  proxy     : Bool
  thermrank : Word
  pairs     : Map Pair
  errlog    : Map (List ErrEntry)
  /-- flipped bits stored in the core's arrays; core 0 of a cluster keeps those of the cluster array -/
  flips     : List Flip
  disabled  : BitVec 16
  halted    : Bool
  /-- the vector arbiter's pointer, and one more than the cycle of its last grant (R315) -/
  vptr      : Nat
  vlast     : Nat
  deriving DecidableEq, Repr

/-! ## The package -/

/-- An invalidation sent and not yet applied (R141). -/
structure Inval where
  core : Nat
  pa   : Nat
  len  : Nat
  src  : Nat
  home : Nat
  deriving DecidableEq, Repr

/-- A commit broadcast sent to one core and not yet applied (R138, R140): the signature and the words written. -/
structure Bcast where
  core  : Nat
  tid   : Nat
  lid   : Nat
  lines : List Nat
  words : List Nat
  deriving DecidableEq, Repr

/-- A barrier instance (R80). -/
structure Barrier where
  /-- the launch, or for scope 2 the LAUNCHKEY -/
  lid     : Nat
  key     : Word
  scope   : Word
  k       : Nat
  arrived : List (Nat × Reg)
  /-- some participant on another device of the domain has not arrived (R358) -/
  elsewhere : Bool
  /-- the status with which it ended, kept for participants that arrive later -/
  ended   : Option Word
  deriving DecidableEq, Repr

/-- A reserved word (R96, R97): holder, whether its chunk has started, and waiters. -/
structure Reservation where
  pa      : Nat
  holder  : Option Nat
  started : Bool
  /-- size of the holder's word, and its value at the grant (R97) -/
  size    : Nat
  value   : Nat
  waiters : List (Nat × Nat × Reg)
  deriving DecidableEq, Repr

/-- What a far request is for (R150). -/
inductive FarKind where
  | line
  /-- with the bytes that the thread itself wrote before, by place -/
  | lda (size : Nat) (d : Reg) (own : List (Nat × Byte))
  | group
  | red
  /-- the store of STX.REL, or an irrevocable one, which follows its release (R101, R273) -/
  | rel (irr : Bool)
  deriving DecidableEq, Repr

/-- A far request not yet acknowledged (R150). -/
structure FarReq where
  tid    : Nat
  num    : BitVec 32
  kind   : FarKind
  pa     : Nat
  served : Bool
  deriving DecidableEq, Repr

/-- A launch in being (R19, R72, R163, R303, R339). -/
structure Launch where
  entry      : Word
  args       : Word
  rect       : Word
  chunkLen   : Nat
  csp        : Nat
  det        : Bool
  prio       : Nat
  tt         : Nat
  nt         : Nat
  stealdom   : Word
  launchkey  : Word
  doneAddr   : Word
  tlist      : Word
  launchId   : BitVec 16
  queue      : Nat
  recno      : BitVec 32
  gflags     : Map (BitVec 7)
  unreported : Bool
  terminated : Bool
  /-- physical address of its context region (R301) -/
  region     : Nat
  deriving DecidableEq, Repr

/-- A launch queue (R297). -/
structure Queue where
  qbase     : Word
  res       : Bool
  qprio     : BitVec 2
  qsize     : Nat
  qtail     : BitVec 32
  qhead     : BitVec 32
  qdone     : BitVec 32
  /-- switched out: SWITCHED reads 1, and QHEAD and QDONE stand as saved (R304) -/
  out       : Bool
  /-- completions while the queue is out (R304) -/
  outDone   : Nat
  recno     : BitVec 32
  code      : BitVec 8
  /-- records fetched and accepted, not yet placed: record number and dwords (R298) -/
  fetched   : List (Nat × List Word)
  fetchNext : BitVec 32
  tries     : Nat
  deriving DecidableEq, Repr

/-- A registered region with its controllers' state (R238, R354). -/
structure Region where
  rbase : Word
  rsize : Word
  next  : BitVec 32
  guard : Bool
  err   : Bool
  valid : Bool
  /-- identifiers of the commands held in the reorder buffer -/
  held  : List Nat
  terms : Map Nat
  deriving DecidableEq, Repr

/-- A collective slot (R355, R356): identifiers of the commands that have contributed. -/
structure Collective where
  valid : Bool
  gid   : BitVec 16
  list  : Word
  nmem  : Nat
  next  : BitVec 32
  here  : List Nat
  deriving DecidableEq, Repr

/-- The checkpoint engine (R361, R362). -/
structure Ckpt where
  /-- the save in progress: command, whether every device has arrived -/
  cut     : Option (Nat × Bool)
  ctl     : Word
  buddyBase : Word
  hostBase  : Word
  cutNo   : BitVec 32
  err     : Bool
  done    : Bool
  drained : Word
  /-- records not yet drained: offset from the snapshot area and bytes -/
  records : List (Nat × Nat × Nat)
  deriving DecidableEq, Repr

/-- A debug module (R364). -/
structure Debug where
  cores   : BitVec 8
  whistle : Bool
  view    : Bool
  halt    : Bool
  dmerr   : Bool
  sel     : Word
  addr    : Word
  data    : Word
  mem     : Word
  deriving DecidableEq, Repr

/-- The trace unit (R372, R373). -/
structure Trace where
  base   : Word
  en     : Bool
  stall  : Bool
  size   : Nat
  wrptr  : BitVec 32
  rdptr  : BitVec 32
  lost   : Word
  /-- packets dropped since the last LOSS packet -/
  owed   : Nat
  /-- packets that wait for a slot under POLICY STALL, oldest first (R373) -/
  buf    : List (List Byte)
  deriving DecidableEq, Repr

/-- A bank of an HBM stack (R126). -/
structure Bank where
  owed  : Nat
  /-- refresh in progress: 0 none, 1 REFpb, 2 REFab -/
  busy  : Nat
  deriving DecidableEq, Repr

/-- An agent other than a thread whose read waits at a bank (R126): an engine command, the fetch of a launch queue's
records, the host. -/
inductive Reader where
  | command (id : Nat)
  | queue (q : Nat)
  | host
  deriving DecidableEq, Repr

/-- Counters of an HBM controller (R127). -/
structure Hbm where
  stall  : Word
  post   : Word
  forced : Word
  pb     : Word
  deriving DecidableEq, Repr

/-- The host's and the package's registers outside the cores (R347 to R352, R364, R372, R376 to R378). -/
structure Regs0 where
  ldb      : BitVec 4
  devnum   : BitVec 11
  farto    : BitVec 32
  barto    : BitVec 32
  jsatp    : Word
  jstvec   : Word
  /-- host physical address of the BAR0 window, assigned by the host (R349) -/
  alias0   : Option Nat
  biasReg  : Word
  biasQ    : Word
  domain   : BitVec 2048
  offline  : List Nat
  offClusters : List Nat
  gated    : List Nat
  phase    : BitVec 4
  imgErr   : Bool
  frozen   : Bool
  d3hot    : Bool
  selfRefresh : Bool
  flash    : List (Nat × Word)
  cap      : BitVec 16
  clk      : BitVec 16
  portsDown : BitVec 12
  /-- the pool that firmware reserves for context regions: address and size (R301) -/
  poolBase : Nat
  poolSize : Nat
  msix     : BitVec 64
  deriving DecidableEq, Repr

/-- A soft error, an input from outside the machine (R129): bits of one 64-bit word of an array flip. Array codes are
those of ERRSEL; 10 is an error of HBM that its codes cannot correct. `core` is the core of the array, or a core of the cluster; `owner` is as in Flip. -/
structure Upset where
  array : Nat
  core  : Nat
  owner : Nat
  addr  : Nat
  bits  : List Nat
  deriving DecidableEq, Repr

/-- What moves next (log 5): a thread issues, an operation or event takes place, a soft error strikes, the core reads the
undo store of a thread whose chunk executes (R336), or the host assigns the device's BAR0 window (R346, R349; log 47). -/
inductive Move where
  | issue (t : Nat)
  | event (i : Instr)
  | upset (u : Upset)
  | undoRead (t : Nat)
  | window (hpa : Nat)
  deriving DecidableEq, Repr

/-- The machine. -/
structure State where
  /-- the model's own: which agents move next, in order (log 5) -/
  agenda    : List Move
  /-- the model's own: the thread whose instruction is being executed -/
  cur       : Nat
  /-- core cycles (R25, R370) -/
  cycle     : Nat
  /-- the model's own: the next core to issue in this cycle (log 5) -/
  turn      : Nat
  /-- the model's own: the counter that free values are applied to (log 7) -/
  free      : Nat
  nextTid   : Nat
  nextUid   : Nat
  nextCmd   : Nat
  stamp     : Nat
  threads   : Map Thread
  cores     : Map Core
  /-- cluster TLBs, and the pointer caches of the dies' walkers (R17, R344) -/
  ctlbs     : Map (List TlbEntry)
  walkers   : Map (List PtrEntry)
  /-- the slice that each cluster's copy engine has served last (R216) -/
  copyPtr   : Map Nat
  mem       : Mem
  poison    : List Nat
  hostBias  : List Nat
  flipping  : Option (Nat × Bool)
  /-- what the last host read over CXL.mem returned: line address, bytes, and the poison indication (R340, R346) -/
  hostRead  : Option (Nat × List Byte × Bool)
  flights   : List Flight
  invals    : List Inval
  bcasts    : List Bcast
  tlbinvs   : List (Nat × Option Word × Option Word)
  /-- commit requests in arrival order (R138) -/
  requests  : List Nat
  /-- grants of each stage unit: clusters from 0, dies from 168, the package at 176 (R138) -/
  grants    : Map Nat
  tokenQ    : List Nat
  token     : Option Nat
  barriers  : List Barrier
  reserved  : List Reservation
  /-- overflow FIFO of requests beyond 64 waiters, oldest first, and requests to be re-sent (R96) -/
  overflow  : List (Nat × Nat × Nat × Reg)
  resends   : List (Nat × Nat × Nat × Reg)
  far       : List FarReq
  acks      : List Nat
  cmds      : List Command
  gvts      : Map Word
  launches  : Map Launch
  nextLid   : Nat
  queues    : Map Queue
  lastServed : Nat
  regions   : Map Region
  colls     : Map Collective
  ckpt      : Ckpt
  debugs    : Map Debug
  trace     : Trace
  hbm       : Map Hbm
  banks     : Map Bank
  /-- reads of other agents than threads that wait at banks, with their addresses (R126) -/
  readers   : List (Reader × Nat)
  /-- the model's own: task-table entries into which something other than TNEW and its completion has stored, so that what
  they hold is unpredictable (R308; log 152) -/
  spoiled   : List Nat
  reg       : Regs0
  deriving DecidableEq, Repr

/-! ## Reset -/

def Opt.reset : Opt :=
  { on := false, desc := 0, sbase := 0, ssize := 0, ubase := 0, obase := 0, ibase := 0,
    ient := 0, oent := 0, uent := 0, iscope := 0,
    image := { x := Vector.replicate 32 0, v := Vector.replicate 32 0, p := Vector.replicate 8 0, vtype := 0 },
    inEvent := false, evKey := 0, evVrt := 0, evPc := 0, lvt := 0,
    undo := [], out := [], irr := [], uTail := 0, oTail := 0, iTail := 0, fossil := 0,
    logged := [] }

/-- The CSRs at their reset values (R104 and the rules it names). -/
def Csrs.reset : Csrs :=
  { sstatus := 0, sie := 0, ssip := false, stvec := 0, sscratch := 0, sepc := 0, scause := 0, stval := 0,
    satp := 0, cbwin := 0xF0, launchkey := 0, errsel := 0, trctl := 0, squashmax := 4, vtype := 7, nflags := 0,
    nctl := false, chunkLen := 4096, chunkCur := 4096, vshare := 1, stealdom := 0, bind := false,
    waitswap := 4096, ixrules := 0, ixpool := 0, batchno := 0, loopS0 := 0, loopC0 := 0, loopS1 := 0,
    loopC1 := 0, tshape := Vector.replicate 8 0x3FF7, tsat := Vector.replicate 8 0 }

/-- The private state of a thread before a launch loads it (R196, R211, R301; log 2 for x, v, p and pc). -/
def Regs.reset : Regs :=
  { x := Vector.replicate 32 0, v := Vector.replicate 32 0, p := Vector.replicate 8 0,
    tl := Vector.replicate 8 { bytes := 0, side := 0 }, ta := Vector.replicate 4 0, g := Vector.replicate 8 0,
    pc := 0, smode := false, csr := Csrs.reset, marks := [],
    saved := { marks := [], act0 := false, act1 := false, inEvent := false },
    serial := 0, opt := Opt.reset, seqU := [], seqT := [], tasks := none, taskPos := 0,
    inRewrite := false, popPc := 0, popD := 0, popW0 := 0, popW1 := 0, codeFrom := 0, codeOwn := [] }

/-- A chunk that has done nothing, starting from the given private state. -/
def Chunk.fresh (uid : Nat) (r : Regs) : Chunk :=
  { uid := uid, start := r, count := 0, undo := [], grans := [], writes := [], rlines := [], wlines := [],
    ovf := [], rwords := [], vas := [], post := [], taken := [], first := [], aeTaken := [], dropped := [], cleared := [], lrs := [],
    nodes := [], freed := [], news := [], newJoins := [], joins := [], tlbinv := [], ctx := [], sbRes := 0, sendRes := 0,
    places := 0, rewrite := false, token := false, attempt := 1, reason := 0, exits := false,
    state := .running, reach := 0, reqAt := 0, parity := none, refused := [], detAt := none, heldReq := false, fenced := false, sfenced := false, rollback := none, redo := none, order := 0 }

def Capture.reset : Capture :=
  { on := false, cnt := Vector.replicate 4 0, pre := false, preCnt := 0 }

/-- No thread. -/
def Thread.reset : Thread :=
  { loc := .absent, lid := 0, tIndex := 0, lindex := 0, placeCore := 0, core := 0, slot := 0, tile := false,
    regs := Regs.reset, chunk := Chunk.fresh 0 Regs.reset, older := none, status := .ready, nextIssue := 0,
    results := [], chunkno := 0, squashcnt := 0, sqRun := 0, cutwhy := 0, mlatc := 0, farNext := 1,
    farseq := 0, farLate := [], recvq := [], arrivals := 0, sendBusy := 0,
    errinj := 0, injAt := none, seip := false, stip := false, credit := 0, cutReq := none,
    halted := false, ks := none, tmark := 0, capture := Capture.reset, log := [], logTime := 0, logState := 0, logStart := 0,
    retired := 0, bars := [], runnable := false, swapped := false, ringNext := Vector.replicate 4 0, codeSeen := [], commitRec := [] }

def Core.reset : Core :=
  { wb := [], ab := [], cb := [], st := [], l1 := [], l1i := [], tlb := [],
    evcnt := Vector.replicate 8 0, evterm := Vector.replicate 8 0, sb := [], kennels := [], kreserved := [],
    caches := [], stacked := [], tcc := [], proxy := false, thermrank := 0, pairs := [], errlog := [], flips := [],
    disabled := 0, halted := false, vptr := 0, vlast := 0 }

def Launch.reset : Launch :=
  { entry := 0, args := 0, rect := 0, chunkLen := 4096, csp := 0, det := false, prio := 0, tt := 0, nt := 0,
    stealdom := 0, launchkey := 0, doneAddr := 0, tlist := 0, launchId := 0, queue := 0, recno := 0,
    gflags := [], unreported := false, terminated := false, region := 0 }

def Queue.reset : Queue :=
  { qbase := 0, res := false, qprio := 0, qsize := 0, qtail := 0, qhead := 0, qdone := 0, out := false,
    outDone := 0, recno := 0, code := 0, fetched := [], fetchNext := 0, tries := 0 }

def Region.reset : Region :=
  { rbase := 0, rsize := 0, next := 0, guard := false, err := false, valid := false, held := [], terms := [] }

def Collective.reset : Collective :=
  { valid := false, gid := 0, list := 0, nmem := 0, next := 0, here := [] }

def Ckpt.reset : Ckpt :=
  { cut := none, ctl := 0, buddyBase := 0, hostBase := 0, cutNo := 0, err := false, done := false, drained := 0,
    records := [] }

def Debug.reset : Debug :=
  { cores := 0, whistle := false, view := false, halt := false, dmerr := false, sel := 0, addr := 0, data := 0,
    mem := 0 }

def Trace.reset : Trace :=
  { base := 0, en := false, stall := false, size := 0, wrptr := 0, rdptr := 0, lost := 0, owed := 0, buf := [] }

def Hbm.reset : Hbm :=
  { stall := 0, post := 0, forced := 0, pb := 0 }

def Bank.reset : Bank :=
  { owed := 0, busy := 0 }

/-- Registers outside the cores after device reset (R348, R350, R352, R377, R378; log 3 for LDB and DEVNUM). -/
def Regs0.reset : Regs0 :=
  { ldb := 8, devnum := 0, farto := 10000, barto := 100000, jsatp := 0, jstvec := 0, alias0 := none,
    biasReg := 0, biasQ := 0, domain := 1, offline := [], offClusters := [], gated := [], phase := 0,
    imgErr := false, frozen := false, d3hot := false, selfRefresh := false, flash := [], cap := 0,
    clk := 2400, portsDown := 0, poolBase := 0, poolSize := 0, msix := 0 }

/-- The machine right after device reset: no thread, no launch, nothing listed in memory. -/
def State.reset : State :=
  { agenda := [], cur := 0, cycle := 0, turn := 0, free := 0, nextTid := 0, nextUid := 1, nextCmd := 1,
    stamp := 0, threads := [], cores := [], ctlbs := [], walkers := [], copyPtr := [], mem := [], poison := [], hostBias := [], flipping := none, hostRead := none,
    flights := [], invals := [], bcasts := [], tlbinvs := [], requests := [], grants := [],
    tokenQ := [], token := none, barriers := [], reserved := [], overflow := [], resends := [], far := [],
    acks := [], cmds := [], gvts := [], launches := [], nextLid := 0, queues := [], lastServed := 63,
    regions := [], colls := [], ckpt := Ckpt.reset, debugs := [], trace := Trace.reset, hbm := [], banks := [], readers := [], spoiled := [],
    reg := Regs0.reset }

end Sys2Proof.Machine
end

