-- ==== Sys2Proof/Machine/Ops.lean ====
section
/-!
DEFINITION. The named operations over the state: tables, bytes, places, registers with first-write capture, the
chunk's cut, squash and signatures, taking a trap and returning from it, and the frame in which every thread
instruction runs (`runInstr`).
-/
namespace Sys2Proof.Machine

/-- The outcomes of a meaning. -/
abbrev Out := Host.Outcome State Fault Refusal

/-! ## Tables and bytes -/

/-- The entry of a table for a key, or the table's default. -/
def tabGet {α : Type} (dflt : α) : List (Nat × α) → Nat → α
  | [], _ => dflt
  | (k, v) :: m, a => if k = a then v else tabGet dflt m a

/-- The entry of a table for a key, if there is one. -/
def tabFind {α : Type} : List (Nat × α) → Nat → Option α
  | [], _ => none
  | (k, v) :: m, a => if k = a then some v else tabFind m a

/-- Puts an entry into a table, in the order of keys. -/
def tabSet {α : Type} : List (Nat × α) → Nat → α → List (Nat × α)
  | [], a, w => [(a, w)]
  | (k, v) :: m, a, w =>
    if a < k then (a, w) :: (k, v) :: m else if a = k then (a, w) :: m else (k, v) :: tabSet m a w

/-- Takes a key out of a table. -/
def tabDel {α : Type} : List (Nat × α) → Nat → List (Nat × α)
  | [], _ => []
  | (k, v) :: m, a => if k = a then m else (k, v) :: tabDel m a

/-- The byte at an address; an unlisted address reads 0 (log 1). -/
def memGet (m : Mem) (a : Nat) : Byte := tabGet 0 m a

/-- Writes one byte and keeps the canonical form: a byte of 0 is not listed. -/
def memSet (m : Mem) (a : Nat) (b : Byte) : Mem := if b = 0 then tabDel m a else tabSet m a b

/-- n bytes from an address upward. -/
def memRead (m : Mem) (a : Nat) : Nat → List Byte
  | 0 => []
  | n + 1 => memGet m a :: memRead m (a + 1) n

/-- Writes bytes from an address upward. -/
def memWrite (m : Mem) (a : Nat) : List Byte → Mem
  | [] => m
  | b :: bs => memWrite (memSet m a b) (a + 1) bs

/-- Puts bytes into an overlay, where a byte of 0 is kept. -/
def layWrite (m : Mem) (a : Nat) : List Byte → Mem
  | [] => m
  | b :: bs => layWrite (tabSet m a b) (a + 1) bs

/-- The keys of a table rise strictly. -/
def keysRise {α : Type} : List (Nat × α) → Bool
  | [] => true
  | [_] => true
  | (a, _) :: (b, w) :: m => decide (a < b) && keysRise ((b, w) :: m)

/-- The canonical form of memory: addresses strictly rising and no byte 0 listed. -/
def Memory.wf (m : Mem) : Bool := keysRise m && m.all (fun c => c.2 != 0)

/-- The number that little-endian bytes hold (R7). -/
def leNat : List Byte → Nat
  | [] => 0
  | b :: bs => b.toNat + 256 * leNat bs

/-- The n low bytes of a number, little-endian (R7). -/
def leBytes : Nat → Nat → List Byte
  | 0, _ => []
  | n + 1, v => BitVec.ofNat 8 v :: leBytes n (v / 256)

/-- The low n bits of v, sign-extended to 64 bits (R8). -/
def signExt (n : Nat) (v : Nat) : Word := (BitVec.ofNat n v).signExtend 64

/-- Bits msb to lsb of a word, as a number. -/
def bits (w : Word) (msb lsb : Nat) : Nat := (w.toNat / 2 ^ lsb) % 2 ^ (msb + 1 - lsb)

/-- A word with a field put in at bit lsb, width n. -/
def putBits (w : Word) (lsb n v : Nat) : Word :=
  let mask : Word := BitVec.ofNat 64 ((2 ^ n - 1) * 2 ^ lsb)
  (w &&& ~~~mask) ||| (BitVec.ofNat 64 ((v % 2 ^ n) * 2 ^ lsb))

/-- A bit as a number. -/
def b2n (b : Bool) : Nat := if b then 1 else 0

/-- Rounds up to a multiple. -/
def roundUp (v n : Nat) : Nat := (v + n - 1) / n * n

/-- Adds to a list what it does not hold. -/
def addNew {α : Type} [BEq α] (a : α) (l : List α) : List α := if l.contains a then l else a :: l

/-! ## Places (R15, R91) -/

def coreX (c : Nat) : Nat := c % 48
def coreY (c : Nat) : Nat := c / 48
def coreAt (x y : Nat) : Nat := y * 48 + x
/-- Die of a core (R15). -/
def dieOf (c : Nat) : Nat := coreX c / 12 + 4 * (coreY c / 14)
/-- Cluster of a core (R15). -/
def clusterOf (c : Nat) : Nat := coreY c / 2 * 12 + coreX c / 4
/-- Die of a cluster (R15). -/
def clusterDie (k : Nat) : Nat := k % 12 / 3 + 4 * (k / 12 / 7)
/-- A core's own CSP slice (R91). -/
def sliceOf (c : Nat) : Nat := 4 * (coreY c % 2) + coreX c % 4
/-- The eight cores of a cluster, by slice (R15, R91). -/
def clusterCores (k : Nat) : List Nat :=
  (List.range 8).map fun i => coreAt (k % 12 * 4 + i % 4) (k / 12 * 2 + i / 4)
/-- Manhattan distance of two cores (R40). -/
def distance (a b : Nat) : Nat :=
  (coreX a - coreX b) + (coreX b - coreX a) + ((coreY a - coreY b) + (coreY b - coreY a))

/-! ## Scope rectangles (R144) -/

/-- What a well-formed scope names. -/
inductive ScopeForm where
  | cores (x0 y0 x1 y1 : Nat)
  | package
  | domain
  | system
  deriving DecidableEq, Repr

/-- Reads a scope value; malformed values give nothing (R144). -/
def scopeOf (w : Word) : Option ScopeForm :=
  let xlo := bits w 15 0; let ylo := bits w 31 16; let xhi := bits w 47 32; let yhi := bits w 63 48
  if xlo = 0xFFFF then
    if xhi = 0 ∧ yhi = 0 then
      if ylo = 1 then some .package else if ylo = 2 then some .domain else if ylo = 3 then some .system else none
    else none
  else if xlo ≤ xhi ∧ xhi ≤ 47 ∧ ylo ≤ yhi ∧ yhi ≤ 27 then some (.cores xlo ylo xhi yhi) else none

/-- Named scope 1, package. -/
def packageScope : Word := 0x1FFFF

/-- A core of this device lies in the scope (R144). -/
def ScopeForm.has (f : ScopeForm) (c : Nat) : Bool :=
  match f with
  | .cores x0 y0 x1 y1 =>
    decide (x0 ≤ coreX c) && decide (coreX c ≤ x1) && decide (y0 ≤ coreY c) && decide (coreY c ≤ y1)
  | _ => true

/-- A core of this device lies in the scope a value names. -/
def scopeHas (w : Word) (c : Nat) : Bool :=
  match scopeOf w with
  | some f => f.has c
  | none => false

/-! ## Units of the state -/

def State.thr (s : State) (t : Nat) : Thread := tabGet Thread.reset s.threads t
def State.setThr (s : State) (t : Nat) (th : Thread) : State := { s with threads := tabSet s.threads t th }
def State.modThr (s : State) (t : Nat) (f : Thread → Thread) : State := s.setThr t (f (s.thr t))
/-- The thread whose instruction is being executed. -/
def State.th (s : State) : Thread := s.thr s.cur
def State.modTh (s : State) (f : Thread → Thread) : State := s.modThr s.cur f
def State.modRegs (s : State) (f : Regs → Regs) : State := s.modTh fun th => { th with regs := f th.regs }
def State.modCsr (s : State) (f : Csrs → Csrs) : State := s.modRegs fun r => { r with csr := f r.csr }
def State.modChunk (s : State) (f : Chunk → Chunk) : State := s.modTh fun th => { th with chunk := f th.chunk }
def State.coreOf (s : State) (c : Nat) : Core := tabGet Core.reset s.cores c
def State.modCore (s : State) (c : Nat) (f : Core → Core) : State :=
  { s with cores := tabSet s.cores c (f (s.coreOf c)) }
def State.launchOf (s : State) (l : Nat) : Launch := tabGet Launch.reset s.launches l
def State.modLaunch (s : State) (l : Nat) (f : Launch → Launch) : State :=
  { s with launches := tabSet s.launches l (f (s.launchOf l)) }
def State.queueOf (s : State) (q : Nat) : Queue := tabGet Queue.reset s.queues q
def State.modQueue (s : State) (q : Nat) (f : Queue → Queue) : State :=
  { s with queues := tabSet s.queues q (f (s.queueOf q)) }
def State.regionOf (s : State) (r : Nat) : Region := tabGet Region.reset s.regions r
def State.modRegion (s : State) (r : Nat) (f : Region → Region) : State :=
  { s with regions := tabSet s.regions r (f (s.regionOf r)) }
def State.collOf (s : State) (k : Nat) : Collective := tabGet Collective.reset s.colls k
def State.modColl (s : State) (k : Nat) (f : Collective → Collective) : State :=
  { s with colls := tabSet s.colls k (f (s.collOf k)) }
def State.debugOf (s : State) (k : Nat) : Debug := tabGet Debug.reset s.debugs k
def State.modDebug (s : State) (k : Nat) (f : Debug → Debug) : State :=
  { s with debugs := tabSet s.debugs k (f (s.debugOf k)) }

/-- The launch of the current thread. -/
def State.launch (s : State) : Launch := s.launchOf s.th.lid

/-- The threads that occupy slots, with their numbers. -/
def State.resident (s : State) : List (Nat × Thread) := s.threads.filter fun p => p.2.loc == .slot

/-- The thread in a slot of a core. -/
def State.inSlot (s : State) (c slot : Nat) : Option Nat :=
  (s.threads.find? fun p => p.2.loc == .slot && p.2.core == c && p.2.slot == slot).map (·.1)

/-- The thread has executed TEXIT and its last chunk has not yet committed (R313). -/
def Thread.exiting (th : Thread) : Bool := match th.older with | some c => c.exits | none => false

/-- The current thread occupies a slot and has not ended. -/
def State.live (s : State) : Bool := s.th.loc == .slot && !s.th.exiting

/-- The thread is switched out: its context is in the TCC or in its area (R316). -/
def Thread.isOut (th : Thread) : Bool := th.loc == .tcc || th.loc == .area

/-- Does something in the place of a thread. -/
def State.asThread (s : State) (t : Nat) (f : State → State) : State :=
  let c := s.cur
  { f { s with cur := t } with cur := c }

/-- The threads of a launch that have not exited. -/
def State.members (s : State) (l : Nat) : List (Nat × Thread) :=
  s.threads.filter fun p => p.2.lid == l && p.2.loc != .absent && p.2.loc != .exited

/-- An address lies in none of the 4-byte words that a span of n bytes touches (R120). -/
def outsideWords (pa n a : Nat) : Bool := decide (a / 4 < pa / 4) || decide ((pa + n - 1) / 4 < a / 4)

/-- A flip lies in the committed copy of an L1 data cache. -/
def Flip.inCopy (f : Flip) : Bool := f.array == 0 && f.owner == 0

/-- The addresses that a flip strikes: a data bit its byte, a check bit the 8 bytes that it covers. -/
def Flip.span (f : Flip) : List Nat := if f.bit < 64 then [f.addr + f.bit / 8] else (List.range 8).map (f.addr + ·)

/-- Keeps some committed copies of an L1 data cache; the flips of those that go, go with them (R120, R129). -/
def Core.keepCopies (c : Core) (keep : Nat → Bool) : Core :=
  { c with
    l1 := c.l1.filter fun e => keep e.1
    flips := c.flips.filter fun f => !f.inCopy || f.span.any keep }

/-- Flips in 8-byte groups of committed copies that fresh data overwrites go (R129). -/
def Core.freshCopies (c : Core) (pas : List Nat) : Core :=
  { c with flips := c.flips.filter fun f => !(f.inCopy && pas.any fun a => a / 8 == f.addr / 8) }

/-- A write of the hardware's own bookkeeping at its home: it is in no signature, and every L1 drops its copies of the
words (R120, R293, R308). -/
def State.quietWrite (s : State) (pa : Nat) (bs : List Byte) : State :=
  { s with mem := memWrite s.mem pa bs
           cores := s.cores.map fun (q : Nat × Core) => (q.1, q.2.keepCopies (outsideWords pa bs.length)) }

/-- A checkpoint holds commits, engines, collection and host writes: the cut is being taken (R361). -/
def State.paused (s : State) : Bool := match s.ckpt.cut with | some (_, true) => true | _ => false

/-- A free value (log 7), and the state with the counter advanced. -/
def State.fresh (s : State) : Word × State := (Config.freeWord s.free, { s with free := s.free + 1 })

/-- Some free values in a row. -/
def State.freshList : Nat → State → List Word × State
  | 0, s => ([], s)
  | n + 1, s =>
    let (w, s) := s.fresh
    let (ws, s) := s.freshList n
    (w :: ws, s)

/-! ## The physical map (R110, R118, R119) -/

inductive Place where
  | own | peer (dev : Nat) | host | csp
  deriving DecidableEq, Repr

/-- What a physical address names (R110); CSP under its names of R93. -/
def State.placeOf (s : State) (pa : Nat) : Place :=
  if 2 ^ 55 ≤ pa then .csp
  else if 2 ^ 51 ≤ pa then .host
  else if pa / 2 ^ 40 = s.reg.devnum.toNat then .own else .peer (pa / 2 ^ 40)

/-- LDBASE (R118). -/
def State.ldBase (s : State) : Nat := s.reg.ldb.toNat * 2 ^ 37

/-- The PA lies in this device's LOCALDIE region (R118). -/
def State.localDie (s : State) (pa : Nat) : Bool :=
  s.placeOf pa == .own && decide (s.ldBase ≤ pa % 2 ^ 40)

/-- The HBM stack of an address of this device (R118). -/
def State.stackOf (s : State) (pa : Nat) : Nat :=
  let a := pa % 2 ^ 40
  if a < s.ldBase then a / 2 ^ 12 % 16
  else 2 * ((a - s.ldBase) / ((2 ^ 40 - s.ldBase) / 8)) + a / 2 ^ 12 % 2

/-- The pseudo-channel and bank of an address of this device (R118, R125). -/
def State.bankOf (s : State) (pa : Nat) : Nat × Nat :=
  let a := pa % 2 ^ 40
  if a < s.ldBase then (a / 64 % 64, 4 * (a / 2 ^ 16 % 4) + a / 2 ^ 18 % 4)
  else (a / 64 % 64, 4 * (a / 2 ^ 13 % 4) + a / 2 ^ 15 % 4)

/-- The clusters of a die, in ascending number (R119). -/
def dieClusters (d : Nat) : List Nat := (List.range 168).filter fun k => clusterDie k == d

/-- The home cluster of a line (R119). -/
def State.homeOf (s : State) (pa : Nat) : Nat :=
  match s.placeOf pa with
  | .own => (dieClusters (s.stackOf pa / 2)).getD (pa % 2 ^ 40 / 2 ^ 12 % 21) 0
  | .csp => pa / 2 ^ 23 % 2 ^ 8
  | _ => pa % 2 ^ 51 / 2 ^ 12 % 168

/-- CSP's name of an offset in a slice (R93). -/
def cspName (cluster slice so : Nat) : Nat := 2 ^ 55 + cluster * 2 ^ 23 + slice * 2 ^ 20 + so

/-- A line of the host, or of a page in host bias, which counts as one (R154). -/
def State.isHost (s : State) (pa : Nat) : Bool :=
  s.placeOf pa == .host || (s.placeOf pa == .own && s.hostBias.contains (pa / 4096))

/-- A line of a peer device. -/
def State.isFar (s : State) (pa : Nat) : Bool :=
  match s.placeOf pa with
  | .peer _ => true
  | _ => false

/-! ## Trace packets and counters (R368 to R374) -/

/-- A packet slot is free (R373). -/
def Trace.free (t : Trace) : Bool := decide ((t.wrptr - t.rdptr).toNat < 2 ^ t.size)

/-- The 64 bytes of a packet (R370). -/
def packetBytes (time slot cluster slice kind : Nat) (ws : List Word) : List Byte :=
  let head := time % 2 ^ 44 * 2 ^ 20 + slot % 16 * 2 ^ 16 + cluster % 256 * 256 + slice % 8 * 32 + kind
  (leBytes 8 head ++ (ws.flatMap fun (w : Word) => leBytes 8 w.toNat) ++ List.replicate 64 0).take 64

/-- Writes the packet that comes next to host memory (R372). -/
def putPacket (s : State) (bs : List Byte) : State :=
  let t := s.trace
  let a := 2 ^ 51 + (t.base.toNat / 64 * 64 + 64 * (t.wrptr.toNat % 2 ^ t.size)) % 2 ^ 51
  { s with mem := memWrite s.mem a bs, trace := { t with wrptr := t.wrptr + 1 } }

/-- Emits a packet. Where no slot is free it is counted as dropped, or under POLICY STALL it waits in a buffer, which
holds back every thread that would give it more (R372, R373). -/
def emitAt (s : State) (time slot cluster slice kind : Nat) (ws : List Word) : State :=
  let bs := packetBytes time slot cluster slice kind ws
  if !s.trace.en then s
  else if s.trace.free && s.trace.buf.isEmpty then putPacket s bs
  else if s.trace.stall then { s with trace := { s.trace with buf := s.trace.buf ++ [bs] } }
  else { s with trace := { s.trace with lost := s.trace.lost + 1, owed := s.trace.owed + 1 } }

/-- A packet of a thread. -/
def emitThread (s : State) (t kind : Nat) (ws : List Word) : State :=
  let th := s.thr t
  emitAt s s.cycle th.slot (clusterOf th.core) (sliceOf th.core) kind ws

/-- A packet of a core, or of the IOD. -/
def emitCore (s : State) (core : Option Nat) (kind : Nat) (ws : List Word) : State :=
  match core with
  | some c => emitAt s s.cycle 0 (clusterOf c) (sliceOf c) kind ws
  | none => emitAt s s.cycle 0 255 0 kind ws

/-- The thread's TRCTL bit. -/
def State.traces (s : State) (t bit : Nat) : Bool := (s.thr t).regs.csr.trctl.getLsbD bit

/-- Emits the records gathered for a thread as a STATE packet (R369). -/
def flushLog (s : State) (t : Nat) : State :=
  let th := s.thr t
  if th.log.isEmpty then s
  else
    let s := emitAt s th.logStart th.slot (clusterOf th.core) (sliceOf th.core) 1 th.log
    s.modThr t fun th => { th with log := [] }

/-- Emits the commit that waits in a half-filled COMMIT packet of a thread (R370; log 66). -/
def flushCommits (s : State) (t : Nat) : State :=
  let ws := (s.thr t).commitRec
  if ws.isEmpty then s else (emitThread s t 2 ws).modThr t fun th => { th with commitRec := [] }

/-- A commit's three words: two commits fill a COMMIT packet (R370). -/
def addCommit (s : State) (t : Nat) (ws : List Word) : State :=
  let old := (s.thr t).commitRec
  if old.isEmpty then s.modThr t fun th => { th with commitRec := ws }
  else (emitThread s t 2 (old ++ ws)).modThr t fun th => { th with commitRec := [] }

/-- Appends a record to a thread's log (R369). -/
def addRecord (s : State) (t code detail arg : Nat) : State :=
  let s := if 2 ^ 32 ≤ s.cycle - (s.thr t).logTime then flushLog s t else s
  let th := s.thr t
  let delta := if th.log.isEmpty then 0 else s.cycle - th.logTime
  let r : Word := BitVec.ofNat 64 (delta % 2 ^ 32 * 2 ^ 32 + Nat.min arg 65535 * 2 ^ 16 + detail % 32 * 2 ^ 11 + code)
  let s := s.modThr t fun th => { th with
    log := th.log ++ [r]
    logStart := if th.log.isEmpty then s.cycle else th.logStart
    logTime := s.cycle }
  if 7 ≤ (s.thr t).log.length then flushLog s t else s

/-- Counts n events of a code for a thread whose capture runs (R374). -/
def countEvent (s : State) (t ev n : Nat) : State :=
  let th := s.thr t
  if th.capture.on && th.loc == .slot && ev != 0 then
    let sel := fun (i : Nat) => bits th.regs.csr.trctl (19 + 4 * i) (16 + 4 * i) == ev
    let cnt := Vector.ofFn fun (i : Fin 4) => th.capture.cnt[i] + (if sel i then n else 0)
    s.modThr t fun th => { th with capture := { th.capture with cnt := cnt } }
  else s

/-! ## Registers (R34, R49, R64) -/

/-- PENDREG's name of a register (R27). -/
def regCode : RegName → Nat
  | .x n => n.toNat
  | .v n => 32 + n.toNat
  | .p n => 64 + n.toNat
  | .tl n => 96 + n.toNat
  | .ta n => 128 + n.toNat
  | .g n => 160 + n.toNat

/-- Bytes of a register's pre-image (R34, R64). -/
def regSize : RegName → Nat
  | .x _ => 8
  | .v _ => 64
  | .p _ => 8
  | .tl _ => 1056
  | .ta _ => 1024
  | .g _ => 32

/-- A register that is written and read as any other: x0 and p0 are not (R49, R64). -/
def realReg : RegName → Bool
  | .x n => n != 0
  | .p n => n != 0
  | _ => true

def Regs.getX (r : Regs) (n : Reg) : Word := if n = 0 then 0 else r.x[n.toNat]'(n.isLt)
def Regs.getV (r : Regs) (n : Reg) : VReg := r.v[n.toNat]'(n.isLt)
def Regs.getP (r : Regs) (n : BitVec 3) : Word := if n = 0 then BitVec.allOnes 64 else r.p[n.toNat]'(n.isLt)
def Regs.getTl (r : Regs) (n : BitVec 3) : Tile := r.tl[n.toNat]'(n.isLt)
def Regs.getTa (r : Regs) (n : BitVec 2) : BitVec 8192 := r.ta[n.toNat]'(n.isLt)
def Regs.getG (r : Regs) (n : BitVec 3) : GReg := r.g[n.toNat]'(n.isLt)

def Regs.putX (r : Regs) (n : Reg) (w : Word) : Regs :=
  if n = 0 then r else { r with x := r.x.set n.toNat w n.isLt }
def Regs.putV (r : Regs) (n : Reg) (w : VReg) : Regs := { r with v := r.v.set n.toNat w n.isLt }
def Regs.putP (r : Regs) (n : BitVec 3) (w : Word) : Regs :=
  if n = 0 then r else { r with p := r.p.set n.toNat w n.isLt }
def Regs.putTl (r : Regs) (n : BitVec 3) (w : Tile) : Regs := { r with tl := r.tl.set n.toNat w n.isLt }
def Regs.putTa (r : Regs) (n : BitVec 2) (w : BitVec 8192) : Regs := { r with ta := r.ta.set n.toNat w n.isLt }
def Regs.putG (r : Regs) (n : BitVec 3) (w : GReg) : Regs := { r with g := r.g.set n.toNat w n.isLt }

/-- Writes a value to the register it names. -/
def Regs.put (r : Regs) : RegVal → Regs
  | .x n w => r.putX n w
  | .v n w => r.putV n w
  | .p n w => r.putP n w
  | .tl n w => r.putTl n w
  | .ta n w => r.putTa n w

/-- The register a value goes to. -/
def RegVal.name : RegVal → RegName
  | .x n _ => .x n
  | .v n _ => .v n
  | .p n _ => .p n
  | .tl n _ => .tl n
  | .ta n _ => .ta n

/-! ## First-write capture (R34) -/

/-- Bytes of undo store that one capture occupies (R34). -/
def undoSize : UndoKey → Nat
  | .reg r => roundUp (regSize r) 16 + 16
  | .csr _ => 32
  | .marks => 32
  | .granule _ _ => 80

/-- Bytes of undo store that a chunk occupies. -/
def Chunk.undoBytes (c : Chunk) : Nat := c.undo.foldl (fun n k => n + undoSize k) 0

/-- Captures what an instruction is about to write, the first time in the chunk (R34). -/
def State.capture (s : State) (k : UndoKey) : State := s.modChunk fun c => { c with undo := addNew k c.undo }

/-- Writes an x register at once (classes "written at issue"). -/
def State.setX (s : State) (n : Reg) (w : Word) : State :=
  if n = 0 then s else (s.capture (.reg (.x n))).modRegs (·.putX n w)
def State.setP (s : State) (n : BitVec 3) (w : Word) : State :=
  if n = 0 then s else (s.capture (.reg (.p n))).modRegs (·.putP n w)
def State.setG (s : State) (n : BitVec 3) (w : GReg) : State :=
  (s.capture (.reg (.g n))).modRegs (·.putG n w)
def State.setV (s : State) (n : Reg) (w : VReg) : State :=
  (s.capture (.reg (.v n))).modRegs (·.putV n w)

/-- Captures a register that is about to become pending, and marks it (R27, R34). -/
def State.markPending (s : State) (n : RegName) : State :=
  ((s.capture (.reg n)).capture .marks).modRegs fun r => { r with marks := addNew n r.marks }

/-- Gives a register a long-latency result: the register is captured and becomes pending, and the value waits to be
returned (R26, R27). A result for x0 or p0 is discarded. -/
def State.setLong (s : State) (cls : ResClass) (v : RegVal) (far : Option Nat) : State :=
  if realReg v.name then
    (s.markPending v.name).modTh fun th => { th with results := th.results ++ [⟨th.chunk.uid, cls, some v, far, false⟩] }
  else s

/-- An instruction of that class enters the thread's vector queue with the result that it will return, if any (R26,
R182). A result for x0 or p0 is discarded when the instruction completes. -/
def State.enterVec (s : State) (cls : ResClass) (v : Option RegVal) : State :=
  let v := match v with
    | some v => if realReg v.name then some v else none
    | none => none
  let s := match v with
    | some v => s.markPending v.name
    | none => s
  s.modTh fun th => { th with results := th.results ++ [⟨th.chunk.uid, cls, v, none, true⟩] }

/-- Writes a CSR of the thread under capture. -/
def State.setCsr (s : State) (n : BitVec 12) (f : Csrs → Csrs) : State := (s.capture (.csr n)).modCsr f

/-- ORs conditions (SAT NV DZ OF UF NX) into NFLAGS (R162). -/
def State.orFlags (s : State) (f : BitVec 6) : State :=
  if f = 0 then s else s.setCsr 0x801 fun c => { c with nflags := c.nflags ||| f }

/-- The current thread's registers. -/
def State.x (s : State) (n : Reg) : Word := s.th.regs.getX n
def State.v (s : State) (n : Reg) : VReg := s.th.regs.getV n
def State.p (s : State) (n : BitVec 3) : Word := s.th.regs.getP n
def State.tl (s : State) (n : BitVec 3) : Tile := s.th.regs.getTl n
def State.ta (s : State) (n : BitVec 2) : BitVec 8192 := s.th.regs.getTa n
def State.g (s : State) (n : BitVec 3) : GReg := s.th.regs.getG n
def State.pc (s : State) : Word := s.th.regs.pc
def State.setPc (s : State) (a : Word) : State := s.modRegs fun r => { r with pc := a }

/-- Appends to the current chunk's post-commit list (R11). -/
def State.postCommit (s : State) (a : Act) : State := s.modChunk fun c => { c with post := c.post ++ [a] }

/-! ## Returning results (R26, R35) -/

/-- A result is known: no far request stands between it and its register. -/
def Result.known (r : Result) : Bool := r.far.isNone

/-- A result returns to its register; an instruction of the vector queue may have none. -/
def Regs.take (r : Regs) (q : Result) : Regs :=
  match q.val with
  | some v => r.put v
  | none => r

/-- Parks the current thread: it is not ready until every result has returned, and then no mark stays (R26, R27). -/
def State.park (s : State) : Option State :=
  if s.th.results.isEmpty then
    some (if s.th.regs.marks.isEmpty then s else (s.capture .marks).modRegs fun r => { r with marks := [] })
  else none

/-! ## Signatures (R10) -/

def sigBit (s : BitVec 1024) (k h : Nat) : BitVec 1024 := s ||| BitVec.ofNat 1024 (2 ^ (256 * k + h))

/-- SignatureInsert of a line number L = PA[55:6] (R10). -/
def sigInsert (s : BitVec 1024) (line : Nat) : BitVec 1024 :=
  let l : BitVec 50 := BitVec.ofNat 50 line
  let a := l.extractLsb' 0 8; let b := l.extractLsb' 8 8; let c := l.extractLsb' 16 8
  let d := l.extractLsb' 24 8; let e := l.extractLsb' 32 8; let f := l.extractLsb' 40 8
  let s := sigBit s 0 a.toNat
  let s := sigBit s 1 (b ^^^ c).toNat
  let s := sigBit s 2 (a.rotateLeft 3 ^^^ d).toNat
  sigBit s 3 (e ^^^ f ^^^ b.rotateLeft 5).toNat

/-- The signature of a set of lines (R10, R135). -/
def sigOf (lines : List Nat) : BitVec 1024 := lines.foldl sigInsert 0

/-- Every bank of the two signatures' AND holds a bit (R8). -/
def intersect (s t : BitVec 1024) : Bool :=
  (List.range 4).all fun k => (s &&& t).extractLsb' (256 * k) 256 != 0

/-- Two sets of lines intersect as signatures. -/
def linesMeet (a b : List Nat) : Bool := intersect (sigOf a) (sigOf b)

/-! ## Chunks in flight -/

/-- A chunk that has not been granted (R140). -/
def Chunk.inFlight (c : Chunk) : Bool := c.state != .granted

/-- The chunks of a thread that are in flight, the older first. -/
def Thread.chunks (th : Thread) : List Chunk :=
  (match th.older with | some c => [c] | none => []) ++ [th.chunk]

/-- Every chunk on a core's threads. -/
def State.coreChunks (s : State) (c : Nat) : List Chunk :=
  (s.threads.filter fun p => p.2.loc == .slot && p.2.core == c).flatMap fun p => p.2.chunks

/-- Undo-store bytes in use on a core (R17, R34). A granted chunk's entries are free. -/
def State.undoInUse (s : State) (c : Nat) : Nat :=
  ((s.coreChunks c).filter Chunk.inFlight).foldl (fun n k => n + k.undoBytes) 0

/-- Speculative lines on a core (R116). -/
def State.specLines (s : State) (c : Nat) : Nat :=
  ((s.coreChunks c).filter Chunk.inFlight).foldl (fun n k => n + k.wlines.length) 0

/-- Speculative lines of a core in the overflow buffer (R116). -/
def State.overflowLines (s : State) (c : Nat) : Nat :=
  ((s.coreChunks c).filter Chunk.inFlight).foldl (fun n k => n + k.ovf.length) 0

/-- Speculative lines of a core in a set's ways: the set is PA[13:6], and the overflow buffer's lines lie in no way (R116). -/
def State.waysOf (s : State) (c line : Nat) : Nat :=
  ((s.coreChunks c).filter Chunk.inFlight).foldl
    (fun n k => n + (k.wlines.filter fun l => l % 256 == line % 256 && !k.ovf.contains l).length) 0

/-- The two capacity bounds of R116 hold. -/
def State.linesFit (s : State) : Bool :=
  decide (s.specLines s.th.core ≤ Config.specLines) && decide (s.overflowLines s.th.core ≤ 64)

/-- Lines of a set that a list of lines would bring beyond the 8 ways, where `used` ways of it are speculative. -/
def spillOf (own : List Nat) (used : Nat → Nat) : Nat :=
  (own.map (· % 256)).eraseDups.foldl (fun n i => n + ((own.filter fun l => l % 256 == i).length + used i - 8)) 0

/-- A core has room for some more speculative lines (R116). -/
def State.linesRoom (s : State) (core : Nat) (own : List Nat) : Bool :=
  decide (s.specLines core + own.length ≤ Config.specLines) &&
    decide (s.overflowLines core + spillOf own (fun i => Nat.min 8 (s.waysOf core i)) ≤ 64)

/-- A chunk's own lines fit an otherwise empty core: in 8 ways a set and the overflow buffer (R116, R287). -/
def Chunk.linesFitAlone (c : Chunk) : Bool :=
  decide (c.wlines.length ≤ Config.specLines) && decide (spillOf c.wlines (fun _ => 0) ≤ 64)

/-- The undo store holds every capture (R34). -/
def State.undoFits (s : State) : Bool := decide (s.undoInUse s.th.core ≤ Config.undoBytes)

/-! ## Errors in arrays (R129, R130, R336, R337) -/

/-- Two byte ranges overlap. -/
def rangesMeet (a n b m : Nat) : Bool := decide (a < b + m) && decide (b < a + n)

/-- Array code of a buffer (R130). -/
def Space.array : Space → Nat
  | .wb => 4 | .ab => 5 | .cb => 6 | .st => 7 | .csp => 9

/-- Code of a space in a local address (R111). -/
def Space.code : Space → Nat
  | .wb => 1 | .ab => 2 | .cb => 3 | .csp => 4 | .st => 5

/-- The log of an array of a core, or of a slice of its cluster array, by its key (R130). -/
def logKey (array inst : Nat) : Nat := if array = 9 then 16 + inst % 8 else array

/-- The place of a new entry: the lowest invalid one, else the oldest (R130). -/
def logPlace (l : List ErrEntry) : Nat × Bool :=
  match l.findIdx? fun e => !e.valid with
  | some i => (i, false)
  | none =>
    if l.length < 16 then (l.length, false)
    else
      let oldest := l.foldl (fun n e => Nat.min n e.stamp) (match l with | e :: _ => e.stamp | [] => 0)
      ((l.findIdx? fun e => e.stamp == oldest).getD 0, true)

/-- Puts an entry into a log of 16 (R130). -/
def logPut (l : List ErrEntry) (e : ErrEntry) : List ErrEntry :=
  let (i, lost) := logPlace l
  if i < l.length then l.set i { e with lost := lost } else l ++ [e]

/-- The core whose logs hold an error: for array 9, core 0 of the cluster keeps its slices' logs. -/
def logCore (core array : Nat) : Nat := if array = 9 then (clusterCores (clusterOf core)).headD core else core

/-- CHUNKNO as it will stand at the start of a chunk of a thread. -/
def Thread.chunkIndex (th : Thread) (older : Bool) : Word := if !older && th.older.isSome then th.chunkno + 1 else th.chunkno

/-- A chunk of a thread: the older one, or the one that executes. -/
def Thread.chunkAt (th : Thread) (older : Bool) : Chunk := if older then th.older.getD th.chunk else th.chunk

/-- An earlier entry has the same location, in an earlier attempt of the same chunk or within 2^32 cycles (R337). -/
def State.seenBefore (s : State) (core array inst addr word t : Nat) (older : Bool) : Bool :=
  let th := s.thr t
  (tabGet [] (s.coreOf (logCore core array)).errlog (logKey array inst)).any fun e =>
    e.valid && e.addr == BitVec.ofNat 64 addr && e.word == word &&
    (decide (s.cycle < e.time + 2 ^ 32) ||
      (e.index == th.chunkIndex older && e.lindex == BitVec.ofNat 32 th.lindex && decide (1 < (th.chunkAt older).attempt)))

/-- Logs an error met by a chunk of a thread (R130). An error at a location that has failed before is lasting, unless it
is of CLASS 4; the answer tells it (R337). -/
def State.logError (s : State) (core array inst : Nat) (addr word : Nat) (t : Nat) (older : Bool) (synd : BitVec 16)
    (cls : BitVec 4) (inj : Bool) : State × Bool :=
  let th := s.thr t
  let lasting := cls != 4 && s.seenBefore core array inst addr word t older
  let e : ErrEntry := { addr := BitVec.ofNat 64 addr, launchid := (s.launchOf th.lid).launchId
                        lindex := BitVec.ofNat 32 th.lindex, syndrome := synd
                        attempt := BitVec.ofNat 8 (th.chunkAt older).attempt, cls := if lasting then 3 else cls
                        inj := inj, lost := false, valid := true, chunkno := th.chunkno, index := th.chunkIndex older
                        word := word, time := s.cycle, stamp := s.stamp }
  let s := { s with stamp := s.stamp + 1 }
  let k := logKey array inst
  (s.modCore (logCore core array) fun c => { c with errlog := tabSet c.errlog k (logPut (tabGet [] c.errlog k) e) }, lasting)

/-- Takes flips out of a core's arrays. -/
def State.dropFlips (s : State) (core : Nat) (f : Flip → Bool) : State :=
  s.modCore core fun c => { c with flips := c.flips.filter fun q => !f q }

/-- The 8-byte groups of a 64-byte line, or of a 128-byte block, that flips have struck (R130). -/
def syndromeOf (block : Nat) (fs : List Flip) : BitVec 16 :=
  fs.foldl (fun w f => w ||| BitVec.ofNat 16 (2 ^ (f.addr % block / 8))) 0

/-- The flips of a chunk's speculative lines in 8-byte groups that hold a word it wrote (R117). -/
def parityFlips (s : State) (core : Nat) (c : Chunk) : List Flip :=
  (s.coreOf core).flips.filter fun f => f.array == 0 && f.owner == c.uid && c.writes.any fun w => w.1 / 8 == f.addr / 8

/-- Flips that one detection meets: those of a speculative line, of a register, or of a 64-bit word. -/
def Flip.sameUnit (f g : Flip) : Bool :=
  f.array == g.array && f.owner == g.owner &&
    (if g.array ≤ 1 then f.addr / 64 == g.addr / 64 else if g.array = 2 then f.addr / 2 ^ 16 == g.addr / 2 ^ 16
      else f.addr / 8 == g.addr / 8)

/-- ADDR of a log entry: the line, the register's name, or the byte offset (R130). A register's flips are kept at its
name times 2^16 plus the byte. -/
def Flip.logAddr (f : Flip) : Nat := if f.array ≤ 1 then f.addr / 64 * 64 else if f.array = 2 then f.addr / 2 ^ 16 else f.addr

/-- SYNDROME of a register's flips: those of the 128-byte block that holds the first failing group (R130). -/
def regSyndrome (fs : List Flip) : BitVec 16 :=
  let at_ := fun (f : Flip) => f.addr % 2 ^ 16
  let first := (fs.map at_).foldl Nat.min (2 ^ 16)
  syndromeOf 128 (fs.filter fun f => at_ f / 128 == first / 128)

/-- The core whose array an error of a thread lies in: typed buffers stay on its placement core (R17, R321). -/
def Thread.arrayCore (th : Thread) (array : Nat) : Nat := if 4 ≤ array ∧ array ≤ 7 then th.placeCore else th.core

/-- Logs an error in state that a chunk can rebuild, and clears its flips (R129, R130, R336). The answer tells whether
the error is lasting. -/
def logRebuild (s : State) (t : Nat) (older : Bool) (f : Flip) : State × Bool :=
  let core := (s.thr t).arrayCore f.array
  let fs := (s.coreOf core).flips.filter fun g => g.sameUnit f
  let (free, s) := s.fresh
  let synd : BitVec 16 := if f.array ≤ 1 then syndromeOf 64 fs else if f.array = 2 then regSyndrome fs
    else (free.setWidth 8).setWidth 16
  let (s, lasting) := s.logError core f.array 0 f.logAddr (f.addr / 8) t older synd 1 (fs.any (·.inj))
  (s.dropFlips core fun g => g.sameUnit f, lasting)

/-! ## Ending a chunk (R31 to R33, R35) -/

/-- CUTWHY's value (R33). -/
def cutwhyWord (len : Nat) (token : Bool) (code : Nat) : Word :=
  BitVec.ofNat 64 (len * 65536 + b2n token * 256 + code)

/-- Starts the next chunk of a thread from its present private state. -/
def State.newChunk (s : State) (t : Nat) : State :=
  let s := s.modThr t fun th => { th with chunk := Chunk.fresh s.nextUid th.regs }
  { s with nextUid := s.nextUid + 1 }

/-- Sets the state that a squash of the current chunk restores to the present one: the first effects of a chunk are part
of its start, and what they write is captured (R34; log 8). -/
def State.sealStart (s : State) (t : Nat) (keys : List UndoKey) : State :=
  s.modThr t fun th => { th with chunk := { th.chunk with start := th.regs, undo := keys } }

/-- The reach of a chunk of a core: of the lines in its signatures; a line that only its post-commit list names is not counted
(R136; log 150). -/
def reachOf (s : State) (core : Nat) (c : Chunk) : Nat :=
  let glob := (c.rlines ++ c.wlines).filter fun l => s.placeOf (l * 64) != .csp
  if glob.isEmpty then 0
  else if glob.all fun l => s.placeOf (l * 64) == .own && !s.isHost (l * 64) && clusterDie (s.homeOf (l * 64)) == dieOf core then 1
  else 2

/-- Requests of one cycle stand in the order of cluster, core and slot (R138). -/
def requestKey (th : Thread) : Nat := (clusterOf th.core * 8 + sliceOf th.core) * 16 + th.slot

/-- Enters a thread's commit request: behind those of earlier cycles (R138). -/
def insertRequest (s : State) (t : Nat) : List Nat → List Nat
  | [] => [t]
  | u :: us =>
    let at_ := match (s.thr u).older with | some c => c.reqAt | none => 0
    if at_ = s.cycle ∧ requestKey (s.thr t) < requestKey (s.thr u) then t :: u :: us else u :: insertRequest s t us

/-- The count to the instruction before which DETCONFLICT is due, in the chunk that follows one of n instructions. -/
def detAfter (d : Option (Nat × Word)) (n : Nat) : Option (Nat × Word) :=
  match d with
  | some (k, v) => if n ≤ k then some (k - n, v) else none
  | none => none

/-- The parity check of the lines that a thread's chunk wrote, every one that fails logged; the answer tells whether one
failed, and lasting (R117). -/
def checkLines (s : State) (t : Nat) (c : Chunk) : State × Option Bool :=
  let fs := parityFlips s (s.thr t).core c
  let units := (fs.map fun f => f.addr / 64).eraseDups.filterMap fun l => fs.find? fun f => f.addr / 64 == l
  units.foldl (fun (r : State × Option Bool) f =>
    let (s, lasting) := logRebuild r.1 t false f
    (s, some (lasting || r.2 == some true))) (s, none)

/-- Requests the commit of a chunk that ends: the parity of its lines is checked before (R117), its reach is fixed (R136),
and the request of a chunk whose core is halted is held (R365). The next chunk begins. -/
def requestChunk (s : State) (t : Nat) (c : Chunk) : State :=
  let th := s.thr t
  let (s, parity) := checkLines s t c
  let c := { c with
    state := .requested, reach := reachOf s th.core c, reqAt := s.cycle, parity := parity
    heldReq := (s.coreOf th.core).halted }
  let s := s.modThr t fun th => { th with older := some c }
  let s := { s with requests := if c.heldReq then s.requests else insertRequest s t s.requests }
  let s := s.newChunk t
  s.modThr t fun th => { th with chunk := { th.chunk with detAt := detAfter c.detAt c.count } }

/-- Ends the chunk of a thread with a code, requests its commit and starts the next one. The older chunk has
committed. A chunk of no instruction is not made: the boundary keeps the lowest code (R32; log 13). -/
def State.cutChunk (s : State) (t : Nat) (code : Nat) : State :=
  let th := s.thr t
  if th.chunk.count = 0 then
    let old := th.cutwhy.toNat % 32
    let code := if old = 0 ∨ code < old then code else old
    s.modThr t fun th => { th with cutwhy := putBits th.cutwhy 0 5 code }
  else
    let c := { th.chunk with reason := code }
    (requestChunk s t c).modThr t fun th => { th with cutwhy := cutwhyWord c.count c.token code }

/-- The current thread is not ready, for a reason; it tries the instruction again (R24). -/
def State.stall (s : State) (w : Why) : State := s.modTh fun th => { th with status := .retry w }

/-! ## What a squash gives back (R12) -/

/-- Puts messages back into a list in the order of arrival (R12, R256). -/
def putMsg (m : Msg) : List Msg → List Msg
  | [] => [m]
  | k :: ks => if m.ordinal.toNat < k.ordinal.toNat then m :: k :: ks
    else if m.ordinal = k.ordinal then m :: ks else k :: putMsg m ks

/-- Restores typed-buffer granules from their pre-images, the last capture first (R12, R34). -/
def restoreGrans (core : Core) : List (Space × Nat × List Byte) → Core
  | [] => core
  | (sp, n, old) :: gs =>
    let core := restoreGrans core gs
    let a := n * 64
    match sp with
    | .wb => { core with wb := memWrite core.wb a old }
    | .ab => { core with ab := memWrite core.ab a old }
    | .cb => { core with cb := memWrite core.cb a old }
    | .st => { core with st := memWrite core.st a old }
    | .csp => core

/-- The thread bound to a thread: the occupant of slot s + 8 or s - 8 of its core, where the pair is bound (R29). -/
def State.partner (s : State) (t : Nat) : Option Nat :=
  let th := s.thr t
  match s.inSlot th.core (if th.slot < 8 then th.slot + 8 else th.slot - 8) with
  | some u =>
    let e := if th.slot < 8 then th else s.thr u
    if e.regs.csr.bind && (s.thr u).lid == th.lid then some u else none
  | none => none

/-- The occupant of slot s + 8 or s - 8 of a thread's core that belongs to its launch, bound now or not. -/
def State.sibling (s : State) (t : Nat) : Option Nat :=
  let th := s.thr t
  (s.inSlot th.core (if th.slot < 8 then th.slot + 8 else th.slot - 8)).filter fun u => (s.thr u).lid == th.lid

/-- The bound partner of a thread that is out of its slot. -/
def State.outPartner (s : State) (t : Nat) : Option Nat :=
  let th := s.thr t
  (s.threads.find? fun p => p.2.core == th.core && p.2.isOut && th.isOut && p.2.lid == th.lid &&
    p.2.slot == (if th.slot < 8 then th.slot + 8 else th.slot - 8) &&
    (if th.slot < 8 then th.regs.csr.bind else p.2.regs.csr.bind)).map (·.1)

/-- The key under which a core keeps the queues of a bound pair that is out: the execute thread's (R335). -/
def outKey (t : Nat) : Nat := 16 + t

/-- Returns a context from the TCC to its slot, after a squash of the chunk whose CTXSAVE took it; a pre-emption that
was asked for and has not taken place is withdrawn (R86). -/
def putBack (s : State) (u : Nat) : State :=
  let w := s.thr u
  if w.isOut then
    (s.modThr u fun w => { w with loc := .slot, cutReq := none }).modCore w.core fun k => { k with
      tcc := k.tcc.filter fun e => e.1 != u
      pairs := match tabFind k.pairs (outKey u) with
        | some q => tabSet (tabDel k.pairs (outKey u)) (w.slot % 8) q
        | none => k.pairs }
  else s.modThr u fun w => { w with cutReq := if w.cutReq = some .preempt then none else w.cutReq }

/-- Returns the contexts that a waiting CTXSAVE of a thread has had taken; it will ask for them again (R86). -/
def putBackWaiting (s : State) (t : Nat) : State :=
  match (s.thr t).status with
  | .retry (.ctx u) =>
    let w := if (s.thr u).isOut then s.outPartner u else s.partner u
    let s := putBack s u
    let s := match w with
      | some w => putBack s w
      | none => s
    s.modThr t fun th => { th with status := .ready }
  | _ => s

/-- Gives back what a chunk took from its core's shared units: Kennel entries, active-pair and task places, queue
entries, free-node cache entries (R12, R30, R39, R294, R302). Nodes that come back can bring the cache above 64 until the
next commit spills (log 138). An entry that a squashed chunk has pushed leaves its Kennel also where a chunk of another
thread has taken it, and that chunk goes on (log 155). -/
def giveBack (s : State) (t : Nat) (c : Chunk) (msgs : List Msg) : State :=
  let th := s.thr t
  let kennel := fun (e : KEntry) => if e.taker = some c.uid then { e with taker := none } else e
  let kennels := fun (k : Core) =>
    { k with kennels := k.kennels.map fun (q : Nat × List KEntry) =>
        (q.1, (q.2.filter fun e => e.pusher != some c.uid).map kennel) }
  let s := { s with cores := s.cores.map fun (q : Nat × Core) => (q.1, kennels q.2) }
  let s := s.modCore th.core fun k =>
    let q := tabGet ⟨[], []⟩ k.pairs (th.slot % 8)
    let keep := fun (l : List (Word × Nat)) => l.filter fun e => e.2 != c.uid
    let back := c.aeTaken
    if k.pairs.isEmpty then k
    else
      let q2 : Pair := ⟨keep (if th.slot < 8 then back ++ q.fq else q.fq),
        keep (if th.slot < 8 then c.dropped ++ q.rq else back ++ q.rq)⟩
      { k with pairs := tabSet k.pairs (th.slot % 8) q2 }
  let s := s.modCore th.placeCore fun k =>
    { k with caches := tabSet k.caches th.lid (c.nodes ++ tabGet [] k.caches th.lid)
             kreserved := tabSet k.kreserved th.lid (tabGet 0 k.kreserved th.lid - c.places) }
  let relog := fun (s : State) (e : Nat × Nat × Nat × ErrEntry) =>
    s.modCore e.1 fun k =>
      let l := tabGet [] k.errlog e.2.1
      match l[e.2.2.1]? with
      | some old => if old.valid then k else { k with errlog := tabSet k.errlog e.2.1 (l.set e.2.2.1 e.2.2.2) }
      | none => k
  let s := c.cleared.foldl relog s
  let back := fun (s : State) (u : Option Nat) =>
    match u with
    | some u => putBack s u
    | none => s
  let s := c.ctx.foldl (fun (s : State) (op : CtxOp) =>
    match op with
    | .save _ a b => back (back s a) b
    | .load _ _ _ => s) s
  s.modThr t fun th => { th with recvq := msgs.foldl (fun q m => putMsg m q) th.recvq }

/-- Takes back the effects of one chunk, its private state apart. Messages that the chunk took as its first effect
are given back only with `first`: they are given again when the chunk itself re-executes (R255). -/
def discardChunk (s : State) (t : Nat) (c : Chunk) (first : Bool) : State :=
  let s := s.modCore (s.thr t).placeCore fun k => restoreGrans k c.grans
  let s := giveBack s t c (if first then c.taken ++ c.first else c.taken)
  let s := s.dropFlips (s.thr t).placeCore fun f => c.grans.any fun g => f.array == g.1.array && f.addr / 64 == g.2.1
  let s := s.dropFlips (s.thr t).core fun f => (f.array == 0 && f.owner == c.uid) ||
    (f.array == 2 && f.owner == t && c.undo.any fun k => match k with | .reg r => regCode r == f.addr / 2 ^ 16 | _ => false)
  { s with requests := s.requests.filter (· != t) }

/-- Squash (R12) of one thread, for a reason of R369: the chunks of the thread from the one given are discarded, the
younger first where it has begun. Each squash adds to SQUASHCNT and halves the target, those that the younger has had since
the older began included; a vector queue that empties loses its credit (R315). The thread resumes at the first
instruction of the chunk given. The MAX-th squash in a row asks for the token, by the SQUASHMAX that the squash restores;
a chunk that has the token keeps it (R38). -/
def squashFrom (s : State) (t : Nat) (older : Bool) (why : Nat) : State :=
  let s := putBackWaiting s t
  let th := s.thr t
  let older := older && th.older.isSome
  let s := discardChunk s t th.chunk older
  let th := s.thr t
  let c := th.chunkAt older
  let s := if older then discardChunk s t c false else s
  let both := older && th.chunk.count != 0
  let n := if both then 2 else 1
  let gone := th.chunk.count + (if older then c.count else 0)
  let s := countEvent (countEvent s t 4 n) t 5 gone
  let s := if s.traces t 1 then
      let s := if both then addRecord s t 4 2 th.chunk.count else s
      addRecord s t 4 why c.count
    else s
  let th := s.thr t
  let halvings := n + (if older then th.chunk.attempt - 1 else 0)
  let start := { c.start with csr := { c.start.csr with chunkCur := Nat.max 256 (c.start.csr.chunkCur / 2 ^ halvings) } }
  let run := th.sqRun + n
  let asks := decide (start.csr.squashmax.toNat ≤ run) && !c.token
  let fresh := { Chunk.fresh s.nextUid start with
    attempt := c.attempt + 1, token := c.token, first := c.first, redo := c.redo
    refused := if older then [] else c.refused
    detAt := match (if older then th.chunk.detAt else none) with
      | some (k, v) => some (c.count + k, v)
      | none => c.detAt }
  let results := th.results.filter fun r => !(r.uid == th.chunk.uid || (older && r.uid == c.uid))
  let s := s.setThr t { th with
    regs := start
    chunk := fresh
    credit := if results.any (·.vec) then th.credit else 0
    older := if older then none else th.older
    farLate := if older then th.chunk.refused ++ th.farLate else th.farLate
    ks := match c.rollback with
      | some k => some (match th.ks with | some j => if k.toNat < j.toNat then k else j | none => k)
      | none => th.ks
    results := results
    status := if asks then .retry .token else match c.redo with | some w => .wait w | none => .ready
    squashcnt := th.squashcnt + BitVec.ofNat 64 n
    sqRun := run }
  { s with nextUid := s.nextUid + 1
           tokenQ := if asks && !s.tokenQ.contains t then s.tokenQ ++ [t] else s.tokenQ }

/-! ## Launches and units that end (R338, R339) -/

/-- Ends a launch whose state or unit is lost: its threads stop and their uncommitted chunks squash, its commands
retire with class 8, a running one of the matrix or copy engine after the grain in progress (the elements that a reducing
copy has sent among it), and its completion word will carry ERR (R225, R338, R339). -/
def terminateLaunch (s : State) (l : Nat) : State :=
  let stop := fun (s : State) (p : Nat × Thread) =>
    if p.2.lid == l && p.2.loc != .absent && p.2.loc != .exited then
      let granted := match p.2.older with | some c => !c.inFlight | none => false
      let s := discardChunk s p.1 p.2.chunk true
      let s := match p.2.older with | some c => if granted then s else discardChunk s p.1 c true | none => s
      let s := s.modThr p.1 fun th => { th with
        loc := .exited
        results := []
        older := if granted then th.older else none
        chunk := Chunk.fresh 0 th.chunk.start }
      s.modCore p.2.core fun c => { c with
        tcc := c.tcc.filter fun e => e.1 != p.1
        pairs := tabDel (if p.2.loc == .slot then tabDel c.pairs (p.2.slot % 8) else c.pairs) (16 + p.1) }
    else s
  let s := s.threads.foldl stop s
  let s := { s with
    cmds := s.cmds.map fun (c : Command) =>
      if c.lid != l || c.state == CmdState.retired then c
      else
        let goesOn := c.state == CmdState.running && decide (c.engine.toNat ≤ 1)
        { c with cls := 8, detail := 0, state := if goesOn then CmdState.running else CmdState.done }
    reserved := s.reserved.map fun (r : Reservation) =>
      match r.holder with
      | some t => if (s.thr t).lid == l then { r with holder := none, started := false } else r
      | none => r
    tokenQ := s.tokenQ.filter fun t => (s.thr t).lid != l
    token := match s.token with | some t => if (s.thr t).lid == l then none else some t | none => none }
  s.modLaunch l fun la => { la with terminated := true, unreported := true }

/-- Ends every launch that has a thread placed, or a command installed, on one of some cores (R338). -/
def endLaunchesOn (s : State) (cores : List Nat) : State :=
  let hit := (s.threads.filter fun p => cores.contains p.2.placeCore && p.2.loc != .absent && p.2.loc != .exited).map (·.2.lid)
  let cmd := (s.cmds.filter fun c => c.state != .retired && cores.contains c.core).map (·.lid)
  (hit ++ cmd).eraseDups.foldl terminateLaunch s

/-- A lasting error takes its unit offline: the cluster for array 9, else the core (R338). -/
def takeOffline (s : State) (array core : Nat) : State :=
  if array = 9 then
    let k := clusterOf core
    endLaunchesOn { s with reg := { s.reg with offClusters := addNew k s.reg.offClusters } } (clusterCores k)
  else endLaunchesOn { s with reg := { s.reg with offline := addNew core s.reg.offline } } [core]

/-- Logs an error that needs no squash: a corrected word, a refetched line, a poisoned one, lost state; a lasting one
takes its unit offline (R130, R337, R338). -/
def State.noteError (s : State) (core array inst : Nat) (addr word : Nat) (t : Nat) (synd : BitVec 16) (cls : BitVec 4)
    (inj : Bool) : State :=
  let (s, lasting) := s.logError core array inst addr word t false synd cls inj
  if lasting then takeOffline s array core else s

/-- The syndrome of a 64-bit word of a SECDED array: the spec gives no code, so it is a free value (log 23). -/
def State.secded (s : State) : BitVec 16 × State :=
  let (w, s) := s.fresh
  ((w.setWidth 8).setWidth 16, s)

/-- The words of the undo store that the chunks of a thread fill begin at this offset of the model's (R131; log 62). -/
def undoBase (th : Thread) (c : Chunk) : Nat := th.slot * 65536 + c.uid % 2 * 32768

/-- The 64-bit words of an array in which some flips lie, each with whether it has two or more. -/
def flipWords (fs : List Flip) : List (Nat × Bool) :=
  (fs.map fun f => f.addr / 8).eraseDups.map fun w => (w, decide (2 ≤ (fs.filter fun f => f.addr / 8 == w).length))

/-- A word of the undo store with flips: the error is logged, one bit is corrected, and the flips are gone (R129, R130). -/
def undoWord (s : State) (t : Nat) (hits : List Flip) (q : Nat × Bool) : State :=
  let core := (s.thr t).core
  let (synd, s) := s.secded
  let same := fun (f : Flip) => f.array == 3 && f.addr / 8 == q.1
  let s := s.noteError core 3 0 (q.1 * 8 % 65536) q.1 t synd (if q.2 then 4 else 0) (hits.any fun f => same f && f.inj)
  s.dropFlips core same

/-- Errors that a squash meets in the undo store: a single one is corrected and logged, a double one loses the thread's
state and ends its launch (R129, R337, R339). -/
def undoErrors (s : State) (t : Nat) : State :=
  let th := s.thr t
  let hits := (s.coreOf th.core).flips.filter fun f => f.array == 3 && f.addr / 65536 == th.slot
  (flipWords hits).foldl (fun s q =>
    let s := undoWord s t hits q
    if q.2 then terminateLaunch s th.lid else s) s

/-- The slice of the cluster array that holds a line (R91, R119). -/
def State.instOf (s : State) (pa : Nat) : Nat := if s.placeOf pa = .csp then pa / 2 ^ 20 % 8 else pa / 64 % 8

/-- Corrects and logs the single errors among some flips of a SECDED array (R129, R337). -/
def correctWords (s : State) (core array inst t : Nat) (addr : Nat → Nat) (hit : Flip → Bool) : State :=
  let fs := (s.coreOf core).flips.filter fun f => f.array == array && hit f
  (flipWords fs).foldl (fun s q =>
    if q.2 then s
    else
      let (synd, s) := s.secded
      let same := fun (f : Flip) => f.array == array && hit f && f.addr / 8 == q.1
      let s := s.noteError core array inst (addr q.1) q.1 t synd 0 (fs.any fun f => same f && f.inj)
      s.dropFlips core same) s

/-- A line of the cluster array that is read: single errors are corrected; a double one is refetched where the line is
clean, else the line is poisoned. Whether it is clean is a free value, as the model keeps no second copy of it; a line of
CSP has no other copy, and one of a host or peer is clean (R129, R340; log 135). -/
def settleArray (s : State) (t pa : Nat) : State :=
  let core := (clusterCores (s.homeOf pa)).headD 0
  let inst := s.instOf pa
  let hit := fun (f : Flip) => f.addr / 64 == pa / 64
  let line := fun (_ : Nat) => pa / 64 * 64
  let s := correctWords s core 9 inst t line hit
  let fs := (s.coreOf core).flips.filter fun f => f.array == 9 && hit f
  (flipWords fs).foldl (fun s q =>
    let (synd, s) := s.secded
    let (v, s) := s.fresh
    let lost := s.placeOf pa == .csp || (s.placeOf pa == .own && !s.isHost pa && v.getLsbD 0)
    let inj := fs.any fun f => f.addr / 8 == q.1 && f.inj
    let s := s.noteError core 9 inst (line 0) q.1 t synd (if lost then 4 else 0) inj
    let s := s.dropFlips core fun f => f.array == 9 && f.addr / 8 == q.1
    if lost then { s with poison := addNew (pa / 64) s.poison } else s) s

/-- A line read in a core's L1 or at its home: a committed copy that fails its parity check goes and is logged, and the
cluster array's words are put right (R129, R337). `code` names the instruction cache. -/
def settleLine (s : State) (t core pa : Nat) (code : Bool) : State :=
  let array := if code then 1 else 0
  let hit := fun (f : Flip) => f.array == array && f.owner == 0 && f.addr / 64 == pa / 64
  let fs := (s.coreOf core).flips.filter hit
  let s := match fs with
    | [] => s
    | f :: _ =>
      let s := s.noteError core array 0 (pa / 64 * 64) (f.addr / 8) t (syndromeOf 64 fs) 0 (fs.any (·.inj))
      let out := fun (l : List (Nat × Byte)) => l.filter fun e => e.1 / 64 != pa / 64
      (s.dropFlips core hit).modCore core fun c => if code then { c with l1i := out c.l1i } else { c with l1 := out c.l1 }
  settleArray s t pa

/-- Where an access meets errors that are put right before it is made (R129). -/
inductive Site where
  | line (code : Bool) (pa : Nat)
  | buf (core : Nat) (sp : Space) (o n : Nat)
  deriving DecidableEq, Repr

/-- Puts right what an access of a thread met. -/
def settleSite (s : State) (t : Nat) : Site → State
  | .line code pa => settleLine s t (s.thr t).core pa code
  | .buf core sp o n => correctWords s core sp.array 0 t (· * 8) fun f => rangesMeet o n (f.addr / 8 * 8) 8

/-- Squash of a thread's chunks, with every execute chunk that read a forward entry of the squashed access chunks
(R12, R30). -/
def squash (s : State) (t : Nat) (older : Bool) (why : Nat) : State :=
  let th := s.thr t
  let gone := th.chunk.uid :: (match th.older with | some c => if older then [c.uid] else [] | none => [])
  let read := fun (c : Chunk) => c.aeTaken.any fun e => gone.contains e.2
  let bad := older && (th.chunkAt true).parity == some true
  let s :=
    if th.slot < 8 then s
    else
      match s.sibling t with
      | none => s
      | some u =>
        let pt := s.thr u
        let oldRead := match pt.older with | some c => c.inFlight && read c | none => false
        if oldRead || read pt.chunk then undoErrors (squashFrom s u oldRead why) u else s
  if (s.thr t).loc == .exited then s
  else
    let s := undoErrors (squashFrom s t older why) t
    if bad then takeOffline s 0 th.core else s

/-- An error in state that a chunk of a thread can rebuild: logged, the chunk squashes, and a location that fails again
takes the core offline (R336 to R338). -/
def errorSquash (s : State) (t : Nat) (f : Flip) : State :=
  let core := (s.thr t).arrayCore f.array
  let older := f.array == 0 && (match (s.thr t).older with | some c => c.uid == f.owner | none => false)
  let (s, lasting) := logRebuild s t older f
  let s := squash s t older 1
  if lasting then takeOffline s f.array core else s

/-- An entry of the undo store is read while its chunk executes: one bit is corrected, two squash the chunk, which can rebuild
it (R129, R336; log 5). -/
def undoRead (s : State) (t : Nat) : State :=
  let th := s.thr t
  let base := undoBase th th.chunk
  let hits := if th.loc != .slot then [] else
    (s.coreOf th.core).flips.filter fun f => f.array == 3 && decide (base ≤ f.addr) && decide (f.addr < base + th.chunk.undoBytes)
  let words := flipWords hits
  let s := (words.filter fun q => !q.2).foldl (fun s q => undoWord s t hits q) s
  match hits.find? fun f => words.contains (f.addr / 8, true) with
  | some f => errorSquash s t f
  | none => s

/-- A register of a thread fails its parity check: where the undo store holds its value at the start of the chunk the
chunk squashes, else the thread's state is lost (R336, R339). -/
def registerError (s : State) (t : Nat) (n : RegName) (f : Flip) : State :=
  let th := s.thr t
  if th.chunk.undo.contains (.reg n) then errorSquash s t f
  else
    let fs := (s.coreOf th.core).flips.filter fun g => g.sameUnit f
    let s := s.noteError th.core 2 0 f.logAddr (f.addr / 8) t (regSyndrome fs) 4 (fs.any (·.inj))
    terminateLaunch (s.dropFlips th.core fun g => g.sameUnit f) th.lid

/-- Entries of the chunk that commits which squashed for an error become transient (R337). -/
def settleErrors (s : State) (t : Nat) : State :=
  let th := s.thr t
  let fix := fun (e : ErrEntry) =>
    if e.valid && e.cls == 1 && e.index == th.chunkno && e.lindex == BitVec.ofNat 32 th.lindex &&
        e.launchid == (s.launchOf th.lid).launchId then { e with cls := 2 } else e
  s.modCore th.core fun c => { c with errlog := c.errlog.map fun q => (q.1, q.2.map fix) }

/-! ## Taking a trap and returning (R13, R28, R84, R326, R330, R331) -/

/-- The handler's address (R326). -/
def handlerPc (stvec : Word) (interrupt : Bool) (cause : Nat) : Word :=
  let base := stvec &&& ~~~(3 : Word)
  if interrupt && stvec.getLsbD 0 then base + BitVec.ofNat 64 (4 * cause) else base

/-- Saves the trap set, writes the trap CSRs and enters S mode, as the first effects of the handler's chunk (R330). -/
def Regs.enterTrap (r : Regs) (interrupt : Bool) (cause : Nat) (tval epc : Word) : Regs :=
  let c := r.csr
  let sie := c.sstatus.getLsbD 1
  let st := putBits (putBits (putBits c.sstatus 8 1 (b2n r.smode)) 5 1 (b2n sie)) 1 1 0
  { r with
    pc := handlerPc c.stvec interrupt cause
    smode := true
    marks := []
    saved := { marks := r.marks, act0 := c.loopC0.getLsbD 0, act1 := c.loopC1.getLsbD 0, inEvent := r.opt.inEvent }
    opt := { r.opt with inEvent := false }
    csr := { c with
      sstatus := st
      sepc := epc &&& ~~~(3 : Word)
      scause := putBits (BitVec.ofNat 64 cause) 63 1 (b2n interrupt)
      stval := tval
      loopC0 := putBits c.loopC0 0 1 0
      loopC1 := putBits c.loopC1 0 1 0 } }

/-- SRET (R331). The saved trap set stays as it is: the spec does not say that SRET consumes it, so an outer SRET after a
nested trap restores the inner trap's set again (log 147). -/
def Regs.leaveTrap (r : Regs) : Regs :=
  let c := r.csr
  let st := putBits (putBits (putBits c.sstatus 1 1 (bits c.sstatus 5 5)) 5 1 1) 8 1 0
  { r with
    pc := c.sepc
    smode := c.sstatus.getLsbD 8
    marks := r.saved.marks
    opt := { r.opt with inEvent := r.saved.inEvent }
    csr := { c with
      sstatus := st
      loopC0 := putBits c.loopC0 0 1 (b2n r.saved.act0)
      loopC1 := putBits c.loopC1 0 1 (b2n r.saved.act1) } }

/-- What the entry of a handler writes: the trap CSRs, the marks and the loop levels (R34, R330). -/
def trapKeys : List UndoKey := [.csr 0x100, .csr 0x141, .csr 0x142, .csr 0x143, .marks, .csr 0x80C, .csr 0x80E]

/-- Enters the handler in the thread's new chunk, which waits for the token where a squash has asked for it (R38). -/
def enterHandler (s : State) (t : Nat) (interrupt : Bool) (cause : Nat) (tval epc : Word) : State :=
  let s := s.modThr t fun th => { th with
    regs := th.regs.enterTrap interrupt cause tval epc
    status := if th.status = .retry .token then .retry .token else .ready
    nextIssue := s.cycle + 4 }
  s.sealStart t trapKeys

/-- Squashes a rewrite for a trap or a request: the thread stands before its IXPOP, outside the rewrite (R287). With
`keep` the pair's entry stays reserved, for the handler's chunk (NETBAD). -/
def leaveRewrite (s : State) (t : Nat) (keep : Bool) : State :=
  let th := s.thr t
  let uid := th.chunk.uid
  let mark := fun (u v : Nat) (s : State) =>
    let f := fun (e : KEntry) => if e.taker = some u then { e with taker := some v } else e
    { s with cores := s.cores.map fun (p : Nat × Core) =>
        (p.1, { p.2 with kennels := p.2.kennels.map fun (q : Nat × List KEntry) => (q.1, q.2.map f) }) }
  if keep then
    let own := s.nextUid
    let s := squash (mark uid own { s with nextUid := own + 1 }) t false 0
    mark own (s.thr t).chunk.uid s
  else squash s t false 0

/-- A trap of the current thread waits: for its results, or for the older chunk to commit (R28, R35). -/
def State.trapWaits (s : State) : Bool :=
  !s.th.results.isEmpty || (!s.th.regs.inRewrite && s.th.chunk.count != 0 && s.th.older.isSome)

/-- Trap(cause, tval): a precise trap of the current thread (R13). Long-latency results return first (R28); the chunk
before the instruction is cut with code 13 once the older one has committed (R35). A trap in a rewrite squashes it
first; NETBAD's handler gets the pair's two words (R287). -/
def takeTrap (s : State) (cause : Nat) (tval : Word) : State :=
  let th := s.th
  if !th.results.isEmpty then s.stall .entry
  else
    if th.regs.inRewrite then
      let s1 := (leaveRewrite s s.cur (cause = 54)).cutChunk s.cur 13
      let s2 := enterHandler s1 s.cur false cause tval th.regs.popPc
      if cause = 54 then
        let put := fun (r : Regs) => (r.putX th.regs.popD th.regs.popW0).putX (th.regs.popD + 1) th.regs.popW1
        (s2.modThr s.cur fun th => { th with regs := put th.regs }).sealStart s.cur
          (trapKeys ++ [.reg (.x th.regs.popD), .reg (.x (th.regs.popD + 1))])
      else s2
    else if th.chunk.count ≠ 0 ∧ th.older.isSome then s.stall .olderCommit
    else
      let s := s.cutChunk s.cur 13
      enterHandler s s.cur false cause tval th.regs.pc

/-! ## The frame of a thread instruction -/

/-- Why an instruction does not complete: a trap, or not ready, or a cut before it and then not ready. -/
inductive Stop where
  | trap (cause : Nat) (tval : Word)
  | stall (w : Why)
  | cut (code : Nat) (w : Why)
  /-- a rewrite's chunk squashes and waits before its IXPOP (R114, R287) -/
  | undoRewrite (h : Hold)
  /-- a granule is held by a chunk of that thread (R114) -/
  | granule (t : Nat) (sp : Space) (g : Nat)
  /-- a far line must be fetched from its device, for which the thread waits (R149, R150) -/
  | farLine (pa : Nat) (w : Why)
  /-- the state that an instruction leaves when it does not complete yet -/
  | leave (s : State)
  /-- an error in state that its chunk can rebuild squashes the chunk, in the state that the instruction has come to: what
  it has injected stays so (R129, R131, R336) -/
  | squash (s : State) (f : Flip)
  /-- errors that the access meets are put right before it is made; the state holds what the instruction has injected (R129,
  R131) -/
  | settle (s : State) (e : Site)
  /-- a word of a core's typed buffer is lost (R129) -/
  | bufLost (core : Nat) (sp : Space) (f : Flip)
  /-- a multi-register destination whose second half failed (R334) -/
  | partTrap (v : RegVal) (cause : Nat) (tval : Word)
  deriving DecidableEq, Repr

/-- Where an instruction goes on. -/
inductive After where
  | seq
  /-- not a branch for R83 -/
  | goto (a : Word)
  /-- not ready until that many cycles after the issue (R78) -/
  | pause (n : Nat)
  /-- a taken branch or jump -/
  | jump (a : Word)
  /-- SRET: the loop rule leaves the restored levels as they are -/
  | noLoop (a : Word)
  /-- the chunk ends after the instruction, and the thread may wait -/
  | cut (code : Nat) (w : Option Wait)
  deriving DecidableEq, Repr

/-- A body: the instruction's own effect. -/
abbrev Body := State → Except Stop (State × After)

/-- NETBAD: (A & ~0x3F) | reason (R284). -/
def netbad (reason : Nat) (addr : Word) : Stop := .trap 54 ((addr &&& ~~~(0x3F : Word)) ||| BitVec.ofNat 64 reason)

/-- A blocking instruction may not stand in a rewrite (R287). -/
def noRewrite (s : State) : Except Stop Unit :=
  if s.th.regs.inRewrite then .error (netbad 11 0) else .ok ()

/-- The illegal-instruction trap of an instruction, its 32 bits in stval (R48, R329). -/
def illegal (i : Instr) : Stop := .trap 2 ((encode i).setWidth 64)

/-- Level l of the loop CSRs: active, first, last, count register (R81, R83). -/
def loopLevel (c : Csrs) (l : Nat) : Bool × Word × Word × Reg :=
  let st := if l = 0 then c.loopS0 else c.loopS1
  let lc := if l = 0 then c.loopC0 else c.loopC1
  let len := bits lc 16 6
  (lc.getLsbD 0, st, st + BitVec.ofNat 64 (4 * (len - 1)), BitVec.ofNat 5 (bits lc 5 1))

/-- Clears a level (R84). -/
def State.loopClear (s : State) (l : Nat) : State :=
  if l = 0 then s.setCsr 0x80C fun c => { c with loopC0 := putBits c.loopC0 0 1 0 }
  else s.setCsr 0x80E fun c => { c with loopC1 := putBits c.loopC1 0 1 0 }

/-- One level of the loop rule, after a plain instruction at q: a loop-back gives the next pc (R83). -/
def loopTest (s : State) (l : Nat) (q : Word) : State × Option Word :=
  let (act, first, last, r) := loopLevel s.th.regs.csr l
  if act && q == last then
    if s.x r != 0 then (s.setX r (s.x r - 1), some first) else (s.loopClear l, none)
  else (s, none)

/-- One level of the loop rule, after a taken branch to n (R83). -/
def loopLeave (s : State) (l : Nat) (n : Word) : State :=
  let (act, first, last, _) := loopLevel s.th.regs.csr l
  if act && (decide (n < first) || decide (last < n)) then s.loopClear l else s

/-- The loop rule of R83: q is the instruction's address; the answer is the state and the next pc. -/
def loopRule (s : State) (q : Word) (a : After) : State × Word :=
  match a with
  | .jump n => (loopLeave (loopLeave s 1 n) 0 n, n)
  | .noLoop n => (s, n)
  | .seq | .goto _ | .pause _ | .cut _ _ =>
    let n := match a with | .goto n => n | _ => q + 4
    match loopTest s 1 q with
    | (s, some f) => (s, f)
    | (s, none) =>
      match loopTest s 0 q with
      | (s, some f) => (s, f)
      | (s, none) => (s, n)

/-- The count registers that the loop test would read for an instruction at pc: level 1, and level 0 if level 1 does
not loop back (R83). -/
def loopReads (s : State) : List RegName :=
  let (a1, _, l1, r1) := loopLevel s.th.regs.csr 1
  let (a0, _, l0, r0) := loopLevel s.th.regs.csr 0
  let one := a1 && s.pc == l1
  (if one then [.x r1] else []) ++ (if a0 && s.pc == l0 && !(one && s.x r1 != 0) then [.x r0] else [])

/-- The first pending register of a list. -/
def firstPending (s : State) (rs : List RegName) : Option RegName :=
  rs.find? fun r => s.th.regs.marks.contains r

/-- Squashes the rewrite of the current thread, which then waits before its IXPOP; one that asks for the token waits
for the token first (R32, R38, R114, R287). -/
def holdRewrite (s : State) (h : Hold) : State :=
  (leaveRewrite s s.cur false).modTh fun th => { th with
    status := if th.status = .retry .token then .retry .token else .retry (.held h) }

/-- A capacity of the core is short for the instruction (R32, R287): a rewrite squashes and waits before its IXPOP, or
raises NETBAD 11 when its own needs exceed the core; otherwise the chunk is cut before the instruction, and the thread
is not ready. -/
def capacityCut (s : State) (code : Nat) (alone : Bool) (h : Hold) : State :=
  let th := s.th
  if th.regs.inRewrite then
    if alone then takeTrap s 54 11 else holdRewrite s h
  else if th.chunk.count ≠ 0 ∧ th.older.isSome then s.stall .olderCommit
  else (s.cutChunk s.cur code).stall (.capacity code)

/-- A far request of the current thread for a line or word (R150): its number is the thread's next. -/
def State.askFar (s : State) (kind : FarKind) (pa : Nat) : State × Nat :=
  let num := s.th.farNext
  let s := { s with far := s.far ++ [({ tid := s.cur, num := num, kind := kind, pa := pa, served := false } : FarReq)] }
  (s.modTh fun th => { th with farNext := num + 1 }, num.toNat)

/-- Unacknowledged far requests of a thread (R150). -/
def State.farCount (s : State) (t : Nat) : Nat := (s.far.filter fun f => f.tid == t).length

/-- A granule's holder is asked to give way: cut at its next boundary, or squashed if it is a rewrite without the token
(R114). A holding chunk that has been cut already only has to commit. -/
def pressHolder (s : State) (t : Nat) (sp : Space) (g : Nat) : State :=
  let th := s.thr t
  if !th.chunk.grans.any fun q => q.1 == sp && q.2.1 == g then s
  else if th.regs.inRewrite then
    if th.chunk.token then s else squash s t false 0
  else s.modThr t fun th => { th with cutReq := if th.cutReq.isNone then some .granule else th.cutReq }

/-- A state with the flips and the thread's injection that an instruction, begun in it, has come to (R131). -/
def State.keepInjected (s s' : State) : State :=
  let s := { s with cores := s.cores.map fun (q : Nat × Core) => (q.1, { q.2 with flips := (s'.coreOf q.1).flips }) }
  s.modTh fun th => { th with errinj := s'.th.errinj, injAt := s'.th.injAt }

/-- Carries out a stop. -/
def applyStop (s : State) : Stop → State
  | .trap c v => takeTrap s c v
  | .stall w => s.stall w
  | .cut code w =>
    if s.th.chunk.count ≠ 0 ∧ s.th.older.isSome then s.stall .olderCommit
    else (s.cutChunk s.cur code).stall w
  | .undoRewrite h => holdRewrite s h
  | .squash s' f => errorSquash s' s'.cur f
  | .settle s' e => settleSite (s.keepInjected s') s.cur e
  | .bufLost core sp f =>
    let v := BitVec.ofNat 64 (sp.code * 2 ^ 60 + f.addr / 8 * 8)
    if s.trapWaits then takeTrap s 50 v
    else
      let (synd, s) := s.secded
      takeTrap (s.noteError core sp.array 0 (f.addr / 8 * 8) (f.addr / 8) s.cur synd 4 f.inj) 50 v
  | .leave s' => s'
  | .granule h sp g =>
    let s1 := pressHolder s h sp g
    if s.th.regs.inRewrite then
      if s.th.chunk.token then s1.stall .granule else holdRewrite s1 (.granule s.th.placeCore sp g)
    else if s.th.chunk.count ≠ 0 ∧ s.th.older.isSome then s1.stall .olderCommit
    else (s1.cutChunk s1.cur 23).stall .granule
  | .farLine pa w =>
    if s.far.any fun f => f.tid == s.cur && f.kind == .line && f.pa == pa then s.stall w
    else if 1024 ≤ s.farCount s.cur then s.stall .farRoom
    else (s.askFar .line pa).1.stall w
  | .partTrap v c tv =>
    if s.th.chunk.count ≠ 0 ∧ s.th.older.isSome then s.stall .olderCommit
    else takeTrap ((s.capture (.reg v.name)).modRegs (·.put v)) c tv

/-- The code of the cut that ends the chunk after an instruction, 0 for none: the instruction's own, or the count
reaching CUR, which a rewrite does not take (R31, R32, R287). -/
def endCode (s : State) (a : After) : Nat :=
  let full := decide (s.th.regs.csr.chunkCur ≤ s.th.chunk.count) && !s.th.chunk.rewrite
  match a with
  | .cut code _ => if full then 1 else code
  | _ => if full then 1 else 0

/-- The wait that follows an instruction. -/
def endWait (a : After) : Status :=
  match a with
  | .cut _ (some w) => .wait w
  | .pause _ => .retry .paused
  | _ => .ready

/-- The pc, the loop levels, the instruction count and the issue spacing after an instruction at q (R24, R31, R83). -/
def retire (s : State) (q : Word) (a : After) : State :=
  let (s, n) := loopRule s q a
  let s := s.setPc n
  s.modTh fun th => { th with
    chunk := { th.chunk with count := th.chunk.count + 1 }
    nextIssue := s.cycle + (match a with | .pause n => Nat.max n 4 | _ => 4)
    retired := th.retired + 1
    status := endWait a }

/-- Completes an instruction that began in s1, parked, and whose body gave s2. Capacity is checked before anything stands
(R32); an instruction that ends the chunk waits for the older chunk first (R35). One that cannot issue yet leaves the state
s0 before its park, marks included (R27). -/
def finishFrom (s0 s1 s2 : State) (a : After) : State :=
  let tested := match a with
    | .jump _ => []
    | .noLoop _ => []
    | _ => loopReads s2
  match firstPending s1 tested with
  | some r => takeTrap s1 24 (BitVec.ofNat 64 (regCode r))
  | none =>
    let s3 := retire s2 s1.pc a
    if s3.th.regs.inRewrite && decide (16384 ≤ s3.th.chunk.count) then takeTrap s1 54 12
    else if !s3.linesFit then capacityCut s0 2 (!s3.th.chunk.linesFitAlone) (.lines s3.th.chunk.wlines)
    else if !s3.undoFits then
      capacityCut s0 3 (decide (Config.undoBytes < s3.th.chunk.undoBytes)) (.undo s3.th.chunk.undoBytes)
    else
      let code := endCode s3 a
      if code = 0 then s3
      else if s1.th.older.isSome then s0.stall .olderCommit
      else s3.cutChunk s3.cur code

/-- Completes an instruction without a park. -/
def finish (s1 s2 : State) (a : After) : State := finishFrom s1 s1 s2 a

/-- PENDREG of the loop's count register goes before the stop, whatever keeps the instruction from completing: the
instruction is the last of a body and no taken branch, and it does not execute. Only its fetch and an illegal instruction,
and PENDREG of its own registers, come first (R83, R332). -/
def Stop.afterPending : Stop → Bool
  | .trap c _ => c != 0 && c != 2 && c != 24
  | _ => true

/-- The stop ends the instruction by an exception; any other leaves it to be tried again. -/
def Stop.traps : Stop → Bool
  | .trap _ _ => true
  | .partTrap _ _ _ => true
  | .bufLost _ _ _ => true
  | _ => false

/-- The marks stay those of before a park: the instruction has not issued (R27). -/
def State.keepMarks (s : State) (l : List RegName) : State :=
  if s.th.regs.marks = l then s
  else s.modTh fun th => { th with
    regs := { th.regs with marks := l }
    chunk := if th.chunk.count = 0 then { th.chunk with start := { th.chunk.start with marks := l } } else th.chunk }

/-- A stop of an instruction that began in s1, parked, after s0: one that has not issued keeps the marks of s0 and is not
counted (R27). -/
def stopAt (s0 s1 : State) (e : Stop) : State :=
  match (if e.afterPending then firstPending s1 (loopReads s1) else none) with
  | some r => takeTrap s1 24 (BitVec.ofNat 64 (regCode r))
  | none =>
    match e with
    | .leave s => (s.keepMarks s0.th.regs.marks).modTh fun th => { th with retired := s0.th.retired }
    | e => applyStop (if e.traps then s1 else s0) e

/-- The first register of a list that fails its parity check, for the current thread (R129). -/
def State.badReg (s : State) (rs : List RegName) : Option (RegName × Flip) :=
  rs.findSome? fun r =>
    ((s.coreOf s.th.core).flips.find? fun f => f.array == 2 && f.owner == s.cur && f.addr / 2 ^ 16 == regCode r).map fun f => (r, f)

/-- An instruction of the current thread: park, the pending check on every register read or written, the registers'
parity, the body, and completion (R26, R27, R129, R332). `early` holds the illegal-instruction checks, which come before
PENDREG. -/
def attempt (p : Bool) (early : Option Stop) (regs : List RegName) (body : Body) (s : State) : State :=
  match early with
  | some e => applyStop s e
  | none =>
    match (if p then s.park else some s) with
    | none => s.stall .parked
    | some s1 =>
      match firstPending s1 regs with
      | some r => takeTrap s1 24 (BitVec.ofNat 64 (regCode r))
      | none =>
        match s1.badReg regs with
        | some (r, f) => registerError s1 s1.cur r f
        | none =>
          match body s1 with
          | .error e => stopAt s s1 e
          | .ok (s2, a) => finishFrom s s1 s2 a

/-- The meaning of a thread instruction, where a thread is. -/
def runInstr (p : Bool) (early : Option Stop) (regs : List RegName) (body : Body) (s : State) : Out :=
  if s.live then .next (attempt p early regs body s) else .fault .noThread

/-- The state of an operation or event. -/
def event (s : State) : Out := .next s

/-- What a register block outside the cores does: in recovery only DEVSTAT and the flash window are usable (R377). -/
def blockEvent (s s' : State) : Out := event (if s.reg.phase = 15 then s else s')

end Sys2Proof.Machine
end

