-- ==== Sys2Proof/Machine/Operands.lean ====
section
/-!
DEFINITION. Operand forms: fat pointers, translation, plain and relaxed access to global memory and CSP, home reads,
local addresses and the typed buffers, and scopes.
-/
namespace Sys2Proof.Machine

/-! ## Fat pointers (R90, R168) -/

/-- The format and block-exponent codes form a valid pointer (R90, R168). -/
def ptrValid (f e : Nat) : Bool :=
  if f = 10 ∨ f = 11 then decide (3 ≤ e) && decide (e ≤ 7) else decide (f < 13) && decide (e = 0)

/-- A pointer passes PTRFMT's test (R168). -/
def ptrOk (w : Word) : Bool := ptrValid (bits w 63 60) (bits w 59 56)

/-- The address of a pointer plus an offset; FATPTR with the base register's value where it is none (R168). -/
def pointerAddr (base : Word) (off : Int) : Except Stop Nat :=
  if !ptrOk base then .error (.trap 29 base)
  else
    let a := (bits base 55 0 : Int) + off
    if 0 ≤ a ∧ a < 2 ^ 56 then .ok a.toNat else .error (.trap 29 base)

/-! ## Translation (R328, R342 to R344) -/

inductive Acc where
  | load | store | fetch
  deriving DecidableEq, Repr

def pageFault : Acc → Nat
  | .load => 13 | .store => 15 | .fetch => 12
def accessFault : Acc → Nat
  | .load => 5 | .store => 7 | .fetch => 1
def misaligned : Acc → Nat
  | .load => 4 | .store => 6 | .fetch => 0

/-- Who accesses: translation register, privilege, SUM, and whether the access may use the device alias (R349). -/
structure Who where
  satp  : Word
  smode : Bool
  sum   : Bool
  alias_ : Bool
  deriving DecidableEq, Repr

/-- The current thread as an accessor. -/
def State.who (s : State) : Who :=
  let r := s.th.regs
  ⟨r.csr.satp, r.smode, r.csr.sstatus.getLsbD 18, false⟩

def Who.asid (w : Who) : BitVec 16 := w.satp.extractLsb' 44 16

/-- A doubleword of memory. -/
def State.dword (s : State) (pa : Nat) : Word := BitVec.ofNat 64 (leNat (memRead s.mem pa 8))

/-- What stops a translation: a fault's cause, a page that is being flipped, for which the access waits (R154), or an entry
of a page table whose bank is being refreshed (R126). -/
inductive TransErr where
  | fault (cause : Nat)
  | flip
  | bank (pa : Nat)
  deriving DecidableEq, Repr

/-- PPN of an entry, as an address (R342). -/
def ptePa (e : Word) : Nat := bits e 53 14 * 4096

/-- The entry is a leaf (R342). -/
def pteLeaf (e : Word) : Bool := bits e 3 1 != 0

/-- An entry may stand at all: valid, no reserved bit, no W without R (R343). -/
def pteSound (e : Word) : Bool :=
  e.getLsbD 0 && bits e 63 54 == 0 && bits e 13 12 == 0 && !(e.getLsbD 2 && !e.getLsbD 1)

/-- The leaf allows the access (R343). -/
def pteAllows (e : Word) (acc : Acc) (w : Who) : Bool :=
  e.getLsbD 6 && (acc != .store || e.getLsbD 7) &&
  (match acc with | .fetch => e.getLsbD 3 | .load => e.getLsbD 1 | .store => e.getLsbD 2) &&
  (if w.smode then !(e.getLsbD 4 && (acc == .fetch || !w.sum)) else e.getLsbD 4)

/-- Position bits of an entry of a CONTIG group: the place of PPN[3:0] or PPN[21:18] (R343). -/
def contigShift (lvl : Nat) : Nat := if lvl = 0 then 14 else 32

/-- An entry without its position bits. -/
def contigBase (lvl : Nat) (e : Word) : Word := putBits e (contigShift lvl) 4 0

/-- The group of 16 entries around one, and whether it is well formed (R343). -/
def contigGroup (rd : Nat → Word) (table idx lvl : Nat) : List Word × Bool :=
  let first := table + 8 * (idx / 16 * 16)
  let es := (List.range 16).map fun i => rd (first + 8 * i)
  let ok := (List.range 16).all fun i =>
    let e := es.getD i 0
    contigBase lvl e == contigBase lvl (es.getD 0 0) && bits e (contigShift lvl + 3) (contigShift lvl) == i
  (es, ok)

/-- What a walk or a TLB answers: a leaf with its page's base and size in bits, and whether a free value was used; or
what stops it. -/
inductive Met where
  | leaf (pte : Word) (base bits : Nat) (used : Bool)
  | stop (e : TransErr)
  deriving DecidableEq, Repr

def Met.fault (acc : Acc) : Met := .stop (.fault (pageFault acc))

/-- The leaf met at a level: alignment, CONTIG, and the page it names (R343). A broken CONTIG group answers with one of
its entries, alone or as its group base, as a free value chooses (log 7). -/
def leafAt (s : State) (rd : Nat → Word) (acc : Acc) (table idx lvl : Nat) (e : Word) : Met :=
  if lvl ≥ 3 then .fault acc
  else if e.getLsbD 8 then
    if lvl = 1 then .fault acc
    else
      let size := if lvl = 0 then 16 else 34
      let (es, ok) := contigGroup rd table idx lvl
      let f := Config.freeWord s.free
      let pick := es.getD (bits f 3 0) e
      let e' := if ok then e else pick
      let alone := !ok && f.getLsbD 4
      if !pteSound e' then .fault acc
      else if alone then
        if ptePa e' % 2 ^ (12 + 9 * lvl) ≠ 0 then .fault acc else .leaf e' (ptePa e') (12 + 9 * lvl) true
      else
        let base := ptePa (contigBase lvl e')
        if base % 2 ^ size ≠ 0 then .fault acc else .leaf e' base size (!ok)
  else
    let size := 12 + 9 * lvl
    if ptePa e % 2 ^ size ≠ 0 then .fault acc else .leaf e (ptePa e) size false

/-- The index of a level (R342). -/
def vaIndex (va lvl : Nat) : Nat := if lvl = 4 then va / 2 ^ 48 % 256 else va / 2 ^ (12 + 9 * lvl) % 512

/-- The page is being flipped, so the access waits (R154). -/
def State.flipWait (s : State) (pa : Nat) : Bool :=
  match s.flipping with
  | some (page, _) => s.placeOf pa == .own && page == pa / 4096
  | none => false

/-- The controller's bank of an address of this device: stack, pseudo-channel and bank in one number (R118, R125). -/
def bankKey (stack pc bank : Nat) : Nat := (stack * 64 + pc) * 16 + bank
def State.bankAt (s : State) (pa : Nat) : Nat := bankKey (s.stackOf pa) (s.bankOf pa).1 (s.bankOf pa).2
def State.bank (s : State) (b : Nat) : Bank := tabGet Bank.reset s.banks b
def State.setBank (s : State) (b : Nat) (k : Bank) : State := { s with banks := tabSet s.banks b k }

/-- The bank of a line of this device is being refreshed, so a read of it waits (R126). -/
def State.bankBusy (s : State) (pa : Nat) : Bool := s.placeOf pa == .own && (s.bank (s.bankAt pa)).busy != 0

/-- One level of a walk: an answer, or a pointer to the next table (R342, R343). -/
def walkLevel (s : State) (rd : Nat → Word) (acc : Acc) (va table lvl : Nat) : Met ⊕ Word :=
  if s.placeOf table ≠ .own then .inl (.stop (.fault (accessFault acc)))
  else if s.flipWait table then .inl (.stop .flip)
  else if s.bankBusy (table + 8 * vaIndex va lvl) then .inl (.stop (.bank (table + 8 * vaIndex va lvl)))
  else
    let idx := vaIndex va lvl
    let e := rd (table + 8 * idx)
    if !pteSound e then .inl (.fault acc)
    else if pteLeaf e then .inl (leafAt s rd acc table idx lvl e)
    else if lvl = 0 ∨ e.getLsbD 8 then .inl (.fault acc)
    else .inr e

/-- A walk from a table of a level downward, reading entries as `rd` says, with the pointers it meets (R342, R343). -/
def walk (s : State) (rd : Nat → Word) (acc : Acc) (va : Nat) (asid : BitVec 16) (table : Nat) : Nat → Met × List PtrEntry
  | 0 => match walkLevel s rd acc va table 0 with
    | .inl m => (m, [])
    | .inr _ => (.fault acc, [])
  | l + 1 => match walkLevel s rd acc va table (l + 1) with
    | .inl m => (m, [])
    | .inr e =>
      let r := walk s rd acc va asid (ptePa e) l
      (r.1, ⟨l + 1, va / 2 ^ (12 + 9 * (l + 1)), asid, e, []⟩ :: r.2)

/-- HOSTBIAS of a leaf agrees with the page's bias at the time of the access (R343). -/
def biasAgrees (s : State) (pte : Word) (pa : Nat) : Bool :=
  pte.getLsbD 9 == (s.placeOf pa == .own && s.hostBias.contains (pa / 4096))

/-- The physical address lies in the device's own BAR0 window (R349). -/
def State.inAlias (s : State) (pa : Nat) : Bool :=
  match s.reg.alias0 with
  | some h => decide (2 ^ 51 + h ≤ pa) && decide (pa < 2 ^ 51 + h + 2 ^ 26)
  | none => false

/-- The accessor may reach the address: a peer device is a member of the domain, and the device alias is left to the
instructions that may use it (R349, R352). -/
def reachable (s : State) (w : Who) (pa : Nat) : Bool :=
  (match s.placeOf pa with
   | .peer d => s.reg.domain.getLsbD d
   | _ => true) && (w.alias_ || !s.inAlias pa)

/-! ## The thread's view of memory (R116, R134) -/

/-- The byte that a relaxed store or far store group puts at an address. -/
def actByte (a : Nat) : Act → Option Byte
  | .relaxed pa bs _ => if pa ≤ a then bs[a - pa]? else none
  | .storeRel _ pa bs => if pa ≤ a then bs[a - pa]? else none
  | .farGroup _ _ bs _ _ => tabFind bs a
  | _ => none

/-- The last of a list's writes to an address. -/
def postByte (a : Nat) (l : List Act) : Option Byte :=
  l.foldl (fun r x => match actByte a x with | some b => some b | none => r) none

/-- The chunk's own latest write to an address: a relaxed store of it follows its plain writes (R134). -/
def chunkByte (c : Chunk) (a : Nat) : Option Byte :=
  match postByte a c.post with
  | some b => some b
  | none => tabFind c.writes a

/-- The thread's own latest write to an address that the home has not performed (R134). -/
def State.ownByte (s : State) (t : Nat) (a : Nat) : Option Byte :=
  let th := s.thr t
  match chunkByte th.chunk a with
  | some b => some b
  | none =>
    match (match th.older with | some c => chunkByte c a | none => none) with
    | some b => some b
    | none => postByte a ((s.flights.filter fun f => f.tid == t).map (·.act))

/-! ## Translation caches (R17, R103, R344; log 14) -/

/-- The entry of a TLB that holds a page and that a core may use (R344). -/
def tlbFind (l : List TlbEntry) (w : Who) (core va : Nat) : Option TlbEntry :=
  l.find? fun e => e.vbase == va / 2 ^ e.bits && (e.asid == w.asid || e.pte.getLsbD 5) && !e.barred.contains core

/-- The TLB of a core's cluster. -/
def State.clusterTlb (s : State) (core : Nat) : List TlbEntry := tabGet [] s.ctlbs (clusterOf core)

/-- What the walker of a core's die keeps of the pointers to an address, which the core may use (R344). -/
def State.pointers (s : State) (w : Who) (core va : Nat) : List PtrEntry :=
  (tabGet [] s.walkers (dieOf core)).filter fun e =>
    e.top == va / 2 ^ (12 + 9 * e.lvl) && (e.asid == w.asid || e.pte.getLsbD 5) && !e.barred.contains core

/-- Keeps a translation in the core's TLB of 64 entries and the cluster's of 2,048, the oldest making room, and the
pointers in the die's walker (R344). -/
def State.keepTranslation (s : State) (core : Nat) (e : TlbEntry) (ps : List PtrEntry) : State :=
  let k := clusterOf core
  let d := dieOf core
  let s := s.modCore core fun c => { c with tlb := (e :: c.tlb.filter (· != e)).take 64 }
  { s with ctlbs := tabSet s.ctlbs k ((e :: (tabGet [] s.ctlbs k).filter (· != e)).take 2048)
           walkers := tabSet s.walkers d (ps ++ (tabGet [] s.walkers d).filter fun q => !ps.contains q) }

/-- An entry as an answer. -/
def TlbEntry.met (e : TlbEntry) : Met := .leaf e.pte e.pbase e.bits false

/-- A doubleword of memory under a thread's own stores. -/
def State.ownDword (s : State) (t pa : Nat) : Word :=
  BitVec.ofNat 64 (leNat ((List.range 8).map fun i => (s.ownByte t (pa + i)).getD (memGet s.mem (pa + i))))

/-- The answers that an accessor of a core may get for an address: the translation that a TLB holds, and what a walk
finds from a pointer that the die's walker holds or from the root, in memory as its home holds it or, for a thread, with
the thread's own stores too. After an SFENCE.VMA of the thread only the last stands, until the chunk's stores are in
memory (R103, R344). -/
def transAnswers (s : State) (core : Nat) (own : Option Nat) (w : Who) (acc : Acc) (va : Nat) : List Met :=
  let root := bits w.satp 39 0 * 4096
  let seen := match own with
    | some t => (walk s (s.ownDword t) acc va w.asid root 4).1
    | none => (walk s s.dword acc va w.asid root 4).1
  let fenced := match own with
    | some t => (s.thr t).chunks.any (·.sfenced)
    | none => false
  let held := (match tlbFind (s.coreOf core).tlb w core va with | some e => [e.met] | none => []) ++
    (match tlbFind (s.clusterTlb core) w core va with | some e => [e.met] | none => [])
  if fenced then (held ++ [seen]).eraseDups
  else
    (held ++ seen :: (walk s s.dword acc va w.asid root 4).1 ::
      (s.pointers w core va).map fun p => (walk s s.dword acc va w.asid (ptePa p.pte) (p.lvl - 1)).1).eraseDups

/-- Keeps a leaf that a walk of memory found. -/
def keepWalk (s : State) (core : Nat) (w : Who) (acc : Acc) (va : Nat) (m : Met) : State :=
  match m with
  | .leaf pte base size used =>
    let r := walk s s.dword acc va w.asid (bits w.satp 39 0 * 4096) 4
    let s' := if r.1 = m then s.keepTranslation core ⟨va / 2 ^ size, size, w.asid, base, pte, []⟩ r.2 else s
    if used then { s' with free := s'.free + 1 } else s'
  | .stop _ => s

/-- The answer that the access gets: which of several, a free value tells (R344; log 7). -/
def transChoice (s : State) : List Met → State × Met
  | [] => (s, .stop .flip)
  | [m] => (s, m)
  | m :: l =>
    let (v, s) := s.fresh
    (s, (m :: l).getD (v.toNat % (l.length + 1)) m)

/-- The access through a leaf: permissions, a flip that it waits for, the page's bias, reach; the state with what the TLBs
keep (R118, R154, R328, R343). -/
def useLeaf (s : State) (core : Nat) (w : Who) (acc : Acc) (va : Nat) (m : Met) : Except TransErr (State × Nat × Bool) :=
  match m with
  | .stop e => .error e
  | .leaf pte base size _ =>
    let pa := base + va % 2 ^ size
    if !pteAllows pte acc w then .error (.fault (pageFault acc))
    else if pte.getLsbD 10 != s.localDie pa then .error (.fault (accessFault acc))
    else if s.flipWait pa then .error .flip
    else if !biasAgrees s pte pa || !reachable s w pa then .error (.fault (accessFault acc))
    else .ok (keepWalk s core w acc va m, pa, pte.getLsbD 11)

/-- Translates an address for an accessor of a core, `own` being the thread whose access it is: the physical address and
LPPRIV, and the state with what the TLBs keep. The page's bias is checked after a flip that the access waits for (R118,
R154, R328, R342 to R344). -/
def translate (s : State) (core : Nat) (own : Option Nat) (w : Who) (acc : Acc) (va : Nat) :
    Except TransErr (State × Nat × Bool) :=
  if bits w.satp 63 60 = 0 then
    if 2 ^ 52 ≤ va ∨ !reachable s w va then .error (.fault (accessFault acc))
    else if s.flipWait va then .error .flip
    else .ok (s, va, true)
  else
    let (s, m) := transChoice s (transAnswers s core own w acc va)
    useLeaf s core w acc va m

/-- Translates for the current thread, which may use the device alias or not; the fault's stval is the virtual address
(R329). -/
def translateBy (s : State) (al : Bool) (acc : Acc) (va : Nat) : Except Stop (State × Nat × Bool) :=
  match translate s s.th.core (some s.cur) { s.who with alias_ := al } acc va with
  | .error (.fault c) => .error (.trap c (BitVec.ofNat 64 va))
  | .error .flip => .error (.stall .flip)
  | .error (.bank pa) => .error (.stall (.read pa))
  | .ok r => .ok r

/-- Translates for the current thread. -/
def translateTh (s : State) (acc : Acc) (va : Nat) : Except Stop (State × Nat × Bool) := translateBy s false acc va

/-! ## The caches (R116, R120, R121, R126; log 10) -/

/-- The actions of granted chunks and of flights, in that the far store groups among them have been committed and have
not yet been performed (R149). -/
def State.sentActs (s : State) : List Act :=
  s.flights.map (·.act) ++ s.threads.flatMap fun p =>
    match p.2.older with
    | some c => if c.inFlight then [] else c.post
    | none => []

/-- The committed byte of an address: the home's, or for a peer device that of a plain write in a far store group that is
committed and that the device has not yet performed: chunk writes take their place at the commit, relaxed stores only when
the device performs them (R133, R149). -/
def State.homeByte (s : State) (a : Nat) : Byte :=
  let plain := fun (p : FarPart) => match p with | .plain m => tabFind m a | _ => none
  let groups := s.sentActs.filterMap fun x => match x with | .farGroup _ _ _ _ parts => some parts | _ => none
  (groups.foldl (fun r ps => match ps.findSome? plain with | some b => some b | none => r) none).getD (memGet s.mem a)

/-- The byte the current thread reads: its own write, else the L1 copy, else the committed byte at the home. -/
def State.viewByte (s : State) (a : Nat) : Byte :=
  match s.ownByte s.cur a with
  | some b => b
  | none =>
    match tabFind (s.coreOf s.th.core).l1 a with
    | some b => b
    | none => s.homeByte a

/-- n bytes as the current thread reads them. -/
def State.view (s : State) (a n : Nat) : List Byte := (List.range n).map fun i => s.viewByte (a + i)

/-- Every byte can be read without a miss: an own write or an L1 copy. CSP is read in the cluster array. -/
def State.present (s : State) (a n : Nat) : Bool :=
  s.placeOf a == .csp || (List.range n).all fun i =>
    (s.ownByte s.cur (a + i)).isSome || (tabFind (s.coreOf s.th.core).l1 (a + i)).isSome

/-- The line of an invalidation meets a chunk's read signature (R140). -/
def lineMeets (line : Nat) (c : Chunk) : Bool := intersect (sigInsert 0 line) (sigOf c.rlines)

/-- The lines of a span. -/
def spanLines (pa n : Nat) : List Nat := (List.range ((pa + n - 1) / 64 + 1 - pa / 64)).map fun i => pa / 64 + i

/-- A span meets the read set of the token holder's chunk on a core, so its invalidation is deferred there (R38). -/
def deferred (s : State) (core pa n : Nat) : Bool :=
  match s.token with
  | some t =>
    let th := s.thr t
    th.core == core && th.loc == .slot && (th.chunks.any fun c => c.inFlight && c.token &&
      (spanLines pa n).any fun l => lineMeets l c)
  | none => false

/-- An invalidation of a line is on its way to a core, so a read of the line at its home waits for it: no chunk commits a
value whose write has not been applied at its L1 (R133). One that the token holder holds back lets the read go on (R38). -/
def State.invalWaits (s : State) (core pa : Nat) : Bool :=
  s.invals.any fun v => v.core == core && (spanLines v.pa v.len).contains (pa / 64) &&
    !s.invals.any fun w => w.core == core && w.home == v.home && deferred s core w.pa w.len

/-- Committed lines that an L1 data cache holds in a set (R116). -/
def Core.setLines (c : Core) (i : Nat) : List Nat := ((c.l1.map fun e => e.1 / 64).filter fun l => l % 256 == i).eraseDups

/-- Takes the bytes of a line out of an L1 data cache, with the flips in them. -/
def Core.evict (c : Core) (line : Nat) : Core :=
  c.keepCopies fun a => a / 64 != line

/-- A new line takes a way of its set. Where committed and speculative lines fill the 8 ways a committed one goes, which a
free value names: the manual gives no order of replacement. A line that is filled where every way is speculative stays
until the next fill of the set (R116; log 10). -/
def State.makeWay (s : State) (core line : Nat) : State :=
  let held := (s.coreOf core).setLines (line % 256)
  if held.length + s.waysOf core line < 8 || held.isEmpty then s
  else
    let (w, s) := s.fresh
    s.modCore core fun c => c.evict (held.getD (w.toNat % held.length) 0)

/-- An L1 holds an address's 4-byte word valid: each of its bytes (R116). -/
def hasWord (l : List (Nat × Byte)) (a : Nat) : Bool := (List.range 4).all fun i => (tabFind l (a / 4 * 4 + i)).isSome

/-- Fills the words of a line that a cache lacks from the home (R120). -/
def fillWords (s : State) (l : List (Nat × Byte)) (base : Nat) : List (Nat × Byte) :=
  (List.range 64).foldl (fun m i => if hasWord l (base + i) then m else tabSet m (base + i) (s.homeByte (base + i))) l

/-- Brings the words of a line that an L1 lacks from the home (R116, R120). -/
def State.fillLine (s : State) (core pa : Nat) : State :=
  let base := pa / 64 * 64
  let s := if (s.coreOf core).l1.any fun e => e.1 / 64 == pa / 64 then s else s.makeWay core (pa / 64)
  s.modCore core fun c => { c with l1 := fillWords s c.l1 base }

/-- Brings a line to an L1 instruction cache of 64 KiB; a line that a free value names makes room (R17; log 10). -/
def State.fillCode (s : State) (core pa : Nat) : State :=
  let base := pa / 64 * 64
  let held := ((s.coreOf core).l1i.map fun e => e.1 / 64).eraseDups
  let s :=
    if held.contains (pa / 64) || decide (held.length < 1024) then s
    else
      let (w, s) := s.fresh
      let out := held.getD (w.toNat % held.length) 0
      s.modCore core fun c => { c with
        l1i := c.l1i.filter fun e => e.1 / 64 != out
        flips := c.flips.filter fun f => !(f.array == 1 && f.addr / 64 == out) }
  s.modCore core fun c => { c with l1i := fillWords s c.l1i base }

/-! ## Errors that a read meets (R129, R131, R340) -/

/-- The chunk of the current thread whose speculative version of a line it reads: the younger that has one (R116, R134). -/
def State.versionOf (s : State) (line : Nat) : Option Nat :=
  let th := s.th
  if th.chunk.wlines.contains line then some th.chunk.uid
  else
    match th.older with
    | some c => if c.wlines.contains line && c.inFlight then some c.uid else none
    | none => none

/-- A flip in an 8-byte group of the thread's speculative version that the bytes touch (R129). -/
def State.badGroup (s : State) (a n : Nat) : Option Flip :=
  match s.versionOf (a / 64) with
  | some uid => (s.coreOf s.th.core).flips.find? fun f =>
      f.array == 0 && f.owner == uid && rangesMeet a n (f.addr / 8 * 8) 8
  | none => none

/-- The cluster array holds flips in a line (R129). -/
def State.homeTainted (s : State) (a : Nat) : Bool :=
  (s.coreOf ((clusterCores (s.homeOf a)).headD 0)).flips.any fun f => f.array == 9 && f.addr / 64 == a / 64

/-- Bytes of a committed copy in the current thread's L1 lie in an 8-byte group with flips (R129). -/
def State.badCopy (s : State) (a n : Nat) : Bool :=
  (s.coreOf s.th.core).flips.any fun f => f.inCopy && rangesMeet a n (f.addr / 8 * 8) 8

/-- A read of the bytes would meet flips in the committed copy of an L1, or in the cluster array where the line is read
there (R129). -/
def State.tainted (s : State) (a n : Nat) : Bool :=
  s.badCopy a n || ((s.placeOf a == .csp || !s.present a n) && s.homeTainted a)

/-- A ZLINE of the thread that its home has not performed covers a line, whose poison it clears (R89). -/
def State.ownZline (s : State) (t line : Nat) : Bool :=
  let th := s.thr t
  let zero := fun (a : Act) => match a with | .relaxed pa _ z => z && pa / 64 == line | _ => false
  th.chunks.any (fun c => c.post.any zero) || s.flights.any fun f => f.tid == t && zero f.act

/-- The line is poisoned for a read of the current thread. A far line's poison is known at its device alone (R89, R340). -/
def State.poisonedFor (s : State) (pa : Nat) : Bool :=
  s.poison.contains (pa / 64) && !s.isFar pa && !s.ownZline s.cur (pa / 64)

/-! ## Plain access (R132 to R135) -/

/-- Enters a line, and under DET its words, in the chunk's read signature (R135). -/
def State.enterRead (s : State) (pa n va : Nat) : State :=
  let det := s.launch.det
  s.modChunk fun c => { c with
    rlines := addNew (pa / 64) c.rlines
    rwords := if det then (List.range ((pa + n - 1) / 4 + 1 - pa / 4)).foldl (fun l i => addNew (pa / 4 + i) l) c.rwords
      else c.rwords
    vas := if det && (tabFind c.vas (pa / 64)).isNone then tabSet c.vas (pa / 64) (BitVec.ofNat 64 va) else c.vas }

/-- Enters a line in the chunk's write signature as a speculative line: in a way of its set, or in the overflow buffer
when the set's 8 ways are speculative (R116, R135). -/
def State.enterWrite (s : State) (pa va : Nat) : State :=
  let line := pa / 64
  let det := s.launch.det
  if s.th.chunk.wlines.contains line then s
  else
    let spill := decide (8 ≤ s.waysOf s.th.core line)
    let s := if spill then s else s.makeWay s.th.core line
    s.modChunk fun c => { c with
      wlines := line :: c.wlines
      ovf := if spill then line :: c.ovf else c.ovf
      vas := if det && (tabFind c.vas line).isNone then tabSet c.vas line (BitVec.ofNat 64 va) else c.vas }

/-- The number of a far LDA of the current thread that has not returned: no later load is performed before it (R102). -/
def State.ldaWait (s : State) : Option Nat :=
  (s.far.find? fun f => f.tid == s.cur && (match f.kind with | .lda _ _ _ => true | _ => false)).map fun f => f.num.toNat

/-- What a plain read of n bytes meets before it is made: a far LDA before it, poison, and errors (R102, R129, R340). -/
def readStop (s : State) (pa n va : Nat) : Option Stop :=
  match s.ldaWait with
  | some k => some (.stall (.far k))
  | none =>
    if s.poisonedFor pa then some (.trap 50 (BitVec.ofNat 64 va))
    else
      match s.badGroup pa n with
      | some f => some (.squash s f)
      | none => if s.tainted pa n then some (.settle s (.line false pa)) else none

/-- A plain read of n bytes at a physical address within one line: what stops it, far lines and misses, the read
signature, the bytes (R116, R126, R132 to R135, R149). With `wait` the read is the interlock of a standard load, LR, SC or
AMO, and a miss leaves the thread not ready until MISS_FILL; without, the line is brought at once, unless its bank is being
refreshed or an invalidation of it is on its way (log 10). CSP, which is read in the cluster array, waits for such an
invalidation too (R133). -/
def readPlain (s : State) (pa n va : Nat) (wait : Bool) : Except Stop (State × List Byte) :=
  match readStop s pa n va with
  | some e => .error e
  | none =>
    let why : Why := if wait then .miss pa false else .read pa
    if s.placeOf pa == .csp && s.invalWaits s.th.core pa then .error (.stall why)
    else if s.present pa n then
      let s := s.enterRead pa n va
      .ok (s, s.view pa n)
    else if s.isFar pa then .error (.farLine (pa / 64 * 64) why)
    else if wait || s.bankBusy pa || s.invalWaits s.th.core pa then .error (.stall why)
    else
      let s := (s.fillLine s.th.core pa).enterRead pa n va
      .ok (s, s.view pa n)

/-- Bytes [a, a + n) and [b, b + m) share a 4-byte word. -/
def wordsMeet (a n b m : Nat) : Bool := decide (a / 4 ≤ (b + m - 1) / 4) && decide (b / 4 ≤ (a + n - 1) / 4)

/-- A post-commit action is a relaxed write to one of the words of a span (R134, R142). -/
def Act.meets (pa n : Nat) : Act → Bool
  | .relaxed a bs _ => wordsMeet pa n a bs.length
  | .storeRel _ a bs => wordsMeet pa n a bs.length
  | .reduce _ a m _ => wordsMeet pa n a m
  | .farGroup _ _ bs _ parts => (bs.any fun b => wordsMeet pa n b.1 1) ||
      parts.any fun p => match p with | .red _ a m _ => wordsMeet pa n a m | _ => false
  | _ => false

/-- The chunk has a relaxed store or reduction to an overlapping word (code 22, R134). -/
def Chunk.relaxedMeets (c : Chunk) (pa n : Nat) : Bool :=
  c.post.any (Act.meets pa n)

/-- The flips that an armed injection stores in the word at an address: one data bit, two, or a check bit (R131). -/
def injectedFlips (e : BitVec 24) (array owner addr : Nat) : List Flip :=
  let bit := (e.extractLsb' 16 8).toNat
  let mode := (e.extractLsb' 8 2).toNat
  let at_ := fun (b : Nat) => (⟨array, owner, addr / 8 * 8, b, true⟩ : Flip)
  if mode = 2 then [at_ 64] else if mode = 1 then [at_ (bit % 64), at_ ((bit + 1) % 64)] else [at_ (bit % 64)]

/-- Stores an injection in an array of a core, on a write of the current thread at an address: the first write arms the
place, and the next COUNT - 1 writes there flip it again (R131). -/
def State.inject (s : State) (array core owner addr : Nat) : State :=
  let th := s.th
  let e := th.errinj
  let count := Nat.max 1 (e.extractLsb' 12 4).toNat
  let left := match th.injAt with
    | none => some count
    | some (a, k) => if a = addr / 8 * 8 then some k else none
  if e.getLsbD 0 && (e.extractLsb' 4 4).toNat == array then
    match left with
    | none => s
    | some k =>
      let s := s.modCore core fun c => { c with
        flips := injectedFlips e array owner addr ++
          c.flips.filter fun f => !(f.array == array && f.owner == owner && f.addr / 8 == addr / 8) }
      s.modTh fun th => { th with
        injAt := if k ≤ 1 then none else some (addr / 8 * 8, k - 1)
        errinj := if k ≤ 1 then th.errinj &&& ~~~(1 : BitVec 24) else th.errinj }
  else s

/-- Puts bytes into the chunk's speculative version of a line; an aligned 8-byte write stores fresh parity (R129). -/
def State.specWrite (s : State) (pa va : Nat) (bs : List Byte) : State :=
  let s := s.enterWrite pa va
  let s := s.modChunk fun c => { c with writes := layWrite c.writes pa bs }
  let uid := s.th.chunk.uid
  let s := s.modCore s.th.core fun c => { c with
    flips := c.flips.filter fun f => !(f.array == 0 && f.owner == uid && decide (pa ≤ f.addr / 8 * 8) &&
      decide (f.addr / 8 * 8 + 8 ≤ pa + bs.length)) }
  s.inject 0 s.th.core uid pa

/-- A plain write follows a relaxed one of its chunk to an overlapping word: the chunk is cut before it, and in a rewrite
NETBAD is raised (R134, R287). -/
def plainStop (s : State) (pa n : Nat) : Option Stop :=
  if s.th.chunk.relaxedMeets pa n then some (if s.th.regs.inRewrite then netbad 11 0 else .cut 22 .olderCommit) else none

/-- A plain write within one line: the cut of code 22, the parity check of the group that a narrow store merges into, the
speculative version (R116, R129, R134, R135). -/
def writePlain (s : State) (pa va : Nat) (bs : List Byte) : Except Stop State :=
  match plainStop s pa bs.length with
  | some e => .error e
  | none =>
    let narrow : Bool := !(pa % 8 == 0 && bs.length % 8 == 0)
    match (if narrow then s.badGroup pa bs.length else none) with
    | some f => .error (.squash s f)
    | none =>
      if narrow && s.badCopy pa bs.length then .error (.settle s (.line false pa)) else .ok (s.specWrite pa va bs)

/-! ## Optimistic writes (R248, R263, R264) -/

/-- The thread is in an event. -/
def State.inEvent (s : State) : Bool := s.th.regs.opt.on && s.th.regs.opt.inEvent

/-- OPTWRITE where the thread is in an event (R264). -/
def notInEvent (s : State) (v : Word) : Except Stop Unit :=
  if s.inEvent then .error (.trap 49 v) else .ok ()

/-- The span lies in the state region (R264). -/
def Opt.holds (o : Opt) (va n : Nat) : Bool :=
  decide (o.sbase.toNat ≤ va) && decide (va + n ≤ o.sbase.toNat + o.ssize.toNat)

/-- Writes the bytes of a ring entry at a virtual address, line by line, as plain writes of the chunk (R263). -/
def writeRing (s : State) (va : Nat) : List Byte → Nat → Except Stop State
  | _, 0 => .ok s
  | [], _ => .ok s
  | bs, fuel + 1 =>
    let n := Nat.min bs.length (64 - va % 64)
    match translateTh s .store va with
    | .error e => .error e
    | .ok (s, pa, _) =>
      match writePlain s pa va (bs.take n) with
      | .error e => .error e
      | .ok s => writeRing s (va + n) (bs.drop n) fuel

/-- The first plain write of an event to a line of the state region pushes an undo-log entry. The line's old value is
read, so a poisoned one traps with the line's address (R263, R340; log 136). -/
def pushUndo (s : State) (va pa : Nat) : Except Stop State :=
  let o := s.th.regs.opt
  let line := va / 64
  if o.logged.contains line then .ok s
  else if o.uent ≤ o.undo.length then .error (.stall (.ring 16))
  else
    match readStop s (pa / 64 * 64) 64 (line * 64) with
    | some e => .error e
    | none =>
      let pre := s.view (pa / 64 * 64) 64
      let e : UndoEntry := ⟨o.evKey, BitVec.ofNat 64 (line * 64), pa / 64 * 64, pre⟩
      let img := leBytes 16 o.evKey.toNat ++ leBytes 8 (line * 64) ++ leBytes 8 0 ++ pre
      match writeRing s (bits o.ubase 55 0 + 96 * (o.uTail % o.uent)) img 4 with
      | .error x => .error x
      | .ok s => .ok (s.modRegs fun r => { r with opt := { r.opt with
          undo := r.opt.undo ++ [e], uTail := r.opt.uTail + 1, logged := line :: r.opt.logged } })

/-! ## Plain access by virtual address -/

/-- A plain load of n bytes (R77, R332): misaligned, translation, the read. -/
def loadVa (s : State) (va n : Nat) (wait : Bool) : Except Stop (State × List Byte) :=
  if va % n ≠ 0 then .error (.trap 4 (BitVec.ofNat 64 va))
  else
    match translateTh s .load va with
    | .error e => .error e
    | .ok (s, pa, _) => readPlain s pa n va wait

/-- A plain store at an address that has been translated: in an event the page must have LPPRIV, and the line's old value
goes to the undo log (R263, R264). -/
def storeTo (s : State) (va pa : Nat) (lp : Bool) (bs : List Byte) : Except Stop State :=
  if s.inEvent then
    if !lp then .error (.trap 49 (BitVec.ofNat 64 va))
    else
      match pushUndo s va pa with
      | .error e => .error e
      | .ok s => writePlain s pa va bs
  else writePlain s pa va bs

/-- A plain write in an event outside the state region (R264). -/
def State.optBars (s : State) (va n : Nat) : Bool := s.inEvent && !s.th.regs.opt.holds va n

/-- A plain store of bytes within one line at a virtual address, of any alignment (R263, R264, R332). -/
def storeAt (s : State) (va : Nat) (bs : List Byte) : Except Stop State :=
  if s.optBars va bs.length then .error (.trap 49 (BitVec.ofNat 64 va))
  else
    match translateTh s .store va with
    | .error e => .error e
    | .ok (s, pa, lp) => storeTo s va pa lp bs

/-- A plain store of bytes at a virtual address (R77, R332). -/
def storeVa (s : State) (va : Nat) (bs : List Byte) : Except Stop State :=
  if s.optBars va bs.length then .error (.trap 49 (BitVec.ofNat 64 va))
  else if va % bs.length ≠ 0 then .error (.trap 6 (BitVec.ofNat 64 va))
  else storeAt s va bs

/-- Loads a run of elements, each n bytes at its own address, in order (R332). -/
def loadMany (s : State) (n : Nat) (wait : Bool) : List Nat → Except Stop (State × List (List Byte))
  | [] => .ok (s, [])
  | a :: as =>
    match loadVa s a n wait with
    | .error e => .error e
    | .ok (s, b) =>
      match loadMany s n wait as with
      | .error e => .error e
      | .ok (s, bs) => .ok (s, b :: bs)

/-- Stores a run of elements, each at its own address, in order (R332). -/
def storeMany (s : State) : List (Nat × List Byte) → Except Stop State
  | [] => .ok s
  | (a, b) :: r =>
    match storeVa s a b with
    | .error e => .error e
    | .ok s => storeMany s r

/-! ## Relaxed access (R77, R94, R100) -/

/-- The checks of R77 for an instruction that writes memory relaxed or reads its home: event restriction, pointer,
alignment and translation; the answer is the physical address. -/
def checkVaBy (s : State) (al : Bool) (acc : Acc) (base : Word) (n : Nat) : Except Stop (State × Nat × Nat) :=
  match pointerAddr base 0 with
  | .error e => .error e
  | .ok va =>
    if va % n ≠ 0 then .error (.trap (misaligned acc) (BitVec.ofNat 64 va))
    else
      match translateBy s al acc va with
      | .error e => .error e
      | .ok (s, pa, _) => .ok (s, pa, va)

/-- The checks of an access that may not use the device alias. -/
def checkVa (s : State) (acc : Acc) (base : Word) (n : Nat) : Except Stop (State × Nat × Nat) := checkVaBy s false acc base n

/-! ## Local addresses (R91, R92) -/

/-- A byte of a typed buffer, or of CSP under its name. -/
inductive LocalPlace where
  | buf (sp : Space) (o : Nat)
  | csp (pa : Nat)
  deriving DecidableEq, Repr

/-- LOCALADDR's stval (R91). -/
def localStop (sp o : Nat) : Stop := .trap 52 (BitVec.ofNat 64 (sp * 2 ^ 60 + o % 2 ^ 60))

/-- The block of a CB offset lies in the window (R106). -/
def windowHas (w : BitVec 8) (o : Nat) : Bool :=
  decide ((w.extractLsb' 0 4).toNat ≤ o / 16384) && decide (o / 16384 ≤ (w.extractLsb' 4 4).toNat)

/-- Bytes of CSP of the current launch, and of one slice (R91, R109). -/
def State.cspBytes (s : State) : Nat := s.launch.csp * 2 ^ 21

/-- A local address to its place, for an access of n bytes at offset o of space code sp in a mode (R91, R92). `store`
says that it writes by STL. CSP mode 0 is the placement core's slice (R321). -/
def localPlace (s : State) (sp o n mode : Nat) (store : Bool) : Except Stop LocalPlace :=
  let bad : Except Stop LocalPlace := .error (localStop sp o)
  if 2 ^ 60 ≤ o ∨ sp = 0 ∨ 6 ≤ sp ∨ (mode ≠ 0 ∧ sp ≠ 4) ∨ o % n ≠ 0 then bad
  else if sp = 4 then
    let size := s.cspBytes
    let sl := size / 8
    let place := s.th.placeCore
    if size = 0 then bad
    else
      let (slice, so, lim) :=
        if mode = 0 then (sliceOf place, o, sl)
        else if mode = 1 then (o / sl, o % sl, size)
        else (o / 64 % 8, o / 512 * 64 + o % 64, size)
      if lim < o + n then bad else .ok (.csp (cspName (clusterOf place) slice so))
  else
    let lim := if sp = 1 then 524288 else if sp = 5 then 4096 else 262144
    if lim < o + n then bad
    else if store && (sp == 3 || sp == 5) then bad
    else if sp = 3 ∧ !windowHas s.th.regs.csr.cbwin o then bad
    else .ok (.buf (if sp = 1 then .wb else if sp = 2 then .ab else if sp = 3 then .cb else .st) o)

/-! ## Typed buffers (R93, R112 to R114, R123) -/

def Core.buf (c : Core) : Space → Mem
  | .wb => c.wb | .ab => c.ab | .cb => c.cb | .st => c.st | .csp => []

def Core.setBuf (c : Core) (sp : Space) (m : Mem) : Core :=
  match sp with
  | .wb => { c with wb := m } | .ab => { c with ab := m } | .cb => { c with cb := m } | .st => { c with st := m }
  | .csp => c

/-- An installed range of the core's scoreboard overlaps, and is written where `written` asks it (R122, R123). -/
def Core.busyRange (c : Core) (sp : Space) (o n : Nat) (written : Option Bool) : Option (Nat × Nat) :=
  c.sb.findSome? fun e =>
    match e.range with
    | some (p, b, m, w) =>
      if p == sp && rangesMeet o n b m && (match written with | some x => w == x | none => true) then some (b, m) else none
    | none => none

/-- The thread whose uncommitted chunk holds a granule of a core's buffer, other than the current one (R114). -/
def State.granHolder (s : State) (core : Nat) (sp : Space) (g : Nat) : Option Nat :=
  (s.threads.find? fun p => p.1 != s.cur && p.2.placeCore == core &&
    p.2.chunks.any fun c => c.inFlight && c.grans.any fun q => q.1 == sp && q.2.1 == g).map (·.1)

/-- What a read of a core's buffer by the current thread meets in its 64-bit words: a double error squashes the chunk that
holds the granule's value at its start in the undo store, else the word is lost; a single one is corrected first (R129,
R336). -/
def bufErrors (s : State) (core : Nat) (sp : Space) (o n : Nat) : Option Stop :=
  let fs := (s.coreOf core).flips.filter fun f => f.array == sp.array && rangesMeet o n (f.addr / 8 * 8) 8
  match fs.find? fun f => decide (2 ≤ (fs.filter fun g => g.addr / 8 == f.addr / 8).length) with
  | some f =>
    some (if s.th.chunk.undo.contains (.granule sp (f.addr / 64)) then .squash s f else .bufLost core sp f)
  | none => if fs.isEmpty then none else some (.settle s (.buf core sp o n))

/-- The parts of a write that fill no whole 64-bit word, and so read the word they merge into (R129). -/
def mergedWords (o n : Nat) : List Nat :=
  (if o % 8 ≠ 0 ∨ n < 8 then [o / 8 * 8] else []) ++ (if (o + n) % 8 ≠ 0 then [(o + n) / 8 * 8] else [])

/-- Reads a typed buffer through a core port: granule, scoreboard, errors, bytes (R114, R123, R129). -/
def bufRead (s : State) (sp : Space) (o n : Nat) : Except Stop (State × List Byte) :=
  let core := s.th.placeCore
  match s.granHolder core sp (o / 64) with
  | some t => .error (.granule t sp (o / 64))
  | none =>
    match (s.coreOf core).busyRange sp o n (some true) with
    | some _ => .error (.stall .scoreboard)
    | none =>
      match bufErrors s core sp o n with
      | some e => .error e
      | none => .ok (s, memRead ((s.coreOf core).buf sp) o n)

/-- Captures the granule of an offset, the first time in the chunk (R34, R114). -/
def State.captureGran (s : State) (sp : Space) (o : Nat) : State :=
  let g := o / 64
  if s.th.chunk.grans.any fun q => q.1 == sp && q.2.1 == g then s
  else
    let old := memRead ((s.coreOf s.th.placeCore).buf sp) (g * 64) 64
    (s.capture (.granule sp g)).modChunk fun c => { c with grans := c.grans ++ [(sp, g, old)] }

/-- Writes a typed buffer through a core port within one granule (R34, R114, R123, R129). The scoreboard's answer differs
for ACST, which calls `bufPut` after its own check. -/
def bufPut (s : State) (sp : Space) (o : Nat) (bs : List Byte) : Except Stop State :=
  let core := s.th.placeCore
  match s.granHolder core sp (o / 64) with
  | some t => .error (.granule t sp (o / 64))
  | none =>
    match (mergedWords o bs.length).findSome? fun a => bufErrors s core sp a 8 with
    | some e => .error e
    | none =>
      let s := s.captureGran sp o
      let s := s.modCore core fun c => { c.setBuf sp (memWrite (c.buf sp) o bs) with
        flips := c.flips.filter fun f => !(f.array == sp.array && rangesMeet o bs.length (f.addr / 8 * 8) 8) }
      .ok (s.inject sp.array core 0 o)

/-- STL's and VSTL's write: it waits for every overlapping range (R123). -/
def bufWrite (s : State) (sp : Space) (o : Nat) (bs : List Byte) : Except Stop State :=
  match (s.coreOf s.th.placeCore).busyRange sp o bs.length none with
  | some _ => .error (.stall .scoreboard)
  | none => bufPut s sp o bs

/-- Reads a local place. -/
def localRead (s : State) (p : LocalPlace) (va n : Nat) : Except Stop (State × List Byte) :=
  match p with
  | .buf sp o => bufRead s sp o n
  | .csp pa => readPlain s pa n va false

/-- Writes a local place; in an event, CSP may not be written (R264). -/
def localWrite (s : State) (p : LocalPlace) (la : Word) (bs : List Byte) : Except Stop State :=
  match p with
  | .buf sp o => bufWrite s sp o bs
  | .csp pa => if s.inEvent then .error (.trap 49 la) else writePlain s pa (pa % 2 ^ 55) bs

/-! ## Scopes -/

/-- A scope operand of an instruction, or SCOPEBAD (R144). -/
def needScope (w : Word) : Except Stop ScopeForm :=
  match scopeOf w with
  | some f => .ok f
  | none => .error (.trap 30 w)

end Sys2Proof.Machine
end

