-- ==== Sys2Proof/Machine/Flags.lean ====
section
/-!
DEFINITION. Number formats, exact values, rounding and the condition flags: floats, integers, the 4-bit family and
FXA, conversions, matrix sums, and the vector functions (11_numbers).
-/
namespace Sys2Proof.Machine

/-! ## Conditions (R162) -/

def fNX : BitVec 6 := 1
def fUF : BitVec 6 := 2
def fOF : BitVec 6 := 4
def fDZ : BitVec 6 := 8
def fNV : BitVec 6 := 16
def fSAT : BitVec 6 := 32

/-! ## Exact values -/

/-- A NaN, an infinity, or exactly (-1)^neg * m * 2^e; a zero keeps its sign. -/
inductive Num where
  | nan
  | inf (neg : Bool)
  | fin (neg : Bool) (m : Nat) (e : Int)
  deriving DecidableEq, Repr

/-- A float format: bits of exponent and fraction; E4M3 has no infinities (R159). -/
structure FloatFmt where
  ex : Nat
  fr : Nat
  e4 : Bool
  deriving DecidableEq, Repr

def fp32 : FloatFmt := ⟨8, 23, false⟩
def fp16 : FloatFmt := ⟨5, 10, false⟩
def bf16 : FloatFmt := ⟨8, 7, false⟩
def e4m3 : FloatFmt := ⟨4, 3, true⟩
def e5m2 : FloatFmt := ⟨5, 2, false⟩

def FloatFmt.bias (f : FloatFmt) : Nat := 2 ^ (f.ex - 1) - 1
def FloatFmt.width (f : FloatFmt) : Nat := 1 + f.ex + f.fr
/-- Exponent of the last place of a subnormal. -/
def FloatFmt.low (f : FloatFmt) : Int := 1 - (f.bias : Int) - f.fr

/-- The default NaN (R159). -/
def FloatFmt.nan (f : FloatFmt) : Nat :=
  if f.e4 then 0x7F else (2 ^ f.ex - 1) * 2 ^ f.fr + 2 ^ (f.fr - 1)

/-- Magnitude bits of the largest finite value (R159). -/
def FloatFmt.maxMag (f : FloatFmt) : Nat := if f.e4 then 0x7E else (2 ^ f.ex - 1) * 2 ^ f.fr - 1

/-- A sign and magnitude bits together. -/
def FloatFmt.pack (f : FloatFmt) (neg : Bool) (mag : Nat) : Nat := b2n neg * 2 ^ (f.ex + f.fr) + mag

/-- The infinity, or E4M3's largest finite value (R159, R178). -/
def FloatFmt.infBits (f : FloatFmt) (neg : Bool) : Nat :=
  f.pack neg (if f.e4 then 0x7E else (2 ^ f.ex - 1) * 2 ^ f.fr)

/-- The value of an encoding (R159). -/
def FloatFmt.num (f : FloatFmt) (w : Nat) : Num :=
  let neg := w / 2 ^ (f.ex + f.fr) % 2 == 1
  let e := w / 2 ^ f.fr % 2 ^ f.ex
  let fr := w % 2 ^ f.fr
  if f.e4 && e == 15 && fr == 7 then .nan
  else if !f.e4 && e == 2 ^ f.ex - 1 then (if fr = 0 then .inf neg else .nan)
  else if e = 0 then .fin neg fr f.low
  else .fin neg (2 ^ f.fr + fr) (f.low + (e - 1 : Nat))

/-! ## Rounding (R161) -/

/-- Rounding modes of VTYPE[7:6]. -/
inductive Rnd where
  | rne | rtz | rdn | rup
  deriving DecidableEq, Repr

def rndOf (n : Nat) : Rnd := if n = 0 then .rne else if n = 1 then .rtz else if n = 2 then .rdn else .rup

/-- m / 2^k rounded to an integer, and whether that was inexact. -/
def roundShift (rm : Rnd) (neg : Bool) (m k : Nat) : Nat × Bool :=
  let q := m / 2 ^ k
  let r := m % 2 ^ k
  if r = 0 then (q, false)
  else
    let up :=
      match rm with
      | .rne => decide (2 ^ k < 2 * r) || (2 * r == 2 ^ k && q % 2 == 1)
      | .rtz => false
      | .rdn => neg
      | .rup => !neg
    (if up then q + 1 else q, true)

/-- Rounds m * 2^e to the grid of 2^q. -/
def roundGrid (rm : Rnd) (neg : Bool) (m : Nat) (e q : Int) : Nat × Bool :=
  if q ≤ e then (m * 2 ^ (e - q).toNat, false) else roundShift rm neg m (q - e).toNat

/-- Bits of a number. -/
def bitLen (m : Nat) : Nat := if m = 0 then 0 else Nat.log2 m + 1

/-- Rounds an exact non-zero value to a format, with its conditions: tininess after rounding, overflow by mode, or
saturation (R159, R161, R172). -/
def FloatFmt.round (f : FloatFmt) (rm : Rnd) (sat : Bool) (neg : Bool) (m : Nat) (e : Int) : Nat × BitVec 6 :=
  if m = 0 then (f.pack neg 0, 0)
  else
    let p := f.fr + 1
    let qu := e + (bitLen m : Int) - p
    let q := if qu < f.low then f.low else qu
    let (k, inexact) := roundGrid rm neg m e q
    let (ku, _) := roundGrid rm neg m e qu
    -- tiny: ku * 2^qu below the smallest normal, 2^(p-1) * 2^low
    let tiny := if qu < f.low then decide (ku < 2 ^ (p - 1 + (f.low - qu).toNat)) else false
    let (k, q) := if k = 2 ^ p then (2 ^ (p - 1), q + 1) else (k, q)
    let mag := if k < 2 ^ (p - 1) then k else ((q - f.low).toNat + 1) * 2 ^ f.fr + (k - 2 ^ (p - 1))
    if f.maxMag < mag then
      if f.e4 || sat then (f.pack neg f.maxMag, fSAT ||| fNX)
      else
        let inf := match rm with | .rne => true | .rtz => false | .rdn => neg | .rup => !neg
        (if inf then f.infBits neg else f.pack neg f.maxMag, fOF ||| fNX)
    else (f.pack neg mag, (if inexact then fNX else 0) ||| (if inexact && tiny then fUF else 0))

/-- A value to a format: R160 and R172. -/
def FloatFmt.ofNum (f : FloatFmt) (rm : Rnd) (sat : Bool) : Num → Nat × BitVec 6
  | .nan => (f.nan, fNV)
  | .inf neg => if f.e4 then (f.pack neg f.maxMag, fSAT) else (f.infBits neg, 0)
  | .fin neg m e => f.round rm sat neg m e

/-- RNE32 (R8). -/
def rne32 (x : Num) : Nat × BitVec 6 := fp32.ofNum .rne false x

/-! ## Exact arithmetic -/

/-- A signed dyadic number: i * 2^e. -/
abbrev Dy := Int × Int

def dyAdd (a b : Dy) : Dy :=
  let e := if a.2 < b.2 then a.2 else b.2
  (a.1 * 2 ^ (a.2 - e).toNat + b.1 * 2 ^ (b.2 - e).toNat, e)

def Num.dy : Num → Dy
  | .fin neg m e => (if neg then -(m : Int) else m, e)
  | _ => (0, 0)

def Num.isNan : Num → Bool
  | .nan => true
  | _ => false
def Num.isInf : Num → Bool → Bool
  | .inf n, b => n == b
  | _, _ => false
def Num.isZero : Num → Bool
  | .fin _ m _ => m == 0
  | _ => false
def Num.neg : Num → Bool
  | .nan => false
  | .inf n => n
  | .fin n _ _ => n

/-- A dyadic number as a value; z is the sign of a zero. -/
def numOf (d : Dy) (z : Bool) : Num :=
  if d.1 = 0 then .fin z 0 0 else .fin (decide (d.1 < 0)) d.1.natAbs d.2

/-- The exact product; NaN for a NaN factor or 0 × Inf (R160, R173). -/
def numMul (a b : Num) : Num :=
  let s := a.neg != b.neg
  match a, b with
  | .nan, _ => .nan
  | _, .nan => .nan
  | .inf _, .inf _ => .inf s
  | .inf _, .fin _ m _ => if m = 0 then .nan else .inf s
  | .fin _ m _, .inf _ => if m = 0 then .nan else .inf s
  | .fin _ m e, .fin _ n g => .fin s (m * n) (e + g)

/-- The exact sum; an exact zero of terms of both signs is +0, or -0 under RDN. -/
def numAdd (rm : Rnd) (a b : Num) : Num :=
  match a, b with
  | .nan, _ => .nan
  | _, .nan => .nan
  | .inf x, .inf y => if x == y then .inf x else .nan
  | .inf x, _ => .inf x
  | _, .inf y => .inf y
  | .fin x _ _, .fin y _ _ => numOf (dyAdd a.dy b.dy) (if x == y then x else rm == .rdn)

def numNegate : Num → Num
  | .nan => .nan
  | .inf n => .inf (!n)
  | .fin n m e => .fin (!n) m e

/-- The order of values, -0 below +0 (R160). -/
def numLt (a b : Num) : Bool :=
  match a, b with
  | .nan, _ => false
  | _, .nan => false
  | .inf x, .inf y => x && !y
  | .inf x, _ => x
  | _, .inf y => !y
  | .fin x m _, .fin y n _ =>
    if m = 0 ∧ n = 0 then x && !y
    else decide ((dyAdd a.dy (-(b.dy.1), b.dy.2)).1 < 0)

/-- Numeric equality: the zeros are equal. -/
def numEq (a b : Num) : Bool :=
  match a, b with
  | .nan, _ => false
  | _, .nan => false
  | .inf x, .inf y => x == y
  | .fin _ _ _, .fin _ _ _ => (dyAdd a.dy (-(b.dy.1), b.dy.2)).1 == 0
  | _, _ => false

/-! ## Integers (R158, R172) -/

/-- The value of an n-bit element. -/
def intOf (n : Nat) (unsigned : Bool) (w : Nat) : Int := if unsigned then (w % 2 ^ n : Nat) else (BitVec.ofNat n w).toInt

/-- The bounds of an n-bit range. -/
def intLo (n : Nat) (unsigned : Bool) : Int := if unsigned then 0 else -(2 ^ (n - 1) : Nat)
def intHi (n : Nat) (unsigned : Bool) : Int := if unsigned then (2 ^ n - 1 : Nat) else (2 ^ (n - 1) - 1 : Nat)

/-- An exact integer to n bits: saturating sets SAT, otherwise it wraps (R158). -/
def intFit (n : Nat) (unsigned sat : Bool) (v : Int) : Nat × BitVec 6 :=
  if sat && decide (v < intLo n unsigned) then ((BitVec.ofInt n (intLo n unsigned)).toNat, fSAT)
  else if sat && decide (intHi n unsigned < v) then ((BitVec.ofInt n (intHi n unsigned)).toNat, fSAT)
  else ((BitVec.ofInt n v).toNat, 0)

/-- A conversion of a finite value to n bits: where it saturates, SAT and NX, also of an integer to a format of its width or a
wider one of other signedness (R161, R172; log 24). -/
def convFit (n : Nat) (unsigned sat : Bool) (v : Int) : Nat × BitVec 6 :=
  let (r, f) := intFit n unsigned sat v
  (r, if f = 0 then 0 else f ||| fNX)

/-- A value rounded to an integer, and whether that was inexact. -/
def numToInt (rm : Rnd) (neg : Bool) (m : Nat) (e : Int) : Int × Bool :=
  let (k, x) := roundGrid rm neg m e 0
  (if neg then -(k : Int) else k, x)

/-- A float to an n-bit integer (R172): I32 and I64 always saturate. An infinity that does sets SAT alone (log 24). -/
def numToFit (n : Nat) (unsigned sat : Bool) (rm : Rnd) (x : Num) : Nat × BitVec 6 :=
  let sat := sat || decide (32 ≤ n)
  match x with
  | .nan => (0, fNV)
  | .inf neg =>
    if sat then ((BitVec.ofInt n (if neg then intLo n unsigned else intHi n unsigned)).toNat, fSAT) else (0, fNV)
  | .fin neg m e =>
    let (v, inexact) := numToInt rm neg m e
    let (r, f) := convFit n unsigned sat v
    (r, f ||| (if inexact then fNX else 0))

/-- An integer as an exact value. -/
def intNum (v : Int) : Num := .fin (decide (v < 0)) v.natAbs 0

/-! ## Format codes (R157) -/

/-- Bits of an element. -/
def fmtBits (f : Nat) : Nat :=
  if f = 0 ∨ f = 1 ∨ f = 8 ∨ f = 9 then 8 else if f = 2 ∨ f = 5 ∨ f = 6 then 16
  else if f = 3 ∨ f = 7 then 32 else if f = 4 then 64 else if f = 10 ∨ f = 11 then 4
  else if f = 12 then 128 else 0

/-- The float format of a code. -/
def fmtFloat (f : Nat) : Option FloatFmt :=
  if f = 5 then some bf16 else if f = 6 then some fp16 else if f = 7 then some fp32
  else if f = 8 then some e4m3 else if f = 9 then some e5m2 else none

def fmtIsInt (f : Nat) : Bool := decide (1 ≤ f) && decide (f ≤ 4)

/-- Converts an element between two of the formats I8 to E5M2 (R172). -/
def convertElem (src dst : Nat) (srcU dstU sat : Bool) (rm : Rnd) (w : Nat) : Nat × BitVec 6 :=
  match fmtFloat src, fmtFloat dst with
  | some a, some b => b.ofNum rm sat (a.num w)
  | some a, none => numToFit (fmtBits dst) dstU sat rm (a.num w)
  | none, some b => b.ofNum rm sat (intNum (intOf (fmtBits src) srcU w))
  | none, none => convFit (fmtBits dst) dstU sat (intOf (fmtBits src) srcU w)

/-! ## The 4-bit family (R165 to R167) -/

/-- Twice the magnitude of a code's three low bits, for a type (R165). -/
def q4Mag2 (ty : Nat) (c : Nat) : Nat :=
  let l := if ty = 1 then [0, 1, 2, 3, 4, 6, 8, 12]
    else if ty = 2 then [0, 2, 4, 8, 16, 32, 64, 128] else [0, 2, 4, 6, 8, 16, 32, 64]
  l.getD (c % 8) 0

/-- The value of a code of type ty before its scale, doubled (R165). -/
def q4Value2 (ty c : Nat) : Bool × Nat :=
  if ty = 0 then
    let v := (BitVec.ofNat 4 c).toInt
    (decide (v < 0), 2 * v.natAbs)
  else (c / 8 % 2 == 1, q4Mag2 ty c)

/-- The value of a code under a scale byte (R165). -/
def q4Num (scale c : Nat) : Num :=
  let e := scale % 64
  if e = 63 then .nan
  else
    let (n, m) := q4Value2 (scale / 64) (c % 16)
    .fin n m ((e : Int) - 33)

/-- Twice the largest magnitude of a type (R165). -/
def q4Max2 (ty : Nat) : Nat := if ty = 0 then 14 else if ty = 1 then 12 else if ty = 2 then 128 else 64

/-- |x| ≤ n * 2^k, exactly. -/
def numAtMost (x : Num) (n : Nat) (k : Int) : Bool :=
  match x with
  | .nan => false
  | .inf _ => false
  | .fin _ m e => decide ((dyAdd ((m : Int), e) (-(n : Int), k)).1 ≤ 0)

/-- The scale exponent of a block: the smallest that holds every magnitude, or 62 (R167). -/
def q4Exp (ty : Nat) (xs : List Num) : Nat :=
  ((List.range 62).find? fun (e : Nat) => xs.all fun x => numAtMost x (q4Max2 ty) ((e : Int) - 33)).getD 62

/-- Encodes one element under a scale exponent: nearest code, ties to c0 = 0, extreme codes beyond the range. A nonzero negative
value nearest to zero gets 0b1000, the code of -0: the spec does not choose between the two codes of zero (R167; log 149). -/
def q4Code (ty e : Nat) (x : Num) : Nat × BitVec 6 × Nat :=
  match x with
  | .nan => (0, 0, 0)
  | .inf n => (if n then (if ty = 0 then 8 else 15) else 7, fSAT ||| fNX, 1)
  | .fin n m g =>
    -- y doubled: (-1)^n * m * 2^(g - e + 33)
    let y : Dy := ((if n then -(m : Int) else m), g - (e : Int) + 33)
    let hi : Int := q4Max2 ty
    let lo : Int := if ty = 0 then -16 else -hi
    let above := decide ((dyAdd y (-hi, 0)).1 > 0)
    let below := decide ((dyAdd y (-lo, 0)).1 < 0)
    if above then (7, fSAT ||| fNX, 1)
    else if below then (if ty = 0 then 8 else 15, fSAT ||| fNX, 1)
    else if m = 0 then (if n && ty != 0 then 8 else 0, 0, 0)
    else
      let cands := (List.range 16).filter fun c =>
        ty == 0 || (c / 8 == b2n n)
      let dist := fun c =>
        let (cn, cm) := q4Value2 ty c
        let d := dyAdd y (if cn then (cm : Int) else -(cm : Int), 0)
        ((d.1.natAbs : Int), d.2)
      let closer := fun (a b : Nat) =>
        let d := dyAdd (dist a) (-(dist b).1, (dist b).2)
        decide (d.1 < 0) || (d.1 == 0 && a % 2 == 0 && b % 2 == 1)
      let best := cands.foldl (fun r c => if closer c r then c else r) (cands.headD 0)
      (best, if (dist best).1 = 0 then 0 else fNX, 0)

/-- Encodes a block: the scale byte, the codes, the conditions, and the count of saturated elements (R167). -/
def q4Block (ty : Nat) (xs : List Num) : Nat × List Nat × BitVec 6 × Nat :=
  if xs.any Num.isNan then (ty * 64 + 63, xs.map fun _ => 0, fNV, 0)
  else
    let e := q4Exp ty xs
    let rs := xs.map (q4Code ty e)
    (ty * 64 + e, rs.map (·.1), rs.foldl (fun f r => f ||| r.2.1) 0, rs.foldl (fun n r => n + r.2.2) 0)

/-! ## FXA (R169 to R171) -/

/-- An exact value to FXA (R169). -/
def fxaOf (x : Num) : BitVec 128 × BitVec 6 :=
  let big : BitVec 128 := 0x00007FFFFFFFFFFFFFFFFFFFFFFFFFFF
  let edge := fun (n : Bool) => ((if n then -big else big), fOF ||| fSAT)
  match x with
  | .nan => (0, fNV)
  | .inf n => edge n
  | .fin n m e =>
    if m = 0 then (0, 0)
    else if !numAtMost x 1 31 || numEq (.fin false m e) (.fin false 1 31) then edge n
    else
      let (k, inexact) := roundGrid .rne n m e (-80)
      (BitVec.ofInt 128 (if n then -(k : Int) else k),
        (if inexact then fNX else 0) ||| (if k = 0 then fUF else 0))

/-- FXA to FP32; the last part counts a saturation (R171). -/
def fxaTo32 (f : BitVec 128) : Nat × BitVec 6 × Nat :=
  let top := f.extractLsb' 111 17
  if top = 0 ∨ top = BitVec.allOnes 17 then
    let (w, fl) := rne32 (numOf (f.toInt, -80) false)
    (w, fl, 0)
  else (if f.getLsbD 127 then 0xCF000000 else 0x4F000000, fOF ||| fSAT ||| fNX, 1)

/-! ## Matrix sums (R173, R174) -/

/-- GroupSum (R173). -/
def groupSum (terms : List Num) : Nat × BitVec 6 :=
  if terms.any Num.isNan || (terms.any (·.isInf true) && terms.any (·.isInf false)) then (fp32.nan, fNV)
  else if terms.any (·.isInf true) then (fp32.infBits true, 0)
  else if terms.any (·.isInf false) then (fp32.infBits false, 0)
  else
    let s := terms.foldl (fun d t => dyAdd d t.dy) (0, 0)
    if s.1 = 0 then (fp32.pack (terms.all fun t => t.isZero && t.neg) 0, 0) else rne32 (numOf s false)

/-- Splits a list into runs of n. -/
def runsOf {α : Type} (n : Nat) : Nat → List α → List (List α)
  | 0, _ => []
  | fuel + 1, l => if l.isEmpty then [] else l.take n :: runsOf n fuel (l.drop n)

/-- MatElement: the accumulator and conditions after the groups of G products (R173). -/
def matElement (g : Nat) (acc : Nat) (prods : List Num) : Nat × BitVec 6 :=
  (runsOf g (prods.length + 1) prods).foldl (fun r run =>
    let (w, f) := groupSum (fp32.num r.1 :: run)
    (w, r.2 ||| f)) (acc, 0)

/-- An integer element: groups of 32, each saturating (R174); the last part says whether it saturated. -/
def intElement (acc : Int) (prods : List Int) : Int × Bool :=
  (runsOf 32 (prods.length + 1) prods).foldl (fun r run =>
    let s := run.foldl (· + ·) r.1
    if (2 : Int) ^ 31 - 1 < s then (2 ^ 31 - 1, true) else if s < -(2 : Int) ^ 31 then (-(2 ^ 31), true) else (s, r.2))
    (acc, false)

/-! ## Functions (R177; log 15) -/

/-- The integer square root, bit by bit from the bit numbered less than the fuel. -/
def isqrt (n : Nat) : Nat → Nat → Nat
  | 0, r => r
  | k + 1, r => if (r + 2 ^ k) * (r + 2 ^ k) ≤ n then isqrt n k (r + 2 ^ k) else isqrt n k r

/-- A positive value known to lie above m * 2^e by less than one unit, as an exact value with a last bit that stands for
the remainder. -/
def sticky (neg : Bool) (m : Nat) (e : Int) (inexact : Bool) : Num :=
  .fin neg (2 * m + b2n inexact) (e - 1)

/-- 1 / x, enough bits and a sticky bit. -/
def numRcp (neg : Bool) (m : Nat) (e : Int) : Num :=
  let k := bitLen m + 64
  sticky neg (2 ^ k / m) (-e - k) (2 ^ k % m != 0)

/-- 1 / sqrt x for x > 0. -/
def numRsqrt (m : Nat) (e : Int) : Num :=
  let (m, e) := if e % 2 = 0 then (m, e) else (2 * m, e - 1)
  let k := bitLen m + 64
  let k := if k % 2 = 0 then k else k + 1
  -- floor(sqrt(2^(2k) / m)) is 1/sqrt(m) in units of 2^-k
  let q := 2 ^ (2 * k) / m
  let r := isqrt q (k + 1) 0
  sticky false r (-(e / 2) - k) (r * r * m != 2 ^ (2 * k))

/-- Fraction bits of the fixed-point series. -/
def fixBits : Nat := 400

/-- ln 2 in fixed point: the sum of 1 / (k * 2^k). -/
def ln2Fix : Nat := (List.range (fixBits + 10)).foldl (fun s i => s + 2 ^ fixBits / ((i + 1) * 2 ^ (i + 1))) 0

/-- exp y - 1's series plus 1, y in fixed point below 1. -/
def expFix (y : Nat) : Nat :=
  ((List.range 120).foldl (fun (st : Nat × Nat) i =>
    let t := st.2 * y / 2 ^ fixBits / (i + 1)
    (st.1 + t, t)) (2 ^ fixBits, 2 ^ fixBits)).1

/-- 2^x for a finite x. -/
def numExp2 (neg : Bool) (m : Nat) (e : Int) : Num :=
  if m = 0 then .fin false 1 0
  else if 0 ≤ e then
    let n : Int := (if neg then -1 else 1) * (m * 2 ^ (Nat.min e.toNat 20) : Nat)
    .fin false 1 (if n < -100000 then -100000 else if 100000 < n then 100000 else n)
  else
    let k := (-e).toNat
    let v : Int := if neg then -(m : Int) else m
    let n := v / (2 ^ k : Nat)
    let f := (v % (2 ^ k : Nat)).toNat
    if f = 0 then .fin false 1 n
    else
      let y := f * ln2Fix / 2 ^ k
      sticky false (expFix y) (n - fixBits) true

/-- ln of m / 2^(bits of m - 1), in fixed point, by 2 artanh. -/
def lnFix (m : Nat) : Nat :=
  let one := 2 ^ (bitLen m - 1)
  let z := (m - one) * 2 ^ fixBits / (m + one)
  let z2 := z * z / 2 ^ fixBits
  2 * ((List.range 140).foldl (fun (st : Nat × Nat) i =>
    (st.1 + st.2 / (2 * i + 1), st.2 * z2 / 2 ^ fixBits)) (0, z)).1

/-- log2 x for a finite x > 0. -/
def numLog2 (m : Nat) (e : Int) : Num :=
  let b : Int := (bitLen m : Int) - 1 + e
  if m = 2 ^ (bitLen m - 1) then intNum b
  else
    let frac := lnFix m * 2 ^ fixBits / ln2Fix
    let v : Int := b * (2 ^ fixBits : Nat) + frac
    if v < 0 then sticky true (v.natAbs - 1) (-(fixBits : Int)) true else sticky false v.natAbs (-(fixBits : Int)) true

/-- VRCP, VRSQRT, VEXP2, VLOG2 on one element of a format, rounded and with flags (R160, R177). -/
inductive Fn where
  | rcp | rsqrt | exp2 | log2
  deriving DecidableEq, Repr

def FloatFmt.fn (f : FloatFmt) (fn : Fn) (rm : Rnd) (sat : Bool) (x : Num) : Nat × BitVec 6 :=
  match fn, x with
  | _, .nan => (f.nan, fNV)
  | .rcp, .inf n => (f.pack n 0, 0)
  | .rcp, .fin n m e => if m = 0 then (f.infBits n, fDZ) else f.ofNum rm sat (numRcp n m e)
  | .rsqrt, .inf n => if n then (f.nan, fNV) else (f.pack false 0, 0)
  | .rsqrt, .fin n m e =>
    if m = 0 then (f.infBits n, fDZ) else if n then (f.nan, fNV) else f.ofNum rm sat (numRsqrt m e)
  | .exp2, .inf n => (if n then f.pack false 0 else f.infBits false, 0)
  | .exp2, .fin n m e => f.ofNum rm sat (numExp2 n m e)
  | .log2, .inf n => if n then (f.nan, fNV) else (f.infBits false, 0)
  | .log2, .fin n m e =>
    if m = 0 then (f.infBits true, fDZ) else if n then (f.nan, fNV) else f.ofNum rm sat (numLog2 m e)

end Sys2Proof.Machine
end

