-- ==== Sys2Proof/Machine/Control.lean ====
section
/-!
DEFINITION. The control group, LOOP and the pointer group (05_scalar R78 to R90). Engine posting is in Engines.lean.
-/
namespace Sys2Proof.Machine

/-- S mode, or the illegal-instruction trap (R48). -/
def needS (i : Instr) (s : State) : Option Stop := if s.th.regs.smode then none else some (illegal i)

/-- CHUNK (R78). -/
def execChunk (p : Bool) (s : State) : Out :=
  runInstr p none [] (fun s => do
    noRewrite s
    .ok (s, .cut 16 none)) s

/-- YIELD (R78). -/
def execYield (p : Bool) (s : State) : Out :=
  runInstr p none [] (fun s => .ok (s, .pause 16)) s

/-- PAUSE (R78). -/
def execPause (p : Bool) (a : Reg) (s : State) : Out :=
  runInstr p none [.x a] (fun s => .ok (s, .pause (bits (s.x a) 15 0))) s

/-- FENCE.S: a fence marker (R79). The acquire part has nothing to wait for: an invalidation reaches an L1 in the same
event that applies it (log 17). -/
def execFenceS (p : Bool) (a : Reg) (s : State) : Out :=
  runInstr p none [.x a] (fun s => do
    let _ ← needScope (s.x a)
    .ok (s.postCommit (.fence (s.x a)), .seq)) s

/-- A scope names participants of a barrier, the issuer among them (R80). -/
def barScopeOk (w : Word) (place : Nat) : Bool :=
  match scopeOf w with
  | some .system => false
  | some f => f.has place
  | none => false

/-- BAR (R80). -/
def execBar (p : Bool) (d a : Reg) (s : State) : Out :=
  runInstr p none [.x a, .x d] (fun s => do
    notInEvent s 0
    noRewrite s
    if barScopeOk (s.x a) s.th.placeCore then
      .ok ((s.capture (.reg (.x d))).postCommit (.arrive (s.x a) d), .cut 7 (some (.barrier d)))
    else .error (.trap 30 (s.x a))) s

/-- LCLR (R84). -/
def execLclr (p : Bool) (l : BitVec 1) (s : State) : Out :=
  runInstr p none [] (fun s => .ok (s.loopClear l.toNat, .seq)) s

/-- LOOP (R82). -/
def execLoop (p : Bool) (l : BitVec 1) (a : Reg) (len : BitVec 11) (s : State) : Out :=
  runInstr p none [.x a] (fun s =>
    if s.x a = 0 then .ok (s.loopClear l.toNat, .goto (s.pc + BitVec.ofNat 64 (4 * (len.toNat + 1))))
    else
      let pc := s.pc
      let c : Word := BitVec.ofNat 64 (len.toNat * 64 + a.toNat * 2 + 1)
      let st : Word := BitVec.ofNat 64 (bits (pc + 4) 55 2 * 4)
      let s := s.setX a (s.x a - 1)
      let s :=
        if l = 0 then (s.setCsr 0x80B fun q => { q with loopS0 := st }).setCsr 0x80C fun q => { q with loopC0 := c }
        else (s.setCsr 0x80D fun q => { q with loopS1 := st }).setCsr 0x80E fun q => { q with loopC1 := c }
      .ok (s, .goto (pc + 4))) s

/-! ## Access and execute queues (R30, R85) -/

/-- The pair's queues on the thread's core. -/
def State.pairOf (s : State) : Pair := tabGet ⟨[], []⟩ (s.coreOf s.th.core).pairs (s.th.slot % 8)
def State.setPair (s : State) (q : Pair) : State :=
  s.modCore s.th.core fun c => { c with pairs := tabSet c.pairs (s.th.slot % 8) q }

/-- AEQW and AEQR are illegal in a thread whose pair is not bound (R85). -/
def needsPair (i : Instr) (s : State) : Option Stop := if (s.partner s.cur).isNone then some (illegal i) else none

/-- AEQW (R30, R85): a forward entry is visible at once, a reverse entry once its chunk commits. -/
def execAeqw (p : Bool) (a : Reg) (s : State) : Out :=
  runInstr p (needsPair (.aeqw p a) s) [.x a] (fun s => do
    notInEvent s 0
    let q := s.pairOf
    let e := (s.x a, s.th.chunk.uid)
    if s.th.slot < 8 then
      if 4 ≤ q.rq.length then .error (.stall .pairFull) else .ok (s.setPair { q with rq := q.rq ++ [e] }, .seq)
    else
      if 16 ≤ q.fq.length then .error (.stall .pairFull) else .ok (s.setPair { q with fq := q.fq ++ [e] }, .seq)) s

/-- AEQR (R30, R85): an empty forward queue makes the execute thread not ready; an empty reverse queue cuts the access
thread's chunk before it (code 17). -/
def execAeqr (p : Bool) (d : Reg) (s : State) : Out :=
  runInstr p (needsPair (.aeqr p d) s) [.x d] (fun s => do
    notInEvent s 0
    noRewrite s
    let q := s.pairOf
    let take := fun (s : State) (e : Word × Nat) =>
      (s.setX d e.1).modChunk fun c => { c with aeTaken := c.aeTaken ++ [e] }
    if s.th.slot < 8 then
      match q.fq with
      | [] => .error (.stall .pairEmpty)
      | e :: es => .ok (take (s.setPair { q with fq := es }) e, .seq)
    else
      match q.rq with
      | (w, 0) :: es => .ok (take (s.setPair { q with rq := es }) (w, 0), .seq)
      | _ => .error (.cut 17 .reverse)) s

/-! ## Contexts (R86, R87, R335) -/

/-- The slot operand of CTXSAVE and CTXLOAD. -/
def slotOperand (i : Instr) (w : Word) : Except Stop Nat :=
  if bits w 63 4 ≠ 0 then .error (illegal i) else .ok (bits w 3 0)

/-- CTXSAVE waits for a thread's context, or an uncommitted chunk saves it: its slot is not yet free (R86). -/
def State.saving (s : State) (u : Nat) : Bool :=
  s.threads.any fun p => p.2.status == .retry (.ctx u) || p.2.chunks.any fun c => c.inFlight && c.ctx.any fun o =>
    match o with
    | .save _ a b => a == some u || b == some u
    | .load _ _ _ => false

/-- A thread whose CTXSAVE is not committed has left a slot of a core, which is not yet free (R86). -/
def State.slotKept (s : State) (core slot : Nat) : Bool :=
  s.threads.any fun p => p.2.isOut && p.2.core == core && p.2.slot == slot && s.saving p.1

/-- Asks for a thread's pre-emption (R316). -/
def askPreempt (s : State) (t : Nat) : State :=
  s.modThr t fun th => { th with cutReq := some .preempt }

/-- The blocks of 256 bytes of n context areas at the physical address in a register: a multiple of 256, in this
device's HBM, and for CTXLOAD without a poisoned line (R86, R328, R335, R340; log 131). -/
def areaBlocks (s : State) (acc : Acc) (base : Word) (n : Nat) : Except Stop (State × List Nat) :=
  let pa := base.toNat
  let blocks := (List.range (64 * n)).map fun i => pa + 256 * i
  if pa % 256 ≠ 0 then .error (.trap (misaligned acc) base)
  else if blocks.any fun b => s.placeOf b != .own then .error (.trap (accessFault acc) base)
  else if blocks.any fun b => s.flipWait b then .error (.stall .flip)
  else
    match (if acc = .load then (List.range (256 * n)).find? fun i => s.poison.contains (pa / 64 + i) else none) with
    | some i => .error (.trap 50 (BitVec.ofNat 64 (pa + 64 * i)))
    | none => .ok (s, blocks)

/-- The bytes of an area's block as the current thread reads them. -/
def State.viewBlock (s : State) (blocks : List Nat) (i : Nat) : List Byte := s.view (blocks.getD i 0) 8

/-- CTXSAVE (R86): the target is pre-empted first; its area is written when the issuing chunk commits. A slot that the target
has left otherwise, as by its exit, is empty. -/
def execCtxsave (p : Bool) (a b : Reg) (s : State) : Out :=
  let i := Instr.ctxsave p a b
  runInstr p (needS i s) [.x a, .x b] (fun s => do
    let slot ← slotOperand i (s.x b)
    if slot = s.th.slot then .error (illegal i)
    else
      let record := fun (t u : Option Nat) => do
        let (s, bs) ← areaBlocks s .store (s.x a) (if u.isSome then 2 else 1)
        .ok (s.modChunk fun c => { c with ctx := c.ctx ++ [.save bs t u] }, After.seq)
      match s.inSlot s.th.core slot with
      | some t =>
        match s.partner t with
        | some u =>
          if u = s.cur then .error (illegal i)
          else
            let (s, _) ← areaBlocks s .store (s.x a) 2
            .error (.leave ((askPreempt (askPreempt s t) u).stall (.ctx t)))
        | none =>
          let (s, _) ← areaBlocks s .store (s.x a) 1
          .error (.leave ((askPreempt s t).stall (.ctx t)))
      | none =>
        match s.th.status with
        | .retry (.ctx t) =>
          if (s.thr t).isOut then
            match s.outPartner t with
            | some u => if (s.thr t).slot < 8 then record (some t) (some u) else record (some u) (some t)
            | none => record (some t) none
          else record none none
        | _ => record none none) s

/-- CTXLOAD: the checks are made at execution, the context starts at commit. A slot whose CTXSAVE has not committed is not
free (R86, R87; log 124). -/
def execCtxload (p : Bool) (a b : Reg) (s : State) : Out :=
  let i := Instr.ctxload p a b
  runInstr p (needS i s) [.x a, .x b] (fun s => do
    let slot ← slotOperand i (s.x b)
    let busy := fun (k : Nat) => (s.inSlot s.th.core k).isSome || s.slotKept s.th.core k
    if busy slot then .error (illegal i)
    else
      let (s, bs) ← areaBlocks s .load (s.x a) 1
      let h : Word := BitVec.ofNat 64 (leNat (s.viewBlock bs 0))
      let id := leNat (s.viewBlock bs 61)
      let pairBad := h.getLsbD 3 && (decide (8 ≤ bits h 7 4) || decide (8 ≤ slot) || busy (slot + 8))
      if !h.getLsbD 0 || (h.getLsbD 1 && decide (8 ≤ slot)) || pairBad || id == 0 then .error (illegal i)
      else
        let (s, bs) ← (if h.getLsbD 3 then areaBlocks s .load (s.x a) 2 else .ok (s, bs))
        .ok (s.modChunk fun c => { c with ctx := c.ctx ++ [.load bs s.th.core slot] }, .seq)) s

/-- TLBINV (R88): the removal starts at the chunk's commit. -/
def execTlbinv (p : Bool) (a b : Reg) (s : State) : Out :=
  runInstr p (needS (.tlbinv p a b) s) [.x a, .x b] (fun s =>
    let va := if a = 0 then none else some (s.x a)
    let id := if b = 0 then none else some (s.x b)
    .ok (s.modChunk fun c => { c with tlbinv := c.tlbinv ++ [(va, id)] }, .seq)) s

/-- ZLINE (R89): a relaxed store of a line of zeros that clears its poison. -/
def execZline (p : Bool) (a : Reg) (s : State) : Out :=
  runInstr p (needS (.zline p a) s) [.x a] (fun s => do
    notInEvent s (BitVec.ofNat 64 (bits (s.x a) 55 0))
    let (s, pa, _) ← checkVa s .store (s.x a) 64
    .ok (s.postCommit (.relaxed pa (List.replicate 64 0) true), .seq)) s

/-! ## Pointers (R90) -/

/-- PTRFMT (R90). -/
def execPtrfmt (p : Bool) (d a b : Reg) (s : State) : Out :=
  runInstr p none [.x a, .x b, .x d] (fun s =>
    let f := bits (s.x b) 3 0
    let e := bits (s.x b) 7 4
    let y : Word := BitVec.ofNat 64 (f * 2 ^ 60 + e * 2 ^ 56 + bits (s.x a) 55 0)
    if ptrValid f e then .ok (s.setX d y, .seq) else .error (.trap 29 y)) s

/-- PTRINFO (R90). -/
def execPtrinfo (p : Bool) (d a : Reg) (s : State) : Out :=
  runInstr p none [.x a, .x d] (fun s =>
    let w := s.x a
    let f := bits w 63 60
    .ok (s.setX d (BitVec.ofNat 64 (b2n (ptrOk w) * 65536 + fmtBits f * 256 + bits w 63 56)), .seq)) s

/-- PTRCLR (R90). -/
def execPtrclr (p : Bool) (d a : Reg) (s : State) : Out :=
  runInstr p none [.x a, .x d] (fun s => .ok (s.setX d (BitVec.ofNat 64 (bits (s.x a) 55 0)), .seq)) s

end Sys2Proof.Machine
end

