-- ==== Sys2Proof/Machine/LocalMem.lean ====
section
/-!
DEFINITION. LDL and STL (05_scalar R91 to R93).
-/
namespace Sys2Proof.Machine

/-- The place of an LDL or STL operand, and its local address (R91, R92). -/
def ldlPlace (s : State) (base : Word) (mode size : BitVec 2) (off : BitVec 7) (store : Bool) :
    Except Stop (LocalPlace × Nat × Word) := do
  let n := 2 ^ size.toNat
  let sp := bits base 63 60
  let o := bits base 59 0 + off.toNat * n
  let pl ← localPlace s sp o n mode.toNat store
  .ok (pl, n, BitVec.ofNat 64 (sp * 2 ^ 60 + o % 2 ^ 60))

/-- LDL (R91, R92). -/
def execLdl (p : Bool) (d a : Reg) (mode size : BitVec 2) (off : BitVec 7) (s : State) : Out :=
  runInstr p none [.x a, .x d] (fun s => do
    let (pl, n, la) ← ldlPlace s (s.x a) mode size off false
    let (s, bs) ← localRead s pl la.toNat n
    .ok (s.setLong .local (.x d (signExt (8 * n) (leNat bs))) none, .seq)) s

/-- STL (R91 to R93). -/
def execStl (p : Bool) (a b : Reg) (mode size : BitVec 2) (off : BitVec 7) (s : State) : Out :=
  runInstr p none [.x a, .x b] (fun s => do
    let (pl, n, la) ← ldlPlace s (s.x a) mode size off true
    let s ← localWrite s pl la (leBytes n (s.x b).toNat)
    .ok (s, .seq)) s

end Sys2Proof.Machine
end

