-- ==== Sys2Proof/Machine/Atomics.lean ====
section
/-!
DEFINITION. Non-returning reductions, queued reservations, relaxed stores and acquire loads (05_scalar R94 to R102).
-/
namespace Sys2Proof.Machine

/-- A reduction of n bytes: checks, then the post-commit entry (R94). -/
def reduceBody (op : RedOp) (n : Nat) (a : Reg) (operand : State → BitVec 128) : Body := fun s => do
  notInEvent s (BitVec.ofNat 64 (bits (s.x a) 55 0))
  let (s, pa, _) ← checkVa s .store (s.x a) n
  .ok (s.postCommit (.reduce op pa n (operand s)), .seq)

/-- Operand of .W and RED.FADD.S, and of .D (R94). -/
def opW (b : Reg) (s : State) : BitVec 128 := ((s.x b).setWidth 32).setWidth 128
def opD (b : Reg) (s : State) : BitVec 128 := (s.x b).setWidth 128

def execRedAddW (p : Bool) (a b : Reg) (s : State) : Out := runInstr p none [.x a, .x b] (reduceBody .add 4 a (opW b)) s
def execRedAddD (p : Bool) (a b : Reg) (s : State) : Out := runInstr p none [.x a, .x b] (reduceBody .add 8 a (opD b)) s
def execRedMinW (p : Bool) (a b : Reg) (s : State) : Out := runInstr p none [.x a, .x b] (reduceBody .min 4 a (opW b)) s
def execRedMinD (p : Bool) (a b : Reg) (s : State) : Out := runInstr p none [.x a, .x b] (reduceBody .min 8 a (opD b)) s
def execRedMaxW (p : Bool) (a b : Reg) (s : State) : Out := runInstr p none [.x a, .x b] (reduceBody .max 4 a (opW b)) s
def execRedMaxD (p : Bool) (a b : Reg) (s : State) : Out := runInstr p none [.x a, .x b] (reduceBody .max 8 a (opD b)) s
def execRedAndD (p : Bool) (a b : Reg) (s : State) : Out := runInstr p none [.x a, .x b] (reduceBody .and 8 a (opD b)) s
def execRedOrD (p : Bool) (a b : Reg) (s : State) : Out := runInstr p none [.x a, .x b] (reduceBody .or 8 a (opD b)) s
def execRedXorD (p : Bool) (a b : Reg) (s : State) : Out := runInstr p none [.x a, .x b] (reduceBody .xor 8 a (opD b)) s

/-- RED.FADD.S: DETFP in a DET launch, after the address checks (R94, R156). -/
def execRedFaddS (p : Bool) (a b : Reg) (s : State) : Out :=
  runInstr p none [.x a, .x b] (fun s => do
    notInEvent s (BitVec.ofNat 64 (bits (s.x a) 55 0))
    let (s, pa, va) ← checkVa s .store (s.x a) 4
    if s.launch.det then .error (.trap 26 (BitVec.ofNat 64 va))
    else .ok (s.postCommit (.reduce .fadd pa 4 (opW b s)), .seq)) s

/-- RED.FXA: the FP32 operand converts at execution, its conditions going to NFLAGS (R94, R169). -/
def execRedFxa (p : Bool) (a b : Reg) (s : State) : Out :=
  runInstr p none [.x a, .x b] (fun s => do
    notInEvent s (BitVec.ofNat 64 (bits (s.x a) 55 0))
    let (s, pa, _) ← checkVa s .store (s.x a) 16
    let (t, f) := fxaOf (fp32.num (bits (s.x b) 31 0))
    .ok ((s.orFlags f).postCommit (.reduce .fxa pa 16 t), .seq)) s

/-- The value a reduction leaves, with RED.FADD.S's conditions (R94). -/
def reduceValue (op : RedOp) (n : Nat) (old : Nat) (t : BitVec 128) : Nat × BitVec 6 :=
  let w := 8 * n
  let o : Int := (BitVec.ofNat w old).toInt
  let v : Int := (t.setWidth w).toInt
  let tn := t.toNat % 2 ^ w
  match op with
  | .add => ((old + tn) % 2 ^ w, 0)
  | .min => (if v < o then tn else old, 0)
  | .max => (if o < v then tn else old, 0)
  | .and => (old &&& tn, 0)
  | .or => (old ||| tn, 0)
  | .xor => (old ^^^ tn, 0)
  | .fadd => rne32 (numAdd .rne (fp32.num old) (fp32.num tn))
  | .fxa => ((old + tn) % 2 ^ 128, 0)

/-! ## Queued reservations (R96 to R99) -/

/-- The entry of a word among the reservations. -/
def State.reservation (s : State) (pa : Nat) : Option Reservation := s.reserved.find? fun r => r.pa == pa

/-- A thread holds a word and has not handed it over. The word is known by its address alone, whatever the sizes of its LRW
and of the instruction that asks (R98; log 151). -/
def State.holds (s : State) (t pa : Nat) : Bool :=
  let hands := fun (l : List Act) => l.any fun a => a == .handover pa
  let th := s.thr t
  (s.reserved.any fun r => r.pa == pa && r.holder == some t) &&
  !(hands th.chunk.post || (match th.older with | some c => hands c.post | none => false) ||
    s.flights.any fun f => f.tid == t && f.act == .handover pa)

/-- A thread awaits a word, in its queue or an overflow FIFO or on the way. -/
def State.awaits (s : State) (t pa : Nat) : Bool :=
  (s.reserved.any fun r => r.pa == pa && r.waiters.any fun w => w.1 == t) ||
  (s.overflow.any fun w => w.1 == t && w.2.1 == pa) || (s.resends.any fun w => w.1 == t && w.2.1 == pa)

/-- Words a thread holds. -/
def State.heldWords (s : State) (t : Nat) : List Nat := (s.reserved.filter fun r => r.holder == some t).map (·.pa)

/-- LRW (R96). -/
def lrwBody (n : Nat) (d a : Reg) : Body := fun s => do
  notInEvent s (BitVec.ofNat 64 (bits (s.x a) 55 0))
  noRewrite s
  let (s, pa, va) ← checkVa s .store (s.x a) n
  if s.placeOf pa ≠ .own then .error (.trap 7 (BitVec.ofNat 64 va))
  else if s.holds s.cur pa || s.awaits s.cur pa || decide (4 ≤ (s.heldWords s.cur).length) then
    .error (.trap 55 (BitVec.ofNat 64 va))
  else .ok ((s.capture (.reg (.x d))).postCommit (.lrwRequest pa n d), .cut 5 (some (.reservation pa n d s.pc (BitVec.ofNat 64 va))))

def execLrwW (p : Bool) (d a : Reg) (s : State) : Out := runInstr p none [.x a, .x d] (lrwBody 4 d a) s
def execLrwD (p : Bool) (d a : Reg) (s : State) : Out := runInstr p none [.x a, .x d] (lrwBody 8 d a) s

/-- SCH (R98): a plain store to a held word, and its handover. -/
def schBody (n : Nat) (a b : Reg) : Body := fun s => do
  notInEvent s (BitVec.ofNat 64 (bits (s.x a) 55 0))
  let (s, pa, va) ← checkVa s .store (s.x a) n
  if !s.holds s.cur pa then .error (.trap 55 (BitVec.ofNat 64 va))
  else
    let s ← writePlain s pa va (leBytes n (s.x b).toNat)
    .ok (s.postCommit (.handover pa), .seq)

def execSchW (p : Bool) (a b : Reg) (s : State) : Out := runInstr p none [.x a, .x b] (schBody 4 a b) s
def execSchD (p : Bool) (a b : Reg) (s : State) : Out := runInstr p none [.x a, .x b] (schBody 8 a b) s

/-- The queue status that LRWQ reads (R99). -/
def lrwqWord (s : State) (t pa : Nat) : Word :=
  let r := s.reservation pa
  let mine := match r with | some r => r.holder == some t | none => false
  let held := match r with | some r => r.holder.isSome | none => false
  let n := (match r with | some r => r.waiters.length | none => 0) + (s.overflow.filter fun w => w.2.1 == pa).length
  BitVec.ofNat 64 (b2n mine * 131072 + b2n held * 65536 + Nat.min n 65535)

/-- LRWQ (R99): the address of a word of either size, log 133. -/
def execLrwq (p : Bool) (d a : Reg) (s : State) : Out :=
  runInstr p none [.x a, .x d] (fun s => do
    let (s, pa, va) ← checkVa s .load (s.x a) 4
    if s.placeOf pa ≠ .own || s.poison.contains (pa / 64) then .error (.trap 5 (BitVec.ofNat 64 va))
    else .ok (s.setLong .far (.x d (lrwqWord s s.cur pa)) none, .seq)) s

/-! ## Relaxed access (R100 to R102) -/

/-- STX (R100); the doubleword form may use the device alias (R349). -/
def stxBody (n : Nat) (a b : Reg) : Body := fun s => do
  notInEvent s (BitVec.ofNat 64 (bits (s.x a) 55 0))
  let (s, pa, _) ← checkVaBy s (n = 8) .store (s.x a) n
  .ok (s.postCommit (.relaxed pa (leBytes n (s.x b).toNat) false), .seq)

def execStxW (p : Bool) (a b : Reg) (s : State) : Out := runInstr p none [.x a, .x b] (stxBody 4 a b) s
def execStxD (p : Bool) (a b : Reg) (s : State) : Out := runInstr p none [.x a, .x b] (stxBody 8 a b) s

/-- STX.REL (R101); the doubleword form may use the device alias (R349). -/
def stxRelBody (n : Nat) (a b d : Reg) : Body := fun s => do
  notInEvent s (BitVec.ofNat 64 (bits (s.x a) 55 0))
  let _ ← needScope (s.x d)
  let (s, pa, _) ← checkVaBy s (n = 8) .store (s.x a) n
  .ok (s.postCommit (.storeRel (s.x d) pa (leBytes n (s.x b).toNat)), .seq)

def execStxRelW (p : Bool) (a b d : Reg) (s : State) : Out := runInstr p none [.x a, .x b, .x d] (stxRelBody 4 a b d) s
def execStxRelD (p : Bool) (a b d : Reg) (s : State) : Out := runInstr p none [.x a, .x b, .x d] (stxRelBody 8 a b d) s

/-- The bytes an LDA reads: the thread's own writes, else the home's (R102, R134). -/
def State.homeView (s : State) (pa n : Nat) : List Byte :=
  (List.range n).map fun i => (s.ownByte s.cur (pa + i)).getD (s.homeByte (pa + i))

/-- LDA (R102): a far result; a word of a peer device waits for its far request (R150). -/
def ldaBody (n : Nat) (d a b : Reg) : Body := fun s => do
  let _ ← needScope (s.x b)
  let (s, pa, va) ← checkVa s .load (s.x a) n
  if s.ldaWait.isSome then .error (.stall (.far (s.ldaWait.getD 0)))
  else if s.poisonedFor pa then .error (.trap 50 (BitVec.ofNat 64 va))
  else if s.invalWaits s.th.core pa then .error (.stall (.read pa))
  else if s.homeTainted pa then .error (.settle s (.line false pa))
  else
    let v := RegVal.x d (signExt (8 * n) (leNat (s.homeView pa n)))
    let own := (List.range n).all fun i => (s.ownByte s.cur (pa + i)).isSome
    let s := s.enterRead pa n va
    if s.isFar pa && !own then
      if 1024 ≤ s.farCount s.cur then .error (.stall .farRoom)
      else
        let mine := (List.range n).filterMap fun i => (s.ownByte s.cur (pa + i)).map fun b => (i, b)
        let (s, num) := s.askFar (.lda n d mine) pa
        .ok (s.setLong .far v (some num), .seq)
    else .ok (s.setLong .far v none, .seq)

def execLdaW (p : Bool) (d a b : Reg) (s : State) : Out := runInstr p none [.x a, .x b, .x d] (ldaBody 4 d a b) s

end Sys2Proof.Machine
end

