-- ==== Sys2Proof/Machine/Standard.lean ====
section
/-!
DEFINITION. The standard instructions on the K9, the CSR instructions apart (03_encoding R42 to R45, 05_scalar R103).
-/
namespace Sys2Proof.Machine

/-- A base register plus a 12-bit offset as a global address (R168). -/
def baseAddr (s : State) (rs1 : Reg) (imm : BitVec 12) : Except Stop Nat := pointerAddr (s.x rs1) imm.toInt

def loadSize : LoadOp → Nat
  | .lb => 1 | .lbu => 1 | .lh => 2 | .lhu => 2 | .lw => 4 | .lwu => 4 | .ld => 8

/-- The register value of a load. -/
def loadValue (f : LoadOp) (v : Nat) : Word :=
  match f with
  | .lb => signExt 8 v | .lh => signExt 16 v | .lw => signExt 32 v
  | .lbu | .lhu | .lwu | .ld => BitVec.ofNat 64 v

/-- A standard load (R103). -/
def execStandardLoad (f : LoadOp) (rd rs1 : Reg) (imm : BitVec 12) (s : State) : Out :=
  runInstr false none [.x rs1, .x rd] (fun s => do
    let va ← baseAddr s rs1 imm
    let (s, bs) ← loadVa s va (loadSize f) true
    .ok (s.setX rd (loadValue f (leNat bs)), .seq)) s

def storeSize : StoreOp → Nat
  | .sb => 1 | .sh => 2 | .sw => 4 | .sd => 8

/-- A standard store (R103). -/
def execStandardStore (f : StoreOp) (rs1 rs2 : Reg) (imm : BitVec 12) (s : State) : Out :=
  runInstr false none [.x rs1, .x rs2] (fun s => do
    let va ← baseAddr s rs1 imm
    let s ← storeVa s va (leBytes (storeSize f) (s.x rs2).toNat)
    .ok (s, .seq)) s

/-! ## Register computations (R43) -/

def sx32 (w : BitVec 32) : Word := w.signExtend 64
def lo32 (w : Word) : BitVec 32 := w.setWidth 32

/-- Signed division as RISC-V defines its corners. -/
def divS {n : Nat} (a b : BitVec n) : BitVec n := if b = 0 then BitVec.allOnes n else a.sdiv b
def divU {n : Nat} (a b : BitVec n) : BitVec n := if b = 0 then BitVec.allOnes n else a.udiv b
def remS {n : Nat} (a b : BitVec n) : BitVec n := if b = 0 then a else a.srem b
def remU {n : Nat} (a b : BitVec n) : BitVec n := if b = 0 then a else a.umod b

/-- The upper half of a product. -/
def mulHi (a b : Int) : Word := BitVec.ofInt 64 (a * b / 2 ^ 64)

def bool64 (b : Bool) : Word := if b then 1 else 0

def aluOp (f : AluOp) (a b : Word) : Word :=
  let sh := b.toNat % 64
  match f with
  | .add => a + b | .sub => a - b
  | .sll => a <<< sh | .srl => a >>> sh | .sra => a.sshiftRight sh
  | .slt => bool64 (a.slt b) | .sltu => bool64 (a.ult b)
  | .xor => a ^^^ b | .or => a ||| b | .and => a &&& b
  | .mul => a * b
  | .mulh => mulHi a.toInt b.toInt | .mulhsu => mulHi a.toInt b.toNat | .mulhu => mulHi a.toNat b.toNat
  | .div => divS a b | .divu => divU a b | .rem => remS a b | .remu => remU a b
  | .sh1add => a <<< 1 + b | .sh2add => a <<< 2 + b | .sh3add => a <<< 3 + b
  | .andn => a &&& ~~~b | .orn => a ||| ~~~b | .xnor => ~~~(a ^^^ b)
  | .max => if a.slt b then b else a | .maxu => if a.ult b then b else a
  | .min => if b.slt a then b else a | .minu => if b.ult a then b else a
  | .rol => a.rotateLeft sh | .ror => a.rotateRight sh

def aluWOp (f : AluWOp) (a b : Word) : Word :=
  let x := lo32 a
  let y := lo32 b
  let sh := b.toNat % 32
  let z : Word := x.setWidth 64
  match f with
  | .addw => sx32 (x + y) | .subw => sx32 (x - y)
  | .sllw => sx32 (x <<< sh) | .srlw => sx32 (x >>> sh) | .sraw => sx32 (x.sshiftRight sh)
  | .mulw => sx32 (x * y) | .divw => sx32 (divS x y) | .divuw => sx32 (divU x y)
  | .remw => sx32 (remS x y) | .remuw => sx32 (remU x y)
  | .adduw => z + b | .sh1adduw => z <<< 1 + b | .sh2adduw => z <<< 2 + b | .sh3adduw => z <<< 3 + b
  | .rolw => sx32 (x.rotateLeft sh) | .rorw => sx32 (x.rotateRight sh)

def immOp (f : ImmOp) (a : Word) (imm : BitVec 12) : Word :=
  let i : Word := imm.signExtend 64
  match f with
  | .addi => a + i | .slti => bool64 (a.slt i) | .sltiu => bool64 (a.ult i)
  | .xori => a ^^^ i | .ori => a ||| i | .andi => a &&& i
  | .addiw => sx32 (lo32 (a + i))

def shiftOp (f : ShiftOp) (a : Word) (sh : BitVec 6) : Word :=
  let n := sh.toNat
  match f with
  | .slli => a <<< n | .srli => a >>> n | .srai => a.sshiftRight n | .rori => a.rotateRight n
  | .slliuw => ((lo32 a).setWidth 64) <<< n

def shiftWOp (f : ShiftWOp) (a : Word) (sh : BitVec 5) : Word :=
  let n := sh.toNat
  let x := lo32 a
  match f with
  | .slliw => sx32 (x <<< n) | .srliw => sx32 (x >>> n) | .sraiw => sx32 (x.sshiftRight n) | .roriw => sx32 (x.rotateRight n)

/-- Leading zeros of an n-bit number. -/
def clzOf (n v : Nat) : Nat := n - bitLen v
/-- Trailing zeros of an n-bit number. -/
def ctzOf (n v : Nat) : Nat := ((List.range n).find? fun i => v.testBit i).getD n
/-- Ones of an n-bit number. -/
def popOf (n v : Nat) : Nat := ((List.range n).filter fun i => v.testBit i).length

/-- A word from its eight bytes, byte 0 first. -/
def wordOf (bs : List Nat) : Word := BitVec.ofNat 64 (bs.foldr (fun b r => b + 256 * r) 0)
def bytesOf (w : Word) : List Nat := (List.range 8).map fun i => w.toNat / 256 ^ i % 256

def unaryOp (f : UnaryOp) (a : Word) : Word :=
  let v := a.toNat
  let w := v % 2 ^ 32
  match f with
  | .clz => BitVec.ofNat 64 (clzOf 64 v) | .ctz => BitVec.ofNat 64 (ctzOf 64 v) | .cpop => BitVec.ofNat 64 (popOf 64 v)
  | .clzw => BitVec.ofNat 64 (clzOf 32 w) | .ctzw => BitVec.ofNat 64 (ctzOf 32 w) | .cpopw => BitVec.ofNat 64 (popOf 32 w)
  | .sextb => signExt 8 v | .sexth => signExt 16 v | .zexth => BitVec.ofNat 64 (v % 65536)
  | .orcb => wordOf ((bytesOf a).map fun b => if b = 0 then 0 else 255)
  | .rev8 => wordOf (bytesOf a).reverse

/-- The destination of a computation. -/
def computeDest : Compute → Reg
  | .op _ rd _ _ | .op32 _ rd _ _ | .imm _ rd _ _ | .shift _ rd _ _ | .shiftW _ rd _ _ | .unary _ rd _ | .lui rd _
  | .auipc rd _ => rd

/-- The sources of a computation. -/
def computeSrcs : Compute → List RegName
  | .op _ _ a b | .op32 _ _ a b => [.x a, .x b]
  | .imm _ _ a _ | .shift _ _ a _ | .shiftW _ _ a _ | .unary _ _ a => [.x a]
  | .lui _ _ | .auipc _ _ => []

/-- The value of a computation (R43). -/
def computeValue (c : Compute) (r : Reg → Word) (pc : Word) : Word :=
  match c with
  | .op f _ a b => aluOp f (r a) (r b)
  | .op32 f _ a b => aluWOp f (r a) (r b)
  | .imm f _ a i => immOp f (r a) i
  | .shift f _ a n => shiftOp f (r a) n
  | .shiftW f _ a n => shiftWOp f (r a) n
  | .unary f _ a => unaryOp f (r a)
  | .lui _ i => (i ++ (0 : BitVec 12)).signExtend 64
  | .auipc _ i => pc + (i ++ (0 : BitVec 12)).signExtend 64

/-- A register computation of the base (R43). -/
def execBaseCompute (c : Compute) (s : State) : Out :=
  runInstr false none (computeSrcs c ++ [.x (computeDest c)]) (fun s => .ok (s.setX (computeDest c) (computeValue c s.x s.pc), .seq)) s

/-! ## Branches and jumps (R42) -/

def branchTaken (f : BranchOp) (a b : Word) : Bool :=
  match f with
  | .beq => a == b | .bne => a != b | .blt => a.slt b | .bge => !a.slt b | .bltu => a.ult b | .bgeu => !a.ult b

/-- A taken jump to an address, or the misaligned trap at the jump (R42). -/
def jumpTo (s : State) (n : Word) : Except Stop (State × After) :=
  if n.toNat % 4 ≠ 0 then .error (.trap 0 n) else .ok (s, .jump n)

def jumpRegs : Jump → List RegName
  | .branch _ a b _ => [.x a, .x b]
  | .jal rd _ => [.x rd]
  | .jalr rd a _ => [.x a, .x rd]

/-- The effect of a branch or jump. -/
def jumpBody (j : Jump) : Body := fun s =>
  match j with
  | .branch f a b off =>
    if branchTaken f (s.x a) (s.x b) then jumpTo s (s.pc + (off ++ (0 : BitVec 1)).signExtend 64) else .ok (s, .seq)
  | .jal rd off => do
    let (s, n) ← jumpTo s (s.pc + (off ++ (0 : BitVec 1)).signExtend 64)
    .ok (s.setX rd (s.pc + 4), n)
  | .jalr rd a imm => do
    let (s, n) ← jumpTo s ((s.x a + imm.signExtend 64) &&& ~~~(1 : Word))
    .ok (s.setX rd (s.pc + 4), n)

/-- A branch or jump (R42). -/
def execBranchJump (j : Jump) (s : State) : Out := runInstr false none (jumpRegs j) (jumpBody j) s

/-! ## Fences, LR, SC, AMO (R45, R103) -/

/-- FENCE acts as FENCE.S with package scope (R45, R103). -/
def execFence (_fm _pred _succ : BitVec 4) (_rd _rs1 : Reg) (s : State) : Out :=
  runInstr false none [] (fun s => .ok (s.postCommit (.fence packageScope), .seq)) s

/-- FENCE.TSO acts as FENCE.S with package scope (R45, R103). -/
def execFenceTso (_rd _rs1 : Reg) (s : State) : Out :=
  runInstr false none [] (fun s => .ok (s.postCommit (.fence packageScope), .seq)) s

/-- FENCE.I invalidates the core's L1 instruction cache: the values that words held before no longer reach the thread's
fetches (R103). -/
def execFenceI (_imm : BitVec 12) (_rd _rs1 : Reg) (s : State) : Out :=
  runInstr false none [] (fun s =>
    let s := s.modCore s.th.core fun c => { c with l1i := [], flips := c.flips.filter fun f => f.array != 1 }
    let s := s.modRegs fun r => { r with codeFrom := s.th.codeSeen.length, codeOwn := [] }
    .ok (s.modChunk fun c => { c with fenced := true }, .seq)) s

def atomSize (dbl : Bool) : Nat := if dbl then 8 else 4

/-- LR: a plain read and write whose line is obtained exclusive, which a relaxed write of its chunk keeps before itself
(R134); the address is reserved within the chunk. In an event it
is held to the state region, but it changes nothing, so it logs nothing (R103, R132, R263, R264; log 28). -/
def execLr (dbl aq rl : Bool) (rd rs1 : Reg) (s : State) : Out :=
  let _ := (aq, rl)
  runInstr false none [.x rs1, .x rd] (fun s => do
    let n := atomSize dbl
    let va ← pointerAddr (s.x rs1) 0
    if s.optBars va n then .error (.trap 49 (BitVec.ofNat 64 va))
    else if va % n ≠ 0 then .error (.trap 4 (BitVec.ofNat 64 va))
    else
      let (s, pa, lp) ← translateTh s .load va
      let (s, bs) ← (if s.inEvent && !lp then .error (.trap 49 (BitVec.ofNat 64 va)) else readPlain s pa n va true)
      let s ← (match plainStop s pa n with
        | some e => .error e
        | none => .ok ((s.enterWrite pa va).modChunk fun c => { c with lrs := addNew pa c.lrs }))
      .ok (s.setX rd (signExt (8 * n) (leNat bs)), .seq)) s

/-- SC: succeeds where an LR of the address precedes it in the chunk; the store checks apply in any case (R103). -/
def execSc (dbl aq rl : Bool) (rd rs1 rs2 : Reg) (s : State) : Out :=
  let _ := (aq, rl)
  runInstr false none [.x rs1, .x rs2, .x rd] (fun s => do
    let n := atomSize dbl
    let va ← pointerAddr (s.x rs1) 0
    if va % n ≠ 0 then .error (.trap 6 (BitVec.ofNat 64 va))
    else
      let (s1, pa, lp) ← translateTh s .store va
      if s.th.chunk.lrs.contains pa then
        let s2 ← (if s.optBars va n then .error (.trap 49 (BitVec.ofNat 64 va))
          else storeTo s1 va pa lp (leBytes n (s.x rs2).toNat))
        .ok ((s2.enterRead pa n va).setX rd 0, .seq)
      else .ok (s1.setX rd 1, .seq)) s

/-- The word an AMO stores. -/
def amoValue {n : Nat} (f : AmoOp) (old v : BitVec n) : BitVec n :=
  match f with
  | .swap => v | .add => old + v | .xor => old ^^^ v | .and => old &&& v | .or => old ||| v
  | .min => if v.slt old then v else old | .max => if old.slt v then v else old
  | .minu => if v.ult old then v else old | .maxu => if old.ult v then v else old

/-- AMO: read and write in L1 with the line exclusive, in both signatures (R103, R132). -/
def execAmo (f : AmoOp) (dbl aq rl : Bool) (rd rs1 rs2 : Reg) (s : State) : Out :=
  let _ := (aq, rl)
  runInstr false none [.x rs1, .x rs2, .x rd] (fun s => do
    let n := atomSize dbl
    let va ← pointerAddr (s.x rs1) 0
    if s.optBars va n then .error (.trap 49 (BitVec.ofNat 64 va))
    else if va % n ≠ 0 then .error (.trap 6 (BitVec.ofNat 64 va))
    else
      let (s, pa, lp) ← translateTh s .store va
      let (s, bs) ← readPlain s pa n va true
      let old := leNat bs
      let new := if dbl then (amoValue f (BitVec.ofNat 64 old) (s.x rs2)).toNat
        else (amoValue f (BitVec.ofNat 32 old) (lo32 (s.x rs2))).toNat
      let s ← storeTo s va pa lp (leBytes n new)
      .ok (s.setX rd (signExt (8 * n) old), .seq)) s

/-! ## System (R103, R331) -/

/-- WFI ends the chunk and waits (R103). -/
def execWfi (s : State) : Out :=
  runInstr false none [] (fun s => do
    notInEvent s 0
    noRewrite s
    .ok (s, .cut 6 (some .wfi))) s

/-- A TLB entry goes under an invalidation of a page and an identifier (R88, R103). -/
def tlbHit (va asid : Option Word) (e : TlbEntry) : Bool :=
  (match va with | none => true | some v => e.vbase == bits v 55 0 / 2 ^ e.bits) &&
  (match asid with | none => true | some a => e.asid == a.setWidth 16 && !e.pte.getLsbD 5)

/-- A pointer of a walker's cache goes under an invalidation of a page and an identifier (R88, R103). -/
def ptrHit (va asid : Option Word) (e : PtrEntry) : Bool :=
  (match va with | none => true | some v => e.top == bits v 55 0 / 2 ^ (12 + 9 * e.lvl)) &&
  (match asid with | none => true | some a => e.asid == a.setWidth 16 && !e.pte.getLsbD 5)

/-- A core takes no translation any more that an SFENCE.VMA of it names: its own TLB drops them, and those of its cluster's
TLB and its die's walker are barred to it (R103, R344). -/
def State.fenceTlb (s : State) (core : Nat) (va id : Option Word) : State :=
  let k := clusterOf core
  let d := dieOf core
  let s := s.modCore core fun c => { c with tlb := c.tlb.filter fun e => !tlbHit va id e }
  { s with
    ctlbs := tabSet s.ctlbs k ((tabGet [] s.ctlbs k).map fun (e : TlbEntry) =>
      if tlbHit va id e then { e with barred := addNew core e.barred } else e)
    walkers := tabSet s.walkers d ((tabGet [] s.walkers d).map fun (e : PtrEntry) =>
      if ptrHit va id e then { e with barred := addNew core e.barred } else e) }

/-- SFENCE.VMA: the issuing core's translations only, and the thread's earlier page-table stores count from here on (R88,
R103). -/
def execSfenceVma (rs1 rs2 : Reg) (s : State) : Out :=
  runInstr false (needS (.sfenceVma rs1 rs2) s) [.x rs1, .x rs2] (fun s =>
    let va := if rs1 = 0 then none else some (s.x rs1)
    let id := if rs2 = 0 then none else some (s.x rs2)
    .ok ((s.fenceTlb s.th.core va id).modChunk fun c => { c with sfenced := true }, .seq)) s

/-- ECALL: cause 8 from U, 9 from S (R103, R329). -/
def execEcall (s : State) : Out :=
  runInstr false none [] (fun s => .error (.trap (if s.th.regs.smode then 9 else 8) 0)) s

/-- EBREAK: cause 3, stval its address (R103, R329). -/
def execEbreak (s : State) : Out :=
  runInstr false none [] (fun s => .error (.trap 3 s.pc)) s

/-- SRET (R331). -/
def execSret (s : State) : Out :=
  runInstr false (needS .sret s) [] (fun s =>
    let s := ((((s.capture (.csr 0x100)).capture .marks).capture (.csr 0x80C)).capture (.csr 0x80E))
    let s := s.modRegs Regs.leaveTrap
    .ok (s, .noLoop s.pc)) s

end Sys2Proof.Machine
end

