-- ==== Sys2Proof/Machine/Vector.lean ====
section
/-!
DEFINITION. The vector and predicate functions and vector memory (13_vector_tile R179 to R195).
-/
namespace Sys2Proof.Machine

/-! ## Elements (R179, R180) -/

structure VType where
  fmt : Nat
  uns : Bool
  sat : Bool
  rm  : Rnd
  deriving DecidableEq, Repr

/-- VTYPE's fields (R179). -/
def vtypeOf (w : BitVec 8) : VType :=
  ⟨w.toNat % 16, w.getLsbD 4, w.getLsbD 5, rndOf (w.toNat / 64)⟩

/-- Elements of e bits of a vector register, element 0 first (R180). -/
def elems (e : Nat) (v : VReg) : List Nat := (List.range (512 / e)).map fun i => (v.extractLsb' (e * i) e).toNat

/-- A vector register from its elements. -/
def vecOf (e : Nat) (l : List Nat) : VReg := BitVec.ofNat 512 (l.foldr (fun x r => x % 2 ^ e + 2 ^ e * r) 0)

/-- Element i is active under a predicate (R180). -/
def activeAt (p : Word) (e i : Nat) : Bool := p.getLsbD (i * e / 8)

/-- The elements of a result, the inactive ones as they were (R181). -/
def mergeElems (p : Word) (e : Nat) (old new : List Nat) : List Nat :=
  (List.range (512 / e)).map fun i => if activeAt p e i then new.getD i 0 else old.getD i 0

/-- Formats a group of functions accepts (R180). -/
def fmtAny (f : Nat) : Bool := decide (f ≤ 9)
def fmtArith (f : Nat) : Bool := decide (1 ≤ f) && decide (f ≤ 9)
def fmtFn (f : Nat) : Bool := f == 5 || f == 6 || f == 7

/-- The vector queue holds 8 instructions, with or without a result: a thread with a full one is not ready (R182). -/
def State.vecFull (s : State) : Bool := decide (8 ≤ (s.th.results.filter (·.vec)).length)

/-- VTYPEBAD for a format that is not accepted, and the vector queue of 8 (R182). -/
def vecStart (s : State) (ok : Nat → Bool) : Except Stop VType :=
  let w := s.th.regs.csr.vtype
  if !ok (w.toNat % 16) then .error (.trap 53 (w.setWidth 64))
  else if s.vecFull then .error (.stall .vecQueue)
  else .ok (vtypeOf w)

/-- An element-wise function with a v destination: f gives each element's result and conditions, those of active
elements counting (R181, R183). -/
def vecBody (ok : Nat → Bool) (g : BitVec 3) (d : Reg) (f : State → VType → Nat → Nat × BitVec 6) : Body := fun s => do
  let t ← vecStart s ok
  let e := fmtBits t.fmt
  let pr := s.p g
  let rs := (List.range (512 / e)).map (f s t)
  let fl := (List.range (512 / e)).foldl (fun r i => if activeAt pr e i then r ||| (rs.getD i (0, 0)).2 else r) 0
  let v := vecOf e (mergeElems pr e (elems e (s.v d)) (rs.map (·.1)))
  .ok ((s.orFlags fl).enterVec .vector (some (.v d v)), .seq)

/-- Element i of a register under a type. -/
def State.elem (s : State) (t : VType) (r : Reg) (i : Nat) : Nat :=
  let e := fmtBits t.fmt
  ((s.v r).extractLsb' (e * i) e).toNat

/-! ## Arithmetic (R186) -/

/-- The element-wise arithmetic functions of R186. -/
inductive VOp where
  | add | sub | mul | fma | fms | min | max | abs | neg
  deriving DecidableEq, Repr

/-- A float element's result (R160, R161, R186). -/
def floatElem (f : FloatFmt) (t : VType) (op : VOp) (x y z : Nat) : Nat × BitVec 6 :=
  let a := f.num x
  let b := f.num y
  let c := f.num z
  let pick := fun (left : Bool) => if a.isNan || b.isNan then (f.nan, fNV) else ((if left then x else y), 0)
  match op with
  | .add => f.ofNum t.rm t.sat (numAdd t.rm a b)
  | .sub => f.ofNum t.rm t.sat (numAdd t.rm a (numNegate b))
  | .mul => f.ofNum t.rm t.sat (numMul a b)
  | .fma => f.ofNum t.rm t.sat (numAdd t.rm (numMul a b) c)
  | .fms => f.ofNum t.rm t.sat (numAdd t.rm c (numNegate (numMul a b)))
  | .min => pick (!numLt b a)
  | .max => pick (!numLt a b)
  | .abs => if a.isNan then (f.nan, fNV) else (x % 2 ^ (f.width - 1), 0)
  | .neg => if a.isNan then (f.nan, fNV) else ((x + 2 ^ (f.width - 1)) % 2 ^ f.width, 0)

/-- An integer element's result: exact, then narrowed (R186). -/
def intElem (t : VType) (op : VOp) (x y z : Nat) : Nat × BitVec 6 :=
  let e := fmtBits t.fmt
  let a := intOf e t.uns x
  let b := intOf e t.uns y
  let c := intOf e t.uns z
  let fit := intFit e t.uns t.sat
  match op with
  | .add => fit (a + b) | .sub => fit (a - b) | .mul => fit (a * b)
  | .fma => fit (a * b + c) | .fms => fit (c - a * b)
  | .min => (if b < a then y else x, 0) | .max => (if a < b then y else x, 0)
  | .abs => fit a.natAbs | .neg => fit (-a)

/-- One element of R186. -/
def arithElem (t : VType) (op : VOp) (x y z : Nat) : Nat × BitVec 6 :=
  match fmtFloat t.fmt with
  | some f => floatElem f t op x y z
  | none => intElem t op x y z

/-- An arithmetic function (R186). -/
def arithBody (op : VOp) (g : BitVec 3) (d a b : Reg) : Body :=
  vecBody fmtArith g d fun s t i => arithElem t op (s.elem t a i) (s.elem t b i) (s.elem t d i)

/-- Registers of a function with sources a and b and destination d. -/
def vRegs (g : BitVec 3) (d a b : Reg) : List RegName := [.v a, .v b, .p g, .v d]
/-- Registers of a function with source a and destination d. -/
def vRegs1 (g : BitVec 3) (d a : Reg) : List RegName := [.v a, .p g, .v d]

def execVadd (p : Bool) (g : BitVec 3) (d a b : Reg) (s : State) : Out := runInstr p none (vRegs g d a b) (arithBody .add g d a b) s
def execVsub (p : Bool) (g : BitVec 3) (d a b : Reg) (s : State) : Out := runInstr p none (vRegs g d a b) (arithBody .sub g d a b) s
def execVmul (p : Bool) (g : BitVec 3) (d a b : Reg) (s : State) : Out := runInstr p none (vRegs g d a b) (arithBody .mul g d a b) s
def execVfma (p : Bool) (g : BitVec 3) (d a b : Reg) (s : State) : Out := runInstr p none (vRegs g d a b) (arithBody .fma g d a b) s
def execVfms (p : Bool) (g : BitVec 3) (d a b : Reg) (s : State) : Out := runInstr p none (vRegs g d a b) (arithBody .fms g d a b) s
def execVmin (p : Bool) (g : BitVec 3) (d a b : Reg) (s : State) : Out := runInstr p none (vRegs g d a b) (arithBody .min g d a b) s
def execVmax (p : Bool) (g : BitVec 3) (d a b : Reg) (s : State) : Out := runInstr p none (vRegs g d a b) (arithBody .max g d a b) s
def execVabs (p : Bool) (g : BitVec 3) (d a : Reg) (s : State) : Out := runInstr p none (vRegs1 g d a) (arithBody .abs g d a a) s
def execVneg (p : Bool) (g : BitVec 3) (d a : Reg) (s : State) : Out := runInstr p none (vRegs1 g d a) (arithBody .neg g d a a) s

/-! ## Bits and shifts (R187) -/

/-- A bitwise function. -/
def bitBody (f : Nat → Nat → Nat → Nat) (g : BitVec 3) (d a b : Reg) : Body :=
  vecBody fmtAny g d fun s t i => (f (fmtBits t.fmt) (s.elem t a i) (s.elem t b i), 0)

/-- Arithmetic right shift of an e-bit element. -/
def asrElem (e x c : Nat) : Nat := ((BitVec.ofNat e x).sshiftRight (Nat.min c e)).toNat

def execVand (p : Bool) (g : BitVec 3) (d a b : Reg) (s : State) : Out :=
  runInstr p none (vRegs g d a b) (bitBody (fun _ x y => x &&& y) g d a b) s
def execVor (p : Bool) (g : BitVec 3) (d a b : Reg) (s : State) : Out :=
  runInstr p none (vRegs g d a b) (bitBody (fun _ x y => x ||| y) g d a b) s
def execVxor (p : Bool) (g : BitVec 3) (d a b : Reg) (s : State) : Out :=
  runInstr p none (vRegs g d a b) (bitBody (fun _ x y => x ^^^ y) g d a b) s
def execVshl (p : Bool) (g : BitVec 3) (d a b : Reg) (s : State) : Out :=
  runInstr p none (vRegs g d a b) (bitBody (fun e x c => if c < e then x * 2 ^ c % 2 ^ e else 0) g d a b) s
def execVshr (p : Bool) (g : BitVec 3) (d a b : Reg) (s : State) : Out :=
  runInstr p none (vRegs g d a b) (bitBody asrElem g d a b) s
def execVshrl (p : Bool) (g : BitVec 3) (d a b : Reg) (s : State) : Out :=
  runInstr p none (vRegs g d a b) (bitBody (fun e x c => if c < e then x / 2 ^ c else 0) g d a b) s

/-! ## Comparisons (R188) -/

inductive VCmp where
  | eq | lt | le
  deriving DecidableEq, Repr

/-- A comparison of two elements, with NV for a NaN operand of VCMPLT and VCMPLE (R188). -/
def cmpElem (t : VType) (c : VCmp) (x y : Nat) : Bool × BitVec 6 :=
  let e := fmtBits t.fmt
  match fmtFloat t.fmt with
  | some f =>
    let a := f.num x
    let b := f.num y
    if a.isNan || b.isNan then (false, if c = .eq then 0 else fNV)
    else
      let lt := numLt a b && !numEq a b
      match c with
      | .eq => (numEq a b, 0) | .lt => (lt, 0) | .le => (lt || numEq a b, 0)
  | none =>
    let a := intOf e t.uns x
    let b := intOf e t.uns y
    match c with
    | .eq => (x == y, 0) | .lt => (decide (a < b), 0) | .le => (decide (a ≤ b), 0)

/-- A comparison writes p[d]: e / 8 bits for each element, 0 for an inactive one (R188). -/
def cmpBody (c : VCmp) (g d : BitVec 3) (a b : Reg) : Body := fun s => do
  let t ← vecStart s (if c = .eq then fmtAny else fmtArith)
  let e := fmtBits t.fmt
  let pr := s.p g
  let rs := (List.range (512 / e)).map fun i =>
    if activeAt pr e i then cmpElem t c (s.elem t a i) (s.elem t b i) else (false, 0)
  let w := (List.range 64).foldl (fun r i => if (rs.getD (i / (e / 8)) (false, 0)).1 then r + 2 ^ i else r) 0
  let fl := rs.foldl (fun r x => r ||| x.2) 0
  .ok ((s.orFlags fl).enterVec .vector (some (.p d (BitVec.ofNat 64 w))), .seq)

def execVcmpeq (p : Bool) (g d : BitVec 3) (a b : Reg) (s : State) : Out :=
  runInstr p none [.v a, .v b, .p g, .p d] (cmpBody .eq g d a b) s
def execVcmplt (p : Bool) (g d : BitVec 3) (a b : Reg) (s : State) : Out :=
  runInstr p none [.v a, .v b, .p g, .p d] (cmpBody .lt g d a b) s
def execVcmple (p : Bool) (g d : BitVec 3) (a b : Reg) (s : State) : Out :=
  runInstr p none [.v a, .v b, .p g, .p d] (cmpBody .le g d a b) s

/-! ## Selection and movement (R189) -/

/-- VSEL: the predicate selects between v[a] and v[b]. -/
def execVsel (p : Bool) (g : BitVec 3) (d a b : Reg) (s : State) : Out :=
  runInstr p none (vRegs g d a b) (fun s => do
    let t ← vecStart s fmtAny
    let e := fmtBits t.fmt
    let v := vecOf e (mergeElems (s.p g) e (elems e (s.v b)) (elems e (s.v a)))
    .ok (s.enterVec .vector (some (.v d v)), .seq)) s

def execVmov (p : Bool) (g : BitVec 3) (d a : Reg) (s : State) : Out :=
  runInstr p none (vRegs1 g d a) (vecBody fmtAny g d fun s t i => (s.elem t a i, 0)) s

/-- VBCAST: a names an x register. -/
def execVbcast (p : Bool) (g : BitVec 3) (d a : Reg) (s : State) : Out :=
  runInstr p none [.x a, .p g, .v d] (vecBody fmtAny g d fun s t _ => ((s.x a).toNat % 2 ^ fmtBits t.fmt, 0)) s

/-- VINS: one element, where it is active. -/
def execVins (p : Bool) (g : BitVec 3) (d a b : Reg) (s : State) : Out :=
  runInstr p none [.x a, .x b, .p g, .v d] (vecBody fmtAny g d fun s t i =>
    let e := fmtBits t.fmt
    (if i = (s.x b).toNat % (512 / e) then (s.x a).toNat % 2 ^ e else s.elem t d i, 0)) s

/-- VEXT: one element to an x register. -/
def execVext (p : Bool) (g : BitVec 3) (d a b : Reg) (s : State) : Out :=
  runInstr p none [.v a, .x b, .p g, .x d] (fun s => do
    let t ← vecStart s fmtAny
    let e := fmtBits t.fmt
    let j := (s.x b).toNat % (512 / e)
    let w := s.elem t a j
    let r : Word :=
      if !activeAt (s.p g) e j then 0
      else if fmtIsInt t.fmt && !t.uns then signExt e w else BitVec.ofNat 64 w
    .ok (s.enterVec .vector (some (.x d r)), .seq)) s

/-- VPERM: indices in v[b], every source element read before any is written. -/
def execVperm (p : Bool) (g : BitVec 3) (d a b : Reg) (s : State) : Out :=
  runInstr p none (vRegs g d a b) (vecBody fmtAny g d fun s t i =>
    (s.elem t a (s.elem t b i % (512 / fmtBits t.fmt)), 0)) s

/-! ## Conversion (R190) -/

/-- VCVT (R190). -/
def execVcvt (p : Bool) (g : BitVec 3) (d a : Reg) (fmt : BitVec 4) (u : Bool) (s : State) : Out :=
  runInstr p none (vRegs1 g d a) (fun s => do
    let t ← vecStart s fmtArith
    let dst := fmt.toNat
    let vt := s.th.regs.csr.vtype.toNat
    if !fmtArith dst then .error (.trap 53 (BitVec.ofNat 64 (vt ||| ((b2n u * 16 + dst) * 256))))
    else
      let es := fmtBits t.fmt
      let ed := fmtBits dst
      let m := Nat.min (512 / es) (512 / ed)
      let pr := s.p g
      let rs := (List.range (512 / ed)).map fun i =>
        if m ≤ i then (0, (0 : BitVec 6))
        else if activeAt pr ed i then convertElem t.fmt dst t.uns u t.sat t.rm (s.elem t a i)
        else (((s.v d).extractLsb' (ed * i) ed).toNat, 0)
      let fl := rs.foldl (fun r x => r ||| x.2) 0
      .ok ((s.orFlags fl).enterVec .vector (some (.v d (vecOf ed (rs.map (·.1))))), .seq)) s

/-! ## Reductions (R178, R191) and functions (R177) -/

/-- One step of the tree: the upper half joins the lower (R178). -/
def treeStep (op : Nat → Nat → Nat × BitVec 6) (l : List (Nat × Bool)) (fl : BitVec 6) : List (Nat × Bool) × BitVec 6 :=
  let h := l.length / 2
  let rs := (List.range h).map fun i =>
    let a := l.getD i (0, false)
    let b := l.getD (i + h) (0, false)
    if a.2 && b.2 then
      let r := op a.1 b.1
      ((r.1, true), r.2)
    else if b.2 then (b, 0) else (a, 0)
  (rs.map (·.1), rs.foldl (fun f r => f ||| r.2) fl)

/-- The tree of R178: element 0 at the end, if any element was active. -/
def treeRun (op : Nat → Nat → Nat × BitVec 6) : Nat → List (Nat × Bool) → BitVec 6 → Option Nat × BitVec 6
  | 0, l, fl => (match l with | (v, true) :: _ => some v | _ => none, fl)
  | k + 1, l, fl =>
    if l.length ≤ 1 then (match l with | (v, true) :: _ => some v | _ => none, fl)
    else
      let (l, fl) := treeStep op l fl
      treeRun op k l fl

/-- The result with no active element (R178). -/
def emptyReduce (t : VType) (op : VOp) : Nat :=
  let e := fmtBits t.fmt
  match op, fmtFloat t.fmt with
  | .max, some f => f.infBits true
  | .min, some f => f.infBits false
  | .max, none => (BitVec.ofInt e (intLo e t.uns)).toNat
  | .min, none => (BitVec.ofInt e (intHi e t.uns)).toNat
  | _, _ => 0

/-- A reduction: element 0 the result, the others 0 (R191). -/
def reduceVecBody (op : VOp) (g : BitVec 3) (d a : Reg) : Body := fun s => do
  let t ← vecStart s fmtArith
  let e := fmtBits t.fmt
  let pr := s.p g
  let l := (List.range (512 / e)).map fun i => (s.elem t a i, activeAt pr e i)
  let (r, fl) := treeRun (fun x y => arithElem t op x y 0) 7 l 0
  let w := r.getD (emptyReduce t op)
  .ok ((s.orFlags fl).enterVec .vector (some (.v d (BitVec.ofNat 512 w))), .seq)

def execVrsum (p : Bool) (g : BitVec 3) (d a : Reg) (s : State) : Out := runInstr p none (vRegs1 g d a) (reduceVecBody .add g d a) s
def execVrmax (p : Bool) (g : BitVec 3) (d a : Reg) (s : State) : Out := runInstr p none (vRegs1 g d a) (reduceVecBody .max g d a) s
def execVrmin (p : Bool) (g : BitVec 3) (d a : Reg) (s : State) : Out := runInstr p none (vRegs1 g d a) (reduceVecBody .min g d a) s

/-- A function of R177. -/
def fnBody (fn : Fn) (g : BitVec 3) (d a : Reg) : Body :=
  vecBody fmtFn g d fun s t i =>
    let f := (fmtFloat t.fmt).getD fp32
    f.fn fn t.rm t.sat (f.num (s.elem t a i))

def execVrcp (p : Bool) (g : BitVec 3) (d a : Reg) (s : State) : Out := runInstr p none (vRegs1 g d a) (fnBody .rcp g d a) s
def execVrsqrt (p : Bool) (g : BitVec 3) (d a : Reg) (s : State) : Out := runInstr p none (vRegs1 g d a) (fnBody .rsqrt g d a) s
def execVexp2 (p : Bool) (g : BitVec 3) (d a : Reg) (s : State) : Out := runInstr p none (vRegs1 g d a) (fnBody .exp2 g d a) s
def execVlog2 (p : Bool) (g : BitVec 3) (d a : Reg) (s : State) : Out := runInstr p none (vRegs1 g d a) (fnBody .log2 g d a) s

/-! ## Types and predicates (R192) -/

/-- VSETT: the old VTYPE to x[d], the new from x[a]. -/
def execVsett (p : Bool) (d a : Reg) (s : State) : Out :=
  runInstr p none [.x a, .x d] (fun s =>
    let old := s.th.regs.csr.vtype
    let new := (s.x a).setWidth 8
    .ok ((s.setX d (old.setWidth 64)).setCsr 0x800 fun c => { c with vtype := new }, .seq)) s

/-- A predicate function: one result of the vector queue, VTYPE not checked (R182, R183, R192). -/
def predBody (w : State → RegVal) : Body := fun s =>
  if s.vecFull then .error (.stall .vecQueue) else .ok (s.enterVec .vector (some (w s)), .seq)

def execPand (p : Bool) (d a b : BitVec 3) (s : State) : Out :=
  runInstr p none [.p a, .p b, .p d] (predBody fun s => .p d (s.p a &&& s.p b)) s
def execPor (p : Bool) (d a b : BitVec 3) (s : State) : Out :=
  runInstr p none [.p a, .p b, .p d] (predBody fun s => .p d (s.p a ||| s.p b)) s
def execPnot (p : Bool) (d a : BitVec 3) (s : State) : Out :=
  runInstr p none [.p a, .p d] (predBody fun s => .p d (~~~(s.p a))) s
def execPcnt (p : Bool) (d : Reg) (a : BitVec 3) (s : State) : Out :=
  runInstr p none [.p a, .x d] (predBody fun s => .x d (BitVec.ofNat 64 (popOf 64 (s.p a).toNat))) s
def execPfirst (p : Bool) (d : Reg) (a : BitVec 3) (s : State) : Out :=
  runInstr p none [.p a, .x d] (predBody fun s => .x d (BitVec.ofNat 64 (ctzOf 64 (s.p a).toNat))) s
def execPset (p : Bool) (d : BitVec 3) (a : Reg) (s : State) : Out :=
  runInstr p none [.x a, .p d] (predBody fun s => .p d (s.x a)) s

/-! ## Vector memory (R193 to R195) -/

/-- The active elements of an instruction. -/
def activeList (p : Word) (e : Nat) : List Nat := (List.range (512 / e)).filter (activeAt p e)

/-- Addresses of the active elements, FATPTR where a sum is none (R168, R194). -/
def elemAddrs (base : Word) (off : Nat → Int) : List Nat → Except Stop (List Nat)
  | [] => .ok []
  | i :: is =>
    match pointerAddr base (off i) with
    | .error e => .error e
    | .ok a =>
      match elemAddrs base off is with
      | .error e => .error e
      | .ok r => .ok (a :: r)

/-- The offset of an element in each form (R194). -/
inductive VMem where
  | unit
  | stride (b : Reg)
  | index (b : Reg)
  deriving DecidableEq, Repr

def vmemOffset (s : State) (t : VType) (m : VMem) (i : Nat) : Int :=
  let e := fmtBits t.fmt
  match m with
  | .unit => i * (e / 8)
  | .stride b => i * (s.x b).toInt
  | .index b => intOf e false (s.elem t b i) * (e / 8)

def vmemRegs (m : VMem) (g : BitVec 3) (d a : Reg) : List RegName :=
  .x a :: (match m with | .unit => [] | .stride b => [.x b] | .index b => [.v b]) ++ [.p g, .v d]

/-- Elements put into a register at their places. -/
def placeElems (e : Nat) (old : List Nat) (is : List Nat) (bs : List (List Byte)) : List Nat :=
  (List.range (512 / e)).map fun i =>
    match (is.zip bs).find? fun q => q.1 == i with
    | some q => leNat q.2
    | none => old.getD i 0

/-- A vector load (R194). -/
def vloadBody (m : VMem) (g : BitVec 3) (d a : Reg) : Body := fun s => do
  let t ← vecStart s fmtAny
  let e := fmtBits t.fmt
  let base := s.x a
  let _ ← pointerAddr base 0
  let is := activeList (s.p g) e
  let addrs ← elemAddrs base (vmemOffset s t m) is
  let old := elems e (s.v d)
  let (s, bs) ← loadMany s (e / 8) false addrs
  .ok (s.enterVec .vector (some (.v d (vecOf e (placeElems e old is bs)))), .seq)

/-- A vector store: elements in ascending order (R194). -/
def vstoreBody (m : VMem) (g : BitVec 3) (d a : Reg) : Body := fun s => do
  let t ← vecStart s fmtAny
  let e := fmtBits t.fmt
  let base := s.x a
  let _ ← pointerAddr base 0
  let is := activeList (s.p g) e
  let addrs ← elemAddrs base (vmemOffset s t m) is
  let s ← storeMany s (addrs.zip (is.map fun i => leBytes (e / 8) (s.elem t d i)))
  .ok (s.enterVec .vector none, .seq)

def execVld (p : Bool) (g : BitVec 3) (d a : Reg) (s : State) : Out := runInstr p none (vmemRegs .unit g d a) (vloadBody .unit g d a) s
def execVst (p : Bool) (g : BitVec 3) (d a : Reg) (s : State) : Out := runInstr p none (vmemRegs .unit g d a) (vstoreBody .unit g d a) s
def execVlds (p : Bool) (g : BitVec 3) (d a b : Reg) (s : State) : Out :=
  runInstr p none (vmemRegs (.stride b) g d a) (vloadBody (.stride b) g d a) s
def execVsts (p : Bool) (g : BitVec 3) (d a b : Reg) (s : State) : Out :=
  runInstr p none (vmemRegs (.stride b) g d a) (vstoreBody (.stride b) g d a) s
def execVgath (p : Bool) (g : BitVec 3) (d a b : Reg) (s : State) : Out :=
  runInstr p none (vmemRegs (.index b) g d a) (vloadBody (.index b) g d a) s
def execVscat (p : Bool) (g : BitVec 3) (d a b : Reg) (s : State) : Out :=
  runInstr p none (vmemRegs (.index b) g d a) (vstoreBody (.index b) g d a) s

/-- The granule of a VLDL or VSTL: WB, AB or CSP, mode 0 (R195). -/
def vlocalPlace (s : State) (la : Word) : Except Stop LocalPlace :=
  let sp := bits la 63 60
  if sp = 1 ∨ sp = 2 ∨ sp = 4 then localPlace s sp (bits la 59 0) 64 0 false else .error (.trap 52 la)

/-- A place some bytes on. -/
def LocalPlace.plus (p : LocalPlace) (k : Nat) : LocalPlace :=
  match p with
  | .buf sp o => .buf sp (o + k)
  | .csp pa => .csp (pa + k)

/-- Reads the active elements of a granule. -/
def readElems (s : State) (pl : LocalPlace) (la n : Nat) : List Nat → Except Stop (State × List (List Byte))
  | [] => .ok (s, [])
  | i :: is =>
    match localRead s (pl.plus (i * n)) (la + i * n) n with
    | .error e => .error e
    | .ok (s, b) =>
      match readElems s pl la n is with
      | .error e => .error e
      | .ok (s, r) => .ok (s, b :: r)

/-- Writes the active elements of a granule. -/
def writeElems (s : State) (pl : LocalPlace) (la : Word) : List (Nat × List Byte) → Except Stop State
  | [] => .ok s
  | (o, b) :: r =>
    match localWrite s (pl.plus o) (la + BitVec.ofNat 64 o) b with
    | .error e => .error e
    | .ok s => writeElems s pl la r

/-- VLDL (R195). -/
def execVldl (p : Bool) (g : BitVec 3) (d a : Reg) (s : State) : Out :=
  runInstr p none [.x a, .p g, .v d] (fun s => do
    let t ← vecStart s fmtAny
    let e := fmtBits t.fmt
    let pl ← vlocalPlace s (s.x a)
    let is := activeList (s.p g) e
    let old := elems e (s.v d)
    let (s, bs) ← readElems s pl (s.x a).toNat (e / 8) is
    .ok (s.enterVec .local (some (.v d (vecOf e (placeElems e old is bs)))), .seq)) s

/-- VSTL (R195). -/
def execVstl (p : Bool) (g : BitVec 3) (d a : Reg) (s : State) : Out :=
  runInstr p none [.x a, .p g, .v d] (fun s => do
    let t ← vecStart s fmtAny
    let e := fmtBits t.fmt
    let pl ← vlocalPlace s (s.x a)
    let is := activeList (s.p g) e
    let s ← writeElems s pl (s.x a) (is.map fun i => (i * (e / 8), leBytes (e / 8) (s.elem t d i)))
    .ok (s.enterVec .vector none, .seq)) s

end Sys2Proof.Machine
end

