-- ==== Sys2Proof/Machine/Generator.lean ====
section
/-!
DEFINITION. Generator registers and their values: GSET, the mixing function, the tables TG and TC, GenValue
(00_scope R9, 13_vector_tile R211 to R214, 15_engines R243, R244).
-/
namespace Sys2Proof.Machine

/-- A tile instruction needs tile state in its slot (R21). -/
def needTile (i : Instr) (s : State) : Option Stop := if s.th.tile then none else some (illegal i)

/-! ## Fields (R211) -/

def gSeed (g : GReg) : Word := g.extractLsb' 0 64
def gScope (g : GReg) : Word := g.extractLsb' 64 64
def gRow (g : GReg) : Nat := (g.extractLsb' 128 32).toNat
def gCol (g : GReg) : Nat := (g.extractLsb' 160 32).toNat
def gParam (g : GReg) : Nat := (g.extractLsb' 192 32).toNat
def gKind (g : GReg) : Nat := (g.extractLsb' 224 3).toNat
def gOut (g : GReg) : Nat := (g.extractLsb' 228 4).toNat
def gLocal (g : GReg) : Bool := g.getLsbD 232

/-- A register with a field put in. -/
def gPut (g : GReg) (lsb n v : Nat) : GReg :=
  (g &&& ~~~(BitVec.ofNat 256 ((2 ^ n - 1) * 2 ^ lsb))) ||| BitVec.ofNat 256 (v % 2 ^ n * 2 ^ lsb)

/-- GSET writes one field group at issue (R212). -/
def gsetBody (gd : BitVec 3) (f : Word → GReg → GReg) (a : Reg) : Body := fun s =>
  .ok (s.setG gd (f (s.x a) (s.g gd)), .seq)

/-- GSET.K (R212). -/
def execGsetK (p : Bool) (gd : BitVec 3) (a : Reg) (s : State) : Out :=
  runInstr p (needTile (.gsetK p gd a) s) [.x a, .g gd]
    (gsetBody gd (fun w g => gPut (gPut g 224 3 (bits w 2 0)) 228 4 (bits w 7 4)) a) s

/-- GSET.SEED (R212). -/
def execGsetSeed (p : Bool) (gd : BitVec 3) (a : Reg) (s : State) : Out :=
  runInstr p (needTile (.gsetSeed p gd a) s) [.x a, .g gd] (gsetBody gd (fun w g => gPut g 0 64 w.toNat) a) s

/-- GSET.SCOPE (R212). -/
def execGsetScope (p : Bool) (gd : BitVec 3) (a : Reg) (loc : Bool) (s : State) : Out :=
  runInstr p (needTile (.gsetScope p gd a loc) s) [.x a, .g gd]
    (gsetBody gd (fun w g => gPut (gPut g 64 64 w.toNat) 232 1 (b2n loc)) a) s

/-- GSET.ORG (R212). -/
def execGsetOrg (p : Bool) (gd : BitVec 3) (a : Reg) (s : State) : Out :=
  runInstr p (needTile (.gsetOrg p gd a) s) [.x a, .g gd]
    (gsetBody gd (fun w g => gPut (gPut g 128 32 (bits w 31 0)) 160 32 (bits w 63 32)) a) s

/-- GSET.PAR (R212). -/
def execGsetPar (p : Bool) (gd : BitVec 3) (a : Reg) (s : State) : Out :=
  runInstr p (needTile (.gsetPar p gd a) s) [.x a, .g gd] (gsetBody gd (fun w g => gPut g 192 32 (bits w 31 0)) a) s

/-- A generator is valid (R214). -/
def gValid (g : GReg) : Bool :=
  let f := gOut g
  decide (gKind g ≤ 5) &&
  (decide (5 ≤ f) && decide (f ≤ 9) || (gKind g == 3 && decide (1 ≤ f) && decide (f ≤ 3)))

/-! ## Values (R9, R243, R244; log 15) -/

/-- TWMIX (R9). -/
def twmix (k : Word) (i j : Nat) : Word :=
  let c : Word := 0xD6E8FEB86659FD93
  let v := (BitVec.ofNat 64 (i % 2 ^ 32 * 2 ^ 32 ||| j % 2 ^ 32)) ^^^ k
  let v := (v ^^^ (v >>> 31)) * c
  let v := (v ^^^ (v >>> 32)) * c
  v ^^^ (v >>> 32)

/-- Fraction bits of the tables' series. -/
def tabBits : Nat := 200

/-- arctan(1/n) in fixed point. -/
def atanInv (n : Nat) : Int :=
  ((List.range 160).foldl (fun (st : Int × Nat) i =>
    (if i % 2 = 0 then st.1 + (st.2 / (2 * i + 1) : Nat) else st.1 - (st.2 / (2 * i + 1) : Nat), st.2 / (n * n)))
    (0, 2 ^ tabBits / n)).1

/-- Pi in fixed point: 16 arctan(1/5) - 4 arctan(1/239). -/
def piFix : Int := 16 * atanInv 5 - 4 * atanInv 239

/-- cos y for a fixed-point y from 0 to pi / 2. -/
def cosFix (y : Int) : Int :=
  let y2 := y * y / (2 ^ tabBits : Nat)
  ((List.range 40).foldl (fun (st : Int × Int) i =>
    let t := -(st.2 * y2 / (2 ^ tabBits : Nat)) / ((2 * i + 1) * (2 * i + 2) : Nat)
    (st.1 + t, t)) ((2 ^ tabBits : Nat), (2 ^ tabBits : Nat))).1

/-- TC[k] = RNE32(cos(2 pi k / 4096)), as FP32 bits (R244). -/
def tableTC (k : Nat) : Nat :=
  let m := k % 4096
  let m := if 2048 < m then 4096 - m else m
  let neg := decide (1024 < m)
  let m := if neg then 2048 - m else m
  if m = 0 then (if neg then 0xBF800000 else 0x3F800000)
  else if m = 1024 then 0
  else (rne32 (sticky neg (cosFix (2 * piFix * m / 4096)).toNat (-(tabBits : Int)) true)).1

/-- The series of Phi(x) - 1/2 times sqrt(2 pi), for a fixed-point x. -/
def phiFix (x : Nat) : Int :=
  let h := x * x / 2 ^ (tabBits + 1)
  ((List.range 80).foldl (fun (st : Int × Nat) i =>
    let t := st.2
    (if i % 2 = 0 then st.1 + (t / (2 * i + 1) : Nat) else st.1 - (t / (2 * i + 1) : Nat), t * h / 2 ^ tabBits / (i + 1)))
    (0, x)).1

/-- Bisection: the largest fixed-point x, bit by bit below the fuel, whose series squared times `den` squared does not
exceed `num` squared times 2 pi. -/
def phiSearch (num den : Nat) : Nat → Nat → Nat
  | 0, x => x
  | k + 1, x =>
    let y := x + 2 ^ (tabBits + 3 - 100 + k)
    let f := phiFix y
    if f * f * (den * den : Nat) ≤ 2 * piFix * (2 ^ tabBits : Nat) * (num * num : Nat) then phiSearch num den k y
    else phiSearch num den k x

/-- TG[k] = RNE32 of the inverse normal distribution at (k + 0.5) / 4097, as FP32 bits (R244). -/
def tableTG (k : Nat) : Nat :=
  if k = 2048 then 0
  else
    let neg := decide (k < 2048)
    let d := if neg then 2048 - k else k - 2048
    -- (k + 0.5) / 4097 - 1/2 = (k - 2048) / 4097
    (rne32 (sticky neg (phiSearch d 4097 100 0) (-(tabBits : Int)) true)).1

/-- Table interpolation: RNE32(d * f + T[x]) with d = RNE32(T[x + 1] - T[x]) (R243). -/
def interpolate (tab : Nat → Nat) (x : Nat) (f : Num) : Nat :=
  let a := fp32.num (tab x)
  let b := fp32.num (tab (x + 1))
  let d := fp32.num (rne32 (numAdd .rne b (numNegate a))).1
  (rne32 (numAdd .rne (numMul d f) a)).1

/-- GenValue before Convert, as FP32 bits or an exact 0 or 1 (R243). `rope` gives the frequency table's entry for a
column J. -/
def genRaw (g : GReg) (lk : Word) (rope : Nat → Nat) (i j : Nat) : Num :=
  let I := (i + gRow g) % 2 ^ 32
  let J := (j + gCol g) % 2 ^ 32
  let k := gSeed g ^^^ gScope g
  let k := if gLocal g then k ^^^ lk else k
  let h := twmix k I J
  let par := fp32.num (gParam g)
  match gKind g with
  | 0 => fp32.num (gParam g ^^^ (b2n (h.getLsbD 63) * 2 ^ 31))
  | 1 => fp32.num (rne32 (numMul (.fin false (2 * bits h 63 40 + 1) (-25)) par)).1
  | 2 =>
    let y := fp32.num (interpolate tableTG (bits h 63 52) (.fin false (bits h 51 28) (-24)))
    fp32.num (rne32 (numMul y par)).1
  | 3 => .fin false (b2n (decide (bits h 15 0 < gParam g % 65536))) 0
  | n =>
    let a := I * rope J % 2 ^ 32
    let a := if n = 5 then (a + 2 ^ 32 - 0x40000000) % 2 ^ 32 else a
    fp32.num (interpolate tableTC (a / 2 ^ 20) (.fin false (a % 2 ^ 20) (-20)))

/-- Convert to OUTFMT: RNE and saturating (R172, R243). -/
def genConvert (out : Nat) (y : Num) : Nat × BitVec 6 :=
  match fmtFloat out with
  | some f => f.ofNum .rne true y
  | none => numToFit (fmtBits out) false true .rne y

/-- GenValue (R243). -/
def genValue (g : GReg) (lk : Word) (rope : Nat → Nat) (i j : Nat) : Nat × BitVec 6 :=
  genConvert (gOut g) (genRaw g lk rope i j)

/-- The offset in AB of the frequency-table entry for a column position j (R243). -/
def ropeOffset (g : GReg) (j : Nat) : Nat := gParam g + 4 * ((j + gCol g) % 2 ^ 32)

/-- Reads four bytes of AB as a core load, byte by byte (R114, R123). -/
def readRope (s : State) (o : Nat) : Except Stop (State × Nat) := do
  if 262144 < o + 4 then .error (localStop 2 o)
  else
    let (s, a) ← bufRead s .ab o 1
    let (s, b) ← bufRead s .ab (o + 1) 1
    let (s, c) ← bufRead s .ab (o + 2) 1
    let (s, d) ← bufRead s .ab (o + 3) 1
    .ok (s, leNat (a ++ b ++ c ++ d))

/-- Reads the frequency entries of columns 0 to n - 1, where the kind is a ROPE. -/
def readRopes (s : State) (g : GReg) (n : Nat) : Except Stop (State × List (Nat × Nat)) :=
  if gKind g < 4 then .ok (s, [])
  else
    (List.range n).foldlM (fun (st : State × List (Nat × Nat)) j => do
      let (s, f) ← readRope st.1 (ropeOffset g j)
      .ok (s, st.2 ++ [((j + gCol g) % 2 ^ 32, f)])) (s, [])

end Sys2Proof.Machine
end

