-- ==== Sys2Proof/Machine/Tile.lean ====
section
/-!
DEFINITION. Tile instructions: movement, accumulator tiles, conversion, generation and products
(13_vector_tile R196 to R210).
-/
namespace Sys2Proof.Machine

/-! ## Shapes (R198) -/

/-- TILESHAPE (R198). -/
def tileShape : Stop := .trap 51 0

/-- The shape and format of a tile at use (R198). -/
structure Shape where
  fmt   : Nat
  rows  : Nat
  cb    : Nat
  sbase : Nat
  /-- codes of a block, for Q4 and Q4I -/
  blk   : Nat
  deriving DecidableEq, Repr

/-- Element bits. -/
def Shape.e (h : Shape) : Nat := fmtBits h.fmt
/-- Elements of a row. -/
def Shape.k (h : Shape) : Nat := h.cb * 8 / h.e
def Shape.q4 (h : Shape) : Bool := h.fmt == 10 || h.fmt == 11
/-- Blocks of a row of a 4-bit tile. -/
def Shape.rowBlocks (h : Shape) : Nat := 2 * h.cb / h.blk

/-- Fields of a TSHAPE (R196). -/
def shapeFields (w : BitVec 32) : Shape :=
  { fmt := (w.extractLsb' 0 4).toNat, rows := (w.extractLsb' 4 4).toNat + 1, cb := (w.extractLsb' 8 7).toNat + 1
    sbase := (w.extractLsb' 16 12).toNat, blk := 2 ^ (w.extractLsb' 28 4).toNat }

/-- The shape is usable (R198). -/
def Shape.ok (h : Shape) : Bool :=
  decide (h.cb ≤ 64) && decide (h.fmt < 13) &&
  if h.q4 then
    decide (8 ≤ h.blk) && decide (h.blk ≤ 128) && h.cb * 2 % h.blk == 0 &&
      (h.fmt != 11 || decide (h.rows * h.rowBlocks ≤ 32))
  else h.cb % (h.e / 8) == 0

/-- TSHAPE of a tile register. -/
def State.tshape (s : State) (n : BitVec 3) : BitVec 32 := s.th.regs.csr.tshape[n.toNat]'(n.isLt)

/-- The checked shape of a tile. -/
def needShape (w : BitVec 32) : Except Stop Shape :=
  if (shapeFields w).ok then .ok (shapeFields w) else .error tileShape

/-- Writes TSHAPE under capture. -/
def State.setTshape (s : State) (n : BitVec 3) (w : BitVec 32) : State :=
  s.setCsr (0x810 + n.setWidth 12) fun c => { c with tshape := c.tshape.set n.toNat w n.isLt }

/-- Adds to TSAT, stopping at its largest value (R197). -/
def State.addTsat (s : State) (n : BitVec 3) (k : Nat) : State :=
  if k = 0 then s
  else s.setCsr (0x818 + n.setWidth 12) fun c =>
    let old := (c.tsat[n.toNat]'(n.isLt)).toNat
    { c with tsat := c.tsat.set n.toNat (BitVec.ofNat 32 (Nat.min (old + k) 0xFFFFFFFF)) n.isLt }

/-- FMT and BLKEXP put into a TSHAPE. -/
def tshapeFormat (w : BitVec 32) (fmt blkexp : Nat) : BitVec 32 :=
  ((w &&& 0x0FFFFFF0) ||| BitVec.ofNat 32 (fmt % 16)) ||| BitVec.ofNat 32 (blkexp % 16 * 2 ^ 28)

/-! ## Elements (R196, R198) -/

/-- Element k of row r, of e bits. -/
def tileElem (t : BitVec 8192) (e r k : Nat) : Nat := (t.extractLsb' (r * 512 + k * e) e).toNat

/-- A row of elements, of e bits each, as a number. -/
def rowOf (e : Nat) (vs : List Nat) : Nat := vs.foldr (fun v n => v % 2 ^ e + 2 ^ e * n) 0

/-- A tile's bytes from its rows, each a number below 2^512; what is not given is zero. -/
def rowsOf (rows : List Nat) : BitVec 8192 := BitVec.ofNat 8192 (rowOf 512 rows)

/-- A tile's bytes from its elements. -/
def tileFrom (h : Shape) (f : Nat → Nat → Nat) : BitVec 8192 :=
  rowsOf ((List.range h.rows).map fun r => rowOf h.e ((List.range h.k).map fun k => f r k))

/-- Conditions and saturations of the elements of a tile. -/
def gather (rows cols : Nat) (f : Nat → Nat → BitVec 6) : BitVec 6 × Nat :=
  (List.range rows).foldl (fun st r =>
    (List.range cols).foldl (fun (st : BitVec 6 × Nat) c =>
      (st.1 ||| f r c, st.2 + b2n ((f r c).getLsbD 5))) st) (0, 0)

/-- Block-scale bytes of a 4-bit tile: from ST for Q4, from the scale side for Q4I (R166, R198). -/
def readScales (s : State) (h : Shape) (t : Tile) : Except Stop (State × List Nat) :=
  if !h.q4 then .ok (s, [])
  else if h.fmt = 11 then
    .ok (s, (List.range (h.rows * h.rowBlocks)).map fun j => (t.side.extractLsb' (8 * j) 8).toNat)
  else
    (List.range (h.rows * h.rowBlocks)).foldlM (fun (st : State × List Nat) j => do
      if 4096 ≤ h.sbase + j then .error (localStop 5 (h.sbase + j))
      else
        let (s, b) ← bufRead st.1 .st (h.sbase + j) 1
        .ok (s, st.2 ++ [leNat b])) (s, [])

/-- An element of a float or 4-bit tile, exactly (R165, R198). -/
def elemNum (h : Shape) (scales : List Nat) (t : Tile) (r k : Nat) : Num :=
  let w := tileElem t.bytes h.e r k
  match fmtFloat h.fmt with
  | some f => f.num w
  | none => q4Num (scales.getD (r * h.rowBlocks + k / h.blk) 0) w

/-! ## Memory (R200) -/

/-- The pieces of a run of bytes that lie within one line each. -/
def pieces : Nat → Nat → Nat → List (Nat × Nat)
  | 0, _, _ => []
  | fuel + 1, a, n =>
    if n = 0 then []
    else
      let k := Nat.min n (64 - a % 64)
      (a, k) :: pieces fuel (a + k) (n - k)

/-- Bytes of a row in memory (R200). -/
def Shape.rowBytes (h : Shape) : Nat := if h.fmt = 11 then h.cb + h.rowBlocks else h.cb

/-- Start addresses of the rows, with the pointer checks of their first and last bytes and the alignment check that
come first for each (R168, R200). -/
def rowStart (s : State) (h : Shape) (a : Reg) (pitched : Bool) (acc : Acc) (r : Nat) : Except Stop Nat := do
  let base := s.x a
  let off : Int := if pitched then r * (s.x (a + 1)).toInt else r * h.rowBytes
  let va ← pointerAddr base off
  let _ ← pointerAddr base (off + (h.rowBytes - 1 : Nat))
  if !h.q4 && va % (h.e / 8) != 0 then .error (.trap (misaligned acc) (BitVec.ofNat 64 va)) else .ok va

/-- Reads a run of bytes of global memory, each piece a plain read. -/
def loadSpan (s : State) : List (Nat × Nat) → Except Stop (State × List Byte)
  | [] => .ok (s, [])
  | (va, n) :: r =>
    match translateTh s .load va with
    | .error e => .error e
    | .ok (s, pa, _) =>
      match readPlain s pa n va false with
      | .error e => .error e
      | .ok (s, b) =>
        match loadSpan s r with
        | .error e => .error e
        | .ok (s, bs) => .ok (s, b ++ bs)

/-- Writes a run of bytes of global memory, each piece a plain write. -/
def storeSpan (s : State) (bs : List Byte) : List (Nat × Nat) → Except Stop State
  | [] => .ok s
  | (va, n) :: r =>
    match storeAt s va (bs.take n) with
    | .error e => .error e
    | .ok s => storeSpan s (bs.drop n) r

/-- A row's memory bytes to its codes and scales: for Q4I each block's codes are followed by its scale (R166, R200). -/
def splitRow (h : Shape) (bs : List Byte) : List Byte × List Byte :=
  if h.fmt = 11 then
    let runs := runsOf (h.blk / 2 + 1) (bs.length + 1) bs
    (runs.flatMap fun r => r.take (h.blk / 2), runs.flatMap fun r => r.drop (h.blk / 2))
  else (bs, [])

/-- The memory bytes of a row. -/
def joinRow (h : Shape) (t : Tile) (r : Nat) : List Byte :=
  let codes := leBytes h.cb (t.bytes.extractLsb' (r * 512) 512).toNat
  if h.fmt = 11 then
    (List.range h.rowBlocks).flatMap fun j =>
      (codes.drop (j * (h.blk / 2))).take (h.blk / 2) ++
        [t.side.extractLsb' (8 * (r * h.rowBlocks + j)) 8]
  else codes

/-- The rows of a TLD, in ascending order. -/
def loadRows (s : State) (h : Shape) (a : Reg) (pitched : Bool) : List Nat → Except Stop (State × List (List Byte))
  | [] => .ok (s, [])
  | r :: rs =>
    match rowStart s h a pitched .load r with
    | .error e => .error e
    | .ok va =>
      match loadSpan s (pieces 4 va h.rowBytes) with
      | .error e => .error e
      | .ok (s, bs) =>
        match loadRows s h a pitched rs with
        | .error e => .error e
        | .ok (s, rest) => .ok (s, bs :: rest)

/-- The rows of a TST, in ascending order. -/
def storeRows (s : State) (h : Shape) (a : Reg) (pitched : Bool) (t : Tile) : List Nat → Except Stop State
  | [] => .ok s
  | r :: rs =>
    match rowStart s h a pitched .store r with
    | .error e => .error e
    | .ok va =>
      match storeSpan s (joinRow h t r) (pieces 4 va h.rowBytes) with
      | .error e => .error e
      | .ok s => storeRows s h a pitched t rs

/-- Registers of TLD and TST. -/
def tileMemRegs (td : BitVec 3) (a : Reg) (pitched : Bool) : List RegName :=
  .x a :: (if pitched then [.x (a + 1)] else []) ++ [.tl td]

/-- TLD (R200). -/
def execTld (p : Bool) (td : BitVec 3) (a : Reg) (pitched : Bool) (s : State) : Out :=
  runInstr p (needTile (.tld p td a pitched) s) (tileMemRegs td a pitched) (fun s => do
    let base := s.x a
    let _ ← pointerAddr base 0
    let f := bits base 63 60
    let s := if f = 0 then s else s.setTshape td (tshapeFormat (s.tshape td) f (bits base 59 56))
    let h ← needShape (s.tshape td)
    let (s, rows) ← loadRows s h a pitched (List.range h.rows)
    let parts := rows.map (splitRow h)
    let t : Tile := { bytes := rowsOf (parts.map fun q => leNat q.1), side := BitVec.ofNat 256 (leNat (parts.flatMap (·.2))) }
    .ok (s.setLong .tile (.tl td t) none, .seq)) s

/-- TST (R200). -/
def execTst (p : Bool) (td : BitVec 3) (a : Reg) (pitched : Bool) (s : State) : Out :=
  runInstr p (needTile (.tst p td a pitched) s) (tileMemRegs td a pitched) (fun s => do
    let base := s.x a
    let _ ← pointerAddr base 0
    let f := bits base 63 60
    let w := s.tshape td
    if f ≠ 0 ∧ (f ≠ (w.extractLsb' 0 4).toNat ∨ bits base 59 56 ≠ (w.extractLsb' 28 4).toNat) then .error tileShape
    else
      let h ← needShape w
      let s ← storeRows s h a pitched (s.tl td) (List.range h.rows)
      .ok (s, .seq)) s

/-! ## In-register movements (R201) -/

def execTzero (p : Bool) (td : BitVec 3) (s : State) : Out :=
  runInstr p (needTile (.tzero p td) s) [.tl td] (fun s =>
    .ok (s.setLong .tile (.tl td ⟨0, 0⟩) none, .seq)) s

/-- TFILL (R201). -/
def execTfill (p : Bool) (td : BitVec 3) (a : Reg) (s : State) : Out :=
  runInstr p (needTile (.tfill p td a) s) [.x a, .tl td] (fun s => do
    let h ← needShape (s.tshape td)
    let v := ((s.x a).signExtend 128).toNat
    let side := if h.fmt = 11 then rowOf 8 (List.replicate (h.rows * h.rowBlocks) (bits (s.x a) 15 8)) else 0
    .ok (s.setLong .tile (.tl td ⟨tileFrom h fun _ _ => v, BitVec.ofNat 256 side⟩) none, .seq)) s

/-- A tile with every byte outside its shape, and every scale byte beyond its blocks, zero (R198). Of a row of a shape that
is not usable at most its 64 bytes stay. -/
def Tile.within (t : Tile) (h : Shape) : Tile :=
  let row := fun (r : Nat) => (t.bytes.extractLsb' (r * 512) (8 * Nat.min 64 h.cb)).toNat
  let blocks := if h.fmt = 11 then Nat.min 32 (h.rows * h.rowBlocks) else 0
  { bytes := rowsOf ((List.range h.rows).map row), side := (t.side.extractLsb' 0 (8 * blocks)).setWidth 256 }

/-- TMOV: the source within its shape, with its TSHAPE (R198, R201; log 39). -/
def execTmov (p : Bool) (td ta : BitVec 3) (s : State) : Out :=
  runInstr p (needTile (.tmov p td ta) s) [.tl ta, .tl td] (fun s =>
    let t := (s.tl ta).within (shapeFields (s.tshape ta))
    .ok ((s.setTshape td (s.tshape ta)).setLong .tile (.tl td t) none, .seq)) s

/-- TTRANS (R201). -/
def execTtrans (p : Bool) (td ta : BitVec 3) (s : State) : Out :=
  runInstr p (needTile (.ttrans p td ta) s) [.tl ta, .tl td] (fun s => do
    let w := s.tshape ta
    let h ← needShape w
    if h.q4 || decide (16 < h.k) || decide (64 < h.rows * h.e / 8) then .error tileShape
    else
      let w' := (w &&& 0xFFFF000F) ||| BitVec.ofNat 32 ((h.k - 1) * 16 + (h.rows * h.e / 8 - 1) * 256)
      let old := (s.tl ta).bytes
      let t := tileFrom (shapeFields w') fun j i => tileElem old h.e i j
      .ok ((s.setTshape td w').setLong .tile (.tl td ⟨t, 0⟩) none, .seq)) s

/-! ## Accumulator tiles (R202) -/

/-- The CB offset of an accumulator window, or LOCALADDR. -/
def accWindow (s : State) (w : Word) : Except Stop Nat :=
  let o := bits w 59 0
  if bits w 63 60 = 3 ∧ o % 64 = 0 ∧ o % 16384 / 256 ≤ 48 ∧ o < 262144 ∧ windowHas s.th.regs.csr.cbwin o then .ok o
  else .error (.trap 52 w)

/-- ACLD (R202): sixteen rows of 64 bytes of CB. -/
def execAcld (p : Bool) (td : BitVec 2) (a : Reg) (s : State) : Out :=
  runInstr p (needTile (.acld p td a) s) [.x a, .ta td] (fun s => do
    let o ← accWindow s (s.x a)
    let (s, rows) ← (List.range 16).foldlM (fun (st : State × List Nat) r => do
      let (s, b) ← bufRead st.1 .cb (o + r * 256) 64
      .ok (s, st.2 ++ [leNat b])) (s, [])
    .ok (s.setLong .tile (.ta td (rowsOf rows)) none, .seq)) s

/-- The first byte of the window that an installed command writes, and whether one reads any (R123). -/
def windowBusy (c : Core) (o : Nat) : Option Nat × Bool :=
  let reach := fun (r : Nat) => c.sb.filterMap fun e =>
    match e.range with
    | some (.cb, b, m, w) => if rangesMeet (o + r * 256) 64 b m then some (Nat.max b (o + r * 256), w) else none
    | _ => none
  let hits := (List.range 16).flatMap reach
  let written := (hits.filter fun h => h.2).map (·.1)
  (match written with | [] => none | b :: bs => some (bs.foldl Nat.min b), !hits.isEmpty)

/-- ACST (R202): ACCBUSY where a command writes, a wait where one reads (R123). -/
def execAcst (p : Bool) (td : BitVec 2) (a : Reg) (s : State) : Out :=
  runInstr p (needTile (.acst p td a) s) [.x a, .ta td] (fun s => do
    let o ← accWindow s (s.x a)
    match windowBusy (s.coreOf s.th.placeCore) o with
    | (some b, _) => .error (.trap 25 (BitVec.ofNat 64 (3 * 2 ^ 60 + b)))
    | (none, true) => .error (.stall .scoreboard)
    | (none, false) =>
      let old := s.ta td
      let s ← (List.range 16).foldlM (fun (s : State) r =>
        bufPut s .cb (o + r * 256) (leBytes 64 (old.extractLsb' (r * 512) 512).toNat)) s
      .ok (s, .seq)) s

def execAcz (p : Bool) (td : BitVec 2) (s : State) : Out :=
  runInstr p (needTile (.acz p td) s) [.ta td] (fun s => .ok (s.setLong .tile (.ta td 0) none, .seq)) s

/-- TCVT (R203). -/
def execTcvt (p : Bool) (td : BitVec 3) (ta : BitVec 2) (s : State) : Out :=
  runInstr p (needTile (.tcvt p td ta) s) [.ta ta, .tl td] (fun s => do
    let h ← needShape (s.tshape td)
    if !(decide (1 ≤ h.fmt) && decide (h.fmt ≤ 3) || decide (5 ≤ h.fmt) && decide (h.fmt ≤ 9)) || decide (16 < h.k) then
      .error tileShape
    else
      let acc := s.ta ta
      let conv := fun (r c : Nat) =>
        let w := tileElem acc 32 r c
        match fmtFloat h.fmt with
        | some f => f.ofNum .rne true (fp32.num w)
        | none => convFit h.e false true (intOf 32 false w)
      let (fl, n) := gather h.rows h.k fun r c => (conv r c).2
      .ok (((s.orFlags fl).addTsat td n).setLong .tile (.tl td ⟨tileFrom h fun r c => (conv r c).1, 0⟩) none, .seq)) s

/-- VTYPEBAD for a generator that is not valid (R214). -/
def needGenerator (g : GReg) : Except Stop Unit :=
  if gValid g then .ok () else .error (.trap 53 (g.extractLsb' 192 64))

/-- The frequency of a column from the entries read. -/
def ropeOf (fs : List (Nat × Nat)) (j : Nat) : Nat := (tabFind fs j).getD 0

/-- TGEN (R204). -/
def execTgen (p : Bool) (td g : BitVec 3) (tr : Bool) (s : State) : Out :=
  runInstr p (needTile (.tgen p td g tr) s) [.g g, .tl td] (fun s => do
    let gv := s.g g
    needGenerator gv
    let s := s.setTshape td (tshapeFormat (s.tshape td) (gOut gv) 0)
    let h ← needShape (s.tshape td)
    let (s, fs) ← readRopes s gv (if tr then h.rows else h.k)
    let val := fun (r c : Nat) =>
      if tr then genValue gv s.th.regs.csr.launchkey (ropeOf fs) c r
      else genValue gv s.th.regs.csr.launchkey (ropeOf fs) r c
    let (fl, n) := gather h.rows h.k fun r c => (val r c).2
    .ok (((s.orFlags fl).addTsat td n).setLong .tile (.tl td ⟨tileFrom h fun r c => (val r c).1, 0⟩) none, .seq)) s

/-! ## Products (R205 to R209, R173 to R176) -/

/-- An operand of a product: its elements exactly, or as integers. -/
structure MatOperand where
  fmt  : Nat
  num  : Nat → Nat → Num
  int  : Nat → Nat → Int

/-- A tile as an operand. -/
def tileOperand (h : Shape) (scales : List Nat) (t : Tile) : MatOperand :=
  { fmt := h.fmt, num := elemNum h scales t, int := fun r k => intOf 8 false (tileElem t.bytes h.e r k) }

/-- The formats of a product: I8 with I8, or two of the float and 4-bit formats (R205). -/
def fmtPairOk (fa fb : Nat) : Bool :=
  (fa == 1 && fb == 1) || (decide (5 ≤ fa) && decide (fa ≤ 11) && decide (5 ≤ fb) && decide (fb ≤ 11))

/-- Group length of a float product (R173). -/
def groupLen (fa fb : Nat) : Nat := if (5 ≤ fa ∧ fa ≤ 7) ∨ (5 ≤ fb ∧ fb ≤ 7) then 8 else 32

/-- FP32 NaN. -/
def isNan32 (w : Nat) : Bool := (fp32.num w).isNan

/-- ta + A B over m rows, n columns and k positions, as elements with conditions: the accumulator, the conditions, the
count of saturated elements, and the first new NaN (R173, R174, R176). -/
def product (acc : BitVec 8192) (a b : MatOperand) (m n k : Nat) : BitVec 8192 × BitVec 6 × Nat × Option (Nat × Nat) :=
  let el := fun (i j : Nat) =>
    let old := tileElem acc 32 i j
    if i < m ∧ j < n then
      if a.fmt = 1 then
        let (v, sat) := intElement (intOf 32 false old) ((List.range k).map fun q => a.int i q * b.int j q)
        ((BitVec.ofInt 32 v).toNat, if sat then fSAT else 0)
      else matElement (groupLen a.fmt b.fmt) old ((List.range k).map fun q => numMul (a.num i q) (b.num j q))
    else (old, 0)
  let cells := (List.range 16).map fun i => (List.range 16).map fun j => el i j
  let fl := cells.foldl (fun f r => r.foldl (fun f c => f ||| c.2) f) (0 : BitVec 6)
  let sat := if a.fmt = 1 then cells.foldl (fun q r => q + (r.filter fun c => c.2 == fSAT).length) 0 else 0
  let news := if a.fmt = 1 then [] else
    ((List.range 16).flatMap fun i => (List.range 16).map fun j => (i, j)).filter fun q =>
      isNan32 ((cells.getD q.1 []).getD q.2 (0, 0)).1 && !isNan32 (tileElem acc 32 q.1 q.2)
  (rowsOf (cells.map fun r => rowOf 32 (r.map (·.1))), fl, sat, news.head?)

/-- Delivers a product: NANTRAP, the conditions, TSAT, and the result; with NTRAP it has returned before the next
instruction (R176, R197, R209). -/
def deliver (s : State) (td : BitVec 2) (r : BitVec 8192 × BitVec 6 × Nat × Option (Nat × Nat)) (fl : BitVec 6) (sat : Nat) :
    Except Stop (State × After) :=
  let ntrap := s.th.regs.csr.nctl
  match (if ntrap then r.2.2.2 else none) with
  | some (i, j) => .error (.trap 28 (BitVec.ofNat 64 (i * 256 + j)))
  | none =>
    let s := (s.orFlags (r.2.1 ||| fl)).addTsat (td.setWidth 3) (r.2.2.1 + sat)
    let s := if ntrap then (s.markPending (.ta td)).modRegs (·.put (.ta td r.1)) else s.setLong .tile (.ta td r.1) none
    .ok (s, .seq)

/-- The dimensions N of B and whether its shared dimension is K (R205). -/
def bDims (h : Shape) (tr : Bool) (k : Nat) : Option Nat :=
  if tr then (if h.rows = k ∧ h.k ≤ 16 then some h.k else none) else (if h.k = k then some h.rows else none)

/-- B with its rows and columns exchanged where the instruction says so. -/
def MatOperand.turned (b : MatOperand) (tr : Bool) : MatOperand :=
  if tr then { b with num := fun r k => b.num k r, int := fun r k => b.int k r } else b

/-- TMMA (R205). -/
def execTmma (p : Bool) (td : BitVec 2) (ta tb : BitVec 3) (tr : Bool) (s : State) : Out :=
  runInstr p (needTile (.tmma p td ta tb tr) s) [.tl ta, .tl tb, .ta td] (fun s => do
    let ha ← needShape (s.tshape ta)
    let hb ← needShape (s.tshape tb)
    match (if fmtPairOk ha.fmt hb.fmt then bDims hb tr ha.k else none) with
    | none => .error tileShape
    | some n =>
      let (s, sa) ← readScales s ha (s.tl ta)
      let (s, sb) ← readScales s hb (s.tl tb)
      let a := tileOperand ha sa (s.tl ta)
      let b := (tileOperand hb sb (s.tl tb)).turned tr
      deliver s td (product (s.ta td) a b ha.rows n ha.k) 0 0) s

/-- Indices of a group of the 2:4 form (R206). -/
def metaPair (t : BitVec 8192) (i q : Nat) : Nat × Nat :=
  let n := tileElem t 4 i q
  (n % 4, n / 4)

/-- A position of the expanded 2:4 form: value 0 or 1 of its group, or +0 (R175, R206). -/
def sparseAt {α : Type} (pair : Nat → Nat → Nat × Nat) (f : Nat → Nat → α) (z : α) (i k : Nat) : α :=
  if k % 4 = (pair i (k / 4)).1 then f i (k / 4 * 2)
  else if k % 4 = (pair i (k / 4)).2 then f i (k / 4 * 2 + 1) else z

/-- The expanded A of the 2:4 form (R175, R206). -/
def expand (a : MatOperand) (pair : Nat → Nat → Nat × Nat) : MatOperand :=
  { a with num := sparseAt pair a.num (.fin false 0 0), int := sparseAt pair a.int 0 }

/-- TMMAS (R206). -/
def execTmmas (p : Bool) (td : BitVec 2) (ta tb tm : BitVec 3) (tr : Bool) (s : State) : Out :=
  runInstr p (needTile (.tmmas p td ta tb tm tr) s) [.tl ta, .tl tb, .tl tm, .ta td] (fun s => do
    let ha ← needShape (s.tshape ta)
    let hb ← needShape (s.tshape tb)
    let k := 2 * ha.k
    match (if fmtPairOk ha.fmt hb.fmt && !ha.q4 && k % 4 == 0 then bDims hb tr k else none) with
    | none => .error tileShape
    | some n =>
      let pair := metaPair (s.tl tm).bytes
      let groups := (List.range ha.rows).flatMap fun i => (List.range (k / 4)).map fun q => (i, q)
      match groups.find? fun g => decide ((pair g.1 g.2).2 ≤ (pair g.1 g.2).1) with
      | some (i, q) => .error (.trap 51 (BitVec.ofNat 64 (65536 + i * 256 + q)))
      | none =>
        let (s, sb) ← readScales s hb (s.tl tb)
        let a := expand (tileOperand ha [] (s.tl ta)) pair
        let b := (tileOperand hb sb (s.tl tb)).turned tr
        deliver s td (product (s.ta td) a b ha.rows n k) 0 0) s

/-- TMMAG (R207): B from a generator, its conditions and saturations counted over the k by 16 values used. -/
def execTmmag (p : Bool) (td : BitVec 2) (ta g : BitVec 3) (tr : Bool) (s : State) : Out :=
  runInstr p (needTile (.tmmag p td ta g tr) s) [.tl ta, .g g, .ta td] (fun s => do
    let gv := s.g g
    needGenerator gv
    let ha ← needShape (s.tshape ta)
    let out := gOut gv
    if !fmtPairOk ha.fmt out then .error tileShape
    else
      let (s, sa) ← readScales s ha (s.tl ta)
      let (s, fs) ← readRopes s gv (if tr then 16 else ha.k)
      let val := fun (j k : Nat) =>
        if tr then genValue gv s.th.regs.csr.launchkey (ropeOf fs) k j
        else genValue gv s.th.regs.csr.launchkey (ropeOf fs) j k
      let cells := (List.range 16).map fun j => (List.range ha.k).map fun k => val j k
      let at_ := fun (j k : Nat) => ((cells.getD j []).getD k (0, 0)).1
      let b : MatOperand :=
        { fmt := out, num := fun j k => ((fmtFloat out).getD fp32).num (at_ j k), int := fun j k => intOf 8 false (at_ j k) }
      let (fl, n) := gather 16 ha.k fun j k => ((cells.getD j []).getD k (0, 0)).2
      deliver s td (product (s.ta td) (tileOperand ha sa (s.tl ta)) b ha.rows 16 ha.k) fl n) s

end Sys2Proof.Machine
end

