-- ==== Sys2Proof/Machine/Csr.lean ====
section
/-!
DEFINITION. The CSR map: what each CSR reads and what a write does (05_scalar R104 to R109 and the rules each entry
names).
-/
namespace Sys2Proof.Machine

/-! ## Which CSR numbers there are (R104) -/

/-- Numbers that S mode alone may access. -/
def csrSupervisor (n : BitVec 12) : Bool :=
  [0x100, 0x104, 0x105, 0x140, 0x141, 0x142, 0x143, 0x144, 0x180, 0x5C0, 0x5C1, 0x5C2, 0x5C3, 0x5C4, 0x5C5, 0x5C6,
    0x5C7, 0x5C9].contains n.toNat

/-- TSHAPE0 to TSAT7. -/
def csrTile (n : BitVec 12) : Bool := decide (0x810 ≤ n.toNat) && decide (n.toNat ≤ 0x81F)

/-- Read-only numbers. -/
def csrReadOnly (n : BitVec 12) : Bool := decide (0xCC0 ≤ n.toNat) && decide (n.toNat ≤ 0xCCB)

/-- U-mode numbers that may be written. -/
def csrUser (n : BitVec 12) : Bool :=
  decide (0x800 ≤ n.toNat) && decide (n.toNat ≤ 0x80E) || decide (0x810 ≤ n.toNat) && decide (n.toNat ≤ 0x830)

/-- The access is illegal (R104, R105, R21). -/
def csrIllegal (s : State) (n : BitVec 12) (writes : Bool) : Bool :=
  !(csrSupervisor n || csrReadOnly n || csrUser n) || (csrSupervisor n && !s.th.regs.smode) ||
    (csrReadOnly n && writes) || (csrTile n && !s.th.tile)

/-! ## Reads -/

/-- sip: LERRP tells a lasting error or lost state in a log of the core's arrays or of its slice of the cluster array
(R130, R327). -/
def sipWord (s : State) : Word :=
  let hit := fun (core : Nat) (mine : Nat → Bool) =>
    (s.coreOf core).errlog.any fun q => mine q.1 && q.2.any fun e => e.valid && (e.cls == 3 || e.cls == 4)
  let c := s.th.core
  let lerr := hit c (fun k => decide (k < 16)) || hit (logCore c 9) (fun k => k == logKey 9 (sliceOf c))
  BitVec.ofNat 64 (b2n lerr * 65536 + b2n s.th.seip * 512 + b2n s.th.stip * 32 + b2n s.th.regs.csr.ssip * 2)

/-- The log and place that ERRSEL selects: the core, the log's key, the entry number (R130). -/
def selectedLog (s : State) : Nat × Nat × Nat :=
  let e := s.th.regs.csr.errsel
  let array := (e.extractLsb' 0 4).toNat
  (logCore s.th.core array, logKey array (e.extractLsb' 4 4).toNat, (e.extractLsb' 12 4).toNat)

/-- Words of a log entry (R130). -/
def errWord (e : ErrEntry) (w : Nat) : Word :=
  match w with
  | 0 => e.addr
  | 1 => BitVec.ofNat 64 (e.launchid.toNat * 2 ^ 48 + e.lindex.toNat * 2 ^ 16)
  | 2 => BitVec.ofNat 64 (e.syndrome.toNat * 65536 + e.attempt.toNat * 256 + e.cls.toNat * 16 + b2n e.inj * 8 +
      b2n e.lost * 4 + b2n e.valid)
  | _ => e.chunkno

/-- ERRLOG: the selected word; an empty log and an entry not yet used read 0 (R130). -/
def errlogRead (s : State) : Word :=
  let (c, k, i) := selectedLog s
  let e := s.th.regs.csr.errsel
  if 10 ≤ (e.extractLsb' 0 4).toNat then 0
  else
    match (tabGet [] (s.coreOf c).errlog k)[i]? with
    | some en => errWord en (e.extractLsb' 10 2).toNat
    | none => 0

/-- TCCCTL (R318): the bits follow the entries of the TCC. -/
def tccWord (c : Core) : Word :=
  let at_ := fun (f : Nat × Bool → Bool) =>
    (c.tcc.take 4).zipIdx.foldl (fun n e => n + b2n (f e.1) * 2 ^ e.2) 0
  BitVec.ofNat 64 (b2n c.proxy * 65536 + at_ (fun e => e.2) * 16 + at_ (fun _ => true))

/-- AEROLE (R29). -/
def aeroleWord (s : State) : Word :=
  let q := s.pairOf
  let high := decide (8 ≤ s.th.slot)
  let bind := if high then (s.partner s.cur).isSome else s.th.regs.csr.bind
  BitVec.ofNat 64 (q.rq.length * 512 + q.fq.length * 16 + b2n high * 2 + b2n bind)

/-- LVT: in an event its VRT, else LVT, which RECVT has set to that VRT. A trap handler that has interrupted an event, where
the in-event bit is clear, reads the event's VRT so (R262; log 154). -/
def lvtWord (o : Opt) : Word := if o.inEvent then o.evVrt else o.lvt

/-- GFLAGS of the current thread's group (R163). -/
def gflagsWord (s : State) : Word := (tabGet 0 s.launch.gflags (clusterOf s.th.placeCore)).setWidth 64

/-- LAUNCHINFO (R109). -/
def launchInfo (l : Launch) : Word :=
  BitVec.ofNat 64 (l.launchId.toNat * 2 ^ 48 + l.queue % 64 * 2 ^ 32 + l.prio % 4 * 2 ^ 22 + b2n l.det * 2 ^ 21 +
    l.csp % 8 * 2 ^ 18 + l.tt % 16 * 2 ^ 8 + l.nt % 32)

/-- COREXY (R18). -/
def corexyWord (c : Nat) : Word :=
  BitVec.ofNat 64 (clusterOf c * 2 ^ 24 + dieOf c * 2 ^ 16 + coreY c * 256 + coreX c)

/-- THREADID (R22). -/
def threadidWord (th : Thread) : Word :=
  BitVec.ofNat 64 (th.lindex % 2 ^ 32 * 2 ^ 32 + b2n th.tile * 16 + th.slot % 16)

/-- GVT of the current thread's group (R262, R272). -/
def gvtWord (s : State) : Word := tabGet 0 s.gvts s.launch.launchkey.toNat

/-- What a CSR reads. -/
def csrRead (s : State) (n : BitVec 12) : Word :=
  let th := s.th
  let c := th.regs.csr
  let core := s.coreOf th.core
  let cross := s.coreOf th.placeCore
  match n.toNat with
  | 0x100 => c.sstatus | 0x104 => c.sie | 0x105 => c.stvec | 0x140 => c.sscratch | 0x141 => c.sepc
  | 0x142 => c.scause | 0x143 => c.stval | 0x144 => sipWord s | 0x180 => c.satp
  | 0x5C0 => c.cbwin.setWidth 64 | 0x5C1 => c.launchkey | 0x5C2 => c.errsel.setWidth 64
  | 0x5C3 => th.errinj.setWidth 64 | 0x5C4 => errlogRead s | 0x5C5 => c.trctl | 0x5C6 => core.thermrank
  | 0x5C7 => tccWord core | 0x5C9 => c.squashmax.setWidth 64
  | 0x800 => c.vtype.setWidth 64 | 0x801 => c.nflags.setWidth 64 | 0x802 => BitVec.ofNat 64 (b2n c.nctl)
  | 0x803 => BitVec.ofNat 64 (c.chunkCur * 65536 + c.chunkLen)
  | 0x804 => c.vshare.setWidth 64 | 0x805 => c.stealdom | 0x806 => aeroleWord s | 0x807 => c.waitswap.setWidth 64
  | 0x808 => c.ixrules | 0x809 => c.ixpool | 0x80A => c.batchno.setWidth 64
  | 0x80B => c.loopS0 | 0x80C => c.loopC0 | 0x80D => c.loopS1 | 0x80E => c.loopC1
  | 0x830 => th.tmark
  | 0xCC0 => th.chunkno | 0xCC1 => corexyWord th.core | 0xCC2 => threadidWord th
  | 0xCC3 => gvtWord s | 0xCC4 => lvtWord th.regs.opt | 0xCC5 => BitVec.ofNat 64 (s.farCount s.cur)
  | 0xCC6 => th.mlatc | 0xCC7 => gflagsWord s | 0xCC8 => th.squashcnt | 0xCC9 => launchInfo s.launch
  | 0xCCA => th.farseq | 0xCCB => th.cutwhy
  | _ =>
    let k : BitVec 3 := n.setWidth 3
    match (n.toNat / 8) with
    | 0x102 => (c.tshape[k.toNat]'(k.isLt)).setWidth 64
    | 0x103 => (c.tsat[k.toNat]'(k.isLt)).setWidth 64
    | 0x104 => cross.evterm[k.toNat]'(k.isLt)
    | 0x105 => cross.evcnt[k.toNat]'(k.isLt)
    | _ => 0

/-! ## Writes -/

/-- CHUNKLEN: LEN is brought into range and sets CUR (R31). -/
def writeChunklen (s : State) (v : Word) : State :=
  let n := Nat.min 16384 (Nat.max 256 (bits v 14 0))
  s.setCsr 0x803 fun c => { c with chunkLen := n, chunkCur := n }

/-- AEROLE: BIND (R29). A pair is bound only with a thread of the launch in slot s + 8; BIND 0 empties both queues. -/
def writeAerole (s : State) (v : Word) : State :=
  let th := s.th
  if 8 ≤ th.slot then s
  else if v.getLsbD 0 then
    match s.inSlot th.core (th.slot + 8) with
    | some u => if (s.thr u).lid = th.lid then s.setCsr 0x806 fun c => { c with bind := true } else s
    | none => s
  else
    let q := s.pairOf
    let s := s.modChunk fun c => { c with aeTaken := c.aeTaken ++ q.fq, dropped := c.dropped ++ q.rq }
    (s.setPair ⟨[], []⟩).setCsr 0x806 fun c => { c with bind := false }

/-- SQUASHMAX: 0 stores 1 (R38). -/
def writeSquashmax (s : State) (v : Word) : State :=
  let m : BitVec 4 := v.setWidth 4
  s.setCsr 0x5C9 fun c => { c with squashmax := if m = 0 then 1 else m }

/-- VSHARE: 0 stores 1 (R314). -/
def writeVshare (s : State) (v : Word) : State :=
  let m : BitVec 4 := v.setWidth 4
  s.setCsr 0x804 fun c => { c with vshare := if m = 0 then 1 else m }

/-- STEALDOM: SCOPEBAD for a malformed value (R40, R144). -/
def writeStealdom (s : State) (v : Word) : Except Stop State := do
  let _ ← needScope v
  .ok (s.setCsr 0x805 fun c => { c with stealdom := v })

/-- LOOPS of a level (R81). -/
def writeLoops (s : State) (l : Nat) (v : Word) : State :=
  let w := v &&& 0x00FFFFFFFFFFFFFC
  if l = 0 then s.setCsr 0x80B fun c => { c with loopS0 := w } else s.setCsr 0x80D fun c => { c with loopS1 := w }

/-- LOOPC of a level: ACTIVE with LEN 0 stores ACTIVE 0 (R81). -/
def writeLoopc (s : State) (l : Nat) (v : Word) : State :=
  let w := v &&& 0x1FFFF
  let w := if bits w 16 6 = 0 then w &&& 0x1FFFE else w
  if l = 0 then s.setCsr 0x80C fun c => { c with loopC0 := w } else s.setCsr 0x80E fun c => { c with loopC1 := w }

/-- ERRINJ: neither captured nor deferred; MODE 3 stores 0, and an array that cannot be injected stores 0 and disarms
(R131). -/
def writeErrinj (s : State) (v : Word) : State :=
  let array := bits v 7 4
  let bad := array = 1 ∨ array = 2 ∨ 10 ≤ array
  let mode := if bits v 9 8 = 3 then 0 else bits v 9 8
  let n := bits v 23 16 * 65536 + bits v 15 12 * 4096 + mode * 256 + (if bad then 0 else array * 16 + bits v 0 0)
  s.modTh fun th => { th with errinj := BitVec.ofNat 24 n, injAt := none }

/-- ERRLOG: writing 1 to VALID clears the selected entry; the write is undone by a squash (R105, R130). -/
def writeErrlog (s : State) (v : Word) : State :=
  let (c, k, i) := selectedLog s
  let e := s.th.regs.csr.errsel
  let l := tabGet [] (s.coreOf c).errlog k
  if (e.extractLsb' 10 2).toNat = 2 ∧ (e.extractLsb' 0 4).toNat < 10 ∧ v.getLsbD 0 then
    match l[i]? with
    | some en =>
      let none' : ErrEntry := { addr := 0, launchid := 0, lindex := 0, syndrome := 0, attempt := 0, cls := 0, inj := false
                                lost := false, valid := false, chunkno := 0, index := 0, word := 0, time := 0, stamp := 0 }
      let s := (s.capture (.csr 0x5C4)).modChunk fun ch => { ch with cleared := (c, k, i, en) :: ch.cleared }
      s.modCore c fun q => { q with errlog := tabSet q.errlog k (l.set i none') }
    | none => s
  else s

/-- satp: a MODE other than 0 and 11 leaves it unchanged (R328). -/
def writeSatp (s : State) (v : Word) : State :=
  if bits v 63 60 = 0 ∨ bits v 63 60 = 11 then s.setCsr 0x180 fun c => { c with satp := v &&& 0xFFFFF0FFFFFFFFFF } else s

/-- stvec: MODE 2 and 3 store 0 (R326). -/
def writeStvec (s : State) (v : Word) : State :=
  s.setCsr 0x105 fun c => { c with stvec := if 2 ≤ bits v 1 0 then v &&& ~~~(3 : Word) else v }

/-- EVCNT or EVTERM of the core, applied at commit (R241). -/
def writeEvent (s : State) (cnt : Bool) (n : BitVec 3) (v : Word) : State :=
  s.postCommit (.evWrite cnt n (if cnt then v else v &&& 0x1FFFF))

/-- TCCCTL or THERMRANK, applied to the core at commit (R318, R320, R324). -/
def writePerCore (s : State) (therm : Bool) (v : Word) : State :=
  s.postCommit (.perCore therm (if therm then v &&& 0x00FFFFFFFFFFFFC1 else v &&& 0x10100))

/-- A write of a CSR by the current thread. A number that is read-only or does not exist takes no write. -/
def csrWrite (s : State) (n : BitVec 12) (v : Word) : Except Stop State :=
  match n.toNat with
  | 0x100 => .ok (s.setCsr n fun c => { c with sstatus := v &&& 0x40122 })
  | 0x104 => .ok (s.setCsr n fun c => { c with sie := v &&& 0x10222 })
  | 0x105 => .ok (writeStvec s v)
  | 0x140 => .ok (s.setCsr n fun c => { c with sscratch := v })
  | 0x141 => .ok (s.setCsr n fun c => { c with sepc := v &&& ~~~(3 : Word) })
  | 0x142 => .ok (s.setCsr n fun c => { c with scause := v })
  | 0x143 => .ok (s.setCsr n fun c => { c with stval := v })
  | 0x144 => .ok (s.setCsr n fun c => { c with ssip := v.getLsbD 1 })
  | 0x180 => .ok (writeSatp s v)
  | 0x5C0 => .ok (s.setCsr n fun c => { c with cbwin := v.setWidth 8 })
  | 0x5C1 => .ok (s.setCsr n fun c => { c with launchkey := v })
  | 0x5C2 => .ok (s.setCsr n fun c => { c with errsel := v.setWidth 16 &&& 0xFCFF })
  | 0x5C3 => .ok (writeErrinj s v)
  | 0x5C4 => .ok (writeErrlog s v)
  | 0x5C5 => .ok (s.setCsr n fun c => { c with trctl := v &&& 0xFFFF003F })
  | 0x5C6 => .ok (writePerCore s true v)
  | 0x5C7 => .ok (writePerCore s false v)
  | 0x5C9 => .ok (writeSquashmax s v)
  | 0x800 => .ok (s.setCsr n fun c => { c with vtype := v.setWidth 8 })
  | 0x801 => .ok (s.setCsr n fun c => { c with nflags := v.setWidth 6 })
  | 0x802 => .ok (s.setCsr n fun c => { c with nctl := v.getLsbD 0 })
  | 0x803 => .ok (writeChunklen s v)
  | 0x804 => .ok (writeVshare s v)
  | 0x805 => writeStealdom s v
  | 0x806 => .ok (writeAerole s v)
  | 0x807 => .ok (s.setCsr n fun c => { c with waitswap := v.setWidth 32 })
  | 0x808 => .ok (s.setCsr n fun c => { c with ixrules := v &&& 0x00FFFFFFFFFFFFF0 })
  | 0x809 => .ok (s.setCsr n fun c => { c with ixpool := v &&& 0x00FFFFFFFFFFFFC0 })
  | 0x80A => .ok (s.setCsr n fun c => { c with batchno := v.setWidth 4 })
  | 0x80B => .ok (writeLoops s 0 v)
  | 0x80C => .ok (writeLoopc s 0 v)
  | 0x80D => .ok (writeLoops s 1 v)
  | 0x80E => .ok (writeLoopc s 1 v)
  | 0x830 => .ok (s.postCommit (.tmark v))
  | _ =>
    let k : BitVec 3 := n.setWidth 3
    match n.toNat / 8 with
    | 0x102 => .ok (s.setTshape k (v.setWidth 32 &&& 0xFFFF7FFF))
    | 0x103 => .ok (s.setCsr n fun c => { c with tsat := c.tsat.set k.toNat (v.setWidth 32) k.isLt })
    | 0x104 => .ok (writeEvent s false k v)
    | 0x105 => .ok (writeEvent s true k v)
    | _ => .ok s

/-! ## The CSR instructions (R105) -/

/-- A CSR instruction writes: CSRRW always, the others where their source field is nonzero (R105). -/
def csrWrites (f : CsrOp) (src : Reg) : Bool := f == .rw || src != 0

/-- The value a CSR instruction writes. -/
def csrNew (f : CsrOp) (old w : Word) : Word :=
  match f with
  | .rw => w
  | .rs => old ||| w
  | .rc => old &&& ~~~w

/-- A read of NFLAGS or TSAT waits for the thread's earlier vector and tile instructions (R183). -/
def unitsWait (s : State) (n : BitVec 12) : Bool :=
  (n == 0x801 || n.toNat / 8 == 0x103) && s.th.results.any fun r => r.vec || r.cls == .vector || r.cls == .tile

/-- A CSR instruction: reads and writes at issue, NFLAGS and TSAT once what adds to them is complete (R105, R183). -/
def execCsrInstruction (f : CsrOp) (immediate : Bool) (csr : BitVec 12) (rd src : Reg) (s : State) : Out :=
  let i := Instr.csrInstruction f immediate csr rd src
  runInstr false (if csrIllegal s csr (csrWrites f src) then some (illegal i) else none)
    ((if immediate then [] else [.x src]) ++ [.x rd]) (fun s => do
      let _ ← (if unitsWait s csr then .error (.stall .units) else .ok ())
      let old := csrRead s csr
      let w := if immediate then src.setWidth 64 else s.x src
      let s ← if csrWrites f src then csrWrite s csr (csrNew f old w) else .ok s
      .ok (s.setX rd old, .seq)) s

/-! ## Writes that are rows of their own: the write of the current thread -/

/-- A write of the current thread, where it occupies a slot. -/
def threadWrite (s : State) (f : State → Except Stop State) : State :=
  if s.live then
    match f s with
    | .ok s => s
    | .error e => applyStop s e
  else s

def execChunklenWrite (v : Word) (s : State) : Out := event (threadWrite s fun s => .ok (writeChunklen s v))
def execAeroleWrite (v : Word) (s : State) : Out := event (threadWrite s fun s => .ok (writeAerole s v))
def execSquashmaxWrite (v : Word) (s : State) : Out := event (threadWrite s fun s => .ok (writeSquashmax s v))
def execStealdomWrite (v : Word) (s : State) : Out := event (threadWrite s fun s => writeStealdom s v)
def execLoopcWrite (l : BitVec 1) (v : Word) (s : State) : Out :=
  event (threadWrite s fun s => .ok (writeLoopc s l.toNat v))
def execErrinjWrite (v : Word) (s : State) : Out := event (threadWrite s fun s => .ok (writeErrinj s v))
def execErrlogEntryClear (v : Word) (s : State) : Out := event (threadWrite s fun s => .ok (writeErrlog s v))
def execEventCsrWrite (cnt : Bool) (n : BitVec 3) (v : Word) (s : State) : Out :=
  event (threadWrite s fun s => .ok (writeEvent s cnt n v))
def execPerCoreCsrWrite (therm : Bool) (v : Word) (s : State) : Out :=
  event (threadWrite s fun s => .ok (writePerCore s therm v))
def execSatpWrite (v : Word) (s : State) : Out := event (threadWrite s fun s => .ok (writeSatp s v))
def execStvecWrite (v : Word) (s : State) : Out := event (threadWrite s fun s => .ok (writeStvec s v))
def execVshareWrite (v : Word) (s : State) : Out := event (threadWrite s fun s => .ok (writeVshare s v))

end Sys2Proof.Machine
end

