-- ==== Sys2Proof/Machine/Messages.lean ====
section
/-!
DEFINITION. The messages group: sending, receiving and optimistic mode as a thread's instructions see them
(17_messages R247 to R267, R274).
-/
namespace Sys2Proof.Machine

/-! ## Headers, keys and counters (R247, R248, R250, R256) -/

/-- The low doubleword of a header (R247). -/
def Msg.low (m : Msg) : Word :=
  BitVec.ofNat 64 (m.seq.toNat * 2 ^ 32 + b2n m.anti * 2 ^ 31 + m.len % 128 * 2 ^ 24 + m.ch.toNat * 2 ^ 22 +
    m.dthr.toNat * 2 ^ 18 + m.sthr.toNat * 2 ^ 14 + m.sy.toNat * 2 ^ 9 + m.sx.toNat * 2 ^ 3)

/-- The header image that v[d+1] receives (R256). -/
def Msg.image (m : Msg) : VReg :=
  BitVec.ofNat 512 (m.low.toNat + m.vrt.toNat * 2 ^ 64 + m.srcDev.toNat * 2 ^ 128 + m.ordinal.toNat * 2 ^ 192)

/-- The key image of a timed message (R248). -/
def Msg.key (m : Msg) : BitVec 128 :=
  m.vrt ++ BitVec.ofNat 64 (m.srcDev.toNat * 2 ^ 53 + m.sy.toNat * 2 ^ 48 + m.sx.toNat * 2 ^ 42 + m.sthr.toNat * 2 ^ 38 +
    m.ch.toNat * 2 ^ 36 + m.seq.toNat)

/-- A key's VRT (R248). -/
def keyVrt (k : BitVec 128) : Word := k.extractLsb' 64 64

def Msg.timed (m : Msg) : Bool := m.vrt != 0

/-- Two messages travel on one triple and carry one SEQ and kind of counter: one is the other's twin (R270). -/
def Msg.twin (a b : Msg) : Bool :=
  a.anti != b.anti && a.timed && b.timed && a.key == b.key && a.dthr == b.dthr

/-- An untimed message that RECV and RECVS may take. -/
def Msg.plain (m : Msg) : Bool := !m.timed && !m.anti

/-- The message that an anti-message cancels: of those that arrived before it, the last twin (R270). -/
def Msg.mate (q : List Msg) (a : Msg) : Option Msg := (q.filter fun p => a.twin p && decide (p.ordinal < a.ordinal)).getLast?

/-- A timed message that no event has processed and no anti-message has cancelled (R260, R270). -/
def unprocessed (q : List Msg) (m : Msg) : Bool :=
  m.timed && !m.anti && !m.processed && !q.any fun a => a.anti && a.mate q == some m

/-- The payload of a message of LEN bytes: zero beyond. -/
def payloadOf (len : Nat) (v : VReg) : VReg := v &&& BitVec.ofNat 512 (2 ^ (8 * Nat.min len 64) - 1)

/-- The number of a destination and channel, for the sequence counters (R250). -/
def tripleKey (d : Position) (ch : Nat) : Nat := ((d.dev.toNat * 2048 + d.core) * 16 + d.thr.toNat) * 4 + ch

/-- The next sequence number of a counter that holds it less one (R250). -/
def nextSeq (m : Map (BitVec 32)) (k : Nat) : BitVec 32 := tabGet 0 m k + 1

/-! ## Sending (R249, R250, R254, R265) -/

/-- The device is this one or in the job's domain (R249, R352). -/
def State.deviceOk (s : State) (d : Nat) : Bool := d == s.reg.devnum.toNat || s.reg.domain.getLsbD d

/-- The descriptor is well formed (R249). -/
def descOk (s : State) (w : Word) : Bool :=
  bits w 63 59 == 0 && bits w 39 26 == 0 && bits w 23 20 == 0 && decide (bits w 47 40 ≤ 64) &&
    decide (bits w 7 0 ≤ 47) && decide (bits w 15 8 ≤ 27) && s.deviceOk (bits w 58 48)

/-- The destination a descriptor names. -/
def descPosition (w : Word) : Position :=
  ⟨BitVec.ofNat 11 (bits w 58 48), coreAt (bits w 7 0) (bits w 15 8), BitVec.ofNat 4 (bits w 19 16)⟩

/-- Send-queue entries reserved by uncommitted chunks, and in use (R250). -/
def Thread.sendReserved (th : Thread) : Nat := th.chunks.foldl (fun n c => n + c.sendRes) 0
def Thread.sendUsed (th : Thread) : Nat := th.sendBusy + th.sendReserved

/-- Reserves a send-queue entry: a cut (code 21) where a chunk of the thread holds one, a wait where only performed
sends do (R250). A rewrite cannot be cut and squashes instead (R287). -/
def reserveSend (s : State) : Except Stop State :=
  if s.th.sendUsed < Config.sendEntries then .ok (s.modChunk fun c => { c with sendRes := c.sendRes + 1 })
  else if s.th.sendReserved = 0 then .error (.stall .queue)
  else if s.th.regs.inRewrite then .error (.undoRewrite .send)
  else .error (.cut 21 .queue)

/-- Forms a message and advances its counter (R254). -/
def formMessage (s : State) (desc vrt : Word) (b : Reg) : State × Msg :=
  let dst := descPosition desc
  let ch := bits desc 25 24
  let k := tripleKey dst ch
  let r := s.th.regs
  let seq := if vrt = 0 then nextSeq r.seqU k else nextSeq r.seqT k
  let place := s.th.placeCore
  let m : Msg := { vrt := vrt, seq := seq, anti := false, len := bits desc 47 40, ch := BitVec.ofNat 2 ch
                   dthr := dst.thr, sthr := BitVec.ofNat 4 s.th.tIndex, sy := BitVec.ofNat 5 (coreY place)
                   sx := BitVec.ofNat 6 (coreX place), srcDev := s.reg.devnum
                   payload := payloadOf (bits desc 47 40) (s.v b), ordinal := 0, ring := false, place := 0
                   processed := false }
  let s := s.modRegs fun r =>
    if vrt = 0 then { r with seqU := tabSet r.seqU k seq } else { r with seqT := tabSet r.seqT k seq }
  (s.postCommit (.message dst m), m)

/-- SEND (R254). -/
def execSend (p : Bool) (a b : Reg) (s : State) : Out :=
  runInstr p none [.x a, .v b] (fun s => do
    notInEvent s 0
    let d := s.x a
    if !descOk s d then .error (.trap 55 d)
    else
      let s ← reserveSend s
      .ok ((formMessage s d 0 b).1, .seq)) s

/-- Entries of a thread for its output log, and for its irrevocable ring, that are not yet in it: in the lists of its
chunks, and released but held back (R267). -/
def pendingActs (s : State) (t : Nat) (f : Act → Bool) : Nat :=
  (s.thr t).chunks.foldl (fun n c => n + (c.post.filter f).length) 0 + (s.flights.filter fun q => q.tid == t && f q.act).length
def pendingOut (s : State) (t : Nat) : Nat := pendingActs s t fun a => match a with | .outLog _ => true | _ => false
def pendingIrr (s : State) (t : Nat) : Nat := pendingActs s t fun a => match a with | .irrLog _ => true | _ => false

/-- The GVT of a thread's group (R272). -/
def State.gvtFor (s : State) (t : Nat) : Word := tabGet 0 s.gvts (s.launchOf (s.thr t).lid).launchkey.toNat

/-- An entry of an event stays as a wait of its thread sees it: the entries below GVT of a thread that is switched out are
collected on its return, which is why it returns (R273, R275, R317). -/
def State.stays (s : State) (t : Nat) (k : BitVec 128) : Bool := !(s.thr t).isOut || decide (s.gvtFor t ≤ keyVrt k)

/-- A ring has an entry free: what a wait for the ring of a descriptor's field is for, the undo log at 16, the output log at
24, the irrevocable ring at 32 (R267). -/
def ringOpen (s : State) (t : Nat) (field : Word) : Bool :=
  let o := (s.thr t).regs.opt
  if field = 16 then decide ((o.undo.filter fun e => s.stays t e.key).length < o.uent)
  else if field = 24 then decide ((o.out.filter fun e => s.stays t e.key).length + pendingOut s t < o.oent)
  else decide ((o.irr.filter fun e => s.stays t e.key).length + pendingIrr s t < o.ient)

/-- SENDT (R254, R264, R265, R267). -/
def execSendt (p : Bool) (a b d : Reg) (s : State) : Out :=
  runInstr p none [.x a, .v b, .x d] (fun s => do
    let o := s.th.regs.opt
    let desc := s.x a
    let vrt := s.x d
    if o.on && !o.inEvent then .error (.trap 49 0)
    else if !descOk s desc then .error (.trap 55 desc)
    else if vrt = 0 then .error (.trap 55 0)
    else if o.inEvent && decide (vrt ≤ lvtWord o) then .error (.trap 55 vrt)
    else if o.inEvent && decide (o.oent ≤ o.out.length + pendingOut s s.cur) then .error (.stall (.ring 24))
    else
      let s ← reserveSend s
      let (s, m) := formMessage s desc vrt b
      .ok (if o.inEvent then s.postCommit (.outLog ⟨o.evKey, desc, vrt, m.seq⟩) else s, .seq)) s

/-! ## Receiving (R255, R256) -/

/-- The channels a mask operand selects (R255). -/
def channelMask (w : Word) : BitVec 4 := let m : BitVec 4 := w.setWidth 4; if m = 0 then 15 else m

/-- A message of RECV, or of RECVS for a selector (R255). -/
def recvWants (mask : BitVec 4) (sel : Option Word) (m : Msg) : Bool :=
  m.plain && mask.getLsbD m.ch.toNat &&
  match sel with
  | none => true
  | some w => bits w 63 32 == m.seq.toNat && bits w 30 20 == m.srcDev.toNat && bits w 19 16 == m.sthr.toNat &&
      bits w 15 8 == m.sy.toNat && bits w 7 0 == m.sx.toNat

/-- A thread's part of its launch's context region (R301): the context area, then the spill rings. -/
def State.threadArea (s : State) (t : Nat) : Nat :=
  let th := s.thr t
  (s.launchOf th.lid).region + 49152 * th.lindex

/-- The ring entry of a message that a thread holds in a spill ring (R251, R301). -/
def State.ringEntry (s : State) (t : Nat) (m : Msg) : Nat := s.threadArea t + 16384 + 8192 * m.ch.toNat + 128 * m.place

/-- 64 bytes of memory as a register. -/
def State.lineVal (s : State) (pa : Nat) : VReg := BitVec.ofNat 512 (leNat (memRead s.mem pa 64))

/-- The payload and the header image of a held message: of a ring entry, what its 128 bytes hold (R251, R256, R334). -/
def State.msgPayload (s : State) (t : Nat) (m : Msg) : VReg := if m.ring then s.lineVal (s.ringEntry t m) else m.payload
def State.msgImage (s : State) (t : Nat) (m : Msg) : VReg := if m.ring then s.lineVal (s.ringEntry t m + 64) else m.image

/-- POISON where a message is taken from a poisoned ring entry: the payload is read first, then the header image (R329,
R334). The address is the entry's, which the launch engine assigns without translation (log 31). -/
def ringStop (s : State) (d : Reg) (m : Msg) : Option Stop :=
  let a := s.ringEntry s.cur m
  if !m.ring then none
  else if s.poison.contains (a / 64) then some (.trap 50 (BitVec.ofNat 64 a))
  else if s.poison.contains (a / 64 + 1) then some (.partTrap (.v d (s.lineVal a)) 50 (BitVec.ofNat 64 (a + 64)))
  else none

/-- Gives the payload and the header image of a message as message-class results (R253, R256, R260). -/
def giveMessage (s : State) (d : Reg) (payload image : VReg) : State :=
  (s.setLong .message (.v d payload) none).setLong .message (.v (d + 1) image) none

/-- Takes a held message within the chunk (R255). -/
def takeMessage (s : State) (d : Reg) (m : Msg) : Except Stop State :=
  match ringStop s d m with
  | some e => .error e
  | none =>
    let payload := s.msgPayload s.cur m
    let image := s.msgImage s.cur m
    let s := s.modTh fun th => { th with
      recvq := th.recvq.filter fun k => k.ordinal != m.ordinal
      chunk := { th.chunk with taken := m :: th.chunk.taken } }
    let s := countEvent s s.cur 13 1
    .ok (giveMessage s d payload image)

/-- RECV and RECVS: a held message at once, else the chunk ends and the thread waits (R255). -/
def recvBody (d : Reg) (mask : BitVec 4) (sel : Option Word) : Body := fun s =>
  match s.th.recvq.find? (recvWants mask sel) with
  | some m => do
    let s ← takeMessage s d m
    .ok (s, .seq)
  | none =>
    .ok (s, .cut 6 (some (match sel with | none => .recv d mask s.pc | some w => .recvs d mask w s.pc)))

/-- RECV (R255). -/
def execRecv (p : Bool) (d a : Reg) (s : State) : Out :=
  runInstr p none [.x a, .v d, .v (d + 1)] (fun s => do
    notInEvent s 0
    noRewrite s
    recvBody d (channelMask (s.x a)) none s) s

/-- RECVS (R255). -/
def execRecvs (p : Bool) (d a b : Reg) (s : State) : Out :=
  runInstr p none [.x a, .x b, .v d, .v (d + 1)] (fun s => do
    notInEvent s 0
    noRewrite s
    if (s.x b).getLsbD 31 then .error (.trap 55 (s.x b))
    else recvBody d (channelMask (s.x a)) (some (s.x b)) s) s

/-! ## Events (R259 to R261) -/

/-- The unprocessed timed message of least key (R248, R260). -/
def leastTimed (q : List Msg) : Option Msg :=
  (q.filter (unprocessed q)).foldl (fun best m =>
    match best with
    | none => some m
    | some b => some (if m.key.toNat < b.key.toNat then m else b)) none

/-- Captures every register of the entry image (R34, R259). -/
def captureImage (s : State) : State :=
  let xs := (List.range 31).map fun i => UndoKey.reg (.x (BitVec.ofNat 5 (i + 1)))
  let vs := (List.range 32).map fun i => UndoKey.reg (.v (BitVec.ofNat 5 i))
  let ps := (List.range 7).map fun i => UndoKey.reg (.p (BitVec.ofNat 3 (i + 1)))
  (xs ++ vs ++ ps ++ [UndoKey.csr 0x800, UndoKey.marks]).foldl State.capture s

/-- The registers of an entry image (R260). -/
def Regs.loadImage (r : Regs) (e : EntryImage) : Regs :=
  { r with x := e.x, v := e.v, p := e.p, csr := { r.csr with vtype := e.vtype } }

/-- RECVT parks in any case; it begins an event chunk with the least unprocessed timed message. Right after another cut
its code is the one reported if it is lower (R32, R260). -/
def execRecvt (p : Bool) (d : Reg) (s : State) : Out :=
  let o := s.th.regs.opt
  runInstr true (if o.on && !o.inEvent then none else some (illegal (.recvt p d))) [] (fun s => do
    noRewrite s
    if s.th.chunk.count ≠ 0 then .error (.cut 9 .recvt)
    else
      match leastTimed s.th.recvq with
      | none => .error (.leave ((s.cutChunk s.cur 9).stall .recvt))
      | some m =>
        match ringStop s d m with
        | some e => .error e
        | none =>
          let payload := s.msgPayload s.cur m
          let image := s.msgImage s.cur m
          let s := captureImage (s.cutChunk s.cur 9)
          let s := s.modTh fun th => { th with
            recvq := putMsg { m with processed := true } th.recvq
            chunk := { th.chunk with taken := m :: th.chunk.taken } }
          let pc := s.pc
          let s := s.modRegs fun r => { r.loadImage r.opt.image with
            opt := { r.opt with inEvent := true, evKey := m.key, evVrt := m.vrt, evPc := pc, lvt := m.vrt, logged := [] } }
          let s := countEvent s s.cur 13 1
          .ok (giveMessage s d payload image, .seq)) s

/-- The end of an event: LVT becomes its VRT + 1, saturating (R261). -/
def Opt.endEvent (o : Opt) : Opt :=
  { o with inEvent := false, lvt := if o.evVrt = BitVec.allOnes 64 then o.evVrt else o.evVrt + 1, logged := [] }

/-- EVEND (R261). -/
def execEvend (p : Bool) (s : State) : Out :=
  runInstr p (if s.inEvent then none else some (illegal (.evend p))) [] (fun s =>
    .ok (s.modRegs fun r => { r with opt := r.opt.endEvent }, .cut 10 none)) s

/-- STIRV (R264, R266, R267). -/
def execStirv (p : Bool) (a b : Reg) (s : State) : Out :=
  runInstr p (if s.th.regs.opt.on then none else some (illegal (.stirv p a b))) [.x a, .x b] (fun s => do
    let o := s.th.regs.opt
    if !o.inEvent then .error (.trap 49 0)
    else
      let (s, pa, _) ← checkVa s .store (s.x a) 8
      if o.ient ≤ o.irr.length + pendingIrr s s.cur then .error (.stall (.ring 32))
      else .ok (s.postCommit (.irrLog ⟨o.evKey, pa, s.x b, 0⟩), .seq)) s

/-! ## Entering and leaving optimistic mode (R258, R259, R274) -/

/-- The eight doublewords of a descriptor line. -/
def lineWord (bs : List Byte) (i : Nat) : Word := BitVec.ofNat 64 (leNat ((bs.drop (8 * i)).take 8))

/-- A descriptor of OPTON within the limits of R258. -/
def optionsOk (bs : List Byte) : Bool :=
  let w := lineWord bs
  bits (w 0) 5 0 == 0 && bits (w 1) 5 0 == 0 && decide (64 ≤ (w 1).toNat) && decide ((w 1).toNat ≤ 2 ^ 20) &&
    bits (w 2) 5 0 == 0 && bits (w 3) 5 0 == 0 && bits (w 4) 5 0 == 0 && bits (w 5) 63 48 == 0 &&
    decide (16 ≤ bits (w 5) 47 32) && decide (16 ≤ bits (w 5) 31 16) && decide (16 ≤ bits (w 5) 15 0) &&
    (scopeOf (w 6)).isSome && w 7 == 0

/-- OPTON: it waits for earlier results, then captures the entry image; pending marks stay (R258, R259). Rings and a state
region that overlap are not told from others, and share their bytes of memory (log 152). -/
def execOpton (p : Bool) (a : Reg) (s : State) : Out :=
  runInstr p (if s.th.regs.opt.on then some (illegal (.opton p a)) else none) [.x a] (fun s => do
    noRewrite s
    let base := s.x a
    let va ← pointerAddr base 0
    if va % 64 ≠ 0 then .error (.trap 55 base)
    else
      let (s, bs) ← loadVa s va 64 false
      if !optionsOk bs then .error (.trap 55 base)
      else
        if !s.th.results.isEmpty then .error (.stall .parked)
        else
          let w := lineWord bs
          .ok (s.modRegs fun r => { r with opt := { Opt.reset with
            on := true, desc := BitVec.ofNat 64 va, sbase := w 0, ssize := w 1, ubase := w 2, obase := w 3, ibase := w 4
            ient := bits (w 5) 47 32, oent := bits (w 5) 31 16, uent := bits (w 5) 15 0, iscope := w 6
            image := { x := r.x, v := r.v, p := r.p, vtype := r.csr.vtype } } }, .seq)) s

/-- OPTOFF must wait: for GVT, and for every entry of the thread's rings, those on their way included (R274). -/
def optoffWaits (s : State) (t : Nat) : Bool :=
  let th := s.thr t
  let o := th.regs.opt
  decide (s.gvtFor t < o.lvt) || o.undo.any (fun e => s.stays t e.key) || o.out.any (fun e => s.stays t e.key) ||
    o.irr.any (fun e => s.stays t e.key) || pendingIrr s t != 0 || pendingOut s t != 0 ||
    th.recvq.any (fun m => m.processed && s.stays t m.key)

/-- Leaves optimistic mode; LVT stays (R262). -/
def Regs.leaveOpt (r : Regs) : Regs := { r with opt := { Opt.reset with lvt := r.opt.lvt } }

/-- OPTOFF (R274). -/
def execOptoff (p : Bool) (s : State) : Out :=
  let o := s.th.regs.opt
  runInstr p (if o.on && !o.inEvent then none else some (illegal (.optoff p))) [] (fun s => do
    noRewrite s
    if optoffWaits s s.cur then .ok (s, .cut 6 (some (.optoff false)))
    else .ok (s.modRegs Regs.leaveOpt, .seq)) s

/-- MSGQ (R257). -/
def msgqWord (th : Thread) (c : BitVec 2) : Word :=
  let q := th.recvq.filter fun m => m.ch == c
  let ring := (q.filter (·.ring)).length
  let timed := (q.filter (unprocessed th.recvq)).length
  let untimed := (q.filter Msg.plain).length
  BitVec.ofNat 64 (ring * 2 ^ 32 + Nat.min timed 255 * 2 ^ 24 + Nat.min untimed 255 * 2 ^ 16 +
    (Config.sendEntries - th.sendUsed))

def execMsgq (p : Bool) (d a : Reg) (s : State) : Out :=
  runInstr p none [.x a, .x d] (fun s => .ok (s.setX d (msgqWord s.th ((s.x a).setWidth 2)), .seq)) s

end Sys2Proof.Machine
end

