-- ==== Sys2Proof/Machine/Tasks.lean ====
section
/-!
DEFINITION. Kennels and the tasks group (01_machine R39, R40, 21_scheduling R302, R305 to R313).
-/
namespace Sys2Proof.Machine

/-! ## Kennels (R39, R302) -/

/-- The Kennel of a launch on a core, oldest entry first. -/
def Core.kennel (c : Core) (l : Nat) : List KEntry := tabGet [] c.kennels l
def Core.setKennel (c : Core) (l : Nat) (k : List KEntry) : Core := { c with kennels := tabSet c.kennels l k }

/-- Places of a Kennel that are free: entries and reservations count (R302). -/
def Core.freePlaces (c : Core) (l : Nat) : Nat :=
  Config.kennelPlaces - ((c.kennel l).length + tabGet 0 c.kreserved l)

/-- Threads of a launch (R312). -/
def Launch.threads (l : Launch) : Nat :=
  match scopeOf l.rect with
  | some (.cores x0 y0 x1 y1) => (x1 - x0 + 1) * (y1 - y0 + 1) * l.nt
  | _ => 0

/-- A core's number in the launch rectangle, row by row. -/
def Launch.coreIndex (l : Launch) (core : Nat) : Nat :=
  match scopeOf l.rect with
  | some (.cores x0 y0 x1 _) => (coreY core - y0) * (x1 - x0 + 1) + (coreX core - x0)
  | _ => 0

/-- Place i of a core's Kennel spill area in its launch's context region: behind the threads' parts, 16 bytes an entry
(R39, R301; log 31). -/
def State.spillEntry (s : State) (core l i : Nat) : Nat :=
  let la := s.launchOf l
  la.region + 49152 * la.threads + 65536 * la.coreIndex core + 16 * i

/-- An entry with its words: a spilled one's lie in memory. -/
def State.readEntry (s : State) (core l : Nat) (e : KEntry) : KEntry :=
  if e.spilled then { e with w0 := s.dword (s.spillEntry core l e.place), w1 := s.dword (s.spillEntry core l e.place + 8) }
  else e

/-- The first free place of a spill area behind its youngest entry. -/
def nextPlace (k : List KEntry) : Nat :=
  let used := (k.filter (·.spilled)).map (·.place)
  let start := match used.getLast? with | some p => p + 1 | none => 0
  (((List.range 4096).map fun i => (start + i) % 4096).find? fun p => !used.contains p).getD 0

/-- Changes an entry of a Kennel. -/
def State.modEntry (s : State) (core l i : Nat) (f : KEntry → KEntry) : State :=
  s.modCore core fun c => c.setKennel l ((c.kennel l).modify i f)

/-- The oldest n entries that are on the core go to the spill area (R39). -/
def spillOldest (core l : Nat) : Nat → State → State
  | 0, s => s
  | n + 1, s =>
    let k := (s.coreOf core).kennel l
    match k.findIdx? fun e => !e.spilled with
    | none => s
    | some i =>
      let e := k.getD i ⟨false, 0, 0, none, none, false, 0⟩
      let p := nextPlace k
      let s := s.quietWrite (s.spillEntry core l p) (leBytes 8 e.w0.toNat ++ leBytes 8 e.w1.toNat)
      spillOldest core l n (s.modEntry core l i fun e => { e with spilled := true, place := p })

/-- The youngest n spilled entries come back to the core (R39). -/
def refillYoungest (core l : Nat) : Nat → State → State
  | 0, s => s
  | n + 1, s =>
    match ((s.coreOf core).kennel l).zipIdx.reverse.find? fun e => e.1.spilled with
    | none => s
    | some (_, i) =>
      refillYoungest core l n (s.modEntry core l i fun e => { s.readEntry core l e with spilled := false, place := 0 })

/-- Spilling and refilling: with 256 entries on the core the oldest 128 go out, at 64 the youngest spilled come back. The
traffic is in no signature (R39). -/
def settleKennel (s : State) (core l : Nat) : State :=
  let inside := (((s.coreOf core).kennel l).filter fun e => !e.spilled).length
  if 256 ≤ inside then spillOldest core l 128 s
  else if inside ≤ 64 then refillYoungest core l 128 s
  else s

/-- Puts an entry at the young end of a Kennel (R39). -/
def State.pushEntry (s : State) (core l : Nat) (e : KEntry) : State :=
  settleKennel (s.modCore core fun c => c.setKennel l (c.kennel l ++ [e])) core l

/-- A record of a Kennel that is on the core. -/
def kennelRecord (pair : Bool) (w0 w1 : Word) (pusher : Option Nat) : KEntry :=
  { pair := pair, w0 := w0, w1 := w1, pusher := pusher, taker := none, spilled := false, place := 0 }

/-- The youngest entry of a kind that nobody has reserved, by its place. -/
def youngest (pair : Bool) (l : List KEntry) : Option Nat :=
  (l.zipIdx.reverse.find? fun e => e.1.pair == pair && e.1.taker.isNone).map (·.2)

/-- The oldest entry of a kind that thieves can see, by its place (R39, R40). -/
def oldestVisible (pair : Bool) (l : List KEntry) : Option Nat :=
  (l.zipIdx.find? fun e => e.1.pair == pair && e.1.taker.isNone && e.1.pusher.isNone).map (·.2)

/-- Reserves an entry of a core's Kennel for the current thread's chunk (R39). -/
def reserveEntry (s : State) (core i : Nat) : State :=
  let uid := s.th.chunk.uid
  s.modCore core fun c =>
    c.setKennel s.th.lid ((c.kennel s.th.lid).modify i fun e => { e with taker := some uid })

/-- Reserves places in the current thread's Kennel, or QUEUEBAD (R302). -/
def reservePlaces (s : State) (n : Nat) : Except Stop State :=
  let core := s.th.placeCore
  if (s.coreOf core).freePlaces s.th.lid < n then .error (.trap 55 0)
  else
    let l := s.th.lid
    .ok ((s.modCore core fun c => { c with kreserved := tabSet c.kreserved l (tabGet 0 c.kreserved l + n) }).modChunk
      fun c => { c with places := c.places + n })

/-! ## Victims (R40) -/

/-- The cores of a launch rectangle that a stealing domain takes in (R40). -/
def inDomain (dom rect : Word) (c : Nat) : Bool :=
  scopeHas rect c && match scopeOf dom with | some (.cores x0 y0 x1 y1) => (ScopeForm.cores x0 y0 x1 y1).has c | _ => true

/-- The nearest core of the domain with a visible entry of a kind: by distance, then lower y, then lower x (R40). -/
def victim (s : State) (t : Nat) (pair : Bool) : Option Nat :=
  let th := s.thr t
  let own := th.placeCore
  let rect := (s.launchOf th.lid).rect
  let cands := (s.cores.filter fun p => p.1 != own && inDomain th.regs.csr.stealdom rect p.1 &&
    (oldestVisible pair (p.2.kennel th.lid)).isSome).map (·.1)
  let near := fun (a b : Nat) => decide (distance own a < distance own b) || (distance own a == distance own b && decide (a < b))
  cands.foldl (fun best c => match best with | none => some c | some b => if near c b then some c else some b) none

/-- Obtains an entry of a kind for the current thread: its own Kennel's youngest, else the nearest victim's oldest
(R40, R286, R307). -/
def obtain (s : State) (pair : Bool) : Option (State × KEntry) :=
  let l := s.th.lid
  let own := s.th.placeCore
  match youngest pair ((s.coreOf own).kennel l) with
  | some i => (((s.coreOf own).kennel l)[i]?).map fun e => (reserveEntry s own i, s.readEntry own l e)
  | none =>
    if s.launch.det then none
    else
      match victim s s.cur pair with
      | none => none
      | some v =>
        match oldestVisible pair ((s.coreOf v).kennel l) with
        | some i => (((s.coreOf v).kennel l)[i]?).map fun e => (countEvent (reserveEntry s v i) s.cur 14 1, s.readEntry v l e)
        | none => none

/-! ## Task records and the table (R306, R308) -/

/-- Word 0 of a task record is a PC (R306). -/
def taskPcOk (w : Word) : Bool := bits w 63 56 == 0 && bits w 1 0 == 0

/-- Illegal in a DET launch and in a rewrite (R305). -/
def taskIllegal (s : State) (i : Instr) (det : Bool) : Option Stop :=
  if (det && s.launch.det) || s.th.regs.inRewrite then some (illegal i) else none

/-- Physical address of entry i of the task table of a core for a launch (R308). -/
def taskEntry (s : State) (l core i : Nat) : Nat :=
  cspName (clusterOf core) (sliceOf core) ((s.launchOf l).csp * 2 ^ 18 - 65536 + 32 * i)

def taskCount (s : State) (pa : Nat) : Nat := leNat (memRead s.mem (pa + 16) 4)
def taskState (s : State) (pa : Nat) : Nat := (memGet s.mem (pa + 20)).toNat

/-- STATE and COUNT of an entry as a JOIN or a decrement reads them: free values where software has stored into it (R6, R308;
log 152). -/
def readEntry (s : State) (pa : Nat) : Nat × Nat × State :=
  if s.spoiled.contains pa then
    let (ws, s) := s.freshList 2
    ((ws.getD 1 0).toNat % 3, (ws.getD 0 0).toNat % 2 ^ 32, s)
  else (taskState s pa, taskCount s pa, s)

/-- A handle is well formed and its home core lies in the launch rectangle: the home core and entry (R308, R310). -/
def handleOf (s : State) (l : Nat) (h : Word) : Option (Nat × Nat) :=
  if bits h 63 32 ≠ 0 ∨ bits h 15 11 ≠ 0 then none
  else
    match scopeOf (s.launchOf l).rect with
    | some (.cores x0 y0 x1 y1) =>
      let x := bits h 23 16
      let y := bits h 31 24
      if x0 ≤ x ∧ x ≤ x1 ∧ y0 ≤ y ∧ y ≤ y1 then some (coreAt x y, bits h 10 0) else none
    | _ => none

/-- A handle of the current launch, or QUEUEBAD (R310). -/
def needHandle (s : State) (h : Word) : Except Stop (Nat × Nat) :=
  match handleOf s s.th.lid h with
  | some r => .ok r
  | none => .error (.trap 55 h)

/-- The lowest INDEX of a core's table that is free and not allocated by an uncommitted chunk (R309). -/
def freeIndex (s : State) (core : Nat) : Option Nat :=
  let l := s.th.lid
  let taken := (s.threads.filter fun p => p.2.placeCore == core && p.2.lid == l).flatMap fun p =>
    p.2.chunks.flatMap fun c => c.news.map (·.1)
  (List.range 2048).find? fun i => taskState s (taskEntry s l core i) == 0 && !taken.contains i

/-- SPAWN (R306). -/
def execSpawn (p : Bool) (a b : Reg) (s : State) : Out :=
  runInstr p (taskIllegal s (.spawn p a b) true) [.x a, .x b] (fun s => do
    notInEvent s 0
    if !taskPcOk (s.x a) then .error (.trap 55 (s.x a))
    else
      let core := s.th.placeCore
      let l := s.th.lid
      if (s.coreOf core).freePlaces l = 0 then .error (.trap 55 0)
      else
        .ok (s.pushEntry core l (kennelRecord false (s.x a) (s.x b) (some s.th.chunk.uid)), .seq)) s

/-- A plain read of n doublewords from an aligned virtual address. -/
def loadWords (s : State) (va n : Nat) : Except Stop (State × List Word) := do
  let (s, bs) ← loadMany s 8 false ((List.range n).map fun i => va + 8 * i)
  .ok (s, bs.map fun b => BitVec.ofNat 64 (leNat b))

/-- A pair of far-class results. -/
def State.setFarPair (s : State) (d : Reg) (w0 w1 : Word) : State :=
  (s.setLong .far (.x d w0) none).setLong .far (.x (d + 1) w1) none

/-- The record that the fixed list gives to TAKE number j, by its place (R312). -/
def listPlace (t : TaskList) (l j threads : Nat) : Option Nat :=
  if t.blocked then
    let q := (t.count + threads - 1) / threads
    if j < q ∧ l * q + j < t.count then some (l * q + j) else none
  else if l + j * threads < t.count then some (l + j * threads) else none

/-- TAKE (R307): the fixed list, the own Kennel, or a wait for a steal after the chunk ends. -/
def execTake (p : Bool) (d : Reg) (s : State) : Out :=
  runInstr p none [.x d, .x (d + 1)] (fun s => do
    notInEvent s 0
    noRewrite s
    let j := s.th.regs.taskPos
    match s.th.regs.tasks with
    | some t =>
      let s := s.modRegs fun r => { r with taskPos := j + 1 }
      match listPlace t s.th.lindex j s.launch.threads with
      | some k =>
        let (s, ws) ← loadWords s (bits t.base 55 0 + 16 * k) 2
        .ok (s.setFarPair d (ws.getD 0 0) (ws.getD 1 0), .seq)
      | none => .ok (s.setFarPair d 0 0, .seq)
    | none =>
      if s.launch.det then .ok (s.setFarPair d 0 0, .seq)
      else
        let core := s.th.placeCore
        let k := (s.coreOf core).kennel s.th.lid
        match youngest false k with
        | some i =>
          let e := (k[i]?).map (s.readEntry core s.th.lid)
          .ok ((reserveEntry s core i).setFarPair d ((e.map (·.w0)).getD 0) ((e.map (·.w1)).getD 0), .seq)
        | none => .ok (s, .cut 18 (some (.take d)))) s

/-- TNEW (R309). -/
def execTnew (p : Bool) (d a b : Reg) (s : State) : Out :=
  runInstr p (taskIllegal s (.tnew p d a b) true) [.x a, .x b, .x d] (fun s => do
    notInEvent s 0
    let n := s.x b
    if s.launch.csp = 0 then .error (.trap 55 0)
    else if n = 0 ∨ 2 ^ 32 ≤ n.toNat then .error (.trap 55 n)
    else
      let core := s.th.placeCore
      let (s, w0, w1) ← (if s.x a = 0 then Except.ok (s, (0 : Word), (0 : Word)) else do
        let va ← pointerAddr (s.x a) 0
        let (s, ws) ← loadWords s va 2
        if taskPcOk (ws.getD 0 0) then .ok (s, ws.getD 0 0, ws.getD 1 0) else .error (.trap 55 (ws.getD 0 0)))
      match freeIndex s core with
      | none => .error (.trap 55 0)
      | some i =>
        let s ← (if s.x a = 0 then .ok s else reservePlaces s 1)
        let s := s.modChunk fun c => { c with news := c.news ++ [(i, w0, w1, n.setWidth 32)] }
        let h : Word := BitVec.ofNat 64 (coreY core * 2 ^ 24 + coreX core * 2 ^ 16 + i)
        let join := decide (s.x a = 0)
        -- a join entry is told by STATE 2 (R308)
        let s := s.modChunk fun c => { c with newJoins := if join then i :: c.newJoins else c.newJoins }
        .ok (s.setX d h, .seq)) s

/-- TDEC: the decrement is post-commit (R310). -/
def execTdec (p : Bool) (a : Reg) (s : State) : Out :=
  runInstr p (taskIllegal s (.tdec p a) true) [.x a] (fun s => do
    notInEvent s 0
    let _ ← needHandle s (s.x a)
    .ok (s.postCommit (.decrement (s.x a)), .seq)) s

/-- An entry of a task table that a TNEW has allocated for a join and that is not yet in the table: it is in a chunk of the
thread, or in a granted chunk whose list is not released (R309, R311; log 132). -/
def joinComing (s : State) (t core i : Nat) : Bool :=
  let l := (s.thr t).lid
  s.threads.any fun p => p.2.placeCore == core && p.2.lid == l &&
    p.2.chunks.any fun c => (p.1 == t || !c.inFlight) && c.newJoins.contains i

/-- JOIN (R311). -/
def execJoin (p : Bool) (a : Reg) (s : State) : Out :=
  runInstr p (if s.launch.det then some (illegal (.join p a)) else none) [.x a] (fun s => do
    notInEvent s 0
    noRewrite s
    let h := s.x a
    let (core, i) ← needHandle s h
    let pa := taskEntry s s.th.lid core i
    if joinComing s s.cur core i then .ok (s, .cut 8 (some (.join h)))
    else
      let (st, n, s) := readEntry s pa
      if s.launch.csp = 0 ∨ st ≠ 2 then .error (.trap 55 h)
      else if n = 0 then .ok (s.modChunk fun c => { c with joins := c.joins ++ [h] }, .seq)
      else .ok (s, .cut 8 (some (.join h)))) s

/-- TEXIT (R313): in an event it first ends the event; in optimistic mode it then leaves it, and where it must wait the
chunk ends before the wait (code 6) and TEXIT completes alone in the thread's last chunk. -/
def execTexit (p : Bool) (s : State) : Out :=
  runInstr p (taskIllegal s (.texit p) false) [] (fun s =>
    let s := if s.inEvent then s.modRegs fun r => { r with opt := r.opt.endEvent } else s
    if s.th.regs.opt.on && optoffWaits s s.cur then
      if s.th.chunk.count ≠ 0 ∧ s.th.older.isSome then .error (.stall .olderCommit)
      else
        let s := s.cutChunk s.cur 6
        .error (.leave (s.modTh fun th => { th with status := .wait (.optoff true) }))
    else
      let s := if s.th.regs.opt.on then s.modRegs Regs.leaveOpt else s
      .ok (s.modChunk fun c => { c with exits := true }, .cut 24 none)) s

/-- A TLIST descriptor is well formed (R312). -/
def taskListOk (ws : List Word) : Bool :=
  let w := fun (i : Nat) => ws.getD i 0
  bits (w 0) 3 0 == 0 && decide ((w 1).toNat ≤ 2 ^ 32) && bits (w 2) 63 1 == 0 && w 3 == 0

/-- The list a descriptor gives. -/
def taskListOf (ws : List Word) : TaskList :=
  { base := ws.getD 0 0, count := (ws.getD 1 0).toNat, blocked := (ws.getD 2 0).getLsbD 0 }

/-- TLIST (R312). -/
def execTlist (p : Bool) (a : Reg) (s : State) : Out :=
  runInstr p (taskIllegal s (.tlist p a) false) [.x a] (fun s => do
    notInEvent s 0
    if s.x a = 0 then .ok (s.modRegs fun r => { r with tasks := none, taskPos := 0 }, .seq)
    else
      let va ← pointerAddr (s.x a) 0
      let (s, ws) ← loadWords s va 4
      if taskListOk ws then .ok (s.modRegs fun r => { r with tasks := some (taskListOf ws), taskPos := 0 }, .seq)
      else .error (.trap 55 (s.x a))) s

end Sys2Proof.Machine
end

