-- ==== Sys2Proof/Machine/Engines.lean ====
section
/-!
DEFINITION. Posting engine commands and awaiting them: BATCH, ENQ, ENGQ, WAITB (15_engines R217 to R224).
-/
namespace Sys2Proof.Machine

/-- Scoreboard entries that ENQ reserves for a KIND (R219). -/
def entriesOf (kind : Nat) : Nat :=
  if kind = 0x01 then 4 else if kind = 0x02 then 3 else if kind = 0x03 ∨ kind = 0x06 then 5
  else if kind = 0x04 then 1 else if kind = 0x05 then 2
  else if 0x10 ≤ kind ∧ kind ≤ 0x14 then 2 else 1

/-- The command's words, as numbers of fields. -/
def Command.kind (c : Command) : Nat := bits c.w0 7 0
def Command.flag (c : Command) (b : Nat) : Bool := c.w0.getLsbD b

/-- A fault that no WAITB has reported (R222). -/
def Command.faulted (c : Command) : Bool := c.cls != 0 && !c.reported

/-- The ticket of a command (R218). -/
def Command.ticket (c : Command) : Word :=
  BitVec.ofNat 64 (c.engine.toNat * 2 ^ 36 + c.batch.toNat * 2 ^ 32 + c.serial.toNat)

/-- The commands of a list of post-commit actions. -/
def actCommands (l : List Act) : List Command :=
  l.filterMap fun a => match a with | .command c => some c | _ => none

/-- Commands posted and not yet installed: of a chunk, and on their way after its release. -/
def Thread.posted (th : Thread) : List Command := th.chunks.flatMap fun c => actCommands c.post
def State.inFlight (s : State) : List Command := s.flights.filterMap fun f => match f.act with | .command c => some c | _ => none

/-- Scoreboard entries of a core reserved by uncommitted chunks (R122, R220). -/
def State.sbReserved (s : State) (core : Nat) : Nat :=
  s.threads.foldl (fun n p => if p.2.placeCore = core then
    n + (p.2.chunks.filter Chunk.inFlight).foldl (fun k c => k + c.sbRes) 0 else n) 0

/-- Entries reserved by granted chunks and by commands that are not installed yet. -/
def State.sbComing (s : State) (core : Nat) : Nat :=
  s.threads.foldl (fun n p => if p.2.placeCore = core then
    n + (p.2.chunks.filter fun c => !c.inFlight).foldl (fun k c => k + c.sbRes) 0 else n) 0 +
  (s.inFlight.filter fun c => c.core == core).foldl (fun n c => n + c.entries) 0

/-- Free scoreboard entries of a core. -/
def State.sbFree (s : State) (core : Nat) : Nat :=
  Config.scoreboardEntries - ((s.coreOf core).sb.length + s.sbReserved core + s.sbComing core)

/-- Reserves scoreboard entries: a cut (code 20) where uncommitted chunks hold some, else a wait (R220). A rewrite
squashes and waits before its IXPOP (R291). -/
def reserveEntries (s : State) (n : Nat) : Except Stop State :=
  let core := s.th.placeCore
  if n ≤ s.sbFree core then .ok (s.modChunk fun c => { c with sbRes := c.sbRes + n })
  else if s.sbReserved core = 0 then .error (.stall .entries)
  else if s.th.regs.inRewrite then .error (.undoRewrite (.entries n))
  else .error (.cut 20 .entries)

/-- Posts a command: the reservation, the ticket and the post-commit entry (R218, R219). -/
def postCommand (s : State) (w0 w1 w2 w3 : Word) (e : BitVec 2) : Except Stop (State × Word) := do
  let r := s.th.regs
  let w0 := putBits w0 16 4 r.csr.batchno.toNat
  let kind := bits w0 7 0
  let n := entriesOf kind
  let s ← reserveEntries s n
  let serial : BitVec 32 := if r.serial + 1 = 0 then 1 else r.serial + 1
  let mmag := decide (kind = 0x02)
  let c : Command :=
    { id := s.nextCmd, tid := s.cur, lid := s.th.lid, core := s.th.placeCore, engine := e, serial := serial
      batch := r.csr.batchno, w0 := w0, w1 := w1, w2 := w2, w3 := w3
      snap := if mmag then r.getG (w2.setWidth 3) else 0
      key := if mmag then r.csr.launchkey else 0
      satp := r.csr.satp, cbwin := r.csr.cbwin, entries := n, started := false, state := .waiting, cls := 0, detail := 0, reported := false
      mark := none, satcnt := 0, flags := 0, resend := false, progress := 0, sent := false, data := [], held := [] }
  let s := (s.modRegs fun r => { r with serial := serial }).postCommit (.command c)
  .ok ({ s with nextCmd := s.nextCmd + 1 }, c.ticket)

/-- BATCH (R217). -/
def execBatch (p : Bool) (n : BitVec 4) (s : State) : Out :=
  runInstr p none [] (fun s => .ok (s.setCsr 0x80A fun c => { c with batchno := n }, .seq)) s

/-- The registers of ENQ's group. -/
def groupRegs (a : Reg) : List RegName := [.x a, .x (a + 1), .x (a + 2), .x (a + 3)]

/-- ENQ (R219); engine 3 in S mode only (R51). -/
def execEnq (p : Bool) (d a : Reg) (e : BitVec 2) (s : State) : Out :=
  runInstr p (if e = 3 ∧ !s.th.regs.smode then some (illegal (.enq p d a e)) else none) (groupRegs a ++ [.x d]) (fun s => do
    notInEvent s 0
    let (s, t) ← postCommand s (s.x a) (s.x (a + 1)) (s.x (a + 2)) (s.x (a + 3)) e
    .ok (s.setX d t, .seq)) s

/-- A thread's command with a ticket: its record, and whether it is installed. -/
def findTicket (s : State) (t : Nat) (w : Word) : Option (Command × Bool) :=
  match s.cmds.find? fun c => c.tid == t && c.ticket == w with
  | some c => some (c, true)
  | none =>
    ((((s.thr t).posted ++ s.inFlight).find? fun c => c.tid == t && c.ticket == w)).map fun c => (c, false)

/-- STATE of a status word (R223). -/
def stateCode (c : Command) (installed : Bool) : Nat :=
  if !installed then 0
  else match c.state with | .waiting => 1 | .running => 2 | .done => 2 | .retired => 3

/-- The status word (R223). -/
def statusWord (s : State) (t : Nat) (w : Word) : Word :=
  match findTicket s t w with
  | none => BitVec.ofNat 64 (256 + 12 + 1)
  | some (c, inst) =>
    let st := stateCode c inst
    BitVec.ofNat 64 (c.satcnt % 2 ^ 32 * 2 ^ 32 + c.cls * 16 + st * 4 + b2n (c.cls != 0) * 2 + b2n (st == 3))

/-- The detail word: a command is marked when it completes (R176, R223, R224). -/
def detailWord (s : State) (t : Nat) (w : Word) : Word :=
  match findTicket s t w with
  | none => 0
  | some (c, _) =>
    if c.cls ≠ 0 then c.detail
    else if c.state == .done || c.state == .retired then match c.mark with | some m => BitVec.ofNat 64 m | none => 0
    else 0

/-- ENGQ (R223). -/
def execEngq (p : Bool) (d a : Reg) (s : State) : Out :=
  runInstr p none [.x a, .x d] (fun s =>
    let w := s.x a
    let t := putBits w 63 1 0
    .ok (s.setX d (if w.getLsbD 63 then detailWord s s.cur t else statusWord s s.cur t), .seq)) s

/-- WAITB: the chunk ends, and the thread waits for the batch (R222). -/
def execWaitb (p : Bool) (n : BitVec 4) (s : State) : Out :=
  runInstr p none [] (fun s => do
    notInEvent s 0
    noRewrite s
    .ok (s, .cut 4 (some (.batch n s.pc)))) s

/-- Every command of a batch that the thread posted has retired and released (R222). -/
def batchDone (s : State) (t : Nat) (n : BitVec 4) : Bool :=
  !((s.thr t).posted.any fun c => c.batch == n) && !(s.inFlight.any fun c => c.tid == t && c.batch == n) &&
    s.cmds.all fun c => c.tid != t || c.batch != n || c.state == .retired

/-- Completes a WAITB: the earliest faulted or marked command is reported by a trap and cleared, else the batch's
commands are forgotten (R222, R223). -/
def finishBatch (s : State) (t : Nat) (n : BitVec 4) (pc : Word) : State :=
  match s.cmds.find? fun c => c.tid == t && c.batch == n && (c.faulted || c.mark.isSome) with
  | some c =>
    let clear := fun (k : Command) =>
      if k.id == c.id then (if c.faulted then { k with reported := true } else { k with mark := none }) else k
    let s := { s with cmds := s.cmds.map clear }
    if c.faulted then enterHandler s t false 48 c.ticket pc
    else enterHandler s t false 28 (BitVec.ofNat 64 (c.serial.toNat * 2 ^ 32 + c.mark.getD 0)) pc
  | none =>
    let s := { s with cmds := s.cmds.filter fun c => !(c.tid == t && c.batch == n) }
    (s.modThr t fun th => { th with status := .ready }).sealStart t []

end Sys2Proof.Machine
end

