-- ==== Sys2Proof/Machine/Nets.lean ====
section
/-!
DEFINITION. Interaction nets: nodes and ports, the rule table, the node pool and the nets group
(19_nets R277 to R294).
-/
namespace Sys2Proof.Machine

/-! ## Nodes and ports (R277, R278) -/

/-- A node address (R289). -/
def nodeOk (w : Word) : Bool := w != 0 && bits w 5 0 == 0 && bits w 63 56 == 0

/-- A valid port reference (R278). -/
def portOk (w : Word) : Bool := bits w 63 56 == 0 && bits w 5 2 == 0 && bits w 55 6 != 0

/-- The node and the port a reference names. -/
def portNode (w : Word) : Nat := bits w 55 6 * 64
def portNum (w : Word) : Nat := bits w 1 0

/-- The address of the link word of a port (R277). -/
def linkAddr (node port : Nat) : Nat := node + 8 + 8 * port

/-- Checks a node operand (NETBAD 9). -/
def needNode (w : Word) : Except Stop Nat := if nodeOk w then .ok w.toNat else .error (netbad 9 w)

/-- A plain read of a doubleword. -/
def readWord (s : State) (va : Nat) : Except Stop (State × Word) := do
  let (s, b) ← loadVa s va 8 false
  .ok (s, BitVec.ofNat 64 (leNat b))

/-- A plain write of a doubleword. -/
def writeWord (s : State) (va : Nat) (w : Word) : Except Stop State := storeVa s va (leBytes 8 w.toNat)

/-- Illegal in a DET launch (R285). -/
def netIllegal (s : State) (i : Instr) : Option Stop := if s.launch.det then some (illegal i) else none

/-- Pushes an active pair by PostCommit, lower address first, in a reserved place (R279, R302). -/
def pushPair (s : State) (n m : Nat) : State :=
  s.postCommit (.pairPush (BitVec.ofNat 64 (Nat.min n m)) (BitVec.ofNat 64 (Nat.max n m)))

/-! ## The node pool (R293) -/

/-- The pool descriptor. -/
structure Pool where
  pa     : Nat
  base   : Word
  count  : Nat
  next   : Nat
  spill  : Word
  spilln : Nat
  deriving DecidableEq, Repr

/-- Reads the descriptor at its home; none where it is malformed (R293). -/
def poolAt (s : State) (pa : Nat) : Option Pool :=
  let w := fun (i : Nat) => s.dword (pa + 8 * i)
  if bits (w 0) 5 0 = 0 ∧ 1 ≤ (w 1).toNat ∧ (w 1).toNat ≤ 2 ^ 32 ∧ bits (w 3) 5 0 = 0 ∧ (w 4).toNat % 32 = 0 ∧
      w 6 = 0 ∧ w 7 = 0 then
    some { pa := pa, base := w 0, count := (w 1).toNat, next := (w 2).toNat, spill := w 3, spilln := (w 4).toNat }
  else none

/-- The current thread's pool, or NETBAD 5. Where the descriptor's address does not translate, the load's own fault is
raised with that address (log 137). -/
def needPool (s : State) : Except Stop (State × Pool) := do
  let (s, pa, _) ← translateTh s .load s.th.regs.csr.ixpool.toNat
  match poolAt s pa with
  | some p => .ok (s, p)
  | none => .error (netbad 5 0)

/-- The place of a core in its launch rectangle, row by row (R19, R293). -/
def rectIndex (rect : Word) (c : Nat) : Nat :=
  match scopeOf rect with
  | some (.cores x0 y0 x1 _) => (coreY c - y0) * (x1 - x0 + 1) + (coreX c - x0)
  | _ => 0

/-- The virtual address of entry i of a core's spill stack (R293). -/
def stackEntry (p : Pool) (rect : Word) (c i : Nat) : Nat := (p.spill.toNat + 8 * p.spilln * rectIndex rect c + 8 * i) % 2 ^ 56

/-- The free-node cache of the current thread's core for its launch. -/
def State.nodeCache (s : State) : List Word := tabGet [] (s.coreOf s.th.placeCore).caches s.th.lid

/-- Nodes that a refill could still bring (R293). -/
def poolLeft (s : State) (p : Pool) : Nat :=
  tabGet 0 (s.coreOf s.th.placeCore).stacked s.th.lid + (p.count - p.next)

/-- Takes n nodes from the cache; the thread is not ready during a refill, and NETBAD 5 says that none can be obtained
(R293). -/
def takeNodes (s : State) (n : Nat) : Except Stop (State × List Word) :=
  let c := s.nodeCache
  if n ≤ c.length then
    let core := s.th.placeCore
    let l := s.th.lid
    let s := (s.modCore core fun k => { k with caches := tabSet k.caches l (c.drop n) }).modChunk
      fun k => { k with nodes := k.nodes ++ c.take n }
    .ok (s, c.take n)
  else do
    let (s, p) ← needPool s
    if poolLeft s p = 0 then .error (netbad 5 0) else .error (.stall .refill)

/-- Refills the current thread's cache with up to 32 addresses: from the spill stack first, then fresh ones by a
fetch-and-add of NEXT (R293). They stand below what the cache still holds. The manual is silent on a descriptor or stack
entry that does not translate: the refill then brings nothing, or address 0 for that entry (log 137). -/
def refillCache (s : State) : State :=
  let th := s.th
  let core := th.placeCore
  let tr := fun (va : Nat) => match translateTh s .load va with | .ok (_, pa, _) => some pa | .error _ => none
  match tr th.regs.csr.ixpool.toNat with
  | none => s
  | some pa =>
    match poolAt s pa with
    | none => s
    | some p =>
      let have_ := tabGet 0 (s.coreOf core).stacked th.lid
      let fromStack := Nat.min 32 have_
      let popped := (List.range fromStack).map fun i =>
        match tr (stackEntry p (s.launchOf th.lid).rect core (have_ - fromStack + i)) with
        | some a => s.dword a
        | none => 0
      let want := 32 - fromStack
      let fresh := Nat.min want (p.count - p.next)
      let news := (List.range fresh).map fun i => p.base + BitVec.ofNat 64 (64 * (p.next + i))
      let s := if fresh = 0 then s else s.quietWrite (p.pa + 16) (leBytes 8 (p.next + fresh))
      let s := s.modCore core fun k => { k with
        caches := tabSet k.caches th.lid (tabGet [] k.caches th.lid ++ (popped ++ news).reverse)
        stacked := tabSet k.stacked th.lid (have_ - fromStack) }
      { s with threads := s.threads.map fun (q : Nat × Thread) =>
          (q.1, if q.2.placeCore == core && q.2.lid == th.lid && q.2.status == .retry .refill
            then { q.2 with status := .ready } else q.2) }

/-- Adds freed nodes to the cache at commit; above 64 the oldest 32 go to the spill stack, and what a full stack cannot
take is dropped and counted in LOST (R293). The manual is silent on a descriptor or stack entry that does not translate:
the nodes are then lost uncounted (log 137). Whether a node that the cache holds already enters it again, a free value
tells; one freed twice that is elsewhere enters twice (R6, R294; log 152). -/
def freeNodes (s : State) (nodes : List Word) : State :=
  nodes.foldl (fun s n =>
    let th := s.th
    let core := th.placeCore
    let old := tabGet [] (s.coreOf core).caches th.lid
    let (w, s) := if old.contains n then s.fresh else (0, s)
    let c := if w.getLsbD 0 then old else n :: old
    if c.length ≤ 64 then s.modCore core fun k => { k with caches := tabSet k.caches th.lid c }
    else
      let keep := c.take (c.length - 32)
      let out := (c.drop (c.length - 32)).reverse
      let s := s.modCore core fun k => { k with caches := tabSet k.caches th.lid keep }
      match (match translateTh s .load th.regs.csr.ixpool.toNat with
        | .ok (_, pa, _) => poolAt s pa | .error _ => none) with
      | none => s
      | some p =>
        out.foldl (fun s w =>
          let have_ := tabGet 0 (s.coreOf core).stacked th.lid
          if p.spilln ≤ have_ then
            s.quietWrite (p.pa + 40) (leBytes 8 ((s.dword (p.pa + 40)).toNat + 1))
          else
            let s := match translateTh s .store (stackEntry p (s.launchOf th.lid).rect core have_) with
              | .ok (_, pa, _) => s.quietWrite pa (leBytes 8 w.toNat)
              | .error _ => s
            s.modCore core fun k => { k with stacked := tabSet k.stacked th.lid (have_ + 1) }) s) s

/-! ## Instructions -/

/-- Starts a rewrite with an obtained record (R286). -/
def startRewrite (s : State) (d : Reg) (e : KEntry) : State :=
  let pc := s.pc
  let s := (s.setX d e.w0).setX (d + 1) e.w1
  let s := s.modRegs fun r => { r with inRewrite := true, popPc := pc, popD := d, popW0 := e.w0, popW1 := e.w1 }
  s.modChunk fun c => { c with rewrite := true }

/-- IXPOP: right after another cut its code is the one reported if it is lower (R32, R286, R287). -/
def execIxpop (p : Bool) (d : Reg) (s : State) : Out :=
  let i := Instr.ixpop p d
  runInstr p (if s.launch.det || s.th.regs.inRewrite then some (illegal i) else none) [.x d, .x (d + 1)] (fun s => do
    notInEvent s 0
    if s.th.chunk.count ≠ 0 then .error (.cut 11 (.ixpop d))
    else
      let s := s.cutChunk s.cur 11
      match obtain s true with
      | some (s, e) => .ok (startRewrite s d e, .seq)
      | none => .error (.leave (s.stall (.ixpop d)))) s

/-- IXDONE (R288). -/
def execIxdone (p : Bool) (s : State) : Out :=
  runInstr p (if s.launch.det || !s.th.regs.inRewrite then some (illegal (.ixdone p)) else none) [] (fun s => do
    notInEvent s 0
    .ok (s.modRegs fun r => { r with inRewrite := false }, .cut 12 none)) s

/-- IXNEW (R294). -/
def execIxnew (p : Bool) (d : Reg) (s : State) : Out :=
  runInstr p (netIllegal s (.ixnew p d)) [.x d] (fun s => do
    notInEvent s 0
    let (s, ns) ← takeNodes s 1
    .ok (s.setX d (ns.headD 0), .seq)) s

/-- Checks of IXFREE: a node address inside the pool (R294). -/
def freeNode (s : State) (w : Word) : Except Stop State := do
  let n ← needNode w
  let (s, p) ← needPool s
  if p.base.toNat ≤ n ∧ n < p.base.toNat + 64 * p.count then .ok (s.modChunk fun c => { c with freed := c.freed ++ [w] })
  else .error (netbad 10 w)

/-- IXFREE (R294). -/
def execIxfree (p : Bool) (a : Reg) (s : State) : Out :=
  runInstr p (netIllegal s (.ixfree p a)) [.x a] (fun s => do
    notInEvent s 0
    let s ← freeNode s (s.x a)
    .ok (s, .seq)) s

/-- Reads LINK0 of both nodes and checks that they form an active pair (R279; NETBAD 2). -/
def needPair (s : State) (na nb : Word) : Except Stop State := do
  let (s, la) ← readWord s (linkAddr na.toNat 0)
  let (s, lb) ← readWord s (linkAddr nb.toNat 0)
  if la = nb ∧ lb = na ∧ na ≠ nb then .ok s else .error (netbad 2 na)

/-- IXPAIR (R292). -/
def execIxpair (p : Bool) (a b : Reg) (s : State) : Out :=
  runInstr p (netIllegal s (.ixpair p a b)) [.x a, .x b] (fun s => do
    notInEvent s 0
    let na := s.x a
    let nb := s.x b
    let _ ← needNode na
    let _ ← needNode nb
    let s ← needPair s na nb
    let s ← reservePlaces s 1
    .ok (pushPair s na.toNat nb.toNat, .seq)) s

/-- The port number is within the node's ARITY (NETBAD 7). -/
def needPort (s : State) (x : Word) : Except Stop State := do
  let (s, h) ← readWord s (portNode x)
  if bits h 9 8 < portNum x then .error (netbad 7 (BitVec.ofNat 64 (portNode x))) else .ok s

/-- IXLINK (R292). -/
def execIxlink (p : Bool) (a b : Reg) (s : State) : Out :=
  runInstr p (netIllegal s (.ixlink p a b)) [.x a, .x b] (fun s => do
    notInEvent s 0
    let x := s.x a
    let y := s.x b
    if !portOk x then .error (netbad 9 x)
    else if !portOk y || x == y then .error (netbad 9 y)
    else
      let s ← needPort s x
      let s ← needPort s y
      let s ← (if portNum x = 0 ∧ portNum y = 0 then reservePlaces s 1 else .ok s)
      let s ← writeWord s (linkAddr (portNode x) (portNum x)) y
      let s ← writeWord s (linkAddr (portNode y) (portNum y)) x
      .ok (if portNum x = 0 ∧ portNum y = 0 then pushPair s (portNode x) (portNode y) else s, .seq)) s

/-! ## Rules (R280 to R282, R289 to R291) -/

/-- A rule entry's doublewords (R280). -/
structure RuleEntry where
  e0 : Word
  e1 : Word
  deriving DecidableEq, Repr

def RuleEntry.type (e : RuleEntry) : Nat := bits e.e0 2 0

/-- Reads the entry for a pair of kinds. -/
def readRule (s : State) (ka kb : Nat) : Except Stop (State × RuleEntry) := do
  let a := (s.th.regs.csr.ixrules.toNat + (ka * 64 + kb) * 16) % 2 ^ 56
  let (s, e0) ← readWord s a
  let (s, e1) ← readWord s (a + 8)
  .ok (s, ⟨e0, e1⟩)

/-- The entry is well formed (R281). -/
def RuleEntry.ok (e : RuleEntry) : Bool :=
  match e.type with
  | 1 => bits e.e0 63 56 == 0 && decide (bits e.e0 5 3 ≤ 4) && e.e1 == 0
  | 2 => bits e.e0 63 3 == 0 && bits e.e1 63 56 == 0 && bits e.e1 1 0 == 0
  | 3 => bits e.e0 63 56 == 0 && decide (bits e.e0 4 3 ≤ 2) && bits e.e1 63 62 == 0 && decide (bits e.e1 5 3 ≤ 4) &&
      bits e.e1 2 0 == 0
  | _ => false

/-- A template record (R282). -/
structure Template where
  h    : List Word
  wire : List (Nat × Nat)
  psrc : List Nat
  nw   : Nat
  tail : Bool
  deriving DecidableEq, Repr

/-- Reads a template record's bytes. -/
def templateOf (bs : List Byte) : Template :=
  let b := fun (i : Nat) => (bs.getD i 0).toNat
  { h := (List.range 4).map (lineWord bs), wire := (List.range 12).map fun k => (b (32 + 2 * k), b (33 + 2 * k))
    psrc := (List.range 4).map fun i => b (56 + i), nw := b 60
    tail := b 61 == 0 && b 62 == 0 && b 63 == 0 }

/-- An endpoint's WHO and PORT. -/
def endWho (e : Nat) : Nat := e / 16 % 8
def endPort (e : Nat) : Nat := e % 4

/-- The endpoints of the first NW pairs, in order. -/
def Template.ends (t : Template) : List Nat := (t.wire.take t.nw).flatMap fun p => [p.1, p.2]

/-- An endpoint is well formed for roles of the given arities (R282). -/
def endOk (t : Template) (nnew aa ab e : Nat) : Bool :=
  let who := endWho e
  let port := endPort e
  e / 128 == 0 && e / 4 % 4 == 0 && decide (who < 6) &&
  if who < 4 then decide (who < nnew) && decide (port ≤ bits (t.h.getD who 0) 9 8)
  else decide (1 ≤ port) && decide (port ≤ if who = 4 then aa else ab)

/-- The record is well formed (R282, reason 3). -/
def Template.ok (t : Template) (nnew aa ab : Nat) : Bool :=
  t.psrc.all (fun p => decide (p ≤ 2)) && decide (t.nw ≤ 12) && t.tail && t.ends.all (endOk t nnew aa ab)

/-- The endpoints that a covering template names exactly once (R282, reason 4). -/
def coverSet (t : Template) (nnew aa ab : Nat) : List Nat :=
  (List.range aa).map (fun i => 64 + i + 1) ++ (List.range ab).map (fun i => 80 + i + 1) ++
    (List.range nnew).flatMap fun n => (List.range (bits (t.h.getD n 0) 9 8 + 1)).map fun p => n * 16 + p

def Template.covers (t : Template) (nnew aa ab : Nat) : Bool :=
  (coverSet t nnew aa ab).all fun e => (t.ends.filter (· == e)).length == 1

/-- Writes the two link words of each wiring pair, and pushes the pairs of principal ports (R290). -/
def wirePairs (s : State) : List (Word × Word) → Except Stop State
  | [] => .ok s
  | (x, y) :: r => do
    let s ← writeWord s (linkAddr (portNode x) (portNum x)) y
    let s ← writeWord s (linkAddr (portNode y) (portNum y)) x
    wirePairs (if portNum x = 0 ∧ portNum y = 0 then pushPair s (portNode x) (portNode y) else s) r

/-- Reads the neighbours that the endpoints of WHO 4 and 5 name (R290). -/
def readEnds (s : State) (na nb : Nat) (nodes : List Word) : List Nat → Except Stop (State × List Word)
  | [] => .ok (s, [])
  | e :: es => do
    let who := endWho e
    let (s, w) ← (if who < 4 then Except.ok (s, nodes.getD who 0 ||| BitVec.ofNat 64 (endPort e))
      else readWord s (linkAddr (if who = 4 then na else nb) (endPort e)))
    let (s, ws) ← readEnds s na nb nodes es
    .ok (s, w :: ws)

/-- Reads words 5 to 7 of a node. -/
def readPay (s : State) (n : Nat) : Except Stop (State × List Word) := loadWords s (n + 40) 3

/-- Writes the new nodes: the header, zeros, and PAY as PSRC says; a ticket goes to word 7 of the first (R290). -/
def writeNodes (s : State) (t : Template) (payA payB : List Word) : List (Nat × Word) → Except Stop State
  | [] => .ok s
  | (i, n) :: r => do
    let pay := match t.psrc.getD i 0 with | 1 => payA | 2 => payB | _ => [0, 0, 0]
    let ws := [t.h.getD i 0, 0, 0, 0, 0] ++ pay
    let s ← storeVa s n.toNat (ws.flatMap fun w => leBytes 8 w.toNat)
    writeNodes s t payA payB r

/-- Rewrite (R290); `first` is the first operand node, for reasons 3 and 4. -/
def rewrite (s : State) (first : Word) (na nb : Nat) (tmpl nnew : Nat) (ticket : Option Word) : Except Stop State := do
  let (s, bs) ← loadVa s tmpl 64 false
  let t := templateOf bs
  let (s, ha) ← readWord s na
  let (s, hb) ← readWord s nb
  let aa := bits ha 9 8
  let ab := bits hb 9 8
  if !t.ok nnew aa ab then .error (netbad 3 first)
  else if !t.covers nnew aa ab then .error (netbad 4 first)
  else
    let (s, nodes) ← takeNodes s nnew
    let ends := t.ends
    let (s, res) ← readEnds s na nb nodes ends
    let outer := (ends.zip res).filter fun q => decide (4 ≤ endWho q.1)
    let a : Word := BitVec.ofNat 64 na
    if outer.any fun q => !portOk q.2 then .error (netbad 9 a)
    else if outer.any fun q => portNode q.2 == na || portNode q.2 == nb then .error (netbad 8 a)
    else
      let uses := fun (k : Nat) => (t.psrc.take nnew).any (· == k)
      let (s, payA) ← (if uses 1 then readPay s na else Except.ok (s, []))
      let (s, payB) ← (if uses 2 then readPay s nb else Except.ok (s, []))
      let pairs := (List.range t.nw).map fun k => (res.getD (2 * k) 0, res.getD (2 * k + 1) 0)
      let s ← reservePlaces s (pairs.filter fun p => portNum p.1 == 0 && portNum p.2 == 0).length
      let s ← freeNode s a
      let s ← freeNode s (BitVec.ofNat 64 nb)
      let s ← writeNodes s t payA payB (nodes.zipIdx.map fun q => (q.2, q.1))
      let s ← (match ticket with
        | some w => if nnew = 0 then .ok s else writeWord s ((nodes.headD 0).toNat + 56) w
        | none => .ok s)
      wirePairs s pairs

/-- The word that a selector of a TILEOP gives (R281, R291). -/
def selectWord (s : State) (sel : Nat) (tmpl : Word) (na nb : Nat) : Except Stop (State × Word) :=
  match sel with
  | 0 => .ok (s, tmpl)
  | 1 => readWord s (na + 40)
  | 2 => readWord s (nb + 40)
  | _ => readWord s (nb + 48)

/-- Fire (R291): the command is posted ahead of the rewrite's pushes. -/
def fire (s : State) (first : Word) (na nb : Nat) (e : RuleEntry) : Except Stop State := do
  let (s, ws) ← loadWords s (bits e.e0 55 5 * 32) 4
  let (s, w1) ← selectWord s (bits e.e1 57 56) (ws.getD 1 0) na nb
  let (s, w2) ← selectWord s (bits e.e1 59 58) (ws.getD 2 0) na nb
  let (s, w3) ← selectWord s (bits e.e1 61 60) (ws.getD 3 0) na nb
  let (s, t) ← postCommand s (ws.getD 0 0) w1 w2 w3 (BitVec.ofNat 2 (bits e.e0 4 3))
  rewrite s first na nb (bits e.e1 55 6 * 64) (bits e.e1 5 3) (some t)

/-- IXRULE (R289). -/
def execIxrule (p : Bool) (a b : Reg) (s : State) : Out :=
  let i := Instr.ixrule p a b
  runInstr p (if s.launch.det || !s.th.regs.inRewrite then some (illegal i) else none) [.x a, .x b] (fun s => do
    notInEvent s 0
    let na := s.x a
    let nb := s.x b
    let _ ← needNode na
    let _ ← needNode nb
    let s ← needPair s na nb
    let (s, ha) ← readWord s na.toNat
    let (s, hb) ← readWord s nb.toNat
    let ka := bits ha 7 0
    let kb := bits hb 7 0
    if 63 < ka then .error (netbad 6 na)
    else if 63 < kb then .error (netbad 6 nb)
    else
      let (s, e) ← readRule s ka kb
      let swap := decide (e.type = 0)
      let (s, e) ← (if swap then readRule s kb ka else Except.ok (s, e))
      if e.type = 0 then .error (netbad 1 na)
      else if !e.ok then .error (netbad 3 na)
      else
        let (ra, rb) := if swap then (nb, na) else (na, nb)
        match e.type with
        | 2 =>
          if s.th.regs.marks.contains (.x 1) then .error (.trap 24 (BitVec.ofNat 64 (regCode (.x 1))))
          else
            let pc := s.pc
            let s := if swap then (s.setX a nb).setX b na else s
            .ok (s.setX 1 (pc + 4), .jump (BitVec.ofNat 64 (bits e.e1 55 0)))
        | 1 => do
          let s ← rewrite s na ra.toNat rb.toNat (bits e.e0 55 6 * 64) (bits e.e0 5 3) none
          .ok (s, .seq)
        | _ => do
          let s ← fire s na ra.toNat rb.toNat e
          .ok (s, .seq)) s

end Sys2Proof.Machine
end

