-- ==== Sys2Proof/Machine/Coherence.lean ====
section
/-!
DEFINITION. Non-chunk writes at their homes, invalidations, and what a release waits for
(09_ordering R140 to R145, R155).
-/
namespace Sys2Proof.Machine

/-! ## Holders and invalidations (R120, R137, R141) -/

/-- A core holds a line: a copy in its L1, or a line of an in-flight chunk's signatures (R137). -/
def State.holdsLine (s : State) (core line : Nat) : Bool :=
  ((s.coreOf core).l1.any fun e => e.1 / 64 == line) ||
    (s.coreChunks core).any fun c => c.inFlight && (c.rlines.contains line || c.wlines.contains line)

/-- Every core that has state: copies or threads. -/
def State.activeCores (s : State) : List Nat :=
  ((s.cores.map (·.1)) ++ (s.resident.map fun p => p.2.core)).eraseDups

/-- Drops the L1 copies of the 4-byte words that n bytes at an address touch (R120). -/
def Core.dropBytes (c : Core) (pa n : Nat) : Core := c.keepCopies (outsideWords pa n)

/-- Updates the L1 copies that a core has of bytes, data and instruction (R95, R129). -/
def Core.updateBytes (c : Core) (pa : Nat) (bs : List Byte) : Core :=
  let up := fun (e : Nat × Byte) => (e.1, if pa ≤ e.1 then (bs[e.1 - pa]?).getD e.2 else e.2)
  let c := c.freshCopies ((List.range bs.length).map (pa + ·))
  { c with l1 := c.l1.map up, l1i := c.l1i.map up }

/-- An address in the task table of a core, of a launch with CSP (R308). -/
def State.inTaskTable (s : State) (pa : Nat) : Bool :=
  let core := (clusterCores ((pa - 2 ^ 55) / 2 ^ 23)).getD (pa / 2 ^ 20 % 8) 0
  let o := pa % 2 ^ 20
  decide (2 ^ 55 ≤ pa) && s.launches.any fun l => l.2.csp != 0 && scopeHas l.2.rect core &&
    decide (l.2.csp * 2 ^ 18 - 65536 ≤ o) && decide (o < l.2.csp * 2 ^ 18)

/-- A write in the cluster arrays of the homes, by 64-bit words: whole words get fresh check bits, and an injection of the
thread strikes (R129, R131). -/
def arrayWrites (s : State) (armed : Bool) (t : Nat) (bytes : Mem) : State :=
  let words := (bytes.map fun e => e.1 / 8).eraseDups
  let spoilt := ((words.map (· * 8)).filter s.inTaskTable).map (· / 32 * 32)
  let s := { s with spoiled := (spoilt ++ s.spoiled).eraseDups }
  words.foldl (fun (s : State) w =>
    let core := (clusterCores (s.homeOf (w * 8))).headD 0
    let whole := (List.range 8).all fun i => (tabFind bytes (w * 8 + i)).isSome
    let s := if whole then s.dropFlips core fun f => f.array == 9 && f.addr / 8 == w else s
    if armed && (s.thr t).errinj.getLsbD 0 then s.asThread t fun s => s.inject 9 core 0 (w * 8) else s) s

/-- No thread: the source of a write that no release of a thread waits for. -/
def noThread : Nat := 2 ^ 64

/-- Sends the invalidations of a span to every holder but the core `own` (R141). -/
def sendInvals (s : State) (src : Nat) (own : Option Nat) (pa n : Nat) : State :=
  let sinks := s.activeCores.filter fun c => some c != own && (spanLines pa n).any (s.holdsLine c)
  { s with invals := s.invals ++ sinks.map fun c => ⟨c, pa, n, src, s.homeOf pa⟩ }

/-- A non-chunk write performed at its home: memory takes the bytes and an invalidation of the span goes to every holder.
The L1 of `own`, where there is one, takes the new bytes instead (R95, R100, R141). An injection that the thread `src` has
armed strikes where it is the thread's own write (R131). -/
def homeWriteBy (s : State) (armed : Bool) (src : Nat) (own : Option Nat) (pa : Nat) (bs : List Byte) : State :=
  let s := arrayWrites { s with mem := memWrite s.mem pa bs } armed src (layWrite [] pa bs)
  let s := match own with
    | some c => s.modCore c fun k => k.updateBytes pa bs
    | none => s
  sendInvals s src own pa bs.length

/-- A thread's own write, and another agent's. -/
def homeWrite (s : State) (src : Nat) (own : Option Nat) (pa : Nat) (bs : List Byte) : State := homeWriteBy s true src own pa bs
def agentWrite (s : State) (src pa : Nat) (bs : List Byte) : State := homeWriteBy s false src none pa bs

/-! ## Squashes by other agents (R38, R140) -/

/-- A chunk of the token holder may not be squashed by a conflict (R38). -/
def State.isToken (s : State) (t : Nat) : Bool := s.token == some t

/-- The chunks of a core's threads that a test hits squash, the older before the younger; `skip` names a thread that is
left alone. -/
def squashHit (s : State) (core : Nat) (skip : Option Nat) (hit : Chunk → Bool) : State :=
  let ts := (s.threads.filter fun p => p.2.loc == .slot && p.2.core == core && some p.1 != skip).map (·.1)
  ts.foldl (fun s t =>
    let th := s.thr t
    let old := match th.older with | some c => c.inFlight && hit c | none => false
    if old then squash s t true 0
    else if hit th.chunk then squash s t false 0
    else s) s

/-- Applies an invalidation of a span at a core's L1: the copies go, and chunks that read the lines squash (R140). -/
def invalidateAt (s : State) (core pa n : Nat) : State :=
  let s := s.modCore core fun c => c.dropBytes pa n
  squashHit s core none fun c => (spanLines pa n).any fun l => lineMeets l c

/-- Applies an invalidation of a span at every core that holds it, at once (switch invalidations, snoops and flips). -/
def invalidateAll (s : State) (pa n : Nat) : State :=
  (s.activeCores.filter fun c => (spanLines pa n).any (s.holdsLine c)).foldl (fun s c => invalidateAt s c pa n) s

/-- Some core defers an invalidation of a span (R38). -/
def deferredAny (s : State) (pa n : Nat) : Bool := s.activeCores.any fun c => deferred s c pa n

/-- INVALIDATION_APPLY: the invalidations of one home reach an L1 in order; one that meets the token holder's read set is
deferred (R38, R141). -/
def execInvalidationApply (k : Nat) (s : State) : Out :=
  event (match s.invals[k]? with
    | some v =>
      if (s.invals.take k).any (fun w => w.core == v.core && w.home == v.home) || deferred s v.core v.pa v.len then s
      else invalidateAt { s with invals := s.invals.eraseIdx k } v.core v.pa v.len
    | none => s)

/-! ## Post-commit actions on their way (R36, R142, R145) -/

/-- A flight holds back the later ones of its thread: a release, a barrier arrival, or a command not yet installed
(R36, R142, R221). -/
def Act.holdsBack : Act → Bool
  | .fence _ => true
  | .storeRel _ _ _ => true
  | .irrStore _ _ => true
  | .arrive _ _ => true
  | .command _ => true
  | _ => false

/-- The flights of a thread before place k. -/
def State.earlier (s : State) (k t : Nat) : List Flight := (s.flights.take k).filter fun f => f.tid == t

/-- An installed command of the thread with REL has not yet released (R142, R148). -/
def State.relPending (s : State) (t : Nat) : Bool :=
  s.cmds.any fun c => c.tid == t && c.flag 9 && c.state != .retired

/-- A flight may begin: nothing before it holds it back. -/
def State.free_ (s : State) (k t : Nat) : Bool := !s.relPending t && !(s.earlier k t).any fun f => f.act.holdsBack

/-- An earlier relaxed write of the thread to an overlapping word is not yet performed (R142). -/
def State.sameWord (s : State) (k t pa n : Nat) : Bool :=
  (s.earlier k t).any fun f => f.act.meets pa n

/-- A command has made its last access (R145). -/
def Command.finished (c : Command) : Bool := c.state == .done || c.state == .retired

/-- A far request that writes. -/
def FarKind.writes : FarKind → Bool
  | .group | .red | .rel _ => true
  | .line | .lda _ _ _ => false

/-- A release of a thread on a scope is complete, but for the flights before it: far requests acknowledged, the
commands posted before `before` performed, invalidations applied in the scope, TLB removals done (R79, R145). -/
def released (s : State) (t : Nat) (scope : Word) (before : Nat) : Bool :=
  !(s.far.any fun f => f.tid == t && f.served && f.kind.writes) &&
  s.cmds.all (fun c => c.tid != t || decide (before ≤ c.id) || c.finished) &&
  !(s.invals.any fun v => v.src == t && scopeHas scope v.core) &&
  !(s.tlbinvs.any fun v => v.1 == t)

/-- A flight that is a release may complete (R145). A fence and a barrier's release wait for no engine command (R79,
R80); STX.REL and an irrevocable store wait for the thread's earlier commands (R101, R145). -/
def State.releaseReady (s : State) (k t : Nat) (scope : Word) (commands : Bool) : Bool :=
  !s.relPending t && (s.earlier k t).isEmpty && released s t scope (if commands then s.nextCmd else 0)

/-- The far request that an action is, if it is one: its kind and address (R150). -/
def State.farOf (s : State) : Act → Option (FarKind × Nat)
  | .farGroup _ _ bs _ _ => some (.group, match bs with | b :: _ => b.1 | [] => 0)
  | .reduce _ pa _ _ => if s.isFar pa then some (.red, pa) else none
  | .storeRel _ pa _ => if s.isFar pa then some (.rel false, pa) else none
  | _ => none

/-- Numbers a far request of a thread, which leaves its core (R150). -/
def State.numberFar (s : State) (t : Nat) (k : FarKind) (pa : Nat) : State :=
  ({ s with far := s.far ++ [({ tid := t, num := (s.thr t).farNext, kind := k, pa := pa, served := false } : FarReq)] }).modThr t
    fun th => { th with farNext := th.farNext + 1 }

/-- A message of a thread leaves: its entry of the send queue is busy, and no longer reserved by the committed chunk
(R250). -/
def Thread.sendOne (th : Thread) : Thread :=
  { th with sendBusy := th.sendBusy + 1, older := th.older.map fun c => { c with sendRes := c.sendRes - 1 } }

/-- Sends one action on its way, numbering it where it is a far request (R150). A message's entry of the send queue passes
from its chunk to its way, till its acknowledgement (R250). -/
def sendAct (t : Nat) (s : State) (a : Act) : State :=
  let th := s.thr t
  let out := fun (s : State) (a : Act) => { s with flights := s.flights ++ [(⟨t, th.lid, th.core, a⟩ : Flight)] }
  let s := match s.farOf a with
    | some (k, pa) => s.numberFar t k pa
    | none => s
  match a with
  | .farGroup d _ bs zs ps => out s (.farGroup d th.farNext bs zs ps)
  | .message _ m =>
    let s := countEvent s t 12 1
    out (if m.anti then s else s.modThr t (·.sendOne)) a
  | _ => out s a

/-- Removes a flight. -/
def State.dropFlight (s : State) (k : Nat) : State := { s with flights := s.flights.eraseIdx k }

/-! ## Actions that take effect as soon as nothing holds them back (R34, R36) -/

/-- Applies a change to the optimistic state of a thread in all its copies. -/
def modOpt (s : State) (t : Nat) (f : Opt → Opt) : State :=
  let g := fun (r : Regs) => { r with opt := f r.opt }
  s.modThr t fun th => { th with
    regs := g th.regs
    chunk := { th.chunk with start := g th.chunk.start }
    older := th.older.map fun c => { c with start := g c.start } }

/-- Writes a ring entry at a virtual address, in the thread's translation (R263); where it does not translate, nothing
is written. -/
def ringStore (s : State) (t va : Nat) (bs : List Byte) : State :=
  s.asThread t fun s =>
    (pieces 4 va bs.length).foldl (fun (s : State) p =>
      match translateTh s .store p.1 with
      | .ok (_, pa, _) => s.quietWrite pa ((bs.drop (p.1 - va)).take p.2)
      | .error _ => s) s

/-- The bytes of an output-log entry and of an irrevocable entry (R259). -/
def OutEntry.bytes (e : OutEntry) : List Byte :=
  leBytes 16 e.key.toNat ++ leBytes 8 e.desc.toNat ++ leBytes 8 e.vrt.toNat ++ leBytes 4 e.seq.toNat ++ List.replicate 12 0
def IrrEntry.bytes (e : IrrEntry) : List Byte :=
  leBytes 16 e.key.toNat ++ leBytes 8 e.pa ++ leBytes 8 e.data.toNat

/-- Writes an event CSR of a crossbar (R241). -/
def Core.setEvent (c : Core) (cnt : Bool) (n : BitVec 3) (w : Word) : Core :=
  if cnt then { c with evcnt := c.evcnt.set n.toNat w n.isLt } else { c with evterm := c.evterm.set n.toNat w n.isLt }

/-! ## The context area (R335) -/

/-- The CSR images at 0x0010, in order. -/
def imageCsrs : List Nat :=
  [0x100, 0x141, 0x142, 0x143, 0x140, 0x180, 0x104, 0x105, 0x5C0, 0x5C1, 0x800, 0x801, 0x802, 0x803, 0x804, 0x805,
    0x806, 0x807, 0x808, 0x809, 0x80A, 0x80B, 0x80C, 0x80D, 0x80E, 0x830, 0xCC0, 0xCC8, 0xCC6, 0xCCA]

/-- The header's doubleword (R335). -/
def contextHeader (s : State) (t : Nat) (pair : Bool) : Nat :=
  let th := s.thr t
  th.lindex % 2 ^ 32 * 2 ^ 32 + (s.launchOf th.lid).launchId.toNat * 65536 + th.slot % 16 * 16 + b2n pair * 8 +
    b2n th.regs.smode * 4 + b2n th.tile * 2 + 1

/-- The queues of a thread's bound pair, wherever the pair is, and its partner (R29, R335). -/
def pairQueues (s : State) (t : Nat) : Pair :=
  let th := s.thr t
  let low := if th.slot < 8 then t else (s.outPartner t).getD t
  tabGet ⟨[], []⟩ (s.coreOf th.core).pairs (if th.isOut then outKey low else th.slot % 8)
def State.boundTo (s : State) (t : Nat) : Option Nat := if (s.thr t).isOut then s.outPartner t else s.partner t

/-- A CSR image: what the thread reads. -/
def csrImage (s : State) (t n : Nat) : Word :=
  if n = 0x806 then
    let q := pairQueues s t
    BitVec.ofNat 64 (q.rq.length * 512 + q.fq.length * 16 + b2n (decide (8 ≤ (s.thr t).slot)) * 2 + b2n (s.boundTo t).isSome)
  else csrRead { s with cur := t } (BitVec.ofNat 12 n)

/-- Bytes 0x0C00 to 0x3CFF: tile registers with their scale sides, and accumulators. -/
def tileBytes (r : Regs) : List Byte :=
  (r.tl.toList.flatMap fun t => leBytes 1024 t.bytes.toNat ++ leBytes 32 t.side.toNat) ++
    r.ta.toList.flatMap fun a => leBytes 1024 a.toNat

/-- A set of registers as 24 bytes, a bit for each: file, then number. -/
def markBytes (l : List RegName) : List Byte := leBytes 24 (l.eraseDups.foldl (fun n r => n + 2 ^ regCode r) 0)

/-- Queue entries as bytes: their number, and n doublewords. -/
def queueBytes (n : Nat) (l : List (Word × Nat)) : List Byte :=
  leBytes 8 l.length ++ ((l.flatMap fun (e : Word × Nat) => leBytes 8 e.1.toNat) ++ List.replicate (8 * n) (0 : Byte)).take (8 * n)

/-- What WAITB has to report of a thread's batches: a byte for each batch with the class of its earliest unreported fault,
then four with its earliest mark (R176, R222). -/
def batchBytes (s : State) (t : Nat) : List Byte :=
  let own := fun (n : Nat) => s.cmds.filter fun c => c.tid == t && c.batch.toNat == n && c.finished
  ((List.range 16).flatMap fun n => leBytes 1 ((((own n).find? Command.faulted).map (·.cls)).getD 0)) ++
    (List.range 16).flatMap fun n => leBytes 4 (((own n).findSome? (·.mark)).getD 0)

/-- The part of a thread's hardware state that nothing changes while its context is out (R335, R371): the model's thread
number, marks, the trap set, the ticket serial, the list position, optimistic state and TRCTL. -/
def hardwareFixed (s : State) (t : Nat) : List Byte :=
  let th := s.thr t
  let r := th.regs
  let w := fun (n : Nat) => leBytes 8 n
  let o := r.opt
  w (t + 1) ++ markBytes r.marks ++ markBytes r.saved.marks ++
    w (b2n r.saved.act0 + 2 * b2n r.saved.act1 + 4 * b2n r.saved.inEvent + 8 * b2n r.inRewrite + 16 * b2n o.on + 32 * b2n o.inEvent) ++
    w r.serial.toNat ++ w r.taskPos ++ w o.desc.toNat ++ w o.lvt.toNat ++ leBytes 16 o.evKey.toNat ++ w o.evVrt.toNat ++
    w o.uTail ++ w r.csr.trctl.toNat

/-- The hardware state of a context area, 768 bytes: the part above, then the queues of its pair, far-request numbering and
FARCNT, the words it holds and waits for, the rest of the optimistic state, the tickets held, the faults and marks of its
batches, and the capture state. The manual leaves its layout open (R335, R371, R374; log 34). -/
def hardwareBytes (s : State) (t : Nat) : List Byte :=
  let th := s.thr t
  let w := fun (n : Nat) => leBytes 8 n
  let q := pairQueues s t
  let k := th.capture
  let words := fun (l : List Nat) => l.map fun n => ((BitVec.ofNat 64 n, 0) : Word × Nat)
  let held := (s.reserved.filter fun e => e.holder == some t).map (·.pa)
  let waits := (s.reserved.filter fun e => e.waiters.any fun x => x.1 == t).map (·.pa)
  let tickets := (s.cmds.filter fun c => c.tid == t).map fun c => c.ticket.toNat
  (hardwareFixed s t ++
    (if th.slot < 8 then queueBytes 16 q.fq ++ queueBytes 4 q.rq else List.replicate 176 0) ++
    w th.farNext.toNat ++ w (s.farCount t) ++ queueBytes 4 (words held) ++ queueBytes 4 (words waits) ++
    w th.regs.opt.fossil.toNat ++ w th.regs.opt.oTail ++ w th.regs.opt.iTail ++ queueBytes 26 (words tickets) ++ batchBytes s t ++
    w (b2n k.on + 2 * b2n k.pre + k.preCnt.toNat * 2 ^ 32) ++ k.cnt.toList.flatMap w ++
    List.replicate 768 0).take 768

/-- The 16 KiB of a context area. -/
def contextBytes (s : State) (t : Nat) (pair : Bool) : List Byte :=
  let th := s.thr t
  let r := th.regs
  let w := fun (v : Word) => leBytes 8 v.toNat
  w (BitVec.ofNat 64 (contextHeader s t pair)) ++ w r.pc ++
    imageCsrs.flatMap (fun n => w (csrImage s t n)) ++
    (List.range 32).flatMap (fun i => w (r.getX (BitVec.ofNat 5 i))) ++
    r.v.toList.flatMap (fun v => leBytes 64 v.toNat) ++
    (List.range 8).flatMap (fun i => w (r.getP (BitVec.ofNat 3 i))) ++
    r.g.toList.flatMap (fun g => leBytes 32 g.toNat) ++
    (if th.tile then (r.csr.tshape.toList ++ r.csr.tsat.toList).flatMap (fun x => w (x.setWidth 64))
      else List.replicate 128 0) ++
    w (r.csr.squashmax.setWidth 64) ++ w (r.csr.errsel.setWidth 64) ++ w (th.errinj.setWidth 64) ++ List.replicate 40 0 ++
    (if th.tile then tileBytes r else List.replicate 12544 0) ++
    hardwareBytes s t

/-- Writes a thread's context to its context area (R301, R316). -/
def writeArea (s : State) (t : Nat) : State := s.quietWrite (s.threadArea t) (contextBytes s t (s.boundTo t).isSome)

/-- TCCCTL.FLUSH: every dirty entry of a TCC is written to its context area (R318). -/
def State.flushTcc (s : State) (core : Nat) : State :=
  let dirty := ((s.coreOf core).tcc.filter fun e => e.2).map (·.1)
  (dirty.foldl writeArea s).modCore core fun c => { c with tcc := c.tcc.map fun e => (e.1, false) }

/-! ## Applying actions -/

/-- Applies TMARK at commit: the packet, and the counters (R374). -/
def applyTmark (s : State) (t : Nat) (w : Word) : State :=
  let mk := s.traces t 5
  let op := bits w 63 60
  let s := s.modThr t fun th => { th with tmark := w }
  let words := fun (c : Capture) =>
    [w] ++ (c.cnt.toList.map fun n => BitVec.ofNat 64 n) ++ [BitVec.ofNat 64 (b2n c.pre * 2 ^ 32 + c.preCnt.toNat)]
  if op = 1 then
    let c : Capture := { Capture.reset with on := true }
    let s := s.modThr t fun th => { th with capture := c }
    if mk then emitThread s t 8 (words c) else s
  else if op = 2 then
    let c := (s.thr t).capture
    let c := if c.on then c else Capture.reset
    let s := if mk then emitThread s t 9 (words c) else s
    s.modThr t fun th => { th with capture := { th.capture with on := false } }
  else if mk then emitThread s t 7 [w] else s

/-- Applies an action that needs no other agent, if it is one. -/
def applyAct (s : State) (f : Flight) : Option State :=
  match f.act with
  | .pairPush w0 w1 =>
    let core := (s.thr f.tid).placeCore
    let s := s.modCore core fun c => { c with kreserved := tabSet c.kreserved f.lid (tabGet 0 c.kreserved f.lid - 1) }
    some (s.pushEntry core f.lid (kennelRecord true w0 w1 none))
  | .outLog e =>
    let o := (s.thr f.tid).regs.opt
    let s := ringStore s f.tid (bits o.obase 55 0 + 48 * (o.oTail % Nat.max 1 o.oent)) e.bytes
    some (modOpt s f.tid fun o => { o with out := o.out ++ [e], oTail := o.oTail + 1 })
  | .irrLog e =>
    let o := (s.thr f.tid).regs.opt
    let s := ringStore s f.tid (bits o.ibase 55 0 + 32 * (o.iTail % Nat.max 1 o.ient)) e.bytes
    some (modOpt s f.tid fun o => { o with irr := o.irr ++ [{ e with num := o.iTail }], iTail := o.iTail + 1 })
  | .evWrite cnt n w => some (s.modCore (s.thr f.tid).placeCore fun c => c.setEvent cnt n w)
  | .tmark w => some (applyTmark s f.tid w)
  | .perCore therm w =>
    if therm then some (s.modCore f.core fun c => { c with thermrank := w })
    else
      let s := s.modCore f.core fun c => { c with proxy := w.getLsbD 16 }
      some (if w.getLsbD 8 then s.flushTcc f.core else s)
  | _ => none

/-- Applies every such action that nothing holds back, in order. -/
def drain : Nat → State → State
  | 0, s => s
  | n + 1, s =>
    let hit := s.flights.zipIdx.findSome? fun q =>
      if s.free_ q.2 q.1.tid then (applyAct s q.1).map fun s' => (q.2, s') else none
    match hit with
    | some (k, s') => drain n (s'.dropFlight k)
    | none => s

/-- After something that held actions back has gone. -/
def State.drained (s : State) : State := drain s.flights.length s

end Sys2Proof.Machine
end

