-- ==== Sys2Proof/Machine/Context.lean ====
section
/-!
DEFINITION. Contexts: the area's layout, moves between slots, TCC and areas (05_scalar R86, R87, 21_scheduling R316 to
R321, 23_faults R335).
-/
namespace Sys2Proof.Machine

/-! ## Reading an area (R335) -/

/-- A doubleword, or n bytes, of an area's bytes. -/
def areaWord (bs : List Byte) (o : Nat) : Word := BitVec.ofNat 64 (leNat ((bs.drop o).take 8))
def areaNat (bs : List Byte) (o n : Nat) : Nat := leNat ((bs.drop o).take n)

/-- The CSR images of an area, each brought into its CSR's legal values (R335). -/
def loadCsrs (c : Csrs) (tile : Bool) (bs : List Byte) : Csrs :=
  let w := fun (i : Nat) => areaWord bs (0x10 + 8 * i)
  let len := Nat.min 16384 (Nat.max 256 (bits (w 13) 14 0))
  let loopc := fun (v : Word) => if bits v 16 6 = 0 then v &&& 0x3E else v &&& 0x1FFFF
  let satp := w 5
  { c with
    sstatus := w 0 &&& 0x40122, sepc := w 1 &&& ~~~(3 : Word), scause := w 2, stval := w 3, sscratch := w 4
    satp := if bits satp 63 60 = 0 ∨ bits satp 63 60 = 11 then satp &&& 0xFFFFF0FFFFFFFFFF else c.satp
    sie := w 6 &&& 0x10222, stvec := if 2 ≤ bits (w 7) 1 0 then w 7 &&& ~~~(3 : Word) else w 7
    cbwin := (w 8).setWidth 8, launchkey := w 9, vtype := (w 10).setWidth 8, nflags := (w 11).setWidth 6
    nctl := (w 12).getLsbD 0, chunkLen := len, chunkCur := Nat.min len (Nat.max 256 (bits (w 13) 30 16))
    vshare := if bits (w 14) 3 0 = 0 then 1 else (w 14).setWidth 4
    stealdom := if (scopeOf (w 15)).isSome then w 15 else c.stealdom
    waitswap := (w 17).setWidth 32, ixrules := w 18 &&& 0x00FFFFFFFFFFFFF0, ixpool := w 19 &&& 0x00FFFFFFFFFFFFC0
    batchno := (w 20).setWidth 4, loopS0 := w 21 &&& 0x00FFFFFFFFFFFFFC, loopC0 := loopc (w 22)
    loopS1 := w 23 &&& 0x00FFFFFFFFFFFFFC, loopC1 := loopc (w 24)
    squashmax := if bits (areaWord bs 0xBC0) 3 0 = 0 then 1 else (areaWord bs 0xBC0).setWidth 4
    errsel := (areaWord bs 0xBC8).setWidth 16 &&& 0xFCFF
    tshape := if tile then Vector.ofFn fun i : Fin 8 => (areaWord bs (0xB40 + 8 * i.val)).setWidth 32 &&& 0xFFFF7FFF else c.tshape
    tsat := if tile then Vector.ofFn fun i : Fin 8 => (areaWord bs (0xB80 + 8 * i.val)).setWidth 32 else c.tsat }

/-- The registers of an area (R335). -/
def loadRegs (r : Regs) (tile : Bool) (bs : List Byte) : Regs :=
  { r with
    pc := areaWord bs 8
    smode := (areaWord bs 0).getLsbD 2
    csr := loadCsrs r.csr tile bs
    x := Vector.ofFn fun i : Fin 32 => if i.val = 0 then 0 else areaWord bs (0x100 + 8 * i.val)
    v := Vector.ofFn fun i : Fin 32 => BitVec.ofNat 512 (areaNat bs (0x200 + 64 * i.val) 64)
    p := Vector.ofFn fun i : Fin 8 => areaWord bs (0xA00 + 8 * i.val)
    g := Vector.ofFn fun i : Fin 8 => BitVec.ofNat 256 (areaNat bs (0xA40 + 32 * i.val) 32)
    tl := if tile then Vector.ofFn fun i : Fin 8 =>
        ⟨BitVec.ofNat 8192 (areaNat bs (0xC00 + 1056 * i.val) 1024), BitVec.ofNat 256 (areaNat bs (0x1000 + 1056 * i.val) 32)⟩
      else r.tl
    ta := if tile then Vector.ofFn fun i : Fin 4 => BitVec.ofNat 8192 (areaNat bs (0x2D00 + 1024 * i.val) 1024) else r.ta }

/-- A thread with the context of an area. -/
def loadThread (th : Thread) (bs : List Byte) : Thread :=
  let r := loadRegs th.regs th.tile bs
  let w := fun (i : Nat) => areaWord bs (0x10 + 8 * i)
  { th with
    regs := r
    chunk := { th.chunk with start := r, undo := [] }
    errinj := (areaWord bs 0xBD0).setWidth 24
    tmark := w 25, chunkno := w 26, squashcnt := w 27, mlatc := w 28, farseq := w 29 }

/-! ## Leaving and entering slots (R316, R317, R321) -/

/-- A thread that leaves its slot gives up the token, if its chunk has not begun, and its place in the token queue; it asks
again when it is restored (R38; log 21). -/
def yieldToken (s : State) (t : Nat) : State :=
  let s := { s with tokenQ := s.tokenQ.filter (· != t) }
  if s.token == some t then
    ({ s with token := none }).modThr t fun th => { th with
      chunk := { th.chunk with token := false }
      status := match th.status with | .wait w => .wait w | _ => .retry .token }
  else s

/-- The oldest contexts of a TCC beyond four go to their context areas; a dirty one is written there (R316). -/
def evictTcc (s : State) (core : Nat) : State :=
  let l := (s.coreOf core).tcc
  let out := l.take (l.length - 4)
  let s := out.foldl (fun (s : State) (e : Nat × Bool) =>
    (if e.2 then writeArea s e.1 else s).modThr e.1 fun w => { w with loc := .area }) s
  s.modCore core fun c => { c with tcc := l.drop (l.length - 4) }

/-- What a thread waits for when it leaves its slot: waits at chunk boundaries, ring waits and the token's stay; the rest of
a pause does not (R78, R316). -/
def Status.kept : Status → Status
  | .wait w => .wait w
  | .retry .token => .retry .token
  | .retry (.ring f) => .retry (.ring f)
  | _ => .ready

/-- Pre-emption's last step (R316): the context moves to the core's TCC, whose least recently used entry goes to its
context area when four are held. It leaves what the halt of its core did to it and its place in the token queue (R365;
log 21). -/
def toTcc (s : State) (t : Nat) (runnable : Bool) : State :=
  let s := yieldToken s t
  let th := s.thr t
  let s := if s.traces t 0 || s.traces t 1 then flushLog s t else s
  let s := flushCommits s t
  let s := s.modThr t fun th => { th with
    loc := .tcc
    status := th.status.kept
    nextIssue := 0
    cutReq := none
    halted := false
    runnable := runnable
    capture := if th.capture.on then { th.capture with pre := true, preCnt := th.capture.preCnt + 1 } else th.capture }
  let s := s.modCore th.core fun c => { c with tcc := c.tcc ++ [(t, true)] }
  let s := evictTcc s th.core
  s.asThread t fun s => s.inject 8 th.core t (16384 * (Nat.min 4 (s.coreOf th.core).tcc.length - 1))

/-- A bound pair's queues leave with it. -/
def pairOut (s : State) (t : Nat) : State :=
  let th := s.thr t
  s.modCore th.core fun c =>
    let q := tabGet ⟨[], []⟩ c.pairs (th.slot % 8)
    { c with pairs := tabSet (tabDel c.pairs (th.slot % 8)) (outKey t) q }

/-- A slot of a core is free and enabled. -/
def State.slotFree (s : State) (core slot : Nat) : Bool :=
  (s.inSlot core slot).isNone && !(s.coreOf core).disabled.getLsbD slot && !s.slotKept core slot

/-- The slot that a thread of a kind takes (R20): tile threads 0 to 7, others 8 to 15 and then 0 to 7. -/
def State.slotFor (s : State) (core : Nat) (tile : Bool) : Option Nat :=
  let low := (List.range 8).find? (s.slotFree core)
  if tile then low else
    match ((List.range 8).map (· + 8)).find? (s.slotFree core) with
    | some k => some k
    | none => low

/-- The slots s and s + 8 that a bound pair takes. -/
def State.pairSlot (s : State) (core : Nat) : Option Nat :=
  (List.range 8).find? fun k => s.slotFree core k && s.slotFree core (k + 8)

/-- Puts a thread into a slot: it leaves the TCC, the core's instruction copies go, and a thread that waits for the token
asks for it (R38, R103; log 11, log 21). -/
def intoSlot (s : State) (t core slot : Nat) : State :=
  let th := s.thr t
  let s := s.modCore th.core fun c => { c with tcc := c.tcc.filter fun e => e.1 != t }
  let s := s.modCore core fun c => { c with l1i := [], flips := c.flips.filter fun f => f.array != 1 }
  let s := if th.status = .retry .token && !s.tokenQ.contains t then { s with tokenQ := s.tokenQ ++ [t] } else s
  s.modThr t fun th => { th with loc := .slot, core := core, slot := slot, runnable := false, swapped := false, nextIssue := s.cycle }

/-- BIND of a thread is 0, in every copy of its private state (R29). -/
def State.unbind (s : State) (t : Nat) : State :=
  let off := fun (r : Regs) => { r with csr := { r.csr with bind := false } }
  s.modThr t fun th => { th with
    regs := off th.regs
    chunk := { th.chunk with start := off th.chunk.start }
    older := th.older.map fun c => { c with start := off c.start } }

/-- A bound pair's queues come back with it. -/
def pairMove (s : State) (t oldCore core slot : Nat) : State :=
  let q := tabGet ⟨[], []⟩ (s.coreOf oldCore).pairs (outKey t)
  (s.modCore oldCore fun c => { c with pairs := tabDel c.pairs (outKey t) }).modCore core fun c =>
    { c with pairs := tabSet c.pairs (slot % 8) q }

/-- A bound pair comes back; one that has migrated is no longer bound, and its queues are empty (R29; log 108). -/
def pairIn (s : State) (t oldCore core slot : Nat) : State :=
  let s := pairMove s t oldCore core slot
  if oldCore = core then s
  else (s.modCore core fun c => { c with pairs := tabSet c.pairs (slot % 8) ⟨[], []⟩ }).unbind t

/-- Errors of a TCC met while a context is restored from it: single ones are corrected and logged, a double one in a 64-bit
word loses the thread's state (R129, R339). -/
def tccErrors (s : State) (t core : Nat) : State :=
  let mine := fun (f : Flip) => f.owner == t
  let s := correctWords s core 8 0 t (· * 8) mine
  match (s.coreOf core).flips.find? fun f => f.array == 8 && mine f with
  | none => s
  | some f =>
    let (synd, s) := s.secded
    let s := s.noteError core 8 0 (f.addr / 8 * 8) (f.addr / 8) t synd 4 f.inj
    terminateLaunch (s.dropFlips core fun g => g.array == 8 && mine g) (s.thr t).lid

/-! ## CTXSAVE and CTXLOAD at commit (R86, R87) -/

/-- Writes bytes into the blocks of an area. -/
def writeBlocks (s : State) (src : Nat) (blocks : List Nat) (bs : List Byte) : State :=
  blocks.zipIdx.foldl (fun s q => homeWrite s src none q.1 ((bs.drop (256 * q.2)).take 256)) s

/-- A line of a context that cannot be read loses the thread's state, which the cluster array of its home logs (R339, R340;
log 139). -/
def contextLost (s : State) (t pa : Nat) : State :=
  let (synd, s) := s.secded
  terminateLaunch (s.noteError ((clusterCores (s.homeOf pa)).headD 0) 9 (s.instOf pa) pa (pa / 8) t synd 4 false) (s.thr t).lid

/-- The lines of a context are read for a thread: errors of the cluster array are met, and the first poisoned line is
told (R129, R339). -/
def readContext (s : State) (t : Nat) (lines : List Nat) : State × Option Nat :=
  let s := lines.foldl (fun s l => settleArray s t (l * 64)) s
  (s, lines.find? fun l => s.poison.contains l)

/-- The bytes of the blocks of an area. -/
def readBlocks (s : State) (blocks : List Nat) : List Byte := blocks.flatMap fun b => memRead s.mem b 256

/-- Writes a thread's area and gives it up to CTXLOAD. -/
def saveContext (s : State) (src t : Nat) (blocks : List Nat) (pair : Bool) : State :=
  let s := writeBlocks s src blocks (contextBytes s t pair)
  let s := s.modCore (s.thr t).core fun c => { c with tcc := c.tcc.filter fun e => e.1 != t }
  s.modThr t fun th => { th with loc := .saved }

/-- A thread's context comes back from its context area: what memory holds there, or lost state where a line of it is
poisoned (R129, R316, R335, R339; log 139). -/
def areaIn (s : State) (t : Nat) : State :=
  let a := s.threadArea t
  let (s, bad) := readContext s t ((List.range 256).map (a / 64 + ·))
  match bad with
  | some l => contextLost s t (l * 64)
  | none => s.modThr t fun th => loadThread th (memRead s.mem a 16384)

/-- The committed values of a thread's registers: of the oldest chunk in flight. -/
def Thread.committedRegs (th : Thread) : Regs :=
  match th.older with
  | some c => if c.inFlight then c.start else th.chunk.start
  | none => th.chunk.start

/-- Puts an entry into a list in key order. -/
def insertIrr (e : IrrEntry) : List IrrEntry → List IrrEntry
  | [] => [e]
  | k :: ks => if e.key.toNat < k.key.toNat then e :: k :: ks else k :: insertIrr e ks

/-- Fossil collection of a thread's events below G: its logs and processed messages are freed, and its irrevocable stores
start, in key order (R273). -/
def fossilCollect (s : State) (t : Nat) (g : Nat) : State :=
  let th := s.thr t
  let o := th.committedRegs.opt
  if !o.on then s
  else
    let old := fun (k : BitVec 128) => decide ((keyVrt k).toNat < g)
    let started := s.flights.filterMap fun f => match f.act with | .irrStore _ e => if f.tid = t then some e else none | _ => none
    let todo := (o.irr.filter fun e => old e.key && !started.contains e).foldl (fun l e => insertIrr e l) []
    let gone := th.recvq.filter fun m => m.processed && decide (m.vrt.toNat < g)
    let top := gone.foldl (fun (n : Nat) m => Nat.max n (m.vrt.toNat + 1)) o.fossil.toNat
    let s := s.modThr t fun th => { th with recvq := th.recvq.filter fun m => !gone.contains m }
    let s := modOpt s t fun o => { o with
      undo := o.undo.filter fun e => !old e.key
      out := o.out.filter fun e => !old e.key
      fossil := BitVec.ofNat 64 top }
    { s with flights := s.flights ++ todo.map fun e => (⟨t, th.lid, th.core, .irrStore o.iscope e⟩ : Flight) }

/-- Fossil collection of the latest GVT of a thread's group, as the thread becomes resident (R273, R275). -/
def collectOnReturn (s : State) (t : Nat) : State :=
  let g : Word := tabGet 0 s.gvts (s.launchOf (s.thr t).lid).launchkey.toNat
  if (s.thr t).regs.opt.on then fossilCollect s t g.toNat else s

/-- BIND of a loaded context: its AEROLE image, where slot s + 8 holds a thread of the launch (R29, R335). -/
def loadBind (s : State) (t core slot : Nat) (image : Word) : State :=
  let on := decide (slot < 8) && image.getLsbD 0 &&
    match s.inSlot core (slot + 8) with | some u => (s.thr u).lid == (s.thr t).lid | none => false
  let f := fun (r : Regs) => { r with csr := { r.csr with bind := on } }
  s.modThr t fun th => { th with regs := f th.regs, chunk := { th.chunk with start := f th.chunk.start } }

/-- Software has changed the header or the hardware state of a saved context (R335). -/
def contextChanged (s : State) (t : Nat) (bs : List Byte) : Bool :=
  let own := hardwareFixed s t
  areaWord bs 0 != BitVec.ofNat 64 (contextHeader s t ((areaWord bs 0).getLsbD 3)) || (bs.drop 0x3D00).take own.length != own

/-- What such a context leaves is unpredictable: the address of the next instruction and the general registers are free
values (R6, R335; log 34). -/
def spoilContext (s : State) (t : Nat) : State :=
  let (ws, s) := s.freshList 32
  s.modThr t fun th =>
    let x := ws.zipIdx.foldl (fun (x : Regs) p => x.putX (BitVec.ofNat 5 p.2) p.1) th.regs
    let r := { x with pc := ws.getD 0 0 }
    { th with regs := r, chunk := { th.chunk with start := r } }

/-- Starts the context of an area in a slot; an area whose thread CTXSAVE did not leave there starts nothing (R87,
R335; log 34). -/
def startContext (s : State) (blocks : List Nat) (core slot : Nat) : State :=
  let t := areaNat (readBlocks s blocks) 0x3D00 8 - 1
  if areaNat (readBlocks s blocks) 0x3D00 8 = 0 ∨ (s.thr t).loc ≠ .saved ∨ (s.inSlot core slot).isSome then s
  else
    let (s, bad) := readContext s t (blocks.flatMap fun b => (List.range 4).map (b / 64 + ·))
    match bad with
    | some l => contextLost s t (l * 64)
    | none =>
      let bs := readBlocks s blocks
      let changed := contextChanged s t bs
      let s := s.modThr t fun th => loadThread th bs
      let s := if changed then spoilContext s t else s
      collectOnReturn (loadBind (intoSlot s t core slot) t core slot (areaWord bs 0x90)) t

/-- One CTXSAVE or CTXLOAD at its chunk's commit. -/
def applyCtx (src : Nat) (s : State) : CtxOp → State
  | .save bs none _ => homeWrite s src none (bs.headD 0) (List.replicate 8 0)
  | .save bs (some t) none => saveContext s src t bs false
  | .save bs (some t) (some u) => saveContext (saveContext s src t (bs.take 64) true) src u (bs.drop 64) true
  | .load bs core slot =>
    let h : Word := s.dword (bs.headD 0)
    let t := areaNat (readBlocks s (bs.take 64)) 0x3D00 8 - 1
    let old := (s.thr t).core
    let s := startContext s (bs.take 64) core slot
    if h.getLsbD 3 then
      let s := startContext s (bs.drop 64) core (slot + 8)
      let s := pairMove s t old core slot
      let bind := fun (r : Regs) => { r with csr := { r.csr with bind := true } }
      s.modThr t fun th => { th with regs := bind th.regs, chunk := { th.chunk with start := bind th.chunk.start } }
    else s

end Sys2Proof.Machine
end

