-- ==== Sys2Proof/Machine/Commit.lean ====
section
/-!
DEFINITION. Commit: reach, grant, broadcast, token, release of the post-commit list, and the end of a thread
(01_machine R35 to R38, 09_ordering R136 to R140, R155, 21_scheduling R313).
-/
namespace Sys2Proof.Machine

/-! ## Reach (R136, R137) -/

/-- Another die is recorded for a line that the chunk wrote, or the line has become one of the host: the die stage does not
order its writes (R137, R154). -/
def escalates (s : State) (core : Nat) (c : Chunk) : Bool :=
  c.wlines.any fun l => s.placeOf (l * 64) != .csp &&
    (s.isHost (l * 64) || s.activeCores.any fun k => dieOf k != dieOf core && s.holdsLine k l)

/-- The stage that grants a chunk's request: of the reach fixed at its cut, or the package where it escalates (R136,
R137). -/
def stageOf (s : State) (core : Nat) (c : Chunk) : Nat := if c.reach = 1 ∧ escalates s core c then 2 else c.reach

/-- The unit of a stage: clusters from 0, dies from 168, the package at 176. -/
def unitOf (core stage : Nat) : Nat :=
  if stage = 0 then clusterOf core else if stage = 1 then 168 + dieOf core else 176

/-- A core lies within the reach of a commit from another (R138). -/
def inReach (own stage core : Nat) : Bool :=
  if stage = 0 then clusterOf core == clusterOf own else if stage = 1 then dieOf core == dieOf own else true

/-! ## The grant (R117, R138) -/

/-- The chunk of a uid is in flight. -/
def State.uidInFlight (s : State) (u : Nat) : Bool :=
  s.threads.any fun p => p.2.loc == .slot && p.2.chunks.any fun c => c.uid == u && c.inFlight

/-- The request of a thread is withheld: by the token holder (R38), by another commit whose far stores are not yet
performed (R138), by an earlier relaxed write of the thread to a word (R134), by an access chunk whose entries were read
(R30), or by a broadcast that has yet to squash the chunk (R133, R140). -/
def withheld (s : State) (t : Nat) (c : Chunk) : Bool :=
  let th := s.thr t
  let w := sigOf c.wlines
  let byToken := match s.token with
    | some h => h != t && (s.thr h).chunks.any fun k => k.token && k.inFlight &&
        (intersect w (sigOf k.rlines) || intersect w (sigOf k.wlines))
    | none => false
  let groups := (s.flights.filter fun f => f.tid != t).map (·.act) ++
    (s.threads.filter fun p => p.1 != t).flatMap fun p => match p.2.older with
      | some k => if k.inFlight then [] else k.post
      | none => []
  let byFar := groups.any fun a => match a with
    | .farGroup _ _ bs _ _ => linesMeet ((bs.map fun b => b.1 / 64).eraseDups) c.wlines
    | _ => false
  let byWord := s.flights.any fun f => f.tid == t && c.writes.any fun e => f.act.meets e.1 1
  let byPair := c.aeTaken.any fun e => e.2 != c.uid && s.uidInFlight e.2
  let byCast := s.bcasts.any fun b => b.core == th.core && b.tid != t &&
    (linesMeet b.lines c.rlines || linesMeet b.lines c.wlines)
  byToken || byFar || byWord || byPair || byCast

/-- The pending chunk of a thread may be granted: its results have returned (R35) and nothing withholds it. -/
def grantable (s : State) (t : Nat) : Bool :=
  match (s.thr t).older with
  | some c => c.state == .requested && !((s.thr t).results.any fun r => r.uid == c.uid) && !withheld s t c
  | none => false

/-- A request that arrived earlier at the same stage unit can be granted too (R138). -/
def behind (s : State) (t : Nat) : Bool :=
  let unit := fun (u : Nat) => match (s.thr u).older with
    | some c => some (unitOf (s.thr u).core (stageOf s (s.thr u).core c))
    | none => none
  (s.requests.takeWhile (· != t)).any fun u => unit u == unit t && grantable s u

/-- A relaxed store to a peer device (R149). -/
def State.farStore (s : State) : Act → Bool
  | .relaxed pa _ _ => s.isFar pa
  | _ => false

/-- The actions of a segment, each with whether it is a far reduction that a later far store to its words, or a later such
reduction, must follow (R134, R142). -/
def markNeeds (s : State) : List Act → List (Act × Bool)
  | [] => []
  | a :: as =>
    let r := markNeeds s as
    let need := match a with
      | .reduce _ pa n _ => s.isFar pa && r.any fun q => q.1.meets pa n && (s.farStore q.1 || q.2)
      | _ => false
    (a, need) :: r

/-- A part of a group is a write to a word of a span. -/
def FarPart.meets (pa n : Nat) : FarPart → Bool
  | .plain m => m.any fun b => wordsMeet pa n b.1 1
  | .store m => m.any fun b => wordsMeet pa n b.1 1
  | .red _ a k _ => wordsMeet pa n a k

/-- Sorts the actions of a segment: those that go before its store groups, the groups' parts, and the others. A reduction
that stands between two writes of a group to its words becomes a part of it (R142, R149; log 141). -/
def splitSegment (plain : Mem) (s : State) (seg : List Act) : List Act × List FarPart × List Act :=
  (markNeeds s seg).foldl (fun (r : List Act × List FarPart × List Act) q =>
    match q.1 with
    | .relaxed pa bs z =>
      if s.isFar pa then (r.1, r.2.1 ++ [.store (layWrite [] pa bs)], r.2.2) else (r.1, r.2.1, r.2.2 ++ [.relaxed pa bs z])
    | .reduce op pa n x =>
      if !q.2 then (r.1, r.2.1, r.2.2 ++ [q.1])
      else if r.2.1.any (·.meets pa n) then (r.1, r.2.1 ++ [.red op pa n x], r.2.2)
      else (r.1 ++ [q.1], r.2.1, r.2.2)
    | a => (r.1, r.2.1, r.2.2 ++ [a])) ([], if plain.isEmpty then [] else [.plain plain], [])

/-- The bytes that a part writes, but for a reduction's. -/
def FarPart.bytes : FarPart → Mem
  | .plain m => m
  | .store m => m
  | .red _ _ _ _ => []

/-- A part, as far as it goes to a device. -/
def FarPart.toDevice (d : Nat) : FarPart → Option FarPart
  | .plain m => let k := m.filter fun b => b.1 / 2 ^ 40 == d; if k.isEmpty then none else some (.plain k)
  | .store m => let k := m.filter fun b => b.1 / 2 ^ 40 == d; if k.isEmpty then none else some (.store k)
  | .red op pa n x => if pa / 2 ^ 40 = d then some (.red op pa n x) else none

/-- Collects the far stores of a segment of a post-commit list into one group for each device. Reductions to a word of a
group keep their place among its stores; other actions keep their order behind the groups (R100, R142, R149; log 141). A
release ends a segment, since nothing after it may begin earlier (R142). -/
def farSegment (s : State) (plain : Mem) (seg : List Act) : List Act :=
  let (early, parts, late) := splitSegment plain s seg
  let bytes := parts.foldl (fun (m : Mem) p => p.bytes.foldl (fun m b => tabSet m b.1 b.2) m) []
  let zs := seg.filterMap fun a => match a with | .relaxed pa _ true => if s.isFar pa then some (pa / 64) else none | _ => none
  let devs := (bytes.map fun b => b.1 / 2 ^ 40).eraseDups
  early ++ devs.map (fun d => Act.farGroup (BitVec.ofNat 11 d) 0 (bytes.filter fun b => b.1 / 2 ^ 40 == d)
    (zs.filter fun l => l * 64 / 2 ^ 40 == d) (parts.filterMap (·.toDevice d))) ++ late

/-- The segments of a post-commit list. -/
def farSegments (s : State) (plain : Mem) : List Act → List Act → List Act
  | seg, [] => farSegment s plain seg
  | seg, a :: as =>
    match a with
    | .fence _ => farSegment s plain (seg ++ [a]) ++ farSegments s [] [] as
    | .storeRel _ _ _ => farSegment s plain (seg ++ [a]) ++ farSegments s [] [] as
    | _ => farSegments s plain (seg ++ [a]) as

/-- A page that a command holds, as an entry of a TLB. -/
def Held.entry (h : Held) (c : Command) : TlbEntry := ⟨h.vbase, h.bits, c.satp.extractLsb' 44 16, h.pbase, h.pte, []⟩

/-- The translations that a TLBINV names leave every TLB and walker of the package, and a command keeps its own no longer
than its grain lasts (R88). -/
def dropTranslations (s : State) (v : Option Word × Option Word) : State :=
  { s with
    cores := s.cores.map fun (q : Nat × Core) => (q.1, { q.2 with tlb := q.2.tlb.filter fun e => !tlbHit v.1 v.2 e })
    ctlbs := s.ctlbs.map fun (q : Nat × List TlbEntry) => (q.1, q.2.filter fun e => !tlbHit v.1 v.2 e)
    cmds := s.cmds.map fun (c : Command) =>
      { c with held := c.held.map fun h => { h with stale := h.stale || tlbHit v.1 v.2 (h.entry c) } }
    walkers := s.walkers.map fun (q : Nat × List PtrEntry) => (q.1, q.2.filter fun e => !ptrHit v.1 v.2 e) }

/-- The lines of a chunk become committed copies in its core's L1, word by word (R116, R117). -/
def commitLines (s : State) (core : Nat) (writes : Mem) : State :=
  let local_ := writes.filter fun e => s.placeOf e.1 != .csp
  let lines := (local_.map fun e => e.1 / 64).eraseDups
  let s := lines.foldl (fun (s : State) l => if (s.coreOf core).l1.any fun e => e.1 / 64 == l then s else s.makeWay core l) s
  s.modCore core fun k => { k.freshCopies (local_.map (·.1)) with
    l1 := local_.foldl (fun (m : List (Nat × Byte)) (e : Host.Cell) =>
      (List.range 4).foldl (fun m i =>
        let a := e.1 / 4 * 4 + i
        match tabFind local_ a with
        | some b => tabSet m a b
        | none => if (tabFind m a).isSome then m else tabSet m a (s.homeByte a)) m) k.l1
    l1i := k.l1i.map fun e => (e.1, (tabFind local_ e.1).getD e.2) }

/-- The commit point of a thread's pending chunk: its plain writes go to their homes, its broadcast leaves, and the
effects that precede the release of the list take place (R36, R117, R138, R139). -/
def grantChunk (s : State) (t : Nat) (c : Chunk) : State :=
  let th := s.thr t
  let stage := stageOf s th.core c
  let unit := unitOf th.core stage
  let count := tabGet 0 s.grants unit + 1
  let near := c.writes.filter fun e => !s.isFar e.1
  let plainFar := c.writes.filter fun e => s.isFar e.1
  let post := farSegments s plainFar [] c.post
  let words := (c.writes.map fun e => e.1 / 4).eraseDups
  let sinks := if c.wlines.isEmpty then [] else s.activeCores.filter (inReach th.core stage)
  let casts := sinks.map fun (k : Nat) => (⟨k, t, th.lid, c.wlines, words⟩ : Bcast)
  let s := { s with
    mem := near.foldl (fun (m : Mem) (e : Host.Cell) => memSet m e.1 e.2) s.mem
    grants := tabSet s.grants unit count
    requests := s.requests.filter (· != t)
    tlbinvs := s.tlbinvs ++ c.tlbinv.map fun (v : Option Word × Option Word) => (t, v.1, v.2)
    bcasts := s.bcasts ++ casts }
  let s := s.modThr t fun th => { th with older := some { c with
    state := .granted, writes := [], post := post
    order := BitVec.ofNat 64 (stage * 2 ^ 62 + count % 2 ^ 62) } }
  let s := arrayWrites (commitLines s th.core c.writes) true t near
  let s := s.dropFlips th.core fun f => f.array == 0 && f.owner == c.uid
  let s := c.tlbinv.foldl dropTranslations s
  let s := c.ctx.foldl (applyCtx t) s
  s.asThread t fun s => freeNodes s c.freed

/-- COMMIT_GRANT: a chunk whose parity check failed at its cut squashes; else the grant (R117, R138). -/
def execCommitGrant (t : Nat) (s : State) : Out :=
  event (
    match (s.thr t).older with
    | none => s
    | some c =>
      if c.parity.isSome && c.state == .requested then squash s t true 1
      else if s.paused || !s.requests.contains t || !grantable s t || behind s t then s
      else grantChunk s t c)

/-! ## The broadcast at an L1 (R140, R155) -/

/-- The lowest word that a committer wrote and a chunk read or wrote (R155). -/
def trueConflict (words : List Nat) (c : Chunk) : Option Nat :=
  let mine := fun (w : Nat) => c.rwords.contains w || c.writes.any fun e => e.1 / 4 == w
  (words.filter mine).foldl (fun m w => match m with | none => some w | some x => some (Nat.min x w)) none

/-- DETCONFLICT's stval: the virtual address of a word, or its local address in blocked form (R155). -/
def conflictVa (s : State) (t : Nat) (c : Chunk) (w : Nat) : Word :=
  let pa := w * 4
  if s.placeOf pa = .csp then
    let slice := (s.launchOf (s.thr t).lid).csp * 2 ^ 18
    BitVec.ofNat 64 (4 * 2 ^ 60 + pa / 2 ^ 20 % 8 * slice + pa % 2 ^ 20)
  else
    let va : Word := tabGet 0 c.vas (pa / 64)
    BitVec.ofNat 64 (va.toNat / 64 * 64 + pa % 64)

/-- A word's committed value, as a reservation delivers it (R97). -/
def reservedValue (s : State) (pa size : Nat) : Word := signExt (8 * size) (leNat (memRead s.mem pa size))

/-- A thread that stands before the instruction of its DETCONFLICT takes the trap, once earlier results have returned and
the chunk can be cut (R28, R35, R155). A rewrite squashes first (R287). -/
def takeConflict (s : State) (t : Nat) (va : Word) : State :=
  let th := s.thr t
  if !th.results.isEmpty || (!th.regs.inRewrite && th.chunk.count != 0 && th.older.isSome) then s
  else
    let s := s.modThr t fun th => { th with chunk := { th.chunk with detAt := none } }
    let s := if th.regs.inRewrite then leaveRewrite s t false else putBackWaiting s t
    enterHandler (s.cutChunk t 13) t false 27 va (s.thr t).regs.pc

/-- A chunk squashes for a true conflict in a DET launch, and the trap is taken at the boundary before its first
instruction: `n` instructions of the older chunk, which squashes too, are executed again before it (R155). -/
def detConflict (s : State) (t : Nat) (older : Bool) (n : Nat) (va : Word) : State :=
  (squash s t older 0).modThr t fun th => { th with chunk := { th.chunk with detAt := some (n, va) } }

/-- A broadcast meets one thread's chunks; only an error squashes a chunk that holds the token (R38, R140, R155). -/
def castHit (b : Bcast) (s : State) (t : Nat) : State :=
  let th := s.thr t
  let hit := fun (c : Chunk) => c.inFlight && !c.token && (linesMeet b.lines c.rlines || linesMeet b.lines c.wlines)
  let det := decide (th.lid = b.lid) && (s.launchOf th.lid).det
  let true_ := fun (c : Chunk) => if det && hit c then (trueConflict b.words c).map (conflictVa s t c) else none
  match th.older with
  | some c =>
    if hit c then
      match true_ c, true_ th.chunk with
      | some va, _ => detConflict s t true 0 va
      | none, some va => detConflict s t true c.count va
      | none, none => squash s t true 0
    else if hit th.chunk then
      match true_ th.chunk with
      | some va => detConflict s t false 0 va
      | none => squash s t false 0
    else s
  | none =>
    if hit th.chunk then
      match true_ th.chunk with
      | some va => detConflict s t false 0 va
      | none => squash s t false 0
    else s

/-- COMMIT_BROADCAST_APPLY: the L1 drops the words written, and chunks of other threads squash (R120, R140). -/
def execCommitBroadcastApply (k : Nat) (s : State) : Out :=
  event (match s.bcasts[k]? with
    | none => s
    | some b =>
      let s := { s with bcasts := s.bcasts.eraseIdx k }
      let s := if (s.thr b.tid).core = b.core then s
        else s.modCore b.core fun c => c.keepCopies fun a => !b.words.contains (a / 4)
      ((s.resident.filter fun p => p.2.core == b.core && p.1 != b.tid).map (·.1)).foldl (castHit b) s)

/-! ## The token (R38) -/

/-- TOKEN_GRANT: the first thread of the queue, once the chunk before its own has been granted and no broadcast is on its
way to its core: from then on only an error squashes it. -/
def execTokenGrant (s : State) : Out :=
  event (
    if s.token.isSome then s
    else
      match s.tokenQ with
      | [] => s
      | t :: _ =>
        let busy := match (s.thr t).older with | some c => c.inFlight | none => false
        if busy || (s.thr t).loc != .slot || s.bcasts.any fun b => b.core == (s.thr t).core then s
        else
          let s := { s with token := some t, tokenQ := s.tokenQ.filter (· != t) }
          s.modThr t fun th => { th with
            chunk := { th.chunk with token := true }
            status := match th.status with
              | .retry .token => (match th.chunk.redo with | some w => .wait w | none => .ready)
              | st => st })

/-! ## Reservations handed on (R97, R98) -/

/-- The request that a free word is granted to next: its queue's, else the overflow FIFO's (R96, R98). -/
def State.nextWaiter (s : State) (pa : Nat) : Option Nat :=
  match s.reserved.find? fun r => r.pa == pa && r.holder.isNone with
  | some r => (r.waiters.map (·.1) ++ (s.overflow.filter fun w => w.2.1 == pa).map (·.1)).head?
  | none => none

/-- The word is read at its home for a thread: errors of the cluster array are met (R129, R340). -/
def State.readWord (s : State) (t : Option Nat) (pa : Nat) : State :=
  match t with
  | some t => settleArray s t pa
  | none => s

/-- A free word is granted to its next waiter, with the value that it has at the grant; requests in the overflow FIFO enter
the queue as room allows (R96, R97). -/
def grantNext (s : State) (pa : Nat) : State :=
  let s := s.readWord (s.nextWaiter pa) pa
  match s.reserved.find? fun r => r.pa == pa with
  | none => s
  | some r =>
    let room := 64 - r.waiters.length
    let inn := (s.overflow.filter fun w => w.2.1 == pa).take room
    let r := { r with waiters := r.waiters ++ inn.map fun (w : Nat × Nat × Nat × Reg) => (w.1, w.2.2.1, w.2.2.2) }
    let r := match r.holder, r.waiters with
      | none, (t, n, _) :: ws =>
        { r with holder := some t, started := false, size := n, value := leNat (memRead s.mem pa n), waiters := ws }
      | _, _ => r
    let rest := s.reserved.filter fun q => q.pa != pa
    { s with
      overflow := s.overflow.filter fun w => !inn.contains w
      reserved := if r.holder.isNone && r.waiters.isEmpty then rest else rest ++ [r] }

/-- Frees a word that a thread holds. -/
def freeWord (s : State) (t pa : Nat) : State :=
  let free := fun (r : Reservation) => if r.pa == pa && r.holder == some t then { r with holder := none, started := false } else r
  grantNext { s with reserved := s.reserved.map free } pa

/-! ## Barriers (R80) -/

/-- The participants of an instance: by placement core, from placement to the commit of TEXIT. -/
def participants (s : State) (b : Barrier) : List Nat :=
  (s.threads.filter fun p => p.2.loc != .absent && p.2.loc != .exited &&
    match scopeOf b.scope with
    | some .domain => (s.launchOf p.2.lid).launchkey == b.key
    | some f => p.2.lid == b.lid && f.has p.2.placeCore
    | none => false).map (·.1)

/-- The next chunk of a thread may begin: it is in a slot of a core that is not halted (R365). -/
def State.begins (s : State) (t : Nat) : Bool := (s.thr t).loc == .slot && !(s.coreOf (s.thr t).core).halted

/-- A participant goes on with a value in its register, as its next chunk's first effect. One that is switched out, or
halted, gets it when its chunk begins (R80, R317, R365). -/
def resumeBar (v : Word) (s : State) (p : Nat × Reg) : State :=
  if s.begins p.1 then
    (s.modThr p.1 fun th => { th with regs := th.regs.putX p.2 v, status := .ready }).sealStart p.1 [.reg (.x p.2)]
  else s.modThr p.1 fun th => { th with status := .wait (.released p.2 v), runnable := th.loc != .slot }

/-- Ends an instance with a status. -/
def endBarrier (s : State) (b : Barrier) (v : Word) : State :=
  let s := b.arrived.foldl (resumeBar v) s
  { s with barriers := s.barriers.filterMap fun (c : Barrier) =>
      if c = b then (if v = 0 ∧ scopeOf b.scope ≠ some .domain then none else some { b with ended := some v }) else some c }

/-- Completes every instance that all its participants have joined. -/
def settleBarriers (s : State) : State :=
  s.barriers.foldl (fun s b =>
    if b.ended.isNone && !b.elsewhere && !b.arrived.isEmpty && (participants s b).all fun t => b.arrived.any fun a => a.1 == t then endBarrier s b 0 else s) s

/-- The pair of a thread that exits is no longer bound, whatever an uncommitted write of BIND had made of it, and its queues
are gone (R29). -/
def unpair (s : State) (t : Nat) : State :=
  match s.sibling t with
  | none => s
  | some u =>
    let z := fun (c : Chunk) => { c with aeTaken := [], dropped := [] }
    let s := ((s.unbind t).unbind u).modThr u fun th => { th with chunk := z th.chunk, older := th.older.map z }
    s.modCore (s.thr t).core fun c => { c with pairs := tabDel c.pairs ((s.thr t).slot % 8) }

/-- A handover of a word is on its way: the word is free when its home has it (R98). -/
def State.handingOver (s : State) (t pa : Nat) : Bool := s.flights.any fun f => f.tid == t && f.act == .handover pa

/-- The end of a thread at its last chunk's commit; the words that it holds and has not handed over are free (R29, R80,
R98, R313). -/
def exitThread (s : State) (t : Nat) : State :=
  let th := s.thr t
  let s := ((s.heldWords t).filter fun pa => !s.handingOver t pa).foldl (fun s pa => freeWord s t pa) s
  let s := unpair s t
  let s := s.modCore th.core fun c => { c with tcc := c.tcc.filter fun e => e.1 != t }
  let s := flushCommits (if s.traces t 0 || s.traces t 1 then flushLog s t else s) t
  let s := { s with tokenQ := s.tokenQ.filter (· != t), token := if s.token = some t then none else s.token }
  settleBarriers (s.modThr t fun th => { th with loc := .exited, status := .ready, cutReq := none, chunk := Chunk.fresh 0 th.regs })

/-! ## The release (R37 to R39, R139) -/

/-- The part of a list that can leave the core while the thread has room for that many far requests (R150). -/
def sendable (s : State) : Nat → List Act → Nat
  | _, [] => 0
  | 0, a :: as => if (s.farOf a).isSome then 0 else sendable s 0 as + 1
  | n + 1, a :: as => sendable s (if (s.farOf a).isSome then n else n + 1) as + 1

/-- A live entry of the task table (R308, R309). -/
def writeEntry (s : State) (l core : Nat) (joins : List Nat) (e : Nat × Word × Word × BitVec 32) : State :=
  let st := if joins.contains e.1 then 2 else 1
  let pa := taskEntry s l core e.1
  { s with spoiled := s.spoiled.filter (· != pa) }.quietWrite pa
    (leBytes 8 e.2.1.toNat ++ leBytes 8 e.2.2.1.toNat ++ leBytes 4 e.2.2.2.toNat ++ [BitVec.ofNat 8 st] ++ List.replicate 11 0)

/-- Frees the entry of a handle (R311). -/
def freeEntry (l : Nat) (s : State) (h : Word) : State :=
  match handleOf s l h with
  | some (core, i) => s.quietWrite (taskEntry s l core i + 20) [0]
  | none => s

/-- The entries that a chunk pushed become visible, and those that it took leave (R39, R302). -/
def settleChunk (l u : Nat) (s : State) (core : Nat) : State :=
  let k := (s.coreOf core).kennel l
  if k.any fun e => e.pusher == some u || e.taker == some u then
    settleKennel (s.modCore core fun c => c.setKennel l ((k.filter fun e => e.taker != some u).map fun e =>
      if e.pusher == some u then { e with pusher := none } else e)) core l
  else s

/-- Queue entries of a committed chunk no longer name it (R30). -/
def Core.settlePairs (u : Nat) (c : Core) : Core :=
  let z := fun (l : List (Word × Nat)) => l.map fun e => if e.2 == u then (e.1, 0) else e
  { c with pairs := c.pairs.map fun q => (q.1, ⟨z q.2.fq, z q.2.rq⟩) }

/-- What a thread's commit does to its counts: CHUNKNO, CUR, the squash count (R31, R33, R38). -/
def Thread.committed (th : Thread) : Thread :=
  let dbl := fun (r : Regs) => { r with csr := { r.csr with chunkCur := Nat.min r.csr.chunkLen (2 * r.csr.chunkCur) } }
  { th with
    regs := dbl th.regs
    chunk := { th.chunk with start := dbl th.chunk.start }
    chunkno := th.chunkno + 1
    sqRun := 0 }

/-- The commit completes and the list is released, in order (R36, R37, R139). -/
def releaseChunk (s : State) (t : Nat) (c : Chunk) : State :=
  let th := s.thr t
  let l := th.lid
  let s := settleErrors s t
  let s := if s.traces t 2 then
      addCommit s t [th.chunkno + 1,
        BitVec.ofNat 64 (b2n c.token * 2 ^ 40 + c.reason % 32 * 2 ^ 32 + c.count % 2 ^ 32), c.order]
    else s
  let s := countEvent s t 3 1
  let s := c.news.foldl (fun s e => writeEntry s l th.placeCore c.newJoins e) s
  let s := c.joins.foldl (freeEntry l) s
  let s := (s.cores.map (·.1)).foldl (settleChunk l c.uid) s
  let s := { s with cores := s.cores.map fun (q : Nat × Core) => (q.1, q.2.settlePairs c.uid) }
  let s := s.dropFlips th.core fun f => f.array == 3 && decide (undoBase th c ≤ f.addr) && decide (f.addr < undoBase th c + 32768)
  let g := clusterOf th.placeCore
  let fl : BitVec 7 := th.chunk.start.csr.nflags.setWidth 7
  let s := s.modLaunch l fun la => { la with gflags := tabSet la.gflags g (tabGet 0 la.gflags g ||| fl) }
  let s := if c.token && s.token == some t then { s with token := none } else s
  let z := fun (k : Chunk) => { k with
    aeTaken := k.aeTaken.map fun e => if e.2 == c.uid then (e.1, 0) else e
    dropped := k.dropped.map fun e => if e.2 == c.uid then (e.1, 0) else e }
  let s := s.modThr t fun th => { th.committed with
    older := none
    chunk := z th.committed.chunk }
  let s := c.post.foldl (sendAct t) s
  (if c.exits then exitThread s t else s).drained

/-- No packet can be written, and none is dropped: under POLICY STALL what would emit one waits (R373). -/
def traceFull (s : State) : Bool := s.trace.en && s.trace.stall && !(s.trace.free && s.trace.buf.isEmpty)

/-- A granted list may be released: its broadcast is applied, and a COMMIT packet has its slot (R139, R373). -/
def releasable (s : State) (t : Nat) (c : Chunk) : Bool :=
  c.state == .granted && !(s.bcasts.any fun b => b.tid == t) && !(traceFull s && s.traces t 2)

/-- POST_COMMIT_RELEASE: what has room among the thread's far requests leaves, in order, and the commit is complete when
all has left (R139, R150). -/
def execPostCommitRelease (t : Nat) (s : State) : Out :=
  event (match (s.thr t).older with
    | some c =>
      if releasable s t c then
        let n := sendable s (1024 - s.farCount t) c.post
        if n = c.post.length then releaseChunk s t c
        else
          let s := (c.post.take n).foldl (sendAct t) s
          (s.modThr t fun th => { th with older := th.older.map fun k => { k with post := c.post.drop n } }).drained
      else s
    | none => s)

/-! ## Results and pauses (R26, R78) -/

/-- The threads of a core whose vector queue holds something, in slot order from the arbiter's pointer (R315). -/
def vectorQueues (s : State) (core : Nat) : List Nat :=
  let p := (s.coreOf core).vptr
  (List.range 16).filterMap fun i =>
    match s.inSlot core ((p + i) % 16) with
    | some t => if (s.thr t).results.any (·.vec) then some t else none
    | none => none

/-- The arbiter's choice: the first head with a credit, else the first; one grant a cycle (R315). -/
def vectorChoice (s : State) (core : Nat) : Option Nat :=
  if (s.coreOf core).vlast = s.cycle + 1 then none
  else
    let q := vectorQueues s core
    match q.find? fun t => decide (1 ≤ (s.thr t).credit) with
    | some t => some t
    | none => q.head?

/-- A vector queue head is granted: its thread's credit falls where it has one, the pointer moves on, and a queue that
empties has no credit (R315). -/
def vectorGrant (s : State) (t : Nat) : State :=
  let th := s.thr t
  let more := th.results.any (·.vec)
  let s := s.modThr t fun th => { th with credit := if more then th.credit - 1 else 0 }
  s.modCore th.core fun c => { c with vptr := (th.slot + 1) % 16, vlast := s.cycle + 1 }

/-- Result k of a thread may return: it is known, and an instruction of the vector queue is its head and the arbiter's
choice (R182, R315). -/
def mayReturn (s : State) (t k : Nat) (r : Result) : Bool :=
  r.known && (!r.vec || (!((s.thr t).results.take k).any (·.vec) && vectorChoice s (s.thr t).core == some t))

/-- LONG_LATENCY_RESULT: result k of a thread returns to its register; the vector instructions of a thread complete in
program order (R26, R182). -/
def execLongLatencyResult (t k : Nat) (s : State) : Out :=
  event (match (s.thr t).results[k]? with
    | some r =>
      if mayReturn s t k r then
        let s := s.modThr t fun th => { th with
          regs := th.regs.take r
          chunk := if r.uid == th.chunk.uid then th.chunk else { th.chunk with start := th.chunk.start.take r }
          results := th.results.eraseIdx k }
        if r.vec then vectorGrant s t else s
      else s
    | none => s)

/-- YIELD_END: the wait of a YIELD or PAUSE is over (R78). -/
def execYieldEnd (t : Nat) (s : State) : Out :=
  event (
    if (s.thr t).status = .retry .paused ∧ (s.thr t).nextIssue ≤ s.cycle then s.modThr t fun th => { th with status := .ready } else s)

end Sys2Proof.Machine
end

