-- ==== Sys2Proof/Machine/MemEvents.lean ====
section
/-!
DEFINITION. Events of the memory system: relaxed stores, reductions and releases reach their homes, removals of
translations complete, misses fill, banks refresh (05_scalar R88, R94, R95, R100, R101, 07_memory R125 to R127,
09_ordering R141, R142, R145).
-/
namespace Sys2Proof.Machine

/-! ## Relaxed writes (R94, R95, R100, R141, R142) -/

/-- A relaxed write of flight k may be performed: nothing holds it back, and earlier ones of the thread to its words are
performed (R142). -/
def writeReady (s : State) (k t pa n : Nat) : Bool := s.free_ k t && !s.sameWord k t pa n

/-- The conditions of RED.FADD.S reach the group's GFLAGS when the home applies it (R94, R163). -/
def groupFlags (s : State) (t l : Nat) (f : BitVec 7) : State :=
  let g := clusterOf (s.thr t).placeCore
  s.modLaunch l fun la => { la with gflags := tabSet la.gflags g (tabGet 0 la.gflags g ||| f) }

/-- The home of a poisoned line discards a reduction and logs it in the cluster array's log with the context (R95). -/
def logPoisoned (s : State) (t pa : Nat) : State :=
  (s.logError ((clusterCores (s.homeOf pa)).headD 0) 9 (s.instOf pa) (pa / 64 * 64) (pa / 8) t false 0 4 false).1

/-- A home applies a reduction: the word is replaced at once, and every copy of its span is invalidated (R94, R95). The old
word is read in the cluster array (R129). -/
def applyReduction (s : State) (t l : Nat) (op : RedOp) (pa n : Nat) (x : BitVec 128) : State :=
  let s := if s.isFar pa then s else settleArray s t pa
  if s.poison.contains (pa / 64) then logPoisoned s t pa
  else
    let (v, f) := reduceValue op n (leNat (memRead s.mem pa n)) x
    groupFlags (homeWrite s t none pa (leBytes n v)) t l (f.setWidth 7)

/-- REDUCTION_APPLY, at a home of this package or in host memory (R94, R95); the read of the old word waits while its bank is
being refreshed (R126). -/
def execReductionApply (k : Nat) (s : State) : Out :=
  event (match s.flights[k]? with
    | some ⟨t, l, _, .reduce op pa n x⟩ =>
      if writeReady s k t pa n && !s.isFar pa && !s.bankBusy pa then ((applyReduction s t l op pa n x).dropFlight k).drained
      else s
    | _ => s)

/-! ## Removals of translations (R88) -/

/-- A command still translates through pages that a TLBINV names: it has not reached its next grain (R88). -/
def grainHolds (s : State) (va id : Option Word) : Bool :=
  s.cmds.any fun c => c.state == .running && c.held.any fun h => h.stale && tlbHit va id (h.entry c)

/-- TLBINV_COMPLETE: every TLB and walker of the package has dropped the entries that the commit took, and every command
that translated through them has reached its next grain (R36, R88). -/
def execTlbinvComplete (k : Nat) (s : State) : Out :=
  event (match s.tlbinvs[k]? with
    | some (_, va, id) =>
      if grainHolds s va id then s else dropTranslations { s with tlbinvs := s.tlbinvs.eraseIdx k } (va, id)
    | none => s)

/-! ## Misses and refresh (R103, R121, R126, R127) -/

def State.modHbm (s : State) (stack : Nat) (f : Hbm → Hbm) : State :=
  { s with hbm := tabSet s.hbm stack (f (tabGet Hbm.reset s.hbm stack)) }

/-- The address of a read for which a thread waits (R24, R126). -/
def Thread.reads (th : Thread) : Option Nat :=
  match th.status with
  | .retry (.miss pa _) => some pa
  | .retry (.read pa) => some pa
  | _ => none

/-- The addresses of the reads that wait at banks: threads', those of reductions that may be applied, and other agents'
(R126). -/
def State.queuedReads (s : State) : List Nat :=
  s.resident.filterMap (fun p => p.2.reads) ++
  (s.flights.zipIdx.filterMap fun q => match q.1.act with
    | .reduce _ pa n _ => if !s.isFar pa && writeReady s q.2 q.1.tid pa n then some pa else none
    | _ => none) ++
  s.readers.map (·.2)

/-- A read waits at a bank (R126). -/
def State.queuedRead (s : State) (b : Nat) : Bool := s.queuedReads.any fun pa => s.placeOf pa == .own && s.bankAt pa == b

/-- An agent's read waits at the bank of an address until the refresh ends (R126). -/
def State.waitAt (s : State) (r : Reader) (pa : Nat) : State := { s with readers := addNew (r, pa) s.readers }

/-- MISS_FILL: the line of a waiting thread arrives in its L1, data or instruction, unless its bank is refreshing or an
invalidation of it is on its way; the thread goes on (R103, R121, R126, R133). Errors in the cluster array are met at the
read (R129). -/
def execMissFill (core pa : Nat) (fetch : Bool) (s : State) : Out :=
  let line := pa / 64 * 64
  let wants := fun (p : Nat × Thread) => p.2.core == core && match p.2.status with
    | .retry (.miss a f) => a / 64 * 64 == line && f == fetch
    | _ => false
  event (
    match s.resident.find? wants with
    | none => s
    | some (t, _) =>
      if s.bankBusy line || s.isFar line || (!fetch && s.invalWaits core line) then s
      else
        let s := settleArray s t line
        let s := if s.poison.contains (pa / 64) then s else if fetch then s.fillCode core line else s.fillLine core line
        { s with threads := s.threads.map fun (p : Nat × Thread) =>
            (p.1, if p.2.loc == .slot && wants p then { p.2 with status := .ready } else p.2) })

/-- The numbers name a bank of this device. -/
def bankOk (stack pc bank : Nat) : Bool := decide (stack < 16) && decide (pc < 64) && decide (bank < 16)

/-- REFPB_DUE (R126). A REFpb that falls due while its bank is still refreshing is owed, and is no postponement where no read
is queued (log 142). -/
def execRefpbDue (stack pc bank : Nat) (s : State) : Out :=
  let b := bankKey stack pc bank
  let k := s.bank b
  let queued := s.queuedRead b
  event (
    if !bankOk stack pc bank then s
    else if !queued && k.busy == 0 then (s.setBank b { k with busy := 1 }).modHbm stack fun h => { h with pb := h.pb + 1 }
    else if k.owed < 8 then
      (s.setBank b { k with owed := k.owed + 1 }).modHbm stack fun h => { h with post := h.post + BitVec.ofNat 64 (b2n queued) }
    else
      let s := (List.range 16).foldl (fun (s : State) j => s.setBank (bankKey stack pc j) { owed := 0, busy := 2 }) s
      s.modHbm stack fun h => { h with forced := h.forced + 1 })

/-- OWED_REFRESH (R126). -/
def execOwedRefresh (stack pc bank : Nat) (s : State) : Out :=
  let b := bankKey stack pc bank
  event (
    if bankOk stack pc bank && (s.bank b).busy == 0 && decide (0 < (s.bank b).owed) && !s.queuedRead b then
      (s.setBank b { owed := (s.bank b).owed - 1, busy := 1 }).modHbm stack fun h => { h with pb := h.pb + 1 }
    else s)

/-- What a host read over CXL.mem returns: the line's bytes, with the poison indication (R340, R346). -/
def hostReadLine (s : State) (pa : Nat) : State :=
  let s := settleArray s noThread pa
  { s with hostRead := some (pa / 64 * 64, (List.range 64).map fun i => s.homeByte (pa / 64 * 64 + i), s.poison.contains (pa / 64)) }

/-- The reads of other agents that waited at banks no longer busy are made: a host's returns its line, an engine and the
launch engine go on (R126). -/
def serveReaders (s : State) : State :=
  let open_ := s.readers.filter fun r => !s.bankBusy r.2
  let s := { s with readers := s.readers.filter fun r => s.bankBusy r.2 }
  (open_.filter fun r => r.1 == .host).foldl (fun s r => hostReadLine s r.2) s

/-- REFRESH_END: a REFpb ends at its bank, a REFab at all 16 banks of the pseudo-channel (R126). -/
def execRefreshEnd (stack pc bank : Nat) (s : State) : Out :=
  let b := bankKey stack pc bank
  event (
    if (s.bank b).busy = 1 then serveReaders (s.setBank b { s.bank b with busy := 0 })
    else if (s.bank b).busy = 2 then
      serveReaders ((List.range 16).foldl (fun (s : State) j =>
        s.setBank (bankKey stack pc j) { s.bank (bankKey stack pc j) with busy := 0 }) s)
    else s)

end Sys2Proof.Machine
end

