-- ==== Sys2Proof/Machine/Far.lean ====
section
/-!
DEFINITION. Far memory: store groups, requests, acknowledgements, refusals and switch invalidations (09_ordering R149
to R151, 25_system R353).
-/
namespace Sys2Proof.Machine

/-- Marks the request of a thread with a number as served. -/
def markServed (s : State) (t : Nat) (num : BitVec 32) : State :=
  { s with far := s.far.map fun (f : FarReq) => if f.tid == t && f.num == num then { f with served := true } else f }

/-- The bytes of a list that lie in a line. -/
def lineBytes (bs : Mem) (l : Nat) : Mem := bs.filter fun b => b.1 / 64 == l

/-- A device performs one part of a group: the bytes, or the reduction on what memory then holds (R94, R149). -/
def performPart (t l : Nat) (s : State) : FarPart → State
  | .plain m => { s with mem := m.foldl (fun (m : Mem) (e : Host.Cell) => memSet m e.1 e.2) s.mem }
  | .store m => { s with mem := m.foldl (fun (m : Mem) (e : Host.Cell) => memSet m e.1 e.2) s.mem }
  | .red op pa n x =>
    let (v, f) := reduceValue op n (leNat (memRead s.mem pa n)) x
    groupFlags { s with mem := memWrite s.mem pa (leBytes n v) } t l (f.setWidth 7)

/-- The 4-byte words that a part writes. -/
def FarPart.words : FarPart → List Nat
  | .red _ pa n _ => (List.range ((pa + n - 1) / 4 + 1 - pa / 4)).map (pa / 4 + ·)
  | p => (p.bytes.map fun b => b.1 / 4).eraseDups

/-- The words of some parts, and whether a part is a reduction. -/
def partWords (ps : List FarPart) : List Nat := (ps.flatMap FarPart.words).eraseDups
def FarPart.isRed : FarPart → Bool
  | .red _ _ _ _ => true
  | _ => false

/-- Far writes performed by their device: memory takes the parts in order and as one unit. The thread's core takes the new
words, but for those of reductions, and every other holder of a word gets its invalidation (R95, R100, R120, R141, R149). -/
def performGroup (s : State) (t l : Nat) (parts : List FarPart) : State :=
  let core := (s.thr t).core
  let s := parts.foldl (performPart t l) s
  let red := partWords (parts.filter (·.isRed))
  let words := partWords parts
  let sinks := words.flatMap fun w =>
    (s.activeCores.filter fun c => s.holdsLine c (w / 16) && (c != core || red.contains w)).map fun c =>
      (⟨c, w * 4, 4, t, s.homeOf (w * 4)⟩ : Inval)
  let s := (words.filter fun w => !red.contains w).foldl (fun (s : State) w =>
    s.modCore core fun k => k.updateBytes (w * 4) (memRead s.mem (w * 4) 4)) s
  { s with invals := s.invals ++ sinks }

/-- FAR_STORE_GROUP: groups of one thread to one device are performed in the order of their commits; a group that meets
a poisoned line is not performed, and is refused, but a ZLINE clears its line's poison (R89, R149, R340). -/
def execFarStoreGroup (k : Nat) (s : State) : Out :=
  event (match s.flights[k]? with
    | some ⟨t, l, _, .farGroup d num bs zs parts⟩ =>
      let first := !(s.earlier k t).any fun f => match f.act with
        | .farGroup e _ _ _ _ => e == d
        | .reduce _ pa n _ => (Act.farGroup d num bs zs parts).meets pa n
        | _ => false
      if s.free_ k t && first && !bs.any fun b => s.poison.contains (b.1 / 64) && !zs.contains (b.1 / 64) then
        let s := markServed (performGroup s t l parts) t num
        ({ s with poison := s.poison.filter fun l => !zs.contains l }.dropFlight k).drained
      else s
    | _ => s)

/-- How many unserved requests of the same thread, kind and address come before far request k: their actions stand before
its own among the flights (R150, R151). -/
def farOrdinal (s : State) (k : Nat) (f : FarReq) : Nat :=
  ((s.far.take k).filter fun g => g.tid == f.tid && g.kind == f.kind && g.pa == f.pa && !g.served).length

/-- The reduction that far request k stands for. -/
def redFlight (s : State) (k : Nat) (f : FarReq) : Option Nat :=
  ((s.flights.zipIdx.filter fun q => q.1.tid == f.tid && match q.1.act with
    | .reduce _ a _ _ => a == f.pa
    | _ => false).map (·.2))[farOrdinal s k f]?

/-- The release that far request k stands for, with what it stores (R101, R273). -/
def relFlight (s : State) (k : Nat) (f : FarReq) (irr : Bool) : Option (Nat × Word × List Byte) :=
  (s.flights.zipIdx.filterMap fun q =>
    if q.1.tid != f.tid then none
    else match q.1.act with
      | .storeRel sc a bs => if !irr && a == f.pa then some (q.2, sc, bs) else none
      | .irrStore sc e => if irr && e.pa == f.pa then some (q.2, sc, leBytes 8 e.data.toNat) else none
      | _ => none)[farOrdinal s k f]?

/-- Ends a flight of an irrevocable store: its entry leaves the list (R273). -/
def dropEntry (s : State) (j : Nat) : State :=
  match s.flights[j]? with
  | some ⟨t, _, _, .irrStore _ e⟩ => modOpt s t fun o => { o with irr := o.irr.filter (· != e) }
  | _ => s

/-- FAR_REQUEST_SERVE: a peer device reads for a request, applies a reduction, or performs the store of a release that is
complete. A read waits for an invalidation on its way to the thread's core (R95, R101, R133, R149, R150). -/
def execFarRequestServe (k : Nat) (s : State) : Out :=
  event (match s.far[k]? with
    | none => s
    | some f =>
      if f.served || s.poison.contains (f.pa / 64) then s
      else
        match f.kind with
        | .line => markServed s f.tid f.num
        | .lda n d own =>
          if s.invalWaits (s.thr f.tid).core f.pa then s
          else
          let bs := (List.range n).map fun i => (tabFind own i).getD (s.homeByte (f.pa + i))
          let v := RegVal.x d (signExt (8 * n) (leNat bs))
          let s := s.modThr f.tid fun th => { th with
            results := th.results.map fun r => if r.far == some f.num.toNat then { r with val := some v } else r }
          markServed s f.tid f.num
        | .group => s
        | .red =>
          match redFlight s k f with
          | none => s
          | some j =>
            match s.flights[j]? with
            | some ⟨t, l, _, .reduce op pa n x⟩ =>
              if writeReady s j t pa n then
                let s := applyReduction s t l op pa n x
                (markServed (s.dropFlight j) t f.num).drained
              else s
            | _ => s
        | .rel irr =>
          match relFlight s k f irr with
          | none => s
          | some (j, sc, bs) =>
            if s.releaseReady j f.tid sc true then
              let s := performGroup s f.tid (s.thr f.tid).lid [.store (layWrite [] f.pa bs)]
              (markServed ((dropEntry s j).dropFlight j) f.tid f.num).drained
            else s)

/-- Drops a request. -/
def State.dropFar (s : State) (k : Nat) : State := { s with far := s.far.eraseIdx k }

/-- FAR_ACK: FARCNT falls; a line arrives in the L1, behind invalidations of it, an LDA's value is known (R133, R150). -/
def execFarAck (k : Nat) (s : State) : Out :=
  event (match s.far[k]? with
    | none => s
    | some f =>
      if !f.served || (f.kind == .line && s.invalWaits (s.thr f.tid).core f.pa) then s
      else
        let s := s.dropFar k
        match f.kind with
        | .line => s.fillLine (s.thr f.tid).core f.pa
        | .lda _ _ _ => s.modThr f.tid fun th => { th with
            results := th.results.map fun r => if r.far == some f.num.toNat then { r with far := none } else r }
        | _ => s)

/-- Far request k has left its core: nothing holds its action back (R142, R145). -/
def farSent (s : State) (k : Nat) (f : FarReq) : Bool :=
  match f.kind with
  | .line => true
  | .lda _ _ _ => true
  | .group => s.flights.zipIdx.any fun q => q.1.tid == f.tid && s.free_ q.2 f.tid &&
      match q.1.act with | .farGroup _ n _ _ _ => n == f.num | _ => false
  | .red => match redFlight s k f with | some j => s.free_ j f.tid | none => false
  | .rel irr => match relFlight s k f irr with | some (j, sc, _) => s.releaseReady j f.tid sc true | none => false

/-- The bytes of a refused group were never written: the copies of its words go, and chunks that have read them squash. A
core whose token holder has read them does so when it can, as for an invalidation (R38, R120, R151). -/
def retract (s : State) (t : Nat) (parts : List FarPart) : State :=
  (partWords parts).foldl (fun s w =>
    (s.activeCores.filter fun c => s.holdsLine c (w / 16)).foldl (fun (s : State) c =>
      let behind := s.invals.any fun v => v.core == c && v.home == s.homeOf (w * 4)
      if behind || deferred s c (w * 4) 4 then { s with invals := s.invals ++ [⟨c, w * 4, 4, t, s.homeOf (w * 4)⟩] }
      else invalidateAt s c (w * 4) 4) s) s

/-- A request is refused: it has no effect at its destination, a refused read's register keeps its value and is no
longer pending, and the refusal waits to be reported (R151). -/
def refuse (s : State) (k : Nat) (cls : BitVec 4) : State :=
  match s.far[k]? with
  | none => s
  | some f =>
    if f.served || !farSent s k f then s
    else
      let t := f.tid
      let red := redFlight s k f
      let rel := relFlight s k f (f.kind == .rel true)
      let s := s.dropFar k
      let s := s.modThr t fun th => { th with farLate := th.farLate ++ [(f.num, cls)] }
      match f.kind with
      | .line => s
      | .lda _ d _ =>
        let off := fun (r : Regs) => { r with marks := r.marks.filter (· != .x d) }
        s.modThr t fun th => { th with
          regs := off th.regs
          chunk := if th.results.any fun r => r.far == some f.num.toNat && r.uid == th.chunk.uid then th.chunk
            else { th.chunk with start := off th.chunk.start }
          results := th.results.filter fun r => r.far != some f.num.toNat }
      | .group =>
        match s.flights.findIdx? fun g => g.tid == t && match g.act with | .farGroup _ n _ _ _ => n == f.num | _ => false with
        | some j =>
          let parts := match s.flights[j]? with | some ⟨_, _, _, .farGroup _ _ _ _ parts⟩ => parts | _ => []
          (retract (s.dropFlight j) t parts).drained
        | none => s
      | .red =>
        match red with
        | some j => (s.dropFlight j).drained
        | none => s
      | .rel _ =>
        match rel with
        | some (j, _, _) => ((dropEntry s j).dropFlight j).drained
        | none => s

/-- FAR_REFUSAL: the destination denies permission (1), or the line is poisoned there (2). -/
def execFarRefusal (k : Nat) (cls : BitVec 4) (s : State) : Out :=
  event (if cls = 1 ∨ cls = 2 then refuse s k cls else s)

/-- FAR_TIMEOUT: class 3 (R151). -/
def execFarTimeout (k : Nat) (s : State) : Out := event (refuse s k 3)

/-- SWITCH_INVALIDATION: another device has written a far span; copies go and chunks that read it squash. It follows the
invalidations that the line's home has sent before, and is deferred while it meets the token holder's read set (R38, R140,
R141, R353). -/
def execSwitchInvalidation (pa : Nat) (data : List Byte) (s : State) : Out :=
  event (
    if !s.isFar pa || data.isEmpty || decide (256 < pa % 256 + data.length) || deferredAny s pa data.length ||
      s.invals.any fun v => (spanLines pa data.length).any fun l => v.home == s.homeOf (l * 64) then s
    else invalidateAll { s with mem := memWrite s.mem pa data } pa data.length)

/-- Reports the first refusal at an instruction boundary: FARREFUSED, with FARSEQ (R151). -/
def reportRefusal (s : State) (t : Nat) : State :=
  let l := (s.thr t).farLate
  match l.foldl (fun (m : Option (BitVec 32 × BitVec 4)) e => match m with
    | none => some e
    | some b => some (if e.1.toNat < b.1.toNat then e else b)) none with
  | none => s
  | some e =>
    let s := s.modThr t fun th => { th with
      farLate := th.farLate.filter (· != e)
      farseq := BitVec.ofNat 64 (e.2.toNat * 2 ^ 32 + e.1.toNat) }
    (enterHandler s t false 31 (e.1.setWidth 64) (s.thr t).regs.pc).modThr t fun th => { th with
      chunk := { th.chunk with refused := e :: th.chunk.refused } }

end Sys2Proof.Machine
end

