-- ==== Sys2Proof/Machine/Waits.lean ====
section
/-!
DEFINITION. Barriers and queued reservations on their way, and how a thread's wait between two chunks ends
(05_scalar R80, R96, R97, R103, 15_engines R222, 17_messages R255, R274, 21_scheduling R307, R311).
-/
namespace Sys2Proof.Machine

/-! ## Barriers (R80, R319) -/

/-- Arrivals of a thread at instances of a scope value so far. -/
def barCount (th : Thread) (w : Word) : Nat := ((th.bars.find? fun p => p.1 == w).map (·.2)).getD 0

/-- The domain has other devices (R352). -/
def State.peers (s : State) : List Nat := (List.range 2048).filter fun d => s.reg.domain.getLsbD d && d != s.reg.devnum.toNat

/-- An arrival joins its instance, or meets the status of one that has ended. A new instance of scope 2 waits for the
participants on other devices too (R80, R358). -/
def arriveBar (s : State) (t : Nat) (w : Word) (d : Reg) : State :=
  let th := s.thr t
  let key := (s.launchOf th.lid).launchkey
  let k := barCount th w + 1
  let s := s.modThr t fun th => { th with bars := (w, k) :: th.bars.filter fun p => p.1 != w }
  let same := fun (b : Barrier) => b.scope == w && b.k == k &&
    (if scopeOf w = some .domain then b.key == key else b.lid == th.lid)
  match s.barriers.find? same with
  | some b =>
    match b.ended with
    | some v => resumeBar v s (t, d)
    | none => settleBarriers { s with barriers := s.barriers.map fun (c : Barrier) =>
        if c = b then { b with arrived := b.arrived ++ [(t, d)] } else c }
  | none =>
    let b : Barrier :=
      { lid := th.lid, key := key, scope := w, k := k, arrived := [(t, d)], ended := none
        elsewhere := scopeOf w == some ScopeForm.domain && !s.peers.isEmpty }
    settleBarriers { s with barriers := s.barriers ++ [b] }

/-- BARRIER_ARRIVAL: arrival k on its way, which carries the release of R79; the numbers behind the last name the instances
of scope 2, and tell that the last participant on another device has arrived (R80, R358; log 44). -/
def execBarrierArrival (k : Nat) (s : State) : Out :=
  event (match s.flights[k]? with
    | some ⟨t, _, _, .arrive w d⟩ =>
      if s.releaseReady k t w false then (arriveBar (s.dropFlight k) t w d).drained else s
    | some _ => s
    | none =>
      match s.barriers[k - s.flights.length]? with
      | some b =>
        if b.elsewhere && b.ended.isNone then
          settleBarriers { s with barriers := s.barriers.map fun (c : Barrier) => if c = b then { b with elsewhere := false } else c }
        else s
      | none => s)

/-- Participants of this device that have not arrived at an instance. -/
def absentOf (s : State) (b : Barrier) : List Nat := (participants s b).filter fun t => !b.arrived.any fun a => a.1 == t

/-- The first absent participant of this device by LAUNCHID and logical index (R80). -/
def firstAbsent (s : State) (b : Barrier) : Option Nat :=
  let key := fun (t : Nat) => (s.launchOf (s.thr t).lid).launchId.toNat * 2 ^ 32 + (s.thr t).lindex
  (absentOf s b).foldl (fun (m : Option Nat) t => match m with
    | none => some t
    | some u => some (if key t < key u then t else u)) none

/-- The status of an instance that ends without a participant: its device and logical index (R80). -/
def absentWord (dev index : Nat) : Word := BitVec.ofNat 64 (dev * 2 ^ 48 + index % 65536 * 2 ^ 32 + 1)

/-- The status of an instance that the timeout ends: its first absent participant. Which device has one, where not this
one, and its index there, a free value tells (R80, R358; log 44). -/
def timeoutStatus (s : State) (b : Barrier) : State × Word :=
  let own := s.reg.devnum.toNat
  let mine := match firstAbsent s b with
    | some t => [absentWord own (s.thr t).lindex]
    | none => []
  let (v, s) := s.fresh
  let far := if b.elsewhere then (s.peers.filter fun d => mine.isEmpty || decide (d < own)).map fun d => absentWord d (bits v 63 48) else []
  let l := mine ++ far
  (s, l.getD (bits v 47 0 % Nat.max 1 l.length) 0)

/-- BARRIER_TIMEOUT: suspended while a proxy absence token holds the instance open (R80, R319). -/
def execBarrierTimeout (k : Nat) (s : State) : Out :=
  event (match s.barriers[k]? with
    | some b =>
      let held := (absentOf s b).any fun t => (s.thr t).loc != .slot && (s.coreOf (s.thr t).core).proxy
      if b.ended.isSome || ((absentOf s b).isEmpty && !b.elsewhere) || b.arrived.isEmpty || held then s
      else
        let (s, v) := timeoutStatus s b
        endBarrier s b v
    | none => s)

/-! ## Queued reservations (R96 to R98, R108) -/

/-- A request reaches its home: the word's queue of 64, else the overflow FIFO of 4,096 of the bank, else it will be sent
again (R96). Queues are known by the address of their word alone (log 151). -/
def enterQueue (s : State) (t pa n : Nat) (d : Reg) : State :=
  match s.reserved.find? fun r => r.pa == pa with
  | none =>
    let s := s.readWord (some t) pa
    { s with reserved := s.reserved ++ [{ pa := pa, holder := some t, started := false, size := n
                                          value := leNat (memRead s.mem pa n), waiters := [] }] }
  | some r =>
    if r.waiters.length < 64 && !s.overflow.any fun w => w.2.1 == pa then
      let s := { s with reserved := s.reserved.map fun (q : Reservation) =>
        if q.pa == pa then { q with waiters := q.waiters ++ [(t, n, d)] } else q }
      grantNext s pa
    else if (s.overflow.filter fun w => s.bankAt w.2.1 == s.bankAt pa).length < 4096 then
      { s with overflow := s.overflow ++ [(t, pa, n, d)] }
    else { s with resends := s.resends ++ [(t, pa, n, d)] }

/-- RESERVATION_REQUEST (R96). -/
def execReservationRequest (k : Nat) (s : State) : Out :=
  event (match s.flights[k]? with
    | some ⟨t, _, _, .lrwRequest pa n d⟩ => if s.free_ k t then (enterQueue (s.dropFlight k) t pa n d).drained else s
    | _ => s)

/-- RESERVATION_HANDOVER: the word is free at its home, and the next waiter has it (R98). -/
def execReservationHandover (k : Nat) (s : State) : Out :=
  event (match s.flights[k]? with
    | some ⟨t, _, _, .handover pa⟩ => if s.free_ k t then (freeWord (s.dropFlight k) t pa).drained else s
    | _ => s)

/-- RESERVATION_RESEND (R96). -/
def execReservationResend (k : Nat) (s : State) : Out :=
  event (match s.resends[k]? with
    | some (t, pa, n, d) => enterQueue { s with resends := s.resends.eraseIdx k } t pa n d
    | none => s)

/-- GRANT_TIMEOUT: a grant that no chunk has followed passes on, and the late thread's request re-enters at the tail
(R97). -/
def execGrantTimeout (k : Nat) (s : State) : Out :=
  event (match s.reserved[k]? with
    | some r =>
      match r.holder, r.started with
      | some t, false =>
        match (s.thr t).status with
        | .wait (.reservation pa n d _ _) =>
          if pa = r.pa then enterQueue (freeWord s t pa) t pa n d else s
        | _ => s
      | _, _ => s
    | none => s)

/-- WAITSWAP_EXPIRY: a sleeping waiter is swapped out and keeps its place; a bound pair leaves together. Only the end of its
wait makes it runnable (R97, R108, R316, R317). -/
def execWaitswapExpiry (t : Nat) (s : State) : Out :=
  let th := s.thr t
  let asleep := match th.status with
    | .wait (.reservation pa _ _ _ _) => !s.reserved.any fun r => r.pa == pa && r.holder == some t
    | _ => false
  event (
    if th.loc == .slot && asleep && th.older.isNone && th.chunk.count == 0 && th.regs.csr.waitswap != 0 then
      let s := s.modThr t fun th => { th with swapped := true }
      match s.partner t with
      | none => toTcc s t false
      | some u => askPreempt (askPreempt s t) u
    else s)

/-! ## Waits between chunks -/

/-- The wait of a thread is over, as the context scheduler sees it (R317); a TAKE's thread may look for work at any
time. The waits of WAITB and JOIN change what no squash restores, so they end once the chunk before them has committed
(R222, R311). -/
def waitOver (s : State) (t : Nat) : Wait → Bool
  | .batch n _ => (s.thr t).older.isNone && batchDone s t n
  | .reservation pa _ _ _ _ => s.reserved.any fun r => r.pa == pa && r.holder == some t
  | .barrier _ => false
  | .released _ _ => true
  | .zeros _ _ => true
  | .join h => (s.thr t).older.isNone && match handleOf s (s.thr t).lid h with
    | some (c, i) => !joinComing s t c i && (readEntry s (taskEntry s (s.thr t).lid c i)).2.1 == 0
    | none => true
  | .take _ => true
  | .recv _ m _ => (s.thr t).recvq.any (recvWants m none)
  | .recvs _ m w _ => (s.thr t).recvq.any (recvWants m (some w))
  | .wfi =>
    let th := s.thr t
    let sip := sipWord { s with cur := t }
    (th.recvq.any fun m => !m.processed && !m.anti) || sip.getLsbD 1 || sip &&& th.regs.csr.sie != 0
  | .optoff _ => !optoffWaits s t

/-- A trap that a thread's wait ends in, at its instruction; results of the chunk before return first (R28). -/
def waitTrap (s : State) (t cause : Nat) (tval pc : Word) : State :=
  if !(s.thr t).results.isEmpty then s else enterHandler s t false cause tval pc

/-- A reservation starts the thread's chunk: the value that the word had at the grant, or after a squash of that chunk its
committed value; the word held and in the read signature (R97). A poisoned word is a store access fault at the LRW, and the
word passes on (R28, R340). -/
def startReservation (s : State) (t pa n : Nat) (d : Reg) (pc va : Word) : State :=
  let s := s.readWord (some t) pa
  if (s.thr t).loc == .exited then s
  else if s.poison.contains (pa / 64) then
    if !(s.thr t).results.isEmpty then s
    else
      let s := (freeWord s t pa).modThr t fun th => { th with chunk := { th.chunk with detAt := none } }
      enterHandler s t false 7 va pc
  else
    let w : Wait := .reservation pa n d pc va
    let v := match s.reserved.find? fun r => r.pa == pa && r.holder == some t && !r.started with
      | some r => signExt (8 * n) r.value
      | none => reservedValue s pa n
    let s := { s with reserved := s.reserved.map fun (r : Reservation) =>
      if r.pa == pa && r.holder == some t then { r with started := true } else r }
    let s := s.modThr t fun th => { th with regs := th.regs.putX d v, status := .ready }
    let s := s.sealStart t [.reg (.x d)]
    let s := s.modThr t fun th => { th with chunk := { th.chunk with redo := some w } }
    s.asThread t fun s => s.enterRead pa n va.toNat

/-- The registers that a receive writes. -/
def recvKeys (d : Reg) : List UndoKey := [.reg (.v d), .reg (.v (d + 1))]

/-- A message that ends the wait of RECV or RECVS is the first effect of the thread's next chunk: its registers are written
and never pending (R253, R255). A poisoned ring entry traps at the instruction (R334). -/
def startReceive (s : State) (t : Nat) (d : Reg) (m : Msg) (pc : Word) : State :=
  let a := s.ringEntry t m
  if m.ring && s.poison.contains (a / 64) then waitTrap s t 50 (BitVec.ofNat 64 a) pc
  else
    let payload := s.msgPayload t m
    if m.ring && s.poison.contains (a / 64 + 1) then
      if !(s.thr t).results.isEmpty then s
      else
      let s := s.modThr t fun th => { th with regs := th.regs.putV d payload }
      (enterHandler s t false 50 (BitVec.ofNat 64 (a + 64)) pc).sealStart t (trapKeys ++ [.reg (.v d)])
    else
      let s := s.modThr t fun th => { th with
        recvq := th.recvq.filter fun k => k.ordinal != m.ordinal
        regs := (th.regs.putV d payload).putV (d + 1) (s.msgImage t m)
        status := .ready }
      let s := countEvent (s.sealStart t (recvKeys d)) t 13 1
      s.modThr t fun th => { th with chunk := { th.chunk with first := m :: th.chunk.first } }

/-- A task record that ends the wait of TAKE is the first effect of the thread's next chunk (R40, R307). -/
def startTask (s : State) (t : Nat) (d : Reg) (e : KEntry) : State :=
  let marks := fun (l : List RegName) => [RegName.x d, .x (d + 1)].foldl (fun l r => if realReg r then addNew r l else l) l
  let s := s.modThr t fun th => { th with
    regs := { (th.regs.putX d e.w0).putX (d + 1) e.w1 with marks := marks th.regs.marks }
    chunk := { th.chunk with redo := some (.take d) }
    status := .ready }
  s.sealStart t [.marks, .reg (.x d), .reg (.x (d + 1))]

/-- An instruction that a wait's end completes counts as retired (R374). -/
def countRetired (s0 s : State) (t : Nat) : State :=
  if (s.thr t).retired = (s0.thr t).retired then s else countEvent s t 2 1

/-- A waiting TAKE, or IXPOP, returns zeros: TAKE's are the first effect of the next chunk (R286, R307). -/
def giveZeros (s : State) (t : Nat) (d : Reg) (pop : Bool) : State :=
  if pop then s.asThread t fun s => finish s ((s.setX d 0).setX (d + 1) 0) .seq
  else (startTask s t d (kennelRecord false 0 0 none)).modThr t fun th => { th with chunk := { th.chunk with redo := none } }

/-- Tries to end the wait of a thread in a slot (R32). -/
def pollWait (s : State) (t : Nat) (w : Wait) : State :=
  if !waitOver s t w then s
  else
    match w with
    | .batch n pc => finishBatch s t n pc
    | .reservation pa n d pc va => startReservation s t pa n d pc va
    | .barrier _ => s
    | .released d v =>
      (s.modThr t fun th => { th with regs := th.regs.putX d v, status := .ready }).sealStart t [.reg (.x d)]
    | .zeros d pop => countRetired s (giveZeros s t d pop) t
    | .join h =>
      let s := s.modThr t fun th => { th with status := .ready }
      match handleOf s (s.thr t).lid h with
      | some (c, i) => s.quietWrite (taskEntry s (s.thr t).lid c i + 20) [0]
      | none => s
    | .take d =>
      match obtain { s with cur := t } false with
      | some (s', e) => startTask { s' with cur := s.cur } t d e
      | none => s
    | .recv d m pc =>
      match (s.thr t).recvq.find? (recvWants m none) with
      | some k => startReceive s t d k pc
      | none => s
    | .recvs d m sel pc =>
      match (s.thr t).recvq.find? (recvWants m (some sel)) with
      | some k => startReceive s t d k pc
      | none => s
    | .wfi => s.modThr t fun th => { th with status := .ready }
    | .optoff exit =>
      let s := s.modThr t fun th => { th with
        status := .ready
        regs := if exit then th.regs else th.regs.leaveOpt }
      s.sealStart t []

end Sys2Proof.Machine
end

