-- ==== Sys2Proof/Machine/MessageEvents.lean ====
section
/-!
DEFINITION. Messages on their way, rollback, GVT and fossil collection (17_messages R250 to R252, R256, R267 to R273).
-/
namespace Sys2Proof.Machine

/-! ## Arrival (R250 to R252, R256) -/

/-- The thread at a position of a launch with a LAUNCHKEY (R247, R252). -/
def receiver (s : State) (key : Word) (p : Position) : Option Nat :=
  (s.threads.find? fun q => q.2.placeCore == p.core && q.2.tIndex == p.thr.toNat && q.2.loc != .absent &&
    (s.launchOf q.2.lid).launchkey == key).map (·.1)

/-- The messages that hold a place at a thread: those that it holds, and those that an uncommitted chunk has taken, which a
squash gives back (R12, R251). -/
def Thread.heldMsgs (th : Thread) : List Msg :=
  th.recvq ++ ((th.chunks.filter Chunk.inFlight).flatMap fun k => k.taken ++ k.first).filter fun m =>
    !th.recvq.any fun k => k.ordinal == m.ordinal

/-- Changes every copy of a thread's messages: held, or taken by its chunks. -/
def Thread.mapMsgs (f : Msg → Msg) (th : Thread) : Thread :=
  let g := fun (c : Chunk) => { c with taken := c.taken.map f, first := c.first.map f }
  { th with recvq := th.recvq.map f, chunk := g th.chunk, older := th.older.map g }

/-- Those that hold an entry of a channel's spill ring. -/
def ringHeld (th : Thread) (c : BitVec 2) : List Msg := th.heldMsgs.filter fun m => m.ring && m.ch == c

/-- Messages of a channel in its spill ring, and messages in the receive queue. -/
def ringCount (th : Thread) (c : BitVec 2) : Nat := (ringHeld th c).length
def queueCount (th : Thread) : Nat := (th.heldMsgs.filter fun m => !m.ring).length

/-- The thread runs in a slot of its placement core. -/
def Thread.atHome (th : Thread) : Bool := th.loc == .slot && th.core == th.placeCore

/-- An arriving message goes to its spill ring (R251). -/
def toRing (th : Thread) (m : Msg) : Bool :=
  ringCount th m.ch != 0 || decide (Config.recvEntries ≤ queueCount th) || !th.atHome

/-- A message has its place: no earlier one of its triple is on its way, nothing holds it back, and a ring it needs has
room (R250, R251). -/
def arrives (s : State) (k t : Nat) (dst : Position) (m : Msg) (u : Option Nat) : Bool :=
  let before := (s.earlier k t).any fun f => match f.act with
    | .message d n => d == dst && n.ch == m.ch
    | _ => false
  let room := match u with
    | some u => !toRing (s.thr u) m || decide (ringCount (s.thr u) m.ch < Config.recvEntries)
    | none => true
  s.free_ k t && !before && room

/-- The ARRIVAL and PAYLOAD packets of a message (R370). -/
def arrivalPackets (s : State) (u : Nat) (m : Msg) : State :=
  let part := fun (i : Nat) => BitVec.ofNat 64 (m.payload.extractLsb' (64 * i) 64).toNat
  let pay := s.traces u 4
  let s := if s.traces u 3 then
      emitThread s u 3 ([m.low, m.vrt, m.srcDev.setWidth 64, m.ordinal] ++ if pay then [part 7] else [])
    else s
  if pay then emitThread s u 4 ((List.range 7).map part) else s

/-- The entry of a spill ring that the next message takes: the first free one from the place behind the last (R251). -/
def ringPlace (th : Thread) (c : BitVec 2) : Nat :=
  let used := (ringHeld th c).map (·.place)
  let start := th.ringNext[c.toNat]'(c.isLt)
  (((List.range 64).map fun i => (start + i) % 64).find? fun p => !used.contains p).getD 0

/-- The thread waits between two chunks. -/
def Thread.waiting (th : Thread) : Bool := match th.status with | .wait _ => true | _ => false

/-- Places a message with its ordinal: in the receive queue, or in a spill ring, whose entry in memory gets the payload and
the header image. A thread that is not resident becomes runnable, but for one swapped out on WAITSWAP expiry, which its wait
keeps out (R251, R256, R317, R334). -/
def placeMessage (s : State) (u : Nat) (m : Msg) : State :=
  let th := s.thr u
  let ring := toRing th m
  let p := ringPlace th m.ch
  let m := { m with ordinal := th.arrivals, ring := ring, place := if ring then p else 0 }
  let s := if ring then
      s.quietWrite (s.ringEntry u m) (leBytes 64 m.payload.toNat ++ leBytes 64 m.image.toNat)
    else s
  let s := s.modThr u fun th => { th with
    recvq := th.recvq ++ [m]
    arrivals := th.arrivals + 1
    ringNext := if ring then th.ringNext.set m.ch.toNat ((p + 1) % 64) m.ch.isLt else th.ringNext
    runnable := th.runnable || (th.loc != .slot && !(th.swapped && th.waiting)) }
  arrivalPackets s u m

/-- A DROP packet of a core (R252, R310, R370). -/
def dropPacket (s : State) (core code : Nat) (a b : Word) : State := emitCore s (some core) 5 [BitVec.ofNat 64 code, a, b]

/-- The sender hears of a placed or discarded message; anti-messages hold no send-queue entry. -/
def acknowledge (s : State) (t : Nat) (m : Msg) : State := if m.anti then s else { s with acks := s.acks ++ [t] }

/-- Lowers the target key of a thread's rollback (R268, R271). -/
def askRollback (s : State) (u : Nat) (k : BitVec 128) : State :=
  s.modThr u fun th => { th with ks := match th.ks with
    | some j => some (if k.toNat < j.toNat then k else j)
    | none => some k }

/-- A positive timed message below the last processed event of a thread in optimistic mode (R268). -/
def straggles (th : Thread) (m : Msg) : Bool :=
  th.regs.opt.on && m.timed && !m.anti &&
    ((th.recvq.any fun k => k.processed && decide (m.key.toNat < k.key.toNat)) ||
      (th.regs.opt.inEvent && decide (m.key.toNat < th.regs.opt.evKey.toNat)))

/-- MESSAGE_ARRIVAL of a positive message. One for another device leaves this package. -/
def execMessageArrival (k : Nat) (s : State) : Out :=
  event (match s.flights[k]? with
    | some ⟨t, l, _, .message dst m⟩ =>
      if m.anti then s
      else if dst.dev ≠ s.reg.devnum then
        if arrives s k t dst m none then (acknowledge (s.dropFlight k) t m).drained else s
      else
        let u := receiver s (s.launchOf l).launchkey dst
        if !arrives s k t dst m u then s
        else
          let s := acknowledge (s.dropFlight k) t m
          match u with
          | none => (dropPacket s dst.core 1 m.low m.vrt).drained
          | some u =>
            let late := straggles (s.thr u) m
            let s := placeMessage s u m
            (if late then askRollback s u m.key else s).drained
    | _ => s)

/-- MESSAGE_ACK: a send-queue entry is free (R250). -/
def execMessageAck (k : Nat) (s : State) : Out :=
  event (match s.acks[k]? with
    | some t => { s with acks := s.acks.eraseIdx k }.modThr t fun th => { th with sendBusy := th.sendBusy - 1 }
    | none => s)

/-- SPILL_RING_DRAIN: the oldest entry of a channel's ring moves to the receive queue; a poisoned entry stays, for the
instruction that takes it (R251, R334; log 31). -/
def execSpillRingDrain (t : Nat) (c : BitVec 2) (s : State) : Out :=
  let th := s.thr t
  event (
    if th.atHome && decide (queueCount th < Config.recvEntries) then
      match th.recvq.find? fun m => m.ring && m.ch == c with
      | some m =>
        let a := s.ringEntry t m
        let payload := s.msgPayload t m
        if s.poison.contains (a / 64) || s.poison.contains (a / 64 + 1) then s
        else s.modThr t (·.mapMsgs fun k =>
          if k.ordinal == m.ordinal then { k with ring := false, place := 0, payload := payload } else k)
      | none => s
    else s)

/-- Takes an anti-message and the message that it cancels out of a receive queue (R270). -/
def dropMates (q : List Msg) (a p : Nat) : List Msg := q.filter fun m => m.ordinal.toNat != a && m.ordinal.toNat != p

/-- ANTI_MESSAGE_ARRIVAL: its twin is the last that arrived before it (R250, R270). -/
def execAntiMessageArrival (k : Nat) (s : State) : Out :=
  event (match s.flights[k]? with
    | some ⟨t, l, _, .message dst m⟩ =>
      if !m.anti then s
      else if dst.dev ≠ s.reg.devnum then
        if arrives s k t dst m none then (s.dropFlight k).drained else s
      else
        let u := receiver s (s.launchOf l).launchkey dst
        if !arrives s k t dst m u then s
        else
          let s := s.dropFlight k
          match u with
          | none => (dropPacket s dst.core 1 m.low m.vrt).drained
          | some u =>
            match (s.thr u).recvq.filter (fun p => m.twin p) |>.getLast? with
            | none => (dropPacket s dst.core 1 m.low m.vrt).drained
            | some p =>
              let a := (s.thr u).arrivals
              let s := placeMessage s u m
              if p.processed then (askRollback s u m.key).drained
              else (s.modThr u fun th => { th with recvq := dropMates th.recvq a.toNat p.ordinal.toNat }).drained
    | _ => s)

/-! ## Rollback (R268, R269, R271) -/

/-- An anti-message of an output-log entry (R269). -/
def antiOf (s : State) (t : Nat) (e : OutEntry) : Act :=
  let th := s.thr t
  let dst := descPosition e.desc
  .message dst { vrt := e.vrt, seq := e.seq, anti := true, len := 0, ch := BitVec.ofNat 2 (bits e.desc 25 24)
                 dthr := dst.thr, sthr := BitVec.ofNat 4 th.tIndex, sy := BitVec.ofNat 5 (coreY th.placeCore)
                 sx := BitVec.ofNat 6 (coreX th.placeCore), srcDev := s.reg.devnum, payload := 0, ordinal := 0
                 ring := false, place := 0, processed := false }

/-- Resets a timed counter to a SEQ that was cancelled, if it is less (R269). -/
def resetSeq (m : Map (BitVec 32)) (e : OutEntry) : Map (BitVec 32) :=
  let k := tripleKey (descPosition e.desc) (bits e.desc 25 24)
  let old : BitVec 32 := tabGet 0 m k
  if e.seq.toNat ≤ old.toNat then tabSet m k (e.seq - 1) else m

/-- Each anti-message and the one message that it cancels leave together; one sent again after it stays (R269, R270). -/
def annihilate (q : List Msg) : List Msg :=
  (q.filter (·.anti)).foldl (fun l a =>
    match a.mate q with
    | some p => dropMates l a.ordinal.toNat p.ordinal.toNat
    | none => l) q

/-- Output-log entries of rolled-back events that are released and held back join the log, so that step 4 finds them, and
irrevocable entries that are held back go (R269; log 140). -/
def settleLogs (s : State) (t : Nat) (ks : BitVec 128) : State :=
  let hit := fun (k : BitVec 128) => decide (ks.toNat ≤ k.toNat)
  let outs := s.flights.filterMap fun f => match f.act with
    | .outLog e => if f.tid == t && hit e.key then some e else none
    | _ => none
  let s := { s with flights := s.flights.filter fun f => !(f.tid == t && match f.act with
    | .outLog e => hit e.key
    | .irrLog e => hit e.key
    | _ => false) }
  modOpt s t fun o => { o with out := o.out ++ outs, oTail := o.oTail + outs.length }

/-- The thread's chunk, which has executed no instruction, becomes a hardware chunk of its rollback: it is requested as any
chunk, and a squash of it asks for the rollback again (R269). -/
def hardwareChunk (s : State) (t : Nat) (ks : BitVec 128) : State :=
  requestChunk s t { (s.thr t).chunk with rollback := some ks }

/-- The state region and the rings, each with its length; two of them overlap (R258). -/
def Opt.overlaps (o : Opt) : Bool :=
  let at_ := fun (a : Word) (n : Nat) => (bits a 55 0, n)
  let l := [at_ o.sbase o.ssize.toNat, at_ o.ubase (96 * o.uent), at_ o.obase (48 * o.oent), at_ o.ibase (32 * o.ient)]
  l.zipIdx.any fun p => l.zipIdx.any fun q => decide (p.2 < q.2) && rangesMeet p.1.1 p.1.2 q.1.1 q.1.2

/-- Writes one undo-log entry back; where the rings overlap, the line it restores is unpredictable (R6, R258; log 152). -/
def restoreLine (s : State) (e : UndoEntry) : State :=
  let (ws, s) := if s.th.regs.opt.overlaps then s.freshList 8 else ([], s)
  s.specWrite e.pa (bits e.va 55 0) (if ws.isEmpty then e.pre else ws.flatMap fun w => leBytes 8 w.toNat)

/-- Step 2: the newest undo-log entries of rolled-back events, up to 64, are written back to their lines by a hardware chunk
and freed (R269; log 140). -/
def rollbackLines (s : State) (t : Nat) (ks : BitVec 128) (es : List UndoEntry) : State :=
  let s := s.asThread t fun s => es.foldl restoreLine s
  let s := s.modThr t fun th =>
    let o := th.regs.opt
    { th with regs := { th.regs with opt := { o with
        undo := o.undo.filter fun e => !es.contains e, uTail := o.uTail - es.length } } }
  hardwareChunk s t ks

/-- Steps 3 to 6, in a hardware chunk whose post-commit actions are the anti-messages (R262, R269). -/
def rollbackEvents (s : State) (t : Nat) (ks : BitVec 128) : State :=
  let th := s.thr t
  let o := th.regs.opt
  let hit := fun (k : BitVec 128) => decide (ks.toNat ≤ k.toNat)
  let outs := o.out.reverse.filter fun e => hit e.key
  let live := o.inEvent && hit o.evKey
  let q := annihilate (th.recvq.map fun m => if m.processed && hit m.key then { m with processed := false } else m)
  let done := q.filter (·.processed)
  let top := done.foldl (fun (n : Nat) m => Nat.max n (m.vrt.toNat + 1)) o.fossil.toNat
  let keepO := o.out.filter fun e => !hit e.key
  let keepI := o.irr.filter fun e => !hit e.key
  let o2 := { o with
    inEvent := o.inEvent && !live
    lvt := if o.inEvent && !live then o.lvt else BitVec.ofNat 64 (Nat.min top (2 ^ 64 - 1))
    out := keepO, irr := keepI
    oTail := o.oTail - (o.out.length - keepO.length)
    iTail := o.iTail - (o.irr.length - keepI.length)
    logged := if live then [] else o.logged }
  let s := s.modThr t fun th => { th with
    recvq := q
    ks := none
    chunk := { th.chunk with post := outs.map (antiOf s t) }
    status := match th.status with
      | .wait w => if live then .ready else .wait w
      | .retry .token => .retry .token
      | _ => .ready
    regs := { th.regs with
      opt := o2
      seqT := outs.foldl resetSeq th.regs.seqT
      pc := if live then o.evPc else th.regs.pc } }
  hardwareChunk s t ks

/-- One step of the rollback sequencer, for the events from a key (R269). -/
def rollBack (s : State) (t : Nat) (ks : BitVec 128) : State :=
  let s := settleLogs s t ks
  match ((s.thr t).regs.opt.undo.reverse.filter fun e => decide (ks.toNat ≤ e.key.toNat)).take 64 with
  | [] => rollbackEvents s t ks
  | es => if s.linesRoom (s.thr t).core (es.map fun e => e.pa / 64).eraseDups then rollbackLines s t ks es else s

/-- The chunk before the current one is a hardware chunk of the thread's rollback, not yet through (R269). -/
def Thread.rolling (th : Thread) : Bool := match th.older with | some c => c.rollback.isSome | none => false

/-- The thread is stopped for a rollback: it executes nothing and takes neither trap nor interrupt while a granted chunk, or
the step before, completes (R269). -/
def rollbackStops (th : Thread) : Bool :=
  th.ks.isSome && !th.committedRegs.smode && !th.regs.smode &&
    match th.older with | some c => c.rollback.isSome || !c.inFlight | none => false

/-- A step of a rollback may run: the thread is in a slot at a boundary, outside a handler, and no granted chunk and no step
before is still completing (R269, R271). -/
def rollbackReady (th : Thread) : Bool :=
  th.loc == .slot && th.ks.isSome && !th.committedRegs.smode && !th.regs.smode && !th.rolling &&
    match th.older with | some c => c.inFlight | none => true

/-- ROLLBACK: uncommitted chunks squash first (R269); a debug halt comes before it (R332, R365). -/
def execRollback (t : Nat) (s : State) : Out :=
  let th := s.thr t
  event (match th.ks with
    | some ks =>
      if rollbackReady th && !(s.coreOf th.core).halted then
        let s := if th.older.isSome || th.chunk.count != 0 then squash s t true 3 else s
        rollBack s t ks
      else s
    | none => s)

/-! ## GVT (R272, R273) -/

/-- Threads of a GVT group: those that have not exited. What a message that is held at the position of an exited thread
counts is not said; it is left out (R272; log 74). -/
def groupOf (s : State) (key : Word) : List (Nat × Thread) :=
  s.threads.filter fun p => p.2.loc != .absent && p.2.loc != .exited && (s.launchOf p.2.lid).launchkey == key

/-- What a thread counts toward GVT: its event, as of its last commit, and its unprocessed messages; those that an
uncommitted RECVT has taken count as unprocessed. A granted chunk's messages count at their sender before they are
released (R272). -/
def gvtTerms (th : Thread) : List Nat :=
  let r := th.committedRegs
  let inEv := r.opt.inEvent || (r.smode && r.saved.inEvent)
  let early := (th.chunks.filter Chunk.inFlight).flatMap fun c => c.taken.map (·.ordinal)
  let held := th.recvq.filter fun m => m.timed && (m.anti || early.contains m.ordinal || unprocessed th.recvq m)
  let sent := (match th.older with | some c => if c.inFlight then [] else c.post | none => []).filterMap fun a =>
    match a with
    | Act.message _ m => if m.timed then some m.vrt.toNat else none
    | _ => none
  (if inEv then [r.opt.evVrt.toNat] else []) ++ held.map (·.vrt.toNat) ++ sent

/-- The VRTs of a group's timed messages on their way. -/
def flightTerms (s : State) (key : Word) : List Nat :=
  s.flights.filterMap fun f => match f.act with
    | .message _ m => if m.timed && (s.launchOf f.lid).launchkey == key then some m.vrt.toNat else none
    | _ => none

/-- The group's GVT: a minimum, all ones over nothing (R272). -/
def gvtOf (s : State) (key : Word) : Nat :=
  ((groupOf s key).flatMap (fun p => gvtTerms p.2) ++ flightTerms s key).foldl Nat.min (2 ^ 64 - 1)

/-- The minimum over the threads and messages of a group on the other devices of the domain: a free value, all ones where
there are none (R272, R358; log 153). -/
def farGvt (s : State) : State × Nat :=
  if s.peers.isEmpty then (s, 2 ^ 64 - 1) else let (v, s) := s.fresh; (s, v.toNat)

/-- GVT_PUBLISH: a new value of a group, and fossil collection on the cores of its resident threads (R272, R273, R358). -/
def execGvtPublish (key : Word) (s : State) : Out :=
  event (
    if s.paused || (groupOf s key).isEmpty then s
    else
      let (s, far) := farGvt s
      let g := Nat.max (tabGet (0 : Word) s.gvts key.toNat).toNat (Nat.min far (gvtOf s key))
      let s := { s with gvts := tabSet s.gvts key.toNat (BitVec.ofNat 64 g) }
      ((groupOf s key).filter fun p => p.2.loc == .slot).foldl (fun s p => fossilCollect s p.1 g) s)

/-- RING_WAIT_TIMEOUT: QUEUEBAD with the address of the ring's base field; a thread that is switched out returns to its slot
to take it (R267, R317). -/
def execRingWaitTimeout (t : Nat) (s : State) : Out :=
  let th := s.thr t
  event (match th.status with
    | .retry (.ring field) =>
      if th.isOut then s.modThr t fun th => { th with runnable := true }
      else if th.loc == .slot && !(s.coreOf th.core).halted && (th.older.isNone || th.chunk.count == 0) then
        s.asThread t fun s => takeTrap s 55 (th.regs.opt.desc + field)
      else s
    | _ => s)

end Sys2Proof.Machine
end

