-- ==== Sys2Proof/Machine/TaskEvents.lean ====
section
/-!
DEFINITION. Steals, decrements, quiescence and refills of the free-node cache (01_machine R40, 19_nets R286, R293,
21_scheduling R307, R310).
-/
namespace Sys2Proof.Machine

/-- The IXPOP of a thread in a slot obtains a pair and completes (R286, R374). -/
def popPair (s : State) (t : Nat) (d : Reg) : State :=
  countRetired s (s.asThread t fun s =>
    match obtain s true with
    | some (s', e) => finish s (startRewrite s' d e) .seq
    | none => s) t

/-- STEAL: a waiting TAKE or IXPOP looks into its own Kennel and then at its victims; on a halted core none goes on (R40,
R365). -/
def execSteal (t : Nat) (s : State) : Out :=
  let th := s.thr t
  event (
    if !s.begins t then s
    else
      match th.status with
      | .wait (.take d) => pollWait s t (.take d)
      | .retry (.ixpop d) => if th.chunk.count = 0 then popPair s t d else s
      | _ => s)

/-- The home core applies a decrement (R310). Of an entry that something else has stored into, COUNT and STATE are free
values, and PC and ARG what memory holds (R6, R308; log 152). -/
def decrement (s : State) (l : Nat) (h : Word) : State :=
  match handleOf s l h with
  | none => s
  | some (core, i) =>
    let pa := taskEntry s l core i
    let (st, n, s) := readEntry s pa
    if st = 0 ∨ n = 0 then dropPacket s core 2 h 0
    else
      let s := s.quietWrite (pa + 16) (leBytes 4 (n - 1))
      if n = 1 ∧ st = 1 then
        let e := kennelRecord false (s.dword pa) (s.dword (pa + 8)) none
        let s := s.modCore core fun c => { c with kreserved := tabSet c.kreserved l (tabGet 0 c.kreserved l - 1) }
        let s := s.pushEntry core l e
        s.quietWrite (pa + 20) [0]
      else s

/-- TASK_DECREMENT (R310). -/
def execTaskDecrement (k : Nat) (s : State) : Out :=
  event (match s.flights[k]? with
    | some ⟨t, l, _, .decrement h⟩ => if s.free_ k t then (decrement (s.dropFlight k) l h).drained else s
    | _ => s)

/-- A thread waits in TAKE, or in IXPOP. -/
def Thread.inTake (th : Thread) : Bool := match th.status with | .wait (.take _) => true | _ => false
def Thread.inPop (th : Thread) : Bool := match th.status with | .retry (.ixpop _) => th.chunk.count == 0 | _ => false

/-- The one quiescence condition of a launch (R286, R307). -/
def quiescent (s : State) (l : Nat) : Bool :=
  let ts := (s.members l).map (·.2)
  let entries := s.cores.flatMap fun c => c.2.kennel l
  !ts.isEmpty && ts.all (fun th => (th.inTake || th.inPop) && th.older.isNone) && ts.any (fun th => th.inTake || th.inPop) &&
    !entries.any (fun e => e.pair) && !(ts.any Thread.inTake && entries.any fun e => !e.pair) &&
    !s.flights.any fun f => f.lid == l && match f.act with | .decrement _ => true | .pairPush _ _ => true | _ => false

/-- A waiting TAKE or IXPOP returns zeros; one of a thread that is switched out, or halted, when its chunk begins (R317,
R365). -/
def returnZeros (s : State) (p : Nat × Thread) : State :=
  let go := fun (d : Reg) (pop : Bool) =>
    if s.begins p.1 then countRetired s (giveZeros s p.1 d pop) p.1
    else s.modThr p.1 fun th => { th with status := .wait (.zeros d pop), runnable := th.loc != .slot }
  match p.2.status with
  | .wait (.take d) => go d false
  | .retry (.ixpop d) => go d true
  | _ => s

/-- LAUNCH_QUIESCENT (R286). -/
def execLaunchQuiescent (l : Nat) (s : State) : Out :=
  event (if quiescent s l then (s.members l).foldl returnZeros s else s)

/-- NODE_CACHE_REFILL, for a thread of the core that waits for it (R293). -/
def execNodeCacheRefill (core l : Nat) (s : State) : Out :=
  event (match s.threads.find? fun p => p.2.placeCore == core && p.2.lid == l && p.2.status == .retry .refill with
    | some (t, _) => s.asThread t refillCache
    | none => s)

end Sys2Proof.Machine
end

