-- ==== Sys2Proof/Machine/Commands.lean ====
section
/-!
DEFINITION. Engine commands from installation to retirement: refused fields, ranges, starting, grains and faults,
COMMAND_INSTALL and COMMAND_RETIRE (07_memory R112 to R114, R122 to R124, 09_ordering R146 to R148, 15_engines R216,
R221, R224 to R239, R242, R245, 23_faults R345, 27_debug R379).
-/
namespace Sys2Proof.Machine

/-! ## Fields of commands (R62, R227) -/

/-- The fields of a matrix product. -/
structure Mat where
  m  : Nat
  n  : Nat
  k  : Nat
  /-- parts that K is split into (GANGMMA) -/
  parts : Nat
  fa : Nat
  fb : Nat
  ba : Nat
  bb : Nat
  sa : Nat
  sb : Nat
  mdat : Nat
  db : Nat
  sparse : Bool
  exact  : Bool
  ntrap  : Bool
  deriving DecidableEq, Repr

/-- Reads the fields of a product: R227, and R233 for GANGMMA. -/
def Command.mat (c : Command) : Mat :=
  let gang := decide (c.kind = 6)
  let gen := decide (c.kind = 2)
  { m := 16 * (if gang then bits c.w0 35 32 + 1 else bits c.w0 34 32 + 1)
    n := 16 * (if gang then bits c.w0 40 36 + 1 else bits c.w0 37 35 + 1)
    k := 8 * (if gang then bits c.w0 52 41 + 1 else bits c.w0 51 40 + 1)
    parts := if gang then [1, 2, 3, 6].getD (bits c.w0 55 53) 1 else 1
    fa := bits c.w0 27 24, fb := if gen then gOut c.snap else bits c.w0 31 28
    ba := bits c.w3 7 4, bb := bits c.w3 11 8, sa := bits c.w3 23 12, sb := bits c.w3 35 24
    mdat := bits c.w3 53 36, db := bits c.w3 3 0
    sparse := c.flag 14, exact := c.flag 10, ntrap := c.flag 11 }

/-- A format of the 4-bit family. -/
def fmtQ4 (f : Nat) : Bool := f == 10 || f == 11

/-- Bytes of a row of k elements (R226). -/
def rowBytes (k f b : Nat) : Nat :=
  if f = 10 then k / 2 else if f = 11 then k / 2 + k / 2 ^ b else k * fmtBits f / 8

/-- Positions of K that one core holds, and elements of its compressed or plain A row. -/
def Mat.kPart (g : Mat) : Nat := g.k / g.parts
def Mat.kA (g : Mat) : Nat := if g.sparse then g.kPart / 2 else g.kPart

/-- Accumulator blocks of an output of n columns side by side, and the last block of an m by n output (R227). -/
def blockCols (n : Nat) : Nat := (n + 63) / 64
def lastBlock (db m n : Nat) : Nat := db + (m + 63) / 64 * blockCols n - 1

/-- The offset in CB of element (i, j) of an output of n columns from block db (R113, R227). -/
def cbOffset (db n i j : Nat) : Nat :=
  (db + i / 64 * blockCols n + j / 64) * 16384 + ((i % 64) * 64 + j % 64) * 4

/-- Local space code and offset of an operand word. -/
def spaceCode (w : Word) : Nat := bits w 63 60
def localOffset (w : Word) : Nat := bits w 59 0

/-- Bytes of CSP of a command's launch. -/
def State.cmdCsp (s : State) (c : Command) : Nat := (s.launchOf c.lid).csp * 2 ^ 21

/-- Bytes of a local space (R111). -/
def spaceSize (csp sp : Nat) : Nat :=
  if sp = 1 then 524288 else if sp = 4 then csp else if sp = 5 then 4096 else 262144

/-- The core of a slice of a command's cluster. -/
def Command.sliceCore (c : Command) (i : Nat) : Nat := (clusterCores (clusterOf c.core)).getD i c.core

/-! ## Refused fields (R63, R112, R224 to R239, R242, R379) -/

/-- A refused field, by its bit number w-word * 64 + bit. -/
def refused (bad : Bool) (b : Nat) : List Nat := if bad then [b] else []

/-- A field that must be zero. -/
def mustBeZero (w : Word) (word msb lsb : Nat) : List Nat := refused (bits w msb lsb != 0) (word * 64 + lsb)

/-- A local operand of n bytes in one of the spaces. A space that is not admitted is a refusal of the lowest field that
makes the operand local, the others name the address field, or the lowest dimension field (R112, R224). -/
def localRefused (csp : Nat) (w : Word) (spaces : List Nat) (n al word dim by_ : Nat) : List Nat :=
  if !spaces.contains (spaceCode w) then [by_]
  else refused (localOffset w % al != 0) (word * 64) ++
    refused (decide (spaceSize csp (spaceCode w) < localOffset w + n)) dim

/-- A fat pointer: valid, and RAW or of one of the formats stated, if any are (R226). -/
def ptrRefused (w : Word) (word : Nat) (fmts : List Nat) (field : Nat) : List Nat :=
  if !ptrOk w then [word * 64]
  else refused (bits w 63 60 != 0 && !fmts.isEmpty && !fmts.contains (bits w 63 60)) field

/-- Accumulator blocks: past block 15 the lowest dimension field, outside CBWIN the block field (R224, R227). -/
def blocksRefused (c : Command) (lo hi : Nat) : List Nat :=
  if 15 < hi then [32]
  else refused (!(decide ((c.cbwin.extractLsb' 0 4).toNat ≤ lo) && decide (hi ≤ (c.cbwin.extractLsb' 4 4).toNat))) 192

/-- Bytes of ST that the scales of rows of k elements occupy: one a block for Q4 (R226). -/
def scaleBytes (rows k f b : Nat) : Nat := if f = 10 then rows * k / 2 ^ b else 0

/-- The formats, block exponents and blocks of a product; kf names the KG field (R205, R227). -/
def Mat.formatRefused (g : Mat) (gen : Bool) (kf : Nat) : List Nat :=
  let ok := fun (f : Nat) => f == 1 || (decide (5 ≤ f) && decide (f ≤ 11))
  let blk := fun (f b : Nat) => if fmtQ4 f then decide (3 ≤ b) && decide (b ≤ 7) else b == 0
  refused (!ok g.fa) 24 ++ refused (!ok g.fb) (if gen then 24 else 28) ++
  refused (ok g.fa && ok g.fb && !fmtPairOk g.fa g.fb) 24 ++ refused (g.sparse && fmtQ4 g.fa) 24 ++
  refused (!blk g.fa g.ba) 196 ++ refused (!blk g.fb g.bb) 200 ++
  refused (g.exact && g.fa == 1) 10 ++
  refused (fmtQ4 g.fa && g.kPart % 2 ^ g.ba != 0) kf ++ refused (fmtQ4 g.fb && g.kPart % 2 ^ g.bb != 0) kf

/-- Rows and columns of the output that one core computes at most (R233). -/
def Mat.rowsOne (g : Mat) (gang : Bool) : Nat := if gang then Nat.min g.m 128 else g.m
def Mat.colsOne (g : Mat) (gang : Bool) : Nat := if gang then Nat.min g.n 128 else g.n

/-- The local operands of a product; nf names the NT field (R226, R227, R230). -/
def matLocalRefused (c : Command) (g : Mat) (nf : Nat) : List Nat :=
  let gang := decide (c.kind = 6)
  let gen := decide (c.kind = 2)
  let m := g.rowsOne gang
  let n := g.colsOne gang
  localRefused 0 c.w1 [2] (m * rowBytes g.kA g.fa g.ba) 64 1 32 64 ++
  (if gen then [] else localRefused 0 c.w2 [1] (n * rowBytes g.kPart g.fb g.bb) 64 2 nf 128) ++
  refused (g.fa == 10 && decide (4096 < g.sa + scaleBytes m g.kA g.fa g.ba)) 32 ++
  refused (g.fb == 10 && !gen && decide (4096 < g.sb + scaleBytes n g.kPart g.fb g.bb)) nf ++
  (if g.sparse then refused (decide (262144 < g.mdat + m * g.kPart / 8)) 32 else refused (g.mdat != 0) 228)

/-- Columns J of a frequency table that an MMAG uses: K of them, or N when transposed (R229). -/
def ropeCount (c : Command) (g : Mat) : Nat := if c.flag 28 then g.n else g.k

/-- The generator of an MMAG (R214, R229). -/
def generatorRefused (c : Command) (g : Mat) : List Nat :=
  mustBeZero c.w0 0 31 29 ++ mustBeZero c.w2 2 63 3 ++ refused (!gValid c.snap) 128 ++
  (if gKind c.snap < 4 then []
   else
    refused (gParam c.snap % 4 != 0) 128 ++
    refused ((List.range (ropeCount c g)).any fun j => decide (262144 < ropeOffset c.snap j + 4))
      (if c.flag 28 then 35 else 40))

/-- Number of members in a mask of slices. -/
def maskMembers (w : Nat) : List Nat := (List.range 8).filter fun i => w / 2 ^ i % 2 == 1

/-- GANGMMA's own fields (R233). A SPLIT code that is refused gives no parts that the members could be held to. -/
def gangRefused (s : State) (c : Command) (g : Mat) : List Nat :=
  let ms := maskMembers (bits c.w3 61 54)
  let split := decide (bits c.w0 55 53 ≤ 3)
  mustBeZero c.w0 0 63 56 ++ mustBeZero c.w3 3 63 62 ++ refused (!split) 53 ++
  refused (decide (23 < bits c.w0 40 36)) 36 ++ refused (g.k % (8 * g.parts) != 0) 41 ++
  refused (decide (1 < g.parts) && !g.exact) 10 ++ refused (decide (12 < g.db)) 192 ++
  refused ((split && (g.m + 127) / 128 * ((g.n + 127) / 128) * g.parts != ms.length) || decide (6 < ms.length)) 32 ++
  refused (ms.any fun i => !scopeHas (s.launchOf c.lid).rect (c.sliceCore i)) 246

/-- ACCOUT's element size, 1 for Q4I (R232). -/
def outSize (f : Nat) : Nat := if f = 11 then 1 else fmtBits f / 8

/-- ACCOUT's row pitch (R232). -/
def outPitch (c : Command) : Int :=
  if c.w2 = 0 then (rowBytes (16 * (bits c.w0 37 35 + 1)) (bits c.w0 27 24) (bits c.w3 7 4) : Nat) else c.w2.toInt

/-- First and last byte offsets, relative to DST, of ACCOUT's destination. -/
def outSpan (c : Command) : Int × Int :=
  let m := bits c.w0 34 32 * 16 + 16
  let rb : Nat := rowBytes (16 * (bits c.w0 37 35 + 1)) (bits c.w0 27 24) (bits c.w3 7 4)
  let last := ((m : Int) - 1) * outPitch c
  (if last < 0 then last else 0, (if last < 0 then 0 else last) + rb)

/-- ACCOUT's fields (R232). -/
def accoutRefused (c : Command) : List Nat :=
  let f := bits c.w0 27 24
  let m := 16 * (bits c.w0 34 32 + 1)
  let n := 16 * (bits c.w0 37 35 + 1)
  let b := bits c.w3 7 4
  let sz := outSize f
  let ok := [1, 2, 3, 5, 6, 7, 8, 9, 11].contains f
  let (lo, hi) := outSpan c
  let off : Int := (localOffset c.w1 : Nat)
  mustBeZero c.w0 0 63 38 ++ mustBeZero c.w3 3 63 8 ++ refused (!ok) 24 ++
  blocksRefused c (bits c.w3 3 0) (lastBlock (bits c.w3 3 0) m n) ++
  (if !ok then []
   else
    refused (f == 11 && !(decide (3 ≤ b) && decide (b ≤ 7))) 196 ++
    refused (f == 11 && decide (3 ≤ b) && n % 2 ^ b != 0) 35 ++
    refused (c.w2.toInt % (sz : Int) != 0) 128 ++
    (if c.flag 28 then ptrRefused c.w1 1 [f] 24 ++ refused (bits c.w1 55 0 % sz != 0) 64
     else if spaceCode c.w1 != 2 then [28]
     else refused (localOffset c.w1 % 64 != 0) 64 ++
      refused (decide (off + lo < 0) || decide (262144 < off + hi)) 32))

/-- The member list's entry of a rank, and the slot of a collective group: of two valid slots with one GID the lowest, as the
spec names none (R355; log 148). -/
def State.devPa (s : State) (a : Nat) : Nat := s.reg.devnum.toNat * 2 ^ 40 + a % 2 ^ 40
def rankEntry (s : State) (k : Collective) (r : Nat) : Nat := leNat (memRead s.mem (s.devPa (k.list.toNat + 4 * r)) 4)
def groupSlot (s : State) (gid : Nat) : Option (Nat × Collective) :=
  s.colls.find? fun p => p.2.valid && p.2.gid.toNat == gid

/-- Entry of a core's collective port in a member list (R355). -/
def portEntry (s : State) (core : Nat) : Nat := s.reg.devnum.toNat * 2 ^ 16 + coreY core * 256 + coreX core

/-- The rank of a core of this device in a group (R355). -/
def rankOf (s : State) (k : Collective) (core : Nat) : Option Nat :=
  (List.range k.nmem).find? fun r => rankEntry s k r == portEntry s core

/-- The element formats a reduction's fat pointers may state, by kind and OP: source and destination. -/
def redFormats (coll : Bool) (op : Nat) (mmt fxa : Bool) : List Nat × List Nat :=
  let int := if coll then op == 1 || op == 5 || op == 6 else op == 1 || (decide (3 ≤ op) && !mmt)
  let e := if int then [3] else [7]
  (e, if op = 0 ∧ fxa then [12] else e)

/-- A collective's fields (R239, R355). -/
def collectiveRefused (s : State) (c : Command) : List Nat :=
  let op := bits c.w0 26 24
  let data := c.kind == 0x21 || c.kind == 0x23
  let (src, dst) := if data then ([], []) else redFormats true op false (c.flag 27)
  mustBeZero c.w0 0 31 28 ++ refused (decide (op = 7) || (data && op != 0)) 24 ++
  ptrRefused c.w1 1 src 24 ++ ptrRefused c.w2 2 dst 24 ++
  (if c.kind = 0x21 then [] else mustBeZero c.w3 3 31 16) ++
  (match groupSlot s (bits c.w3 15 0) with
   | none => [192]
   | some (_, k) =>
     refused (rankOf s k c.core).isNone 192 ++
     refused (c.kind == 0x21 && decide (k.nmem ≤ bits c.w3 31 16)) 208 ++
     refused (c.kind == 0x22 && bits c.w3 63 32 % Nat.max 1 k.nmem != 0) 224)

/-- Flags a kind admits besides ACQ, REL, EVWAIT and EVSIG, as a mask of bits 10, 11, 14 (R228 to R233, R379). -/
def flagRefused (c : Command) : List Nat :=
  let product := c.kind == 1 || c.kind == 2
  let sparse := c.kind == 3 || c.kind == 6
  refused (c.flag 10 && !(product || sparse)) 10 ++ refused (c.flag 11 && !(product || sparse)) 11 ++
  refused (c.flag 14 && !sparse) 14 ++ refused (c.kind == 3 && !c.flag 14) 14

/-- COPY's fields (R234). -/
def copyRefused (csp : Nat) (c : Command) : List Nat :=
  let n := bits c.w0 63 32
  (if c.flag 8 || c.flag 9 then refused (scopeOf c.w3).isNone 192 else refused (c.w3 != 0) 192) ++
  (if c.flag 24 then localRefused csp c.w1 [2, 4] n 1 1 32 24 else ptrRefused c.w1 1 [] 64) ++
  (if c.flag 25 then localRefused csp c.w2 [1, 2, 4] n 1 2 32 25 else ptrRefused c.w2 2 [] 128)

/-- GATHER's and SCATTER's fields (R235). A BASE that is no multiple of the element size is refused as the field BASE (log
144). -/
def indexedRefused (csp : Nat) (c : Command) : List Nat :=
  let n := bits c.w0 63 32
  let e := bits c.w0 26 24
  refused (e == 7) 24 ++ ptrRefused c.w1 1 [] 64 ++ refused (e != 7 && bits c.w1 55 0 % 2 ^ e != 0) 64 ++
  (if c.flag 27 then localRefused csp c.w2 [2, 4] (4 * n) 1 2 32 27 else ptrRefused c.w2 2 [] 128) ++
  (if c.flag 28 then localRefused csp c.w3 [2, 4] (n * 2 ^ e) 1 3 32 28 else ptrRefused c.w3 3 [] 192)

/-- SCALECAST's fields (R236). -/
def scalecastRefused (csp : Nat) (c : Command) : List Nat :=
  let n := bits c.w0 63 32
  refused (decide (n = 0) || decide (4096 < n)) 32 ++ localRefused csp c.w1 [2, 4] n 1 1 32 64 ++
  mustBeZero c.w2 2 63 12 ++ refused (decide (4096 < bits c.w2 11 0 + n)) 32 ++ refused (c.w3 != 0) 192

/-- REDCOPY's fields (R237). -/
def redcopyRefused (csp : Nat) (c : Command) : List Nat :=
  let op := bits c.w0 26 24
  let (src, dst) := redFormats false op (c.flag 28) true
  refused (decide (4 < op)) 24 ++ mustBeZero c.w3 3 63 32 ++
  (if c.flag 27 then localRefused csp c.w1 [2, 4] (4 * bits c.w3 31 0) 1 1 64 27 else ptrRefused c.w1 1 src 24) ++
  ptrRefused c.w2 2 dst 24

/-- The fields of a kind's own entry. -/
def kindRefused (s : State) (c : Command) : List Nat :=
  let g := c.mat
  let csp := s.cmdCsp c
  let mma := mustBeZero c.w0 0 63 52 ++ mustBeZero c.w0 0 39 38 ++ mustBeZero c.w3 3 63 54 ++
    g.formatRefused (c.kind == 2) 40 ++ blocksRefused c g.db (lastBlock g.db g.m g.n) ++ matLocalRefused c g 35
  match c.kind with
  | 0x01 => mma
  | 0x02 => mma ++ generatorRefused c g
  | 0x03 => mma
  | 0x04 =>
    mustBeZero c.w0 0 63 52 ++ mustBeZero c.w0 0 51 40 ++ mustBeZero c.w0 0 39 38 ++ mustBeZero c.w0 0 37 35 ++
    mustBeZero c.w0 0 34 32 ++ mustBeZero c.w0 0 31 28 ++ mustBeZero c.w0 0 27 24 ++ refused (c.w1 != 0) 64 ++
    refused (c.w2 != 0) 128 ++ mustBeZero c.w3 3 63 54 ++ mustBeZero c.w3 3 53 36 ++ mustBeZero c.w3 3 35 24 ++
    mustBeZero c.w3 3 23 12 ++ mustBeZero c.w3 3 11 8 ++ refused (decide (bits c.w3 7 4 < bits c.w3 3 0)) 192 ++
    blocksRefused c (bits c.w3 3 0) (bits c.w3 7 4)
  | 0x05 => accoutRefused c
  | 0x06 =>
    gangRefused s c g ++ g.formatRefused false 41 ++
    blocksRefused c g.db (lastBlock g.db (g.rowsOne true) (g.colsOne true)) ++
    (if bits c.w0 55 53 ≤ 3 then matLocalRefused c g 36 else [])
  | 0x10 => copyRefused csp c
  | 0x11 => redcopyRefused csp c
  | 0x12 => indexedRefused csp c
  | 0x13 => indexedRefused csp c
  | 0x14 => scalecastRefused csp c
  | 0x20 => collectiveRefused s c
  | 0x21 => collectiveRefused s c
  | 0x22 => collectiveRefused s c
  | 0x23 => collectiveRefused s c
  | 0x30 => mustBeZero c.w0 0 31 24 ++ ptrRefused c.w1 1 [] 64 ++ ptrRefused c.w2 2 [] 128 ++ refused (c.w3 != 0) 192
  | _ => []

/-- The engine of a KIND (R63). -/
def kindEngine (kind : Nat) : Option Nat :=
  if 1 ≤ kind ∧ kind ≤ 6 then some 0 else if 0x10 ≤ kind ∧ kind ≤ 0x14 then some 1
  else if 0x20 ≤ kind ∧ kind ≤ 0x23 then some 2 else if kind = 0x30 then some 3 else none

/-- The refused fields of a command (R63, R224, R242, R379). -/
def refusedFields (s : State) (c : Command) : List Nat :=
  if kindEngine c.kind ≠ some c.engine.toNat then [0]
  else
    let ev := bits c.w0 23 20
    let used := c.flag 12 || c.flag 13
    refused (c.flag 15) 15 ++ refused (if used then decide (7 < ev) else ev != 0) 20 ++ flagRefused c ++ kindRefused s c

/-- The command is malformed (R63). -/
def malformed (s : State) (c : Command) : Bool := !(refusedFields s c).isEmpty

/-- The lowest refused bit: w-word * 64 + bit (R224). -/
def refusedBit (l : List Nat) : Nat := match l with | [] => 0 | a :: as => as.foldl Nat.min a

/-! ## Ranges (R122, R219) -/

/-- A range of a core's buffer: core, space, offset, bytes, written. -/
abbrev Range := Nat × Space × Nat × Nat × Bool

/-- The ranges of a product on one core: its operands where it takes part, and its output. -/
def matRanges (c : Command) (g : Mat) (core m n : Nat) (out : Bool) : List Range :=
  let gen := decide (c.kind = 2)
  let na := scaleBytes m g.kA g.fa g.ba
  let nb := if gen then 0 else scaleBytes n g.kPart g.fb g.bb
  let lo := if na = 0 then g.sb else if nb = 0 then g.sa else Nat.min g.sa g.sb
  let hi := Nat.max (if na = 0 then 0 else g.sa + na) (if nb = 0 then 0 else g.sb + nb)
  [(core, .ab, localOffset c.w1, m * rowBytes g.kA g.fa g.ba, false)] ++
  (if gen then [] else [(core, .wb, localOffset c.w2, n * rowBytes g.kPart g.fb g.bb, false)]) ++
  (if g.sparse then [(core, .ab, g.mdat, m * g.kPart / 8, false)] else []) ++
  (if out then [(core, .cb, g.db * 16384, (lastBlock g.db m n + 1 - g.db) * 16384, true)] else []) ++
  (if gen || na + nb == 0 then [] else [(core, .st, lo, hi - lo, false)]) ++
  (if gen && decide (4 ≤ gKind c.snap) then [(core, .ab, ropeOffset c.snap 0, 4 * ropeCount c g, false)] else [])

/-- A unit of a GANGMMA: member core, tile row and column, part of K (R233). -/
structure Unit_ where
  core : Nat
  u : Nat
  v : Nat
  p : Nat
  /-- the member that holds the tile's output -/
  home : Nat
  deriving DecidableEq, Repr

/-- The work units in ascending order (R233). -/
def gangUnits (c : Command) (g : Mat) : List Unit_ :=
  let ms := (maskMembers (bits c.w3 61 54)).map c.sliceCore
  let tv := (g.n + 127) / 128
  (List.range ms.length).map fun w =>
    let t := w / g.parts
    { core := ms.getD w c.core, u := t / tv, v := t % tv, p := w % g.parts, home := ms.getD (t * g.parts) c.core }

/-- Rows and columns of the tile of a unit. -/
def Unit_.rows (u : Unit_) (g : Mat) : Nat := Nat.min 128 (g.m - 128 * u.u)
def Unit_.cols (u : Unit_) (g : Mat) : Nat := Nat.min 128 (g.n - 128 * u.v)

/-- A local operand's range, where its space is a buffer of a core. -/
def operandRange (core : Nat) (w : Word) (n : Nat) (written : Bool) : List Range :=
  match spaceCode w with
  | 1 => [(core, .wb, localOffset w, n, written)]
  | 2 => [(core, .ab, localOffset w, n, written)]
  | _ => []

/-- The ranges of a well-formed command on every core. -/
def commandRanges (c : Command) : List Range :=
  let g := c.mat
  let len := bits c.w0 63 32
  let l : List Range :=
    match c.kind with
    | 0x01 => matRanges c g c.core g.m g.n true
    | 0x02 => matRanges c g c.core g.m g.n true
    | 0x03 => matRanges c g c.core g.m g.n true
    | 0x04 => [(c.core, .cb, bits c.w3 3 0 * 16384, (bits c.w3 7 4 + 1 - bits c.w3 3 0) * 16384, true)]
    | 0x05 =>
      let m := 16 * (bits c.w0 34 32 + 1)
      let n := 16 * (bits c.w0 37 35 + 1)
      let db := bits c.w3 3 0
      let (lo, hi) := outSpan c
      [(c.core, .cb, db * 16384, (lastBlock db m n + 1 - db) * 16384, c.flag 31)] ++
      (if c.flag 28 then [] else [(c.core, .ab, ((localOffset c.w1 : Int) + lo).toNat, (hi - lo).toNat, true)])
    | 0x06 => (gangUnits c g).flatMap fun u => matRanges c g u.core (u.rows g) (u.cols g) (u.p == 0)
    | 0x10 =>
      (if c.flag 24 then operandRange (c.sliceCore (bits c.w0 28 26)) c.w1 len false else []) ++
      (if c.flag 25 then operandRange (c.sliceCore (bits c.w0 31 29)) c.w2 len true else [])
    | 0x11 => if c.flag 27 then operandRange (c.sliceCore (bits c.w0 31 29)) c.w1 (4 * bits c.w3 31 0) false else []
    | 0x12 =>
      (if c.flag 27 then operandRange (c.sliceCore (bits c.w0 31 29)) c.w2 (4 * len) false else []) ++
      (if c.flag 28 then operandRange (c.sliceCore (bits c.w0 31 29)) c.w3 (len * 2 ^ bits c.w0 26 24) true else [])
    | 0x13 =>
      (if c.flag 27 then operandRange (c.sliceCore (bits c.w0 31 29)) c.w2 (4 * len) false else []) ++
      (if c.flag 28 then operandRange (c.sliceCore (bits c.w0 31 29)) c.w3 (len * 2 ^ bits c.w0 26 24) false else [])
    | 0x14 =>
      operandRange c.core c.w1 len false ++
      (maskMembers (bits c.w0 31 24)).map fun i => (c.sliceCore i, .st, bits c.w2 11 0, len, true)
    | _ => []
  l.filter fun r => r.2.2.2.1 != 0

/-- A command without ranges that holds an entry for its ticket (R219). -/
def holdsTicket (c : Command) : Bool := entriesOf c.kind == 1 && c.kind != 4

/-- Scoreboard entries of a command on a core (R122). -/
def entriesOn (c : Command) (core : Nat) : List SbEntry :=
  ((commandRanges c).filter fun r => r.1 == core).map fun r => ⟨c.id, some (r.2.1, r.2.2.1, r.2.2.2.1, r.2.2.2.2)⟩

/-- The cores other than the posting one that a command has ranges on. -/
def otherCores (c : Command) : List Nat := ((commandRanges c).map (·.1)).eraseDups.filter (· != c.core)

/-- Chunks that hold granules of a range are asked to give way (R114). -/
def pressRange (s : State) (r : Range) : State :=
  let gs := (List.range ((r.2.2.1 + r.2.2.2.1 - 1) / 64 + 1 - r.2.2.1 / 64)).map fun i => r.2.2.1 / 64 + i
  gs.foldl (fun (s : State) g =>
    let ts := (s.threads.filter fun p => p.2.placeCore == r.1 &&
      p.2.chunk.grans.any fun q => q.1 == r.2.1 && q.2.1 == g).map (·.1)
    ts.foldl (fun (s : State) t => pressHolder s t r.2.1 g) s) s

/-- An uncommitted chunk holds a granule of a range (R114). -/
def rangeHeld (s : State) (r : Range) : Bool :=
  s.threads.any fun p => p.2.placeCore == r.1 && p.2.chunks.any fun c => c.inFlight &&
    c.grans.any fun q => q.1 == r.2.1 && rangesMeet r.2.2.1 r.2.2.2.1 (q.2.1 * 64) 64

/-- A command's entries on a core meet entries installed there before (R124). -/
def sbHazard (c : Core) (id : Nat) : Bool :=
  let mine := c.sb.filter fun e => e.cmd == id
  let before := c.sb.takeWhile fun e => e.cmd != id
  mine.any fun e => before.any fun f =>
    match e.range, f.range with
    | some (p, a, n, w), some (q, b, m, v) => p == q && (w || v) && rangesMeet a n b m
    | _, _ => false

/-- Frees a command's entries (R122). -/
def freeEntries (s : State) (id : Nat) : State :=
  { s with cores := s.cores.map fun (q : Nat × Core) => (q.1, { q.2 with sb := q.2.sb.filter fun e => e.cmd != id }) }

/-! ## Installation (R114, R122, R216, R221) -/

def State.modCmd (s : State) (id : Nat) (f : Command → Command) : State :=
  { s with cmds := s.cmds.map fun (c : Command) => if c.id == id then f c else c }

def State.cmd? (s : State) (id : Nat) : Option Command := s.cmds.find? fun c => c.id == id

/-- Two commands share a queue (R216). -/
def sameQueue (c : Command) (core : Nat) (e : Nat) : Bool := c.engine.toNat == e && (e == 3 || c.core == core)

/-- Capacity of an engine's queue (R216). -/
def queueRoom (e : Nat) : Nat := if e = 0 then 64 else if e = 1 then 32 else if e = 2 then 16 else 64

/-- Takes the entries of a command on another core, where that core has them free (R122). -/
def takeEntries (s : State) (c : Command) (core : Nat) : State :=
  let es := entriesOn c core
  if (s.coreOf core).sb.any fun e => e.cmd == c.id then s
  else if es.length ≤ s.sbFree core then
    ((commandRanges c).filter fun r => r.1 == core).foldl pressRange
      (s.modCore core fun k => { k with sb := k.sb ++ es })
  else s

/-- Installs a command: its queue place and its ranges; a malformed one and one whose launch has ended need no ranges. -/
def installCommand (s : State) (c : Command) : State :=
  let ended := (s.launchOf c.lid).terminated
  let bad := malformed s c
  let c := if ended then { c with cls := 8, state := .done } else c
  let s := { s with cmds := s.cmds ++ [c] }
  let s := countEvent s c.tid 11 1
  if ended then s
  else
    let es := if bad || holdsTicket c then [⟨c.id, none⟩] else entriesOn c c.core
    let s := s.modCore c.core fun k => { k with sb := k.sb ++ es }
    if bad then s
    else
      let s := ((commandRanges c).filter fun r => r.1 == c.core).foldl pressRange s
      (otherCores c).foldl (fun (s : State) k => takeEntries s c k) s

/-- COMMAND_INSTALL: in the order of the thread's list, where the queue has room. A command with ACQ or REL is installed
when the thread's earlier actions are performed (R147, R148, R221). -/
def execCommandInstall (k : Nat) (s : State) : Out :=
  event (match s.flights[k]? with
    | some ⟨t, _, _, .command c⟩ =>
      let room := decide ((s.cmds.filter fun d => sameQueue d c.core c.engine.toNat && d.state != .retired).length <
        queueRoom c.engine.toNat)
      let quiet := (s.earlier k t).isEmpty && !s.far.any fun f => f.tid == t && f.served && f.kind.writes
      if s.free_ k t && room && (quiet || !(c.flag 8 || c.flag 9)) then (installCommand (s.dropFlight k) c).drained else s
    | _ => s)

/-! ## Starting (R122, R124, R147, R216, R241, R242) -/

/-- The command at the head of a queue. A reducing copy that has been sent to its controllers holds its FIFO back no
longer. -/
def headOf (s : State) (core e : Nat) : Option Command :=
  s.cmds.find? fun c => sameQueue c core e && (c.state == .waiting || (c.state == .running && !c.sent))

/-- A product of counters is true (R241). -/
def productTrue (k : Core) (mask : Nat) : Bool :=
  mask != 0 && (List.range 8).all fun i =>
    mask / 2 ^ i % 2 == 0 || let w := k.evcnt.toList.getD i 0; decide (bits w 63 32 ≤ bits w 31 0)

/-- The mask of the product that fires, 0 where both masks are zero; none where the term is false (R241, R242). -/
def termFires (k : Core) (n : Nat) : Option Nat :=
  let w := k.evterm.toList.getD n 0
  let a := bits w 7 0
  let b := bits w 15 8
  if a = 0 ∧ b = 0 then some 0 else if productTrue k a then some a else if productTrue k b then some b else none

/-- The event term that a command waits on is true, and no command of another engine's head, installed earlier, waits
on it (R242). -/
def termReady (s : State) (c : Command) : Bool :=
  !c.flag 12 ||
    ((termFires (s.coreOf c.core) (bits c.w0 23 20)).isSome &&
      !(s.cmds.takeWhile fun d => d.id != c.id).any fun d =>
        d.core == c.core && d.state == .waiting && d.flag 12 && bits d.w0 23 20 == bits c.w0 23 20 &&
          headOf s d.core d.engine.toNat == some d && !malformed s d)

/-- CONSUME: the thresholds of the product that fired are subtracted, each count stopping at 0 (R242). -/
def consumeTerm (s : State) (c : Command) : State :=
  let w := (s.coreOf c.core).evterm.toList.getD (bits c.w0 23 20) 0
  if !c.flag 12 || !w.getLsbD 16 then s
  else
    let mask := (termFires (s.coreOf c.core) (bits c.w0 23 20)).getD 0
    s.modCore c.core fun k => { k with
      evcnt := Vector.ofFn fun (i : Fin 8) =>
        let v := k.evcnt[i]
        if mask / 2 ^ i.val % 2 = 1 then putBits v 0 32 (bits v 31 0 - bits v 63 32) else v }

/-- The matrix engine of a halted core is paused, for a GANGMMA that of any member, and the copy engine of a cluster with a
halted core is frozen (R365). -/
def engineHalted (s : State) (c : Command) : Bool :=
  let e := c.engine.toNat
  (e == 0 && ((s.coreOf c.core).halted ||
    (c.kind == 6 && (maskMembers (bits c.w3 61 54)).any fun i => (s.coreOf (c.sliceCore i)).halted))) ||
  (e == 1 && (clusterCores (clusterOf c.core)).any fun k => (s.coreOf k).halted)

/-- The head of a queue, of a kind and well formed, with its entries on other cores taken where they are free. -/
def readyHead (s : State) (core e kind : Nat) : Option (State × Command) :=
  match headOf s core e with
  | none => none
  | some c =>
    if c.kind = kind ∧ c.state = .waiting ∧ !malformed s c ∧ !s.paused ∧ !engineHalted s c then
      some ((otherCores c).foldl (fun (s : State) k => takeEntries s c k) s, c)
    else none

/-- A head command can start: every range is on its scoreboard, no hazard, no granule held, its term true, and with
ACQ the thread's earlier commands have made their last access. -/
def canStart (s : State) (c : Command) : Bool :=
  ((otherCores c).all fun k => (s.coreOf k).sb.any fun e => e.cmd == c.id) &&
  !((c.core :: otherCores c).any fun k => sbHazard (s.coreOf k) c.id) &&
  !((commandRanges c).any (rangeHeld s)) && termReady s c &&
  (!c.flag 8 || (s.cmds.takeWhile fun d => d.id != c.id).all fun d => d.tid != c.tid || d.finished)

/-- Starts the head of a queue and does something with it; otherwise the state is as the head's waiting leaves it. -/
def startHead (s : State) (core e kind : Nat) (f : State → Command → State) : State :=
  match readyHead s core e kind with
  | none => s
  | some (s1, c) =>
    if canStart s1 c then f ((consumeTerm s1 c).modCmd c.id fun c => { c with started := true, state := .running }) c else s1

/-! ## Accesses, grains and faults (R225, R340, R345) -/

/-- Where bytes of an operand lie. -/
inductive Spot where
  | glob (va : Nat)
  | buf (core : Nat) (sp : Space) (o : Nat)
  | csp (cluster size o : Nat)
  deriving DecidableEq, Repr

def Spot.add : Spot → Nat → Spot
  | .glob a, n => .glob (a + n)
  | .buf c sp o, n => .buf c sp (o + n)
  | .csp k z o, n => .csp k z (o + n)

/-- The address that a grain is a range of, and its size (R225). -/
def Spot.addr : Spot → Nat
  | .glob a => a
  | .buf _ _ o => o
  | .csp _ _ o => o
def Spot.grain : Spot → Nat
  | .glob _ => 65536
  | _ => 4096

/-- An access of an operand: its number, place, bytes, and whether it writes. -/
structure Touch where
  op    : Nat
  spot  : Spot
  n     : Nat
  store : Bool
  deriving DecidableEq, Repr

/-- An operand named by a local address or a fat pointer. -/
def operandSpot (s : State) (c : Command) (isLocal : Bool) (core : Nat) (w : Word) : Spot :=
  if !isLocal then .glob (bits w 55 0)
  else match spaceCode w with
    | 1 => .buf core .wb (localOffset w)
    | 2 => .buf core .ab (localOffset w)
    | 5 => .buf core .st (localOffset w)
    | _ => .csp (clusterOf c.core) (s.cmdCsp c) (localOffset w)

/-- The accessor of a command: U mode with the satp of ENQ (R345). -/
def Command.who (c : Command) : Who := ⟨c.satp, false, false, false⟩

/-- The page that a command holds for a byte of the grains that it is in (R88). -/
def Command.heldFor (c : Command) (va : Nat) : Option Held :=
  c.held.find? fun h => h.grain == va / 65536 && h.vbase == va / 2 ^ h.bits

/-- A command's translation of a global byte: a page that it holds, else what its core's, cluster's and die's entries and the
page tables answer, which may be old (R88, R344, R345). -/
def cmdAnswer (s : State) (c : Command) (acc : Acc) (va : Nat) : Except TransErr (State × Nat × Bool) :=
  if 2 ^ 56 ≤ va then .error (.fault 5)
  else match c.heldFor va with
    | some h => useLeaf s c.core c.who acc va (h.entry c).met
    | none => translate s c.core none c.who acc va

/-- The physical address of a global byte for a command, if it translates. -/
def cmdTranslate (s : State) (c : Command) (acc : Acc) (va : Nat) : Except TransErr Nat :=
  match cmdAnswer s c acc va with
  | .ok (_, pa, _) => .ok pa
  | .error e => .error e

/-- The physical address of a byte of CSP in blocked mode (R91, R226). -/
def cspByte (cluster size o : Nat) : Nat := cspName cluster (o / Nat.max 1 (size / 8)) (o % Nat.max 1 (size / 8))

/-- The lowest byte of a buffer range that lies in a word with a double error (R129). -/
def badWord (k : Core) (sp : Space) (o n : Nat) : Option Nat :=
  let ws := k.flips.filter fun f => f.array == sp.array && rangesMeet o n (f.addr / 8 * 8) 8
  let two := ws.filter fun f => decide (2 ≤ (ws.filter fun g => g.addr / 8 == f.addr / 8).length)
  match two.map fun f => Nat.max o (f.addr / 8 * 8) with
  | [] => none
  | a :: as => some (as.foldl Nat.min a)

/-- A peer refuses a far request of a command, or does not answer in time: a free value tells (R151, R351; log 7). -/
def farRefused (s : State) (id pa : Nat) : Bool := s.isFar pa && Config.farAnswer id (pa / 64)

/-- The fault of an access: distance from its first byte, class and detail (R224, R225, R351). A global access lies within
one line; a poisoned line is named by its virtual, or local, address (log 143). -/
def touchFault (s : State) (c : Command) (t : Touch) : Option (Nat × Nat × Word) :=
  if t.n = 0 then none
  else match t.spot with
  | .glob va =>
    match cmdTranslate s c (if t.store then .store else .load) va with
    | .error .flip => none
    | .error (.bank _) => none
    | .error (.fault e) => some (0, if e = 12 ∨ e = 13 ∨ e = 15 then 2 else 3, BitVec.ofNat 64 va)
    | .ok pa =>
      if s.poison.contains (pa / 64) then some (0, 4, BitVec.ofNat 64 (va / 64 * 64))
      else if farRefused s c.id pa then some (0, 3, BitVec.ofNat 64 va)
      else none
  | .buf core sp o =>
    let ws := if t.store then mergedWords o t.n else [o]
    match ws.findSome? fun a => badWord (s.coreOf core) sp a (if t.store then 8 else t.n) with
    | some a => some (a - o, 4, BitVec.ofNat 64 (sp.code * 2 ^ 60 + a))
    | none => none
  | .csp k z o =>
    if s.poison.contains (cspByte k z o / 64) then some (0, 4, BitVec.ofNat 64 (4 * 2 ^ 60 + o / 64 * 64)) else none

/-- What a command gathers on its way: conditions, saturations, the first new NaN. -/
structure Stat where
  flags : BitVec 7
  sat   : Nat
  mark  : Option Nat
  deriving DecidableEq, Repr

def Stat.none_ : Stat := ⟨0, 0, none⟩

/-- Adds conditions and a count. -/
def Stat.add (st : Stat) (f : BitVec 6) (n : Nat) : Stat :=
  { st with flags := st.flags ||| f.setWidth 7, sat := Nat.min (st.sat + n) 0xFFFFFFFF }

/-- A step of a command in its progress order: its accesses, whether their bytes advance together, and its effect. -/
structure Step where
  touches  : List Touch
  together : Bool
  run      : State × Stat → State × Stat

/-- The first fault of a step: the access and its address, class and detail. -/
def stepFault (s : State) (c : Command) (p : Step) : Option (Touch × Nat × Nat × Word) :=
  let fs := p.touches.filterMap fun t => (touchFault s c t).map fun f => (t, f.1, f.2.1, f.2.2)
  match fs with
  | [] => none
  | f :: r => some (if p.together then r.foldl (fun b g => if g.2.1 < b.2.1 then g else b) f else f)

/-- Two places lie in one space: global memory, a buffer of a core, the CSP of a cluster. -/
def Spot.sameSpace : Spot → Spot → Bool
  | .glob _, .glob _ => true
  | .buf c sp _, .buf d sq _ => c == d && sp == sq
  | .csp k _ _, .csp l _ _ => k == l
  | _, _ => false

/-- An access touches the grain of an address in an operand: the buffers of the members of a gang are spaces of their own
(R225). -/
def Touch.inGrain (t : Touch) (op : Nat) (spot : Spot) (a : Nat) : Bool :=
  t.op == op && t.n != 0 && t.spot.sameSpace spot &&
    decide (t.spot.addr / t.spot.grain ≤ a / spot.grain) && decide (a / spot.grain ≤ (t.spot.addr + t.n - 1) / t.spot.grain)

/-- The steps that complete, and the fault: every step before the first access to the faulting grain in the faulting
operand (R225). -/
def soundSteps (s : State) (c : Command) (ps : List Step) : List Step × Option (Nat × Word) :=
  match ps.findSome? (stepFault s c) with
  | none => (ps, none)
  | some (t, d, cls, detail) =>
    (ps.takeWhile fun p => !p.touches.any fun u => u.inGrain t.op t.spot (t.spot.addr + d), some (cls, detail))

/-- Puts right what an access meets before it is made: single errors in a buffer, and errors in a line of the cluster array
(R129, R340). -/
def settleTouch (s : State) (c : Command) (t : Touch) : State :=
  match t.spot with
  | .buf core sp o =>
    let ws := if t.store then (mergedWords o t.n).map fun a => (a, 8) else [(o, t.n)]
    ws.foldl (fun s w => correctWords s core sp.array 0 c.tid (· * 8) fun f => rangesMeet w.1 w.2 (f.addr / 8 * 8) 8) s
  | .glob va =>
    if t.store then s
    else match cmdTranslate s c .load va with
      | .ok pa => if s.isFar pa then s else settleArray s c.tid pa
      | .error _ => s
  | .csp k z o => if t.store then s else settleArray s c.tid (cspByte k z o)
def settleTouches (s : State) (c : Command) (l : List Touch) : State := l.foldl (fun s t => settleTouch s c t) s

/-- Runs the steps that complete. -/
def runSteps (s : State) (c : Command) (ps : List Step) (st : Stat) : State × Stat × Option (Nat × Word) :=
  let s := settleTouches s c (ps.flatMap (·.touches))
  let (ok, f) := soundSteps s c ps
  let (s, st) := ok.foldl (fun (a : State × Stat) p => p.run a) (s, st)
  (s, st, f)

/-- Bytes of a piece within one line or one buffer. -/
def spotRead (s : State) (c : Command) (p : Spot) (n : Nat) : List Byte :=
  match p with
  | .glob va =>
    match cmdTranslate s c .load va with
    | .ok pa => (List.range n).map fun i => s.homeByte (pa + i)
    | .error _ => List.replicate n 0
  | .buf core sp o => memRead ((s.coreOf core).buf sp) o n
  | .csp k z o => memRead s.mem (cspByte k z o) n

/-- Writes a piece within one line or one buffer: relaxed writes in global memory and CSP (R141, R146). -/
def spotWrite (s : State) (c : Command) (p : Spot) (bs : List Byte) : State :=
  match p with
  | .glob va =>
    match cmdTranslate s c .store va with
    | .ok pa => if bs.isEmpty then s else agentWrite s c.tid pa bs
    | .error _ => s
  | .buf core sp o =>
    s.modCore core fun k => { k.setBuf sp (memWrite (k.buf sp) o bs) with
      flips := k.flips.filter fun f => !(f.array == sp.array && rangesMeet o bs.length (f.addr / 8 * 8) 8) }
  | .csp k z o => if bs.isEmpty then s else agentWrite s c.tid (cspByte k z o) bs

/-- Cuts n bytes into pieces that cross no line of any of the places: offset and length. -/
def cutPieces (addrs : List Nat) : Nat → Nat → Nat → List (Nat × Nat)
  | 0, _, _ => []
  | fuel + 1, o, n =>
    if n = 0 then []
    else
      let k := addrs.foldl (fun m a => Nat.min m (64 - (a + o) % 64)) n
      (o, k) :: cutPieces addrs fuel (o + k) (n - k)

/-- Pieces of n bytes at one place and at two. -/
def piecesOf (p : Spot) (n : Nat) : List (Nat × Nat) := cutPieces [p.addr] (n / 64 + 2) 0 n
def piecesOf2 (p q : Spot) (n : Nat) : List (Nat × Nat) := cutPieces [p.addr, q.addr] (n / 32 + 4) 0 n

/-- The accesses of a run of bytes, piece by piece. -/
def touchRun (op : Nat) (p : Spot) (n : Nat) (store : Bool) : List Touch :=
  (piecesOf p n).map fun q => ⟨op, p.add q.1, q.2, store⟩

/-- Reads and writes a run of bytes. -/
def runRead (s : State) (c : Command) (p : Spot) (n : Nat) : List Byte :=
  (piecesOf p n).flatMap fun q => spotRead s c (p.add q.1) q.2
def runWrite (s : State) (c : Command) (p : Spot) (bs : List Byte) : State :=
  (piecesOf p bs.length).foldl (fun (s : State) q => spotWrite s c (p.add q.1) ((bs.drop q.1).take q.2)) s

/-- The lower of two marks, in row-major order (R176). -/
def minMark (a b : Option Nat) : Option Nat :=
  match a, b with
  | some x, some y => some (Nat.min x y)
  | none, y => y
  | x, none => x

/-- What a beat has gathered joins a command's record (R163, R172, R176, R223). -/
def Command.gather (c : Command) (st : Stat) : Command :=
  { c with
    flags := c.flags ||| st.flags
    satcnt := Nat.min (c.satcnt + st.sat) 0xFFFFFFFF
    mark := if c.flag 11 then minMark c.mark st.mark else none }

/-- A command has made its last access (R122, R223): its entries are free, and its results stand in its record. -/
def finishCommand (s : State) (id : Nat) (st : Stat) (f : Option (Nat × Word)) : State :=
  (freeEntries s id).modCmd id fun c =>
    { c.gather st with state := .done, held := [], cls := (f.map (·.1)).getD c.cls, detail := (f.map (·.2)).getD c.detail }

/-- A typed-buffer word whose loss ends a command is logged (R129, R130). -/
def logLost (s : State) (c : Command) (ps : List Step) : State :=
  match ps.findSome? (stepFault s c) with
  | some (t, d, cls, _) =>
    match t.spot with
    | .buf core sp o =>
      let (synd, s) := s.secded
      let inj := (s.coreOf core).flips.any fun f => f.array == sp.array && f.addr / 8 == (o + d) / 8 && f.inj
      if cls = 4 then s.noteError core sp.array 0 ((o + d) / 8 * 8) ((o + d) / 8) c.tid synd 4 inj else s
    | _ => s
  | none => s

/-- A beat meets a page that is being flipped, or a bank that is being refreshed, and waits (R126, R154). -/
def beatWaits (s : State) (c : Command) (b : List Step) : Bool :=
  (b.flatMap (·.touches)).any fun t =>
    match t.spot with
    | .glob va =>
      match cmdTranslate s c (if t.store then .store else .load) va with
      | .error .flip => true
      | .error (.bank _) => true
      | .error (.fault _) => false
      | .ok pa => !t.store && s.bankBusy pa
    | _ => false

/-- The address of a beat's read that waits at a bank: of a line, or of a page table (R126). -/
def beatBank (s : State) (c : Command) (b : List Step) : Option Nat :=
  (b.flatMap (·.touches)).findSome? fun t =>
    match t.spot with
    | .glob va =>
      match cmdTranslate s c (if t.store then .store else .load) va with
      | .error (.bank pa) => some pa
      | .error _ => none
      | .ok pa => if !t.store && s.bankBusy pa then some pa else none
    | _ => none

/-- A command waits with its beat: at a bank its read is queued (R126). -/
def holdBeat (s : State) (c : Command) (b : List Step) : State :=
  match beatBank s c b with
  | some pa => s.waitAt (.command c.id) pa
  | none => s

/-- The pages that a command holds as it makes a beat: those of the beat's grains that it held, and what it looks up for the
other global accesses. An access that does not translate adds none (R88, R225). -/
def beatPages (s : State) (c : Command) (b : List Step) : List Held :=
  let vas := (b.flatMap (·.touches)).filterMap fun t => match t.spot with | .glob va => some va | _ => none
  let keep := c.held.filter fun h => vas.any fun va => va / 65536 == h.grain
  if bits c.satp 63 60 = 0 then []
  else vas.foldl (fun (l : List Held) va =>
    if l.any fun h => h.grain == va / 65536 && h.vbase == va / 2 ^ h.bits then l
    else match (transChoice s (transAnswers s c.core none c.who .load va)).2 with
      | .leaf pte base n _ => l ++ [⟨va / 65536, va / 2 ^ n, n, base, pte, false⟩]
      | .stop _ => l) keep

/-- The accesses of a beat lie in grains that the beat before has touched (R225). -/
def sameGrains (prev b : List Step) : Bool :=
  (b.flatMap (·.touches)).all fun t => t.n == 0 ||
    (prev.flatMap (·.touches)).any fun u =>
      u.inGrain t.op t.spot t.spot.addr && u.inGrain t.op t.spot (t.spot.addr + t.n - 1)

/-- A running command stands inside a grain of its progress: its next beat goes on in the grains of the beat before. -/
def insideGrain (c : Command) (all : List (List Step)) : Bool :=
  decide (0 < c.progress) && sameGrains (all.getD (c.progress - 1) []) (all.getD c.progress [])

/-- The translations that the accesses of a beat have used stay in the TLBs (R344). -/
def keepTouches (s : State) (c : Command) (b : List Step) : State :=
  (b.flatMap (·.touches)).foldl (fun s t =>
    match t.spot with
    | .glob va => match cmdAnswer s c (if t.store then .store else .load) va with
      | .ok (s, _, _) => s
      | .error _ => s
    | _ => s) s

/-- The next beat of a running command, in its progress order: the steps before a fault's grain are made, and the last beat
ends the command. The pages of its grains are looked up before (R88). One whose launch has ended, and one that a checkpoint pauses, goes on to the end of its grains (R216,
R225, R361; log 20). `all` is the list of its beats, and `fin` is what follows its last access. -/
def runBeat (s : State) (c : Command) (all : List (List Step)) (fin : State → Stat → Option (Nat × Word) → State) : State :=
  match all.drop c.progress with
  | [] => fin s Stat.none_ none
  | b :: rest =>
    if c.cls = 8 ∧ !insideGrain c all then fin s Stat.none_ none
    else if s.paused && !insideGrain c all then s
    else if beatWaits s c b then holdBeat s c b
    else if beatPages s c b ≠ c.held then s.fresh.2.modCmd c.id fun k => { k with held := beatPages s c b }
    else
      let s := settleTouches s c (b.flatMap (·.touches))
      let ps := b ++ rest.flatten
      let (ok, f) := soundSteps s c ps
      let here := ok.take b.length
      let s := if here.length < b.length then logLost s c ps else s
      let (s, st) := here.foldl (fun (a : State × Stat) p => p.run a) (s, Stat.none_)
      let s := keepTouches s c here
      if here.length < b.length then fin s st f
      else if rest.isEmpty then fin s st none
      else s.modCmd c.id fun c => { c.gather st with progress := c.progress + 1 }

/-- Serves the head of a queue with a beat: one that waits starts first. -/
def serveHead (s : State) (core e kind : Nat) (f : State → Command → State) : State :=
  match headOf s core e with
  | none => s
  | some c =>
    if c.kind ≠ kind then s
    else if c.state = .waiting then startHead s core e kind f
    else if engineHalted s c then s
    else f s c

/-- A command's next beat, which ends it after the last one. -/
def runCommand (s : State) (c : Command) (all : List (List Step)) : State := runBeat s c all (fun s st f => finishCommand s c.id st f)

/-- A beat for each step. -/
def single (ps : List Step) : List (List Step) := ps.map fun p => [p]

/-! ## Retirement (R148, R163, R222, R242, R245) -/

/-- The scope of a command's release (R227, R234, R235, R237, R239). -/
def commandScope (c : Command) : Word :=
  if c.kind = 0x10 then c.w3 else if c.kind = 0x11 ∨ (0x20 ≤ c.kind ∧ c.kind ≤ 0x23) then 0x2FFFF else packageScope

/-- EVSIG adds 1 to its counter, stopping at the largest value (R241, R242). -/
def signalEvent (s : State) (c : Command) : State :=
  let n := bits c.w0 23 20
  if c.flag 13 && decide (n < 8) then
    s.modCore c.core fun k => { k with
      evcnt := Vector.ofFn fun (i : Fin 8) =>
        let v := k.evcnt[i]
        if i.val = n then putBits v 0 32 (Nat.min (bits v 31 0 + 1) 0xFFFFFFFF) else v }
  else s

/-- Retires a command: its entries, the group's GFLAGS, its event counter, and the actions that it held back. -/
def retireCommand (s : State) (c : Command) : State :=
  let s := (freeEntries s c.id).modCmd c.id fun c => { c with state := .retired, data := [] }
  let s := groupFlags s c.tid c.lid c.flags
  (signalEvent s c).drained

/-- COMMAND_RETIRE: a command that has made its last access retires, with REL after its release; a malformed one at the
head of its queue retires without effect (R63, R148, R224). -/
def execCommandRetire (ticketId : Nat) (s : State) : Out :=
  event (match s.cmd? ticketId with
    | none => s
    | some c =>
      if c.state = .done then
        if c.flag 9 && c.cls != 1 && !released s c.tid (commandScope c) c.id then s else retireCommand s c
      else if c.state = .waiting ∧ malformed s c ∧ !s.paused ∧ !engineHalted s c ∧ headOf s c.core c.engine.toNat = some c then
        let d := BitVec.ofNat 64 (refusedBit (refusedFields s c))
        retireCommand (s.modCmd c.id fun c => { c with cls := 1, detail := d }) c
      else s)

end Sys2Proof.Machine
end

