-- ==== Sys2Proof/Machine/Matrix.lean ====
section
/-!
DEFINITION. Matrix engine commands: MMA, MMAG, MMAS, ACCZ, ACCOUT, GANGMMA (11_numbers R169 to R176, 15_engines R227 to
R233, R243).
-/
namespace Sys2Proof.Machine

/-! ## Operand rows (R165, R166, R226, R230) -/

/-- Bytes of a core's buffer as a number. -/
def bufNat (s : State) (core : Nat) (sp : Space) (o n : Nat) : Nat := leNat (memRead ((s.coreOf core).buf sp) o n)

/-- The elements of a row of k elements, exactly: `o` its offset, `sc` the ST offset of its first scale. -/
def rowNums (s : State) (core : Nat) (sp : Space) (o f b sc k : Nat) : List Num :=
  let row := bufNat s core sp o (rowBytes k f b)
  match fmtFloat f with
  | some t => (List.range k).map fun q => t.num (row / 2 ^ (q * t.width) % 2 ^ t.width)
  | none =>
    if f = 10 then
      (List.range k).map fun q => q4Num (bufNat s core .st (sc + q / 2 ^ b) 1) (row / 2 ^ (4 * q) % 16)
    else
      (List.range k).map fun q =>
        let base := 8 * (q / 2 ^ b * (2 ^ b / 2 + 1))
        q4Num (row / 2 ^ (base + 4 * 2 ^ b) % 256) (row / 2 ^ (base + 4 * (q % 2 ^ b)) % 16)

/-- The elements of a row of I8. -/
def rowInts (s : State) (core : Nat) (sp : Space) (o k : Nat) : List Int :=
  let row := bufNat s core sp o k
  (List.range k).map fun q => intOf 8 false (row / 2 ^ (8 * q))

/-- The two indices of a group of a metadata row (R230). -/
def metaIndex (s : State) (c : Command) (g : Mat) (core i q : Nat) : Nat × Nat :=
  let b := bufNat s core .ab (c.mat.mdat + i * g.kPart / 8 + q / 2) 1 / 16 ^ (q % 2)
  (b % 4, b / 4 % 4)

/-- Row i of A on a core, expanded where it is sparse (R175, R226, R230). -/
def aNums (s : State) (c : Command) (g : Mat) (core i : Nat) : List Num :=
  let o := localOffset c.w1 + i * rowBytes g.kA g.fa g.ba
  let l := rowNums s core .ab o g.fa g.ba (g.sa + i * g.kPart / 2 ^ g.ba) g.kA
  if g.sparse then
    (List.range g.kPart).map fun k => sparseAt (metaIndex s c g core) (fun _ q => l.getD q .nan) (.fin false 0 0) i k
  else l
def aInts (s : State) (c : Command) (g : Mat) (core i : Nat) : List Int :=
  let l := rowInts s core .ab (localOffset c.w1 + i * rowBytes g.kA g.fa g.ba) g.kA
  if g.sparse then
    (List.range g.kPart).map fun k => sparseAt (metaIndex s c g core) (fun _ q => l.getD q 0) 0 i k
  else l

/-- The frequency of a column J in a core's AB (R243). -/
def ropeAt (s : State) (c : Command) (j : Nat) : Nat := bufNat s c.core .ab (gParam c.snap + 4 * j) 4

/-- Row j of B from the generator snapshot, with conditions (R229). -/
def genRow (s : State) (c : Command) (g : Mat) (j : Nat) : List (Nat × BitVec 6) :=
  (List.range g.k).map fun q =>
    if c.flag 28 then genValue c.snap c.key (ropeAt s c) q j else genValue c.snap c.key (ropeAt s c) j q

/-- Row j of B on a core (R226, R229). -/
def bNums (s : State) (c : Command) (g : Mat) (core j : Nat) : List Num :=
  if c.kind = 2 then (genRow s c g j).map fun v => ((fmtFloat g.fb).getD fp32).num v.1
  else rowNums s core .wb (localOffset c.w2 + j * rowBytes g.kPart g.fb g.bb) g.fb g.bb
    (g.sb + j * g.kPart / 2 ^ g.bb) g.kPart
def bInts (s : State) (c : Command) (g : Mat) (core j : Nat) : List Int :=
  if c.kind = 2 then (genRow s c g j).map fun v => intOf 8 false v.1
  else rowInts s core .wb (localOffset c.w2 + j * g.kPart) g.kPart

/-! ## Output elements (R173, R174, R228) -/

/-- EXACT: the sum of FXA products, with conditions and the count of saturations (R169, R171, R228). -/
def exactElement (old : Nat) (prods : List Num) : Nat × BitVec 6 × Nat :=
  let terms := (fp32.num old :: prods).map fxaOf
  let sum := terms.foldl (fun (v : BitVec 128) t => v + t.1) 0
  let f := terms.foldl (fun (v : BitVec 6) t => v ||| t.2) 0
  let n := (terms.filter fun t => t.2.getLsbD 5).length
  let (w, f2, n2) := fxaTo32 sum
  (w, f ||| f2, n + n2)

/-- An output element from its accumulator: value, conditions, saturations. -/
def outElement (g : Mat) (old : Nat) (an bn : List Num) (ai bi : List Int) : Nat × BitVec 6 × Nat :=
  if g.fa = 1 then
    let (v, sat) := intElement (intOf 32 false old) (List.zipWith (· * ·) ai bi)
    ((BitVec.ofInt 32 v).toNat, if sat then fSAT else 0, b2n sat)
  else if g.exact then exactElement old (List.zipWith numMul an bn)
  else
    let (w, f) := matElement (groupLen g.fa g.fb) old (List.zipWith numMul an bn)
    (w, f, 0)

/-- Computes a 16 by 16 output tile of a command: the units that hold the parts of K, and the tile's row and column
within the units' part of the output. What a generated B value raises counts once, in the first row of tiles (log 145). -/
def tileRun (c : Command) (g : Mat) (us : List Unit_) (ti tj : Nat) (a : State × Stat) : State × Stat :=
  match us with
  | [] => a
  | u :: _ =>
    let s := a.1
    let cols := if c.kind = 6 then u.cols g else g.n
    let rowsA := (List.range 16).map fun i =>
      (us.flatMap fun w => aNums s c g w.core (16 * ti + i), us.flatMap fun w => aInts s c g w.core (16 * ti + i))
    let rowsB := (List.range 16).map fun j =>
      (us.flatMap fun w => bNums s c g w.core (16 * tj + j), us.flatMap fun w => bInts s c g w.core (16 * tj + j))
    let gen := if c.kind = 2 ∧ ti = 0 then
        (List.range 16).foldl (fun (st : Stat) j =>
          (genRow s c g (16 * tj + j)).foldl (fun (st : Stat) v => st.add v.2 (b2n (v.2.getLsbD 5))) st) a.2
      else a.2
    (List.range 16).foldl (fun (b : State × Stat) i =>
      let o := cbOffset g.db cols (16 * ti + i) (16 * tj)
      let old := bufNat b.1 u.home .cb o 64
      let ra := rowsA.getD i ([], [])
      let outs := (List.range 16).map fun j =>
        let rb := rowsB.getD j ([], [])
        outElement g (old / 2 ^ (32 * j) % 2 ^ 32) ra.1 rb.1 ra.2 rb.2
      let st := outs.foldl (fun (st : Stat) r => st.add r.2.1 r.2.2) b.2
      let new := (List.range 16).find? fun j =>
        g.fa != 1 && isNan32 (outs.getD j (0, 0, 0)).1 && !isNan32 (old / 2 ^ (32 * j) % 2 ^ 32)
      let place := new.map fun j => (128 * u.u + 16 * ti + i) * 65536 + 128 * u.v + 16 * tj + j
      (spotWrite b.1 c (.buf u.home .cb o) (outs.flatMap fun r => leBytes 4 r.1), { st with mark := minMark st.mark place })) (s, gen)

/-- The reads of a unit for an output tile, in order: A, its scales, B, its scales or frequencies (R225). -/
def tileReads (c : Command) (g : Mat) (u : Unit_) (ti tj : Nat) : List Touch :=
  let ra := rowBytes g.kA g.fa g.ba
  let rb := rowBytes g.kPart g.fb g.bb
  [⟨0, .buf u.core .ab (localOffset c.w1 + 16 * ti * ra), 16 * ra, false⟩,
   ⟨1, .buf u.core .st (g.sa + scaleBytes (16 * ti) g.kPart g.fa g.ba), scaleBytes 16 g.kPart g.fa g.ba, false⟩] ++
  (if c.kind = 2 then
    (if gKind c.snap < 4 then [] else
      let k := if c.flag 28 then 16 else g.k
      [⟨4, .buf u.core .ab (ropeOffset c.snap (if c.flag 28 then 16 * tj else 0)), 4 * k, false⟩])
   else
    [⟨2, .buf u.core .wb (localOffset c.w2 + 16 * tj * rb), 16 * rb, false⟩,
     ⟨3, .buf u.core .st (g.sb + scaleBytes (16 * tj) g.kPart g.fb g.bb), scaleBytes 16 g.kPart g.fb g.bb, false⟩])

/-- The accumulator rows of an output tile. -/
def tileAccs (c : Command) (g : Mat) (u : Unit_) (ti tj : Nat) : List Touch :=
  let cols := if c.kind = 6 then u.cols g else g.n
  (List.range 16).map fun i => ⟨5, .buf u.home .cb (cbOffset g.db cols (16 * ti + i) (16 * tj)), 64, false⟩

/-- The steps of the units of one output part: each unit's tiles in row-major order; the last part of K writes. -/
def unitSteps (c : Command) (g : Mat) (m n : Nat) (us : List Unit_) : List Step :=
  us.flatMap fun u =>
    let last := decide (u.p + 1 = us.length)
    (List.range (m / 16)).flatMap fun ti => (List.range (n / 16)).map fun tj =>
      { touches := tileReads c g u ti tj ++ (if last then tileAccs c g u ti tj else [])
        together := false
        run := if last then tileRun c g us ti tj else id }

/-- The one unit of a product on the posting core. -/
def soleUnit (c : Command) : Unit_ := ⟨c.core, 0, 0, 0, c.core⟩

/-- The units of a command, by tile: rows, columns, and the units of its parts. -/
def unitGroups (c : Command) (g : Mat) : List (Nat × Nat × List Unit_) :=
  if c.kind = 6 then
    (runsOf g.parts 7 (gangUnits c g)).map fun us =>
      match us with
      | [] => (0, 0, [])
      | u :: _ => (u.rows g, u.cols g, us)
  else [(g.m, g.n, [soleUnit c])]

/-- The metadata that a sparse command reads before its first step (R230). -/
def metaStep (c : Command) (g : Mat) : List Step :=
  if !g.sparse then []
  else [{ touches := (unitGroups c g).flatMap fun q => q.2.2.map fun u => ⟨6, .buf u.core .ab g.mdat, q.1 * g.kPart / 8, false⟩
          together := false, run := id }]

/-- The first group of the metadata with i0 ≥ i1, as (row << 16) | group (R224, R230). -/
def metaBad (s : State) (c : Command) (g : Mat) : Option Nat :=
  let bad := (unitGroups c g).flatMap fun q => q.2.2.flatMap fun u =>
    (List.range q.1).flatMap fun i => (List.range (g.kPart / 4)).filterMap fun k =>
      let (x, y) := metaIndex s c g u.core i k
      if y ≤ x then some ((128 * u.u + i) * 65536 + u.p * (g.kPart / 4) + k) else none
  match bad with
  | [] => none
  | b :: bs => some (bs.foldl Nat.min b)

/-- The beats of a product: the metadata, then an output tile each (R225). -/
def matrixBeats (c : Command) (g : Mat) : List (List Step) :=
  single (metaStep c g ++ (unitGroups c g).flatMap fun q => unitSteps c g q.1 q.2.1 q.2.2)

/-- A beat of a product command; bad metadata ends it before the first (R228 to R230, R233). -/
def matrixCommand (s : State) (c : Command) : State :=
  let g := c.mat
  let bad := if c.progress == 0 && g.sparse && ((metaStep c g).findSome? (stepFault s c)).isNone then metaBad s c g else none
  match bad with
  | some d => finishCommand s c.id Stat.none_ (some (7, BitVec.ofNat 64 d))
  | none => runCommand s c (matrixBeats c g)

/-- MMA (R228). -/
def execMma (core : Nat) (s : State) : Out := event (serveHead s core 0 0x01 matrixCommand)

/-- MMAG (R229). -/
def execMmag (core : Nat) (s : State) : Out := event (serveHead s core 0 0x02 matrixCommand)

/-- MMAS (R230). -/
def execMmas (core : Nat) (s : State) : Out := event (serveHead s core 0 0x03 matrixCommand)

/-- GANGMMA (R233). -/
def execGangmma (core : Nat) (s : State) : Out := event (serveHead s core 0 0x06 matrixCommand)

/-! ## ACCZ and ACCOUT (R231, R232) -/

/-- Writes zeros over a range of a buffer: its listed bytes go. -/
def zeroRange (s : State) (core : Nat) (sp : Space) (o n : Nat) : State :=
  s.modCore core fun k => { k.setBuf sp ((k.buf sp).filter fun e => decide (e.1 < o) || decide (o + n ≤ e.1)) with
    flips := k.flips.filter fun f => !(f.array == sp.array && rangesMeet o n (f.addr / 8 * 8) 8) }

/-- The beats of an ACCZ: a block each (R231). -/
def acczBeats (c : Command) : List (List Step) :=
  let lo := bits c.w3 3 0
  single ((List.range (bits c.w3 7 4 + 1 - lo)).map fun i =>
    { touches := [⟨0, .buf c.core .cb ((lo + i) * 16384), 16384, true⟩], together := false
      run := fun a => (zeroRange a.1 c.core .cb ((lo + i) * 16384) 16384, a.2) })

/-- ACCZ: +0 in every element of blocks DB to w3[7:4] (R231). -/
def execAccz (core : Nat) (s : State) : Out :=
  event (serveHead s core 0 0x04 fun s c => runCommand s c (acczBeats c))

/-- A unit of an output row: first byte, its elements' columns, its bytes, conditions and saturations. -/
structure OutPart where
  at_   : Nat
  cols  : List Nat
  bytes : List Byte
  flags : BitVec 6
  sat   : Nat
  deriving DecidableEq, Repr

/-- The accumulator element (i, j) of an ACCOUT. -/
def accElem (s : State) (c : Command) (n i j : Nat) : Nat := bufNat s c.core .cb (cbOffset (bits c.w3 3 0) n i j) 4

/-- Row i of an ACCOUT, converted by R172 or encoded by R167. -/
def outRow (s : State) (c : Command) (n i : Nat) : List OutPart :=
  let f := bits c.w0 27 24
  if f = 11 then
    let b := 2 ^ bits c.w3 7 4
    (List.range (n / b)).map fun t =>
      let cols := (List.range b).map fun q => t * b + q
      let (scale, codes, fl, k) := q4Block (bits c.w0 30 29) (cols.map fun j => fp32.num (accElem s c n i j))
      { at_ := t * (b / 2 + 1), cols := cols, flags := fl, sat := k
        bytes := leBytes (b / 2) (rowOf 4 codes) ++ [BitVec.ofNat 8 scale] }
  else
    (List.range n).map fun j =>
      let w := accElem s c n i j
      let (v, fl) := match fmtFloat f with
        | some t => t.ofNum .rne true (fp32.num w)
        | none => convFit (fmtBits f) false true (intOf 32 false w)
      { at_ := j * outSize f, cols := [j], bytes := leBytes (outSize f) v, flags := fl, sat := b2n (fl.getLsbD 5) }

/-- The beats of an ACCOUT: a row each, its bytes in ascending order (R225, R232). -/
def outBeats (s : State) (c : Command) : List (List Step) :=
  let m := 16 * (bits c.w0 34 32 + 1)
  let n := 16 * (bits c.w0 37 35 + 1)
  let db := bits c.w3 3 0
  let base : Int := if c.flag 28 then (bits c.w1 55 0 : Nat) else (localOffset c.w1 : Nat)
  (List.range m).map fun i =>
    let parts := outRow s c n i
    let bytes := parts.flatMap (·.bytes)
    let at_ := ((base + (i : Int) * outPitch c) % (2 ^ 64 : Int)).toNat
    let dst : Spot := if c.flag 28 then .glob at_ else .buf c.core .ab at_
    (piecesOf dst bytes.length).map fun q =>
      let mine := parts.filter fun p => decide (q.1 ≤ p.at_) && decide (p.at_ < q.1 + q.2)
      let cells := mine.flatMap fun p => p.cols.map fun j => cbOffset db n i j
      let reads : List Touch := cells.map fun o => ⟨0, .buf c.core .cb o, 4, false⟩
      { touches := reads.take 1 ++ [⟨1, dst.add q.1, q.2, true⟩] ++ reads.drop 1
        together := false
        run := fun a =>
          let st := mine.foldl (fun (st : Stat) p => st.add p.flags p.sat) a.2
          let s := spotWrite a.1 c (dst.add q.1) ((bytes.drop q.1).take q.2)
          let s := if c.flag 31 then cells.foldl (fun (s : State) o => zeroRange s c.core .cb o 4) s else s
          (s, st) }

/-- ACCOUT (R232). -/
def execAccout (core : Nat) (s : State) : Out :=
  event (serveHead s core 0 0x05 fun s c => runCommand s c (outBeats s c))

end Sys2Proof.Machine
end

