-- ==== Sys2Proof/Machine/Copies.lean ====
section
/-!
DEFINITION. Copy engine commands: COPY, GATHER, SCATTER, SCALECAST, and the reducing copies with their regions
(11_numbers R170, 15_engines R234 to R238, 25_system R354).
-/
namespace Sys2Proof.Machine

/-! ## Copies (R234 to R236) -/

/-- The physical place of a piece, to compare two of them: space and address. -/
def spotPlace (s : State) (c : Command) (acc : Acc) (p : Spot) : Option (Nat × Nat) :=
  match p with
  | .glob va => match cmdTranslate s c acc va with | .ok pa => some (0, pa) | .error _ => none
  | .buf core sp o => some (16 * core + sp.code, o)
  | .csp k z o => some (0, cspByte k z o)

/-- The bytes of a piece copied in ascending order: where the destination begins inside the source, the bytes before it
repeat (R234). -/
def forwardBytes (s : State) (c : Command) (src dst : Spot) (n : Nat) : List Byte :=
  let bs := spotRead s c src n
  match spotPlace s c .load src, spotPlace s c .store dst with
  | some (p, a), some (q, b) =>
    if p = q ∧ a < b ∧ b < a + n then (List.range n).map fun i => bs.getD (i % (b - a)) 0 else bs
  | _, _ => bs

/-- A copy of n bytes, in pieces, after accesses that come before each. -/
def copySteps (c : Command) (before : List Touch) (src dst : Spot) (so do_ n : Nat) : List Step :=
  (piecesOf2 src dst n).map fun q =>
    { touches := before ++ [⟨so, src.add q.1, q.2, false⟩, ⟨do_, dst.add q.1, q.2, true⟩]
      together := before.isEmpty
      run := fun a => (spotWrite a.1 c (dst.add q.1) (forwardBytes a.1 c (src.add q.1) (dst.add q.1) q.2), a.2) }

/-- The head of a FIFO of the copy engine has a beat to make: it runs, or it can start. -/
def copyReady (s : State) (core : Nat) : Bool :=
  match headOf s core 1 with
  | none => false
  | some c =>
    if c.state = .waiting then
      match readyHead s core 1 c.kind with
      | some (s1, c) => canStart s1 c
      | none => false
    else !engineHalted s c

/-- The FIFO that the copy engine of a cluster serves next: round robin, from the one after the last served (R216). -/
def copyTurn (s : State) (cluster : Nat) : Option Nat :=
  ((clusterCores cluster).rotateLeft ((tabGet 7 s.copyPtr cluster + 1) % 8)).find? (copyReady s)

/-- One beat of the head of a core's FIFO, when its turn has come; a head that cannot start still asks for its entries on
other cores (R122, R216). -/
def serveCopy (s : State) (core kind : Nat) (f : State → Command → State) : State :=
  let k := clusterOf core
  if (headOf s core 1).any fun c => c.kind == kind then
    if copyReady s core then
      if copyTurn s k = some core then
        let s := serveHead s core 1 kind f
        { s with copyPtr := tabSet s.copyPtr k ((clusterCores k).idxOf core) }
      else s
    else serveHead s core 1 kind f
  else s

/-- The beats of a COPY: up to 64 bytes each, within a line of either side (R216, R234). -/
def copyBeats (s : State) (c : Command) : List (List Step) :=
  let src := operandSpot s c (c.flag 24) (c.sliceCore (bits c.w0 28 26)) c.w1
  let dst := operandSpot s c (c.flag 25) (c.sliceCore (bits c.w0 31 29)) c.w2
  single (copySteps c [] src dst 0 1 (bits c.w0 63 32))

/-- COPY (R234). -/
def execCopy (core : Nat) (s : State) : Out :=
  event (serveCopy s core 0x10 fun s c => runCommand s c (copyBeats s c))

/-- The address of element t of a GATHER or SCATTER (R235). -/
def elementVa (s : State) (c : Command) (idx : Spot) (t : Nat) : Nat :=
  let i := intOf 32 false (leNat (runRead s c (idx.add (4 * t)) 4))
  (((bits c.w1 55 0 : Nat) + i * (2 ^ bits c.w0 26 24 : Nat) : Int) % (2 ^ 64 : Int)).toNat

/-- The beat of element t of a GATHER or SCATTER: the index before the element (R225, R235). -/
def indexedBeat (s : State) (c : Command) (scatter : Bool) (t : Nat) : List Step :=
  let core := c.sliceCore (bits c.w0 31 29)
  let idx := operandSpot s c (c.flag 27) core c.w2
  let sz := 2 ^ bits c.w0 26 24
  let el : Spot := .glob (elementVa s c idx t)
  let d := (operandSpot s c (c.flag 28) core c.w3).add (t * sz)
  let before := touchRun 0 (idx.add (4 * t)) 4 false
  if scatter then copySteps c before d el 2 1 sz else copySteps c before el d 1 2 sz

/-- The beats of a GATHER or SCATTER: ascending elements, each index read after the writes of the elements before it
(R225, R235). -/
def indexedBeats (s : State) (c : Command) (scatter : Bool) : List (List Step) :=
  ((List.range (bits c.w0 63 32)).foldl (fun (a : State × List (List Step)) (t : Nat) =>
    let b := indexedBeat a.1 c scatter t
    (if t < c.progress then a.1 else (b.foldl (fun (x : State × Stat) p => p.run x) (a.1, Stat.none_)).1, a.2 ++ [b]))
    (s, [])).2

/-- GATHER (R235). -/
def execGather (core : Nat) (s : State) : Out :=
  event (serveCopy s core 0x12 fun s c => runCommand s c (indexedBeats s c false))

/-- SCATTER (R235). -/
def execScatter (core : Nat) (s : State) : Out :=
  event (serveCopy s core 0x13 fun s c => runCommand s c (indexedBeats s c true))

/-- The beats of a SCALECAST: each piece of the source goes to the ST of every target slice (R236). -/
def castBeats (s : State) (c : Command) : List (List Step) :=
  let src := operandSpot s c true c.core c.w1
  let targets := (maskMembers (bits c.w0 31 24)).map fun i => c.sliceCore i
  let off := bits c.w2 11 0
  single ((piecesOf src (bits c.w0 63 32)).map fun q =>
    { touches := ⟨0, src.add q.1, q.2, false⟩ ::
        (targets.zipIdx.map fun k => ⟨1 + k.2, .buf k.1 .st (off + q.1), q.2, true⟩)
      together := true
      run := fun a =>
        let bs := spotRead a.1 c (src.add q.1) q.2
        (targets.foldl (fun (s : State) k => spotWrite s c (.buf k .st (off + q.1)) bs) a.1, a.2) })

/-- SCALECAST (R236). -/
def execScalecast (core : Nat) (s : State) : Out :=
  event (serveCopy s core 0x14 fun s c => runCommand s c (castBeats s c))

/-! ## Reducing copies (R237, R238) -/

/-- OP, and bytes of a destination element. -/
def redOp (c : Command) : Nat := bits c.w0 26 24
def redSize (c : Command) : Nat := if redOp c = 0 then 16 else 4

/-- A destination element's new value with conditions (R160, R169, R237). -/
def redValue (op : Nat) (float : Bool) (old x : Nat) : Nat × BitVec 6 :=
  let i := fun (v : Nat) => intOf 32 false v
  let nan := (fp32.num old).isNan || (fp32.num x).isNan
  if op = 0 then
    let (v, f) := fxaOf (fp32.num x)
    ((BitVec.ofNat 128 old + v).toNat, f)
  else if op = 1 then ((old + x) % 2 ^ 32, 0)
  else if op = 2 then rne32 (numAdd .rne (fp32.num old) (fp32.num x))
  else if op = 3 then
    if float then (if nan then (fp32.nan, fNV) else (if numLt (fp32.num old) (fp32.num x) then x else old, 0))
    else (if i old < i x then x else old, 0)
  else
    if float then (if nan then (fp32.nan, fNV) else (if numLt (fp32.num x) (fp32.num old) then x else old, 0))
    else (if i x < i old then x else old, 0)

/-- The source of a reducing copy. -/
def redSource (s : State) (c : Command) : Spot := operandSpot s c (c.flag 27) (c.sliceCore (bits c.w0 31 29)) c.w1
def redDest (c : Command) : Spot := .glob (bits c.w2 55 0)

/-- The beats of a reducing copy at its source: 16 elements each, ascending, the source before the destination; the bytes
read are gathered in the command (R216, R225). -/
def redBeats (s : State) (c : Command) : List (List Step) :=
  let step := fun (t : Nat) =>
    ({ touches := touchRun 0 ((redSource s c).add (4 * t)) 4 false ++
        touchRun 1 ((redDest c).add (redSize c * t)) (redSize c) true
       together := false
       run := fun a =>
        (a.1.modCmd c.id fun k => { k with data := k.data ++ runRead a.1 c ((redSource s c).add (4 * t)) 4 }, a.2) } : Step)
  let n := bits c.w3 31 0
  (List.range ((n + 15) / 16)).map fun b => (List.range (Nat.min 16 (n - 16 * b))).map fun i => step (16 * b + i)

/-- What follows the source of a reducing copy: the elements that complete go to the controllers, and its entries stay until
its last access to the destination (R122, R225, R237). -/
def redSent (s : State) (id : Nat) (st : Stat) (f : Option (Nat × Word)) : State :=
  match s.cmd? id with
  | none => s
  | some k =>
    if (f.isSome || k.cls == 8) && k.data.isEmpty then finishCommand s id st f
    else s.modCmd id fun k =>
      { k with sent := true, cls := (f.map (·.1)).getD k.cls, detail := (f.map (·.2)).getD k.detail }

/-- The physical addresses of the pieces of n bytes of a destination. -/
def destPas (s : State) (c : Command) (n : Nat) : List (Option (Nat × Nat)) :=
  (piecesOf (redDest c) (Nat.max 1 n)).map fun q =>
    match cmdTranslate s c .store (bits c.w2 55 0 + q.1) with
    | .ok pa => some (pa, q.2)
    | .error _ => none

/-- A region holds bytes of this device's memory (R354). -/
def Region.has (r : Region) (s : State) (pa n : Nat) : Bool :=
  let b := bits r.rbase 39 6 * 64
  r.valid && s.placeOf pa == .own && decide (b ≤ pa % 2 ^ 40) && decide (pa % 2 ^ 40 + n ≤ b + r.rsize.toNat)

/-- The region that holds the whole destination of a command, and whether the destination is a peer's (R238). Of regions
that overlap a free value picks one (R6, R354; log 7). -/
def redRegion (s : State) (c : Command) : Option Nat × Bool :=
  let ps := destPas s c (c.data.length / 4 * redSize c)
  let rs := (s.regions.filter fun r => ps.all fun p => match p with | some (pa, n) => r.2.has s pa n | none => false).map (·.1)
  (rs[(Config.freeWord s.free).toNat % Nat.max 1 rs.length]?,
   match ps with | some (pa, _) :: _ => s.isFar pa | _ => false)

/-- The step of element t of a reducing copy at its destination; term counters count within a region (R170, R237). -/
def applyStep (c : Command) (r : Option Nat) (t : Nat) : Step :=
  let op := redOp c
  let sz := redSize c
  let d := (redDest c).add (sz * t)
  { touches := touchRun 1 d sz true
    together := false
    run := fun a =>
      let (v, f) := redValue op (c.flag 28) (leNat (runRead a.1 c d sz)) (leNat ((c.data.drop (4 * t)).take 4))
      let s := runWrite a.1 c d (leBytes sz v)
      let st := a.2.add f (b2n (f.getLsbD 5))
      match r, (if op = 0 then cmdTranslate s c .store (bits c.w2 55 0 + sz * t) else .error .flip) with
      | some r, .ok pa =>
        let n := Nat.min 65537 (tabGet 0 (s.regionOf r).terms pa + 1)
        let full := decide (65536 < n)
        (s.modRegion r fun k => { k with terms := tabSet k.terms pa n, guard := k.guard || full },
          if full then { st with flags := st.flags ||| 0x40 } else st)
      | _, _ => (s, st) }

/-- Applies the elements that a command carries, with conditions: the old elements are read in the cluster array, and a fault
leaves its grain as it is (R129, R225, R237, R340). -/
def applyElements (s : State) (c : Command) (r : Option Nat) : State × Stat × Option (Nat × Word) :=
  let n := c.data.length / 4
  let s := settleTouches s c (touchRun 1 (redDest c) (n * redSize c) false)
  let (ok, f) := soundSteps s c ((List.range n).map (applyStep c r))
  let (s, st) := ok.foldl (fun (a : State × Stat) p => p.run a) (s, Stat.none_)
  (s, st, f)

/-- A reducing copy, or a collective, ends with class 6: (reason << 32) | SEQ; one whose launch has ended keeps class 8 (R224,
R225). -/
def sequenceError (s : State) (c : Command) (reason : Nat) : State :=
  finishCommand s c.id Stat.none_
    (if c.cls = 8 then none else some (6, BitVec.ofNat 64 (reason * 2 ^ 32 + bits c.w0 63 32)))

/-- Applies a command and lets NEXT advance, unless a fault leaves a remainder to be reissued under its SEQ. -/
def applyInOrder (s : State) (c : Command) (r : Nat) : State :=
  let (s, st, f) := applyElements s c (some r)
  let s := if c.cls = 0 ∧ f.isNone then s.modRegion r fun k => { k with next := k.next + 1 } else s
  finishCommand s c.id st f

/-- Applies buffered commands whose SEQ is now NEXT, in turn (R238). -/
def applyHeld (s : State) (r : Nat) : Nat → State
  | 0 => s
  | fuel + 1 =>
    let k := s.regionOf r
    match k.held.findSome? fun id => (s.cmd? id).bind fun c =>
        if bits c.w0 63 32 = k.next.toNat ∧ c.state = .running then some c else none with
    | none => s
    | some c =>
      applyHeld (applyInOrder (s.modRegion r fun k => { k with held := k.held.filter (· != c.id) }) c r) r fuel

/-- REDCOPY: the copy engine reads the source elements and sends them to the destination's controllers (R237). -/
def execRedcopy (core : Nat) (s : State) : Out :=
  event (serveCopy s core 0x11 fun s c => runBeat s c (redBeats s c) fun s st f => redSent s c.id st f)

/-- REDCOPY_APPLY: the controllers apply, hold, refuse for now, or reject a reducing copy that has reached them (R238).
Of a peer's regions a free value tells what happens, and whether an FXA term counter of theirs passes 65,536 (R170;
log 7). -/
def execRedcopyApply (ticketId : Nat) (s : State) : Out :=
  event (match s.cmd? ticketId with
    | none => s
    | some c =>
      if c.kind ≠ 0x11 ∨ c.state ≠ .running ∨ !c.sent ∨ c.resend ∨ s.paused ∨ s.regions.any (fun r => r.2.held.contains c.id) ∨
          beatWaits s c [⟨touchRun 1 (redDest c) (c.data.length / 4 * redSize c) true, false, id⟩] then s
      else match (destPas s c (c.data.length / 4 * redSize c)).findSome? fun p => p.bind fun q =>
          if s.bankBusy q.1 then some q.1 else none with
      | some pa => s.waitAt (.command c.id) pa
      | none =>
      match redRegion s c with
      | (some r, _) =>
        let s := s.fresh.2
        let k := s.regionOf r
        let d := (BitVec.ofNat 32 (bits c.w0 63 32) - k.next).toNat
        if k.err then sequenceError s c 3
        else if d = 0 then applyHeld (applyInOrder s c r) r 128
        else if d ≤ 127 then s.modRegion r fun k => { k with held := k.held ++ [c.id] }
        else if d < 2 ^ 31 then s.modCmd c.id fun k => { k with resend := true }
        else sequenceError s c 1
      | (none, true) =>
        let (w, s) := s.fresh
        let reason := bits w 2 0
        if reason = 0 then
          let (s, st, f) := applyElements s c none
          let guard := redOp c == 0 && w.getLsbD 3
          finishCommand s c.id (if guard then { st with flags := st.flags ||| 0x40 } else st) f
        else if reason ≤ 4 then sequenceError s c reason
        else s.modCmd c.id fun k => { k with resend := true }
      | (none, false) => sequenceError s c 4)

/-- REDCOPY_RESEND: the copy engine sends a refused command again (R238). -/
def execRedcopyResend (ticketId : Nat) (s : State) : Out :=
  event (s.modCmd ticketId fun c => { c with resend := false })

/-- REGION_GAP_TIMEOUT: a command held for 1 ms puts the region in error, and every held one retires (R238). -/
def execRegionGapTimeout (r : Nat) (s : State) : Out :=
  let k := s.regionOf r
  event (
    if k.held.isEmpty then s
    else
      let s := s.modRegion r fun k => { k with err := true, held := [] }
      k.held.foldl (fun (s : State) id =>
        match s.cmd? id with
        | some c => if c.state = .running then sequenceError s c 2 else s
        | none => s) s)

/-- Setting VALID makes a region live, and term counters count from then (R354). -/
def setRegionValid (s : State) (r : Nat) (on : Bool) : State :=
  s.modRegion r fun k => { k with valid := on, terms := if on && !k.valid then [] else k.terms }

/-- REGION_VALID (R354). -/
def execRegionValid (r : Nat) (s : State) : Out := blockEvent s (if r < 64 then setRegionValid s r true else s)

/-- RESET clears the error, GUARD, the reorder buffer and the term counters; commands that the buffer held are sent
again (R354). -/
def resetRegion (s : State) (r : Nat) : State :=
  let held := (s.regionOf r).held
  let s := s.modRegion r fun k => { k with err := false, guard := false, held := [], terms := [] }
  held.foldl (fun (s : State) id => s.modCmd id fun c => { c with resend := true }) s

/-- REGION_RESET (R354). -/
def execRegionReset (r : Nat) (s : State) : Out := blockEvent s (if r < 64 then resetRegion s r else s)

end Sys2Proof.Machine
end

