-- ==== Sys2Proof/Machine/Collectives.lean ====
section
/-!
DEFINITION. Collective commands and their slots: ALLRED, BCAST, REDSCAT, ALLGATH, contributions, timeouts
(15_engines R239, 25_system R355 to R357).
-/
namespace Sys2Proof.Machine

/-- Elements per member, and bytes of a contribution (R239). -/
def collCount (c : Command) : Nat := bits c.w3 63 32
def collBytes (c : Command) : Nat := if c.kind = 0x21 ∨ c.kind = 0x23 then collCount c else 4 * collCount c

/-- The source is read in pieces by ascending offset. -/
def sourceSteps (c : Command) (n : Nat) : List Step :=
  (touchRun 0 (.glob (bits c.w1 55 0)) n false).map fun t => { touches := [t], together := false, run := id }

/-- Bytes that a member of a group reads from its source: of a BCAST only the root reads (R239). -/
def sourceBytes (s : State) (sl : Collective) (c : Command) : Nat :=
  if !(c.kind == 0x21) || rankOf s sl c.core == some (bits c.w3 31 16) then collBytes c else 0

/-- A port's command goes to its switch: SEQ against NEXT, then the contribution is read (R356). -/
def contribute (s : State) (c : Command) : State :=
  match groupSlot s (bits c.w3 15 0) with
  | none => s
  | some (k, sl) =>
    let d := (BitVec.ofNat 32 (bits c.w0 63 32) - sl.next).toNat
    let again := sl.here.any fun id => match s.cmd? id with | some e => e.core == c.core | none => false
    if 2 ^ 31 ≤ d ∨ (d = 0 ∧ again) then sequenceError s c 1
    else
      let n := sourceBytes s sl c
      let s := settleTouches s c (touchRun 0 (.glob (bits c.w1 55 0)) n false)
      let (_, f) := soundSteps s c (sourceSteps c n)
      if f.isSome then finishCommand s c.id Stat.none_ f
      else
        let data := runRead s c (.glob (bits c.w1 55 0)) n
        (s.modCmd c.id fun e => { e with data := data }).modColl k fun sl => { sl with here := sl.here ++ [c.id] }

/-- The head of a collective port contributes when its SEQ is the next one; a later SEQ waits at the head (R216, R356). -/
def collectiveHead (s : State) (core kind : Nat) : State :=
  match readyHead s core 2 kind with
  | none => s
  | some (_, c) =>
    match groupSlot s (bits c.w3 15 0) with
    | none => s
    | some (_, sl) =>
      let d := (BitVec.ofNat 32 (bits c.w0 63 32) - sl.next).toNat
      if 1 ≤ d ∧ d < 2 ^ 31 then s
      else if beatWaits s c (sourceSteps c (sourceBytes s sl c)) then holdBeat s c (sourceSteps c (sourceBytes s sl c))
      else startHead s core 2 kind contribute

/-- ALLRED (R239, R356). -/
def execAllred (core : Nat) (s : State) : Out := event (collectiveHead s core 0x20)

/-- BCAST (R239, R356). -/
def execBcast (core : Nat) (s : State) : Out := event (collectiveHead s core 0x21)

/-- REDSCAT (R239, R356). -/
def execRedscat (core : Nat) (s : State) : Out := event (collectiveHead s core 0x22)

/-- ALLGATH (R239, R356). -/
def execAllgath (core : Nat) (s : State) : Out := event (collectiveHead s core 0x23)

/-- COLLECTIVE_SLOT_VALID: setting VALID sets NEXT to 1 (R355). -/
def setSlotValid (s : State) (k : Nat) : State := s.modColl k fun c => { c with valid := true, next := 1 }
def execCollectiveSlotValid (slot : Nat) (s : State) : Out := blockEvent s (if slot < 256 then setSlotValid s slot else s)

/-! ## Reduction at the switch (R357) -/

/-- Element i of a contribution. -/
def contribElem (d : List Byte) (i : Nat) : Nat := leNat ((d.drop (4 * i)).take 4)

/-- The reduction of the elements of all ranks, in rank order: the bytes written, conditions, and saturations. -/
def reduceRanks (op : Nat) (fxa : Bool) (xs : List Nat) : List Byte × BitVec 6 × Nat :=
  if op = 0 then
    let ts := xs.map fun x => fxaOf (fp32.num x)
    let sum := ts.foldl (fun (v : BitVec 128) t => v + t.1) 0
    let f := ts.foldl (fun (v : BitVec 6) t => v ||| t.2) 0
    let n := (ts.filter fun t => t.2.getLsbD 5).length
    if fxa then (leBytes 16 sum.toNat, f, n)
    else
      let (w, f2, n2) := fxaTo32 sum
      (leBytes 4 w, f ||| f2, n + n2)
  else
    match xs with
    | [] => (leBytes 4 0, 0, 0)
    | x :: r =>
      let step := fun (a : Nat × BitVec 6) (y : Nat) =>
        let (v, f) :=
          if op = 1 then redValue 1 false a.1 y else if op = 2 then redValue 2 false a.1 y
          else if op = 3 then redValue 3 true a.1 y else if op = 4 then redValue 4 true a.1 y
          else if op = 5 then redValue 3 false a.1 y else redValue 4 false a.1 y
        (v, a.2 ||| f)
      let (v, f) := r.foldl step (x, 0)
      (leBytes 4 v, f, 0)

/-- Contributions by rank: those of this device's commands that run on, and those that came through the switch. A member
whose command has been cancelled fails the collective (R225, R239). -/
def rankData (s : State) (sl : Collective) (remote : List (Nat × List Byte)) : Map (List Byte) :=
  sl.here.foldl (fun (m : Map (List Byte)) id =>
    match s.cmd? id with
    | some c => match rankOf s sl c.core with | some r => if c.state = .running then tabSet m r c.data else m | none => m
    | none => m) (remote.foldl (fun (m : Map (List Byte)) p => tabSet m p.1 p.2) [])

/-- What a member's command writes to DEST, with conditions and saturations (R239, R357). -/
def collectiveResult (c : Command) (n rank : Nat) (data : Map (List Byte)) : List Byte × BitVec 6 × Nat :=
  let get := fun (r : Nat) => tabGet [] data r
  if c.kind = 0x21 then (get (bits c.w3 31 16), 0, 0)
  else if c.kind = 0x23 then ((List.range n).flatMap get, 0, 0)
  else
    let all := (List.range (collCount c)).map fun i =>
      reduceRanks (bits c.w0 26 24) (c.flag 27) ((List.range n).map fun r => contribElem (get r) i)
    let f := all.foldl (fun (v : BitVec 6) e => v ||| e.2.1) 0
    let k := all.foldl (fun (v : Nat) e => v + e.2.2) 0
    let part := if c.kind = 0x22 then (all.drop (rank * (collCount c / n))).take (collCount c / n) else all
    (part.flatMap (·.1), f, k)

/-- The writes of a member's result: steps in ascending offset (R225, R239). -/
def resultSteps (c : Command) (bs : List Byte) : List Step :=
  let dst : Spot := .glob (bits c.w2 55 0)
  (piecesOf dst bs.length).map fun q =>
    { touches := [⟨1, dst.add q.1, q.2, true⟩], together := false
      run := fun a => (spotWrite a.1 c (dst.add q.1) ((bs.drop q.1).take q.2), a.2) }

/-- A member writes its result. -/
def writeResult (s : State) (c : Command) (bs : List Byte) (f : BitVec 6) (n : Nat) : State :=
  let (s, _, e) := runSteps s c (resultSteps c bs) Stat.none_
  let s := groupFlags s c.tid c.lid (f.setWidth 7)
  finishCommand s c.id (Stat.none_.add f n) e

/-- The commands of this device in a collective, still running. -/
def contributors (s : State) (sl : Collective) : List Command :=
  sl.here.filterMap fun id => (s.cmd? id).bind fun c => if c.state = .running then some c else none

/-- COLLECTIVE_CONTRIBUTION: with the contributions of the other devices' members, every rank has contributed; the switch
reduces, every member here gets its bytes, and SEQ is consumed (R356, R357). -/
def execCollectiveContribution (slot : Nat) (remote : List (Nat × List Byte)) (s : State) : Out :=
  let sl := s.collOf slot
  let data := rankData s sl remote
  event (
    let result := fun (c : Command) => collectiveResult c sl.nmem ((rankOf s sl c.core).getD 0) data
    let stuck := (contributors s sl).any fun c => beatWaits s c (resultSteps c (result c).1)
    if sl.valid && !stuck && (0 < sl.nmem) && (List.range sl.nmem).all fun r => (tabFind data r).isSome then
      let s1 := (contributors s sl).foldl (fun (s : State) c =>
        let (bs, f, n) := result c
        writeResult s c bs f n) s
      s1.modColl slot fun sl => { sl with next := sl.next + 1, here := [] }
    else s)

/-- A collective aborts: every command that has contributed retires with class 5 and nothing is written (R356). -/
def abortCollective (s : State) (slot dev : Nat) : State :=
  let sl := s.collOf slot
  let s := (contributors s sl).foldl (fun (s : State) c =>
    finishCommand s c.id Stat.none_ (some (5, BitVec.ofNat 64 dev))) s
  s.modColl slot fun sl => { sl with next := sl.next + 1, here := [] }

/-- The ranks of this device that have not contributed, and those that may not have: all other devices' as well. SEQ is
consumed on every member, so a collective without a contribution from here aborts here too (R356). -/
def missingRanks (s : State) (sl : Collective) : List Nat × List Nat :=
  let open_ := (List.range sl.nmem).filter fun r => (tabFind (rankData s sl []) r).isNone
  (open_.filter fun r => rankEntry s sl r / 2 ^ 16 % 2 ^ 11 == s.reg.devnum.toNat, open_)

/-- COLLECTIVE_TIMEOUT: some member has not contributed within BARTO. The detail is the device of the lowest-ranked missing
member; whether another device's member below this device's is missing, a free value tells (R356; log 7). -/
def execCollectiveTimeout (slot : Nat) (s : State) : Out :=
  let sl := s.collOf slot
  let (mine, open_) := missingRanks s sl
  event (
    if !sl.valid || open_.isEmpty || (sl.here.isEmpty && mine.length == open_.length) then s
    else
      let lowest := match mine with | r :: _ => open_.filter fun q => decide (q ≤ r) | [] => open_
      let (w, s) := s.fresh
      let r := lowest.getD (w.toNat % Nat.max 1 lowest.length) 0
      abortCollective s slot (rankEntry s sl r / 2 ^ 16 % 2 ^ 11))

end Sys2Proof.Machine
end

