-- ==== Sys2Proof/Machine/Checkpoint.lean ====
section
/-!
DEFINITION. The checkpoint engine: CKPT save and restore, the cut, the drain (15_engines R240, 25_system R359 to R363).
-/
namespace Sys2Proof.Machine

/-! ## The checkpoint table (R359) -/

/-- An entry of a checkpoint table. -/
structure CkEntry where
  src    : Word
  dst    : Word
  len    : Nat
  shard  : Nat
  narrow : Nat
  deriving DecidableEq, Repr

/-- A doubleword that a command reads at a global address. -/
def cmdDword (s : State) (c : Command) (va : Nat) : Word := BitVec.ofNat 64 (leNat (runRead s c (.glob va) 8))

/-- A fault on reading n bytes. -/
def readFault (s : State) (c : Command) (va n : Nat) : Option (Nat × Word) :=
  ((touchRun 0 (.glob va) n false).findSome? (touchFault s c)).map fun f => f.2

/-- DB of a record (R359). -/
def recordBytes (narrow len : Nat) : Nat :=
  if narrow = 1 then len / 2 else if narrow = 2 then len / 4 + len / 128 else len

/-- The fields of an entry stay within the limits of R359. -/
def entryOk (s : State) (c : Command) (va : Nat) (restore : Bool) : Bool :=
  let w := cmdDword s c (va + 24)
  let n := bits w 3 0
  let len := (cmdDword s c (va + 16)).toNat
  let dst := cmdDword s c (va + 8)
  ptrOk (cmdDword s c va) && (if restore then ptrOk dst else dst.toNat % 64 == 0) && bits w 31 4 == 0 &&
    (if n = 0 then len % 64 == 0 else if n = 1 then len % 4 == 0 else n == 2 && len % 128 == 0)

/-- The checkpoint table: direction (true for restore) and entries, or an error class and its detail (R224, R359). A field
outside the limits names the operand word of the table. -/
def ckptTable (s : State) (c : Command) : Except (Nat × Word) (Bool × List CkEntry) :=
  let a := bits c.w1 55 0
  match readFault s c a 64 with
  | some f => .error f
  | none =>
    let count := bits (cmdDword s c a) 31 0
    let dir := cmdDword s c (a + 8)
    let clean := bits (cmdDword s c a) 63 32 == 0 && dir.toNat ≤ 1 && (List.range 6).all fun i => cmdDword s c (a + 16 + 8 * i) == 0
    match (List.range count).findSome? fun i => readFault s c (a + 64 + 32 * i) 32 with
    | some f => .error f
    | none =>
      if !clean || !(List.range count).all fun i => entryOk s c (a + 64 + 32 * i) (dir == 1) then .error (1, 64)
      else .ok (dir == 1, (List.range count).map fun i =>
        let e := a + 64 + 32 * i
        { src := cmdDword s c e, dst := cmdDword s c (e + 8), len := (cmdDword s c (e + 16)).toNat
          shard := bits (cmdDword s c (e + 24)) 63 32, narrow := bits (cmdDword s c (e + 24)) 3 0 })

/-! ## Records (R359, R360) -/

/-- Narrows FP32 values to BF16 (R172, R360). -/
def narrow1 (bs : List Byte) : List Byte × BitVec 6 × Nat :=
  let (v, f) := bf16.ofNum .rne true (fp32.num (leNat bs))
  (leBytes 2 v, f, b2n (f.getLsbD 5))

/-- Narrows a block of 32 FP32 values to E4M3 codes and their scale byte (R360). -/
def narrow2 (bs : List Byte) : List Byte × BitVec 6 × Nat :=
  let xs := (runsOf 4 40 bs).map fun b => fp32.num (leNat b)
  let nums := xs.filter fun x => !x.isNan
  let e := ((List.range 62).find? fun (e : Nat) => nums.all fun x => numAtMost x 448 ((e : Int) - 32)).getD 62
  let rs := xs.map fun x => e4m3.ofNum .rne true (numMul x (.fin false 1 (32 - (e : Int))))
  (rs.flatMap (fun r => leBytes 1 r.1) ++ leBytes 1 e, rs.foldl (fun (f : BitVec 6) r => f ||| r.2) 0,
    (rs.filter fun r => r.2.getLsbD 5).length)

/-- Widens BF16 to FP32 (R172, R360). -/
def widen1 (bs : List Byte) : List Byte × BitVec 6 × Nat :=
  let (v, f) := fp32.ofNum .rne true (bf16.num (leNat bs))
  (leBytes 4 v, f, 0)

/-- Widens a block of E4M3 codes by its scale byte (R360). -/
def widen2 (bs : List Byte) : List Byte × BitVec 6 × Nat :=
  let e := leNat (bs.drop 32)
  let rs := (bs.take 32).map fun b => fp32.ofNum .rne true (numMul (e4m3.num b.toNat) (.fin false 1 ((e : Int) - 32)))
  (rs.flatMap (fun r => leBytes 4 r.1), rs.foldl (fun (f : BitVec 6) r => f ||| r.2) 0, 0)

/-- Steps that turn runs of n bytes into runs of m bytes. -/
def mapSteps (c : Command) (src dst : Spot) (n m cnt : Nat) (f : List Byte → List Byte × BitVec 6 × Nat) : List Step :=
  (List.range cnt).map fun i =>
    { touches := touchRun 0 (src.add (n * i)) n false ++ touchRun 1 (dst.add (m * i)) m true
      together := false
      run := fun a =>
        let (o, fl, k) := f (runRead a.1 c (src.add (n * i)) n)
        (runWrite a.1 c (dst.add (m * i)) o, a.2.add fl k) }

/-- The data steps between a shard and a record's data. -/
def dataSteps (c : Command) (src dst : Spot) (narrow len : Nat) (restore : Bool) : List Step :=
  if narrow = 0 then copySteps c [] src dst 0 1 len
  else if restore then
    (if narrow = 1 then mapSteps c src dst 2 4 (len / 4) widen1 else mapSteps c src dst 33 128 (len / 128) widen2)
  else (if narrow = 1 then mapSteps c src dst 4 2 (len / 4) narrow1 else mapSteps c src dst 128 33 (len / 128) narrow2)

/-- A record's header (R359): SHARD in the upper half of doubleword 0 and the cut number in the lower. -/
def recordHeader (cut : Nat) (e : CkEntry) : List Byte :=
  leBytes 8 (e.shard * 2 ^ 32 + cut) ++ leBytes 8 e.len ++ leBytes 8 e.narrow ++ leBytes 8 (recordBytes e.narrow e.len) ++
    List.replicate 32 0

/-- The place of a record in the snapshot area. -/
def recordVa (c : Command) (e : CkEntry) : Nat := (bits c.w2 55 0 + e.dst.toNat) % 2 ^ 64

/-- The steps that write a record. -/
def saveSteps (c : Command) (e : CkEntry) : List Step :=
  let dst : Spot := .glob (recordVa c e)
  { touches := touchRun 1 dst 64 true, together := false
    run := fun a => (runWrite a.1 c dst (recordHeader (bits c.w0 63 32) e), a.2) } ::
  dataSteps c (.glob (bits e.src 55 0)) (dst.add 64) e.narrow e.len false

/-- The pieces of a record that the drain writes: offset, physical address, bytes. -/
def drainPieces (s : State) (c : Command) (e : CkEntry) : List (Nat × Nat × Nat) :=
  (piecesOf (.glob (recordVa c e)) (64 + recordBytes e.narrow e.len)).filterMap fun q =>
    match cmdTranslate s c .load (recordVa c e + q.1) with
    | .ok pa => some (e.dst.toNat + q.1, pa, q.2)
    | .error _ => none

/-! ## Save (R361) -/

/-- The head of the checkpoint engine's queue, when it can start, with its table. -/
def ckptHead (s : State) : Option Command :=
  match headOf s 0 3 with
  | some c => if c.kind = 0x30 ∧ c.state = .waiting ∧ !malformed s c ∧ !s.paused then some c else none
  | none => none

/-- CKPT: a save starts: its arrival goes round the domain's Leash. It waits for an earlier drain. A table that cannot be
read or holds refused fields ends the command (R359, R361, R362). -/
def execCkpt (s : State) : Out :=
  event (match ckptHead s with
    | none => s
    | some c =>
      match ckptTable s c with
      | .error f => startHead s c.core 3 0x30 fun s c => finishCommand s c.id Stat.none_ (some f)
      | .ok (true, _) => s
      | .ok (false, _) =>
        if !s.ckpt.records.isEmpty || s.ckpt.cut.isSome then s
        else startHead s c.core 3 0x30 fun s c => { s with ckpt := { s.ckpt with cut := some (c.id, false) } })

/-- CKPT_ALL_ARRIVED: commits, engines and the work that depends on them stop (R361). -/
def execCkptAllArrived (s : State) : Out :=
  event (match s.ckpt.cut with
    | some (id, false) => { s with ckpt := { s.ckpt with cut := some (id, true) } }
    | _ => s)

/-- The other devices of the domain (R352). -/
def State.peerDevices (s : State) : List Nat :=
  (List.range 2048).filter fun d => d != s.reg.devnum.toNat && s.reg.domain.getLsbD d

/-- CKPT_TIMEOUT: a member device has not posted the save within BARTO; which of the other members, a free value tells
(R361; log 7). -/
def execCkptTimeout (s : State) : Out :=
  event (match s.ckpt.cut with
    | some (id, false) =>
      let ds := s.peerDevices
      if ds.isEmpty then s
      else
        let (w, s) := s.fresh
        let s := { s with ckpt := { s.ckpt with cut := none } }
        match s.cmd? id with
        | some c =>
          if c.state = .running then
            finishCommand s id Stat.none_ (some (5, BitVec.ofNat 64 (ds.getD (w.toNat % Nat.max 1 ds.length) 0)))
          else s
        | none => s
    | _ => s)

/-- The beats of a running engine command. -/
def commandBeats (s : State) (c : Command) : List (List Step) :=
  match c.kind with
  | 0x01 => matrixBeats c c.mat
  | 0x02 => matrixBeats c c.mat
  | 0x03 => matrixBeats c c.mat
  | 0x04 => acczBeats c
  | 0x05 => outBeats s c
  | 0x06 => matrixBeats c c.mat
  | 0x10 => copyBeats s c
  | 0x11 => redBeats s c
  | 0x12 => indexedBeats s c false
  | 0x13 => indexedBeats s c true
  | 0x14 => castBeats s c
  | _ => []

/-- A running command stands inside a grain: its engine pauses at the end of it (R361). -/
def midGrain (s : State) (c : Command) : Bool :=
  c.state == .running && !c.sent && decide (c.engine.toNat ≤ 1) &&
    let all := commandBeats s c
    decide (c.progress < all.length) && insideGrain c all

/-- Every engine has paused, and every committed write has been performed: nothing released is on its way, and no granted
chunk is unreleased (R361). -/
def cutFixed (s : State) : Bool :=
  !(s.cmds.any (midGrain s)) &&
  s.flights.isEmpty && s.far.isEmpty && !(s.threads.any fun p => match p.2.older with | some c => !c.inFlight | none => false)

/-- The drain of a save's records is set up where it is enabled (R362). -/
def startDrain (s : State) (cut : Nat) (ps : List (Nat × Nat × Nat)) : State :=
  if s.ckpt.ctl.getLsbD 11 || s.ckpt.ctl.getLsbD 12 then
    { s with ckpt := { s.ckpt with
        cutNo := BitVec.ofNat 32 cut, err := false, done := ps.isEmpty, drained := 0, records := ps } }
  else s

/-- CKPT_RESUME: the records are written at the cut, every device has finished, and everything goes on (R361). -/
def execCkptResume (s : State) : Out :=
  event (match s.ckpt.cut with
    | some (id, true) =>
      let go := { s with ckpt := { s.ckpt with cut := none } }
      match s.cmd? id with
      | none => go
      | some c =>
        if c.state ≠ .running then go
        else if !cutFixed s then s
        else
          match ckptTable s c with
          | .error f => finishCommand go id Stat.none_ (some f)
          | .ok (_, es) =>
            let ps := es.flatMap (saveSteps c)
            if beatWaits s c ps then s
            else
              let (s1, st, f) := runSteps go c ps Stat.none_
              let s2 := finishCommand s1 id st f
              if f.isSome then s2 else startDrain s2 (bits c.w0 63 32) (es.flatMap (drainPieces s2 c))
    | _ => s)

/-! ## Restore (R363) -/

/-- Restores the entries in turn, until a fault or a record that is not the entry's. -/
def restoreEntries (s : State) (c : Command) (st : Stat) : List CkEntry → State × Stat × Option (Nat × Word)
  | [] => (s, st, none)
  | e :: es =>
    let a := bits e.src 55 0
    match readFault s c a 64 with
    | some f => (s, st, some f)
    | none =>
      let narrow := (cmdDword s c (a + 16)).toNat
      if bits (cmdDword s c a) 63 32 ≠ e.shard ∨ (cmdDword s c (a + 8)).toNat ≠ e.len ∨ 2 < narrow then
        (s, st, some (3, e.src))
      else
        match runSteps s c (dataSteps c (.glob (a + 64)) (.glob (bits e.dst 55 0)) narrow e.len true) st with
        | (s, st, some f) => (s, st, some f)
        | (s, st, none) => restoreEntries s c st es

/-- CKPT_RESTORE (R363). -/
def execCkptRestore (s : State) : Out :=
  event (match ckptHead s with
    | none => s
    | some c =>
      match ckptTable s c with
      | .ok (true, es) =>
        startHead s c.core 3 0x30 fun s c =>
          let (s, st, f) := restoreEntries s c Stat.none_ es
          finishCommand s c.id st f
      | _ => s)

/-! ## Drain (R362) -/

/-- CKPT_DRAIN: the next piece of a record goes to the buddy and to the host. A refused write stops the drain: one to a
device that is no member, one to a poisoned line, and one that the buddy denies or does not answer in time, which a free
value tells (R151, R351, R362; log 7). -/
def execCkptDrain (s : State) : Out :=
  let k := s.ckpt
  event (match k.records with
    | [] => s
    | (off, pa, n) :: rest =>
      if bits k.ctl 31 16 = 0 ∨ s.paused ∨ s.flipWait pa ∨ s.bankBusy pa then s
      else
        let s := settleArray s noThread pa
        let bs := (List.range n).map fun i => s.homeByte (pa + i)
        let dev := bits k.ctl 10 0
        let b := dev * 2 ^ 40 + (k.buddyBase.toNat + off) % 2 ^ 40
        let refused := k.ctl.getLsbD 11 && (!s.reg.domain.getLsbD dev || s.poison.contains (b / 64) ||
          farRefused s (2 ^ 64 + k.cutNo.toNat) b)
        if refused then { s with ckpt := { k with err := true, records := [] } }
        else
          let s := if k.ctl.getLsbD 11 then agentWrite s noThread b bs else s
          let s := if k.ctl.getLsbD 12 then agentWrite s noThread (2 ^ 51 + (k.hostBase.toNat + off) % 2 ^ 51) bs else s
          { s with ckpt := { s.ckpt with drained := s.ckpt.drained + BitVec.ofNat 64 n, done := rest.isEmpty, records := rest } })

end Sys2Proof.Machine
end

