-- ==== Sys2Proof/Machine/Launch.lean ====
section
/-!
DEFINITION. Launch queues, placement, pre-emption, restoring and slots (01_machine R20, 03_encoding R72,
07_memory R115, 21_scheduling R297 to R304, R314 to R321).
-/
namespace Sys2Proof.Machine

/-! ## Records (R72, R297, R298, R300) -/

/-- CODE is 1 to 5, which stop the queue; 6 does not (R300). -/
def Queue.stopped (q : Queue) : Bool := q.code != 0 && q.code != 6

/-- The engine reads records of the queue: it is resident and not stopped, and the device is ready (R298, R299, R377). -/
def queueServed (s : State) (k : Nat) : Bool := (s.queueOf k).res && !(s.queueOf k).stopped && s.reg.phase == 4

/-- The place of record r (R297). -/
def recordPa (s : State) (q : Queue) (r : BitVec 32) : Nat :=
  s.devPa (q.qbase.toNat + 128 * (r.toNat % 2 ^ q.qsize))

/-- An error of a queue: CODE, RECNO and the queue's MSI-X vector; 6 replaces none of 1 to 5 (R300, R303). -/
def queueError (s : State) (k : Nat) (code : BitVec 8) (r : BitVec 32) : State :=
  let s := { s with reg := { s.reg with msix := s.reg.msix ||| BitVec.ofNat 64 (2 ^ k) } }
  s.modQueue k fun q => if q.stopped then q else { q with code := code, recno := r }

/-- The fields of a record. -/
structure LRec where
  entry    : Word
  args     : Word
  rect     : Word
  ctl      : Word
  stealdom : Word
  key      : Word
  done     : Word
  tlist    : Word
  deriving DecidableEq, Repr

def recOf (ws : List Word) : LRec :=
  let w := fun (i : Nat) => ws.getD i 0
  ⟨w 0, w 1, w 2, w 3, w 4, w 5, w 6, w 7⟩

def LRec.nt (r : LRec) : Nat := bits r.ctl 4 0
def LRec.tt (r : LRec) : Nat := bits r.ctl 11 8
def LRec.prio (r : LRec) : Nat := bits r.ctl 13 12
def LRec.csp (r : LRec) : Nat := bits r.ctl 18 16
def LRec.chunkLen (r : LRec) : Nat := bits r.ctl 46 32

/-- The cores of a rectangle, row by row. -/
def rectCores (rect : Word) : List Nat := (List.range Config.coreCount).filter fun c =>
  match scopeOf rect with
  | some (.cores x0 y0 x1 y1) => (ScopeForm.cores x0 y0 x1 y1).has c
  | _ => false

/-- The explicit form of a scope (R144). -/
def explicitScope (w : Word) : Bool := match scopeOf w with | some (.cores _ _ _ _) => true | _ => false

/-- The checks of CODE 2 (R300). -/
def recordFieldsOk (ws : List Word) : Bool :=
  let r := recOf ws
  bits r.entry 63 56 == 0 && bits r.entry 1 0 == 0 &&
    bits r.ctl 63 47 == 0 && bits r.ctl 31 19 == 0 && bits r.ctl 15 15 == 0 && bits r.ctl 7 5 == 0 &&
    decide (1 ≤ r.nt) && decide (r.nt ≤ 16) && decide (r.tt ≤ 8) && decide (r.tt ≤ r.nt) &&
    decide (256 ≤ r.chunkLen) && decide (r.chunkLen ≤ 16384) && decide (r.csp ≤ 3) &&
    bits r.done 2 0 == 0 && explicitScope r.rect && (scopeOf r.stealdom).isSome &&
    ((List.range 7).all fun i => ws.getD (8 + i) 0 == 0) && bits (ws.getD 15 0) 31 0 == 0

/-- The launch engine as an accessor: U mode, with JSATP (R303, R348). It has no core: it walks for itself (log 14). -/
def engineWho (s : State) (al : Bool) : Who := ⟨s.reg.jsatp, false, false, al⟩
def engineTranslate (s : State) (al : Bool) (acc : Acc) (va : Nat) : Except TransErr Nat :=
  if 2 ^ 56 ≤ va then .error (.fault (accessFault acc))
  else match translate s Config.coreCount none (engineWho s al) acc va with
    | .ok (_, pa, _) => .ok pa
    | .error e => .error e

/-- Bytes that the launch engine reads at a virtual address; none where a byte is poisoned or does not translate. -/
def engineRead (s : State) (va n : Nat) : Option (List Byte) :=
  (List.range n).foldr (fun i (acc : Option (List Byte)) =>
    match acc, engineTranslate s false .load (va + i) with
    | some bs, .ok pa => if s.poison.contains (pa / 64) then none else some (s.homeByte pa :: bs)
    | _, _ => none) (some [])

/-- Such a read meets a page that is being flipped, or a bank that is being refreshed, and waits (R126, R154). -/
def engineWaits (s : State) (va n : Nat) : Bool :=
  (List.range n).any fun i =>
    match engineTranslate s false .load (va + i) with
    | .ok pa => s.bankBusy pa
    | .error .flip => true
    | .error (.bank _) => true
    | .error _ => false

/-- The first place at which such a read waits for a bank (R126, R127). -/
def engineBank (s : State) (va n : Nat) : Option Nat :=
  (List.range n).findSome? fun i =>
    match engineTranslate s false .load (va + i) with
    | .ok pa => if s.bankBusy pa then some pa else none
    | .error (.bank pa) => some pa
    | .error _ => none

/-- The doublewords of bytes. -/
def wordsOf (bs : List Byte) : List Word := (List.range (bs.length / 8)).map fun i => lineWord bs i

/-- The descriptor of a record's fixed list (R301, R312). -/
def recordList (s : State) (r : LRec) : Option (List Word) := (engineRead s r.tlist.toNat 32).map wordsOf

/-- The read of a record's TLIST descriptor waits. -/
def listWaits (s : State) (ws : List Word) : Bool :=
  let r := recOf ws
  recordFieldsOk ws && r.tlist != 0 && engineWaits s r.tlist.toNat 32

/-- The error of a record that is to be placed, if it has one (R300). -/
def recordFault (s : State) (ws : List Word) : Option (BitVec 8) :=
  let r := recOf ws
  if !recordFieldsOk ws then some 2
  else if (rectCores r.rect).any fun c => s.reg.offline.contains c || s.reg.offClusters.contains (clusterOf c) then some 3
  else if r.tlist = 0 then none
  else match recordList s r with
    | none => some 5
    | some d => if taskListOk d then none else some 4

/-- The head record, once it has been fetched. -/
def headRecord (s : State) (k : Nat) : Option (Nat × List Word) :=
  if queueServed s k then (s.queueOf k).fetched.head? else none

/-- The check of a queue's head record (R300). -/
def checkHead (s : State) (k : Nat) : State :=
  match headRecord s k with
  | some (r, ws) =>
    if listWaits s ws then
      match engineBank s (recOf ws).tlist.toNat 32 with
      | some pa => s.waitAt (.queue k) pa
      | none => s
    else match recordFault s ws with
    | some c => queueError s k c (BitVec.ofNat 32 r)
    | none => s
  | none => s

/-- Fetches the queue's next record: it is accepted with its own stamp, else it will be fetched again, up to 64 times
(R298). Errors are taken for the head record. A page that is being flipped and a bank that is being refreshed keep it
waiting (R126, R154). -/
def fetchRecord (s : State) (k : Nat) : State :=
  let q := s.queueOf k
  let pa := recordPa s q q.fetchNext
  let head := q.fetched.isEmpty
  let busy := [pa, pa + 64].filter s.bankBusy
  let waits := s.flipWait pa || !busy.isEmpty
  let s := if waits then s else settleArray (settleArray s noThread pa) noThread (pa + 64)
  if waits then busy.foldl (fun s a => s.waitAt (.queue k) a) s
  else if s.poison.contains (pa / 64) || s.poison.contains (pa / 64 + 1) then
    if head then queueError s k 5 q.fetchNext else s
  else
    let ws := wordsOf (memRead s.mem pa 128)
    if bits (ws.getD 15 0) 63 32 = (q.fetchNext + 1).toNat then
      checkHead (s.modQueue k fun q => { q with
        fetched := q.fetched ++ [(q.fetchNext.toNat, ws)], fetchNext := q.fetchNext + 1, tries := 0 }) k
    else if 64 ≤ q.tries then
      if head then queueError s k 1 q.fetchNext else s
    else s.modQueue k fun q => { q with tries := q.tries + 1 }

/-- The queue has a record to fetch (R298). -/
def fetchable (s : State) (k : Nat) : Bool :=
  queueServed s k && (s.queueOf k).fetchNext != (s.queueOf k).qtail

/-- RECORD_FETCH. -/
def execRecordFetch (q : Nat) (s : State) : Out :=
  event (if fetchable s q && (s.queueOf q).tries == 0 then fetchRecord s q else s)

/-- RECORD_REFETCH. -/
def execRecordRefetch (q : Nat) (s : State) : Out :=
  event (if fetchable s q && (s.queueOf q).tries != 0 then fetchRecord s q else s)

/-! ## The queue's registers (R297, R300, R304) -/

/-- QTAIL_WRITE: while the queue is out, the tail waits in its context (R298, R304). -/
def writeQtail (s : State) (k : Nat) (v : Word) : State := s.modQueue k fun q => { q with qtail := v.setWidth 32 }
def execQtailWrite (q : Nat) (v : Word) (s : State) : Out := blockEvent s (if q < 64 then writeQtail s q v else s)

/-- A write of QBASE or QSIZE (R297). -/
def writeQueueConfig (s : State) (k : Nat) (size : Bool) (v : Word) : State :=
  let q := s.queueOf k
  if q.res || q.qdone != q.qtail then s
  else
    let q := if size then { q with qsize := Nat.min 16 (bits v 4 0) } else { q with qbase := v &&& 0xFFFFFFFF80 }
    s.modQueue k fun _ => { q with qhead := q.qtail, qdone := q.qtail, fetchNext := q.qtail, fetched := [], tries := 0 }

/-- QUEUE_CONFIG_WRITE. -/
def execQueueConfigWrite (q : Nat) (size : Bool) (v : Word) (s : State) : Out :=
  blockEvent s (if q < 64 then writeQueueConfig s q size v else s)

/-- QUEUE_SWITCH_OUT (R304). -/
def switchOut (s : State) (k : Nat) : State :=
  s.modQueue k fun q => if q.res then { q with res := false, out := true } else q
def execQueueSwitchOut (q : Nat) (s : State) : Out := blockEvent s (if q < 64 then switchOut s q else s)

/-- QUEUE_SWITCH_IN: the completions counted meanwhile are applied (R304). -/
def switchIn (s : State) (k : Nat) : State :=
  s.modQueue k fun q =>
    if q.res then q
    else { q with res := true, out := false, qdone := q.qdone + BitVec.ofNat 32 q.outDone, outDone := 0 }
def execQueueSwitchIn (q : Nat) (s : State) : Out := blockEvent s (if q < 64 then switchIn s q else s)

/-- CLEAR: the records not yet placed are read again; code 6 only goes (R300). -/
def clearQueue (s : State) (k : Nat) : State :=
  s.modQueue k fun q =>
    if q.stopped then { q with code := 0, fetched := [], fetchNext := q.qhead, tries := 0 } else { q with code := 0 }
def execQueueClear (q : Nat) (s : State) : Out := blockEvent s (if q < 64 then clearQueue s q else s)

/-- CLEAR with SKIP: the record is passed over (R300). -/
def skipRecord (s : State) (k : Nat) : State :=
  s.modQueue k fun q =>
    if q.stopped then
      { q with code := 0, qhead := q.qhead + 1, fetched := [], fetchNext := q.qhead + 1, tries := 0 }
    else { q with code := 0 }
def execQueueClearSkip (q : Nat) (s : State) : Out := blockEvent s (if q < 64 then skipRecord s q else s)

/-! ## Where a record can be placed (R20, R115, R299, R378) -/

/-- The launches that hold a cluster. -/
def State.onCluster (s : State) (cluster : Nat) : List (Nat × Launch) :=
  s.launches.filter fun l => (clusterCores cluster).any fun c => scopeHas l.2.rect c

/-- The clusters of a rectangle. -/
def rectClusters (rect : Word) : List Nat := ((rectCores rect).map clusterOf).eraseDups

/-- The cluster arrays allow the launch (R115). -/
def cspRoom (s : State) (r : LRec) : Bool :=
  (rectClusters r.rect).all fun k =>
    if r.csp = 0 then (s.onCluster k).all fun l => l.2.csp == 0 else (s.onCluster k).isEmpty

/-- Free slots suffice for the launch's threads on one core (R20). -/
def slotsFit (r : LRec) (free : List Nat) : Bool :=
  decide (r.nt ≤ free.length) && decide (r.tt ≤ (free.filter (· < 8)).length)

/-- The free slots of a core. -/
def State.freeSlots (s : State) (core : Nat) : List Nat := (List.range 16).filter (s.slotFree core)

/-- Some core of the rectangle has too few free slots. -/
def slotsLack (s : State) (r : LRec) : Bool := (rectCores r.rect).any fun c => !slotsFit r (s.freeSlots c)

/-- The queues that hold a sound head record, in the order of service (R299). -/
def serviceOrder (s : State) : List (Nat × LRec) :=
  let ks := (List.range 64).map fun i => (s.lastServed + 1 + i) % 64
  let qs := [3, 2, 1, 0].flatMap fun (p : Nat) => ks.filter fun k => (s.queueOf k).qprio.toNat == p
  qs.filterMap fun k =>
    match headRecord s k with
    | some (_, ws) => if (recordFault s ws).isNone && !listWaits s ws then some (k, recOf ws) else none
    | none => none

/-- Two rectangles share a core. -/
def rectsMeet (a b : Word) : Bool := (rectCores a).any fun c => scopeHas b c

/-- Bytes of a context region: 48 KiB a thread and 64 KiB a core (R301). -/
def regionBytes (cores nt : Nat) : Nat := 49152 * (cores * nt) + 65536 * cores

/-- The context region that a record would get: the lowest part of the pool that no launch holds (R299, R301; log 31). -/
def regionFor (s : State) (r : LRec) : Option Nat :=
  let n := regionBytes (rectCores r.rect).length r.nt
  let taken := s.launches.map fun l => (l.2.region, regionBytes (rectCores l.2.rect).length l.2.nt)
  let base := s.devPa s.reg.poolBase
  let fits := fun (a : Nat) => decide (base ≤ a) && decide (a + n ≤ base + s.reg.poolSize) &&
    !taken.any fun q => rangesMeet a n q.1 q.2
  ((base :: taken.map fun q => q.1 + q.2).filter fits).foldl (fun (m : Option Nat) a =>
    match m with
    | some b => some (Nat.min a b)
    | none => some a) none

/-- Nothing but slots stands in a record's way on its own clusters: cluster arrays, a context region, power (R115, R299). -/
def roomFor (s : State) (r : LRec) : Bool :=
  cspRoom s r && (regionFor s r).isSome && !(rectClusters r.rect).any (s.reg.gated.contains ·)

/-- A record of higher priority waits for slots of the rectangle (R299). -/
def outranked (s : State) (r : LRec) : Bool :=
  (serviceOrder s).any fun q => decide (r.prio < q.2.prio) && slotsLack s q.2 && rectsMeet r.rect q.2.rect

/-- A record of higher priority than p waits for slots of a core, or is about to take them (R299). -/
def recordAwaits (s : State) (p core : Nat) : Bool :=
  (serviceOrder s).any fun q =>
    decide (p < q.2.prio) && scopeHas q.2.rect core && roomFor s q.2 && (slotsLack s q.2 || !outranked s q.2)

/-- A switched-out thread that may run, and not one whose context CTXSAVE waits for or saves (R317). -/
def restorable (s : State) (t : Nat) : Bool :=
  let th := s.thr t
  let waited := match th.status with
    | .wait w => waitOver s t w
    | .retry (.ring f) => ringOpen s t f
    | _ => false
  th.isOut && (th.runnable || waited) && !s.saving t &&
    (match s.outPartner t with | some u => !s.saving u | none => true)

/-- A switched-out thread of priority p or more would take a slot of the rectangle (R317). -/
def threadFirst (s : State) (r : LRec) : Bool :=
  s.threads.any fun p => p.2.isOut && scopeHas r.rect p.2.core &&
    decide (r.prio ≤ (s.launchOf p.2.lid).prio) && restorable s p.1 && (s.slotFor p.2.core p.2.tile).isSome

/-- A record can be placed now. -/
def canPlace (s : State) (r : LRec) : Bool := roomFor s r && !slotsLack s r && !threadFirst s r && !outranked s r

/-- The threads that the engine pre-empts on one core for a record, if that gives it the slots: the lowest priority
first, then the highest slot first (R299). -/
def victims (s : State) (r : LRec) (core : Nat) : Option (List Nat) :=
  let here := s.resident.filter fun p => p.2.core == core && !(s.coreOf core).disabled.getLsbD p.2.slot
  let leaving := (here.filter fun p => p.2.cutReq == some .preempt).map fun p => p.2.slot
  let cand := [0, 1, 2].flatMap fun (k : Nat) => ((List.range 16).reverse).filterMap fun i =>
    here.find? fun p => p.2.slot == i && p.2.cutReq != some .preempt && (s.launchOf p.2.lid).prio == k && decide (k < r.prio)
  let (free, out) := cand.foldl (fun (acc : List Nat × List Nat) p =>
    if slotsFit r acc.1 || (decide (8 ≤ p.2.slot) && decide (r.nt ≤ acc.1.length)) then acc
    else (p.2.slot :: acc.1, p.1 :: acc.2)) (s.freeSlots core ++ leaving, [])
  if slotsFit r free then some out else none

/-- Asks for the pre-emptions that give a record its slots, where nothing else stands in its way. -/
def preemptFor (s : State) (r : LRec) : State :=
  if r.prio = 0 ∨ !roomFor s r ∨ outranked s r then s
  else
    match (rectCores r.rect).mapM (victims s r) with
    | some l => l.flatten.foldl askPreempt s
    | none => s

/-! ## Placing (R20, R115, R301) -/

/-- JSATP as a thread can hold it: a mode that satp does not take leaves it at reset (R326). -/
def startSatp (w : Word) : Word := if bits w 63 60 = 0 ∨ bits w 63 60 = 11 then w &&& 0xFFFFF0FFFFFFFFFF else 0
def startStvec (w : Word) : Word := if 2 ≤ bits w 1 0 then w &&& ~~~(3 : Word) else w

/-- The registers with which a thread starts (R301, R324). -/
def startRegs (s : State) (r : LRec) (tasks : Option TaskList) (index : Nat) : Regs :=
  { Regs.reset with
    pc := r.entry
    x := (Regs.reset.x.set 10 r.args).set 11 (BitVec.ofNat 64 index)
    tasks := tasks
    csr := { Csrs.reset with
      chunkLen := r.chunkLen, chunkCur := r.chunkLen, stealdom := r.stealdom, launchkey := r.key
      satp := startSatp s.reg.jsatp, stvec := startStvec s.reg.jstvec } }

/-- THREAD_START: thread i of a launch on a core, in the slot of R20. -/
def startThread (r : LRec) (tasks : Option TaskList) (lid core : Nat) (s : State) (i : Nat) : State :=
  let tile := decide (i < r.tt)
  match s.slotFor core tile with
  | none => s
  | some slot =>
    let index := rectIndex r.rect core * r.nt + i
    let regs := startRegs s r tasks index
    let th := { Thread.reset with
      loc := .slot, lid := lid, tIndex := i, lindex := index, placeCore := core, core := core, slot := slot, tile := tile
      regs := regs, chunk := Chunk.fresh s.nextUid regs, nextIssue := s.cycle }
    { s.setThr s.nextTid th with nextTid := s.nextTid + 1, nextUid := s.nextUid + 1 }

/-- A core on which no other launch lives starts with its crossbar at reset (R241). -/
def freshCore (s : State) (core : Nat) : State :=
  if s.launches.any fun l => scopeHas l.2.rect core then s
  else s.modCore core fun c => { c with evcnt := Core.reset.evcnt, evterm := Core.reset.evterm }

/-- CSP of the clusters of a rectangle reads zero (R115). -/
def clearCsp (s : State) (rect : Word) : State :=
  let ks := rectClusters rect
  { s with mem := s.mem.filter fun e => !(decide (2 ^ 55 ≤ e.1) && ks.contains ((e.1 - 2 ^ 55) / 2 ^ 23)) }

/-- Places the head record of a queue: the launch and its threads (R299, R301). -/
def placeRecord (s : State) (k : Nat) (r : LRec) : State :=
  let tasks := if r.tlist = 0 then none else (recordList s r).map taskListOf
  let lid := s.nextLid
  let l : Launch := { Launch.reset with
    entry := r.entry, args := r.args, rect := r.rect, chunkLen := r.chunkLen, csp := r.csp
    det := r.ctl.getLsbD 14, prio := r.prio, tt := r.tt, nt := r.nt, stealdom := r.stealdom, launchkey := r.key
    doneAddr := r.done, tlist := r.tlist, launchId := BitVec.ofNat 16 lid, queue := k
    recno := (s.queueOf k).qhead, region := (regionFor s r).getD 0 }
  let s := if r.csp = 0 then s else clearCsp s r.rect
  let s := (rectCores r.rect).foldl freshCore s
  let first := !s.launches.any fun m => m.2.launchkey == r.key
  let s := { s with
    launches := tabSet s.launches lid l
    nextLid := lid + 1
    lastServed := k
    gvts := if first then tabDel s.gvts r.key.toNat else s.gvts }
  let s := s.modQueue k fun q => { q with qhead := q.qhead + 1, fetched := q.fetched.drop 1 }
  (rectCores r.rect).foldl (fun s c =>
    (List.range r.nt).foldl (startThread r tasks lid c) (s.modCore c fun k => { k with
      l1i := [], flips := k.flips.filter fun f => f.array != 1 })) s

/-- LAUNCH_PLACEMENT: heads are checked, the first that can be placed is placed, and for the others the engine asks for
pre-emptions (R299, R300). -/
def execLaunchPlacement (s : State) : Out :=
  event (
    let s := (List.range 64).foldl checkHead s
    match (serviceOrder s).find? fun q => canPlace s q.2 with
    | some (k, r) => placeRecord s k r
    | none => (serviceOrder s).foldl (fun s q => if slotsLack s q.2 then preemptFor s q.2 else s) s)

/-! ## Pre-emption (R85, R287, R316, R321) -/

/-- A thread has nothing under way: its chunk is empty and its older one committed, and its results have returned. -/
def settled (s : State) (t : Nat) : Bool :=
  let th := s.thr t
  th.older.isNone && th.chunk.count == 0 && th.results.isEmpty

/-- Cuts a thread that is to be pre-empted at its boundary (R287, R316). -/
def preemptCut (s : State) (t : Nat) : State :=
  let th := s.thr t
  if th.regs.inRewrite then leaveRewrite s t false
  else if th.chunk.count = 0 ∨ th.older.isNone then (putBackWaiting s t).cutChunk t 15
  else s

/-- The cores of a disabled slot's cluster to which its thread may go, coolest first (R320, R321). -/
def coolCores (s : State) (core : Nat) : List Nat :=
  let w := (s.coreOf core).thermrank
  if !w.getLsbD 0 then []
  else
    let k := clusterOf core
    (memRead s.mem (bits w 55 6 * 64 + 8 * k) 8).map fun b => (clusterCores k).getD (b.toNat % 8) core

/-- The place that a thread, or a bound pair, finds on one of some cores. -/
def findPlace (s : State) (tile pair : Bool) (cores : List Nat) : Option (Nat × Nat) :=
  cores.findSome? fun c => (if pair then s.pairSlot c else s.slotFor c tile).map fun k => (c, k)

/-- Puts a thread and its partner into the slots found for them. -/
def enterPlace (s : State) (t : Nat) (u : Option Nat) (core slot : Nat) : State :=
  match u with
  | none => intoSlot s t core slot
  | some u =>
    let (e, a) := if (s.thr t).slot < 8 then (t, u) else (u, t)
    let old := (s.thr e).core
    pairIn (intoSlot (intoSlot s e core slot) a core (slot + 8)) e old core slot

/-- Whether a thread that leaves its slot is runnable at once: it has no wait but the token's (R317). -/
def noWait (th : Thread) : Bool :=
  match th.status with
  | .wait _ => false
  | .retry (.ring _) => false
  | _ => true

/-- A context is read for its slot: from the TCC, or failing that from the context area (R317, R339). -/
def bringContext (s : State) (t : Nat) : State :=
  if (s.thr t).loc = .area then areaIn s t else tccErrors s t (s.thr t).core

/-- A thread that is out enters a slot, with its partner; fossil collection that it missed follows (R273, R317). -/
def comeBack (s : State) (t : Nat) (u : Option Nat) (core slot : Nat) : State :=
  let s := bringContext s t
  let s := match u with | some u => bringContext s u | none => s
  if (s.thr t).isOut then
    let s := collectOnReturn (enterPlace s t u core slot) t
    match u with | some u => collectOnReturn s u | none => s
  else s

/-- The context of a settled thread, and of its partner, leaves: to the TCC, and from a disabled slot under THERMRANK.EN on
to a cooler core (R316, R321). -/
def leaveSlot (s : State) (t : Nat) (u : Option Nat) : State :=
  let th := s.thr t
  let dis := fun (v : Nat) => (s.coreOf (s.thr v).core).disabled.getLsbD (s.thr v).slot
  let hot := dis t || (match u with | some u => dis u | none => false)
  let s := match u with
    | none => toTcc s t (noWait th)
    | some u => pairOut (toTcc (toTcc s t (noWait th)) u (noWait (s.thr u))) (if th.slot < 8 then t else u)
  match (if hot then findPlace s th.tile u.isSome (coolCores s th.core) else none) with
  | some (c, k) => comeBack s t u c k
  | none => s

/-- PREEMPTION of a thread that is asked to leave, with its bound partner; a debug halt holds it back (R85, R316, R365). -/
def execPreemption (t : Nat) (s : State) : Out :=
  event (
    let th := s.thr t
    if th.loc != .slot || th.cutReq != some .preempt || (s.coreOf th.core).halted then s
    else
      match s.partner t with
      | none =>
        let s := preemptCut s t
        if settled s t then leaveSlot s t none else s
      | some u =>
        let s := preemptCut (preemptCut (askPreempt s u) t) u
        if settled s t && settled s u then leaveSlot s t (some u) else s)

/-! ## Restoring (R299, R317, R321) -/

/-- CONTEXT_RESTORE: a runnable thread enters a free slot of its kind on the core where it last ran, or, after its slot was
disabled, on a cooler one; its bound partner comes with it. A record of higher priority goes first. -/
def execContextRestore (t : Nat) (s : State) : Out :=
  event (
    let th := s.thr t
    let u := s.outPartner t
    let may := restorable s t || (match u with | some u => restorable s u | none => false)
    let cores := th.core :: (if (s.coreOf th.core).disabled.getLsbD th.slot then coolCores s th.core else [])
    let cores := cores.filter fun c => !recordAwaits s (s.launchOf th.lid).prio c && !s.reg.gated.contains (clusterOf c)
    if !may || s.reg.d3hot || !th.isOut then s
    else
      match findPlace s th.tile u.isSome cores with
      | none => s
      | some (c, k) => comeBack s t u c k)

/-! ## Slots (R321) -/

/-- Disables a slot; the thread in it is pre-empted. -/
def disableSlot (s : State) (core slot : Nat) : State :=
  let s := s.modCore core fun c => { c with disabled := c.disabled ||| BitVec.ofNat 16 (2 ^ slot) }
  match s.inSlot core slot with
  | some t => askPreempt s t
  | none => s

/-- SLOT_DISABLE: from slot 15 down. -/
def execSlotDisable (core slot : Nat) (s : State) : Out :=
  event (
    let d := (s.coreOf core).disabled
    let above := (List.range 16).all fun i => decide (i ≤ slot) || d.getLsbD i
    if core < Config.coreCount ∧ slot < 16 ∧ above ∧ !d.getLsbD slot then disableSlot s core slot else s)

/-- SLOT_ENABLE: in the reverse order. -/
def execSlotEnable (core slot : Nat) (s : State) : Out :=
  event (
    let d := (s.coreOf core).disabled
    let below := (List.range slot).any fun i => d.getLsbD i
    if slot < 16 ∧ d.getLsbD slot ∧ !below then
      s.modCore core fun c => { c with disabled := c.disabled &&& ~~~(BitVec.ofNat 16 (2 ^ slot)) }
    else s)

/-! ## The vector arbiter and the TCC (R315, R318) -/

/-- A window of the vector arbiter begins: every thread with a nonempty vector queue gains its share of 16 grants (R315). -/
def vectorWindow (s : State) (core : Nat) : State :=
  let here := s.resident.filter fun p => p.2.core == core
  let busy := fun (th : Thread) => th.results.any fun r => r.vec
  let sum := (here.filter fun p => busy p.2).foldl (fun n p => n + p.2.regs.csr.vshare.toNat) 0
  here.foldl (fun (s : State) p => s.modThr p.1 fun th =>
    { th with credit := if busy th then Nat.min 16 (th.credit + 16 * th.regs.csr.vshare.toNat / Nat.max 1 sum) else 0 }) s

/-- VECTOR_WINDOW; the clock of a core begins one every 16 cycles. -/
def execVectorWindow (core : Nat) (s : State) : Out := event (vectorWindow s core)

/-- TCC_FLUSH (R318). -/
def execTccFlush (core : Nat) (s : State) : Out := event (s.flushTcc core)

/-! ## TMARK at commit (R374) -/

/-- TMARK with OP 0 or 3 to 15, 1, and 2, where a committed write of it takes effect. -/
def execTmarkMark (t : Nat) (v : Word) (s : State) : Out :=
  event (if bits v 63 60 ≠ 1 ∧ bits v 63 60 ≠ 2 ∧ (s.thr t).loc = .slot then applyTmark s t v else s)
def execTmarkStart (t : Nat) (v : Word) (s : State) : Out :=
  event (if bits v 63 60 = 1 ∧ (s.thr t).loc = .slot then applyTmark s t v else s)
def execTmarkStop (t : Nat) (v : Word) (s : State) : Out :=
  event (if bits v 63 60 = 2 ∧ (s.thr t).loc = .slot then applyTmark s t v else s)

end Sys2Proof.Machine
end

