-- ==== Sys2Proof/Machine/Interrupts.lean ====
section
/-!
DEFINITION. Interrupts and their sources (23_faults R327, R330, R332, R333).
-/
namespace Sys2Proof.Machine

/-- The cause of the interrupt that a thread takes: SEI, SSI, STI, LERR in that order, where U mode or SIE lets it
(R327). -/
def interruptCause (s : State) (t : Nat) : Option Nat :=
  let r := (s.thr t).regs
  let w := sipWord { s with cur := t } &&& r.csr.sie
  if r.smode && !r.csr.sstatus.getLsbD 1 then none
  else [9, 1, 5, 16].find? fun i => w.getLsbD i

/-- The thread stands at an instruction boundary where an interrupt can be taken: a wait between two chunks is not one,
but for WFI's (R103, R327; log 43). -/
def atBoundary (s : State) (t : Nat) : Bool :=
  let th := s.thr t
  th.loc == .slot && !th.exiting && !(s.coreOf th.core).halted &&
    match th.status with
    | .wait .wfi => true
    | .wait _ => false
    | _ => true

/-- A late refusal or a rollback goes before an interrupt (R332). -/
def earlierEvent (th : Thread) : Bool :=
  (!th.farLate.isEmpty && !th.regs.smode) || rollbackReady th || rollbackStops th

/-- Takes an interrupt: results return, its rewrite squashes, the chunk is cut with code 14 once the older one has
committed, and the handler starts (R28, R35, R287, R330). -/
def takeInterrupt (s : State) (t cause : Nat) : State :=
  let th := s.thr t
  if !th.results.isEmpty then s
  else if th.regs.inRewrite then
    let s := (leaveRewrite s t false).cutChunk t 14
    enterHandler s t true cause 0 (s.thr t).regs.pc
  else if th.chunk.count != 0 && th.older.isSome then s
  else enterHandler ((putBackWaiting s t).cutChunk t 14) t true cause 0 th.regs.pc

/-- INTERRUPT (R327, R330). -/
def execInterrupt (t : Nat) (s : State) : Out :=
  event (match interruptCause s t with
    | some c => if atBoundary s t && !earlierEvent (s.thr t) then takeInterrupt s t c else s
    | none => s)

/-- SEI_CHANGE: the management processor sets or clears SEIP. -/
def execSeiChange (t : Nat) (on : Bool) (s : State) : Out := event (s.modThr t fun th => { th with seip := on })

/-- STI_TIMER: its timer for the thread sets or clears STIP. -/
def execStiTimer (t : Nat) (on : Bool) (s : State) : Out := event (s.modThr t fun th => { th with stip := on })

/-- MP_WAKE: SSIP is set from outside the thread, so no squash takes it back. -/
def execMpWake (t : Nat) (s : State) : Out :=
  let set := fun (r : Regs) => { r with csr := { r.csr with ssip := true } }
  let mark := fun (c : Chunk) => { c with start := set c.start }
  event (s.modThr t fun th => { th with regs := set th.regs, chunk := mark th.chunk, older := th.older.map mark })

end Sys2Proof.Machine
end

