-- ==== Sys2Proof/Machine/HostEvents.lean ====
section
/-!
DEFINITION. What the host and the links do: snoops, CXL.mem, bias flips, a failed host agent, ports
(09_ordering R153, R154, 23_faults R340, 25_system R350, R351).
-/
namespace Sys2Proof.Machine

/-- The bytes that an agent writes lie in one line. -/
def inLine (pa : Nat) (bs : List Byte) : Bool := !bs.isEmpty && decide (pa % 64 + bs.length ≤ 64)

/-- A committed chunk's write-through of a line has not been applied everywhere, so snoops of it wait (R153). -/
def writeThrough (s : State) (line : Nat) : Bool :=
  (s.bcasts.any fun b => b.lines.contains line) ||
    s.threads.any fun p => match p.2.older with | some c => !c.inFlight && c.wlines.contains line | none => false

/-- Bytes written by the host at a line's home; a whole line clears its poison (R340). -/
def hostWrite (s : State) (pa : Nat) (bs : List Byte) : State :=
  { s with
    mem := memWrite s.mem pa bs
    poison := if bs.length = 64 then s.poison.filter (· != pa / 64) else s.poison }

/-- A snoop of a line: device copies go and chunks that read it squash; a writing host's bytes follow (R140, R153). -/
def snoopLine (s : State) (pa : Nat) (data : Option (List Byte)) : State :=
  match data with
  | some bs => invalidateAll (hostWrite s pa bs) pa bs.length
  | none => invalidateAll s (pa / 64 * 64) 64

/-- The agent holds its answer to a snoop of a line: a committed chunk's write-through of it is on its way, invalidations
that the line's home has sent before are, or it is in the token holder's read or write set (R38, R141, R153). -/
def snoopHeld (s : State) (pa : Nat) : Bool :=
  writeThrough s (pa / 64) || deferredAny s (pa / 64 * 64) 64 || s.invals.any (fun v => v.home == s.homeOf (pa / 64 * 64)) ||
    match s.token with
    | some t => (s.thr t).loc == .slot && (s.thr t).chunks.any fun c => c.inFlight && c.token && c.wlines.contains (pa / 64)
    | none => false

/-- HOST_SNOOP of a host line, or of a line of a host-bias page (R153, R154). While a cut is taken host writes to HDM wait
(R361). -/
def execHostSnoop (pa : Nat) (data : Option (List Byte)) (s : State) : Out :=
  let ok := match data with | some bs => inLine pa bs | none => true
  let held := s.paused && data.isSome && s.placeOf pa == .own
  event (if !s.isHost pa || !ok || s.flipWait pa || held || snoopHeld s pa then s else snoopLine s pa data)

/-- HOST_CXL_MEM_ACCESS: on a page in device bias the access is performed at the line's home; in host bias the device's
copies are snooped first (R154). Before PHASE 4 the request fails (R377). While a cut is taken writes wait (R361). -/
def execHostCxlMemAccess (pa : Nat) (data : Option (List Byte)) (s : State) : Out :=
  event (
    if s.placeOf pa ≠ .own ∨ s.reg.phase ≠ 4 ∨ s.flipWait pa ∨ (s.paused ∧ data.isSome) then s
    else
      let ok := match data with | some bs => inLine pa bs | none => true
      if !ok then s
      else if s.isHost pa then
        if snoopHeld s pa then s
        else
          let s := snoopLine s pa data
          if data.isSome then s else if s.bankBusy pa then s.waitAt .host pa else hostReadLine s pa
      else
        match data with
        | none => if s.bankBusy pa then s.waitAt .host pa else hostReadLine s pa
        | some bs =>
          let s := agentWrite s noThread pa bs
          { s with poison := if bs.length = 64 then s.poison.filter (· != pa / 64) else s.poison })

/-! ## Bias flips (R154, R350) -/

/-- The page that the bias control block names. -/
def flipPage (s : State) : Nat := s.devPa (bits s.reg.biasReg 39 12 * 4096) / 4096

/-- Starts the flip that the block describes; one to the bias the page has completes at once. -/
def startFlip (s : State) : State :=
  let p := flipPage s
  let host := s.reg.biasReg.getLsbD 1
  if s.flipping.isSome || s.hostBias.contains p == host then s
  else { s with flipping := some (p, host), reg := { s.reg with biasReg := s.reg.biasReg ||| 1 } }

/-- BIAS_FLIP: GO is written with the page and the target that the block holds. -/
def execBiasFlip (s : State) : Out := blockEvent s (startFlip s)

/-- A span touches a page. -/
def touchesPage (page pa n : Nat) : Bool := decide (pa < (page + 1) * 4096) && decide (page * 4096 < pa + n)

/-- Accesses of the device to a page are still on their way (R154). -/
def pageBusy (s : State) (page : Nat) : Bool :=
  (s.sentActs.any fun a => match a with
    | .farGroup _ _ _ _ _ => false
    | a => a.meets (page * 4096) 4096) ||
  (s.invals.any fun v => touchesPage page v.pa v.len) ||
  (s.bcasts.any fun b => b.lines.any fun l => l / 64 == page) ||
  (s.threads.any fun p => match p.2.older with | some c => !c.inFlight && c.wlines.any fun l => l / 64 == page | none => false)

/-- A page that a command holds has a physical page in it, whose bias it must look up again (R343). -/
def Held.touches (h : Held) (page : Nat) : Bool := touchesPage page h.pbase (2 ^ h.bits)

/-- BIAS_FLIP_COMPLETE: the losing side's accesses have completed and its copies go; the bit changes (R154). -/
def execBiasFlipComplete (s : State) : Out :=
  event (match s.flipping with
    | none => s
    | some (p, host) =>
      if pageBusy s p || (host && deferredAny s (p * 4096) 4096) then s
      else
        let s := if host then invalidateAll s (p * 4096) 4096 else s
        { s with
          flipping := none
          cmds := s.cmds.map fun (c : Command) => { c with held := c.held.filter fun h => !h.touches p }
          hostBias := if host then addNew p s.hostBias else s.hostBias.filter (· != p)
          reg := { s.reg with biasReg := s.reg.biasReg &&& ~~~(1 : Word) } })

/-- HOST_AGENT_FAILURE: the only modified copy of a line of a host-bias page is lost (R340). -/
def execHostAgentFailure (pa : Nat) (s : State) : Out :=
  event (if s.placeOf pa = .own ∧ s.hostBias.contains (pa / 4096) then { s with poison := addNew (pa / 64) s.poison } else s)

/-! ## Ports (R351) -/

/-- FLIT_CRC_REPLAY: a replay changes no content and no order. -/
def execFlitCrcReplay (_port : Nat) (s : State) : Out := event s

/-- PORT_DOWN: the port's traffic moves to the others. -/
def execPortDown (port : Nat) (s : State) : Out :=
  event (if port < 12 then { s with reg := { s.reg with portsDown := s.reg.portsDown ||| BitVec.ofNat 12 (2 ^ port) } } else s)

end Sys2Proof.Machine
end

