-- ==== Sys2Proof/Machine/Debugger.lean ====
section
/-!
DEFINITION. The debug modules and the trace ring's host side (27_debug R364 to R373).
-/
namespace Sys2Proof.Machine

/-! ## State records (R368, R369) -/

/-- The state that a thread's record names (R368). -/
def stateCodeOf (th : Thread) : Nat :=
  if th.loc != .slot || th.halted then 3
  else
    match th.status with
    | .ready => 0
    | .retry w =>
      match w with
      | .queue | .reverse | .recvt | .pairEmpty => 1
      | .miss _ _ | .far _ | .scoreboard | .farRoom | .parked => 2
      | _ => 3
    | .wait w =>
      match w with
      | .recv _ _ _ | .recvs _ _ _ _ | .wfi => 1
      | .reservation _ _ _ _ _ => 2
      | _ => 3

/-- Records a change of state of a thread that logs (R369). -/
def logChange (s : State) (t : Nat) : State :=
  let th := s.thr t
  let c := stateCodeOf th
  if !s.traces t 0 || c == th.logState || th.loc == .exited || th.loc == .absent then s
  else
    let boundary := c != 0 && th.chunk.count == 0
    let s := addRecord s t c (if boundary then bits th.cutwhy 4 0 else 0) 0
    s.modThr t fun th => { th with logState := c }

/-- Records the changes of every thread that logs. -/
def logChanges (s : State) : State := s.threads.foldl (fun (s : State) p => logChange s p.1) s

/-! ## Halt and resume (R365, R366) -/

/-- Stops a thread of a halted core at its boundary: its rewrite squashes, its chunk is cut with code 19 as soon as the older
one has committed, and its records go out, that of the halt the last (R32, R287, R365, R369). -/
def haltThread (s : State) (t : Nat) : State :=
  let th := s.thr t
  if th.loc != .slot || th.halted || !(s.coreOf th.core).halted then s
  else
    let s := if th.regs.inRewrite then leaveRewrite s t false else s
    let th := s.thr t
    if th.chunk.count ≠ 0 ∧ th.older.isSome then s
    else
      let s := ((putBackWaiting s t).cutChunk t 19).modThr t fun th => { th with halted := true }
      flushCommits (flushLog (logChange s t) t) t

/-- Stops a core (R365). -/
def haltCore (s : State) (core : Nat) : State :=
  if (s.coreOf core).halted then s
  else
    let s := s.modCore core fun c => { c with halted := true }
    ((s.resident.filter fun p => p.2.core == core).map (·.1)).foldl haltThread s

/-- The cores that a module's CORES names. -/
def debugCores (s : State) (k : Nat) : List Nat :=
  let d := s.debugOf k
  ((clusterCores k).zipIdx.filter fun p => d.cores.getLsbD p.2).map (·.1)

/-- Halts one module. -/
def haltModule (s : State) (k : Nat) : State :=
  (debugCores s k).foldl haltCore (s.modDebug k fun d => { d with halt := true })

/-- A halt of a module, and by the Whistle of every module that listens (R365). -/
def haltCluster (s : State) (k : Nat) : State :=
  let s := haltModule s k
  if (s.debugOf k).whistle then
    ((s.debugs.filter fun p => p.2.whistle && p.1 != k).map (·.1)).foldl haltModule s
  else s

/-- DEBUG_HALT. -/
def execDebugHalt (cluster : Nat) (s : State) : Out := blockEvent s (if cluster < 168 then haltCluster s cluster else s)

/-- Puts a thread into a list by the order in which its chunk was cut. -/
def insertCut (s : State) (t : Nat) : List Nat → List Nat
  | [] => [t]
  | u :: us => if (s.thr t).chunk.uid < (s.thr u).chunk.uid then t :: u :: us else u :: insertCut s t us

/-- Resumes the halted cores of a module: held commit requests go in the order of the cuts (R366). -/
def resumeCluster (s : State) (k : Nat) : State :=
  let cores := (clusterCores k).filter fun c => (s.coreOf c).halted
  let ts := ((s.resident.filter fun p => cores.contains p.2.core).map (·.1))
  let held := (ts.filter fun t => match (s.thr t).older with | some c => c.heldReq | none => false).foldr (insertCut s) []
  let s := { s with requests := s.requests ++ held }
  let s := ts.foldl (fun (s : State) t => s.modThr t fun th => { th with
    halted := false, older := th.older.map fun c => { c with heldReq := false } }) s
  let s := cores.foldl (fun (s : State) c => s.modCore c fun q => { q with halted := false }) s
  s.modDebug k fun d => { d with halt := false }

/-- DEBUG_RESUME. -/
def execDebugResume (cluster : Nat) (s : State) : Out := blockEvent s (if cluster < 168 then resumeCluster s cluster else s)

/-! ## DMDATA and DMMEM (R364, R367) -/

/-- The thread that a module selects, on a core that is halted. -/
def selectedThread (s : State) (k : Nat) : Option Nat :=
  let w := (s.debugOf k).sel
  let core := (clusterCores k).getD (bits w 19 17) 0
  if (s.coreOf core).halted then s.inSlot core (bits w 16 13) else none

/-- FILE, number and 64-bit word of the register selected (R364). -/
def selectedReg (s : State) (k : Nat) : Nat × Nat × Nat :=
  let d := s.debugOf k
  (bits d.sel 12 10, bits d.addr 11 0, bits d.sel 31 24)

/-- Word w of a number. -/
def word64 (v w : Nat) : Word := BitVec.ofNat 64 (v / 2 ^ (64 * w))

/-- A number with its word w replaced. -/
def putWord64 (v w : Nat) (x : Word) : Nat := v - v / 2 ^ (64 * w) % 2 ^ 64 * 2 ^ (64 * w) + x.toNat * 2 ^ (64 * w)

/-- The pending marks as a bit map over the register names of R27. -/
def marksNat (l : List RegName) : Nat := (List.range 192).foldl (fun n i => n + b2n (l.any fun r => regCode r == i) * 2 ^ i) 0

/-- The register of a name's number (R27). -/
def regOfCode (i : Nat) : Option RegName :=
  match i / 32 with
  | 0 => some (.x (BitVec.ofNat 5 i))
  | 1 => some (.v (BitVec.ofNat 5 i))
  | 2 => if i % 32 < 8 then some (.p (BitVec.ofNat 3 i)) else none
  | 3 => if i % 32 < 8 then some (.tl (BitVec.ofNat 3 i)) else none
  | 4 => if i % 32 < 4 then some (.ta (BitVec.ofNat 2 i)) else none
  | 5 => if i % 32 < 8 then some (.g (BitVec.ofNat 3 i)) else none
  | _ => none

/-- The register selected in files 0 to 5, with its size in words. -/
def fileReg (file num : Nat) : Option (RegName × Nat) :=
  match (if num < 32 ∧ file < 6 then regOfCode (32 * file + num) else none) with
  | some r => some (r, regSize r / 8)
  | none => none

/-- A register as a number; a tile's scale side lies above its bytes (R335). -/
def regNat (r : Regs) : RegName → Nat
  | .x n => (r.getX n).toNat
  | .v n => (r.getV n).toNat
  | .p n => (r.getP n).toNat
  | .tl n => (r.getTl n).bytes.toNat + (r.getTl n).side.toNat * 2 ^ 8192
  | .ta n => (r.getTa n).toNat
  | .g n => (r.getG n).toNat

/-- Writes a register from a number. -/
def putNat (r : Regs) (n : RegName) (v : Nat) : Regs :=
  match n with
  | .x n => r.putX n (BitVec.ofNat 64 v)
  | .v n => r.putV n (BitVec.ofNat 512 v)
  | .p n => r.putP n (BitVec.ofNat 64 v)
  | .tl n => r.putTl n ⟨BitVec.ofNat 8192 v, BitVec.ofNat 256 (v / 2 ^ 8192)⟩
  | .ta n => r.putTa n (BitVec.ofNat 8192 v)
  | .g n => r.putG n (BitVec.ofNat 256 v)

/-- The CSR exists for the thread, to the debugger as to S mode. -/
def debugCsr (s : State) (t n : Nat) (writes : Bool) : Bool :=
  let s := ({ s with cur := t }).modRegs fun r => { r with smode := true }
  decide (n < 4096) && !csrIllegal s (BitVec.ofNat 12 n) writes

/-- What DMDATA reads; none where the access fails. -/
def debugRead (s : State) (k : Nat) : Option Word :=
  match selectedThread s k with
  | none => none
  | some t =>
    let (file, num, w) := selectedReg s k
    let r := (s.thr t).regs
    if file = 6 then (if debugCsr s t num false then some (csrRead { s with cur := t } (BitVec.ofNat 12 num)) else none)
    else if file = 7 then
      (if num = 0 then some r.pc else if num = 1 ∧ w < 3 then some (word64 (marksNat r.marks) w) else none)
    else match fileReg file num with
      | some (n, words) => if w < words then some (word64 (regNat r n) w) else none
      | none => none

/-- Does something in the held chunk of a thread: the chunk that the halt cut, where there is one; its reach follows the
lines it now has (R136, R367). -/
def inHeld (s : State) (t : Nat) (f : State → State) : State :=
  let go := fun (s : State) => s.asThread t f
  match (s.thr t).older with
  | some c =>
    if c.heldReq then
      let next := (s.thr t).chunk
      let s := go (s.modThr t fun th => { th with chunk := c, older := none })
      s.modThr t fun th => { th with
        chunk := { next with start := th.regs }, older := some { th.chunk with reach := reachOf s th.core th.chunk } }
    else go s
  | none => go s

/-- What DMDATA writes, with first-write capture; none where the access fails. -/
def debugWrite (s : State) (k : Nat) (v : Word) : Option State :=
  match selectedThread s k with
  | none => none
  | some t =>
    let (file, num, w) := selectedReg s k
    if file = 6 then
      let csr := fun (s : State) => csrWrite s (BitVec.ofNat 12 num) v
      if !debugCsr s t num true then none
      else match csr { s with cur := t } with
        | .ok _ => some (inHeld s t fun s => match csr s with | .ok s => s | .error _ => s)
        | .error _ => none
    else if file = 7 then
      if num = 0 then some (inHeld s t fun s => s.setPc v)
      else if num = 1 ∧ w < 3 then
        let set := fun (s : State) =>
          let n := putWord64 (marksNat s.th.regs.marks) w v
          (s.capture .marks).modRegs fun r => { r with marks := (List.range 192).filterMap fun i => if n.testBit i then regOfCode i else none }
        some (inHeld s t set)
      else none
    else match fileReg file num with
      | some (n, words) =>
        if w < words then
          some (inHeld s t fun s =>
            if realReg n then (s.capture (.reg n)).modRegs fun r => putNat r n (putWord64 (regNat r n) w v) else s)
        else none
      | none => none

/-- Records the outcome of a DMDATA or DMMEM access (R364). -/
def debugDone (s : State) (k : Nat) (failed : Bool) (f : Debug → Debug) : State :=
  s.modDebug k fun d => { f d with dmerr := failed }

/-- DMDATA_READ. -/
def readDmdata (s : State) (k : Nat) : State :=
  match debugRead s k with
  | some v => debugDone s k false fun d => { d with data := v }
  | none => debugDone s k true fun d => { d with data := 0 }
def execDmdataRead (cluster : Nat) (s : State) : Out := blockEvent s (readDmdata s cluster)

/-- DMDATA_WRITE. -/
def writeDmdata (s : State) (k : Nat) (v : Word) : State :=
  match debugWrite s k v with
  | some s => debugDone s k false fun d => { d with data := v }
  | none => debugDone s k true id
def execDmdataWrite (cluster : Nat) (v : Word) (s : State) : Out := blockEvent s (writeDmdata s cluster v)

/-- The physical address of DMADDR for an access, in the selected thread's translation: an error is false where the access
fails, and true where it waits for a page that is being flipped or a bank that is being refreshed (R126, R154, R364). -/
def debugPa (s : State) (k : Nat) (acc : Acc) : Except Bool (Nat × Nat) :=
  match selectedThread s k with
  | none => .error false
  | some t =>
    let va := (s.debugOf k).addr.toNat
    if va % 8 ≠ 0 ∨ 2 ^ 56 ≤ va then .error false
    else match translate s (s.thr t).core (some t) ({ s with cur := t }).who acc va with
      | .ok (_, pa, _) => if acc == .load && s.bankBusy pa then .error true else .ok (t, pa)
      | .error .flip => .error true
      | .error (.bank _) => .error true
      | .error _ => .error false

/-- An access through DMMEM waits: it is made once the page or the bank is free. -/
def debugWaits (s : State) (k : Nat) (acc : Acc) : Bool := match debugPa s k acc with | .error w => w | .ok _ => false

/-- DMMEM_READ: VIEW 0 the committed value, VIEW 1 the thread's. -/
def readDmmem (s : State) (k : Nat) : State :=
  match debugPa s k .load with
  | .ok (t, pa) =>
    if s.poison.contains (pa / 64) then debugDone s k true fun d => { d with mem := 0 }
    else
      let bs := if (s.debugOf k).view then ({ s with cur := t }).view pa 8 else (List.range 8).map fun i => s.homeByte (pa + i)
      debugDone s k false fun d => { d with mem := BitVec.ofNat 64 (leNat bs) }
  | .error true => s
  | .error false => debugDone s k true fun d => { d with mem := 0 }
def execDmmemRead (cluster : Nat) (s : State) : Out := blockEvent s (readDmmem s cluster)

/-- The chunk that a debugger's write joins (R367). -/
def heldChunk (th : Thread) : Chunk :=
  match th.older with
  | some c => if c.heldReq then c else th.chunk
  | none => th.chunk

/-- DMMEM_WRITE: VIEW 0 a relaxed store performed at its home, VIEW 1 a plain write of the held chunk. A write that would
have to cut the chunk fails (R134). -/
def writeDmmem (s : State) (k : Nat) (v : Word) : State :=
  let bs := leBytes 8 v.toNat
  match debugPa s k .store with
  | .ok (t, pa) =>
    if !(s.debugOf k).view then debugDone (agentWrite s noThread pa bs) k false fun d => { d with mem := v }
    else if (heldChunk (s.thr t)).relaxedMeets pa 8 then debugDone s k true id
    else
      let s := inHeld s t fun s => s.specWrite pa (s.debugOf k).addr.toNat bs
      debugDone s k false fun d => { d with mem := v }
  | .error true => s
  | .error false => debugDone s k true id
def execDmmemWrite (cluster : Nat) (v : Word) (s : State) : Out := blockEvent s (writeDmmem s cluster v)

/-! ## The trace ring (R369, R372, R373) -/

/-- STATE_PACKET_FLUSH, 4,096 reference cycles after the first record (R369). -/
def execStatePacketFlush (t : Nat) (s : State) : Out :=
  event (if !(s.thr t).log.isEmpty && decide ((s.thr t).logStart + 4096 ≤ s.cycle) then flushLog s t else s)

/-- Packets that waited take the slots that are free, oldest first (R373). -/
def drainTrace : Nat → State → State
  | 0, s => s
  | n + 1, s =>
    match s.trace.buf with
    | [] => s
    | bs :: rest =>
      if s.trace.free then
        let s := putPacket s bs
        drainTrace n { s with trace := { s.trace with buf := rest } }
      else s

/-- Slots have become free: after drops a LOSS packet takes the first, then the packets that waited follow (R373). -/
def settleTrace (s : State) : State :=
  let t := s.trace
  let s := if t.owed ≠ 0 ∧ t.free then
      let s := putPacket s (packetBytes s.cycle 0 255 0 6 [BitVec.ofNat 64 t.owed])
      { s with trace := { s.trace with owed := 0 } }
    else s
  drainTrace t.buf.length s

/-- TRRDPTR_WRITE: packets are consumed (R372). -/
def writeTrrdptr (s : State) (v : Word) : State :=
  let t := s.trace
  let n : BitVec 32 := v.setWidth 32
  if (t.wrptr - t.rdptr).toNat < (n - t.rdptr).toNat then s
  else settleTrace { s with trace := { t with rdptr := n } }
def execTrrdptrWrite (v : Word) (s : State) : Out := blockEvent s (writeTrrdptr s v)

end Sys2Proof.Machine
end

