-- ==== Sys2Proof/Machine/Power.lean ====
section
/-!
DEFINITION. Freeze, resets, bring-up and power (23_faults R341, 27_debug R376 to R378).
-/
namespace Sys2Proof.Machine

/-! ## Freeze (R376) -/

/-- Every clock stops; HBM enters self-refresh first. -/
def freeze (s : State) : State := { s with reg := { s.reg with frozen := true, selfRefresh := true } }
/-- FREEZE_SIGNAL. -/
def execFreezeSignal (s : State) : Out := event (freeze s)

/-- FREEZE_REGISTER_WRITE. -/
def writeFreeze (s : State) (v : Word) : State := if v = 0x46A5 then freeze s else s
def execFreezeRegisterWrite (v : Word) (s : State) : Out := blockEvent s (writeFreeze s v)

/-! ## Resets (R340, R376) -/

/-- Device reset: everything at its reset value but the memory given, the poison given and the module flash; the own domain
bit reads 1 (R352). The model's own agenda and count of free values go on (log 5, log 7). -/
def resetWith (s : State) (mem : Mem) (poison : List Nat) : State :=
  { State.reset with
    agenda := s.agenda, free := s.free, mem := mem, poison := poison
    reg := { Regs0.reset with
      ldb := s.reg.ldb, devnum := s.reg.devnum, flash := s.reg.flash
      domain := BitVec.ofNat 2048 (2 ^ s.reg.devnum.toNat) } }

/-- WARM_RESET keeps HBM and its poison; the cluster arrays lose CSP. -/
def execWarmReset (s : State) : Out := event (resetWith s (s.mem.filter fun e => decide (e.1 < 2 ^ 55)) s.poison)

/-- COLD_RESET keeps nothing in this device's HBM; host memory and the peers' are not the device's. -/
def execColdReset (s : State) : Out :=
  let other := fun (pa : Nat) => decide (pa < 2 ^ 55) && s.placeOf pa != .own
  event (resetWith s (s.mem.filter fun e => other e.1) (s.poison.filter fun l => other (l * 64)))

/-! ## Bring-up (R347, R348, R377) -/

/-- The signed configuration that bring-up applies: identity, base, timeouts, and the pool of context regions (R301, R348,
R377; log 31). The own domain bit is set (R352). -/
def configure (s : State) (ldb : BitVec 4) (conf : BootConfig) (imgErr : Bool) : State :=
  { s with reg := { s.reg with
      ldb := ldb, devnum := conf.devnum, imgErr := imgErr, farto := conf.farto, barto := conf.barto
      poolBase := conf.poolBase, poolSize := conf.poolSize, domain := BitVec.ofNat 2048 (2 ^ conf.devnum.toNat) } }

/-- BOOT, one phase at a time: the image is checked, and with no valid one the device stays in recovery; its configuration is
applied while HBM and links train; the cores are tested, and the device is ready (R377). -/
def execBoot (ldb : BitVec 4) (conf : BootConfig) (imgErr recovery : Bool) (offline : List Nat) (s : State) : Out :=
  let to_ := fun (s : State) (p : BitVec 4) => { s with reg := { s.reg with phase := p } }
  event (
    match s.reg.phase.toNat with
    | 0 => to_ s 1
    | 1 =>
      if recovery then to_ s 15
      else if 8 < ldb.toNat then s
      else to_ (configure s ldb conf imgErr) 2
    | 2 => to_ s 3
    | 3 =>
      let off := (offline.filter fun c => decide (c < Config.coreCount)).eraseDups
      to_ { s with reg := { s.reg with offline := off } } 4
    | _ => s)

/-- FLASH_WINDOW_WRITE: a doubleword of the window; the image takes effect at the next reset (log 51). -/
def writeFlash (s : State) (off : Nat) (v : Word) : State :=
  if off < 65536 ∧ off % 8 = 0 then { s with reg := { s.reg with flash := tabSet s.reg.flash off v } } else s
def execFlashWindowWrite (off : Nat) (v : Word) (s : State) : Out := event (writeFlash s off v)

/-! ## Power (R341, R378) -/

/-- PWRCAP_WRITE. -/
def writePwrcap (s : State) (v : Word) : State :=
  let c := bits v 15 0
  let c := if c = 0 then 0 else if c < 800 then 800 else if 3200 < c then 3200 else c
  { s with reg := { s.reg with cap := BitVec.ofNat 16 c } }
def execPwrcapWrite (v : Word) (s : State) : Out := blockEvent s (writePwrcap s v)

/-- The highest slot of a core that is enabled. -/
def topSlot (s : State) (core : Nat) : Option Nat :=
  ((List.range 16).reverse).find? fun i => !(s.coreOf core).disabled.getLsbD i

/-- POWER_THROTTLE: the clock falls in steps of 100 MHz to 1,200 MHz; then slots are disabled, on a core that a free value
names (log 7). -/
def execPowerThrottle (s : State) : Out :=
  event (
    if 1200 < s.reg.clk.toNat then { s with reg := { s.reg with clk := s.reg.clk - 100 } }
    else
      let (w, s) := s.fresh
      let core := w.toNat % Config.coreCount
      match topSlot s core with
      | some i => disableSlot s core i
      | none => s)

/-- Every copy in the caches and TLBs of cores goes; modified host lines are at their homes already (R341; log 10). -/
def dropCopies (s : State) (cores : List Nat) : State :=
  let s := cores.foldl (fun (s : State) c => s.modCore c fun k => { k with
    l1 := [], l1i := [], tlb := [], flips := k.flips.filter fun f => decide (2 ≤ f.array) }) s
  { s with ctlbs := s.ctlbs.filter fun q => !cores.any fun c => clusterOf c == q.1 }

/-- The host lines of a cluster's L2 slice that cores hold (R119, R341). -/
def hostLinesAt (s : State) (cluster : Nat) : List Nat :=
  let held := s.activeCores.flatMap fun c =>
    ((s.coreOf c).l1.map fun e => e.1 / 64) ++ ((s.coreChunks c).filter (·.inFlight)).flatMap fun k => k.rlines ++ k.wlines
  held.eraseDups.filter fun l => s.isHost (l * 64) && s.homeOf (l * 64) == cluster

/-- CLUSTER_POWER_GATE of a cluster that holds no launch: the host lines of its slice are invalidated in every core, and
chunks that read them squash. It waits while an invalidation from there is on its way, or a token chunk holds one off (R38,
R141, R341). -/
def execClusterPowerGate (cluster : Nat) (s : State) : Out :=
  event (
    let lines := hostLinesAt s cluster
    let waits := s.invals.any (fun v => v.home == cluster) || lines.any fun l => deferredAny s (l * 64) 64
    if cluster < 168 ∧ (s.onCluster cluster).isEmpty ∧ !waits then
      let s := lines.foldl (fun s l => invalidateAll s (l * 64) 64) s
      let s := dropCopies s (clusterCores cluster)
      { s with reg := { s.reg with gated := addNew cluster s.reg.gated } }
    else s)

/-- CLUSTER_WAKE. -/
def execClusterWake (cluster : Nat) (s : State) : Out :=
  event (if s.reg.d3hot then s else { s with reg := { s.reg with gated := s.reg.gated.filter (· != cluster) } })

/-- D3HOT_ENTRY: resident threads are pre-empted, with their bound partners; when none is left their contexts are written to
their areas, every cluster is gated and HBM refreshes itself. -/
def execD3hotEntry (s : State) : Out :=
  event (
    if !s.resident.isEmpty then s.resident.foldl (fun (s : State) p => askPreempt s p.1) s
    else
      let cores := s.cores.map (·.1)
      let s := dropCopies (cores.foldl State.flushTcc s) cores
      { s with
        threads := s.threads.map fun (p : Nat × Thread) => (p.1, if p.2.loc == .tcc then { p.2 with loc := .area } else p.2)
        cores := s.cores.map fun (q : Nat × Core) => (q.1, { q.2 with tcc := [], flips := q.2.flips.filter fun f => f.array != 8 })
        reg := { s.reg with d3hot := true, selfRefresh := true, gated := List.range 168 } })

/-- D3HOT_EXIT: clusters wake, HBM leaves self-refresh, and contexts can be restored. -/
def execD3hotExit (s : State) : Out :=
  event (if s.reg.d3hot then { s with reg := { s.reg with d3hot := false, selfRefresh := false, gated := [] } } else s)

end Sys2Proof.Machine
end

