-- ==== Sys2Proof/Machine/Bar0.lean ====
section
/-!
DEFINITION. The BAR0 registers: what each offset reads and what a write does (25_system R347 to R355, R362,
21_scheduling R297, 27_debug R364, R372, R376 to R378).
-/
namespace Sys2Proof.Machine

/-! ## Domain membership (R352) -/

/-- A cleared member bit ends every waiting barrier instance and every collective that has a participant there. Whether a
barrier of scope 2 has one on that device and with which logical index, and whether a collective with a member there and
no contribution from here has begun, free values tell (R352; log 7, log 44). -/
def leaveDomain (s : State) (d : Nat) : State :=
  let open_ := s.barriers.filter fun b => b.ended.isNone && scopeOf b.scope == some .domain
  let s := open_.foldl (fun (s : State) b =>
    let (v, s) := s.fresh
    let (w, s) := s.fresh
    if v.getLsbD 0 then endBarrier s b (absentWord d w.toNat) else s) s
  s.colls.foldl (fun (s : State) p =>
    let (v, s) := s.fresh
    let has := (List.range p.2.nmem).any fun r => rankEntry s p.2 r / 2 ^ 16 % 2 ^ 11 == d
    if p.2.valid && has && (!p.2.here.isEmpty || v.getLsbD 0) then abortCollective s p.1 d else s) s

/-- DOMAIN_MEMBERSHIP_WRITE of a doubleword; the own bit reads 1 always. -/
def writeDomain (s : State) (i : Nat) (v : Word) : State :=
  let mask : BitVec 2048 := BitVec.ofNat 2048 ((2 ^ 64 - 1) * 2 ^ (64 * i))
  let own : BitVec 2048 := BitVec.ofNat 2048 (2 ^ s.reg.devnum.toNat)
  let old := s.reg.domain
  let new := (old &&& ~~~mask) ||| BitVec.ofNat 2048 (v.toNat * 2 ^ (64 * i)) ||| own
  let s := { s with reg := { s.reg with domain := new } }
  ((List.range 64).map fun b => 64 * i + b).foldl (fun s d =>
    if old.getLsbD d && !new.getLsbD d then leaveDomain s d else s) s
def execDomainMembershipWrite (i : Nat) (v : Word) (s : State) : Out := blockEvent s (if i < 32 then writeDomain s i v else s)

/-! ## The blocks -/

/-- A bit map of numbers from a base. -/
def bitMap (l : List Nat) (base n : Nat) : Word :=
  BitVec.ofNat 64 ((List.range n).foldl (fun v i => v + b2n (l.contains (base + i)) * 2 ^ i) 0)

/-- The core of a bit of the offline map: bit 8c + s (R347). -/
def offlineCore (i : Nat) : Nat := (clusterCores (i / 8)).getD (i % 8) 0

/-- The offline map (R347). -/
def readOffline (s : State) (o : Nat) : Word :=
  if o < 168 then
    BitVec.ofNat 64 ((List.range 64).foldl (fun v i => v + b2n (s.reg.offline.contains (offlineCore (o * 8 + i))) * 2 ^ i) 0)
  else if 256 ≤ o ∧ o < 280 then
    bitMap (s.reg.offClusters.filter (· < 168)) ((o - 256) * 8) 64
  else 0

/-- A registered region's slot (R354). RSIZE, and LIST, BUDDYBASE and HOSTBASE below, keep all 64 bits written; the spec does
not say what a value that is no multiple of 64 stores (log 146). -/
def readRegion (k : Region) (o : Nat) : Word :=
  match o with
  | 0 => k.rbase
  | 8 => k.rsize
  | 0x10 => k.next.setWidth 64
  | 0x18 => BitVec.ofNat 64 (b2n k.guard * 128 + (if k.err then 2 else 0) * 16 + b2n k.valid)
  | _ => 0
def writeRegion (s : State) (r o : Nat) (v : Word) : State :=
  let k := s.regionOf r
  match o with
  | 0 => if k.valid then s else s.modRegion r fun k => { k with rbase := v &&& 0xFFFFFFFFC0 }
  | 8 => if k.valid then s else s.modRegion r fun k => { k with rsize := v }
  | 0x10 => if k.valid then s else s.modRegion r fun k => { k with next := v.setWidth 32 }
  | 0x18 =>
    let s := if v.getLsbD 1 then resetRegion s r else s
    setRegionValid s r (v.getLsbD 0)
  | _ => s

/-- A collective slot (R355). -/
def readColl (k : Collective) (o : Nat) : Word :=
  match o with
  | 0 => BitVec.ofNat 64 (b2n k.valid * 2 ^ 63 + k.gid.toNat)
  | 8 => k.list
  | 0x10 => BitVec.ofNat 64 k.nmem
  | 0x18 => k.next.setWidth 64
  | _ => 0
def writeColl (s : State) (r o : Nat) (v : Word) : State :=
  match o with
  | 0 =>
    let s := s.modColl r fun k => { k with gid := v.setWidth 16, valid := k.valid && v.getLsbD 63 }
    if v.getLsbD 63 && !(s.collOf r).valid then setSlotValid s r else s
  | 8 => s.modColl r fun k => { k with list := v }
  | 0x10 => s.modColl r fun k => { k with nmem := bits v 16 0 }
  | _ => s

/-- The checkpoint block (R362). -/
def readCkpt (k : Ckpt) (o : Nat) : Word :=
  match o with
  | 0 => k.ctl
  | 8 => k.buddyBase
  | 0x10 => k.hostBase
  | 0x18 => BitVec.ofNat 64 (k.cutNo.toNat * 2 ^ 32 + b2n k.err * 2 + b2n k.done)
  | 0x20 => k.drained
  | _ => 0
def writeCkpt (s : State) (o : Nat) (v : Word) : State :=
  let k := s.ckpt
  match o with
  | 0 => { s with ckpt := { k with ctl := v &&& 0xFFFF1FFF } }
  | 8 => { s with ckpt := { k with buddyBase := v } }
  | 0x10 => { s with ckpt := { k with hostBase := v } }
  | _ => s

/-- A launch queue's block (R297). -/
def readQueue (q : Queue) (o : Nat) : Word :=
  match o with
  | 0 => q.qbase
  | 8 => BitVec.ofNat 64 (b2n q.res * 4096 + q.qprio.toNat * 256 + q.qsize)
  | 0x10 => q.qtail.setWidth 64
  | 0x18 => BitVec.ofNat 64 (b2n q.out * 2 ^ 63 + q.qhead.toNat)
  | 0x20 => BitVec.ofNat 64 (b2n q.out * 2 ^ 63 + q.qdone.toNat)
  | 0x28 => BitVec.ofNat 64 (q.recno.toNat * 65536 + q.code.toNat)
  | _ => 0
def writeQueue (s : State) (r o : Nat) (v : Word) : State :=
  match o with
  | 0 => writeQueueConfig s r false v
  | 8 =>
    let s := writeQueueConfig s r true v
    let s := s.modQueue r fun q => { q with qprio := BitVec.ofNat 2 (bits v 9 8) }
    if v.getLsbD 12 then switchIn s r else switchOut s r
  | 0x10 => writeQtail s r v
  | 0x28 => if v.getLsbD 9 then (if v.getLsbD 8 then skipRecord s r else clearQueue s r) else s
  | _ => s

/-- The trace ring's block (R372). -/
def readTrace (t : Trace) (o : Nat) : Word :=
  match o with
  | 0 => t.base
  | 8 => BitVec.ofNat 64 (b2n t.en * 512 + b2n t.stall * 256 + t.size)
  | 0x10 => t.wrptr.setWidth 64
  | 0x18 => t.rdptr.setWidth 64
  | 0x20 => t.lost
  | _ => 0
def writeTrace (s : State) (o : Nat) (v : Word) : State :=
  let t := s.trace
  match o with
  | 0 => if t.en then s else { s with trace := { t with base := v &&& ~~~(63 : Word) } }
  | 8 =>
    let t := if t.en then t else { t with stall := v.getLsbD 8, size := Nat.max 6 (Nat.min 24 (bits v 4 0)) }
    settleTrace { s with trace := { t with en := v.getLsbD 9 } }
  | 0x18 => writeTrrdptr s v
  | _ => s

/-- A debug module (R364). -/
def readDebug (s : State) (k o : Nat) : Word :=
  let d := s.debugOf k
  match o with
  | 0 => BitVec.ofNat 64 (d.cores.toNat * 256 + b2n d.whistle * 8 + b2n d.view * 4 + b2n d.halt)
  | 8 =>
    let h := (clusterCores k).zipIdx.foldl (fun n p => n + b2n (s.coreOf p.1).halted * 2 ^ p.2) 0
    BitVec.ofNat 64 (b2n d.dmerr * 256 + h)
  | 0x10 => d.sel
  | 0x18 => d.data
  | 0x20 => d.addr
  | 0x28 => d.mem
  | _ => 0
def writeDebug (s : State) (k o : Nat) (v : Word) : State :=
  match o with
  | 0 =>
    let s := s.modDebug k fun d => { d with cores := BitVec.ofNat 8 (bits v 15 8), whistle := v.getLsbD 3, view := v.getLsbD 2 }
    if v.getLsbD 1 then resumeCluster s k
    else if v.getLsbD 0 then haltCluster s k
    else s.modDebug k fun d => { d with halt := false }
  | 8 => if v.getLsbD 8 then s.modDebug k fun d => { d with dmerr := false } else s
  | 0x10 => s.modDebug k fun d => { d with sel := v &&& 0xFF0FFC00 }
  | 0x18 => writeDmdata s k v
  | 0x20 => s.modDebug k fun d => { d with addr := v }
  | 0x28 => writeDmmem s k v
  | _ => s

/-- An HBM controller's counters (R127). -/
def readHbm (h : Hbm) (o : Nat) : Word :=
  match o with
  | 0 => h.stall
  | 8 => h.post
  | 0x10 => h.forced
  | 0x18 => h.pb
  | _ => 0
def writeHbm (s : State) (k o : Nat) (v : Word) : State :=
  match o with
  | 0 => s.modHbm k fun h => { h with stall := v }
  | 8 => s.modHbm k fun h => { h with post := v }
  | 0x10 => s.modHbm k fun h => { h with forced := v }
  | 0x18 => s.modHbm k fun h => { h with pb := v }
  | _ => s

/-- Bias control (R350). -/
def readBias (s : State) (o : Nat) : Word :=
  match o with
  | 0 => s.reg.biasReg
  | 8 => s.reg.biasQ ||| BitVec.ofNat 64 (b2n (s.hostBias.contains (s.devPa s.reg.biasQ.toNat / 4096)))
  | _ => 0
def writeBias (s : State) (o : Nat) (v : Word) : State :=
  match o with
  | 0 =>
    if s.flipping.isSome then s
    else
      let s := { s with reg := { s.reg with biasReg := v &&& 0xFFFFFFF002 } }
      if v.getLsbD 0 then startFlip s else s
  | 8 => { s with reg := { s.reg with biasQ := v &&& 0xFFFFFFF000 } }
  | _ => s

/-! ## The map (R347) -/

/-- A block of BAR0 with the instance and the offset within it. -/
inductive Block where
  | config | translation | bias
  | domain (i : Nat)
  | offline (o : Nat)
  | hbm (k : Nat) | region (k : Nat) | coll (k : Nat)
  | ckpt
  | queue (k : Nat)
  | trace | freeze | devstat | pwrcap
  | debug (k : Nat)
  | flash (o : Nat)
  | none
  deriving DecidableEq, Repr

/-- The block of an offset, and the offset within its instance. -/
def blockOf (off : Nat) : Block × Nat :=
  if off < 0x1000 then (.config, off)
  else if off < 0x2000 then (.translation, off - 0x1000)
  else if 0x3000 ≤ off ∧ off < 0x4000 then (.bias, off - 0x3000)
  else if 0x4000 ≤ off ∧ off < 0x4100 then (.domain ((off - 0x4000) / 8), 0)
  else if 0x8000 ≤ off ∧ off < 0x8200 then (.offline (off - 0x8000), 0)
  else if 0x10000 ≤ off ∧ off < 0x11000 then (.hbm ((off - 0x10000) / 256), off % 256)
  else if 0x20000 ≤ off ∧ off < 0x21000 then (.region ((off - 0x20000) / 64), off % 64)
  else if 0x30000 ≤ off ∧ off < 0x34000 then (.coll ((off - 0x30000) / 64), off % 64)
  else if 0x40000 ≤ off ∧ off < 0x41000 then (.ckpt, off - 0x40000)
  else if 0x100000 ≤ off ∧ off < 0x101000 then (.queue ((off - 0x100000) / 64), off % 64)
  else if 0x200000 ≤ off ∧ off < 0x200028 then (.trace, off - 0x200000)
  else if off = 0x200040 then (.freeze, 0)
  else if off = 0x200050 then (.devstat, 0)
  else if off = 0x200060 then (.pwrcap, 0)
  else if 0x201000 ≤ off ∧ off < 0x20B800 then (.debug ((off - 0x201000) / 256), off % 256)
  else if 0x210000 ≤ off ∧ off < 0x220000 then (.flash (off - 0x210000), 0)
  else (.none, 0)

/-- In PHASE 15 only DEVSTAT and the flash window are usable (R377). -/
def usable (s : State) (b : Block) : Bool :=
  s.reg.phase != 15 || match b with | .devstat => true | .flash _ => true | _ => false

/-- A BAR0 read as it stands, without the effect that reading DMDATA or DMMEM has. -/
def bar0Value (s : State) (off : Nat) : Word :=
  let (b, o) := blockOf off
  if !usable s b then 0
  else match b with
  | .config =>
    if o = 0 then BitVec.ofNat 64 (s.reg.ldb.toNat * 2 ^ 32 + s.reg.devnum.toNat)
    else if o = 8 then s.reg.farto.setWidth 64
    else if o = 0x10 then s.reg.barto.setWidth 64
    else 0
  | .translation => if o = 0 then s.reg.jsatp else if o = 8 then s.reg.jstvec else 0
  | .bias => readBias s o
  | .domain i => BitVec.ofNat 64 (s.reg.domain.toNat / 2 ^ (64 * i))
  | .offline o => readOffline s o
  | .hbm k => readHbm (tabGet Hbm.reset s.hbm k) o
  | .region k => readRegion (s.regionOf k) o
  | .coll k => readColl (s.collOf k) o
  | .ckpt => readCkpt s.ckpt o
  | .queue k => readQueue (s.queueOf k) o
  | .trace => readTrace s.trace o
  | .devstat => BitVec.ofNat 64 (b2n s.reg.imgErr * 256 + s.reg.phase.toNat)
  | .pwrcap => BitVec.ofNat 64 (s.reg.clk.toNat * 65536 + s.reg.cap.toNat)
  | .debug k => readDebug s k o
  | .flash o => tabGet 0 s.reg.flash o
  | .freeze => 0
  | .none => 0

/-- An access to DMMEM at this offset waits (R364). -/
def bar0Waits (s : State) (off : Nat) (acc : Acc) : Bool :=
  match blockOf off with
  | (.debug k, 0x28) => usable s (.debug k) && debugWaits s k acc
  | _ => false

/-- Reads a doubleword of BAR0: a read of DMDATA or DMMEM makes the access first (R364). -/
def bar0Read (s : State) (off : Nat) : State × Word :=
  let s := match blockOf off with
    | (.debug k, 0x18) => if usable s (.debug k) then readDmdata s k else s
    | (.debug k, 0x28) => if usable s (.debug k) then readDmmem s k else s
    | _ => s
  (s, bar0Value s off)

/-- Writes a doubleword of BAR0. Writes of read-only and unlisted offsets are ignored (R347). -/
def bar0Write (s : State) (off : Nat) (v : Word) : State :=
  let (b, o) := blockOf off
  if !usable s b then s
  else match b with
  | .translation =>
    if o = 0 then { s with reg := { s.reg with jsatp := v } }
    else if o = 8 then { s with reg := { s.reg with jstvec := v } }
    else s
  | .bias => writeBias s o v
  | .domain i => writeDomain s i v
  | .hbm k => writeHbm s k o v
  | .region k => writeRegion s k o v
  | .coll k => writeColl s k o v
  | .ckpt => writeCkpt s o v
  | .queue k => writeQueue s k o v
  | .trace => writeTrace s o v
  | .freeze => writeFreeze s v
  | .pwrcap => writePwrcap s v
  | .debug k => writeDebug s k o v
  | .flash o => writeFlash s o v
  | .config => s
  | .offline _ => s
  | .devstat => s
  | .none => s

/-- REGISTER_WRITE: a CSR of the current thread, or an aligned doubleword of BAR0 (R105, R347). -/
def execRegisterWrite (r : RegTarget) (v : Word) (s : State) : Out :=
  event (match r with
    | .csr n => if csrIllegal s n true then s else threadWrite s fun s => csrWrite s n v
    | .bar0 off => if off % 8 = 0 then bar0Write s off v else s)

end Sys2Proof.Machine
end

