-- ==== Sys2Proof/Machine/Alias.lean ====
section
/-!
DEFINITION. What may reach the device alias: LDA.D, relaxed and release stores at their homes, and the completion of a
launch (05_scalar R79, R100 to R102, 09_ordering R141, R142, R145, 21_scheduling R303, 25_system R349).
-/
namespace Sys2Proof.Machine

/-- The BAR0 offset that an address in the device alias names (R349). -/
def State.aliasOff (s : State) (pa : Nat) : Nat := pa - 2 ^ 51 - s.reg.alias0.getD 0

/-- LDA.D (R102); on the device alias it reads the register, as the register stands, or the thread's own
store to it that is not yet performed (R100, R349; log 47). -/
def execLdaD (p : Bool) (d a b : Reg) (s : State) : Out :=
  runInstr p none [.x a, .x b, .x d] (fun s => do
    let _ ← needScope (s.x b)
    let (s1, pa, va) ← checkVaBy s true .load (s.x a) 8
    if s1.inAlias pa then
      let own := (List.range 8).mapM fun i => s1.ownByte s1.cur (pa + i)
      if s1.ldaWait.isSome then .error (.stall (.far (s1.ldaWait.getD 0)))
      else if s1.invalWaits s1.th.core pa || bar0Waits s1 (s1.aliasOff pa) .load then .error (.stall (.read pa))
      else
        let (s2, v) := match own with
          | some bs => (s1, BitVec.ofNat 64 (leNat bs))
          | none => bar0Read s1 (s1.aliasOff pa)
        .ok ((s2.enterRead pa 8 va).setLong .far (.x d v) none, .seq)
    else ldaBody 8 d a b s) s

/-- A doubleword or word stored at its home: a register of the device alias, whose readers squash like those of memory, or
memory. The core where the thread is now takes the new words (R134, R141, R349). -/
def storeHome (s : State) (t pa : Nat) (bs : List Byte) : State :=
  let own := if t = noThread then none else some (s.thr t).core
  if s.inAlias pa then sendInvals (bar0Write s (s.aliasOff pa) (BitVec.ofNat 64 (leNat bs))) t own pa bs.length
  else homeWrite s t own pa bs

/-- The register that a store in the device alias writes makes it wait (R364). -/
def aliasHeld (s : State) (pa : Nat) : Bool := s.inAlias pa && bar0Waits s (s.aliasOff pa) .store

/-- RELAXED_STORE_PERFORM: the home performs the store, which clears a line's poison where it is a ZLINE (R89, R141). -/
def execRelaxedStorePerform (k : Nat) (s : State) : Out :=
  event (match s.flights[k]? with
    | some ⟨t, _, _, .relaxed pa bs z⟩ =>
      if writeReady s k t pa bs.length && !aliasHeld s pa then
        let s := storeHome (s.dropFlight k) t pa bs
        (if z then { s with poison := s.poison.filter (· != pa / 64) } else s).drained
      else s
    | _ => s)

/-- RELEASE_COMPLETE: a fence marker is done, or a release's store is performed after it (R79, R101, R145). -/
def execReleaseComplete (k : Nat) (s : State) : Out :=
  event (match s.flights[k]? with
    | some ⟨t, _, _, .fence sc⟩ => if s.releaseReady k t sc false then (s.dropFlight k).drained else s
    | some ⟨t, _, _, .storeRel sc pa bs⟩ =>
      if s.releaseReady k t sc true && !s.isFar pa && !aliasHeld s pa then (storeHome (s.dropFlight k) t pa bs).drained else s
    | some ⟨t, _, _, .irrStore sc e⟩ =>
      if !s.releaseReady k t sc true then s
      else if s.isFar e.pa then
        if (s.far.any fun f => f.tid == t && f.kind == .rel true && !f.served) || decide (1024 ≤ s.farCount t) then s
        else s.numberFar t (.rel true) e.pa
      else
        let s := homeWrite (dropEntry s k) t (some (s.thr t).core) e.pa (leBytes 8 e.data.toNat)
        (s.dropFlight k).drained
    | _ => s)

/-! ## The completion of a launch (R303) -/

/-- Everything that a launch did has been performed. -/
def launchDone (s : State) (l : Nat) : Bool :=
  let ts := (s.threads.filter fun p => p.2.lid == l).map (·.1)
  (s.threads.all fun p => p.2.lid != l || (p.2.loc == .exited && p.2.older.isNone)) &&
    !(s.cmds.any fun c => c.lid == l && c.state != .retired) &&
    !(s.flights.any fun f => f.lid == l) &&
    !(s.far.any fun f => ts.contains f.tid) &&
    !(s.invals.any fun v => ts.contains v.src) &&
    !(s.tlbinvs.any fun v => ts.contains v.1)

/-- ERR: a command's error or mark that no WAITB reported, or a launch that was ended (R303, R338). -/
def launchError (s : State) (l : Nat) : Bool :=
  (s.launchOf l).unreported || s.cmds.any fun c => c.lid == l && (c.faulted || c.mark.isSome)

/-- The completion word (R303). -/
def completionWord (s : State) (l : Nat) : Word :=
  let la := s.launchOf l
  BitVec.ofNat 64 (2 ^ 63 + b2n (launchError s l) * 2 ^ 62 + la.launchId.toNat * 2 ^ 32 + la.recno.toNat)

/-- Writes the completion word, or fails. Whether a peer denies the store, a free value tells (R151; log 7). -/
def writeDone (s : State) (l : Nat) (pa : Option Nat) : State × Bool :=
  let bs := leBytes 8 (completionWord s l).toNat
  match pa with
  | none => (s, false)
  | some pa =>
    if s.inAlias pa then (storeHome s noThread pa bs, true)
    else if s.isFar pa then
      let (w, s) := s.fresh
      if s.poison.contains (pa / 64) || w.getLsbD 0 then (s, false) else ({ s with mem := memWrite s.mem pa bs }, true)
    else (homeWrite s noThread none pa bs, true)

/-- Takes what is left of a launch out of the machine: its context region, Kennels, queue places and CSP (R115). -/
def forgetLaunch (s : State) (l : Nat) : State :=
  let ts := (s.threads.filter fun p => p.2.lid == l).map (·.1)
  let key := (s.launchOf l).launchkey
  let last := !s.launches.any fun m => m.1 != l && m.2.launchkey == key
  let s := if (s.launchOf l).csp = 0 then s else clearCsp s (s.launchOf l).rect
  let wipe := fun (c : Core) => { c with
    kennels := tabDel c.kennels l, kreserved := tabDel c.kreserved l, caches := tabDel c.caches l, stacked := tabDel c.stacked l }
  let s := { s with spoiled := s.spoiled.filter { s with launches := tabDel s.launches l }.inTaskTable }
  let gone := fun (b : Barrier) => if scopeOf b.scope = some .domain then last && b.key == key else b.lid == l
  settleBarriers { s with
    threads := s.threads.filter fun p => p.2.lid != l
    launches := tabDel s.launches l
    cores := s.cores.map fun (q : Nat × Core) => (q.1, wipe q.2)
    cmds := s.cmds.filter fun c => c.lid != l
    acks := s.acks.filter fun t => !ts.contains t
    barriers := (s.barriers.filter fun b => !gone b).map fun (b : Barrier) =>
      { b with arrived := b.arrived.filter fun a => !ts.contains a.1 }
    reserved := s.reserved.map fun (r : Reservation) => { r with waiters := r.waiters.filter fun w => !ts.contains w.1 }
    overflow := s.overflow.filter fun w => !ts.contains w.1
    resends := s.resends.filter fun w => !ts.contains w.1 }

/-- LAUNCH_COMPLETE: the completion word, QDONE, and a failed write's CODE 6 (R300, R303, R304). -/
def execLaunchComplete (l : Nat) (s : State) : Out :=
  let la := s.launchOf l
  let done := engineTranslate s true .store la.doneAddr.toNat
  let pa := match done with | .ok pa => some pa | .error _ => none
  let held := la.doneAddr != 0 && (match done with | .error .flip => true | .error (.bank _) => true | _ => false)
  event (
    if (tabFind s.launches l).isNone || !launchDone s l || s.paused || held then s
    else
      let (s1, ok) := if la.doneAddr = 0 then (s, true) else writeDone s l pa
      let s1 := if ok then s1 else queueError s1 la.queue 6 la.recno
      let s1 := s1.modQueue la.queue fun q => if q.out then { q with outDone := q.outDone + 1 } else { q with qdone := q.qdone + 1 }
      forgetLaunch s1 l)

end Sys2Proof.Machine
end

