-- ==== Sys2Proof/Machine/Fetch.lean ====
section
/-!
DEFINITION. What a thread does when it gets an issue slot: the events of its boundary, the end of its wait, and the
fetch of its instruction; and what follows an instruction (01_machine R24, R32, 05_scalar R103, 23_faults R332,
27_debug R368, R369, R374).
-/
namespace Sys2Proof.Machine

/-! ## Instruction bytes (R103; log 11) -/

/-- The L1I holds the word at an address. -/
def codePresent (s : State) (pa : Nat) : Bool :=
  (List.range 4).all fun i => (tabFind (s.coreOf s.th.core).l1i (pa + i)).isSome

/-- The 4-byte word at an address as a thread sees memory: its own stores, else the home (R103). -/
def codeView (s : State) (t pa : Nat) : Nat :=
  leNat ((List.range 4).map fun i => (s.ownByte t (pa + i)).getD (s.homeByte (pa + i)))

/-- The 4-byte words in which two memories differ. -/
def memDiff (a b : Mem) : List Nat :=
  (((a.filter fun e => memGet b e.1 != e.2) ++ (b.filter fun e => memGet a e.1 != e.2)).map fun e => e.1 / 4 * 4).eraseDups

/-- Remembers, for every thread, the values of words of memory that others have changed: as it saw them before and as it
sees them now (R103; log 11). -/
def trackCode (s0 s : State) : State :=
  if s0.mem = s.mem then s
  else
    let ws := memDiff s0.mem s.mem
    (s.threads.filter fun p => p.2.loc != .exited && p.2.loc != .absent).foldl (fun (s : State) p =>
      let seen := ws.flatMap fun w =>
        let a := codeView s0 p.1 w
        let b := codeView s p.1 w
        if a = b then [] else [(w, b), (w, a)]
      if seen.isEmpty then s else s.modThr p.1 fun th => { th with codeSeen := seen ++ th.codeSeen }) s

/-- The 4-byte words that a thread's own stores have changed from one state to the next, by addresses of its chunk's plain
writes and of the relaxed ones it has recorded. -/
def ownWords (s0 s : State) (t : Nat) : List Nat :=
  let c := (s.thr t).chunk
  let c0 := (s0.thr t).chunk
  let plain := (c.writes.filter fun e => c0.uid != c.uid || tabFind c0.writes e.1 != some e.2).map (·.1)
  let posted := (c.post.drop (if c0.uid = c.uid then c0.post.length else 0)).flatMap fun a =>
    match a with
    | .relaxed pa bs _ => (List.range bs.length).map (pa + ·)
    | .storeRel _ pa bs => (List.range bs.length).map (pa + ·)
    | _ => []
  ((plain ++ posted).map (· / 4 * 4)).eraseDups

/-- Remembers the values that a thread's own instruction has stored, and overwritten, in words (R103; log 11). -/
def trackOwn (s0 s : State) (t : Nat) : State :=
  let own := (ownWords s0 s t).flatMap fun w => [(w, codeView s t w), (w, codeView s0 t w)]
  if own.isEmpty then s
  else s.modThr t fun th => { th with regs := { th.regs with codeOwn := own ++ th.regs.codeOwn } }

/-- The values that a fetch of the current thread may meet at a word: what memory holds for the thread, and without a FENCE.I
since then, what it has held: values from before a write, values that other agents and the thread itself have written
(R103). -/
def codeWords (s : State) (pa : Nat) : List Nat :=
  let th := s.th
  let since := th.codeSeen.take (th.codeSeen.length - th.regs.codeFrom)
  (codeView s s.cur pa :: ((since ++ th.regs.codeOwn).filter fun e => e.1 == pa).map (·.2)).eraseDups

/-- The word that is fetched: which of several values, a free value tells (log 7). -/
def chooseWord (s : State) (l : List Nat) : State × Nat :=
  match l with
  | [] => (s, 0)
  | [w] => (s, w)
  | _ =>
    let (v, s) := s.fresh
    (s, l.getD (v.toNat % l.length) 0)

/-- What stands in the way of a fetch, or the word (R129, R332, R340). Memory that holds a peer's instructions is read as data. -/
def fetchWord (s : State) : Except Stop (State × Nat) :=
  let va := s.pc.toNat
  if va % 4 ≠ 0 then .error (.trap 0 s.pc)
  else if 2 ^ 56 ≤ va then .error (.trap 1 s.pc)
  else
    match translateTh s .fetch va with
    | .error e => .error e
    | .ok (s, pa, _) =>
      if s.poisonedFor pa then .error (.trap 50 s.pc)
      else if s.isFar pa then
        if s.present pa 4 then .ok (s, leNat (s.view pa 4)) else .error (.farLine (pa / 64 * 64) (.miss pa true))
      else if (s.coreOf s.th.core).flips.any fun f => f.array == 1 && f.addr / 64 == pa / 64 then .error (.settle s (.line true pa))
      else if codePresent s pa then .ok (chooseWord s (codeWords s pa))
      else .error (.stall (.miss pa true))

/-! ## The boundary (R332) -/

/-- A late refusal is reported once the thread's results have returned: the chunk is cut with code 13, and a rewrite
squashes first (R28, R151, R287). -/
def takeLateRefusal (s : State) (t : Nat) : State :=
  let th := s.thr t
  if !th.results.isEmpty then s
  else if th.regs.inRewrite then reportRefusal ((leaveRewrite s t false).cutChunk t 13) t
  else if th.chunk.count != 0 && th.older.isSome then s
  else reportRefusal ((putBackWaiting s t).cutChunk t 13) t

/-- Gives up granules that another accessor wants (code 23, R114). -/
def giveWay (s : State) (t : Nat) : State :=
  let th := s.thr t
  if th.chunk.count ≠ 0 ∧ th.older.isSome then s
  else (s.cutChunk t 23).modThr t fun th => { th with cutReq := none }

/-- The address of a DETCONFLICT that is due before the thread's next instruction. A wait that starts the chunk ends first,
as its value is part of the chunk's start (R97, R155). -/
def conflictDue (th : Thread) : Option Word :=
  match th.chunk.detAt with
  | some (n, va) => if n ≤ th.chunk.count && !th.waiting then some va else none
  | none => none

/-- The event of a thread's boundary, if there is one, and what it does: a chunk whose parity check failed squashes, a debug
halt, a DETCONFLICT that is due, a late refusal, a rollback, an interrupt, a pre-emption or a cut (R117, R155, R332). A
thread stands still while its rollback waits for a granted chunk (R269). -/
def boundary (s : State) (t : Nat) : Option State :=
  let th := s.thr t
  let failed : Bool := match th.older with | some c => c.parity.isSome && c.state == .requested | none => false
  if failed then some (squash s t true 1)
  else if (s.coreOf th.core).halted then some (haltThread s t)
  else if th.rolling && th.ks.isSome then some s
  else
    match (if rollbackStops th then none else conflictDue th) with
    | some va => some (takeConflict s t va)
    | none =>
      if !th.farLate.isEmpty && !th.regs.smode && atBoundary s t then some (takeLateRefusal s t)
      else if rollbackStops th then some s
      else if rollbackReady th then
        match execRollback t s with
        | .next s => some s
        | _ => some s
      else
        match (if atBoundary s t then interruptCause s t else none) with
        | some c => some (takeInterrupt s t c)
        | none =>
          match th.cutReq with
          | some .preempt =>
            match execPreemption t s with
            | .next s => some s
            | _ => some s
          | some .granule => some (giveWay s t)
          | none => none

/-! ## Issue (R24, R32) -/

/-- With POLICY STALL, a thread whose next packet could not be buffered is not ready: it has gathered six of its state
records (R373). -/
def traceStalls (s : State) (th : Thread) : Bool :=
  traceFull s && ((th.regs.csr.trctl.getLsbD 0 || th.regs.csr.trctl.getLsbD 1) && decide (6 ≤ th.log.length))

/-- Likewise a thread of TRCTL.MK that stands before a write of TMARK, whose commit emits a packet (R373, R374). -/
def markStalls (s : State) (i : Instr) : Bool :=
  match i with
  | .csrInstruction f _ csr _ src => traceFull s && s.th.regs.csr.trctl.getLsbD 5 && csr == 0x830 && csrWrites f src
  | _ => false

/-- What a thread that stands before its IXPOP after a squash waits for is there (R32, R114, R220, R287). -/
def holdOver (s : State) (t : Nat) : Hold → Bool
  | .lines own => s.linesRoom (s.thr t).core own
  | .undo n => decide (s.undoInUse (s.thr t).core + n ≤ Config.undoBytes)
  | .granule core sp g => ({ s with cur := t }.granHolder core sp g).isNone
  | .entries n => decide (n ≤ s.sbFree (s.thr t).placeCore)
  | .send => decide ((s.thr t).sendUsed < Config.sendEntries)

/-- A broadcast is on its way to the core of a token chunk: it is applied before the chunk reads on, as nothing but an error
may squash the chunk (R38). -/
def tokenWaits (s : State) (th : Thread) : Bool := th.chunk.token && s.bcasts.any fun b => b.core == th.core

/-- What an issue slot brings a thread to. -/
inductive Issue where
  /-- nothing is executed; this is the state -/
  | idle (s : State)
  /-- an instruction, and the state in which it is executed -/
  | run (i : Instr) (s : State)
  deriving DecidableEq, Repr

/-- Fetches and decodes; a word that stands for no instruction traps with its bits (R48, R329). -/
def fetchIssue (s : State) : Issue :=
  match fetchWord s with
  | .error e => .idle (applyStop s e)
  | .ok (s, w) =>
    match decode (BitVec.ofNat 32 w) with
    | .ok i => if markStalls s i then .idle s else .run i s
    | .error _ => .idle (takeTrap s 2 (BitVec.ofNat 64 w))

/-- A thread in its issue slot: its boundary's event, else the end of its wait, else its instruction. With a full vector
queue it is not ready (R182). -/
def prepare (s : State) (t : Nat) : Issue :=
  let s := { s with cur := t }
  let th := s.thr t
  if !s.live then .idle s
  else
    match boundary s t with
    | some s => .idle s
    | none =>
      if s.cycle < th.nextIssue || traceStalls s th || tokenWaits s th then .idle s
      else
        match th.status with
        | .wait w => .idle (pollWait s t w)
        | .retry .token => .idle s
        | .retry (.held h) => if holdOver s t h && !s.vecFull then fetchIssue s else .idle s
        | .ready => if s.vecFull then .idle (s.stall .vecQueue) else fetchIssue s
        | _ => if s.vecFull then .idle s else fetchIssue s

/-! ## After an instruction (R34, R131, R369, R374) -/

/-- EV code 9 or 10 of an instruction (R374). -/
def unitEvent (i : Instr) : Nat :=
  match (encode i).toNat % 128 with
  | 0x5B => 9
  | 0x7B => 10
  | 0x2B => if (encode i).toNat / 4096 % 8 = 4 then 9 else 0
  | _ => 0

/-- A first-write capture wrote the undo store, and an injection armed for it flips what it wrote (R131; log 62). -/
def injectUndo (s0 s : State) (t : Nat) : State :=
  let c := (s.thr t).chunk
  let before := (s0.thr t).chunk
  if c.uid = before.uid ∧ before.undoBytes < c.undoBytes then
    s.asThread t fun s => s.inject 3 s.th.core t (undoBase (s.thr t) c + before.undoBytes)
  else s

/-- What follows an executed instruction: its stores are remembered, an injection into the undo store strikes, and a
completed one is counted. -/
def afterIssue (s0 : State) (t : Nat) (i : Instr) (s : State) : State :=
  let s := injectUndo s0 (trackOwn s0 s t) t
  if (s.thr t).retired = (s0.thr t).retired then s
  else countEvent (countEvent s t 2 1) t (unitEvent i) 1

/-- What follows every move: the words of memory that changed are remembered, and changes of state are logged. -/
def settleMove (s0 s : State) : State := logChanges (trackCode s0 s)

/-! ## The barrel (R24, R25) -/

/-- A thread's turn in the issue slot: the state it leaves, and whether an instruction was issued. Where it is not ready the
slot goes on to the next thread. -/
def takeSlot (run : Instr → State → Out) (s : State) (t : Nat) : Out × Bool :=
  match prepare s t with
  | .idle s' => (.next (settleMove s s'), false)
  | .run i s' =>
    match run i s' with
    | .next s'' =>
      let s3 := settleMove s (afterIssue s' t i s'')
      let waits := match (s3.thr t).status with
        | .retry .paused => false
        | .retry _ => true
        | _ => false
      (.next s3, !waits)
    | o => (o, true)

/-- The issue slot goes from thread to thread until one is ready. -/
def takeSlots (run : Instr → State → Out) : List Nat → State → Out × Bool
  | [], s => (.next s, false)
  | t :: ts, s =>
    match takeSlot run s t with
    | (.next s', false) => takeSlots run ts s'
    | o => o

/-- The threads behind the first candidate in the order of the barrel: the execute partner of an access thread that waits
on its reverse queue, then the next slots (R25). -/
def barrelRest (s : State) (core : Nat) : List Nat :=
  let first := s.cycle % 16
  let donated := match s.inSlot core first with
    | some t =>
      if 8 ≤ first ∧ (s.thr t).status = .retry .reverse then (match s.partner t with | some u => [u] | none => []) else []
    | none => []
  donated ++ (List.range 15).filterMap fun i => s.inSlot core ((first + 1 + i) % 16)

/-- A core's issue slot of this cycle: the thread in slot c mod 16, then the others (R25). -/
def coreSlot (run : Instr → State → Out) (s : State) (core : Nat) : Out :=
  match takeSlots run (s.inSlot core (s.cycle % 16)).toList s with
  | (.next s', false) => (takeSlots run (barrelRest s' core) s').1
  | o => o.1

/-! ## Soft errors (R129, R340) -/

/-- A soft error strikes an array: the bits flip. One of HBM is an error that its codes cannot correct, and loses the line
(R129, R340). -/
def strike (s : State) (u : Upset) : State :=
  if u.array = 10 then if s.placeOf u.addr == .own then { s with poison := addNew (u.addr / 64) s.poison } else s
  else if u.array ≤ 9 then
    let core := if u.array = 9 then (clusterCores (clusterOf u.core)).headD 0 else u.core
    let fs : List Flip := (u.bits.eraseDups.filter (· < 72)).map fun b => ⟨u.array, u.owner, u.addr / 8 * 8, b, false⟩
    s.modCore core fun c => { c with flips := fs ++ c.flips.filter fun f => !fs.contains f }
  else s

end Sys2Proof.Machine
end

