-- ==== Sys2Proof/Machine/Auto.lean ====
section
/-!
DEFINITION. What the machine does where the agenda names nothing: its own operations in a fixed order, then the cores'
issue slots, then the next cycle (01_machine R25, 07_memory R127, R128, 27_debug R374; log 5, log 6).
-/
namespace Sys2Proof.Machine

/-- The operation that performs a flight at place k. -/
def flightEvent (s : State) (k : Nat) (f : Flight) : Option Instr :=
  match f.act with
  | .relaxed _ _ _ => some (.relaxedStorePerform k)
  | .storeRel _ _ _ => some (.releaseComplete k)
  | .fence _ => some (.releaseComplete k)
  | .irrStore _ _ => some (.releaseComplete k)
  | .reduce _ pa _ _ => if s.isFar pa then none else some (.reductionApply k)
  | .command _ => some (.commandInstall k)
  | .message _ m => some (if m.anti then .antiMessageArrival k else .messageArrival k)
  | .arrive _ _ => some (.barrierArrival k)
  | .lrwRequest _ _ _ => some (.reservationRequest k)
  | .handover _ => some (.reservationHandover k)
  | .decrement _ => some (.taskDecrement k)
  | .farGroup _ _ _ _ _ => some (.farStoreGroup k)
  | _ => none

/-- Operations of the memory system and of the order of commits. -/
def memoryEvents (s : State) : List Instr :=
  (List.range s.bcasts.length).map .commitBroadcastApply ++
  (List.range s.invals.length).map .invalidationApply ++
  (List.range s.tlbinvs.length).map .tlbinvComplete ++
  (s.flights.zipIdx.filterMap fun q => flightEvent s q.2 q.1) ++
  (List.range s.far.length).flatMap (fun k => [.farRequestServe k, .farAck k]) ++
  (s.far.zipIdx.filter fun f => s.poison.contains (f.1.pa / 64)).map (fun f => .farRefusal f.2 2) ++
  (List.range s.acks.length).map .messageAck ++
  (s.barriers.zipIdx.filter fun b => b.1.elsewhere).map (fun b => .barrierArrival (s.flights.length + b.2)) ++
  (List.range s.resends.length).map .reservationResend ++
  s.requests.map .commitGrant ++
  (s.threads.filter fun p => p.2.older.isSome).map (fun p => .postCommitRelease p.1) ++
  [.tokenGrant]

/-- Operations that serve one thread. -/
def threadEvents (s : State) : List Instr :=
  s.threads.flatMap fun p =>
    let t := p.1
    let th := p.2
    ((th.results.zipIdx.filter fun r => r.1.known).map fun r => .longLatencyResult t r.2) ++
    (match th.status with
     | .retry (.miss pa f) => [.missFill th.core pa f]
     | .retry .refill => [.nodeCacheRefill th.placeCore th.lid]
     | .retry .paused => [.yieldEnd t]
     | .retry (.ixpop _) => [.steal t]
     | .wait (.take _) => [.steal t]
     | _ => []) ++
    (if th.cutReq == some .preempt then [.preemption t] else []) ++
    (if th.recvq.any (·.ring) then [.spillRingDrain t 0, .spillRingDrain t 1, .spillRingDrain t 2, .spillRingDrain t 3] else []) ++
    (if th.isOut then [.contextRestore t] else [])

/-- The commands that make a beat at the head of a queue, and what follows them. -/
def commandEvents (s : State) : List Instr :=
  let open_ := s.cmds.filter fun c => c.state != .retired
  let start := fun (c : Command) =>
    match c.kind with
    | 0x01 => [Instr.mma c.core] | 0x02 => [.mmag c.core] | 0x03 => [.mmas c.core] | 0x04 => [.accz c.core]
    | 0x05 => [.accout c.core] | 0x06 => [.gangmma c.core]
    | 0x10 => [.copy c.core] | 0x11 => [.redcopy c.core] | 0x12 => [.gather c.core] | 0x13 => [.scatter c.core]
    | 0x14 => [.scalecast c.core]
    | 0x20 => [.allred c.core] | 0x21 => [.bcast c.core] | 0x22 => [.redscat c.core] | 0x23 => [.allgath c.core]
    | _ => []
  (open_.filter fun c => c.state == .waiting || (c.state == .running && !c.sent && decide (c.engine.toNat ≤ 1))).flatMap start ++
  (open_.filter fun c => c.kind == 0x11 && c.state == .running && c.sent).flatMap (fun c =>
    [if c.resend then .redcopyResend c.id else .redcopyApply c.id]) ++
  s.colls.flatMap (fun p => if p.2.here.length = p.2.nmem then [.collectiveContribution p.1 []] else []) ++
  (if open_.any fun c => c.kind == 0x30 then [.ckpt, .ckptRestore, .ckptAllArrived, .ckptResume] else []) ++
  (if s.ckpt.records.isEmpty then [] else [.ckptDrain]) ++
  open_.map fun c => .commandRetire c.id

/-- Owed refreshes, and in a cycle in 256 the ends of those under way (R126; log 6). -/
def refreshEvents (s : State) : List Instr :=
  let at_ := fun (f : Nat → Nat → Nat → Instr) (q : Nat × Bank) => f (q.1 / 1024) (q.1 / 16 % 64) (q.1 % 16)
  (s.banks.filter fun q => decide (0 < q.2.owed)).map (at_ .owedRefresh) ++
  (if s.cycle % 256 = 255 then (s.banks.filter fun q => q.2.busy != 0).map (at_ .refreshEnd) else [])

/-- Operations of the launch engine and of the package; GVT is published every 2 µs (R272). -/
def packageEvents (s : State) : List Instr :=
  (s.launches.flatMap fun l => [.launchQuiescent l.1, .launchComplete l.1]) ++
  (s.queues.flatMap fun q => if fetchable s q.1 then [.recordFetch q.1, .recordRefetch q.1] else []) ++
  (if s.queues.any fun q => !q.2.fetched.isEmpty then [.launchPlacement] else []) ++
  (if s.flipping.isSome then [.biasFlipComplete] else []) ++
  (if s.cycle % 4800 = 4799 then (s.threads.map fun p => (s.launchOf p.2.lid).launchkey).eraseDups.map .gvtPublish else [])

/-- Every operation that the model tries where the agenda is empty. -/
def autoEvents (s : State) : List Instr := memoryEvents s ++ threadEvents s ++ commandEvents s ++ packageEvents s ++ refreshEvents s

/-- A cycle in which a thread waits for memory alone, as MLATC counts: not one in which it may not issue yet, its core is
halted or its vector queue full (R128). -/
def memoryStall (s : State) (th : Thread) : Bool :=
  let waits := match th.status with
    | .retry (.miss _ _) => true
    | .retry .scoreboard => true
    | .retry .parked => th.results.any fun r => r.cls == .local || r.cls == .far
    | _ => false
  waits && decide (th.nextIssue ≤ s.cycle) && !(s.coreOf th.core).halted && decide ((th.results.filter (·.vec)).length < 8)

/-- What one cycle adds to a thread's counters (R128, R374). -/
def tickThread (s : State) (t : Nat) : State :=
  let th := s.thr t
  let stall := memoryStall s th
  let s := s.modThr t fun th => { th with mlatc := if stall then th.mlatc + 1 else th.mlatc }
  let s := countEvent s t 1 1
  let s := if stall then countEvent s t 6 1 else s
  let c := stateCodeOf th
  if c = 1 then countEvent s t 7 1 else if c = 3 then countEvent s t 8 1 else s

/-- The stacks in which a queued read waits on a refreshing bank (R127). -/
def refreshStalls (s : State) : List Nat := ((s.queuedReads.filter s.bankBusy).map s.stackOf).eraseDups

/-- The next core cycle; every 16 a window of the vector arbiters begins (R315). -/
def tick (s : State) : State :=
  let s := s.resident.foldl (fun s p => tickThread s p.1) s
  let s := (refreshStalls s).foldl (fun (s : State) k => s.modHbm k fun h => { h with stall := h.stall + 1 }) s
  let s := { s with cycle := s.cycle + 1, turn := 0 }
  if s.cycle % 16 = 0 then ((s.resident.map fun p => p.2.core).eraseDups).foldl vectorWindow s else s

/-- The cores that have threads, from the model's turn on. -/
def coresLeft (s : State) : List Nat := ((s.resident.map fun p => p.2.core).eraseDups).filter fun c => decide (s.turn ≤ c)

end Sys2Proof.Machine
end

