-- ==== Sys2Proof/Machine/Dispatch.lean ====
section
/-!
DEFINITION. One arm per constructor of Instr: the meaning of each instruction, operation and event.
-/
namespace Sys2Proof.Machine

/-- The meaning of an instruction of the current thread, or of an operation or event (spec/opcode_table.json). -/
def exec (i : Instr) (s : State) : Host.Outcome State Fault Refusal :=
  match i with
  | .chunk p => Sys2Proof.Machine.execChunk p s
  | .yield p => Sys2Proof.Machine.execYield p s
  | .pause p a => Sys2Proof.Machine.execPause p a s
  | .fenceS p a => Sys2Proof.Machine.execFenceS p a s
  | .bar p d a => Sys2Proof.Machine.execBar p d a s
  | .waitb p n => Sys2Proof.Machine.execWaitb p n s
  | .batch p n => Sys2Proof.Machine.execBatch p n s
  | .enq p d a e => Sys2Proof.Machine.execEnq p d a e s
  | .engq p d a => Sys2Proof.Machine.execEngq p d a s
  | .lclr p l => Sys2Proof.Machine.execLclr p l s
  | .aeqw p a => Sys2Proof.Machine.execAeqw p a s
  | .aeqr p d => Sys2Proof.Machine.execAeqr p d s
  | .ctxsave p a b => Sys2Proof.Machine.execCtxsave p a b s
  | .ctxload p a b => Sys2Proof.Machine.execCtxload p a b s
  | .tlbinv p a b => Sys2Proof.Machine.execTlbinv p a b s
  | .zline p a => Sys2Proof.Machine.execZline p a s
  | .loop p l a len => Sys2Proof.Machine.execLoop p l a len s
  | .spawn p a b => Sys2Proof.Machine.execSpawn p a b s
  | .join p a => Sys2Proof.Machine.execJoin p a s
  | .take p d => Sys2Proof.Machine.execTake p d s
  | .tnew p d a b => Sys2Proof.Machine.execTnew p d a b s
  | .tdec p a => Sys2Proof.Machine.execTdec p a s
  | .texit p => Sys2Proof.Machine.execTexit p s
  | .tlist p a => Sys2Proof.Machine.execTlist p a s
  | .send p a b => Sys2Proof.Machine.execSend p a b s
  | .sendt p a b d => Sys2Proof.Machine.execSendt p a b d s
  | .recv p d a => Sys2Proof.Machine.execRecv p d a s
  | .recvs p d a b => Sys2Proof.Machine.execRecvs p d a b s
  | .recvt p d => Sys2Proof.Machine.execRecvt p d s
  | .evend p => Sys2Proof.Machine.execEvend p s
  | .stirv p a b => Sys2Proof.Machine.execStirv p a b s
  | .opton p a => Sys2Proof.Machine.execOpton p a s
  | .optoff p => Sys2Proof.Machine.execOptoff p s
  | .msgq p d a => Sys2Proof.Machine.execMsgq p d a s
  | .ixpop p d => Sys2Proof.Machine.execIxpop p d s
  | .ixpair p a b => Sys2Proof.Machine.execIxpair p a b s
  | .ixnew p d => Sys2Proof.Machine.execIxnew p d s
  | .ixfree p a => Sys2Proof.Machine.execIxfree p a s
  | .ixlink p a b => Sys2Proof.Machine.execIxlink p a b s
  | .ixrule p a b => Sys2Proof.Machine.execIxrule p a b s
  | .ixdone p => Sys2Proof.Machine.execIxdone p s
  | .ptrfmt p d a b => Sys2Proof.Machine.execPtrfmt p d a b s
  | .ptrinfo p d a => Sys2Proof.Machine.execPtrinfo p d a s
  | .ptrclr p d a => Sys2Proof.Machine.execPtrclr p d a s
  | .ldl p d a mode size off => Sys2Proof.Machine.execLdl p d a mode size off s
  | .stl p a b mode size off => Sys2Proof.Machine.execStl p a b mode size off s
  | .redAddW p a b => Sys2Proof.Machine.execRedAddW p a b s
  | .redAddD p a b => Sys2Proof.Machine.execRedAddD p a b s
  | .redMinW p a b => Sys2Proof.Machine.execRedMinW p a b s
  | .redMinD p a b => Sys2Proof.Machine.execRedMinD p a b s
  | .redMaxW p a b => Sys2Proof.Machine.execRedMaxW p a b s
  | .redMaxD p a b => Sys2Proof.Machine.execRedMaxD p a b s
  | .redAndD p a b => Sys2Proof.Machine.execRedAndD p a b s
  | .redOrD p a b => Sys2Proof.Machine.execRedOrD p a b s
  | .redXorD p a b => Sys2Proof.Machine.execRedXorD p a b s
  | .redFaddS p a b => Sys2Proof.Machine.execRedFaddS p a b s
  | .redFxa p a b => Sys2Proof.Machine.execRedFxa p a b s
  | .lrwW p d a => Sys2Proof.Machine.execLrwW p d a s
  | .lrwD p d a => Sys2Proof.Machine.execLrwD p d a s
  | .schW p a b => Sys2Proof.Machine.execSchW p a b s
  | .schD p a b => Sys2Proof.Machine.execSchD p a b s
  | .lrwq p d a => Sys2Proof.Machine.execLrwq p d a s
  | .stxW p a b => Sys2Proof.Machine.execStxW p a b s
  | .stxD p a b => Sys2Proof.Machine.execStxD p a b s
  | .stxRelW p a b d => Sys2Proof.Machine.execStxRelW p a b d s
  | .stxRelD p a b d => Sys2Proof.Machine.execStxRelD p a b d s
  | .ldaW p d a b => Sys2Proof.Machine.execLdaW p d a b s
  | .ldaD p d a b => Sys2Proof.Machine.execLdaD p d a b s
  | .vld p g d a => Sys2Proof.Machine.execVld p g d a s
  | .vst p g d a => Sys2Proof.Machine.execVst p g d a s
  | .vlds p g d a b => Sys2Proof.Machine.execVlds p g d a b s
  | .vsts p g d a b => Sys2Proof.Machine.execVsts p g d a b s
  | .vgath p g d a b => Sys2Proof.Machine.execVgath p g d a b s
  | .vscat p g d a b => Sys2Proof.Machine.execVscat p g d a b s
  | .vldl p g d a => Sys2Proof.Machine.execVldl p g d a s
  | .vstl p g d a => Sys2Proof.Machine.execVstl p g d a s
  | .vadd p g d a b => Sys2Proof.Machine.execVadd p g d a b s
  | .vsub p g d a b => Sys2Proof.Machine.execVsub p g d a b s
  | .vmul p g d a b => Sys2Proof.Machine.execVmul p g d a b s
  | .vfma p g d a b => Sys2Proof.Machine.execVfma p g d a b s
  | .vfms p g d a b => Sys2Proof.Machine.execVfms p g d a b s
  | .vmin p g d a b => Sys2Proof.Machine.execVmin p g d a b s
  | .vmax p g d a b => Sys2Proof.Machine.execVmax p g d a b s
  | .vabs p g d a => Sys2Proof.Machine.execVabs p g d a s
  | .vneg p g d a => Sys2Proof.Machine.execVneg p g d a s
  | .vand p g d a b => Sys2Proof.Machine.execVand p g d a b s
  | .vor p g d a b => Sys2Proof.Machine.execVor p g d a b s
  | .vxor p g d a b => Sys2Proof.Machine.execVxor p g d a b s
  | .vshl p g d a b => Sys2Proof.Machine.execVshl p g d a b s
  | .vshr p g d a b => Sys2Proof.Machine.execVshr p g d a b s
  | .vshrl p g d a b => Sys2Proof.Machine.execVshrl p g d a b s
  | .vcmpeq p g d a b => Sys2Proof.Machine.execVcmpeq p g d a b s
  | .vcmplt p g d a b => Sys2Proof.Machine.execVcmplt p g d a b s
  | .vcmple p g d a b => Sys2Proof.Machine.execVcmple p g d a b s
  | .vsel p g d a b => Sys2Proof.Machine.execVsel p g d a b s
  | .vmov p g d a => Sys2Proof.Machine.execVmov p g d a s
  | .vbcast p g d a => Sys2Proof.Machine.execVbcast p g d a s
  | .vins p g d a b => Sys2Proof.Machine.execVins p g d a b s
  | .vext p g d a b => Sys2Proof.Machine.execVext p g d a b s
  | .vperm p g d a b => Sys2Proof.Machine.execVperm p g d a b s
  | .vcvt p g d a fmt u => Sys2Proof.Machine.execVcvt p g d a fmt u s
  | .vrsum p g d a => Sys2Proof.Machine.execVrsum p g d a s
  | .vrmax p g d a => Sys2Proof.Machine.execVrmax p g d a s
  | .vrmin p g d a => Sys2Proof.Machine.execVrmin p g d a s
  | .vrcp p g d a => Sys2Proof.Machine.execVrcp p g d a s
  | .vrsqrt p g d a => Sys2Proof.Machine.execVrsqrt p g d a s
  | .vexp2 p g d a => Sys2Proof.Machine.execVexp2 p g d a s
  | .vlog2 p g d a => Sys2Proof.Machine.execVlog2 p g d a s
  | .vsett p d a => Sys2Proof.Machine.execVsett p d a s
  | .pand p d a b => Sys2Proof.Machine.execPand p d a b s
  | .por p d a b => Sys2Proof.Machine.execPor p d a b s
  | .pnot p d a => Sys2Proof.Machine.execPnot p d a s
  | .pcnt p d a => Sys2Proof.Machine.execPcnt p d a s
  | .pfirst p d a => Sys2Proof.Machine.execPfirst p d a s
  | .pset p d a => Sys2Proof.Machine.execPset p d a s
  | .tld p td a pitched => Sys2Proof.Machine.execTld p td a pitched s
  | .tst p td a pitched => Sys2Proof.Machine.execTst p td a pitched s
  | .tzero p td => Sys2Proof.Machine.execTzero p td s
  | .tmov p td ta => Sys2Proof.Machine.execTmov p td ta s
  | .ttrans p td ta => Sys2Proof.Machine.execTtrans p td ta s
  | .acld p td a => Sys2Proof.Machine.execAcld p td a s
  | .acst p td a => Sys2Proof.Machine.execAcst p td a s
  | .acz p td => Sys2Proof.Machine.execAcz p td s
  | .tcvt p td ta => Sys2Proof.Machine.execTcvt p td ta s
  | .tgen p td g tr => Sys2Proof.Machine.execTgen p td g tr s
  | .tfill p td a => Sys2Proof.Machine.execTfill p td a s
  | .tmma p td ta tb tr => Sys2Proof.Machine.execTmma p td ta tb tr s
  | .tmmas p td ta tb tm tr => Sys2Proof.Machine.execTmmas p td ta tb tm tr s
  | .tmmag p td ta g tr => Sys2Proof.Machine.execTmmag p td ta g tr s
  | .gsetK p gd a => Sys2Proof.Machine.execGsetK p gd a s
  | .gsetSeed p gd a => Sys2Proof.Machine.execGsetSeed p gd a s
  | .gsetScope p gd a loc => Sys2Proof.Machine.execGsetScope p gd a loc s
  | .gsetOrg p gd a => Sys2Proof.Machine.execGsetOrg p gd a s
  | .gsetPar p gd a => Sys2Proof.Machine.execGsetPar p gd a s
  | .standardLoad f rd rs1 imm => Sys2Proof.Machine.execStandardLoad f rd rs1 imm s
  | .standardStore f rs1 rs2 imm => Sys2Proof.Machine.execStandardStore f rs1 rs2 imm s
  | .baseCompute c => Sys2Proof.Machine.execBaseCompute c s
  | .branchJump j => Sys2Proof.Machine.execBranchJump j s
  | .fence fm pred succ rd rs1 => Sys2Proof.Machine.execFence fm pred succ rd rs1 s
  | .fenceTso rd rs1 => Sys2Proof.Machine.execFenceTso rd rs1 s
  | .fenceI imm rd rs1 => Sys2Proof.Machine.execFenceI imm rd rs1 s
  | .lr dbl aq rl rd rs1 => Sys2Proof.Machine.execLr dbl aq rl rd rs1 s
  | .sc dbl aq rl rd rs1 rs2 => Sys2Proof.Machine.execSc dbl aq rl rd rs1 rs2 s
  | .amo f dbl aq rl rd rs1 rs2 => Sys2Proof.Machine.execAmo f dbl aq rl rd rs1 rs2 s
  | .wfi => Sys2Proof.Machine.execWfi s
  | .sfenceVma rs1 rs2 => Sys2Proof.Machine.execSfenceVma rs1 rs2 s
  | .ecall => Sys2Proof.Machine.execEcall s
  | .ebreak => Sys2Proof.Machine.execEbreak s
  | .sret => Sys2Proof.Machine.execSret s
  | .csrInstruction f immediate csr rd src => Sys2Proof.Machine.execCsrInstruction f immediate csr rd src s
  | .longLatencyResult t k => Sys2Proof.Machine.execLongLatencyResult t k s
  | .interrupt t => Sys2Proof.Machine.execInterrupt t s
  | .seiChange t on => Sys2Proof.Machine.execSeiChange t on s
  | .stiTimer t on => Sys2Proof.Machine.execStiTimer t on s
  | .mpWake t => Sys2Proof.Machine.execMpWake t s
  | .yieldEnd t => Sys2Proof.Machine.execYieldEnd t s
  | .commitGrant t => Sys2Proof.Machine.execCommitGrant t s
  | .commitBroadcastApply k => Sys2Proof.Machine.execCommitBroadcastApply k s
  | .tokenGrant => Sys2Proof.Machine.execTokenGrant s
  | .postCommitRelease t => Sys2Proof.Machine.execPostCommitRelease t s
  | .commandInstall k => Sys2Proof.Machine.execCommandInstall k s
  | .relaxedStorePerform k => Sys2Proof.Machine.execRelaxedStorePerform k s
  | .reductionApply k => Sys2Proof.Machine.execReductionApply k s
  | .invalidationApply k => Sys2Proof.Machine.execInvalidationApply k s
  | .releaseComplete k => Sys2Proof.Machine.execReleaseComplete k s
  | .tlbinvComplete k => Sys2Proof.Machine.execTlbinvComplete k s
  | .farStoreGroup k => Sys2Proof.Machine.execFarStoreGroup k s
  | .farRequestServe k => Sys2Proof.Machine.execFarRequestServe k s
  | .farAck k => Sys2Proof.Machine.execFarAck k s
  | .farRefusal k cls => Sys2Proof.Machine.execFarRefusal k cls s
  | .farTimeout k => Sys2Proof.Machine.execFarTimeout k s
  | .switchInvalidation pa data => Sys2Proof.Machine.execSwitchInvalidation pa data s
  | .barrierArrival k => Sys2Proof.Machine.execBarrierArrival k s
  | .barrierTimeout k => Sys2Proof.Machine.execBarrierTimeout k s
  | .reservationRequest k => Sys2Proof.Machine.execReservationRequest k s
  | .reservationHandover k => Sys2Proof.Machine.execReservationHandover k s
  | .reservationResend k => Sys2Proof.Machine.execReservationResend k s
  | .grantTimeout k => Sys2Proof.Machine.execGrantTimeout k s
  | .waitswapExpiry t => Sys2Proof.Machine.execWaitswapExpiry t s
  | .messageArrival k => Sys2Proof.Machine.execMessageArrival k s
  | .messageAck k => Sys2Proof.Machine.execMessageAck k s
  | .spillRingDrain t c => Sys2Proof.Machine.execSpillRingDrain t c s
  | .antiMessageArrival k => Sys2Proof.Machine.execAntiMessageArrival k s
  | .rollback t => Sys2Proof.Machine.execRollback t s
  | .gvtPublish key => Sys2Proof.Machine.execGvtPublish key s
  | .ringWaitTimeout t => Sys2Proof.Machine.execRingWaitTimeout t s
  | .steal t => Sys2Proof.Machine.execSteal t s
  | .taskDecrement k => Sys2Proof.Machine.execTaskDecrement k s
  | .launchQuiescent l => Sys2Proof.Machine.execLaunchQuiescent l s
  | .nodeCacheRefill core l => Sys2Proof.Machine.execNodeCacheRefill core l s
  | .mma core => Sys2Proof.Machine.execMma core s
  | .mmag core => Sys2Proof.Machine.execMmag core s
  | .mmas core => Sys2Proof.Machine.execMmas core s
  | .accz core => Sys2Proof.Machine.execAccz core s
  | .accout core => Sys2Proof.Machine.execAccout core s
  | .gangmma core => Sys2Proof.Machine.execGangmma core s
  | .copy core => Sys2Proof.Machine.execCopy core s
  | .redcopy core => Sys2Proof.Machine.execRedcopy core s
  | .gather core => Sys2Proof.Machine.execGather core s
  | .scatter core => Sys2Proof.Machine.execScatter core s
  | .scalecast core => Sys2Proof.Machine.execScalecast core s
  | .allred core => Sys2Proof.Machine.execAllred core s
  | .bcast core => Sys2Proof.Machine.execBcast core s
  | .redscat core => Sys2Proof.Machine.execRedscat core s
  | .allgath core => Sys2Proof.Machine.execAllgath core s
  | .ckpt => Sys2Proof.Machine.execCkpt s
  | .ckptRestore => Sys2Proof.Machine.execCkptRestore s
  | .commandRetire ticketId => Sys2Proof.Machine.execCommandRetire ticketId s
  | .redcopyApply ticketId => Sys2Proof.Machine.execRedcopyApply ticketId s
  | .redcopyResend ticketId => Sys2Proof.Machine.execRedcopyResend ticketId s
  | .regionGapTimeout r => Sys2Proof.Machine.execRegionGapTimeout r s
  | .collectiveContribution slot remote => Sys2Proof.Machine.execCollectiveContribution slot remote s
  | .collectiveTimeout slot => Sys2Proof.Machine.execCollectiveTimeout slot s
  | .ckptAllArrived => Sys2Proof.Machine.execCkptAllArrived s
  | .ckptTimeout => Sys2Proof.Machine.execCkptTimeout s
  | .ckptResume => Sys2Proof.Machine.execCkptResume s
  | .ckptDrain => Sys2Proof.Machine.execCkptDrain s
  | .vectorWindow core => Sys2Proof.Machine.execVectorWindow core s
  | .refpbDue stack pc bank => Sys2Proof.Machine.execRefpbDue stack pc bank s
  | .owedRefresh stack pc bank => Sys2Proof.Machine.execOwedRefresh stack pc bank s
  | .hostSnoop pa data => Sys2Proof.Machine.execHostSnoop pa data s
  | .hostCxlMemAccess pa data => Sys2Proof.Machine.execHostCxlMemAccess pa data s
  | .biasFlip => Sys2Proof.Machine.execBiasFlip s
  | .biasFlipComplete => Sys2Proof.Machine.execBiasFlipComplete s
  | .qtailWrite q v => Sys2Proof.Machine.execQtailWrite q v s
  | .recordFetch q => Sys2Proof.Machine.execRecordFetch q s
  | .recordRefetch q => Sys2Proof.Machine.execRecordRefetch q s
  | .launchPlacement => Sys2Proof.Machine.execLaunchPlacement s
  | .preemption t => Sys2Proof.Machine.execPreemption t s
  | .contextRestore t => Sys2Proof.Machine.execContextRestore t s
  | .slotDisable core slot => Sys2Proof.Machine.execSlotDisable core slot s
  | .slotEnable core slot => Sys2Proof.Machine.execSlotEnable core slot s
  | .launchComplete l => Sys2Proof.Machine.execLaunchComplete l s
  | .queueConfigWrite q size v => Sys2Proof.Machine.execQueueConfigWrite q size v s
  | .queueSwitchOut q => Sys2Proof.Machine.execQueueSwitchOut q s
  | .queueSwitchIn q => Sys2Proof.Machine.execQueueSwitchIn q s
  | .queueClear q => Sys2Proof.Machine.execQueueClear q s
  | .queueClearSkip q => Sys2Proof.Machine.execQueueClearSkip q s
  | .chunklenWrite v => Sys2Proof.Machine.execChunklenWrite v s
  | .aeroleWrite v => Sys2Proof.Machine.execAeroleWrite v s
  | .squashmaxWrite v => Sys2Proof.Machine.execSquashmaxWrite v s
  | .stealdomWrite v => Sys2Proof.Machine.execStealdomWrite v s
  | .loopcWrite l v => Sys2Proof.Machine.execLoopcWrite l v s
  | .errinjWrite v => Sys2Proof.Machine.execErrinjWrite v s
  | .errlogEntryClear v => Sys2Proof.Machine.execErrlogEntryClear v s
  | .eventCsrWrite cnt n v => Sys2Proof.Machine.execEventCsrWrite cnt n v s
  | .perCoreCsrWrite therm v => Sys2Proof.Machine.execPerCoreCsrWrite therm v s
  | .tccFlush core => Sys2Proof.Machine.execTccFlush core s
  | .tmarkMark t v => Sys2Proof.Machine.execTmarkMark t v s
  | .tmarkStart t v => Sys2Proof.Machine.execTmarkStart t v s
  | .tmarkStop t v => Sys2Proof.Machine.execTmarkStop t v s
  | .satpWrite v => Sys2Proof.Machine.execSatpWrite v s
  | .stvecWrite v => Sys2Proof.Machine.execStvecWrite v s
  | .vshareWrite v => Sys2Proof.Machine.execVshareWrite v s
  | .registerWrite r v => Sys2Proof.Machine.execRegisterWrite r v s
  | .domainMembershipWrite n v => Sys2Proof.Machine.execDomainMembershipWrite n v s
  | .regionValid r => Sys2Proof.Machine.execRegionValid r s
  | .regionReset r => Sys2Proof.Machine.execRegionReset r s
  | .collectiveSlotValid slot => Sys2Proof.Machine.execCollectiveSlotValid slot s
  | .flitCrcReplay port => Sys2Proof.Machine.execFlitCrcReplay port s
  | .portDown port => Sys2Proof.Machine.execPortDown port s
  | .debugHalt cluster => Sys2Proof.Machine.execDebugHalt cluster s
  | .debugResume cluster => Sys2Proof.Machine.execDebugResume cluster s
  | .dmdataRead cluster => Sys2Proof.Machine.execDmdataRead cluster s
  | .dmdataWrite cluster v => Sys2Proof.Machine.execDmdataWrite cluster v s
  | .dmmemRead cluster => Sys2Proof.Machine.execDmmemRead cluster s
  | .dmmemWrite cluster v => Sys2Proof.Machine.execDmmemWrite cluster v s
  | .statePacketFlush t => Sys2Proof.Machine.execStatePacketFlush t s
  | .trrdptrWrite v => Sys2Proof.Machine.execTrrdptrWrite v s
  | .freezeSignal => Sys2Proof.Machine.execFreezeSignal s
  | .freezeRegisterWrite v => Sys2Proof.Machine.execFreezeRegisterWrite v s
  | .warmReset => Sys2Proof.Machine.execWarmReset s
  | .coldReset => Sys2Proof.Machine.execColdReset s
  | .boot ldb conf imgErr recovery offline => Sys2Proof.Machine.execBoot ldb conf imgErr recovery offline s
  | .flashWindowWrite off v => Sys2Proof.Machine.execFlashWindowWrite off v s
  | .pwrcapWrite v => Sys2Proof.Machine.execPwrcapWrite v s
  | .powerThrottle => Sys2Proof.Machine.execPowerThrottle s
  | .clusterPowerGate cluster => Sys2Proof.Machine.execClusterPowerGate cluster s
  | .clusterWake cluster => Sys2Proof.Machine.execClusterWake cluster s
  | .d3hotEntry => Sys2Proof.Machine.execD3hotEntry s
  | .missFill core pa fetch => Sys2Proof.Machine.execMissFill core pa fetch s
  | .refreshEnd stack pc bank => Sys2Proof.Machine.execRefreshEnd stack pc bank s
  | .hostAgentFailure pa => Sys2Proof.Machine.execHostAgentFailure pa s
  | .d3hotExit => Sys2Proof.Machine.execD3hotExit s

end Sys2Proof.Machine
end

