-- ==== Sys2Proof/Machine/Step.lean ====
section
/-!
DEFINITION. One step of the machine: the next move of the agenda, or of the model's own order where the agenda is empty
(log 4, log 5).
-/
namespace Sys2Proof.Machine

/-- Goes on with the next state, where there is one. -/
def thenDo (o : Out) (f : State → State) : Out :=
  match o with
  | .next s => .next (f s)
  | .fault e => .fault e
  | .refused e => .refused e

/-- A thread issues: its instruction is executed, or what its boundary or its wait brings takes place. -/
def issue (s : State) (t : Nat) : Out := (takeSlot exec s t).1

/-- A reset, which alone leaves the freeze (R376). -/
def isReset : Instr → Bool
  | .warmReset => true
  | .coldReset => true
  | _ => false

/-- One move: while the package is frozen only a reset has an effect (R376). -/
def runMove (s : State) : Move → Out
  | .issue t => if s.reg.frozen then .next s else issue s t
  | .event i => if s.reg.frozen && !isReset i then .next s else thenDo (exec i s) (settleMove s)
  | .upset u => if s.reg.frozen then .next s else .next (strike s u)
  | .undoRead t => if s.reg.frozen then .next s else .next (settleMove s (undoRead s t))
  | .window h => if s.reg.frozen then .next s else .next { s with reg := { s.reg with alias0 := some h } }

/-- A move that changed something. -/
def changed (s : State) (o : Out) : Option Out :=
  match o with
  | .next s' => if s' = s then none else some o
  | o => some o

/-- The first of some moves that changes something. -/
def firstMove (s : State) (l : List Move) : Option Out := l.findSome? fun m => changed s (runMove s m)

/-- A core's issue slot of this cycle (R25). -/
def issueCore (s : State) (core : Nat) : Out :=
  thenDo (coreSlot exec s core) fun s => { s with turn := core + 1 }

/-- The model's own order: an operation, else a core's issue slot, else the next cycle (log 5). -/
def auto (s : State) : Out :=
  if s.reg.frozen then .next s
  else
    match firstMove s ((autoEvents s).map .event) with
    | some o => o
    | none =>
      match coresLeft s with
      | c :: _ => issueCore s c
      | [] => .next (tick s)

/-- One step. -/
def step (s : State) : Out :=
  match s.agenda with
  | m :: rest => runMove { s with agenda := rest } m
  | [] => auto s

/-! ## A program placed from outside (log 4) -/

/-- A thread of a launch of its own in slot 0 of core 0, about to fetch at an address with the registers of a launch's
start; its context region lies apart from the code. -/
def placeThread (s : State) (pa : Nat) : State :=
  let regs := { Regs.reset with pc := BitVec.ofNat 64 pa }
  let th := { Thread.reset with loc := .slot, tile := true, lid := s.nextLid, regs := regs, chunk := Chunk.fresh s.nextUid regs }
  { s with
    threads := tabSet s.threads s.nextTid th
    launches := tabSet s.launches s.nextLid { Launch.reset with tt := 1, nt := 1, region := s.devPa 0x100000 }
    nextTid := s.nextTid + 1
    nextLid := s.nextLid + 1
    nextUid := s.nextUid + 1
    agenda := [.issue s.nextTid] }

/-- s with an instruction stored where the next step fetches: in memory and in the instruction cache of core 0, where a
thread stands before it (log 4). -/
def State.withFetchWord (s : State) (_nbits w : Nat) : State :=
  let pa := s.devPa 0x1000
  let bs := leBytes 4 w
  ({ placeThread s pa with mem := memWrite s.mem pa bs }).modCore 0 fun c => { c with l1i := layWrite c.l1i pa bs }

end Sys2Proof.Machine
end

