-- ==== Sys2Proof/Laws/Encoding.lean ====
section
/-!
SUPPORT. The fields of an encoded word: each field of a format reads back as it was put in.
-/
set_option Elab.async false
set_option linter.unusedSimpArgs false
namespace Sys2Proof

/-! ## Fields of concatenations -/

theorem ext_append_hi {m n : Nat} (x : BitVec m) (y : BitVec n) (j k : Nat) (h : n ≤ j) :
    (x ++ y).extractLsb' j k = x.extractLsb' (j - n) k := by
  ext i hi
  simp only [BitVec.getElem_extractLsb', BitVec.getLsbD_append]
  have h1 : ¬ (j + i < n) := by omega
  have h2 : j + i - n = j - n + i := by omega
  simp [h1, h2]

theorem ext_append_in {m n : Nat} (x : BitVec m) (y : BitVec n) (j k : Nat) (h : j + k ≤ n) :
    (x ++ y).extractLsb' j k = y.extractLsb' j k := by
  ext i hi
  simp only [BitVec.getElem_extractLsb', BitVec.getLsbD_append]
  have : j + i < n := by omega
  simp [this]

theorem getLsbD_append_hi {m n : Nat} (x : BitVec m) (y : BitVec n) (j : Nat) (h : n ≤ j) :
    (x ++ y).getLsbD j = x.getLsbD (j - n) := by
  have h1 : ¬ j < n := by omega
  simp [BitVec.getLsbD_append, h1]

section
variable (p : Bool) (f6 : BitVec 6) (b : Reg) (a : Reg) (f3 : BitVec 3) (d : Reg) (opc : BitVec 7)

@[simp] theorem fmtK_opc : (fmtK p f6 b a f3 d opc).opc = opc := by
  change BitVec.extractLsb' 0 7 (BitVec.ofBool p ++ f6 ++ b ++ a ++ f3 ++ d ++ opc) = opc
  rw [ext_append_in _ _ _ _ (by decide)]; simp

@[simp] theorem fmtK_d : (fmtK p f6 b a f3 d opc).d = d := by
  change BitVec.extractLsb' 7 5 (BitVec.ofBool p ++ f6 ++ b ++ a ++ f3 ++ d ++ opc) = d
  rw [ext_append_hi _ _ _ _ (by decide), ext_append_in _ _ _ _ (by decide)]; simp

@[simp] theorem fmtK_f3 : (fmtK p f6 b a f3 d opc).f3 = f3 := by
  change BitVec.extractLsb' 12 3 (BitVec.ofBool p ++ f6 ++ b ++ a ++ f3 ++ d ++ opc) = f3
  rw [ext_append_hi _ _ _ _ (by decide), ext_append_hi _ _ _ _ (by decide), ext_append_in _ _ _ _ (by decide)]; simp

@[simp] theorem fmtK_a : (fmtK p f6 b a f3 d opc).a = a := by
  change BitVec.extractLsb' 15 5 (BitVec.ofBool p ++ f6 ++ b ++ a ++ f3 ++ d ++ opc) = a
  rw [ext_append_hi _ _ _ _ (by decide), ext_append_hi _ _ _ _ (by decide), ext_append_hi _ _ _ _ (by decide), ext_append_in _ _ _ _ (by decide)]; simp

@[simp] theorem fmtK_b : (fmtK p f6 b a f3 d opc).b = b := by
  change BitVec.extractLsb' 20 5 (BitVec.ofBool p ++ f6 ++ b ++ a ++ f3 ++ d ++ opc) = b
  rw [ext_append_hi _ _ _ _ (by decide), ext_append_hi _ _ _ _ (by decide), ext_append_hi _ _ _ _ (by decide), ext_append_hi _ _ _ _ (by decide), ext_append_in _ _ _ _ (by decide)]; simp

@[simp] theorem fmtK_f6 : (fmtK p f6 b a f3 d opc).f6 = f6 := by
  change BitVec.extractLsb' 25 6 (BitVec.ofBool p ++ f6 ++ b ++ a ++ f3 ++ d ++ opc) = f6
  rw [ext_append_hi _ _ _ _ (by decide), ext_append_hi _ _ _ _ (by decide), ext_append_hi _ _ _ _ (by decide), ext_append_hi _ _ _ _ (by decide), ext_append_hi _ _ _ _ (by decide), ext_append_in _ _ _ _ (by decide)]; simp

@[simp] theorem fmtK_park : (fmtK p f6 b a f3 d opc).park = p := by
  change BitVec.getLsbD (BitVec.ofBool p ++ f6 ++ b ++ a ++ f3 ++ d ++ opc) 31 = p
  rw [getLsbD_append_hi _ _ _ (by decide), getLsbD_append_hi _ _ _ (by decide), getLsbD_append_hi _ _ _ (by decide), getLsbD_append_hi _ _ _ (by decide), getLsbD_append_hi _ _ _ (by decide), getLsbD_append_hi _ _ _ (by decide)]
  simp

theorem fmtK_low : (fmtK p f6 b a f3 d opc).extractLsb' 0 2 = (opc).extractLsb' 0 2 := by
  change BitVec.extractLsb' 0 2 (BitVec.ofBool p ++ f6 ++ b ++ a ++ f3 ++ d ++ opc) = _
  rw [ext_append_in _ _ _ _ (by decide)]

theorem fmtK_wide : (fmtK p f6 b a f3 d opc).extractLsb' 2 3 = (opc).extractLsb' 2 3 := by
  change BitVec.extractLsb' 2 3 (BitVec.ofBool p ++ f6 ++ b ++ a ++ f3 ++ d ++ opc) = _
  rw [ext_append_in _ _ _ _ (by decide)]
end

section
variable (p : Bool) (imm : BitVec 11) (a : Reg) (f3 : BitVec 3) (d : Reg) (opc : BitVec 7)

@[simp] theorem fmtI_opc : (fmtI p imm a f3 d opc).opc = opc := by
  change BitVec.extractLsb' 0 7 (BitVec.ofBool p ++ imm ++ a ++ f3 ++ d ++ opc) = opc
  rw [ext_append_in _ _ _ _ (by decide)]; simp

@[simp] theorem fmtI_d : (fmtI p imm a f3 d opc).d = d := by
  change BitVec.extractLsb' 7 5 (BitVec.ofBool p ++ imm ++ a ++ f3 ++ d ++ opc) = d
  rw [ext_append_hi _ _ _ _ (by decide), ext_append_in _ _ _ _ (by decide)]; simp

@[simp] theorem fmtI_f3 : (fmtI p imm a f3 d opc).f3 = f3 := by
  change BitVec.extractLsb' 12 3 (BitVec.ofBool p ++ imm ++ a ++ f3 ++ d ++ opc) = f3
  rw [ext_append_hi _ _ _ _ (by decide), ext_append_hi _ _ _ _ (by decide), ext_append_in _ _ _ _ (by decide)]; simp

@[simp] theorem fmtI_a : (fmtI p imm a f3 d opc).a = a := by
  change BitVec.extractLsb' 15 5 (BitVec.ofBool p ++ imm ++ a ++ f3 ++ d ++ opc) = a
  rw [ext_append_hi _ _ _ _ (by decide), ext_append_hi _ _ _ _ (by decide), ext_append_hi _ _ _ _ (by decide), ext_append_in _ _ _ _ (by decide)]; simp

@[simp] theorem fmtI_imm11 : (fmtI p imm a f3 d opc).imm11 = imm := by
  change BitVec.extractLsb' 20 11 (BitVec.ofBool p ++ imm ++ a ++ f3 ++ d ++ opc) = imm
  rw [ext_append_hi _ _ _ _ (by decide), ext_append_hi _ _ _ _ (by decide), ext_append_hi _ _ _ _ (by decide), ext_append_hi _ _ _ _ (by decide), ext_append_in _ _ _ _ (by decide)]; simp

@[simp] theorem fmtI_park : (fmtI p imm a f3 d opc).park = p := by
  change BitVec.getLsbD (BitVec.ofBool p ++ imm ++ a ++ f3 ++ d ++ opc) 31 = p
  rw [getLsbD_append_hi _ _ _ (by decide), getLsbD_append_hi _ _ _ (by decide), getLsbD_append_hi _ _ _ (by decide), getLsbD_append_hi _ _ _ (by decide), getLsbD_append_hi _ _ _ (by decide)]
  simp

theorem fmtI_low : (fmtI p imm a f3 d opc).extractLsb' 0 2 = (opc).extractLsb' 0 2 := by
  change BitVec.extractLsb' 0 2 (BitVec.ofBool p ++ imm ++ a ++ f3 ++ d ++ opc) = _
  rw [ext_append_in _ _ _ _ (by decide)]

theorem fmtI_wide : (fmtI p imm a f3 d opc).extractLsb' 2 3 = (opc).extractLsb' 2 3 := by
  change BitVec.extractLsb' 2 3 (BitVec.ofBool p ++ imm ++ a ++ f3 ++ d ++ opc) = _
  rw [ext_append_in _ _ _ _ (by decide)]
end

section
variable (p : Bool) (hi : BitVec 6) (b : Reg) (a : Reg) (f3 : BitVec 3) (lo : BitVec 5) (opc : BitVec 7)

@[simp] theorem fmtS_opc : (fmtS p hi b a f3 lo opc).opc = opc := by
  change BitVec.extractLsb' 0 7 (BitVec.ofBool p ++ hi ++ b ++ a ++ f3 ++ lo ++ opc) = opc
  rw [ext_append_in _ _ _ _ (by decide)]; simp

@[simp] theorem fmtS_f3 : (fmtS p hi b a f3 lo opc).f3 = f3 := by
  change BitVec.extractLsb' 12 3 (BitVec.ofBool p ++ hi ++ b ++ a ++ f3 ++ lo ++ opc) = f3
  rw [ext_append_hi _ _ _ _ (by decide), ext_append_hi _ _ _ _ (by decide), ext_append_in _ _ _ _ (by decide)]; simp

@[simp] theorem fmtS_a : (fmtS p hi b a f3 lo opc).a = a := by
  change BitVec.extractLsb' 15 5 (BitVec.ofBool p ++ hi ++ b ++ a ++ f3 ++ lo ++ opc) = a
  rw [ext_append_hi _ _ _ _ (by decide), ext_append_hi _ _ _ _ (by decide), ext_append_hi _ _ _ _ (by decide), ext_append_in _ _ _ _ (by decide)]; simp

@[simp] theorem fmtS_b : (fmtS p hi b a f3 lo opc).b = b := by
  change BitVec.extractLsb' 20 5 (BitVec.ofBool p ++ hi ++ b ++ a ++ f3 ++ lo ++ opc) = b
  rw [ext_append_hi _ _ _ _ (by decide), ext_append_hi _ _ _ _ (by decide), ext_append_hi _ _ _ _ (by decide), ext_append_hi _ _ _ _ (by decide), ext_append_in _ _ _ _ (by decide)]; simp

@[simp] theorem fmtS_park : (fmtS p hi b a f3 lo opc).park = p := by
  change BitVec.getLsbD (BitVec.ofBool p ++ hi ++ b ++ a ++ f3 ++ lo ++ opc) 31 = p
  rw [getLsbD_append_hi _ _ _ (by decide), getLsbD_append_hi _ _ _ (by decide), getLsbD_append_hi _ _ _ (by decide), getLsbD_append_hi _ _ _ (by decide), getLsbD_append_hi _ _ _ (by decide), getLsbD_append_hi _ _ _ (by decide)]
  simp

theorem fmtS_low : (fmtS p hi b a f3 lo opc).extractLsb' 0 2 = (opc).extractLsb' 0 2 := by
  change BitVec.extractLsb' 0 2 (BitVec.ofBool p ++ hi ++ b ++ a ++ f3 ++ lo ++ opc) = _
  rw [ext_append_in _ _ _ _ (by decide)]

theorem fmtS_wide : (fmtS p hi b a f3 lo opc).extractLsb' 2 3 = (opc).extractLsb' 2 3 := by
  change BitVec.extractLsb' 2 3 (BitVec.ofBool p ++ hi ++ b ++ a ++ f3 ++ lo ++ opc) = _
  rw [ext_append_in _ _ _ _ (by decide)]
end

section
variable (p : Bool) (f6 : BitVec 6) (g : BitVec 3) (b : Reg) (a : Reg) (d : Reg)

@[simp] theorem fmtV_opc : (fmtV p f6 g b a d).opc = (0x5B : BitVec 7) := by
  change BitVec.extractLsb' 0 7 (BitVec.ofBool p ++ f6 ++ g ++ b ++ a ++ d ++ (0x5B : BitVec 7)) = (0x5B : BitVec 7)
  rw [ext_append_in _ _ _ _ (by decide)]; simp

@[simp] theorem fmtV_d : (fmtV p f6 g b a d).d = d := by
  change BitVec.extractLsb' 7 5 (BitVec.ofBool p ++ f6 ++ g ++ b ++ a ++ d ++ (0x5B : BitVec 7)) = d
  rw [ext_append_hi _ _ _ _ (by decide), ext_append_in _ _ _ _ (by decide)]; simp

@[simp] theorem fmtV_f6 : (fmtV p f6 g b a d).f6 = f6 := by
  change BitVec.extractLsb' 25 6 (BitVec.ofBool p ++ f6 ++ g ++ b ++ a ++ d ++ (0x5B : BitVec 7)) = f6
  rw [ext_append_hi _ _ _ _ (by decide), ext_append_hi _ _ _ _ (by decide), ext_append_hi _ _ _ _ (by decide), ext_append_hi _ _ _ _ (by decide), ext_append_hi _ _ _ _ (by decide), ext_append_in _ _ _ _ (by decide)]; simp

@[simp] theorem fmtV_vg : (fmtV p f6 g b a d).vg = g := by
  change BitVec.extractLsb' 22 3 (BitVec.ofBool p ++ f6 ++ g ++ b ++ a ++ d ++ (0x5B : BitVec 7)) = g
  rw [ext_append_hi _ _ _ _ (by decide), ext_append_hi _ _ _ _ (by decide), ext_append_hi _ _ _ _ (by decide), ext_append_hi _ _ _ _ (by decide), ext_append_in _ _ _ _ (by decide)]; simp

@[simp] theorem fmtV_vb : (fmtV p f6 g b a d).vb = b := by
  change BitVec.extractLsb' 17 5 (BitVec.ofBool p ++ f6 ++ g ++ b ++ a ++ d ++ (0x5B : BitVec 7)) = b
  rw [ext_append_hi _ _ _ _ (by decide), ext_append_hi _ _ _ _ (by decide), ext_append_hi _ _ _ _ (by decide), ext_append_in _ _ _ _ (by decide)]; simp

@[simp] theorem fmtV_va : (fmtV p f6 g b a d).va = a := by
  change BitVec.extractLsb' 12 5 (BitVec.ofBool p ++ f6 ++ g ++ b ++ a ++ d ++ (0x5B : BitVec 7)) = a
  rw [ext_append_hi _ _ _ _ (by decide), ext_append_hi _ _ _ _ (by decide), ext_append_in _ _ _ _ (by decide)]; simp

@[simp] theorem fmtV_park : (fmtV p f6 g b a d).park = p := by
  change BitVec.getLsbD (BitVec.ofBool p ++ f6 ++ g ++ b ++ a ++ d ++ (0x5B : BitVec 7)) 31 = p
  rw [getLsbD_append_hi _ _ _ (by decide), getLsbD_append_hi _ _ _ (by decide), getLsbD_append_hi _ _ _ (by decide), getLsbD_append_hi _ _ _ (by decide), getLsbD_append_hi _ _ _ (by decide), getLsbD_append_hi _ _ _ (by decide)]
  simp

theorem fmtV_low : (fmtV p f6 g b a d).extractLsb' 0 2 = (0x5B : BitVec 7).extractLsb' 0 2 := by
  change BitVec.extractLsb' 0 2 (BitVec.ofBool p ++ f6 ++ g ++ b ++ a ++ d ++ (0x5B : BitVec 7)) = _
  rw [ext_append_in _ _ _ _ (by decide)]

theorem fmtV_wide : (fmtV p f6 g b a d).extractLsb' 2 3 = (0x5B : BitVec 7).extractLsb' 2 3 := by
  change BitVec.extractLsb' 2 3 (BitVec.ofBool p ++ f6 ++ g ++ b ++ a ++ d ++ (0x5B : BitVec 7)) = _
  rw [ext_append_in _ _ _ _ (by decide)]
end

section
variable (p : Bool) (f5 : BitVec 5) (a : Reg) (tb : BitVec 3) (ta : BitVec 3) (f3 : BitVec 3) (td : BitVec 3) (m : BitVec 2)

@[simp] theorem fmtT_opc : (fmtT p f5 a tb ta f3 td m).opc = (0x7B : BitVec 7) := by
  change BitVec.extractLsb' 0 7 (BitVec.ofBool p ++ f5 ++ a ++ tb ++ ta ++ f3 ++ td ++ m ++ (0x7B : BitVec 7)) = (0x7B : BitVec 7)
  rw [ext_append_in _ _ _ _ (by decide)]; simp

@[simp] theorem fmtT_f3 : (fmtT p f5 a tb ta f3 td m).f3 = f3 := by
  change BitVec.extractLsb' 12 3 (BitVec.ofBool p ++ f5 ++ a ++ tb ++ ta ++ f3 ++ td ++ m ++ (0x7B : BitVec 7)) = f3
  rw [ext_append_hi _ _ _ _ (by decide), ext_append_hi _ _ _ _ (by decide), ext_append_hi _ _ _ _ (by decide), ext_append_in _ _ _ _ (by decide)]; simp

@[simp] theorem fmtT_tf5 : (fmtT p f5 a tb ta f3 td m).tf5 = f5 := by
  change BitVec.extractLsb' 26 5 (BitVec.ofBool p ++ f5 ++ a ++ tb ++ ta ++ f3 ++ td ++ m ++ (0x7B : BitVec 7)) = f5
  rw [ext_append_hi _ _ _ _ (by decide), ext_append_hi _ _ _ _ (by decide), ext_append_hi _ _ _ _ (by decide), ext_append_hi _ _ _ _ (by decide), ext_append_hi _ _ _ _ (by decide), ext_append_hi _ _ _ _ (by decide), ext_append_hi _ _ _ _ (by decide), ext_append_in _ _ _ _ (by decide)]; simp

@[simp] theorem fmtT_ta : (fmtT p f5 a tb ta f3 td m).ta = a := by
  change BitVec.extractLsb' 21 5 (BitVec.ofBool p ++ f5 ++ a ++ tb ++ ta ++ f3 ++ td ++ m ++ (0x7B : BitVec 7)) = a
  rw [ext_append_hi _ _ _ _ (by decide), ext_append_hi _ _ _ _ (by decide), ext_append_hi _ _ _ _ (by decide), ext_append_hi _ _ _ _ (by decide), ext_append_hi _ _ _ _ (by decide), ext_append_hi _ _ _ _ (by decide), ext_append_in _ _ _ _ (by decide)]; simp

@[simp] theorem fmtT_ttb : (fmtT p f5 a tb ta f3 td m).ttb = tb := by
  change BitVec.extractLsb' 18 3 (BitVec.ofBool p ++ f5 ++ a ++ tb ++ ta ++ f3 ++ td ++ m ++ (0x7B : BitVec 7)) = tb
  rw [ext_append_hi _ _ _ _ (by decide), ext_append_hi _ _ _ _ (by decide), ext_append_hi _ _ _ _ (by decide), ext_append_hi _ _ _ _ (by decide), ext_append_hi _ _ _ _ (by decide), ext_append_in _ _ _ _ (by decide)]; simp

@[simp] theorem fmtT_tta : (fmtT p f5 a tb ta f3 td m).tta = ta := by
  change BitVec.extractLsb' 15 3 (BitVec.ofBool p ++ f5 ++ a ++ tb ++ ta ++ f3 ++ td ++ m ++ (0x7B : BitVec 7)) = ta
  rw [ext_append_hi _ _ _ _ (by decide), ext_append_hi _ _ _ _ (by decide), ext_append_hi _ _ _ _ (by decide), ext_append_hi _ _ _ _ (by decide), ext_append_in _ _ _ _ (by decide)]; simp

@[simp] theorem fmtT_ttd : (fmtT p f5 a tb ta f3 td m).ttd = td := by
  change BitVec.extractLsb' 9 3 (BitVec.ofBool p ++ f5 ++ a ++ tb ++ ta ++ f3 ++ td ++ m ++ (0x7B : BitVec 7)) = td
  rw [ext_append_hi _ _ _ _ (by decide), ext_append_hi _ _ _ _ (by decide), ext_append_in _ _ _ _ (by decide)]; simp

@[simp] theorem fmtT_tm : (fmtT p f5 a tb ta f3 td m).tm = m := by
  change BitVec.extractLsb' 7 2 (BitVec.ofBool p ++ f5 ++ a ++ tb ++ ta ++ f3 ++ td ++ m ++ (0x7B : BitVec 7)) = m
  rw [ext_append_hi _ _ _ _ (by decide), ext_append_in _ _ _ _ (by decide)]; simp

@[simp] theorem fmtT_park : (fmtT p f5 a tb ta f3 td m).park = p := by
  change BitVec.getLsbD (BitVec.ofBool p ++ f5 ++ a ++ tb ++ ta ++ f3 ++ td ++ m ++ (0x7B : BitVec 7)) 31 = p
  rw [getLsbD_append_hi _ _ _ (by decide), getLsbD_append_hi _ _ _ (by decide), getLsbD_append_hi _ _ _ (by decide), getLsbD_append_hi _ _ _ (by decide), getLsbD_append_hi _ _ _ (by decide), getLsbD_append_hi _ _ _ (by decide), getLsbD_append_hi _ _ _ (by decide), getLsbD_append_hi _ _ _ (by decide)]
  simp

theorem fmtT_low : (fmtT p f5 a tb ta f3 td m).extractLsb' 0 2 = (0x7B : BitVec 7).extractLsb' 0 2 := by
  change BitVec.extractLsb' 0 2 (BitVec.ofBool p ++ f5 ++ a ++ tb ++ ta ++ f3 ++ td ++ m ++ (0x7B : BitVec 7)) = _
  rw [ext_append_in _ _ _ _ (by decide)]

theorem fmtT_wide : (fmtT p f5 a tb ta f3 td m).extractLsb' 2 3 = (0x7B : BitVec 7).extractLsb' 2 3 := by
  change BitVec.extractLsb' 2 3 (BitVec.ofBool p ++ f5 ++ a ++ tb ++ ta ++ f3 ++ td ++ m ++ (0x7B : BitVec 7)) = _
  rw [ext_append_in _ _ _ _ (by decide)]
end

section
variable (f7 : BitVec 7) (rs2 : Reg) (rs1 : Reg) (f3 : BitVec 3) (rd : Reg) (opc : BitVec 7)

@[simp] theorem fmtR_opc : (fmtR f7 rs2 rs1 f3 rd opc).opc = opc := by
  change BitVec.extractLsb' 0 7 (f7 ++ rs2 ++ rs1 ++ f3 ++ rd ++ opc) = opc
  rw [ext_append_in _ _ _ _ (by decide)]; simp

@[simp] theorem fmtR_d : (fmtR f7 rs2 rs1 f3 rd opc).d = rd := by
  change BitVec.extractLsb' 7 5 (f7 ++ rs2 ++ rs1 ++ f3 ++ rd ++ opc) = rd
  rw [ext_append_hi _ _ _ _ (by decide), ext_append_in _ _ _ _ (by decide)]; simp

@[simp] theorem fmtR_f3 : (fmtR f7 rs2 rs1 f3 rd opc).f3 = f3 := by
  change BitVec.extractLsb' 12 3 (f7 ++ rs2 ++ rs1 ++ f3 ++ rd ++ opc) = f3
  rw [ext_append_hi _ _ _ _ (by decide), ext_append_hi _ _ _ _ (by decide), ext_append_in _ _ _ _ (by decide)]; simp

@[simp] theorem fmtR_a : (fmtR f7 rs2 rs1 f3 rd opc).a = rs1 := by
  change BitVec.extractLsb' 15 5 (f7 ++ rs2 ++ rs1 ++ f3 ++ rd ++ opc) = rs1
  rw [ext_append_hi _ _ _ _ (by decide), ext_append_hi _ _ _ _ (by decide), ext_append_hi _ _ _ _ (by decide), ext_append_in _ _ _ _ (by decide)]; simp

@[simp] theorem fmtR_b : (fmtR f7 rs2 rs1 f3 rd opc).b = rs2 := by
  change BitVec.extractLsb' 20 5 (f7 ++ rs2 ++ rs1 ++ f3 ++ rd ++ opc) = rs2
  rw [ext_append_hi _ _ _ _ (by decide), ext_append_hi _ _ _ _ (by decide), ext_append_hi _ _ _ _ (by decide), ext_append_hi _ _ _ _ (by decide), ext_append_in _ _ _ _ (by decide)]; simp

@[simp] theorem fmtR_f7 : (fmtR f7 rs2 rs1 f3 rd opc).f7 = f7 := by
  change BitVec.extractLsb' 25 7 (f7 ++ rs2 ++ rs1 ++ f3 ++ rd ++ opc) = f7
  rw [ext_append_hi _ _ _ _ (by decide), ext_append_hi _ _ _ _ (by decide), ext_append_hi _ _ _ _ (by decide), ext_append_hi _ _ _ _ (by decide), ext_append_hi _ _ _ _ (by decide)]; simp

theorem fmtR_low : (fmtR f7 rs2 rs1 f3 rd opc).extractLsb' 0 2 = (opc).extractLsb' 0 2 := by
  change BitVec.extractLsb' 0 2 (f7 ++ rs2 ++ rs1 ++ f3 ++ rd ++ opc) = _
  rw [ext_append_in _ _ _ _ (by decide)]

theorem fmtR_wide : (fmtR f7 rs2 rs1 f3 rd opc).extractLsb' 2 3 = (opc).extractLsb' 2 3 := by
  change BitVec.extractLsb' 2 3 (f7 ++ rs2 ++ rs1 ++ f3 ++ rd ++ opc) = _
  rw [ext_append_in _ _ _ _ (by decide)]
end

section
variable (imm : BitVec 12) (rs1 : Reg) (f3 : BitVec 3) (rd : Reg) (opc : BitVec 7)

@[simp] theorem fmtImm_opc : (fmtImm imm rs1 f3 rd opc).opc = opc := by
  change BitVec.extractLsb' 0 7 (imm ++ rs1 ++ f3 ++ rd ++ opc) = opc
  rw [ext_append_in _ _ _ _ (by decide)]; simp

@[simp] theorem fmtImm_d : (fmtImm imm rs1 f3 rd opc).d = rd := by
  change BitVec.extractLsb' 7 5 (imm ++ rs1 ++ f3 ++ rd ++ opc) = rd
  rw [ext_append_hi _ _ _ _ (by decide), ext_append_in _ _ _ _ (by decide)]; simp

@[simp] theorem fmtImm_f3 : (fmtImm imm rs1 f3 rd opc).f3 = f3 := by
  change BitVec.extractLsb' 12 3 (imm ++ rs1 ++ f3 ++ rd ++ opc) = f3
  rw [ext_append_hi _ _ _ _ (by decide), ext_append_hi _ _ _ _ (by decide), ext_append_in _ _ _ _ (by decide)]; simp

@[simp] theorem fmtImm_a : (fmtImm imm rs1 f3 rd opc).a = rs1 := by
  change BitVec.extractLsb' 15 5 (imm ++ rs1 ++ f3 ++ rd ++ opc) = rs1
  rw [ext_append_hi _ _ _ _ (by decide), ext_append_hi _ _ _ _ (by decide), ext_append_hi _ _ _ _ (by decide), ext_append_in _ _ _ _ (by decide)]; simp

@[simp] theorem fmtImm_imm12 : (fmtImm imm rs1 f3 rd opc).imm12 = imm := by
  change BitVec.extractLsb' 20 12 (imm ++ rs1 ++ f3 ++ rd ++ opc) = imm
  rw [ext_append_hi _ _ _ _ (by decide), ext_append_hi _ _ _ _ (by decide), ext_append_hi _ _ _ _ (by decide), ext_append_hi _ _ _ _ (by decide)]; simp

theorem fmtImm_low : (fmtImm imm rs1 f3 rd opc).extractLsb' 0 2 = (opc).extractLsb' 0 2 := by
  change BitVec.extractLsb' 0 2 (imm ++ rs1 ++ f3 ++ rd ++ opc) = _
  rw [ext_append_in _ _ _ _ (by decide)]

theorem fmtImm_wide : (fmtImm imm rs1 f3 rd opc).extractLsb' 2 3 = (opc).extractLsb' 2 3 := by
  change BitVec.extractLsb' 2 3 (imm ++ rs1 ++ f3 ++ rd ++ opc) = _
  rw [ext_append_in _ _ _ _ (by decide)]
end
/-! Small fields inside wider ones. -/

@[simp] theorem hi2z_ext5 : ∀ x, hi2z (ext5 x) = true := by decide

@[simp] theorem low3_ext5 : ∀ x, low3 (ext5 x) = x := by decide

@[simp] theorem accOf_ext3 : ∀ x, accOf (ext3 x) = x := by decide

@[simp] theorem ext3_high : ∀ x, (ext3 x)[2] = false := by decide

@[simp] theorem mod2_low : ∀ x, (mod2 x)[0] = x := by decide

@[simp] theorem mod2_high : ∀ x, (mod2 x)[1] = false := by decide

@[simp] theorem oneFour_high : ∀ (z : BitVec 1) (n : BitVec 4), (z ++ n : BitVec 5)[4] = z[0] := by decide

@[simp] theorem oneFour_low : ∀ (z : BitVec 1) (n : BitVec 4), (z ++ n : BitVec 5).extractLsb' 0 4 = n := by decide

@[simp] theorem threeTwo_high : ∀ (z : BitVec 3) (e : BitVec 2), (z ++ e : BitVec 5).extractLsb' 2 3 = z := by decide

@[simp] theorem threeTwo_low : ∀ (z : BitVec 3) (e : BitVec 2), (z ++ e : BitVec 5).extractLsb' 0 2 = e := by decide

@[simp] theorem level5_high : ∀ l, (level5 l).extractLsb' 1 4 = 0 := by decide

@[simp] theorem level5_low : ∀ l, (level5 l).extractLsb' 0 1 = l := by decide

@[simp] theorem vecOp_high : ∀ g k : BitVec 3, (g ++ k : BitVec 6).extractLsb' 3 3 = g := by decide

@[simp] theorem vecOp_low : ∀ g k : BitVec 3, (g ++ k : BitVec 6).extractLsb' 0 3 = k := by decide

@[simp] theorem local_mode (m s : BitVec 2) (o : BitVec 7) : (m ++ s ++ o : BitVec 11).extractLsb' 9 2 = m := by
  change BitVec.extractLsb' 9 2 (m ++ s ++ o) = m
  rw [ext_append_hi _ _ _ _ (by decide), ext_append_hi _ _ _ _ (by decide)]; simp

@[simp] theorem local_size (m s : BitVec 2) (o : BitVec 7) : (m ++ s ++ o : BitVec 11).extractLsb' 7 2 = s := by
  change BitVec.extractLsb' 7 2 (m ++ s ++ o) = s
  rw [ext_append_hi _ _ _ _ (by decide), ext_append_in _ _ _ _ (by decide)]; simp

@[simp] theorem local_off (m s : BitVec 2) (o : BitVec 7) : (m ++ s ++ o : BitVec 11).extractLsb' 0 7 = o := by
  change BitVec.extractLsb' 0 7 (m ++ s ++ o) = o
  rw [ext_append_in _ _ _ _ (by decide)]; simp

@[simp] theorem fmtS_imm11S (p : Bool) (hi : BitVec 6) (b a : Reg) (f3 : BitVec 3) (lo : BitVec 5) (opc : BitVec 7) :
    (fmtS p hi b a f3 lo opc).imm11S = hi ++ lo := by
  have h1 : (fmtS p hi b a f3 lo opc).extractLsb' 25 6 = hi := by
    change BitVec.extractLsb' 25 6 (BitVec.ofBool p ++ hi ++ b ++ a ++ f3 ++ lo ++ opc) = hi
    rw [ext_append_hi _ _ _ _ (by decide), ext_append_hi _ _ _ _ (by decide), ext_append_hi _ _ _ _ (by decide),
      ext_append_hi _ _ _ _ (by decide), ext_append_hi _ _ _ _ (by decide), ext_append_in _ _ _ _ (by decide)]; simp
  have h2 : (fmtS p hi b a f3 lo opc).extractLsb' 7 5 = lo := by
    change BitVec.extractLsb' 7 5 (BitVec.ofBool p ++ hi ++ b ++ a ++ f3 ++ lo ++ opc) = lo
    rw [ext_append_hi _ _ _ _ (by decide), ext_append_in _ _ _ _ (by decide)]; simp
  simp only [Inst.imm11S, h1, h2]

@[simp] theorem local_join (m s : BitVec 2) (o : BitVec 7) :
    ((m ++ s ++ o.extractLsb' 5 2 : BitVec 6) ++ o.extractLsb' 0 5 : BitVec 11) = m ++ s ++ o := by
  revert m s o; decide +kernel

/-! ## The standard base -/

theorem getLsbD_append_in {m n : Nat} (x : BitVec m) (y : BitVec n) (j : Nat) (h : j < n) :
    (x ++ y).getLsbD j = y.getLsbD j := by simp [BitVec.getLsbD_append, h]

theorem fmtR_immS (f7 : BitVec 7) (rs2 rs1 : Reg) (f3 : BitVec 3) (rd : Reg) (opc : BitVec 7) :
    (fmtR f7 rs2 rs1 f3 rd opc).immS = f7 ++ rd := by
  have h1 : (fmtR f7 rs2 rs1 f3 rd opc).extractLsb' 25 7 = f7 := fmtR_f7 ..
  have h2 : (fmtR f7 rs2 rs1 f3 rd opc).extractLsb' 7 5 = rd := fmtR_d ..
  simp only [Inst.immS, h1, h2]

theorem imm12_join (k : BitVec 12) : (k.extractLsb' 5 7 ++ k.extractLsb' 0 5 : BitVec 12) = k := by
  apply BitVec.eq_of_getLsbD_eq
  intro i hi
  change (BitVec.extractLsb' 5 7 k ++ BitVec.extractLsb' 0 5 k).getLsbD i = k.getLsbD i
  rw [BitVec.getLsbD_append]
  simp only [BitVec.getLsbD_extractLsb']
  by_cases h1 : i < 5
  · simp [h1]
  · have h2 : i - 5 < 7 := by omega
    have h3 : 5 + (i - 5) = i := by omega
    simp [h1, h2, h3]

theorem fmtImm_top (imm : BitVec 12) (rs1 : Reg) (f3 : BitVec 3) (rd : Reg) (opc : BitVec 7) (z : BitVec 6)
    (h : imm.extractLsb' 6 6 = z) : (fmtImm imm rs1 f3 rd opc).extractLsb' 26 6 = z := by
  change BitVec.extractLsb' 26 6 (imm ++ rs1 ++ f3 ++ rd ++ opc) = z
  rw [ext_append_hi _ _ _ _ (by decide), ext_append_hi _ _ _ _ (by decide), ext_append_hi _ _ _ _ (by decide),
    ext_append_hi _ _ _ _ (by decide)]
  exact h

theorem fmtImm_shamt (imm : BitVec 12) (rs1 : Reg) (f3 : BitVec 3) (rd : Reg) (opc : BitVec 7) :
    (fmtImm imm rs1 f3 rd opc).extractLsb' 20 6 = imm.extractLsb' 0 6 := by
  change BitVec.extractLsb' 20 6 (imm ++ rs1 ++ f3 ++ rd ++ opc) = _
  rw [ext_append_hi _ _ _ _ (by decide), ext_append_hi _ _ _ _ (by decide), ext_append_hi _ _ _ _ (by decide),
    ext_append_hi _ _ _ _ (by decide)]

theorem shamt_high (z sh : BitVec 6) : (z ++ sh : BitVec 12).extractLsb' 6 6 = z := by
  change BitVec.extractLsb' 6 6 (z ++ sh) = z
  rw [ext_append_hi _ _ _ _ (by decide)]; simp

theorem shamt_low (z sh : BitVec 6) : (z ++ sh : BitVec 12).extractLsb' 0 6 = sh := by
  change BitVec.extractLsb' 0 6 (z ++ sh) = sh
  rw [ext_append_in _ _ _ _ (by decide)]; simp

theorem shamt_toNat (z sh : BitVec 6) : (z ++ sh : BitVec 12).toNat = z.toNat * 64 + sh.toNat := by
  change BitVec.toNat (z ++ sh) = _
  rw [BitVec.toNat_append, ← Nat.shiftLeft_add_eq_or_of_lt sh.isLt, Nat.shiftLeft_eq]

theorem fmtImm_f7 (imm : BitVec 12) (rs1 : Reg) (f3 : BitVec 3) (rd : Reg) (opc : BitVec 7) :
    (fmtImm imm rs1 f3 rd opc).f7 = imm.extractLsb' 5 7 := by
  change BitVec.extractLsb' 25 7 (imm ++ rs1 ++ f3 ++ rd ++ opc) = _
  rw [ext_append_hi _ _ _ _ (by decide), ext_append_hi _ _ _ _ (by decide), ext_append_hi _ _ _ _ (by decide),
    ext_append_hi _ _ _ _ (by decide)]

theorem fmtImm_f7_ne {imm : BitVec 12} (h : 32 ≤ imm.toNat) (rs1 : Reg) (f3 : BitVec 3) (rd : Reg) (opc : BitVec 7) :
    (fmtImm imm rs1 f3 rd opc).f7 ≠ 0 := by
  rw [fmtImm_f7]
  intro e
  have := congrArg BitVec.toNat e
  simp [BitVec.extractLsb'_toNat, Nat.shiftRight_eq_div_pow] at this
  have := imm.isLt
  omega

theorem fmtR_imm12 (f7 : BitVec 7) (rs2 rs1 : Reg) (f3 : BitVec 3) (rd : Reg) (opc : BitVec 7) :
    (fmtR f7 rs2 rs1 f3 rd opc).imm12.toNat = f7.toNat * 32 + rs2.toNat := by
  have h : (fmtR f7 rs2 rs1 f3 rd opc).imm12 = f7 ++ rs2 := by
    change BitVec.extractLsb' 20 12 (f7 ++ rs2 ++ rs1 ++ f3 ++ rd ++ opc) = f7 ++ rs2
    rw [ext_append_hi _ _ _ _ (by decide), ext_append_hi _ _ _ _ (by decide), ext_append_hi _ _ _ _ (by decide),
      ext_append_hi _ _ _ _ (by decide)]
    simp
  rw [h]
  change BitVec.toNat (f7 ++ rs2) = _
  rw [BitVec.toNat_append, ← Nat.shiftLeft_add_eq_or_of_lt rs2.isLt, Nat.shiftLeft_eq]
/-- Fields of a word of a 20-bit constant. -/

theorem upper_fields (k : BitVec 20) (rd : Reg) (opc : BitVec 7) :
    Inst.opc (k ++ rd ++ opc) = opc ∧ Inst.d (k ++ rd ++ opc) = rd ∧ (k ++ rd ++ opc : Inst).extractLsb' 12 20 = k ∧
    (k ++ rd ++ opc : Inst).extractLsb' 0 2 = opc.extractLsb' 0 2 ∧
    (k ++ rd ++ opc : Inst).extractLsb' 2 3 = opc.extractLsb' 2 3 := by
  refine ⟨?_, ?_, ?_, ?_, ?_⟩
  · change BitVec.extractLsb' 0 7 (k ++ rd ++ opc) = opc
    rw [ext_append_in _ _ _ _ (by decide)]; simp
  · change BitVec.extractLsb' 7 5 (k ++ rd ++ opc) = rd
    rw [ext_append_hi _ _ _ _ (by decide), ext_append_in _ _ _ _ (by decide)]; simp
  · change BitVec.extractLsb' 12 20 (k ++ rd ++ opc) = k
    rw [ext_append_hi _ _ _ _ (by decide), ext_append_hi _ _ _ _ (by decide)]; simp
  · change BitVec.extractLsb' 0 2 (k ++ rd ++ opc) = _
    rw [ext_append_in _ _ _ _ (by decide)]
  · change BitVec.extractLsb' 2 3 (k ++ rd ++ opc) = _
    rw [ext_append_in _ _ _ _ (by decide)]

theorem amo_bits (n : BitVec 5) (aq rl : Bool) (rs2 rs1 : Reg) (f3 : BitVec 3) (rd : Reg) :
    (fmtR (n ++ BitVec.ofBool aq ++ BitVec.ofBool rl) rs2 rs1 f3 rd 0x2F).extractLsb' 27 5 = n ∧
    (fmtR (n ++ BitVec.ofBool aq ++ BitVec.ofBool rl) rs2 rs1 f3 rd 0x2F).getLsbD 26 = aq ∧
    (fmtR (n ++ BitVec.ofBool aq ++ BitVec.ofBool rl) rs2 rs1 f3 rd 0x2F).getLsbD 25 = rl := by
  refine ⟨?_, ?_, ?_⟩
  · change BitVec.extractLsb' 27 5 ((n ++ BitVec.ofBool aq ++ BitVec.ofBool rl) ++ rs2 ++ rs1 ++ f3 ++ rd ++ (0x2F : BitVec 7)) = n
    rw [ext_append_hi _ _ _ _ (by decide), ext_append_hi _ _ _ _ (by decide), ext_append_hi _ _ _ _ (by decide),
      ext_append_hi _ _ _ _ (by decide), ext_append_hi _ _ _ _ (by decide), ext_append_hi _ _ _ _ (by decide),
      ext_append_hi _ _ _ _ (by decide)]
    simp
  · change BitVec.getLsbD ((n ++ BitVec.ofBool aq ++ BitVec.ofBool rl) ++ rs2 ++ rs1 ++ f3 ++ rd ++ (0x2F : BitVec 7)) 26 = aq
    rw [getLsbD_append_hi _ _ _ (by decide), getLsbD_append_hi _ _ _ (by decide), getLsbD_append_hi _ _ _ (by decide),
      getLsbD_append_hi _ _ _ (by decide), getLsbD_append_hi _ _ _ (by decide), getLsbD_append_hi _ _ _ (by decide)]
    rw [getLsbD_append_in _ _ _ (by decide)]; simp
  · change BitVec.getLsbD ((n ++ BitVec.ofBool aq ++ BitVec.ofBool rl) ++ rs2 ++ rs1 ++ f3 ++ rd ++ (0x2F : BitVec 7)) 25 = rl
    rw [getLsbD_append_hi _ _ _ (by decide), getLsbD_append_hi _ _ _ (by decide), getLsbD_append_hi _ _ _ (by decide),
      getLsbD_append_hi _ _ _ (by decide), getLsbD_append_hi _ _ _ (by decide), getLsbD_append_in _ _ _ (by decide)]
    simp

end Sys2Proof
end

