-- ==== Sys2Proof/Laws/PerInstr.lean ====
section
/-!
SUPPORT. What is shown instruction by instruction: the decoder reads back what the encoder writes (03_encoding R42 to R61).
-/
set_option linter.unusedSimpArgs false
namespace Sys2Proof.Laws.Roundtrip

/-- The word of a well-formed instruction decodes to it; an operation or event has no word. -/
def Statement (i : Instr) : Prop := ∀ w, encode? i = some w → i.wf = true → decode w = .ok i

/-! ## Forms of the standard base -/

theorem roundtrip_op (f : AluOp) (rd rs1 rs2 : Reg) : Statement (.baseCompute (.op f rd rs1 rs2)) := by
  rintro w ⟨⟩ -
  cases f <;> simp [Compute.encode, decode, fmtR_low, fmtR_wide, decodeOp, AluOp.functs, aluOf]

theorem roundtrip_op32 (f : AluWOp) (rd rs1 rs2 : Reg) : Statement (.baseCompute (.op32 f rd rs1 rs2)) := by
  rintro w ⟨⟩ -
  cases f <;> simp [Compute.encode, decode, fmtR_low, fmtR_wide, decodeOp32, AluWOp.functs, aluWOf]

theorem roundtrip_imm (f : ImmOp) (rd rs1 : Reg) (k : BitVec 12) : Statement (.baseCompute (.imm f rd rs1 k)) := by
  rintro w ⟨⟩ -
  cases f <;> simp [Compute.encode, decode, fmtImm_low, fmtImm_wide, decodeOpImm, decodeOpImm32]

theorem roundtrip_shift (f : ShiftOp) (rd rs1 : Reg) (sh : BitVec 6) : Statement (.baseCompute (.shift f rd rs1 sh)) := by
  rintro w ⟨⟩ -
  have hs := sh.isLt
  cases f <;>
    simp [Compute.encode, decode, fmtImm_low, fmtImm_wide, decodeOpImm, decodeOpImm32, shamt_toNat, fmtImm_shamt,
      shamt_low, fmtImm_top _ _ _ _ _ _ (shamt_high _ sh)]
  all_goals split <;> first | omega | rfl | simp_all
  have h : 32 ≤ ((2 : BitVec 6) ++ sh : BitVec 12).toNat := by
    rw [shamt_toNat]
    simp
    omega
  exact fun e => fmtImm_f7_ne h rs1 1 rd 0x1B e

theorem roundtrip_shiftW (f : ShiftWOp) (rd rs1 sh : Reg) : Statement (.baseCompute (.shiftW f rd rs1 sh)) := by
  rintro w ⟨⟩ -
  have hs := sh.isLt
  cases f <;> simp [Compute.encode, decode, fmtR_low, fmtR_wide, decodeOpImm32, fmtR_imm12]
  split <;> first | omega | rfl

theorem roundtrip_unary (f : UnaryOp) (rd rs1 : Reg) : Statement (.baseCompute (.unary f rd rs1)) := by
  rintro w ⟨⟩ -
  cases f <;> simp [Compute.encode, decode, fmtImm_low, fmtImm_wide, fmtR_low, fmtR_wide, decodeOpImm, decodeOpImm32, decodeOp32]

theorem roundtrip_lui (rd : Reg) (k : BitVec 20) : Statement (.baseCompute (.lui rd k)) := by
  rintro w ⟨⟩ -
  obtain ⟨h1, h2, h3, h4, h5⟩ := upper_fields k rd 0x37
  simp only [Compute.encode]
  generalize (k ++ rd ++ (0x37 : BitVec 7) : Inst) = w at h1 h2 h3 h4 h5 ⊢
  simp only [decode, h1, h2, h3, h4, h5]
  rfl

theorem roundtrip_auipc (rd : Reg) (k : BitVec 20) : Statement (.baseCompute (.auipc rd k)) := by
  rintro w ⟨⟩ -
  obtain ⟨h1, h2, h3, h4, h5⟩ := upper_fields k rd 0x17
  simp only [Compute.encode]
  generalize (k ++ rd ++ (0x17 : BitVec 7) : Inst) = w at h1 h2 h3 h4 h5 ⊢
  simp only [decode, h1, h2, h3, h4, h5]
  rfl

theorem roundtrip_jalr (rd rs1 : Reg) (imm : BitVec 12) : Statement (.branchJump (.jalr rd rs1 imm)) := by
  rintro w ⟨⟩ -
  simp [Jump.encode, decode, fmtImm_low, fmtImm_wide]

theorem roundtrip_fence (fm pred succ : BitVec 4) (rd rs1 : Reg) : Statement (.fence fm pred succ rd rs1) := by
  rintro w ⟨⟩ h
  have e1 : (fmtImm (fm ++ pred ++ succ) rs1 0 rd 0x0F).extractLsb' 28 4 = fm := by
    change BitVec.extractLsb' 28 4 ((fm ++ pred ++ succ) ++ rs1 ++ (0 : BitVec 3) ++ rd ++ (0x0F : BitVec 7)) = fm
    rw [ext_append_hi _ _ _ _ (by decide), ext_append_hi _ _ _ _ (by decide), ext_append_hi _ _ _ _ (by decide),
      ext_append_hi _ _ _ _ (by decide), ext_append_hi _ _ _ _ (by decide), ext_append_hi _ _ _ _ (by decide)]
    simp
  have e2 : (fmtImm (fm ++ pred ++ succ) rs1 0 rd 0x0F).extractLsb' 24 4 = pred := by
    change BitVec.extractLsb' 24 4 ((fm ++ pred ++ succ) ++ rs1 ++ (0 : BitVec 3) ++ rd ++ (0x0F : BitVec 7)) = pred
    rw [ext_append_hi _ _ _ _ (by decide), ext_append_hi _ _ _ _ (by decide), ext_append_hi _ _ _ _ (by decide),
      ext_append_hi _ _ _ _ (by decide), ext_append_hi _ _ _ _ (by decide), ext_append_in _ _ _ _ (by decide)]
    simp
  have e3 : (fmtImm (fm ++ pred ++ succ) rs1 0 rd 0x0F).extractLsb' 20 4 = succ := by
    change BitVec.extractLsb' 20 4 ((fm ++ pred ++ succ) ++ rs1 ++ (0 : BitVec 3) ++ rd ++ (0x0F : BitVec 7)) = succ
    rw [ext_append_hi _ _ _ _ (by decide), ext_append_hi _ _ _ _ (by decide), ext_append_hi _ _ _ _ (by decide),
      ext_append_hi _ _ _ _ (by decide), ext_append_in _ _ _ _ (by decide)]
    simp
  simp only [decode, fmtImm_low, fmtImm_wide, fmtImm_opc, decodeFence, fmtImm_f3, e1, e2, e3, fmtImm_d, fmtImm_a]
  simp only [Instr.wf, Bool.not_eq_true'] at h
  rw [h]
  rfl

theorem roundtrip_fenceTso (rd rs1 : Reg) : Statement (.fenceTso rd rs1) := by
  rintro w ⟨⟩ -
  have e : (fmtImm 0x833 rs1 0 rd 0x0F) = fmtImm ((8 : BitVec 4) ++ (3 : BitVec 4) ++ (3 : BitVec 4)) rs1 0 rd 0x0F := rfl
  have e1 : (fmtImm 0x833 rs1 0 rd 0x0F).extractLsb' 28 4 = 8 := by
    change BitVec.extractLsb' 28 4 ((0x833 : BitVec 12) ++ rs1 ++ (0 : BitVec 3) ++ rd ++ (0x0F : BitVec 7)) = _
    rw [ext_append_hi _ _ _ _ (by decide), ext_append_hi _ _ _ _ (by decide), ext_append_hi _ _ _ _ (by decide),
      ext_append_hi _ _ _ _ (by decide)]
    decide
  have e2 : (fmtImm 0x833 rs1 0 rd 0x0F).extractLsb' 24 4 = 3 := by
    change BitVec.extractLsb' 24 4 ((0x833 : BitVec 12) ++ rs1 ++ (0 : BitVec 3) ++ rd ++ (0x0F : BitVec 7)) = _
    rw [ext_append_hi _ _ _ _ (by decide), ext_append_hi _ _ _ _ (by decide), ext_append_hi _ _ _ _ (by decide),
      ext_append_hi _ _ _ _ (by decide)]
    decide
  have e3 : (fmtImm 0x833 rs1 0 rd 0x0F).extractLsb' 20 4 = 3 := by
    change BitVec.extractLsb' 20 4 ((0x833 : BitVec 12) ++ rs1 ++ (0 : BitVec 3) ++ rd ++ (0x0F : BitVec 7)) = _
    rw [ext_append_hi _ _ _ _ (by decide), ext_append_hi _ _ _ _ (by decide), ext_append_hi _ _ _ _ (by decide),
      ext_append_hi _ _ _ _ (by decide)]
    decide
  simp only [decode, fmtImm_low, fmtImm_wide, fmtImm_opc, fmtImm_f3, fmtImm_d, fmtImm_a, decodeFence, e1, e2, e3]
  rfl

theorem roundtrip_fenceI (imm : BitVec 12) (rd rs1 : Reg) : Statement (.fenceI imm rd rs1) := by
  rintro w ⟨⟩ -
  simp [decode, fmtImm_low, fmtImm_wide, decodeFence]

theorem roundtrip_load (f : LoadOp) (rd rs1 : Reg) (imm : BitVec 12) : Statement (.standardLoad f rd rs1 imm) := by
  rintro w ⟨⟩ -
  cases f <;> simp [decode, fmtImm_low, fmtImm_wide, decodeLoad, LoadOp.funct3]

theorem roundtrip_store (f : StoreOp) (rs1 rs2 : Reg) (imm : BitVec 12) : Statement (.standardStore f rs1 rs2 imm) := by
  rintro w ⟨⟩ -
  cases f <;> simp [decode, fmtR_low, fmtR_wide, decodeStore, StoreOp.funct3, fmtR_immS, imm12_join]

theorem roundtrip_csr (f : CsrOp) (i : Bool) (csr : BitVec 12) (rd src : Reg) : Statement (.csrInstruction f i csr rd src) := by
  rintro w ⟨⟩ -
  cases f <;> cases i <;> simp [decode, fmtImm_low, fmtImm_wide, decodeSystem, CsrOp.funct3]

theorem roundtrip_sfence (rs1 rs2 : Reg) : Statement (.sfenceVma rs1 rs2) := by
  rintro w ⟨⟩ -
  have h : (fmtR 9 rs2 rs1 0 0 0x73).toNat / 2 ^ 25 = 9 := by
    have := congrArg BitVec.toNat (fmtR_f7 9 rs2 rs1 0 0 0x73)
    simp [Inst.f7, BitVec.extractLsb'_toNat, Nat.shiftRight_eq_div_pow] at this
    have := (fmtR 9 rs2 rs1 0 0 0x73).isLt
    simp at *
    omega
  simp only [decode, fmtR_low, fmtR_wide, fmtR_opc, decodeSystem, fmtR_f3]
  simp
  simp at h
  split <;> first | (exfalso; omega) | simp

theorem roundtrip_amo (f : AmoOp) (dbl aq rl : Bool) (rd rs1 rs2 : Reg) : Statement (.amo f dbl aq rl rd rs1 rs2) := by
  rintro w ⟨⟩ -
  cases dbl <;> simp only [decode, fmtR_low, fmtR_wide, fmtR_opc, decodeAmo, fmtR_f3, amo_bits, fmtR_b, fmtR_d, fmtR_a] <;>
    cases f <;> rfl

theorem roundtrip_lr (dbl aq rl : Bool) (rd rs1 : Reg) : Statement (.lr dbl aq rl rd rs1) := by
  rintro w ⟨⟩ -
  cases dbl <;> simp only [decode, fmtR_low, fmtR_wide, fmtR_opc, decodeAmo, fmtR_f3, amo_bits, fmtR_b, fmtR_d, fmtR_a] <;> rfl

theorem roundtrip_sc (dbl aq rl : Bool) (rd rs1 rs2 : Reg) : Statement (.sc dbl aq rl rd rs1 rs2) := by
  rintro w ⟨⟩ -
  cases dbl <;> simp only [decode, fmtR_low, fmtR_wide, fmtR_opc, decodeAmo, fmtR_f3, amo_bits, fmtR_b, fmtR_d, fmtR_a] <;> rfl

theorem roundtrip_jal (rd : Reg) (off : BitVec 20) : Statement (.branchJump (.jal rd off)) := by
  rintro w ⟨⟩ -
  have h := upper_fields (off.extractLsb' 19 1 ++ off.extractLsb' 0 10 ++ off.extractLsb' 10 1 ++ off.extractLsb' 11 8) rd 0x6F
  obtain ⟨h1, h2, -, h4, h5⟩ := h
  have hw : ∀ (a : BitVec 1) (b : BitVec 10) (c : BitVec 1) (d : BitVec 8),
      let w : Inst := a ++ b ++ c ++ d ++ rd ++ (0x6F : BitVec 7)
      w.extractLsb' 31 1 = a ∧ w.extractLsb' 12 8 = d ∧ w.extractLsb' 20 1 = c ∧ w.extractLsb' 21 10 = b := by
    intro a b c d
    refine ⟨?_, ?_, ?_, ?_⟩
    · change BitVec.extractLsb' 31 1 (a ++ b ++ c ++ d ++ rd ++ (0x6F : BitVec 7)) = a
      rw [ext_append_hi _ _ _ _ (by decide), ext_append_hi _ _ _ _ (by decide), ext_append_hi _ _ _ _ (by decide),
        ext_append_hi _ _ _ _ (by decide), ext_append_hi _ _ _ _ (by decide)]; simp
    · change BitVec.extractLsb' 12 8 (a ++ b ++ c ++ d ++ rd ++ (0x6F : BitVec 7)) = d
      rw [ext_append_hi _ _ _ _ (by decide), ext_append_hi _ _ _ _ (by decide), ext_append_in _ _ _ _ (by decide)]; simp
    · change BitVec.extractLsb' 20 1 (a ++ b ++ c ++ d ++ rd ++ (0x6F : BitVec 7)) = c
      rw [ext_append_hi _ _ _ _ (by decide), ext_append_hi _ _ _ _ (by decide), ext_append_hi _ _ _ _ (by decide),
        ext_append_in _ _ _ _ (by decide)]; simp
    · change BitVec.extractLsb' 21 10 (a ++ b ++ c ++ d ++ rd ++ (0x6F : BitVec 7)) = b
      rw [ext_append_hi _ _ _ _ (by decide), ext_append_hi _ _ _ _ (by decide), ext_append_hi _ _ _ _ (by decide),
        ext_append_hi _ _ _ _ (by decide), ext_append_in _ _ _ _ (by decide)]; simp
  obtain ⟨g1, g2, g3, g4⟩ := hw (off.extractLsb' 19 1) (off.extractLsb' 0 10) (off.extractLsb' 10 1) (off.extractLsb' 11 8)
  have hj : (off.extractLsb' 19 1 ++ off.extractLsb' 11 8 ++ off.extractLsb' 10 1 ++ off.extractLsb' 0 10 : BitVec 20) = off := by
    change (BitVec.extractLsb' 19 1 off ++ BitVec.extractLsb' 11 8 off ++ BitVec.extractLsb' 10 1 off ++ BitVec.extractLsb' 0 10 off) = off
    rw [BitVec.extractLsb'_append_extractLsb'_eq_extractLsb' (h := by rfl),
      BitVec.extractLsb'_append_extractLsb'_eq_extractLsb' (h := by rfl),
      BitVec.extractLsb'_append_extractLsb'_eq_extractLsb' (h := by rfl)]
    simp
  simp only [Jump.encode]
  generalize (off.extractLsb' 19 1 ++ off.extractLsb' 0 10 ++ off.extractLsb' 10 1 ++ off.extractLsb' 11 8 ++ rd ++
    (0x6F : BitVec 7) : Inst) = w at h1 h2 h4 h5 g1 g2 g3 g4 ⊢
  simp only [decode, h1, h2, h4, h5, g1, g2, g3, g4, hj]
  rfl

theorem roundtrip_branch (f : BranchOp) (rs1 rs2 : Reg) (off : BitVec 12) : Statement (.branchJump (.branch f rs1 rs2 off)) := by
  rintro w ⟨⟩ -
  have hw : ∀ (a : BitVec 1) (b : BitVec 6) (f3 : BitVec 3) (c : BitVec 4) (d : BitVec 1),
      let w : Inst := a ++ b ++ rs2 ++ rs1 ++ f3 ++ c ++ d ++ (0x63 : BitVec 7)
      w.extractLsb' 31 1 = a ∧ w.extractLsb' 25 6 = b ∧ w.b = rs2 ∧ w.a = rs1 ∧ w.f3 = f3 ∧ w.extractLsb' 8 4 = c ∧
      w.extractLsb' 7 1 = d ∧ w.opc = 0x63 ∧ w.extractLsb' 0 2 = 3 ∧ w.extractLsb' 2 3 = 0 := by
    intro a b f3 c d
    refine ⟨?_, ?_, ?_, ?_, ?_, ?_, ?_, ?_, ?_, ?_⟩
    · change BitVec.extractLsb' 31 1 (a ++ b ++ rs2 ++ rs1 ++ f3 ++ c ++ d ++ (0x63 : BitVec 7)) = a
      rw [ext_append_hi _ _ _ _ (by decide), ext_append_hi _ _ _ _ (by decide), ext_append_hi _ _ _ _ (by decide),
        ext_append_hi _ _ _ _ (by decide), ext_append_hi _ _ _ _ (by decide), ext_append_hi _ _ _ _ (by decide),
        ext_append_hi _ _ _ _ (by decide)]; simp
    · change BitVec.extractLsb' 25 6 (a ++ b ++ rs2 ++ rs1 ++ f3 ++ c ++ d ++ (0x63 : BitVec 7)) = b
      rw [ext_append_hi _ _ _ _ (by decide), ext_append_hi _ _ _ _ (by decide), ext_append_hi _ _ _ _ (by decide),
        ext_append_hi _ _ _ _ (by decide), ext_append_hi _ _ _ _ (by decide), ext_append_hi _ _ _ _ (by decide),
        ext_append_in _ _ _ _ (by decide)]; simp
    · change BitVec.extractLsb' 20 5 (a ++ b ++ rs2 ++ rs1 ++ f3 ++ c ++ d ++ (0x63 : BitVec 7)) = rs2
      rw [ext_append_hi _ _ _ _ (by decide), ext_append_hi _ _ _ _ (by decide), ext_append_hi _ _ _ _ (by decide),
        ext_append_hi _ _ _ _ (by decide), ext_append_hi _ _ _ _ (by decide), ext_append_in _ _ _ _ (by decide)]; simp
    · change BitVec.extractLsb' 15 5 (a ++ b ++ rs2 ++ rs1 ++ f3 ++ c ++ d ++ (0x63 : BitVec 7)) = rs1
      rw [ext_append_hi _ _ _ _ (by decide), ext_append_hi _ _ _ _ (by decide), ext_append_hi _ _ _ _ (by decide),
        ext_append_hi _ _ _ _ (by decide), ext_append_in _ _ _ _ (by decide)]; simp
    · change BitVec.extractLsb' 12 3 (a ++ b ++ rs2 ++ rs1 ++ f3 ++ c ++ d ++ (0x63 : BitVec 7)) = f3
      rw [ext_append_hi _ _ _ _ (by decide), ext_append_hi _ _ _ _ (by decide), ext_append_hi _ _ _ _ (by decide),
        ext_append_in _ _ _ _ (by decide)]; simp
    · change BitVec.extractLsb' 8 4 (a ++ b ++ rs2 ++ rs1 ++ f3 ++ c ++ d ++ (0x63 : BitVec 7)) = c
      rw [ext_append_hi _ _ _ _ (by decide), ext_append_hi _ _ _ _ (by decide), ext_append_in _ _ _ _ (by decide)]; simp
    · change BitVec.extractLsb' 7 1 (a ++ b ++ rs2 ++ rs1 ++ f3 ++ c ++ d ++ (0x63 : BitVec 7)) = d
      rw [ext_append_hi _ _ _ _ (by decide), ext_append_in _ _ _ _ (by decide)]; simp
    · change BitVec.extractLsb' 0 7 (a ++ b ++ rs2 ++ rs1 ++ f3 ++ c ++ d ++ (0x63 : BitVec 7)) = _
      rw [ext_append_in _ _ _ _ (by decide)]; rfl
    · change BitVec.extractLsb' 0 2 (a ++ b ++ rs2 ++ rs1 ++ f3 ++ c ++ d ++ (0x63 : BitVec 7)) = _
      rw [ext_append_in _ _ _ _ (by decide)]; rfl
    · change BitVec.extractLsb' 2 3 (a ++ b ++ rs2 ++ rs1 ++ f3 ++ c ++ d ++ (0x63 : BitVec 7)) = _
      rw [ext_append_in _ _ _ _ (by decide)]; rfl
  obtain ⟨g1, g2, g3, g4, g5, g6, g7, g8, g9, g10⟩ :=
    hw (off.extractLsb' 11 1) (off.extractLsb' 4 6) f.funct3 (off.extractLsb' 0 4) (off.extractLsb' 10 1)
  have hj : (off.extractLsb' 11 1 ++ off.extractLsb' 10 1 ++ off.extractLsb' 4 6 ++ off.extractLsb' 0 4 : BitVec 12) = off := by
    change (BitVec.extractLsb' 11 1 off ++ BitVec.extractLsb' 10 1 off ++ BitVec.extractLsb' 4 6 off ++ BitVec.extractLsb' 0 4 off) = off
    rw [BitVec.extractLsb'_append_extractLsb'_eq_extractLsb' (h := by rfl),
      BitVec.extractLsb'_append_extractLsb'_eq_extractLsb' (h := by rfl),
      BitVec.extractLsb'_append_extractLsb'_eq_extractLsb' (h := by rfl)]
    simp
  simp only [Jump.encode, decode, decodeBranch, g1, g2, g3, g4, g5, g6, g7, g8, g9, g10, hj]
  cases f <;> rfl

/-! ## One lemma for each constructor -/

theorem chunk (p : Bool) : Statement (.chunk p) := by
  rintro w ⟨⟩ h
  simp_all [decode, decodeCustom0, decodeCustom1, decodeCustom3, decodeControl, decodeLoop, decodeTasks, decodeMessages, decodeNets,
    decodePointers, decodeLdl, decodeStl, decodeReductions, decodeRelaxed, decodeVecMem, decodeVector, decodeTileMove,
    decodeMatrix, decodeGenerator, zeroed, fmtK_low, fmtK_wide, fmtI_low, fmtI_wide, fmtS_low, fmtS_wide, fmtV_low,
    fmtV_wide, fmtT_low, fmtT_wide, Instr.wf]

theorem yield (p : Bool) : Statement (.yield p) := by
  rintro w ⟨⟩ h
  simp_all [decode, decodeCustom0, decodeCustom1, decodeCustom3, decodeControl, decodeLoop, decodeTasks, decodeMessages, decodeNets,
    decodePointers, decodeLdl, decodeStl, decodeReductions, decodeRelaxed, decodeVecMem, decodeVector, decodeTileMove,
    decodeMatrix, decodeGenerator, zeroed, fmtK_low, fmtK_wide, fmtI_low, fmtI_wide, fmtS_low, fmtS_wide, fmtV_low,
    fmtV_wide, fmtT_low, fmtT_wide, Instr.wf]

theorem pause (p : Bool) (a : Reg) : Statement (.pause p a) := by
  rintro w ⟨⟩ h
  simp_all [decode, decodeCustom0, decodeCustom1, decodeCustom3, decodeControl, decodeLoop, decodeTasks, decodeMessages, decodeNets,
    decodePointers, decodeLdl, decodeStl, decodeReductions, decodeRelaxed, decodeVecMem, decodeVector, decodeTileMove,
    decodeMatrix, decodeGenerator, zeroed, fmtK_low, fmtK_wide, fmtI_low, fmtI_wide, fmtS_low, fmtS_wide, fmtV_low,
    fmtV_wide, fmtT_low, fmtT_wide, Instr.wf]

theorem fenceS (p : Bool) (a : Reg) : Statement (.fenceS p a) := by
  rintro w ⟨⟩ h
  simp_all [decode, decodeCustom0, decodeCustom1, decodeCustom3, decodeControl, decodeLoop, decodeTasks, decodeMessages, decodeNets,
    decodePointers, decodeLdl, decodeStl, decodeReductions, decodeRelaxed, decodeVecMem, decodeVector, decodeTileMove,
    decodeMatrix, decodeGenerator, zeroed, fmtK_low, fmtK_wide, fmtI_low, fmtI_wide, fmtS_low, fmtS_wide, fmtV_low,
    fmtV_wide, fmtT_low, fmtT_wide, Instr.wf]

theorem bar (p : Bool) (d a : Reg) : Statement (.bar p d a) := by
  rintro w ⟨⟩ h
  simp_all [decode, decodeCustom0, decodeCustom1, decodeCustom3, decodeControl, decodeLoop, decodeTasks, decodeMessages, decodeNets,
    decodePointers, decodeLdl, decodeStl, decodeReductions, decodeRelaxed, decodeVecMem, decodeVector, decodeTileMove,
    decodeMatrix, decodeGenerator, zeroed, fmtK_low, fmtK_wide, fmtI_low, fmtI_wide, fmtS_low, fmtS_wide, fmtV_low,
    fmtV_wide, fmtT_low, fmtT_wide, Instr.wf]

theorem waitb (p : Bool) (n : BitVec 4) : Statement (.waitb p n) := by
  rintro w ⟨⟩ h
  simp_all [decode, decodeCustom0, decodeCustom1, decodeCustom3, decodeControl, decodeLoop, decodeTasks, decodeMessages, decodeNets,
    decodePointers, decodeLdl, decodeStl, decodeReductions, decodeRelaxed, decodeVecMem, decodeVector, decodeTileMove,
    decodeMatrix, decodeGenerator, zeroed, fmtK_low, fmtK_wide, fmtI_low, fmtI_wide, fmtS_low, fmtS_wide, fmtV_low,
    fmtV_wide, fmtT_low, fmtT_wide, Instr.wf]

theorem batch (p : Bool) (n : BitVec 4) : Statement (.batch p n) := by
  rintro w ⟨⟩ h
  simp_all [decode, decodeCustom0, decodeCustom1, decodeCustom3, decodeControl, decodeLoop, decodeTasks, decodeMessages, decodeNets,
    decodePointers, decodeLdl, decodeStl, decodeReductions, decodeRelaxed, decodeVecMem, decodeVector, decodeTileMove,
    decodeMatrix, decodeGenerator, zeroed, fmtK_low, fmtK_wide, fmtI_low, fmtI_wide, fmtS_low, fmtS_wide, fmtV_low,
    fmtV_wide, fmtT_low, fmtT_wide, Instr.wf]

theorem enq (p : Bool) (d a : Reg) (e : BitVec 2) : Statement (.enq p d a e) := by
  rintro w ⟨⟩ h
  simp_all [decode, decodeCustom0, decodeCustom1, decodeCustom3, decodeControl, decodeLoop, decodeTasks, decodeMessages, decodeNets,
    decodePointers, decodeLdl, decodeStl, decodeReductions, decodeRelaxed, decodeVecMem, decodeVector, decodeTileMove,
    decodeMatrix, decodeGenerator, zeroed, fmtK_low, fmtK_wide, fmtI_low, fmtI_wide, fmtS_low, fmtS_wide, fmtV_low,
    fmtV_wide, fmtT_low, fmtT_wide, Instr.wf]

theorem engq (p : Bool) (d a : Reg) : Statement (.engq p d a) := by
  rintro w ⟨⟩ h
  simp_all [decode, decodeCustom0, decodeCustom1, decodeCustom3, decodeControl, decodeLoop, decodeTasks, decodeMessages, decodeNets,
    decodePointers, decodeLdl, decodeStl, decodeReductions, decodeRelaxed, decodeVecMem, decodeVector, decodeTileMove,
    decodeMatrix, decodeGenerator, zeroed, fmtK_low, fmtK_wide, fmtI_low, fmtI_wide, fmtS_low, fmtS_wide, fmtV_low,
    fmtV_wide, fmtT_low, fmtT_wide, Instr.wf]

theorem lclr (p : Bool) (l : BitVec 1) : Statement (.lclr p l) := by
  rintro w ⟨⟩ h
  simp_all [decode, decodeCustom0, decodeCustom1, decodeCustom3, decodeControl, decodeLoop, decodeTasks, decodeMessages, decodeNets,
    decodePointers, decodeLdl, decodeStl, decodeReductions, decodeRelaxed, decodeVecMem, decodeVector, decodeTileMove,
    decodeMatrix, decodeGenerator, zeroed, fmtK_low, fmtK_wide, fmtI_low, fmtI_wide, fmtS_low, fmtS_wide, fmtV_low,
    fmtV_wide, fmtT_low, fmtT_wide, Instr.wf]

theorem aeqw (p : Bool) (a : Reg) : Statement (.aeqw p a) := by
  rintro w ⟨⟩ h
  simp_all [decode, decodeCustom0, decodeCustom1, decodeCustom3, decodeControl, decodeLoop, decodeTasks, decodeMessages, decodeNets,
    decodePointers, decodeLdl, decodeStl, decodeReductions, decodeRelaxed, decodeVecMem, decodeVector, decodeTileMove,
    decodeMatrix, decodeGenerator, zeroed, fmtK_low, fmtK_wide, fmtI_low, fmtI_wide, fmtS_low, fmtS_wide, fmtV_low,
    fmtV_wide, fmtT_low, fmtT_wide, Instr.wf]

theorem aeqr (p : Bool) (d : Reg) : Statement (.aeqr p d) := by
  rintro w ⟨⟩ h
  simp_all [decode, decodeCustom0, decodeCustom1, decodeCustom3, decodeControl, decodeLoop, decodeTasks, decodeMessages, decodeNets,
    decodePointers, decodeLdl, decodeStl, decodeReductions, decodeRelaxed, decodeVecMem, decodeVector, decodeTileMove,
    decodeMatrix, decodeGenerator, zeroed, fmtK_low, fmtK_wide, fmtI_low, fmtI_wide, fmtS_low, fmtS_wide, fmtV_low,
    fmtV_wide, fmtT_low, fmtT_wide, Instr.wf]

theorem ctxsave (p : Bool) (a b : Reg) : Statement (.ctxsave p a b) := by
  rintro w ⟨⟩ h
  simp_all [decode, decodeCustom0, decodeCustom1, decodeCustom3, decodeControl, decodeLoop, decodeTasks, decodeMessages, decodeNets,
    decodePointers, decodeLdl, decodeStl, decodeReductions, decodeRelaxed, decodeVecMem, decodeVector, decodeTileMove,
    decodeMatrix, decodeGenerator, zeroed, fmtK_low, fmtK_wide, fmtI_low, fmtI_wide, fmtS_low, fmtS_wide, fmtV_low,
    fmtV_wide, fmtT_low, fmtT_wide, Instr.wf]

theorem ctxload (p : Bool) (a b : Reg) : Statement (.ctxload p a b) := by
  rintro w ⟨⟩ h
  simp_all [decode, decodeCustom0, decodeCustom1, decodeCustom3, decodeControl, decodeLoop, decodeTasks, decodeMessages, decodeNets,
    decodePointers, decodeLdl, decodeStl, decodeReductions, decodeRelaxed, decodeVecMem, decodeVector, decodeTileMove,
    decodeMatrix, decodeGenerator, zeroed, fmtK_low, fmtK_wide, fmtI_low, fmtI_wide, fmtS_low, fmtS_wide, fmtV_low,
    fmtV_wide, fmtT_low, fmtT_wide, Instr.wf]

theorem tlbinv (p : Bool) (a b : Reg) : Statement (.tlbinv p a b) := by
  rintro w ⟨⟩ h
  simp_all [decode, decodeCustom0, decodeCustom1, decodeCustom3, decodeControl, decodeLoop, decodeTasks, decodeMessages, decodeNets,
    decodePointers, decodeLdl, decodeStl, decodeReductions, decodeRelaxed, decodeVecMem, decodeVector, decodeTileMove,
    decodeMatrix, decodeGenerator, zeroed, fmtK_low, fmtK_wide, fmtI_low, fmtI_wide, fmtS_low, fmtS_wide, fmtV_low,
    fmtV_wide, fmtT_low, fmtT_wide, Instr.wf]

theorem zline (p : Bool) (a : Reg) : Statement (.zline p a) := by
  rintro w ⟨⟩ h
  simp_all [decode, decodeCustom0, decodeCustom1, decodeCustom3, decodeControl, decodeLoop, decodeTasks, decodeMessages, decodeNets,
    decodePointers, decodeLdl, decodeStl, decodeReductions, decodeRelaxed, decodeVecMem, decodeVector, decodeTileMove,
    decodeMatrix, decodeGenerator, zeroed, fmtK_low, fmtK_wide, fmtI_low, fmtI_wide, fmtS_low, fmtS_wide, fmtV_low,
    fmtV_wide, fmtT_low, fmtT_wide, Instr.wf]

theorem loop (p : Bool) (l : BitVec 1) (a : Reg) (len : BitVec 11) : Statement (.loop p l a len) := by
  rintro w ⟨⟩ h
  simp_all [decode, decodeCustom0, decodeCustom1, decodeCustom3, decodeControl, decodeLoop, decodeTasks, decodeMessages, decodeNets,
    decodePointers, decodeLdl, decodeStl, decodeReductions, decodeRelaxed, decodeVecMem, decodeVector, decodeTileMove,
    decodeMatrix, decodeGenerator, zeroed, fmtK_low, fmtK_wide, fmtI_low, fmtI_wide, fmtS_low, fmtS_wide, fmtV_low,
    fmtV_wide, fmtT_low, fmtT_wide, Instr.wf]

theorem spawn (p : Bool) (a b : Reg) : Statement (.spawn p a b) := by
  rintro w ⟨⟩ h
  simp_all [decode, decodeCustom0, decodeCustom1, decodeCustom3, decodeControl, decodeLoop, decodeTasks, decodeMessages, decodeNets,
    decodePointers, decodeLdl, decodeStl, decodeReductions, decodeRelaxed, decodeVecMem, decodeVector, decodeTileMove,
    decodeMatrix, decodeGenerator, zeroed, fmtK_low, fmtK_wide, fmtI_low, fmtI_wide, fmtS_low, fmtS_wide, fmtV_low,
    fmtV_wide, fmtT_low, fmtT_wide, Instr.wf]

theorem join (p : Bool) (a : Reg) : Statement (.join p a) := by
  rintro w ⟨⟩ h
  simp_all [decode, decodeCustom0, decodeCustom1, decodeCustom3, decodeControl, decodeLoop, decodeTasks, decodeMessages, decodeNets,
    decodePointers, decodeLdl, decodeStl, decodeReductions, decodeRelaxed, decodeVecMem, decodeVector, decodeTileMove,
    decodeMatrix, decodeGenerator, zeroed, fmtK_low, fmtK_wide, fmtI_low, fmtI_wide, fmtS_low, fmtS_wide, fmtV_low,
    fmtV_wide, fmtT_low, fmtT_wide, Instr.wf]

theorem take (p : Bool) (d : Reg) : Statement (.take p d) := by
  rintro w ⟨⟩ h
  simp_all [decode, decodeCustom0, decodeCustom1, decodeCustom3, decodeControl, decodeLoop, decodeTasks, decodeMessages, decodeNets,
    decodePointers, decodeLdl, decodeStl, decodeReductions, decodeRelaxed, decodeVecMem, decodeVector, decodeTileMove,
    decodeMatrix, decodeGenerator, zeroed, fmtK_low, fmtK_wide, fmtI_low, fmtI_wide, fmtS_low, fmtS_wide, fmtV_low,
    fmtV_wide, fmtT_low, fmtT_wide, Instr.wf]

theorem tnew (p : Bool) (d a b : Reg) : Statement (.tnew p d a b) := by
  rintro w ⟨⟩ h
  simp_all [decode, decodeCustom0, decodeCustom1, decodeCustom3, decodeControl, decodeLoop, decodeTasks, decodeMessages, decodeNets,
    decodePointers, decodeLdl, decodeStl, decodeReductions, decodeRelaxed, decodeVecMem, decodeVector, decodeTileMove,
    decodeMatrix, decodeGenerator, zeroed, fmtK_low, fmtK_wide, fmtI_low, fmtI_wide, fmtS_low, fmtS_wide, fmtV_low,
    fmtV_wide, fmtT_low, fmtT_wide, Instr.wf]

theorem tdec (p : Bool) (a : Reg) : Statement (.tdec p a) := by
  rintro w ⟨⟩ h
  simp_all [decode, decodeCustom0, decodeCustom1, decodeCustom3, decodeControl, decodeLoop, decodeTasks, decodeMessages, decodeNets,
    decodePointers, decodeLdl, decodeStl, decodeReductions, decodeRelaxed, decodeVecMem, decodeVector, decodeTileMove,
    decodeMatrix, decodeGenerator, zeroed, fmtK_low, fmtK_wide, fmtI_low, fmtI_wide, fmtS_low, fmtS_wide, fmtV_low,
    fmtV_wide, fmtT_low, fmtT_wide, Instr.wf]

theorem texit (p : Bool) : Statement (.texit p) := by
  rintro w ⟨⟩ h
  simp_all [decode, decodeCustom0, decodeCustom1, decodeCustom3, decodeControl, decodeLoop, decodeTasks, decodeMessages, decodeNets,
    decodePointers, decodeLdl, decodeStl, decodeReductions, decodeRelaxed, decodeVecMem, decodeVector, decodeTileMove,
    decodeMatrix, decodeGenerator, zeroed, fmtK_low, fmtK_wide, fmtI_low, fmtI_wide, fmtS_low, fmtS_wide, fmtV_low,
    fmtV_wide, fmtT_low, fmtT_wide, Instr.wf]

theorem tlist (p : Bool) (a : Reg) : Statement (.tlist p a) := by
  rintro w ⟨⟩ h
  simp_all [decode, decodeCustom0, decodeCustom1, decodeCustom3, decodeControl, decodeLoop, decodeTasks, decodeMessages, decodeNets,
    decodePointers, decodeLdl, decodeStl, decodeReductions, decodeRelaxed, decodeVecMem, decodeVector, decodeTileMove,
    decodeMatrix, decodeGenerator, zeroed, fmtK_low, fmtK_wide, fmtI_low, fmtI_wide, fmtS_low, fmtS_wide, fmtV_low,
    fmtV_wide, fmtT_low, fmtT_wide, Instr.wf]

theorem send (p : Bool) (a b : Reg) : Statement (.send p a b) := by
  rintro w ⟨⟩ h
  simp_all [decode, decodeCustom0, decodeCustom1, decodeCustom3, decodeControl, decodeLoop, decodeTasks, decodeMessages, decodeNets,
    decodePointers, decodeLdl, decodeStl, decodeReductions, decodeRelaxed, decodeVecMem, decodeVector, decodeTileMove,
    decodeMatrix, decodeGenerator, zeroed, fmtK_low, fmtK_wide, fmtI_low, fmtI_wide, fmtS_low, fmtS_wide, fmtV_low,
    fmtV_wide, fmtT_low, fmtT_wide, Instr.wf]

theorem sendt (p : Bool) (a b d : Reg) : Statement (.sendt p a b d) := by
  rintro w ⟨⟩ h
  simp_all [decode, decodeCustom0, decodeCustom1, decodeCustom3, decodeControl, decodeLoop, decodeTasks, decodeMessages, decodeNets,
    decodePointers, decodeLdl, decodeStl, decodeReductions, decodeRelaxed, decodeVecMem, decodeVector, decodeTileMove,
    decodeMatrix, decodeGenerator, zeroed, fmtK_low, fmtK_wide, fmtI_low, fmtI_wide, fmtS_low, fmtS_wide, fmtV_low,
    fmtV_wide, fmtT_low, fmtT_wide, Instr.wf]

theorem recv (p : Bool) (d a : Reg) : Statement (.recv p d a) := by
  rintro w ⟨⟩ h
  simp_all [decode, decodeCustom0, decodeCustom1, decodeCustom3, decodeControl, decodeLoop, decodeTasks, decodeMessages, decodeNets,
    decodePointers, decodeLdl, decodeStl, decodeReductions, decodeRelaxed, decodeVecMem, decodeVector, decodeTileMove,
    decodeMatrix, decodeGenerator, zeroed, fmtK_low, fmtK_wide, fmtI_low, fmtI_wide, fmtS_low, fmtS_wide, fmtV_low,
    fmtV_wide, fmtT_low, fmtT_wide, Instr.wf]

theorem recvs (p : Bool) (d a b : Reg) : Statement (.recvs p d a b) := by
  rintro w ⟨⟩ h
  simp_all [decode, decodeCustom0, decodeCustom1, decodeCustom3, decodeControl, decodeLoop, decodeTasks, decodeMessages, decodeNets,
    decodePointers, decodeLdl, decodeStl, decodeReductions, decodeRelaxed, decodeVecMem, decodeVector, decodeTileMove,
    decodeMatrix, decodeGenerator, zeroed, fmtK_low, fmtK_wide, fmtI_low, fmtI_wide, fmtS_low, fmtS_wide, fmtV_low,
    fmtV_wide, fmtT_low, fmtT_wide, Instr.wf]

theorem recvt (p : Bool) (d : Reg) : Statement (.recvt p d) := by
  rintro w ⟨⟩ h
  simp_all [decode, decodeCustom0, decodeCustom1, decodeCustom3, decodeControl, decodeLoop, decodeTasks, decodeMessages, decodeNets,
    decodePointers, decodeLdl, decodeStl, decodeReductions, decodeRelaxed, decodeVecMem, decodeVector, decodeTileMove,
    decodeMatrix, decodeGenerator, zeroed, fmtK_low, fmtK_wide, fmtI_low, fmtI_wide, fmtS_low, fmtS_wide, fmtV_low,
    fmtV_wide, fmtT_low, fmtT_wide, Instr.wf]

theorem evend (p : Bool) : Statement (.evend p) := by
  rintro w ⟨⟩ h
  simp_all [decode, decodeCustom0, decodeCustom1, decodeCustom3, decodeControl, decodeLoop, decodeTasks, decodeMessages, decodeNets,
    decodePointers, decodeLdl, decodeStl, decodeReductions, decodeRelaxed, decodeVecMem, decodeVector, decodeTileMove,
    decodeMatrix, decodeGenerator, zeroed, fmtK_low, fmtK_wide, fmtI_low, fmtI_wide, fmtS_low, fmtS_wide, fmtV_low,
    fmtV_wide, fmtT_low, fmtT_wide, Instr.wf]

theorem stirv (p : Bool) (a b : Reg) : Statement (.stirv p a b) := by
  rintro w ⟨⟩ h
  simp_all [decode, decodeCustom0, decodeCustom1, decodeCustom3, decodeControl, decodeLoop, decodeTasks, decodeMessages, decodeNets,
    decodePointers, decodeLdl, decodeStl, decodeReductions, decodeRelaxed, decodeVecMem, decodeVector, decodeTileMove,
    decodeMatrix, decodeGenerator, zeroed, fmtK_low, fmtK_wide, fmtI_low, fmtI_wide, fmtS_low, fmtS_wide, fmtV_low,
    fmtV_wide, fmtT_low, fmtT_wide, Instr.wf]

theorem opton (p : Bool) (a : Reg) : Statement (.opton p a) := by
  rintro w ⟨⟩ h
  simp_all [decode, decodeCustom0, decodeCustom1, decodeCustom3, decodeControl, decodeLoop, decodeTasks, decodeMessages, decodeNets,
    decodePointers, decodeLdl, decodeStl, decodeReductions, decodeRelaxed, decodeVecMem, decodeVector, decodeTileMove,
    decodeMatrix, decodeGenerator, zeroed, fmtK_low, fmtK_wide, fmtI_low, fmtI_wide, fmtS_low, fmtS_wide, fmtV_low,
    fmtV_wide, fmtT_low, fmtT_wide, Instr.wf]

theorem optoff (p : Bool) : Statement (.optoff p) := by
  rintro w ⟨⟩ h
  simp_all [decode, decodeCustom0, decodeCustom1, decodeCustom3, decodeControl, decodeLoop, decodeTasks, decodeMessages, decodeNets,
    decodePointers, decodeLdl, decodeStl, decodeReductions, decodeRelaxed, decodeVecMem, decodeVector, decodeTileMove,
    decodeMatrix, decodeGenerator, zeroed, fmtK_low, fmtK_wide, fmtI_low, fmtI_wide, fmtS_low, fmtS_wide, fmtV_low,
    fmtV_wide, fmtT_low, fmtT_wide, Instr.wf]

theorem msgq (p : Bool) (d a : Reg) : Statement (.msgq p d a) := by
  rintro w ⟨⟩ h
  simp_all [decode, decodeCustom0, decodeCustom1, decodeCustom3, decodeControl, decodeLoop, decodeTasks, decodeMessages, decodeNets,
    decodePointers, decodeLdl, decodeStl, decodeReductions, decodeRelaxed, decodeVecMem, decodeVector, decodeTileMove,
    decodeMatrix, decodeGenerator, zeroed, fmtK_low, fmtK_wide, fmtI_low, fmtI_wide, fmtS_low, fmtS_wide, fmtV_low,
    fmtV_wide, fmtT_low, fmtT_wide, Instr.wf]

theorem ixpop (p : Bool) (d : Reg) : Statement (.ixpop p d) := by
  rintro w ⟨⟩ h
  simp_all [decode, decodeCustom0, decodeCustom1, decodeCustom3, decodeControl, decodeLoop, decodeTasks, decodeMessages, decodeNets,
    decodePointers, decodeLdl, decodeStl, decodeReductions, decodeRelaxed, decodeVecMem, decodeVector, decodeTileMove,
    decodeMatrix, decodeGenerator, zeroed, fmtK_low, fmtK_wide, fmtI_low, fmtI_wide, fmtS_low, fmtS_wide, fmtV_low,
    fmtV_wide, fmtT_low, fmtT_wide, Instr.wf]

theorem ixpair (p : Bool) (a b : Reg) : Statement (.ixpair p a b) := by
  rintro w ⟨⟩ h
  simp_all [decode, decodeCustom0, decodeCustom1, decodeCustom3, decodeControl, decodeLoop, decodeTasks, decodeMessages, decodeNets,
    decodePointers, decodeLdl, decodeStl, decodeReductions, decodeRelaxed, decodeVecMem, decodeVector, decodeTileMove,
    decodeMatrix, decodeGenerator, zeroed, fmtK_low, fmtK_wide, fmtI_low, fmtI_wide, fmtS_low, fmtS_wide, fmtV_low,
    fmtV_wide, fmtT_low, fmtT_wide, Instr.wf]

theorem ixnew (p : Bool) (d : Reg) : Statement (.ixnew p d) := by
  rintro w ⟨⟩ h
  simp_all [decode, decodeCustom0, decodeCustom1, decodeCustom3, decodeControl, decodeLoop, decodeTasks, decodeMessages, decodeNets,
    decodePointers, decodeLdl, decodeStl, decodeReductions, decodeRelaxed, decodeVecMem, decodeVector, decodeTileMove,
    decodeMatrix, decodeGenerator, zeroed, fmtK_low, fmtK_wide, fmtI_low, fmtI_wide, fmtS_low, fmtS_wide, fmtV_low,
    fmtV_wide, fmtT_low, fmtT_wide, Instr.wf]

theorem ixfree (p : Bool) (a : Reg) : Statement (.ixfree p a) := by
  rintro w ⟨⟩ h
  simp_all [decode, decodeCustom0, decodeCustom1, decodeCustom3, decodeControl, decodeLoop, decodeTasks, decodeMessages, decodeNets,
    decodePointers, decodeLdl, decodeStl, decodeReductions, decodeRelaxed, decodeVecMem, decodeVector, decodeTileMove,
    decodeMatrix, decodeGenerator, zeroed, fmtK_low, fmtK_wide, fmtI_low, fmtI_wide, fmtS_low, fmtS_wide, fmtV_low,
    fmtV_wide, fmtT_low, fmtT_wide, Instr.wf]

theorem ixlink (p : Bool) (a b : Reg) : Statement (.ixlink p a b) := by
  rintro w ⟨⟩ h
  simp_all [decode, decodeCustom0, decodeCustom1, decodeCustom3, decodeControl, decodeLoop, decodeTasks, decodeMessages, decodeNets,
    decodePointers, decodeLdl, decodeStl, decodeReductions, decodeRelaxed, decodeVecMem, decodeVector, decodeTileMove,
    decodeMatrix, decodeGenerator, zeroed, fmtK_low, fmtK_wide, fmtI_low, fmtI_wide, fmtS_low, fmtS_wide, fmtV_low,
    fmtV_wide, fmtT_low, fmtT_wide, Instr.wf]

theorem ixrule (p : Bool) (a b : Reg) : Statement (.ixrule p a b) := by
  rintro w ⟨⟩ h
  simp_all [decode, decodeCustom0, decodeCustom1, decodeCustom3, decodeControl, decodeLoop, decodeTasks, decodeMessages, decodeNets,
    decodePointers, decodeLdl, decodeStl, decodeReductions, decodeRelaxed, decodeVecMem, decodeVector, decodeTileMove,
    decodeMatrix, decodeGenerator, zeroed, fmtK_low, fmtK_wide, fmtI_low, fmtI_wide, fmtS_low, fmtS_wide, fmtV_low,
    fmtV_wide, fmtT_low, fmtT_wide, Instr.wf]

theorem ixdone (p : Bool) : Statement (.ixdone p) := by
  rintro w ⟨⟩ h
  simp_all [decode, decodeCustom0, decodeCustom1, decodeCustom3, decodeControl, decodeLoop, decodeTasks, decodeMessages, decodeNets,
    decodePointers, decodeLdl, decodeStl, decodeReductions, decodeRelaxed, decodeVecMem, decodeVector, decodeTileMove,
    decodeMatrix, decodeGenerator, zeroed, fmtK_low, fmtK_wide, fmtI_low, fmtI_wide, fmtS_low, fmtS_wide, fmtV_low,
    fmtV_wide, fmtT_low, fmtT_wide, Instr.wf]

theorem ptrfmt (p : Bool) (d a b : Reg) : Statement (.ptrfmt p d a b) := by
  rintro w ⟨⟩ h
  simp_all [decode, decodeCustom0, decodeCustom1, decodeCustom3, decodeControl, decodeLoop, decodeTasks, decodeMessages, decodeNets,
    decodePointers, decodeLdl, decodeStl, decodeReductions, decodeRelaxed, decodeVecMem, decodeVector, decodeTileMove,
    decodeMatrix, decodeGenerator, zeroed, fmtK_low, fmtK_wide, fmtI_low, fmtI_wide, fmtS_low, fmtS_wide, fmtV_low,
    fmtV_wide, fmtT_low, fmtT_wide, Instr.wf]

theorem ptrinfo (p : Bool) (d a : Reg) : Statement (.ptrinfo p d a) := by
  rintro w ⟨⟩ h
  simp_all [decode, decodeCustom0, decodeCustom1, decodeCustom3, decodeControl, decodeLoop, decodeTasks, decodeMessages, decodeNets,
    decodePointers, decodeLdl, decodeStl, decodeReductions, decodeRelaxed, decodeVecMem, decodeVector, decodeTileMove,
    decodeMatrix, decodeGenerator, zeroed, fmtK_low, fmtK_wide, fmtI_low, fmtI_wide, fmtS_low, fmtS_wide, fmtV_low,
    fmtV_wide, fmtT_low, fmtT_wide, Instr.wf]

theorem ptrclr (p : Bool) (d a : Reg) : Statement (.ptrclr p d a) := by
  rintro w ⟨⟩ h
  simp_all [decode, decodeCustom0, decodeCustom1, decodeCustom3, decodeControl, decodeLoop, decodeTasks, decodeMessages, decodeNets,
    decodePointers, decodeLdl, decodeStl, decodeReductions, decodeRelaxed, decodeVecMem, decodeVector, decodeTileMove,
    decodeMatrix, decodeGenerator, zeroed, fmtK_low, fmtK_wide, fmtI_low, fmtI_wide, fmtS_low, fmtS_wide, fmtV_low,
    fmtV_wide, fmtT_low, fmtT_wide, Instr.wf]

theorem ldl (p : Bool) (d a : Reg) (mode size : BitVec 2) (off : BitVec 7) : Statement (.ldl p d a mode size off) := by
  rintro w ⟨⟩ h
  simp_all [decode, decodeCustom0, decodeCustom1, decodeCustom3, decodeControl, decodeLoop, decodeTasks, decodeMessages, decodeNets,
    decodePointers, decodeLdl, decodeStl, decodeReductions, decodeRelaxed, decodeVecMem, decodeVector, decodeTileMove,
    decodeMatrix, decodeGenerator, zeroed, fmtK_low, fmtK_wide, fmtI_low, fmtI_wide, fmtS_low, fmtS_wide, fmtV_low,
    fmtV_wide, fmtT_low, fmtT_wide, Instr.wf]

theorem stl (p : Bool) (a b : Reg) (mode size : BitVec 2) (off : BitVec 7) : Statement (.stl p a b mode size off) := by
  rintro w ⟨⟩ h
  simp_all [decode, decodeCustom0, decodeCustom1, decodeCustom3, decodeControl, decodeLoop, decodeTasks, decodeMessages, decodeNets,
    decodePointers, decodeLdl, decodeStl, decodeReductions, decodeRelaxed, decodeVecMem, decodeVector, decodeTileMove,
    decodeMatrix, decodeGenerator, zeroed, fmtK_low, fmtK_wide, fmtI_low, fmtI_wide, fmtS_low, fmtS_wide, fmtV_low,
    fmtV_wide, fmtT_low, fmtT_wide, Instr.wf]

theorem redAddW (p : Bool) (a b : Reg) : Statement (.redAddW p a b) := by
  rintro w ⟨⟩ h
  simp_all [decode, decodeCustom0, decodeCustom1, decodeCustom3, decodeControl, decodeLoop, decodeTasks, decodeMessages, decodeNets,
    decodePointers, decodeLdl, decodeStl, decodeReductions, decodeRelaxed, decodeVecMem, decodeVector, decodeTileMove,
    decodeMatrix, decodeGenerator, zeroed, fmtK_low, fmtK_wide, fmtI_low, fmtI_wide, fmtS_low, fmtS_wide, fmtV_low,
    fmtV_wide, fmtT_low, fmtT_wide, Instr.wf]

theorem redAddD (p : Bool) (a b : Reg) : Statement (.redAddD p a b) := by
  rintro w ⟨⟩ h
  simp_all [decode, decodeCustom0, decodeCustom1, decodeCustom3, decodeControl, decodeLoop, decodeTasks, decodeMessages, decodeNets,
    decodePointers, decodeLdl, decodeStl, decodeReductions, decodeRelaxed, decodeVecMem, decodeVector, decodeTileMove,
    decodeMatrix, decodeGenerator, zeroed, fmtK_low, fmtK_wide, fmtI_low, fmtI_wide, fmtS_low, fmtS_wide, fmtV_low,
    fmtV_wide, fmtT_low, fmtT_wide, Instr.wf]

theorem redMinW (p : Bool) (a b : Reg) : Statement (.redMinW p a b) := by
  rintro w ⟨⟩ h
  simp_all [decode, decodeCustom0, decodeCustom1, decodeCustom3, decodeControl, decodeLoop, decodeTasks, decodeMessages, decodeNets,
    decodePointers, decodeLdl, decodeStl, decodeReductions, decodeRelaxed, decodeVecMem, decodeVector, decodeTileMove,
    decodeMatrix, decodeGenerator, zeroed, fmtK_low, fmtK_wide, fmtI_low, fmtI_wide, fmtS_low, fmtS_wide, fmtV_low,
    fmtV_wide, fmtT_low, fmtT_wide, Instr.wf]

theorem redMinD (p : Bool) (a b : Reg) : Statement (.redMinD p a b) := by
  rintro w ⟨⟩ h
  simp_all [decode, decodeCustom0, decodeCustom1, decodeCustom3, decodeControl, decodeLoop, decodeTasks, decodeMessages, decodeNets,
    decodePointers, decodeLdl, decodeStl, decodeReductions, decodeRelaxed, decodeVecMem, decodeVector, decodeTileMove,
    decodeMatrix, decodeGenerator, zeroed, fmtK_low, fmtK_wide, fmtI_low, fmtI_wide, fmtS_low, fmtS_wide, fmtV_low,
    fmtV_wide, fmtT_low, fmtT_wide, Instr.wf]

theorem redMaxW (p : Bool) (a b : Reg) : Statement (.redMaxW p a b) := by
  rintro w ⟨⟩ h
  simp_all [decode, decodeCustom0, decodeCustom1, decodeCustom3, decodeControl, decodeLoop, decodeTasks, decodeMessages, decodeNets,
    decodePointers, decodeLdl, decodeStl, decodeReductions, decodeRelaxed, decodeVecMem, decodeVector, decodeTileMove,
    decodeMatrix, decodeGenerator, zeroed, fmtK_low, fmtK_wide, fmtI_low, fmtI_wide, fmtS_low, fmtS_wide, fmtV_low,
    fmtV_wide, fmtT_low, fmtT_wide, Instr.wf]

theorem redMaxD (p : Bool) (a b : Reg) : Statement (.redMaxD p a b) := by
  rintro w ⟨⟩ h
  simp_all [decode, decodeCustom0, decodeCustom1, decodeCustom3, decodeControl, decodeLoop, decodeTasks, decodeMessages, decodeNets,
    decodePointers, decodeLdl, decodeStl, decodeReductions, decodeRelaxed, decodeVecMem, decodeVector, decodeTileMove,
    decodeMatrix, decodeGenerator, zeroed, fmtK_low, fmtK_wide, fmtI_low, fmtI_wide, fmtS_low, fmtS_wide, fmtV_low,
    fmtV_wide, fmtT_low, fmtT_wide, Instr.wf]

theorem redAndD (p : Bool) (a b : Reg) : Statement (.redAndD p a b) := by
  rintro w ⟨⟩ h
  simp_all [decode, decodeCustom0, decodeCustom1, decodeCustom3, decodeControl, decodeLoop, decodeTasks, decodeMessages, decodeNets,
    decodePointers, decodeLdl, decodeStl, decodeReductions, decodeRelaxed, decodeVecMem, decodeVector, decodeTileMove,
    decodeMatrix, decodeGenerator, zeroed, fmtK_low, fmtK_wide, fmtI_low, fmtI_wide, fmtS_low, fmtS_wide, fmtV_low,
    fmtV_wide, fmtT_low, fmtT_wide, Instr.wf]

theorem redOrD (p : Bool) (a b : Reg) : Statement (.redOrD p a b) := by
  rintro w ⟨⟩ h
  simp_all [decode, decodeCustom0, decodeCustom1, decodeCustom3, decodeControl, decodeLoop, decodeTasks, decodeMessages, decodeNets,
    decodePointers, decodeLdl, decodeStl, decodeReductions, decodeRelaxed, decodeVecMem, decodeVector, decodeTileMove,
    decodeMatrix, decodeGenerator, zeroed, fmtK_low, fmtK_wide, fmtI_low, fmtI_wide, fmtS_low, fmtS_wide, fmtV_low,
    fmtV_wide, fmtT_low, fmtT_wide, Instr.wf]

theorem redXorD (p : Bool) (a b : Reg) : Statement (.redXorD p a b) := by
  rintro w ⟨⟩ h
  simp_all [decode, decodeCustom0, decodeCustom1, decodeCustom3, decodeControl, decodeLoop, decodeTasks, decodeMessages, decodeNets,
    decodePointers, decodeLdl, decodeStl, decodeReductions, decodeRelaxed, decodeVecMem, decodeVector, decodeTileMove,
    decodeMatrix, decodeGenerator, zeroed, fmtK_low, fmtK_wide, fmtI_low, fmtI_wide, fmtS_low, fmtS_wide, fmtV_low,
    fmtV_wide, fmtT_low, fmtT_wide, Instr.wf]

theorem redFaddS (p : Bool) (a b : Reg) : Statement (.redFaddS p a b) := by
  rintro w ⟨⟩ h
  simp_all [decode, decodeCustom0, decodeCustom1, decodeCustom3, decodeControl, decodeLoop, decodeTasks, decodeMessages, decodeNets,
    decodePointers, decodeLdl, decodeStl, decodeReductions, decodeRelaxed, decodeVecMem, decodeVector, decodeTileMove,
    decodeMatrix, decodeGenerator, zeroed, fmtK_low, fmtK_wide, fmtI_low, fmtI_wide, fmtS_low, fmtS_wide, fmtV_low,
    fmtV_wide, fmtT_low, fmtT_wide, Instr.wf]

theorem redFxa (p : Bool) (a b : Reg) : Statement (.redFxa p a b) := by
  rintro w ⟨⟩ h
  simp_all [decode, decodeCustom0, decodeCustom1, decodeCustom3, decodeControl, decodeLoop, decodeTasks, decodeMessages, decodeNets,
    decodePointers, decodeLdl, decodeStl, decodeReductions, decodeRelaxed, decodeVecMem, decodeVector, decodeTileMove,
    decodeMatrix, decodeGenerator, zeroed, fmtK_low, fmtK_wide, fmtI_low, fmtI_wide, fmtS_low, fmtS_wide, fmtV_low,
    fmtV_wide, fmtT_low, fmtT_wide, Instr.wf]

theorem lrwW (p : Bool) (d a : Reg) : Statement (.lrwW p d a) := by
  rintro w ⟨⟩ h
  simp_all [decode, decodeCustom0, decodeCustom1, decodeCustom3, decodeControl, decodeLoop, decodeTasks, decodeMessages, decodeNets,
    decodePointers, decodeLdl, decodeStl, decodeReductions, decodeRelaxed, decodeVecMem, decodeVector, decodeTileMove,
    decodeMatrix, decodeGenerator, zeroed, fmtK_low, fmtK_wide, fmtI_low, fmtI_wide, fmtS_low, fmtS_wide, fmtV_low,
    fmtV_wide, fmtT_low, fmtT_wide, Instr.wf]

theorem lrwD (p : Bool) (d a : Reg) : Statement (.lrwD p d a) := by
  rintro w ⟨⟩ h
  simp_all [decode, decodeCustom0, decodeCustom1, decodeCustom3, decodeControl, decodeLoop, decodeTasks, decodeMessages, decodeNets,
    decodePointers, decodeLdl, decodeStl, decodeReductions, decodeRelaxed, decodeVecMem, decodeVector, decodeTileMove,
    decodeMatrix, decodeGenerator, zeroed, fmtK_low, fmtK_wide, fmtI_low, fmtI_wide, fmtS_low, fmtS_wide, fmtV_low,
    fmtV_wide, fmtT_low, fmtT_wide, Instr.wf]

theorem schW (p : Bool) (a b : Reg) : Statement (.schW p a b) := by
  rintro w ⟨⟩ h
  simp_all [decode, decodeCustom0, decodeCustom1, decodeCustom3, decodeControl, decodeLoop, decodeTasks, decodeMessages, decodeNets,
    decodePointers, decodeLdl, decodeStl, decodeReductions, decodeRelaxed, decodeVecMem, decodeVector, decodeTileMove,
    decodeMatrix, decodeGenerator, zeroed, fmtK_low, fmtK_wide, fmtI_low, fmtI_wide, fmtS_low, fmtS_wide, fmtV_low,
    fmtV_wide, fmtT_low, fmtT_wide, Instr.wf]

theorem schD (p : Bool) (a b : Reg) : Statement (.schD p a b) := by
  rintro w ⟨⟩ h
  simp_all [decode, decodeCustom0, decodeCustom1, decodeCustom3, decodeControl, decodeLoop, decodeTasks, decodeMessages, decodeNets,
    decodePointers, decodeLdl, decodeStl, decodeReductions, decodeRelaxed, decodeVecMem, decodeVector, decodeTileMove,
    decodeMatrix, decodeGenerator, zeroed, fmtK_low, fmtK_wide, fmtI_low, fmtI_wide, fmtS_low, fmtS_wide, fmtV_low,
    fmtV_wide, fmtT_low, fmtT_wide, Instr.wf]

theorem lrwq (p : Bool) (d a : Reg) : Statement (.lrwq p d a) := by
  rintro w ⟨⟩ h
  simp_all [decode, decodeCustom0, decodeCustom1, decodeCustom3, decodeControl, decodeLoop, decodeTasks, decodeMessages, decodeNets,
    decodePointers, decodeLdl, decodeStl, decodeReductions, decodeRelaxed, decodeVecMem, decodeVector, decodeTileMove,
    decodeMatrix, decodeGenerator, zeroed, fmtK_low, fmtK_wide, fmtI_low, fmtI_wide, fmtS_low, fmtS_wide, fmtV_low,
    fmtV_wide, fmtT_low, fmtT_wide, Instr.wf]

theorem stxW (p : Bool) (a b : Reg) : Statement (.stxW p a b) := by
  rintro w ⟨⟩ h
  simp_all [decode, decodeCustom0, decodeCustom1, decodeCustom3, decodeControl, decodeLoop, decodeTasks, decodeMessages, decodeNets,
    decodePointers, decodeLdl, decodeStl, decodeReductions, decodeRelaxed, decodeVecMem, decodeVector, decodeTileMove,
    decodeMatrix, decodeGenerator, zeroed, fmtK_low, fmtK_wide, fmtI_low, fmtI_wide, fmtS_low, fmtS_wide, fmtV_low,
    fmtV_wide, fmtT_low, fmtT_wide, Instr.wf]

theorem stxD (p : Bool) (a b : Reg) : Statement (.stxD p a b) := by
  rintro w ⟨⟩ h
  simp_all [decode, decodeCustom0, decodeCustom1, decodeCustom3, decodeControl, decodeLoop, decodeTasks, decodeMessages, decodeNets,
    decodePointers, decodeLdl, decodeStl, decodeReductions, decodeRelaxed, decodeVecMem, decodeVector, decodeTileMove,
    decodeMatrix, decodeGenerator, zeroed, fmtK_low, fmtK_wide, fmtI_low, fmtI_wide, fmtS_low, fmtS_wide, fmtV_low,
    fmtV_wide, fmtT_low, fmtT_wide, Instr.wf]

theorem stxRelW (p : Bool) (a b d : Reg) : Statement (.stxRelW p a b d) := by
  rintro w ⟨⟩ h
  simp_all [decode, decodeCustom0, decodeCustom1, decodeCustom3, decodeControl, decodeLoop, decodeTasks, decodeMessages, decodeNets,
    decodePointers, decodeLdl, decodeStl, decodeReductions, decodeRelaxed, decodeVecMem, decodeVector, decodeTileMove,
    decodeMatrix, decodeGenerator, zeroed, fmtK_low, fmtK_wide, fmtI_low, fmtI_wide, fmtS_low, fmtS_wide, fmtV_low,
    fmtV_wide, fmtT_low, fmtT_wide, Instr.wf]

theorem stxRelD (p : Bool) (a b d : Reg) : Statement (.stxRelD p a b d) := by
  rintro w ⟨⟩ h
  simp_all [decode, decodeCustom0, decodeCustom1, decodeCustom3, decodeControl, decodeLoop, decodeTasks, decodeMessages, decodeNets,
    decodePointers, decodeLdl, decodeStl, decodeReductions, decodeRelaxed, decodeVecMem, decodeVector, decodeTileMove,
    decodeMatrix, decodeGenerator, zeroed, fmtK_low, fmtK_wide, fmtI_low, fmtI_wide, fmtS_low, fmtS_wide, fmtV_low,
    fmtV_wide, fmtT_low, fmtT_wide, Instr.wf]

theorem ldaW (p : Bool) (d a b : Reg) : Statement (.ldaW p d a b) := by
  rintro w ⟨⟩ h
  simp_all [decode, decodeCustom0, decodeCustom1, decodeCustom3, decodeControl, decodeLoop, decodeTasks, decodeMessages, decodeNets,
    decodePointers, decodeLdl, decodeStl, decodeReductions, decodeRelaxed, decodeVecMem, decodeVector, decodeTileMove,
    decodeMatrix, decodeGenerator, zeroed, fmtK_low, fmtK_wide, fmtI_low, fmtI_wide, fmtS_low, fmtS_wide, fmtV_low,
    fmtV_wide, fmtT_low, fmtT_wide, Instr.wf]

theorem ldaD (p : Bool) (d a b : Reg) : Statement (.ldaD p d a b) := by
  rintro w ⟨⟩ h
  simp_all [decode, decodeCustom0, decodeCustom1, decodeCustom3, decodeControl, decodeLoop, decodeTasks, decodeMessages, decodeNets,
    decodePointers, decodeLdl, decodeStl, decodeReductions, decodeRelaxed, decodeVecMem, decodeVector, decodeTileMove,
    decodeMatrix, decodeGenerator, zeroed, fmtK_low, fmtK_wide, fmtI_low, fmtI_wide, fmtS_low, fmtS_wide, fmtV_low,
    fmtV_wide, fmtT_low, fmtT_wide, Instr.wf]

theorem vld (p : Bool) (g : BitVec 3) (d a : Reg) : Statement (.vld p g d a) := by
  rintro w ⟨⟩ h
  simp_all [decode, decodeCustom0, decodeCustom1, decodeCustom3, decodeControl, decodeLoop, decodeTasks, decodeMessages, decodeNets,
    decodePointers, decodeLdl, decodeStl, decodeReductions, decodeRelaxed, decodeVecMem, decodeVector, decodeTileMove,
    decodeMatrix, decodeGenerator, zeroed, fmtK_low, fmtK_wide, fmtI_low, fmtI_wide, fmtS_low, fmtS_wide, fmtV_low,
    fmtV_wide, fmtT_low, fmtT_wide, Instr.wf]

theorem vst (p : Bool) (g : BitVec 3) (d a : Reg) : Statement (.vst p g d a) := by
  rintro w ⟨⟩ h
  simp_all [decode, decodeCustom0, decodeCustom1, decodeCustom3, decodeControl, decodeLoop, decodeTasks, decodeMessages, decodeNets,
    decodePointers, decodeLdl, decodeStl, decodeReductions, decodeRelaxed, decodeVecMem, decodeVector, decodeTileMove,
    decodeMatrix, decodeGenerator, zeroed, fmtK_low, fmtK_wide, fmtI_low, fmtI_wide, fmtS_low, fmtS_wide, fmtV_low,
    fmtV_wide, fmtT_low, fmtT_wide, Instr.wf]

theorem vlds (p : Bool) (g : BitVec 3) (d a b : Reg) : Statement (.vlds p g d a b) := by
  rintro w ⟨⟩ h
  simp_all [decode, decodeCustom0, decodeCustom1, decodeCustom3, decodeControl, decodeLoop, decodeTasks, decodeMessages, decodeNets,
    decodePointers, decodeLdl, decodeStl, decodeReductions, decodeRelaxed, decodeVecMem, decodeVector, decodeTileMove,
    decodeMatrix, decodeGenerator, zeroed, fmtK_low, fmtK_wide, fmtI_low, fmtI_wide, fmtS_low, fmtS_wide, fmtV_low,
    fmtV_wide, fmtT_low, fmtT_wide, Instr.wf]

theorem vsts (p : Bool) (g : BitVec 3) (d a b : Reg) : Statement (.vsts p g d a b) := by
  rintro w ⟨⟩ h
  simp_all [decode, decodeCustom0, decodeCustom1, decodeCustom3, decodeControl, decodeLoop, decodeTasks, decodeMessages, decodeNets,
    decodePointers, decodeLdl, decodeStl, decodeReductions, decodeRelaxed, decodeVecMem, decodeVector, decodeTileMove,
    decodeMatrix, decodeGenerator, zeroed, fmtK_low, fmtK_wide, fmtI_low, fmtI_wide, fmtS_low, fmtS_wide, fmtV_low,
    fmtV_wide, fmtT_low, fmtT_wide, Instr.wf]

theorem vgath (p : Bool) (g : BitVec 3) (d a b : Reg) : Statement (.vgath p g d a b) := by
  rintro w ⟨⟩ h
  simp_all [decode, decodeCustom0, decodeCustom1, decodeCustom3, decodeControl, decodeLoop, decodeTasks, decodeMessages, decodeNets,
    decodePointers, decodeLdl, decodeStl, decodeReductions, decodeRelaxed, decodeVecMem, decodeVector, decodeTileMove,
    decodeMatrix, decodeGenerator, zeroed, fmtK_low, fmtK_wide, fmtI_low, fmtI_wide, fmtS_low, fmtS_wide, fmtV_low,
    fmtV_wide, fmtT_low, fmtT_wide, Instr.wf]

theorem vscat (p : Bool) (g : BitVec 3) (d a b : Reg) : Statement (.vscat p g d a b) := by
  rintro w ⟨⟩ h
  simp_all [decode, decodeCustom0, decodeCustom1, decodeCustom3, decodeControl, decodeLoop, decodeTasks, decodeMessages, decodeNets,
    decodePointers, decodeLdl, decodeStl, decodeReductions, decodeRelaxed, decodeVecMem, decodeVector, decodeTileMove,
    decodeMatrix, decodeGenerator, zeroed, fmtK_low, fmtK_wide, fmtI_low, fmtI_wide, fmtS_low, fmtS_wide, fmtV_low,
    fmtV_wide, fmtT_low, fmtT_wide, Instr.wf]

theorem vldl (p : Bool) (g : BitVec 3) (d a : Reg) : Statement (.vldl p g d a) := by
  rintro w ⟨⟩ h
  simp_all [decode, decodeCustom0, decodeCustom1, decodeCustom3, decodeControl, decodeLoop, decodeTasks, decodeMessages, decodeNets,
    decodePointers, decodeLdl, decodeStl, decodeReductions, decodeRelaxed, decodeVecMem, decodeVector, decodeTileMove,
    decodeMatrix, decodeGenerator, zeroed, fmtK_low, fmtK_wide, fmtI_low, fmtI_wide, fmtS_low, fmtS_wide, fmtV_low,
    fmtV_wide, fmtT_low, fmtT_wide, Instr.wf]

theorem vstl (p : Bool) (g : BitVec 3) (d a : Reg) : Statement (.vstl p g d a) := by
  rintro w ⟨⟩ h
  simp_all [decode, decodeCustom0, decodeCustom1, decodeCustom3, decodeControl, decodeLoop, decodeTasks, decodeMessages, decodeNets,
    decodePointers, decodeLdl, decodeStl, decodeReductions, decodeRelaxed, decodeVecMem, decodeVector, decodeTileMove,
    decodeMatrix, decodeGenerator, zeroed, fmtK_low, fmtK_wide, fmtI_low, fmtI_wide, fmtS_low, fmtS_wide, fmtV_low,
    fmtV_wide, fmtT_low, fmtT_wide, Instr.wf]

theorem vadd (p : Bool) (g : BitVec 3) (d a b : Reg) : Statement (.vadd p g d a b) := by
  rintro w ⟨⟩ h
  simp_all [decode, decodeCustom0, decodeCustom1, decodeCustom3, decodeControl, decodeLoop, decodeTasks, decodeMessages, decodeNets,
    decodePointers, decodeLdl, decodeStl, decodeReductions, decodeRelaxed, decodeVecMem, decodeVector, decodeTileMove,
    decodeMatrix, decodeGenerator, zeroed, fmtK_low, fmtK_wide, fmtI_low, fmtI_wide, fmtS_low, fmtS_wide, fmtV_low,
    fmtV_wide, fmtT_low, fmtT_wide, Instr.wf]

theorem vsub (p : Bool) (g : BitVec 3) (d a b : Reg) : Statement (.vsub p g d a b) := by
  rintro w ⟨⟩ h
  simp_all [decode, decodeCustom0, decodeCustom1, decodeCustom3, decodeControl, decodeLoop, decodeTasks, decodeMessages, decodeNets,
    decodePointers, decodeLdl, decodeStl, decodeReductions, decodeRelaxed, decodeVecMem, decodeVector, decodeTileMove,
    decodeMatrix, decodeGenerator, zeroed, fmtK_low, fmtK_wide, fmtI_low, fmtI_wide, fmtS_low, fmtS_wide, fmtV_low,
    fmtV_wide, fmtT_low, fmtT_wide, Instr.wf]

theorem vmul (p : Bool) (g : BitVec 3) (d a b : Reg) : Statement (.vmul p g d a b) := by
  rintro w ⟨⟩ h
  simp_all [decode, decodeCustom0, decodeCustom1, decodeCustom3, decodeControl, decodeLoop, decodeTasks, decodeMessages, decodeNets,
    decodePointers, decodeLdl, decodeStl, decodeReductions, decodeRelaxed, decodeVecMem, decodeVector, decodeTileMove,
    decodeMatrix, decodeGenerator, zeroed, fmtK_low, fmtK_wide, fmtI_low, fmtI_wide, fmtS_low, fmtS_wide, fmtV_low,
    fmtV_wide, fmtT_low, fmtT_wide, Instr.wf]

theorem vfma (p : Bool) (g : BitVec 3) (d a b : Reg) : Statement (.vfma p g d a b) := by
  rintro w ⟨⟩ h
  simp_all [decode, decodeCustom0, decodeCustom1, decodeCustom3, decodeControl, decodeLoop, decodeTasks, decodeMessages, decodeNets,
    decodePointers, decodeLdl, decodeStl, decodeReductions, decodeRelaxed, decodeVecMem, decodeVector, decodeTileMove,
    decodeMatrix, decodeGenerator, zeroed, fmtK_low, fmtK_wide, fmtI_low, fmtI_wide, fmtS_low, fmtS_wide, fmtV_low,
    fmtV_wide, fmtT_low, fmtT_wide, Instr.wf]

theorem vfms (p : Bool) (g : BitVec 3) (d a b : Reg) : Statement (.vfms p g d a b) := by
  rintro w ⟨⟩ h
  simp_all [decode, decodeCustom0, decodeCustom1, decodeCustom3, decodeControl, decodeLoop, decodeTasks, decodeMessages, decodeNets,
    decodePointers, decodeLdl, decodeStl, decodeReductions, decodeRelaxed, decodeVecMem, decodeVector, decodeTileMove,
    decodeMatrix, decodeGenerator, zeroed, fmtK_low, fmtK_wide, fmtI_low, fmtI_wide, fmtS_low, fmtS_wide, fmtV_low,
    fmtV_wide, fmtT_low, fmtT_wide, Instr.wf]

theorem vmin (p : Bool) (g : BitVec 3) (d a b : Reg) : Statement (.vmin p g d a b) := by
  rintro w ⟨⟩ h
  simp_all [decode, decodeCustom0, decodeCustom1, decodeCustom3, decodeControl, decodeLoop, decodeTasks, decodeMessages, decodeNets,
    decodePointers, decodeLdl, decodeStl, decodeReductions, decodeRelaxed, decodeVecMem, decodeVector, decodeTileMove,
    decodeMatrix, decodeGenerator, zeroed, fmtK_low, fmtK_wide, fmtI_low, fmtI_wide, fmtS_low, fmtS_wide, fmtV_low,
    fmtV_wide, fmtT_low, fmtT_wide, Instr.wf]

theorem vmax (p : Bool) (g : BitVec 3) (d a b : Reg) : Statement (.vmax p g d a b) := by
  rintro w ⟨⟩ h
  simp_all [decode, decodeCustom0, decodeCustom1, decodeCustom3, decodeControl, decodeLoop, decodeTasks, decodeMessages, decodeNets,
    decodePointers, decodeLdl, decodeStl, decodeReductions, decodeRelaxed, decodeVecMem, decodeVector, decodeTileMove,
    decodeMatrix, decodeGenerator, zeroed, fmtK_low, fmtK_wide, fmtI_low, fmtI_wide, fmtS_low, fmtS_wide, fmtV_low,
    fmtV_wide, fmtT_low, fmtT_wide, Instr.wf]

theorem vabs (p : Bool) (g : BitVec 3) (d a : Reg) : Statement (.vabs p g d a) := by
  rintro w ⟨⟩ h
  simp_all [decode, decodeCustom0, decodeCustom1, decodeCustom3, decodeControl, decodeLoop, decodeTasks, decodeMessages, decodeNets,
    decodePointers, decodeLdl, decodeStl, decodeReductions, decodeRelaxed, decodeVecMem, decodeVector, decodeTileMove,
    decodeMatrix, decodeGenerator, zeroed, fmtK_low, fmtK_wide, fmtI_low, fmtI_wide, fmtS_low, fmtS_wide, fmtV_low,
    fmtV_wide, fmtT_low, fmtT_wide, Instr.wf]

theorem vneg (p : Bool) (g : BitVec 3) (d a : Reg) : Statement (.vneg p g d a) := by
  rintro w ⟨⟩ h
  simp_all [decode, decodeCustom0, decodeCustom1, decodeCustom3, decodeControl, decodeLoop, decodeTasks, decodeMessages, decodeNets,
    decodePointers, decodeLdl, decodeStl, decodeReductions, decodeRelaxed, decodeVecMem, decodeVector, decodeTileMove,
    decodeMatrix, decodeGenerator, zeroed, fmtK_low, fmtK_wide, fmtI_low, fmtI_wide, fmtS_low, fmtS_wide, fmtV_low,
    fmtV_wide, fmtT_low, fmtT_wide, Instr.wf]

theorem vand (p : Bool) (g : BitVec 3) (d a b : Reg) : Statement (.vand p g d a b) := by
  rintro w ⟨⟩ h
  simp_all [decode, decodeCustom0, decodeCustom1, decodeCustom3, decodeControl, decodeLoop, decodeTasks, decodeMessages, decodeNets,
    decodePointers, decodeLdl, decodeStl, decodeReductions, decodeRelaxed, decodeVecMem, decodeVector, decodeTileMove,
    decodeMatrix, decodeGenerator, zeroed, fmtK_low, fmtK_wide, fmtI_low, fmtI_wide, fmtS_low, fmtS_wide, fmtV_low,
    fmtV_wide, fmtT_low, fmtT_wide, Instr.wf]

theorem vor (p : Bool) (g : BitVec 3) (d a b : Reg) : Statement (.vor p g d a b) := by
  rintro w ⟨⟩ h
  simp_all [decode, decodeCustom0, decodeCustom1, decodeCustom3, decodeControl, decodeLoop, decodeTasks, decodeMessages, decodeNets,
    decodePointers, decodeLdl, decodeStl, decodeReductions, decodeRelaxed, decodeVecMem, decodeVector, decodeTileMove,
    decodeMatrix, decodeGenerator, zeroed, fmtK_low, fmtK_wide, fmtI_low, fmtI_wide, fmtS_low, fmtS_wide, fmtV_low,
    fmtV_wide, fmtT_low, fmtT_wide, Instr.wf]

theorem vxor (p : Bool) (g : BitVec 3) (d a b : Reg) : Statement (.vxor p g d a b) := by
  rintro w ⟨⟩ h
  simp_all [decode, decodeCustom0, decodeCustom1, decodeCustom3, decodeControl, decodeLoop, decodeTasks, decodeMessages, decodeNets,
    decodePointers, decodeLdl, decodeStl, decodeReductions, decodeRelaxed, decodeVecMem, decodeVector, decodeTileMove,
    decodeMatrix, decodeGenerator, zeroed, fmtK_low, fmtK_wide, fmtI_low, fmtI_wide, fmtS_low, fmtS_wide, fmtV_low,
    fmtV_wide, fmtT_low, fmtT_wide, Instr.wf]

theorem vshl (p : Bool) (g : BitVec 3) (d a b : Reg) : Statement (.vshl p g d a b) := by
  rintro w ⟨⟩ h
  simp_all [decode, decodeCustom0, decodeCustom1, decodeCustom3, decodeControl, decodeLoop, decodeTasks, decodeMessages, decodeNets,
    decodePointers, decodeLdl, decodeStl, decodeReductions, decodeRelaxed, decodeVecMem, decodeVector, decodeTileMove,
    decodeMatrix, decodeGenerator, zeroed, fmtK_low, fmtK_wide, fmtI_low, fmtI_wide, fmtS_low, fmtS_wide, fmtV_low,
    fmtV_wide, fmtT_low, fmtT_wide, Instr.wf]

theorem vshr (p : Bool) (g : BitVec 3) (d a b : Reg) : Statement (.vshr p g d a b) := by
  rintro w ⟨⟩ h
  simp_all [decode, decodeCustom0, decodeCustom1, decodeCustom3, decodeControl, decodeLoop, decodeTasks, decodeMessages, decodeNets,
    decodePointers, decodeLdl, decodeStl, decodeReductions, decodeRelaxed, decodeVecMem, decodeVector, decodeTileMove,
    decodeMatrix, decodeGenerator, zeroed, fmtK_low, fmtK_wide, fmtI_low, fmtI_wide, fmtS_low, fmtS_wide, fmtV_low,
    fmtV_wide, fmtT_low, fmtT_wide, Instr.wf]

theorem vshrl (p : Bool) (g : BitVec 3) (d a b : Reg) : Statement (.vshrl p g d a b) := by
  rintro w ⟨⟩ h
  simp_all [decode, decodeCustom0, decodeCustom1, decodeCustom3, decodeControl, decodeLoop, decodeTasks, decodeMessages, decodeNets,
    decodePointers, decodeLdl, decodeStl, decodeReductions, decodeRelaxed, decodeVecMem, decodeVector, decodeTileMove,
    decodeMatrix, decodeGenerator, zeroed, fmtK_low, fmtK_wide, fmtI_low, fmtI_wide, fmtS_low, fmtS_wide, fmtV_low,
    fmtV_wide, fmtT_low, fmtT_wide, Instr.wf]

theorem vcmpeq (p : Bool) (g d : BitVec 3) (a b : Reg) : Statement (.vcmpeq p g d a b) := by
  rintro w ⟨⟩ h
  simp_all [decode, decodeCustom0, decodeCustom1, decodeCustom3, decodeControl, decodeLoop, decodeTasks, decodeMessages, decodeNets,
    decodePointers, decodeLdl, decodeStl, decodeReductions, decodeRelaxed, decodeVecMem, decodeVector, decodeTileMove,
    decodeMatrix, decodeGenerator, zeroed, fmtK_low, fmtK_wide, fmtI_low, fmtI_wide, fmtS_low, fmtS_wide, fmtV_low,
    fmtV_wide, fmtT_low, fmtT_wide, Instr.wf]

theorem vcmplt (p : Bool) (g d : BitVec 3) (a b : Reg) : Statement (.vcmplt p g d a b) := by
  rintro w ⟨⟩ h
  simp_all [decode, decodeCustom0, decodeCustom1, decodeCustom3, decodeControl, decodeLoop, decodeTasks, decodeMessages, decodeNets,
    decodePointers, decodeLdl, decodeStl, decodeReductions, decodeRelaxed, decodeVecMem, decodeVector, decodeTileMove,
    decodeMatrix, decodeGenerator, zeroed, fmtK_low, fmtK_wide, fmtI_low, fmtI_wide, fmtS_low, fmtS_wide, fmtV_low,
    fmtV_wide, fmtT_low, fmtT_wide, Instr.wf]

theorem vcmple (p : Bool) (g d : BitVec 3) (a b : Reg) : Statement (.vcmple p g d a b) := by
  rintro w ⟨⟩ h
  simp_all [decode, decodeCustom0, decodeCustom1, decodeCustom3, decodeControl, decodeLoop, decodeTasks, decodeMessages, decodeNets,
    decodePointers, decodeLdl, decodeStl, decodeReductions, decodeRelaxed, decodeVecMem, decodeVector, decodeTileMove,
    decodeMatrix, decodeGenerator, zeroed, fmtK_low, fmtK_wide, fmtI_low, fmtI_wide, fmtS_low, fmtS_wide, fmtV_low,
    fmtV_wide, fmtT_low, fmtT_wide, Instr.wf]

theorem vsel (p : Bool) (g : BitVec 3) (d a b : Reg) : Statement (.vsel p g d a b) := by
  rintro w ⟨⟩ h
  simp_all [decode, decodeCustom0, decodeCustom1, decodeCustom3, decodeControl, decodeLoop, decodeTasks, decodeMessages, decodeNets,
    decodePointers, decodeLdl, decodeStl, decodeReductions, decodeRelaxed, decodeVecMem, decodeVector, decodeTileMove,
    decodeMatrix, decodeGenerator, zeroed, fmtK_low, fmtK_wide, fmtI_low, fmtI_wide, fmtS_low, fmtS_wide, fmtV_low,
    fmtV_wide, fmtT_low, fmtT_wide, Instr.wf]

theorem vmov (p : Bool) (g : BitVec 3) (d a : Reg) : Statement (.vmov p g d a) := by
  rintro w ⟨⟩ h
  simp_all [decode, decodeCustom0, decodeCustom1, decodeCustom3, decodeControl, decodeLoop, decodeTasks, decodeMessages, decodeNets,
    decodePointers, decodeLdl, decodeStl, decodeReductions, decodeRelaxed, decodeVecMem, decodeVector, decodeTileMove,
    decodeMatrix, decodeGenerator, zeroed, fmtK_low, fmtK_wide, fmtI_low, fmtI_wide, fmtS_low, fmtS_wide, fmtV_low,
    fmtV_wide, fmtT_low, fmtT_wide, Instr.wf]

theorem vbcast (p : Bool) (g : BitVec 3) (d a : Reg) : Statement (.vbcast p g d a) := by
  rintro w ⟨⟩ h
  simp_all [decode, decodeCustom0, decodeCustom1, decodeCustom3, decodeControl, decodeLoop, decodeTasks, decodeMessages, decodeNets,
    decodePointers, decodeLdl, decodeStl, decodeReductions, decodeRelaxed, decodeVecMem, decodeVector, decodeTileMove,
    decodeMatrix, decodeGenerator, zeroed, fmtK_low, fmtK_wide, fmtI_low, fmtI_wide, fmtS_low, fmtS_wide, fmtV_low,
    fmtV_wide, fmtT_low, fmtT_wide, Instr.wf]

theorem vins (p : Bool) (g : BitVec 3) (d a b : Reg) : Statement (.vins p g d a b) := by
  rintro w ⟨⟩ h
  simp_all [decode, decodeCustom0, decodeCustom1, decodeCustom3, decodeControl, decodeLoop, decodeTasks, decodeMessages, decodeNets,
    decodePointers, decodeLdl, decodeStl, decodeReductions, decodeRelaxed, decodeVecMem, decodeVector, decodeTileMove,
    decodeMatrix, decodeGenerator, zeroed, fmtK_low, fmtK_wide, fmtI_low, fmtI_wide, fmtS_low, fmtS_wide, fmtV_low,
    fmtV_wide, fmtT_low, fmtT_wide, Instr.wf]

theorem vext (p : Bool) (g : BitVec 3) (d a b : Reg) : Statement (.vext p g d a b) := by
  rintro w ⟨⟩ h
  simp_all [decode, decodeCustom0, decodeCustom1, decodeCustom3, decodeControl, decodeLoop, decodeTasks, decodeMessages, decodeNets,
    decodePointers, decodeLdl, decodeStl, decodeReductions, decodeRelaxed, decodeVecMem, decodeVector, decodeTileMove,
    decodeMatrix, decodeGenerator, zeroed, fmtK_low, fmtK_wide, fmtI_low, fmtI_wide, fmtS_low, fmtS_wide, fmtV_low,
    fmtV_wide, fmtT_low, fmtT_wide, Instr.wf]

theorem vperm (p : Bool) (g : BitVec 3) (d a b : Reg) : Statement (.vperm p g d a b) := by
  rintro w ⟨⟩ h
  simp_all [decode, decodeCustom0, decodeCustom1, decodeCustom3, decodeControl, decodeLoop, decodeTasks, decodeMessages, decodeNets,
    decodePointers, decodeLdl, decodeStl, decodeReductions, decodeRelaxed, decodeVecMem, decodeVector, decodeTileMove,
    decodeMatrix, decodeGenerator, zeroed, fmtK_low, fmtK_wide, fmtI_low, fmtI_wide, fmtS_low, fmtS_wide, fmtV_low,
    fmtV_wide, fmtT_low, fmtT_wide, Instr.wf]

theorem vcvt (p : Bool) (g : BitVec 3) (d a : Reg) (fmt : BitVec 4) (u : Bool) : Statement (.vcvt p g d a fmt u) := by
  rintro w ⟨⟩ h
  simp_all [decode, decodeCustom0, decodeCustom1, decodeCustom3, decodeControl, decodeLoop, decodeTasks, decodeMessages, decodeNets,
    decodePointers, decodeLdl, decodeStl, decodeReductions, decodeRelaxed, decodeVecMem, decodeVector, decodeTileMove,
    decodeMatrix, decodeGenerator, zeroed, fmtK_low, fmtK_wide, fmtI_low, fmtI_wide, fmtS_low, fmtS_wide, fmtV_low,
    fmtV_wide, fmtT_low, fmtT_wide, Instr.wf]

theorem vrsum (p : Bool) (g : BitVec 3) (d a : Reg) : Statement (.vrsum p g d a) := by
  rintro w ⟨⟩ h
  simp_all [decode, decodeCustom0, decodeCustom1, decodeCustom3, decodeControl, decodeLoop, decodeTasks, decodeMessages, decodeNets,
    decodePointers, decodeLdl, decodeStl, decodeReductions, decodeRelaxed, decodeVecMem, decodeVector, decodeTileMove,
    decodeMatrix, decodeGenerator, zeroed, fmtK_low, fmtK_wide, fmtI_low, fmtI_wide, fmtS_low, fmtS_wide, fmtV_low,
    fmtV_wide, fmtT_low, fmtT_wide, Instr.wf]

theorem vrmax (p : Bool) (g : BitVec 3) (d a : Reg) : Statement (.vrmax p g d a) := by
  rintro w ⟨⟩ h
  simp_all [decode, decodeCustom0, decodeCustom1, decodeCustom3, decodeControl, decodeLoop, decodeTasks, decodeMessages, decodeNets,
    decodePointers, decodeLdl, decodeStl, decodeReductions, decodeRelaxed, decodeVecMem, decodeVector, decodeTileMove,
    decodeMatrix, decodeGenerator, zeroed, fmtK_low, fmtK_wide, fmtI_low, fmtI_wide, fmtS_low, fmtS_wide, fmtV_low,
    fmtV_wide, fmtT_low, fmtT_wide, Instr.wf]

theorem vrmin (p : Bool) (g : BitVec 3) (d a : Reg) : Statement (.vrmin p g d a) := by
  rintro w ⟨⟩ h
  simp_all [decode, decodeCustom0, decodeCustom1, decodeCustom3, decodeControl, decodeLoop, decodeTasks, decodeMessages, decodeNets,
    decodePointers, decodeLdl, decodeStl, decodeReductions, decodeRelaxed, decodeVecMem, decodeVector, decodeTileMove,
    decodeMatrix, decodeGenerator, zeroed, fmtK_low, fmtK_wide, fmtI_low, fmtI_wide, fmtS_low, fmtS_wide, fmtV_low,
    fmtV_wide, fmtT_low, fmtT_wide, Instr.wf]

theorem vrcp (p : Bool) (g : BitVec 3) (d a : Reg) : Statement (.vrcp p g d a) := by
  rintro w ⟨⟩ h
  simp_all [decode, decodeCustom0, decodeCustom1, decodeCustom3, decodeControl, decodeLoop, decodeTasks, decodeMessages, decodeNets,
    decodePointers, decodeLdl, decodeStl, decodeReductions, decodeRelaxed, decodeVecMem, decodeVector, decodeTileMove,
    decodeMatrix, decodeGenerator, zeroed, fmtK_low, fmtK_wide, fmtI_low, fmtI_wide, fmtS_low, fmtS_wide, fmtV_low,
    fmtV_wide, fmtT_low, fmtT_wide, Instr.wf]

theorem vrsqrt (p : Bool) (g : BitVec 3) (d a : Reg) : Statement (.vrsqrt p g d a) := by
  rintro w ⟨⟩ h
  simp_all [decode, decodeCustom0, decodeCustom1, decodeCustom3, decodeControl, decodeLoop, decodeTasks, decodeMessages, decodeNets,
    decodePointers, decodeLdl, decodeStl, decodeReductions, decodeRelaxed, decodeVecMem, decodeVector, decodeTileMove,
    decodeMatrix, decodeGenerator, zeroed, fmtK_low, fmtK_wide, fmtI_low, fmtI_wide, fmtS_low, fmtS_wide, fmtV_low,
    fmtV_wide, fmtT_low, fmtT_wide, Instr.wf]

theorem vexp2 (p : Bool) (g : BitVec 3) (d a : Reg) : Statement (.vexp2 p g d a) := by
  rintro w ⟨⟩ h
  simp_all [decode, decodeCustom0, decodeCustom1, decodeCustom3, decodeControl, decodeLoop, decodeTasks, decodeMessages, decodeNets,
    decodePointers, decodeLdl, decodeStl, decodeReductions, decodeRelaxed, decodeVecMem, decodeVector, decodeTileMove,
    decodeMatrix, decodeGenerator, zeroed, fmtK_low, fmtK_wide, fmtI_low, fmtI_wide, fmtS_low, fmtS_wide, fmtV_low,
    fmtV_wide, fmtT_low, fmtT_wide, Instr.wf]

theorem vlog2 (p : Bool) (g : BitVec 3) (d a : Reg) : Statement (.vlog2 p g d a) := by
  rintro w ⟨⟩ h
  simp_all [decode, decodeCustom0, decodeCustom1, decodeCustom3, decodeControl, decodeLoop, decodeTasks, decodeMessages, decodeNets,
    decodePointers, decodeLdl, decodeStl, decodeReductions, decodeRelaxed, decodeVecMem, decodeVector, decodeTileMove,
    decodeMatrix, decodeGenerator, zeroed, fmtK_low, fmtK_wide, fmtI_low, fmtI_wide, fmtS_low, fmtS_wide, fmtV_low,
    fmtV_wide, fmtT_low, fmtT_wide, Instr.wf]

theorem vsett (p : Bool) (d a : Reg) : Statement (.vsett p d a) := by
  rintro w ⟨⟩ h
  simp_all [decode, decodeCustom0, decodeCustom1, decodeCustom3, decodeControl, decodeLoop, decodeTasks, decodeMessages, decodeNets,
    decodePointers, decodeLdl, decodeStl, decodeReductions, decodeRelaxed, decodeVecMem, decodeVector, decodeTileMove,
    decodeMatrix, decodeGenerator, zeroed, fmtK_low, fmtK_wide, fmtI_low, fmtI_wide, fmtS_low, fmtS_wide, fmtV_low,
    fmtV_wide, fmtT_low, fmtT_wide, Instr.wf]

theorem pand (p : Bool) (d a b : BitVec 3) : Statement (.pand p d a b) := by
  rintro w ⟨⟩ h
  simp_all [decode, decodeCustom0, decodeCustom1, decodeCustom3, decodeControl, decodeLoop, decodeTasks, decodeMessages, decodeNets,
    decodePointers, decodeLdl, decodeStl, decodeReductions, decodeRelaxed, decodeVecMem, decodeVector, decodeTileMove,
    decodeMatrix, decodeGenerator, zeroed, fmtK_low, fmtK_wide, fmtI_low, fmtI_wide, fmtS_low, fmtS_wide, fmtV_low,
    fmtV_wide, fmtT_low, fmtT_wide, Instr.wf]

theorem por (p : Bool) (d a b : BitVec 3) : Statement (.por p d a b) := by
  rintro w ⟨⟩ h
  simp_all [decode, decodeCustom0, decodeCustom1, decodeCustom3, decodeControl, decodeLoop, decodeTasks, decodeMessages, decodeNets,
    decodePointers, decodeLdl, decodeStl, decodeReductions, decodeRelaxed, decodeVecMem, decodeVector, decodeTileMove,
    decodeMatrix, decodeGenerator, zeroed, fmtK_low, fmtK_wide, fmtI_low, fmtI_wide, fmtS_low, fmtS_wide, fmtV_low,
    fmtV_wide, fmtT_low, fmtT_wide, Instr.wf]

theorem pnot (p : Bool) (d a : BitVec 3) : Statement (.pnot p d a) := by
  rintro w ⟨⟩ h
  simp_all [decode, decodeCustom0, decodeCustom1, decodeCustom3, decodeControl, decodeLoop, decodeTasks, decodeMessages, decodeNets,
    decodePointers, decodeLdl, decodeStl, decodeReductions, decodeRelaxed, decodeVecMem, decodeVector, decodeTileMove,
    decodeMatrix, decodeGenerator, zeroed, fmtK_low, fmtK_wide, fmtI_low, fmtI_wide, fmtS_low, fmtS_wide, fmtV_low,
    fmtV_wide, fmtT_low, fmtT_wide, Instr.wf]

theorem pcnt (p : Bool) (d : Reg) (a : BitVec 3) : Statement (.pcnt p d a) := by
  rintro w ⟨⟩ h
  simp_all [decode, decodeCustom0, decodeCustom1, decodeCustom3, decodeControl, decodeLoop, decodeTasks, decodeMessages, decodeNets,
    decodePointers, decodeLdl, decodeStl, decodeReductions, decodeRelaxed, decodeVecMem, decodeVector, decodeTileMove,
    decodeMatrix, decodeGenerator, zeroed, fmtK_low, fmtK_wide, fmtI_low, fmtI_wide, fmtS_low, fmtS_wide, fmtV_low,
    fmtV_wide, fmtT_low, fmtT_wide, Instr.wf]

theorem pfirst (p : Bool) (d : Reg) (a : BitVec 3) : Statement (.pfirst p d a) := by
  rintro w ⟨⟩ h
  simp_all [decode, decodeCustom0, decodeCustom1, decodeCustom3, decodeControl, decodeLoop, decodeTasks, decodeMessages, decodeNets,
    decodePointers, decodeLdl, decodeStl, decodeReductions, decodeRelaxed, decodeVecMem, decodeVector, decodeTileMove,
    decodeMatrix, decodeGenerator, zeroed, fmtK_low, fmtK_wide, fmtI_low, fmtI_wide, fmtS_low, fmtS_wide, fmtV_low,
    fmtV_wide, fmtT_low, fmtT_wide, Instr.wf]

theorem pset (p : Bool) (d : BitVec 3) (a : Reg) : Statement (.pset p d a) := by
  rintro w ⟨⟩ h
  simp_all [decode, decodeCustom0, decodeCustom1, decodeCustom3, decodeControl, decodeLoop, decodeTasks, decodeMessages, decodeNets,
    decodePointers, decodeLdl, decodeStl, decodeReductions, decodeRelaxed, decodeVecMem, decodeVector, decodeTileMove,
    decodeMatrix, decodeGenerator, zeroed, fmtK_low, fmtK_wide, fmtI_low, fmtI_wide, fmtS_low, fmtS_wide, fmtV_low,
    fmtV_wide, fmtT_low, fmtT_wide, Instr.wf]

theorem tld (p : Bool) (td : BitVec 3) (a : Reg) (pitched : Bool) : Statement (.tld p td a pitched) := by
  rintro w ⟨⟩ h
  simp_all [decode, decodeCustom0, decodeCustom1, decodeCustom3, decodeControl, decodeLoop, decodeTasks, decodeMessages, decodeNets,
    decodePointers, decodeLdl, decodeStl, decodeReductions, decodeRelaxed, decodeVecMem, decodeVector, decodeTileMove,
    decodeMatrix, decodeGenerator, zeroed, fmtK_low, fmtK_wide, fmtI_low, fmtI_wide, fmtS_low, fmtS_wide, fmtV_low,
    fmtV_wide, fmtT_low, fmtT_wide, Instr.wf]
  rintro rfl
  simp at h
  omega

theorem tst (p : Bool) (td : BitVec 3) (a : Reg) (pitched : Bool) : Statement (.tst p td a pitched) := by
  rintro w ⟨⟩ h
  simp_all [decode, decodeCustom0, decodeCustom1, decodeCustom3, decodeControl, decodeLoop, decodeTasks, decodeMessages, decodeNets,
    decodePointers, decodeLdl, decodeStl, decodeReductions, decodeRelaxed, decodeVecMem, decodeVector, decodeTileMove,
    decodeMatrix, decodeGenerator, zeroed, fmtK_low, fmtK_wide, fmtI_low, fmtI_wide, fmtS_low, fmtS_wide, fmtV_low,
    fmtV_wide, fmtT_low, fmtT_wide, Instr.wf]
  rintro rfl
  simp at h
  omega

theorem tzero (p : Bool) (td : BitVec 3) : Statement (.tzero p td) := by
  rintro w ⟨⟩ h
  simp_all [decode, decodeCustom0, decodeCustom1, decodeCustom3, decodeControl, decodeLoop, decodeTasks, decodeMessages, decodeNets,
    decodePointers, decodeLdl, decodeStl, decodeReductions, decodeRelaxed, decodeVecMem, decodeVector, decodeTileMove,
    decodeMatrix, decodeGenerator, zeroed, fmtK_low, fmtK_wide, fmtI_low, fmtI_wide, fmtS_low, fmtS_wide, fmtV_low,
    fmtV_wide, fmtT_low, fmtT_wide, Instr.wf]

theorem tmov (p : Bool) (td ta : BitVec 3) : Statement (.tmov p td ta) := by
  rintro w ⟨⟩ h
  simp_all [decode, decodeCustom0, decodeCustom1, decodeCustom3, decodeControl, decodeLoop, decodeTasks, decodeMessages, decodeNets,
    decodePointers, decodeLdl, decodeStl, decodeReductions, decodeRelaxed, decodeVecMem, decodeVector, decodeTileMove,
    decodeMatrix, decodeGenerator, zeroed, fmtK_low, fmtK_wide, fmtI_low, fmtI_wide, fmtS_low, fmtS_wide, fmtV_low,
    fmtV_wide, fmtT_low, fmtT_wide, Instr.wf]

theorem ttrans (p : Bool) (td ta : BitVec 3) : Statement (.ttrans p td ta) := by
  rintro w ⟨⟩ h
  simp_all [decode, decodeCustom0, decodeCustom1, decodeCustom3, decodeControl, decodeLoop, decodeTasks, decodeMessages, decodeNets,
    decodePointers, decodeLdl, decodeStl, decodeReductions, decodeRelaxed, decodeVecMem, decodeVector, decodeTileMove,
    decodeMatrix, decodeGenerator, zeroed, fmtK_low, fmtK_wide, fmtI_low, fmtI_wide, fmtS_low, fmtS_wide, fmtV_low,
    fmtV_wide, fmtT_low, fmtT_wide, Instr.wf]

theorem acld (p : Bool) (td : BitVec 2) (a : Reg) : Statement (.acld p td a) := by
  rintro w ⟨⟩ h
  simp_all [decode, decodeCustom0, decodeCustom1, decodeCustom3, decodeControl, decodeLoop, decodeTasks, decodeMessages, decodeNets,
    decodePointers, decodeLdl, decodeStl, decodeReductions, decodeRelaxed, decodeVecMem, decodeVector, decodeTileMove,
    decodeMatrix, decodeGenerator, zeroed, fmtK_low, fmtK_wide, fmtI_low, fmtI_wide, fmtS_low, fmtS_wide, fmtV_low,
    fmtV_wide, fmtT_low, fmtT_wide, Instr.wf]

theorem acst (p : Bool) (td : BitVec 2) (a : Reg) : Statement (.acst p td a) := by
  rintro w ⟨⟩ h
  simp_all [decode, decodeCustom0, decodeCustom1, decodeCustom3, decodeControl, decodeLoop, decodeTasks, decodeMessages, decodeNets,
    decodePointers, decodeLdl, decodeStl, decodeReductions, decodeRelaxed, decodeVecMem, decodeVector, decodeTileMove,
    decodeMatrix, decodeGenerator, zeroed, fmtK_low, fmtK_wide, fmtI_low, fmtI_wide, fmtS_low, fmtS_wide, fmtV_low,
    fmtV_wide, fmtT_low, fmtT_wide, Instr.wf]

theorem acz (p : Bool) (td : BitVec 2) : Statement (.acz p td) := by
  rintro w ⟨⟩ h
  simp_all [decode, decodeCustom0, decodeCustom1, decodeCustom3, decodeControl, decodeLoop, decodeTasks, decodeMessages, decodeNets,
    decodePointers, decodeLdl, decodeStl, decodeReductions, decodeRelaxed, decodeVecMem, decodeVector, decodeTileMove,
    decodeMatrix, decodeGenerator, zeroed, fmtK_low, fmtK_wide, fmtI_low, fmtI_wide, fmtS_low, fmtS_wide, fmtV_low,
    fmtV_wide, fmtT_low, fmtT_wide, Instr.wf]

theorem tcvt (p : Bool) (td : BitVec 3) (ta : BitVec 2) : Statement (.tcvt p td ta) := by
  rintro w ⟨⟩ h
  simp_all [decode, decodeCustom0, decodeCustom1, decodeCustom3, decodeControl, decodeLoop, decodeTasks, decodeMessages, decodeNets,
    decodePointers, decodeLdl, decodeStl, decodeReductions, decodeRelaxed, decodeVecMem, decodeVector, decodeTileMove,
    decodeMatrix, decodeGenerator, zeroed, fmtK_low, fmtK_wide, fmtI_low, fmtI_wide, fmtS_low, fmtS_wide, fmtV_low,
    fmtV_wide, fmtT_low, fmtT_wide, Instr.wf]

theorem tgen (p : Bool) (td g : BitVec 3) (tr : Bool) : Statement (.tgen p td g tr) := by
  rintro w ⟨⟩ h
  simp_all [decode, decodeCustom0, decodeCustom1, decodeCustom3, decodeControl, decodeLoop, decodeTasks, decodeMessages, decodeNets,
    decodePointers, decodeLdl, decodeStl, decodeReductions, decodeRelaxed, decodeVecMem, decodeVector, decodeTileMove,
    decodeMatrix, decodeGenerator, zeroed, fmtK_low, fmtK_wide, fmtI_low, fmtI_wide, fmtS_low, fmtS_wide, fmtV_low,
    fmtV_wide, fmtT_low, fmtT_wide, Instr.wf]

theorem tfill (p : Bool) (td : BitVec 3) (a : Reg) : Statement (.tfill p td a) := by
  rintro w ⟨⟩ h
  simp_all [decode, decodeCustom0, decodeCustom1, decodeCustom3, decodeControl, decodeLoop, decodeTasks, decodeMessages, decodeNets,
    decodePointers, decodeLdl, decodeStl, decodeReductions, decodeRelaxed, decodeVecMem, decodeVector, decodeTileMove,
    decodeMatrix, decodeGenerator, zeroed, fmtK_low, fmtK_wide, fmtI_low, fmtI_wide, fmtS_low, fmtS_wide, fmtV_low,
    fmtV_wide, fmtT_low, fmtT_wide, Instr.wf]

theorem tmma (p : Bool) (td : BitVec 2) (ta tb : BitVec 3) (tr : Bool) : Statement (.tmma p td ta tb tr) := by
  rintro w ⟨⟩ h
  simp_all [decode, decodeCustom0, decodeCustom1, decodeCustom3, decodeControl, decodeLoop, decodeTasks, decodeMessages, decodeNets,
    decodePointers, decodeLdl, decodeStl, decodeReductions, decodeRelaxed, decodeVecMem, decodeVector, decodeTileMove,
    decodeMatrix, decodeGenerator, zeroed, fmtK_low, fmtK_wide, fmtI_low, fmtI_wide, fmtS_low, fmtS_wide, fmtV_low,
    fmtV_wide, fmtT_low, fmtT_wide, Instr.wf]

theorem tmmas (p : Bool) (td : BitVec 2) (ta tb tm : BitVec 3) (tr : Bool) : Statement (.tmmas p td ta tb tm tr) := by
  rintro w ⟨⟩ h
  simp_all [decode, decodeCustom0, decodeCustom1, decodeCustom3, decodeControl, decodeLoop, decodeTasks, decodeMessages, decodeNets,
    decodePointers, decodeLdl, decodeStl, decodeReductions, decodeRelaxed, decodeVecMem, decodeVector, decodeTileMove,
    decodeMatrix, decodeGenerator, zeroed, fmtK_low, fmtK_wide, fmtI_low, fmtI_wide, fmtS_low, fmtS_wide, fmtV_low,
    fmtV_wide, fmtT_low, fmtT_wide, Instr.wf]

theorem tmmag (p : Bool) (td : BitVec 2) (ta g : BitVec 3) (tr : Bool) : Statement (.tmmag p td ta g tr) := by
  rintro w ⟨⟩ h
  simp_all [decode, decodeCustom0, decodeCustom1, decodeCustom3, decodeControl, decodeLoop, decodeTasks, decodeMessages, decodeNets,
    decodePointers, decodeLdl, decodeStl, decodeReductions, decodeRelaxed, decodeVecMem, decodeVector, decodeTileMove,
    decodeMatrix, decodeGenerator, zeroed, fmtK_low, fmtK_wide, fmtI_low, fmtI_wide, fmtS_low, fmtS_wide, fmtV_low,
    fmtV_wide, fmtT_low, fmtT_wide, Instr.wf]

theorem gsetK (p : Bool) (gd : BitVec 3) (a : Reg) : Statement (.gsetK p gd a) := by
  rintro w ⟨⟩ h
  simp_all [decode, decodeCustom0, decodeCustom1, decodeCustom3, decodeControl, decodeLoop, decodeTasks, decodeMessages, decodeNets,
    decodePointers, decodeLdl, decodeStl, decodeReductions, decodeRelaxed, decodeVecMem, decodeVector, decodeTileMove,
    decodeMatrix, decodeGenerator, zeroed, fmtK_low, fmtK_wide, fmtI_low, fmtI_wide, fmtS_low, fmtS_wide, fmtV_low,
    fmtV_wide, fmtT_low, fmtT_wide, Instr.wf]

theorem gsetSeed (p : Bool) (gd : BitVec 3) (a : Reg) : Statement (.gsetSeed p gd a) := by
  rintro w ⟨⟩ h
  simp_all [decode, decodeCustom0, decodeCustom1, decodeCustom3, decodeControl, decodeLoop, decodeTasks, decodeMessages, decodeNets,
    decodePointers, decodeLdl, decodeStl, decodeReductions, decodeRelaxed, decodeVecMem, decodeVector, decodeTileMove,
    decodeMatrix, decodeGenerator, zeroed, fmtK_low, fmtK_wide, fmtI_low, fmtI_wide, fmtS_low, fmtS_wide, fmtV_low,
    fmtV_wide, fmtT_low, fmtT_wide, Instr.wf]

theorem gsetScope (p : Bool) (gd : BitVec 3) (a : Reg) (loc : Bool) : Statement (.gsetScope p gd a loc) := by
  rintro w ⟨⟩ h
  simp_all [decode, decodeCustom0, decodeCustom1, decodeCustom3, decodeControl, decodeLoop, decodeTasks, decodeMessages, decodeNets,
    decodePointers, decodeLdl, decodeStl, decodeReductions, decodeRelaxed, decodeVecMem, decodeVector, decodeTileMove,
    decodeMatrix, decodeGenerator, zeroed, fmtK_low, fmtK_wide, fmtI_low, fmtI_wide, fmtS_low, fmtS_wide, fmtV_low,
    fmtV_wide, fmtT_low, fmtT_wide, Instr.wf]

theorem gsetOrg (p : Bool) (gd : BitVec 3) (a : Reg) : Statement (.gsetOrg p gd a) := by
  rintro w ⟨⟩ h
  simp_all [decode, decodeCustom0, decodeCustom1, decodeCustom3, decodeControl, decodeLoop, decodeTasks, decodeMessages, decodeNets,
    decodePointers, decodeLdl, decodeStl, decodeReductions, decodeRelaxed, decodeVecMem, decodeVector, decodeTileMove,
    decodeMatrix, decodeGenerator, zeroed, fmtK_low, fmtK_wide, fmtI_low, fmtI_wide, fmtS_low, fmtS_wide, fmtV_low,
    fmtV_wide, fmtT_low, fmtT_wide, Instr.wf]

theorem gsetPar (p : Bool) (gd : BitVec 3) (a : Reg) : Statement (.gsetPar p gd a) := by
  rintro w ⟨⟩ h
  simp_all [decode, decodeCustom0, decodeCustom1, decodeCustom3, decodeControl, decodeLoop, decodeTasks, decodeMessages, decodeNets,
    decodePointers, decodeLdl, decodeStl, decodeReductions, decodeRelaxed, decodeVecMem, decodeVector, decodeTileMove,
    decodeMatrix, decodeGenerator, zeroed, fmtK_low, fmtK_wide, fmtI_low, fmtI_wide, fmtS_low, fmtS_wide, fmtV_low,
    fmtV_wide, fmtT_low, fmtT_wide, Instr.wf]

theorem standardLoad (f : LoadOp) (rd rs1 : Reg) (imm : BitVec 12) : Statement (.standardLoad f rd rs1 imm) := roundtrip_load f rd rs1 imm

theorem standardStore (f : StoreOp) (rs1 rs2 : Reg) (imm : BitVec 12) : Statement (.standardStore f rs1 rs2 imm) := roundtrip_store f rs1 rs2 imm

theorem baseCompute (c : Compute) : Statement (.baseCompute c) := by
  cases c with
  | op f d a b => exact roundtrip_op f d a b
  | op32 f d a b => exact roundtrip_op32 f d a b
  | imm f d a k => exact roundtrip_imm f d a k
  | shift f d a k => exact roundtrip_shift f d a k
  | shiftW f d a k => exact roundtrip_shiftW f d a k
  | unary f d a => exact roundtrip_unary f d a
  | lui d k => exact roundtrip_lui d k
  | auipc d k => exact roundtrip_auipc d k

theorem branchJump (j : Jump) : Statement (.branchJump j) := by
  cases j with
  | branch f a b k => exact roundtrip_branch f a b k
  | jal d k => exact roundtrip_jal d k
  | jalr d a k => exact roundtrip_jalr d a k

theorem fence (fm pred succ : BitVec 4) (rd rs1 : Reg) : Statement (.fence fm pred succ rd rs1) := roundtrip_fence fm pred succ rd rs1

theorem fenceTso (rd rs1 : Reg) : Statement (.fenceTso rd rs1) := roundtrip_fenceTso rd rs1

theorem fenceI (imm : BitVec 12) (rd rs1 : Reg) : Statement (.fenceI imm rd rs1) := roundtrip_fenceI imm rd rs1

theorem lr (dbl aq rl : Bool) (rd rs1 : Reg) : Statement (.lr dbl aq rl rd rs1) := roundtrip_lr dbl aq rl rd rs1

theorem sc (dbl aq rl : Bool) (rd rs1 rs2 : Reg) : Statement (.sc dbl aq rl rd rs1 rs2) := roundtrip_sc dbl aq rl rd rs1 rs2

theorem amo (f : AmoOp) (dbl aq rl : Bool) (rd rs1 rs2 : Reg) : Statement (.amo f dbl aq rl rd rs1 rs2) := roundtrip_amo f dbl aq rl rd rs1 rs2

theorem wfi : Statement (.wfi) := by
  rintro w ⟨⟩ -
  rfl

theorem sfenceVma (rs1 rs2 : Reg) : Statement (.sfenceVma rs1 rs2) := roundtrip_sfence rs1 rs2

theorem ecall : Statement (.ecall) := by
  rintro w ⟨⟩ -
  rfl

theorem ebreak : Statement (.ebreak) := by
  rintro w ⟨⟩ -
  rfl

theorem sret : Statement (.sret) := by
  rintro w ⟨⟩ -
  rfl

theorem csrInstruction (f : CsrOp) (immediate : Bool) (csr : BitVec 12) (rd src : Reg) : Statement (.csrInstruction f immediate csr rd src) := roundtrip_csr f immediate csr rd src

theorem longLatencyResult (t k : Nat) : Statement (.longLatencyResult t k) := by
  rintro w ⟨⟩

theorem interrupt (t : Nat) : Statement (.interrupt t) := by
  rintro w ⟨⟩

theorem seiChange (t : Nat) (on : Bool) : Statement (.seiChange t on) := by
  rintro w ⟨⟩

theorem stiTimer (t : Nat) (on : Bool) : Statement (.stiTimer t on) := by
  rintro w ⟨⟩

theorem mpWake (t : Nat) : Statement (.mpWake t) := by
  rintro w ⟨⟩

theorem yieldEnd (t : Nat) : Statement (.yieldEnd t) := by
  rintro w ⟨⟩

theorem commitGrant (t : Nat) : Statement (.commitGrant t) := by
  rintro w ⟨⟩

theorem commitBroadcastApply (k : Nat) : Statement (.commitBroadcastApply k) := by
  rintro w ⟨⟩

theorem tokenGrant : Statement (.tokenGrant) := by
  rintro w ⟨⟩

theorem postCommitRelease (t : Nat) : Statement (.postCommitRelease t) := by
  rintro w ⟨⟩

theorem commandInstall (k : Nat) : Statement (.commandInstall k) := by
  rintro w ⟨⟩

theorem relaxedStorePerform (k : Nat) : Statement (.relaxedStorePerform k) := by
  rintro w ⟨⟩

theorem reductionApply (k : Nat) : Statement (.reductionApply k) := by
  rintro w ⟨⟩

theorem invalidationApply (k : Nat) : Statement (.invalidationApply k) := by
  rintro w ⟨⟩

theorem releaseComplete (k : Nat) : Statement (.releaseComplete k) := by
  rintro w ⟨⟩

theorem tlbinvComplete (k : Nat) : Statement (.tlbinvComplete k) := by
  rintro w ⟨⟩

theorem farStoreGroup (k : Nat) : Statement (.farStoreGroup k) := by
  rintro w ⟨⟩

theorem farRequestServe (k : Nat) : Statement (.farRequestServe k) := by
  rintro w ⟨⟩

theorem farAck (k : Nat) : Statement (.farAck k) := by
  rintro w ⟨⟩

theorem farRefusal (k : Nat) (cls : BitVec 4) : Statement (.farRefusal k cls) := by
  rintro w ⟨⟩

theorem farTimeout (k : Nat) : Statement (.farTimeout k) := by
  rintro w ⟨⟩

theorem switchInvalidation (pa : Nat) (data : List Byte) : Statement (.switchInvalidation pa data) := by
  rintro w ⟨⟩

theorem barrierArrival (k : Nat) : Statement (.barrierArrival k) := by
  rintro w ⟨⟩

theorem barrierTimeout (k : Nat) : Statement (.barrierTimeout k) := by
  rintro w ⟨⟩

theorem reservationRequest (k : Nat) : Statement (.reservationRequest k) := by
  rintro w ⟨⟩

theorem reservationHandover (k : Nat) : Statement (.reservationHandover k) := by
  rintro w ⟨⟩

theorem reservationResend (k : Nat) : Statement (.reservationResend k) := by
  rintro w ⟨⟩

theorem grantTimeout (k : Nat) : Statement (.grantTimeout k) := by
  rintro w ⟨⟩

theorem waitswapExpiry (t : Nat) : Statement (.waitswapExpiry t) := by
  rintro w ⟨⟩

theorem messageArrival (k : Nat) : Statement (.messageArrival k) := by
  rintro w ⟨⟩

theorem messageAck (k : Nat) : Statement (.messageAck k) := by
  rintro w ⟨⟩

theorem spillRingDrain (t : Nat) (c : BitVec 2) : Statement (.spillRingDrain t c) := by
  rintro w ⟨⟩

theorem antiMessageArrival (k : Nat) : Statement (.antiMessageArrival k) := by
  rintro w ⟨⟩

theorem rollback (t : Nat) : Statement (.rollback t) := by
  rintro w ⟨⟩

theorem gvtPublish (key : Word) : Statement (.gvtPublish key) := by
  rintro w ⟨⟩

theorem ringWaitTimeout (t : Nat) : Statement (.ringWaitTimeout t) := by
  rintro w ⟨⟩

theorem steal (t : Nat) : Statement (.steal t) := by
  rintro w ⟨⟩

theorem taskDecrement (k : Nat) : Statement (.taskDecrement k) := by
  rintro w ⟨⟩

theorem launchQuiescent (l : Nat) : Statement (.launchQuiescent l) := by
  rintro w ⟨⟩

theorem nodeCacheRefill (core l : Nat) : Statement (.nodeCacheRefill core l) := by
  rintro w ⟨⟩

theorem mma (core : Nat) : Statement (.mma core) := by
  rintro w ⟨⟩

theorem mmag (core : Nat) : Statement (.mmag core) := by
  rintro w ⟨⟩

theorem mmas (core : Nat) : Statement (.mmas core) := by
  rintro w ⟨⟩

theorem accz (core : Nat) : Statement (.accz core) := by
  rintro w ⟨⟩

theorem accout (core : Nat) : Statement (.accout core) := by
  rintro w ⟨⟩

theorem gangmma (core : Nat) : Statement (.gangmma core) := by
  rintro w ⟨⟩

theorem copy (core : Nat) : Statement (.copy core) := by
  rintro w ⟨⟩

theorem redcopy (core : Nat) : Statement (.redcopy core) := by
  rintro w ⟨⟩

theorem gather (core : Nat) : Statement (.gather core) := by
  rintro w ⟨⟩

theorem scatter (core : Nat) : Statement (.scatter core) := by
  rintro w ⟨⟩

theorem scalecast (core : Nat) : Statement (.scalecast core) := by
  rintro w ⟨⟩

theorem allred (core : Nat) : Statement (.allred core) := by
  rintro w ⟨⟩

theorem bcast (core : Nat) : Statement (.bcast core) := by
  rintro w ⟨⟩

theorem redscat (core : Nat) : Statement (.redscat core) := by
  rintro w ⟨⟩

theorem allgath (core : Nat) : Statement (.allgath core) := by
  rintro w ⟨⟩

theorem ckpt : Statement (.ckpt) := by
  rintro w ⟨⟩

theorem ckptRestore : Statement (.ckptRestore) := by
  rintro w ⟨⟩

theorem commandRetire (ticketId : Nat) : Statement (.commandRetire ticketId) := by
  rintro w ⟨⟩

theorem redcopyApply (ticketId : Nat) : Statement (.redcopyApply ticketId) := by
  rintro w ⟨⟩

theorem redcopyResend (ticketId : Nat) : Statement (.redcopyResend ticketId) := by
  rintro w ⟨⟩

theorem regionGapTimeout (r : Nat) : Statement (.regionGapTimeout r) := by
  rintro w ⟨⟩

theorem collectiveContribution (slot : Nat) (remote : List (Nat × List Byte)) : Statement (.collectiveContribution slot remote) := by
  rintro w ⟨⟩

theorem collectiveTimeout (slot : Nat) : Statement (.collectiveTimeout slot) := by
  rintro w ⟨⟩

theorem ckptAllArrived : Statement (.ckptAllArrived) := by
  rintro w ⟨⟩

theorem ckptTimeout : Statement (.ckptTimeout) := by
  rintro w ⟨⟩

theorem ckptResume : Statement (.ckptResume) := by
  rintro w ⟨⟩

theorem ckptDrain : Statement (.ckptDrain) := by
  rintro w ⟨⟩

theorem vectorWindow (core : Nat) : Statement (.vectorWindow core) := by
  rintro w ⟨⟩

theorem refpbDue (stack pc bank : Nat) : Statement (.refpbDue stack pc bank) := by
  rintro w ⟨⟩

theorem owedRefresh (stack pc bank : Nat) : Statement (.owedRefresh stack pc bank) := by
  rintro w ⟨⟩

theorem hostSnoop (pa : Nat) (data : Option (List Byte)) : Statement (.hostSnoop pa data) := by
  rintro w ⟨⟩

theorem hostCxlMemAccess (pa : Nat) (data : Option (List Byte)) : Statement (.hostCxlMemAccess pa data) := by
  rintro w ⟨⟩

theorem biasFlip : Statement (.biasFlip) := by
  rintro w ⟨⟩

theorem biasFlipComplete : Statement (.biasFlipComplete) := by
  rintro w ⟨⟩

theorem qtailWrite (q : Nat) (v : Word) : Statement (.qtailWrite q v) := by
  rintro w ⟨⟩

theorem recordFetch (q : Nat) : Statement (.recordFetch q) := by
  rintro w ⟨⟩

theorem recordRefetch (q : Nat) : Statement (.recordRefetch q) := by
  rintro w ⟨⟩

theorem launchPlacement : Statement (.launchPlacement) := by
  rintro w ⟨⟩

theorem preemption (t : Nat) : Statement (.preemption t) := by
  rintro w ⟨⟩

theorem contextRestore (t : Nat) : Statement (.contextRestore t) := by
  rintro w ⟨⟩

theorem slotDisable (core slot : Nat) : Statement (.slotDisable core slot) := by
  rintro w ⟨⟩

theorem slotEnable (core slot : Nat) : Statement (.slotEnable core slot) := by
  rintro w ⟨⟩

theorem launchComplete (l : Nat) : Statement (.launchComplete l) := by
  rintro w ⟨⟩

theorem queueConfigWrite (q : Nat) (size : Bool) (v : Word) : Statement (.queueConfigWrite q size v) := by
  rintro w ⟨⟩

theorem queueSwitchOut (q : Nat) : Statement (.queueSwitchOut q) := by
  rintro w ⟨⟩

theorem queueSwitchIn (q : Nat) : Statement (.queueSwitchIn q) := by
  rintro w ⟨⟩

theorem queueClear (q : Nat) : Statement (.queueClear q) := by
  rintro w ⟨⟩

theorem queueClearSkip (q : Nat) : Statement (.queueClearSkip q) := by
  rintro w ⟨⟩

theorem chunklenWrite (v : Word) : Statement (.chunklenWrite v) := by
  rintro w ⟨⟩

theorem aeroleWrite (v : Word) : Statement (.aeroleWrite v) := by
  rintro w ⟨⟩

theorem squashmaxWrite (v : Word) : Statement (.squashmaxWrite v) := by
  rintro w ⟨⟩

theorem stealdomWrite (v : Word) : Statement (.stealdomWrite v) := by
  rintro w ⟨⟩

theorem loopcWrite (l : BitVec 1) (v : Word) : Statement (.loopcWrite l v) := by
  rintro w ⟨⟩

theorem errinjWrite (v : Word) : Statement (.errinjWrite v) := by
  rintro w ⟨⟩

theorem errlogEntryClear (v : Word) : Statement (.errlogEntryClear v) := by
  rintro w ⟨⟩

theorem eventCsrWrite (cnt : Bool) (n : BitVec 3) (v : Word) : Statement (.eventCsrWrite cnt n v) := by
  rintro w ⟨⟩

theorem perCoreCsrWrite (therm : Bool) (v : Word) : Statement (.perCoreCsrWrite therm v) := by
  rintro w ⟨⟩

theorem tccFlush (core : Nat) : Statement (.tccFlush core) := by
  rintro w ⟨⟩

theorem tmarkMark (t : Nat) (v : Word) : Statement (.tmarkMark t v) := by
  rintro w ⟨⟩

theorem tmarkStart (t : Nat) (v : Word) : Statement (.tmarkStart t v) := by
  rintro w ⟨⟩

theorem tmarkStop (t : Nat) (v : Word) : Statement (.tmarkStop t v) := by
  rintro w ⟨⟩

theorem satpWrite (v : Word) : Statement (.satpWrite v) := by
  rintro w ⟨⟩

theorem stvecWrite (v : Word) : Statement (.stvecWrite v) := by
  rintro w ⟨⟩

theorem vshareWrite (v : Word) : Statement (.vshareWrite v) := by
  rintro w ⟨⟩

theorem registerWrite (r : RegTarget) (v : Word) : Statement (.registerWrite r v) := by
  rintro w ⟨⟩

theorem domainMembershipWrite (i : Nat) (v : Word) : Statement (.domainMembershipWrite i v) := by
  rintro w ⟨⟩

theorem regionValid (r : Nat) : Statement (.regionValid r) := by
  rintro w ⟨⟩

theorem regionReset (r : Nat) : Statement (.regionReset r) := by
  rintro w ⟨⟩

theorem collectiveSlotValid (s : Nat) : Statement (.collectiveSlotValid s) := by
  rintro w ⟨⟩

theorem flitCrcReplay (port : Nat) : Statement (.flitCrcReplay port) := by
  rintro w ⟨⟩

theorem portDown (port : Nat) : Statement (.portDown port) := by
  rintro w ⟨⟩

theorem debugHalt (cluster : Nat) : Statement (.debugHalt cluster) := by
  rintro w ⟨⟩

theorem debugResume (cluster : Nat) : Statement (.debugResume cluster) := by
  rintro w ⟨⟩

theorem dmdataRead (cluster : Nat) : Statement (.dmdataRead cluster) := by
  rintro w ⟨⟩

theorem dmdataWrite (cluster : Nat) (v : Word) : Statement (.dmdataWrite cluster v) := by
  rintro w ⟨⟩

theorem dmmemRead (cluster : Nat) : Statement (.dmmemRead cluster) := by
  rintro w ⟨⟩

theorem dmmemWrite (cluster : Nat) (v : Word) : Statement (.dmmemWrite cluster v) := by
  rintro w ⟨⟩

theorem statePacketFlush (t : Nat) : Statement (.statePacketFlush t) := by
  rintro w ⟨⟩

theorem trrdptrWrite (v : Word) : Statement (.trrdptrWrite v) := by
  rintro w ⟨⟩

theorem freezeSignal : Statement (.freezeSignal) := by
  rintro w ⟨⟩

theorem freezeRegisterWrite (v : Word) : Statement (.freezeRegisterWrite v) := by
  rintro w ⟨⟩

theorem warmReset : Statement (.warmReset) := by
  rintro w ⟨⟩

theorem coldReset : Statement (.coldReset) := by
  rintro w ⟨⟩

theorem boot (ldb : BitVec 4) (conf : BootConfig) (imgErr recovery : Bool) (offline : List Nat) :
    Statement (.boot ldb conf imgErr recovery offline) := by
  rintro w ⟨⟩

theorem flashWindowWrite (off : Nat) (v : Word) : Statement (.flashWindowWrite off v) := by
  rintro w ⟨⟩

theorem pwrcapWrite (v : Word) : Statement (.pwrcapWrite v) := by
  rintro w ⟨⟩

theorem powerThrottle : Statement (.powerThrottle) := by
  rintro w ⟨⟩

theorem clusterPowerGate (cluster : Nat) : Statement (.clusterPowerGate cluster) := by
  rintro w ⟨⟩

theorem clusterWake (cluster : Nat) : Statement (.clusterWake cluster) := by
  rintro w ⟨⟩

theorem d3hotEntry : Statement (.d3hotEntry) := by
  rintro w ⟨⟩

theorem missFill (core pa : Nat) (fetch : Bool) : Statement (.missFill core pa fetch) := by
  rintro w ⟨⟩

theorem refreshEnd (stack pc bank : Nat) : Statement (.refreshEnd stack pc bank) := by
  rintro w ⟨⟩

theorem hostAgentFailure (pa : Nat) : Statement (.hostAgentFailure pa) := by
  rintro w ⟨⟩

theorem d3hotExit : Statement (.d3hotExit) := by
  rintro w ⟨⟩

end Sys2Proof.Laws.Roundtrip
end

