-- ==== Sys2Proof/Safety.lean ====
section
/-!
DEFINITION. The terms in which claims are made: runs, a thread that nothing holds up, and what completing an
instruction adds to its effect.
-/
namespace Sys2Proof.Machine

/-- The machine goes on for n steps. -/
def runsFor (n : Nat) (s : State) : Prop := ∃ s', Host.Core.run core n s = .next s'

/-- No run from a state ever stops at a fault or a refusal. -/
def Safe (s : State) : Prop := ∀ n, runsFor n s

/-- No register of the current thread has a word with a parity error (R129). -/
def State.soundRegs (s : State) : Bool :=
  (s.coreOf s.th.core).flips.all fun f => !(f.array == 2 && f.owner == s.cur)

/-- Nothing holds up the current thread's next instruction: it occupies a slot, no register is pending and no result is
outstanding, no word of its registers has a parity error, its earlier chunk has committed, it is in no rewrite, no
hardware loop is active, and its chunk is not at its end (R24, R27, R31, R83, R129, R287). -/
structure Ready (s : State) : Prop where
  live : s.live = true
  results : s.th.results = []
  marks : s.th.regs.marks = []
  sound : s.soundRegs = true
  older : s.th.older = none
  noRewrite : s.th.regs.inRewrite = false
  loop0 : s.th.regs.csr.loopC0.getLsbD 0 = false
  loop1 : s.th.regs.csr.loopC1.getLsbD 0 = false
  short : s.th.chunk.count + 1 < s.th.regs.csr.chunkCur

/-- A thread that is ready, on a core with room for what one instruction captures and writes (R34, R116): 8 KiB of undo
store and 16 lines over what the chunks in flight hold. -/
structure Calm (s : State) : Prop extends Ready s where
  undoRoom : s.undoInUse s.th.core + s.th.chunk.undoBytes + 8192 ≤ Config.undoBytes
  lineRoom : s.specLines s.th.core + s.th.chunk.wlines.length + 16 ≤ Config.specLines
  ovfRoom : s.overflowLines s.th.core + s.th.chunk.ovf.length + 16 ≤ 64

/-- A thread in a rewrite whose next instruction nothing holds up (R287). -/
structure Rewriting (s : State) : Prop where
  live : s.live = true
  results : s.th.results = []
  marks : s.th.regs.marks = []
  sound : s.soundRegs = true
  older : s.th.older = none
  inRewrite : s.th.regs.inRewrite = true
  rewrite : s.th.chunk.rewrite = true
  loop0 : s.th.regs.csr.loopC0.getLsbD 0 = false
  loop1 : s.th.regs.csr.loopC1.getLsbD 0 = false
  short : s.th.chunk.count + 1 < 16384

/-- The capacities of the current thread's core hold (R34, R116). -/
def Fits (s : State) : Prop := s.undoFits = true ∧ s.linesFit = true

/-- What completing an instruction adds to its effect: the next pc, one more instruction in the chunk, four cycles until
the next issue, and the thread's status (R24, R31). -/
def completed (s : State) (next : Word) (st : Status) : State :=
  (s.setPc next).modTh fun th => { th with
    chunk := { th.chunk with count := th.chunk.count + 1 }
    nextIssue := s.cycle + 4
    retired := th.retired + 1
    status := st }

/-- The instruction of the current thread has the effect `e` and completes; the thread goes on at `next`. -/
def DoesTo (i : Instr) (s e : State) (next : Word) : Prop := exec i s = .next (completed e next .ready)

/-- The instruction has the effect `e` and completes; the next one follows it. -/
def Does (i : Instr) (s e : State) : Prop := DoesTo i s e (s.pc + 4)

/-- The same where the core's capacities hold after it: an instruction that may write many lines or captures (R32). -/
def Stores (i : Instr) (s e : State) : Prop := Fits (completed e (s.pc + 4) .ready) → Does i s e

/-- The instruction has the effect `e` and completes, its chunk ends with a code, and the thread then has a status (R32,
R35). -/
def Ends (i : Instr) (s e : State) (code : Nat) (st : Status) : Prop :=
  exec i s = .next ((completed e (s.pc + 4) st).cutChunk s.cur code)

/-- The instruction takes a trap with a cause and a trap value (R13, R330). -/
def Traps (i : Instr) (s : State) (cause : Nat) (tval : Word) : Prop := exec i s = .next (takeTrap s cause tval)

/-- The instruction traps with PENDREG where one of its registers is pending, and names the first of them (R27). -/
def Interlocks (i : Instr) (regs : List RegName) (s : State) : Prop :=
  ∀ r, firstPending s regs = some r → Traps i s 24 (BitVec.ofNat 64 (regCode r))

/-- A Twirus form: with P = 0 a pending register traps; with P = 1 the thread parks while a result is outstanding, and then
issues with nothing pending: where the instruction completes from the state with its marks cleared, and the thread need not
try it again, it does the same from the state itself (R26, R27). -/
def Parks (i : Bool → Instr) (regs : List RegName) (s : State) : Prop :=
  Interlocks (i false) regs s ∧ (s.th.results ≠ [] → exec (i true) s = .next (s.stall .parked)) ∧
    (s.th.results = [] → s.th.regs.marks ≠ [] → s.th.regs.inRewrite = false → ∀ t,
      exec (i true) ((s.capture .marks).modRegs fun r => { r with marks := [] }) = .next t →
      t.th.retired = s.th.retired + 1 → (∀ w, t.th.status ≠ .retry w) → exec (i true) s = .next t)

/-! ## Terms of the vector and generator statements -/

/-- The effect of an element-wise function under VTYPE and a predicate: the active elements of v[d] get what `f` gives for
them, the others stay, and the conditions of the active ones go to NFLAGS (R180, R181, R183). -/
def elementwise (s : State) (g : BitVec 3) (d : Reg) (f : Nat → Nat × BitVec 6) : State :=
  let e := fmtBits (vtypeOf s.th.regs.csr.vtype).fmt
  let n := 512 / e
  let v := vecOf e ((List.range n).map fun i => if activeAt (s.p g) e i then (f i).1 else (elems e (s.v d)).getD i 0)
  let c := (List.range n).foldl (fun c i => if activeAt (s.p g) e i then c ||| (f i).2 else c) 0
  (s.orFlags c).enterVec .vector (some (.v d v))

/-- The command at the head of its queue, started: its older terminator is consumed and it is in state running (R216). -/
def started (s : State) (c : Command) : State :=
  (consumeTerm s c).modCmd c.id fun c => { c with started := true, state := .running }

/-- The fields of a generator register (R211). -/
def gFields (g : GReg) : Word × Word × Nat × Nat × Nat × Nat × Nat × Bool :=
  (gSeed g, gScope g, gRow g, gCol g, gParam g, gKind g, gOut g, gLocal g)

end Sys2Proof.Machine
end

