-- ==== Sys2Proof/Certificates/Slice0/Obligations.lean ====
section
/-!
DEFINITION. The statements: what each instruction and operation does, what reset leaves, what the step does, and the invariant
of memory.
-/
open Sys2Proof Sys2Proof.Machine

/-! ## The base instructions -/

/-- A computation on registers writes its result at issue and changes nothing else: the RISC-V result of its operands,
without effect where it names x0 (03_encoding R42, R43, R49). What a computation leaves unchanged: every other x
register, every v, p, tl, ta and g register, every CSR, the mode, every core, memory, and the other threads. -/
def Obligations.ComputationsWriteTheirDestination : Prop :=
  (
      ∀ (s : State) (c : Compute), Calm s →
        Does (.baseCompute c) s (s.setX (computeDest c) (computeValue c s.x s.pc)) ∧ s.setX 0 (computeValue c s.x s.pc) = s) ∧
  (
      ∀ (s t : State) (c : Compute), Calm s → exec (.baseCompute c) s = .next t →
        t.mem = s.mem ∧ t.cores = s.cores ∧ (∀ u, u ≠ s.cur → t.thr u = s.thr u) ∧
        (∀ a, memGet t.mem a = memGet s.mem a) ∧
        (∀ r, r ≠ computeDest c → t.x r = s.x r) ∧ t.th.regs.v = s.th.regs.v ∧ t.th.regs.p = s.th.regs.p ∧
        t.th.regs.tl = s.th.regs.tl ∧ t.th.regs.ta = s.th.regs.ta ∧ t.th.regs.g = s.th.regs.g ∧
        t.th.regs.csr = s.th.regs.csr ∧ t.th.regs.smode = s.th.regs.smode)

/-- A branch goes to its target when its condition holds and to the next instruction when not; JAL and JALR write the
return address; a taken jump to an address that is no multiple of 4 traps at the jump with cause 0 (03_encoding R42).
-/
def Obligations.BranchesAndJumps : Prop :=
  ∀ (s : State) (rd a b : Reg), Calm s →
    (∀ f off, branchTaken f (s.x a) (s.x b) = false → Does (.branchJump (.branch f a b off)) s s) ∧
    (∀ f off, branchTaken f (s.x a) (s.x b) = true →
      let n := s.pc + (off ++ (0 : BitVec 1)).signExtend 64
      (n.toNat % 4 = 0 → DoesTo (.branchJump (.branch f a b off)) s s n) ∧
      (n.toNat % 4 ≠ 0 → Traps (.branchJump (.branch f a b off)) s 0 n)) ∧
    (∀ off,
      let n := s.pc + (off ++ (0 : BitVec 1)).signExtend 64
      (n.toNat % 4 = 0 → DoesTo (.branchJump (.jal rd off)) s (s.setX rd (s.pc + 4)) n) ∧
      (n.toNat % 4 ≠ 0 → Traps (.branchJump (.jal rd off)) s 0 n)) ∧
    (∀ imm,
      let n := (s.x a + imm.signExtend 64) &&& ~~~(1 : Word)
      (n.toNat % 4 = 0 → DoesTo (.branchJump (.jalr rd a imm)) s (s.setX rd (s.pc + 4)) n) ∧
      (n.toNat % 4 ≠ 0 → Traps (.branchJump (.jalr rd a imm)) s 0 n))

/-- What an instruction's effect leaves unchanged. Completing an instruction changes of memory, the cores, the other
threads, the registers and the chunk's writes only the pc; and each kind of effect that the statements below name,
writing an x register, giving a long-latency result, entering the vector queue, writing a CSR, a generator or a TSHAPE
register, raising conditions, appending to the post-commit list, leaves memory, the cores, the other threads, the
chunk's writes and every other register as they were (01_machine R27, R33, 05_scalar R106). -/
def Obligations.EffectFrames : Prop :=
  ∀ (s : State),
    let same := fun (e : State) => e.mem = s.mem ∧ (∀ a, memGet e.mem a = memGet s.mem a) ∧ e.cores = s.cores ∧ e.cur = s.cur ∧
      e.th.chunk.writes = s.th.chunk.writes ∧ ∀ u, u ≠ s.cur → e.thr u = s.thr u
    let post := s.th.chunk.post
    (∀ i e n, DoesTo i s e n → ∃ t, exec i s = .next t ∧ t.mem = e.mem ∧ t.cores = e.cores ∧ t.cur = e.cur ∧
      t.th.chunk.writes = e.th.chunk.writes ∧ t.th.chunk.post = e.th.chunk.post ∧ t.th.regs = { e.th.regs with pc := n } ∧
      ∀ u, u ≠ e.cur → t.thr u = e.thr u) ∧
    (∀ r w, same (s.setX r w) ∧ (s.setX r w).th.chunk.post = post ∧
      (s.setX r w).th.regs = { s.th.regs with x := (s.setX r w).th.regs.x } ∧ ∀ q, q ≠ r → (s.setX r w).x q = s.x q) ∧
    (∀ c v f, same (s.setLong c v f) ∧ (s.setLong c v f).th.chunk.post = post ∧
      (s.setLong c v f).th.regs = { s.th.regs with marks := (s.setLong c v f).th.regs.marks } ∧
      ∀ m, m ≠ v.name → (s.setLong c v f).th.regs.marks.contains m = s.th.regs.marks.contains m) ∧
    (∀ c v, same (s.enterVec c v) ∧ (s.enterVec c v).th.chunk.post = post ∧
      (s.enterVec c v).th.regs = { s.th.regs with marks := (s.enterVec c v).th.regs.marks } ∧
      ∀ m, (∀ r, v = some r → m ≠ r.name) → (s.enterVec c v).th.regs.marks.contains m = s.th.regs.marks.contains m) ∧
    (∀ n f, same (s.setCsr n f) ∧ (s.setCsr n f).th.chunk.post = post ∧
      (s.setCsr n f).th.regs = { s.th.regs with csr := f s.th.regs.csr }) ∧
    (∀ f, same (s.orFlags f) ∧ (s.orFlags f).th.chunk.post = post ∧
      (s.orFlags f).th.regs = { s.th.regs with csr := { s.th.regs.csr with nflags := s.th.regs.csr.nflags ||| f } }) ∧
    (∀ n g, same (s.setG n g) ∧ (s.setG n g).th.chunk.post = post ∧
      (s.setG n g).th.regs = { s.th.regs with g := (s.setG n g).th.regs.g } ∧ ∀ m, m ≠ n → (s.setG n g).g m = s.g m) ∧
    (∀ n w, same (s.setTshape n w) ∧ (s.setTshape n w).th.chunk.post = post ∧
      (s.setTshape n w).th.regs = { s.th.regs with csr := { s.th.regs.csr with tshape := (s.setTshape n w).th.regs.csr.tshape } } ∧
      ∀ m, m ≠ n → (s.setTshape n w).tshape m = s.tshape m) ∧
    (∀ a, same (s.postCommit a) ∧ (s.postCommit a).th.chunk.post = post ++ [a] ∧ (s.postCommit a).th.regs = s.th.regs)

/-- A standard load gives its register the bytes at its address, extended as its name says; a standard store puts the
low bytes of its source into the chunk's version of the line. -/
def Obligations.StandardLoadsAndStores : Prop :=
  (∀ (s t : State) (f : LoadOp) (rd a : Reg) (imm : BitVec 12) (va : Nat) (bs : List Byte), Calm s →
    pointerAddr (s.x a) imm.toInt = .ok va → loadVa s va (loadSize f) true = .ok (t, bs) →
      Does (.standardLoad f rd a imm) s (t.setX rd (loadValue f (leNat bs)))) ∧
  (∀ (s t : State) (f : StoreOp) (a b : Reg) (imm : BitVec 12) (va : Nat), Ready s →
    pointerAddr (s.x a) imm.toInt = .ok va → storeVa s va (leBytes (storeSize f) (s.x b).toNat) = .ok t →
      Stores (.standardStore f a b imm) s t)

/-- Where an access needs no translation and its line is in the L1 or written by the thread, a plain load reads the
bytes that the thread sees and a plain store enters the line and the bytes into its chunk; a base register whose
format bits are no valid pointer, or whose sum leaves 56 bits, raises FATPTR with the register's value, and an address
that is no multiple of the access size raises the misaligned cause with the address (07_memory, 09_ordering,
11_numbers R168, 23_faults). A plain write leaves memory itself alone until the chunk commits: the thread sees its
bytes as its own writes, and what it had written to other addresses as before (09_ordering R132 to R134). -/
def Obligations.PlainAccessByAddress : Prop :=
  (
      (∀ (s : State) (va n : Nat), bits s.who.satp 63 60 = 0 → va < 2 ^ 52 → reachable s s.who va = true → va % n = 0 →
        s.flipWait va = false → s.ldaWait = none → s.poisonedFor va = false → s.badGroup va n = none →
        s.tainted va n = false → (s.placeOf va == .csp && s.invalWaits s.th.core va) = false → s.present va n = true →
          loadVa s va n true = .ok (s.enterRead va n va, (s.enterRead va n va).view va n)) ∧
      (∀ (s : State) (va : Nat) (b : Byte) (bs : List Byte), bits s.who.satp 63 60 = 0 → va < 2 ^ 52 →
        reachable s s.who va = true → va % (b :: bs).length = 0 → s.inEvent = false → s.flipWait va = false →
        s.th.chunk.relaxedMeets va (b :: bs).length = false → s.badGroup va (b :: bs).length = none →
        s.badCopy va (b :: bs).length = false →
          storeVa s va (b :: bs) = .ok (s.specWrite va va (b :: bs))) ∧
      (∀ (base : Word) (off : Int), ptrOk base = false ∨ (bits base 55 0 : Int) + off < 0 ∨ 2 ^ 56 ≤ (bits base 55 0 : Int) + off →
        pointerAddr base off = .error (.trap 29 base)) ∧
      (∀ (s : State) (va n : Nat) (w : Bool), va % n ≠ 0 → loadVa s va n w = .error (.trap 4 (BitVec.ofNat 64 va))) ∧
      (∀ (s : State) (va : Nat) (bs : List Byte), va % bs.length ≠ 0 → s.inEvent = false →
        storeVa s va bs = .error (.trap 6 (BitVec.ofNat 64 va)))) ∧
  (
      ∀ (s : State) (pa va : Nat) (bs : List Byte),
        (s.specWrite pa va bs).mem = s.mem ∧
        (∀ i, i < bs.length → (∀ x ∈ s.th.chunk.post, actByte (pa + i) x = none) →
          (s.specWrite pa va bs).ownByte s.cur (pa + i) = some (bs.getD i 0)) ∧
        (∀ a, a < pa ∨ pa + bs.length ≤ a → (s.specWrite pa va bs).ownByte s.cur a = s.ownByte s.cur a))

/-- LR reserves its address within the chunk and obtains the line exclusive, and where its chunk has a relaxed write
to an overlapping word the chunk is cut first; SC stores and answers 0 where the chunk holds a reservation of the
address, and answers 1 without storing where it holds none; AMO gives its register the old word and stores the
combined one. In an event LR and AMO outside the state region, or in it on a page without LPPRIV, raise OPTWRITE
(05_scalar R103, 09_ordering R132, R134, 17_messages R264). That OPTWRITE holds for LR too, that an SC which fails
raises none, and that it comes before a misaligned address are the model's readings (logs 28, 27). That SC asks for an
LR anywhere earlier in the chunk is deduced, log 29. -/
def Obligations.LrScAmo : Prop :=
  (∀ (s t u : State) (dbl aq rl lp : Bool) (rd a : Reg) (va pa : Nat) (bs : List Byte), Calm s →
    pointerAddr (s.x a) 0 = .ok va →
    (s.optBars va (atomSize dbl) = true → Traps (.lr dbl aq rl rd a) s 49 (BitVec.ofNat 64 va)) ∧
    (s.optBars va (atomSize dbl) = false → va % atomSize dbl = 0 → translateTh s .load va = .ok (t, pa, lp) →
      (t.inEvent = true → lp = false → Traps (.lr dbl aq rl rd a) s 49 (BitVec.ofNat 64 va)) ∧
      ((t.inEvent = true → lp = true) → readPlain t pa (atomSize dbl) va true = .ok (u, bs) →
        (u.th.chunk.relaxedMeets pa (atomSize dbl) = false →
          Does (.lr dbl aq rl rd a) s (((u.enterWrite pa va).modChunk fun c => { c with lrs := addNew pa c.lrs }).setX rd
            (signExt (8 * atomSize dbl) (leNat bs)))) ∧
        (u.th.chunk.relaxedMeets pa (atomSize dbl) = true →
          exec (.lr dbl aq rl rd a) s = .next ((s.cutChunk s.cur 22).stall .olderCommit))))) ∧
  (∀ (s t u : State) (dbl aq rl lp : Bool) (rd a b : Reg) (va pa : Nat), Ready s →
    pointerAddr (s.x a) 0 = .ok va → va % atomSize dbl = 0 → translateTh s .store va = .ok (t, pa, lp) →
    (s.th.chunk.lrs.contains pa = true → s.optBars va (atomSize dbl) = false →
      storeTo t va pa lp (leBytes (atomSize dbl) (s.x b).toNat) = .ok u →
      Stores (.sc dbl aq rl rd a b) s ((u.enterRead pa (atomSize dbl) va).setX rd 0)) ∧
    (s.th.chunk.lrs.contains pa = false → Stores (.sc dbl aq rl rd a b) s (t.setX rd 1))) ∧
  (∀ (s t u v : State) (f : AmoOp) (aq rl lp : Bool) (rd a b : Reg) (va pa : Nat) (bs : List Byte), Ready s →
    pointerAddr (s.x a) 0 = .ok va →
    (∀ dbl, s.optBars va (atomSize dbl) = true → Traps (.amo f dbl aq rl rd a b) s 49 (BitVec.ofNat 64 va)) ∧
    (∀ dbl, s.optBars va (atomSize dbl) = false → va % atomSize dbl = 0 → translateTh s .store va = .ok (t, pa, lp) →
      readPlain t pa (atomSize dbl) va true = .ok (u, bs) → u.inEvent = true → lp = false →
        Traps (.amo f dbl aq rl rd a b) s 49 (BitVec.ofNat 64 va)) ∧
    (s.optBars va 8 = false → va % 8 = 0 → translateTh s .store va = .ok (t, pa, lp) → readPlain t pa 8 va true = .ok (u, bs) →
      storeTo u va pa lp (leBytes 8 (amoValue f (BitVec.ofNat 64 (leNat bs)) (u.x b)).toNat) = .ok v →
        Stores (.amo f true aq rl rd a b) s (v.setX rd (signExt 64 (leNat bs)))) ∧
    (s.optBars va 4 = false → va % 4 = 0 → translateTh s .store va = .ok (t, pa, lp) → readPlain t pa 4 va true = .ok (u, bs) →
      storeTo u va pa lp (leBytes 4 (amoValue f (BitVec.ofNat 32 (leNat bs)) ((u.x b).setWidth 32)).toNat) = .ok v →
        Stores (.amo f false aq rl rd a b) s (v.setX rd (signExt 32 (leNat bs)))))

/-- FENCE and FENCE.TSO append the fence marker of package scope to the post-commit list, whatever their fields hold;
FENCE.S appends that of its scope, and a malformed scope raises SCOPEBAD; FENCE.I empties the instruction cache of the
thread's core, and after it a fetch of any word gets the one value that the thread sees there, none that the word held
before (05_scalar R79, R103, 09_ordering R144). -/
def Obligations.Fences : Prop :=
  ∀ (s : State), Calm s →
    (∀ fm pr su rd rs1, Does (.fence fm pr su rd rs1) s (s.postCommit (.fence packageScope))) ∧
    (∀ rd rs1, Does (.fenceTso rd rs1) s (s.postCommit (.fence packageScope))) ∧
    (∀ imm rd rs1, Does (.fenceI imm rd rs1) s
      (((s.modCore s.th.core fun c => { c with l1i := [], flips := c.flips.filter fun f => f.array != 1 }).modRegs fun r =>
        { r with codeFrom := s.th.codeSeen.length, codeOwn := [] }).modChunk fun c => { c with fenced := true })) ∧
    (∀ imm rd rs1 u pa, exec (.fenceI imm rd rs1) s = .next u → codeWords u pa = [codeView u u.cur pa]) ∧
    (∀ p a, (scopeOf (s.x a)).isSome = true → Does (.fenceS p a) s (s.postCommit (.fence (s.x a)))) ∧
    (∀ p a, scopeOf (s.x a) = none → Traps (.fenceS p a) s 30 (s.x a))

/-- ECALL completes by taking the trap of cause 8 from U mode and 9 from S mode, EBREAK by that of cause 3 with its
own address: the next state is in S mode at the handler's address, with the cause and the trap value written. A trap
of a thread with no result outstanding, outside a rewrite and with no older chunk that its cut would wait for, enters
the handler with the status saved: sepc is the instruction's address, SPP the mode, SPIE the old SIE, SIE 0, the mode
S, and whatever the marks, the loops' ACTIVE bits and the in-event bit hold is saved and cleared (01_machine R28,
05_scalar R84, R103, 17_messages R264, 23_faults R326, R330). -/
def Obligations.SystemCallsEnterTheHandler : Prop :=
  (∀ (s : State), Ready s →
    Traps .ecall s (if s.th.regs.smode then 9 else 8) 0 ∧ Traps .ebreak s 3 s.pc ∧
    (∃ t, exec .ecall s = .next t ∧ t.pc = s.th.regs.csr.stvec &&& ~~~(3 : Word) ∧ t.th.regs.smode = true ∧
      t.th.regs.csr.sepc = s.pc &&& ~~~(3 : Word) ∧ t.th.regs.csr.scause = (if s.th.regs.smode then 9 else 8) ∧
      t.th.regs.csr.stval = 0 ∧ t.mem = s.mem) ∧
    (∃ t, exec .ebreak s = .next t ∧ t.pc = s.th.regs.csr.stvec &&& ~~~(3 : Word) ∧ t.th.regs.smode = true ∧
      t.th.regs.csr.sepc = s.pc &&& ~~~(3 : Word) ∧ t.th.regs.csr.scause = 3 ∧ t.th.regs.csr.stval = s.pc ∧ t.mem = s.mem)) ∧
  ∀ (s : State) (cause : Nat) (tval : Word), s.th.results = [] → s.th.regs.inRewrite = false →
    (s.th.older = none ∨ s.th.chunk.count = 0) → cause < 2 ^ 63 →
      let q := s.th.regs
      let r := (takeTrap s cause tval).th.regs
      r.csr.sepc = s.pc &&& ~~~(3 : Word) ∧ r.csr.scause = BitVec.ofNat 64 cause ∧ r.csr.stval = tval ∧
      r.pc = q.csr.stvec &&& ~~~(3 : Word) ∧ r.smode = true ∧
      r.csr.sstatus.getLsbD 8 = q.smode ∧ r.csr.sstatus.getLsbD 5 = q.csr.sstatus.getLsbD 1 ∧
      r.csr.sstatus.getLsbD 1 = false ∧ r.marks = [] ∧ r.saved.marks = q.marks ∧
      r.saved.act0 = q.csr.loopC0.getLsbD 0 ∧ r.saved.act1 = q.csr.loopC1.getLsbD 0 ∧
      r.csr.loopC0.getLsbD 0 = false ∧ r.csr.loopC1.getLsbD 0 = false ∧
      r.saved.inEvent = q.opt.inEvent ∧ r.opt.inEvent = false ∧
      (∀ n, r.getX n = s.x n) ∧ (takeTrap s cause tval).mem = s.mem

/-- SRET in S mode restores: pc from sepc, the mode from SPP, SIE from SPIE; SPIE becomes 1 and SPP 0; the saved marks
and loop bits and the in-event bit return. In U mode it is an illegal instruction (23_faults R331). -/
def Obligations.SretRestores : Prop :=
  ∀ (s : State), Calm s →
    (s.th.regs.smode = false → Traps .sret s 2 0x10200073) ∧
    (s.th.regs.smode = true →
      ∃ t, exec .sret s = .next t ∧ t.pc = s.th.regs.csr.sepc ∧ t.th.regs.smode = s.th.regs.csr.sstatus.getLsbD 8 ∧
        t.th.regs.csr.sstatus.getLsbD 1 = s.th.regs.csr.sstatus.getLsbD 5 ∧ t.th.regs.csr.sstatus.getLsbD 5 = true ∧
        t.th.regs.csr.sstatus.getLsbD 8 = false ∧ t.th.regs.marks = s.th.regs.saved.marks ∧
        t.th.regs.csr.loopC0.getLsbD 0 = s.th.regs.saved.act0 ∧ t.th.regs.csr.loopC1.getLsbD 0 = s.th.regs.saved.act1 ∧
        t.th.regs.opt.inEvent = s.th.regs.saved.inEvent ∧
        (∀ n, t.x n = s.x n) ∧ t.mem = s.mem)

/-- Pending registers. A register that gets a long-latency result is pending from then on; any instruction, standard
or Twirus, that reads or overwrites a pending register traps with PENDREG, and stval names the first such register by
file and number; with P = 1 the thread parks until every result has returned, and the instruction then issues with
nothing pending; a trap too waits for the outstanding results. RECVT, which restores every register, parks whatever
its bit P holds (01_machine R26, R27, R28, 17_messages R260). -/
def Obligations.PendingRegisters : Prop :=
  ((∀ (n : Reg), regCode (.x n) = n.toNat ∧ regCode (.v n) = 32 + n.toNat) ∧
    (∀ (n : BitVec 3), regCode (.p n) = 64 + n.toNat ∧ regCode (.tl n) = 96 + n.toNat ∧ regCode (.g n) = 160 + n.toNat) ∧
    ∀ (n : BitVec 2), regCode (.ta n) = 128 + n.toNat) ∧
  (∀ (s : State) (c : ResClass) (v : RegVal) (f : Option Nat), realReg v.name = true →
    (s.setLong c v f).th.regs.marks = addNew v.name s.th.regs.marks ∧ (s.setLong c v f).th.results.length = s.th.results.length + 1 ∧
    (s.enterVec c (some v)).th.regs.marks = addNew v.name s.th.regs.marks) ∧
  (∀ (s : State) (c : Nat) (v : Word), s.th.results ≠ [] → takeTrap s c v = s.stall .entry) ∧
  ∀ (s : State), s.live = true →
    ((∀ c, Interlocks (.baseCompute c) (computeSrcs c ++ [.x (computeDest c)]) s) ∧
      (∀ f a b off, Interlocks (.branchJump (.branch f a b off)) [.x a, .x b] s) ∧
      (∀ rd off, Interlocks (.branchJump (.jal rd off)) [.x rd] s) ∧
      (∀ rd a off, Interlocks (.branchJump (.jalr rd a off)) [.x a, .x rd] s) ∧
      (∀ f rd a imm, Interlocks (.standardLoad f rd a imm) [.x a, .x rd] s) ∧
      (∀ f a b imm, Interlocks (.standardStore f a b imm) [.x a, .x b] s) ∧
      (∀ dbl aq rl rd a b, Interlocks (.lr dbl aq rl rd a) [.x a, .x rd] s ∧ Interlocks (.sc dbl aq rl rd a b) [.x a, .x b, .x rd] s ∧
        ∀ f, Interlocks (.amo f dbl aq rl rd a b) [.x a, .x b, .x rd] s) ∧
      ∀ f n rd src, csrIllegal s n (csrWrites f src) = false →
        Interlocks (.csrInstruction f false n rd src) [.x src, .x rd] s ∧ Interlocks (.csrInstruction f true n rd src) [.x rd] s) ∧
    (∀ (d a b : Reg),
      (∀ i ∈ [fun p => Instr.fenceS p a, fun p => .pause p a], Parks i [.x a] s) ∧
      (∀ l n, Parks (fun p => .loop p l a n) [.x a] s) ∧ Parks (fun p => .take p d) [.x d, .x (d + 1)] s ∧
      (∀ u, s.partner s.cur = some u → Parks (fun p => .aeqw p a) [.x a] s ∧ Parks (fun p => .aeqr p d) [.x d] s) ∧
      (∀ e, (e = 3 → s.th.regs.smode = true) → Parks (fun p => .enq p d a e) (groupRegs a ++ [.x d]) s) ∧
      (s.th.regs.opt.on = false → Parks (fun p => .opton p a) [.x a] s) ∧
      (s.th.regs.opt.on = true → Parks (fun p => .stirv p a b) [.x a, .x b] s ∧
        (s.th.regs.opt.inEvent = false → s.th.results ≠ [] → ∀ p, exec (.recvt p d) s = .next (s.stall .parked))) ∧
      (∀ i ∈ [fun p => Instr.bar p d a, fun p => .engq p d a, fun p => .msgq p d a, fun p => .ptrinfo p d a, fun p => .ptrclr p d a,
        fun p => .vsett p d a, fun p => .lrwW p d a, fun p => .lrwD p d a, fun p => .lrwq p d a], Parks i [.x a, .x d] s) ∧
      (∀ i ∈ [fun p => Instr.redAddW p a b, fun p => .redAddD p a b, fun p => .redMinW p a b, fun p => .redMinD p a b,
        fun p => .redMaxW p a b, fun p => .redMaxD p a b, fun p => .redAndD p a b, fun p => .redOrD p a b, fun p => .redXorD p a b,
        fun p => .redFaddS p a b, fun p => .redFxa p a b, fun p => .schW p a b, fun p => .schD p a b, fun p => .stxW p a b,
        fun p => .stxD p a b], Parks i [.x a, .x b] s) ∧
      (∀ i ∈ [fun p => Instr.ptrfmt p d a b, fun p => .stxRelW p a b d, fun p => .stxRelD p a b d, fun p => .ldaW p d a b,
        fun p => .ldaD p d a b], Parks i [.x a, .x b, .x d] s) ∧
      (∀ m z o, Parks (fun p => .ldl p d a m z o) [.x a, .x d] s ∧ Parks (fun p => .stl p a b m z o) [.x a, .x b] s) ∧
      Parks (fun p => .send p a b) [.x a, .v b] s ∧ Parks (fun p => .sendt p a b d) [.x a, .v b, .x d] s ∧
      Parks (fun p => .recv p d a) [.x a, .v d, .v (d + 1)] s ∧ Parks (fun p => .recvs p d a b) [.x a, .x b, .v d, .v (d + 1)] s) ∧
    (∀ (g : BitVec 3) (d a b : Reg),
      (∀ i ∈ [fun p => Instr.vadd p g d a b, fun p => .vsub p g d a b, fun p => .vmul p g d a b, fun p => .vfma p g d a b,
        fun p => .vfms p g d a b, fun p => .vmin p g d a b, fun p => .vmax p g d a b, fun p => .vand p g d a b, fun p => .vor p g d a b,
        fun p => .vxor p g d a b, fun p => .vshl p g d a b, fun p => .vshr p g d a b, fun p => .vshrl p g d a b,
        fun p => .vsel p g d a b, fun p => .vperm p g d a b], Parks i [.v a, .v b, .p g, .v d] s) ∧
      (∀ i ∈ [fun p => Instr.vabs p g d a, fun p => .vneg p g d a, fun p => .vmov p g d a, fun p => .vrsum p g d a,
        fun p => .vrmax p g d a, fun p => .vrmin p g d a, fun p => .vrcp p g d a, fun p => .vrsqrt p g d a, fun p => .vexp2 p g d a,
        fun p => .vlog2 p g d a], Parks i [.v a, .p g, .v d] s) ∧
      (∀ (q : BitVec 3), ∀ i ∈ [fun p => Instr.vcmpeq p g q a b, fun p => .vcmplt p g q a b, fun p => .vcmple p g q a b],
        Parks i [.v a, .v b, .p g, .p q] s) ∧
      (∀ i ∈ [fun p => Instr.vld p g d a, fun p => .vst p g d a, fun p => .vldl p g d a, fun p => .vstl p g d a,
        fun p => .vbcast p g d a], Parks i [.x a, .p g, .v d] s) ∧
      (∀ i ∈ [fun p => Instr.vlds p g d a b, fun p => .vsts p g d a b, fun p => .vins p g d a b], Parks i [.x a, .x b, .p g, .v d] s) ∧
      (∀ i ∈ [fun p => Instr.vgath p g d a b, fun p => .vscat p g d a b], Parks i [.x a, .v b, .p g, .v d] s) ∧
      Parks (fun p => .vext p g d a b) [.v a, .x b, .p g, .x d] s) ∧
    (∀ (d a b : BitVec 3) (r : Reg),
      (∀ i ∈ [fun p => Instr.pand p d a b, fun p => .por p d a b], Parks i [.p a, .p b, .p d] s) ∧ Parks (fun p => .pnot p d a) [.p a, .p d] s ∧
      Parks (fun p => .pcnt p r a) [.p a, .x r] s ∧ Parks (fun p => .pfirst p r a) [.p a, .x r] s ∧ Parks (fun p => .pset p d r) [.x r, .p d] s) ∧
    (s.th.tile = true → ∀ (td tb tc : BitVec 3) (ta : BitVec 2) (a : Reg) (f : Bool),
      Parks (fun p => .tzero p td) [.tl td] s ∧ Parks (fun p => .tfill p td a) [.x a, .tl td] s ∧
      Parks (fun p => .tld p td a false) [.x a, .tl td] s ∧ Parks (fun p => .tst p td a false) [.x a, .tl td] s ∧
      Parks (fun p => .tld p td a true) [.x a, .x (a + 1), .tl td] s ∧ Parks (fun p => .tst p td a true) [.x a, .x (a + 1), .tl td] s ∧
      Parks (fun p => .tmov p td tb) [.tl tb, .tl td] s ∧ Parks (fun p => .ttrans p td tb) [.tl tb, .tl td] s ∧
      Parks (fun p => .acld p ta a) [.x a, .ta ta] s ∧ Parks (fun p => .acst p ta a) [.x a, .ta ta] s ∧ Parks (fun p => .acz p ta) [.ta ta] s ∧
      Parks (fun p => .tcvt p td ta) [.ta ta, .tl td] s ∧ Parks (fun p => .tgen p td tb f) [.g tb, .tl td] s ∧
      Parks (fun p => .tmma p ta td tb f) [.tl td, .tl tb, .ta ta] s ∧ Parks (fun p => .tmmas p ta td tb tc f) [.tl td, .tl tb, .tl tc, .ta ta] s ∧
      Parks (fun p => .tmmag p ta td tb f) [.tl td, .g tb, .ta ta] s ∧
      (∀ i ∈ [fun p => Instr.gsetK p td a, fun p => .gsetSeed p td a, fun p => .gsetScope p td a f, fun p => .gsetOrg p td a,
        fun p => .gsetPar p td a], Parks i [.x a, .g td] s)) ∧
    (s.launch.det = false → s.th.regs.inRewrite = false → ∀ (d a b : Reg),
      (∀ i ∈ [fun p => Instr.spawn p a b, fun p => .ixpair p a b, fun p => .ixlink p a b], Parks i [.x a, .x b] s) ∧
      Parks (fun p => .tnew p d a b) [.x a, .x b, .x d] s ∧
      (∀ i ∈ [fun p => Instr.tdec p a, fun p => .join p a, fun p => .tlist p a, fun p => .ixfree p a], Parks i [.x a] s) ∧
      Parks (fun p => .ixnew p d) [.x d] s ∧ Parks (fun p => .ixpop p d) [.x d, .x (d + 1)] s) ∧
    (s.launch.det = false → s.th.regs.inRewrite = true → ∀ (a b : Reg), Parks (fun p => .ixrule p a b) [.x a, .x b] s) ∧
    (s.th.regs.smode = true → ∀ (a b : Reg),
      Parks (fun p => .ctxsave p a b) [.x a, .x b] s ∧ Parks (fun p => .ctxload p a b) [.x a, .x b] s ∧
      Parks (fun p => .tlbinv p a b) [.x a, .x b] s ∧ Parks (fun p => .zline p a) [.x a] s ∧ Interlocks (.sfenceVma a b) [.x a, .x b] s)

/-! ## Chunks, pauses and hardware loops -/

/-- CHUNK ends the chunk with code 16, WFI with code 6 and waits; WAITB ends it with code 4 and waits for its batch;
BAR ends it with code 7, appends its arrival to the post-commit list, captures x[d] and waits, and a scope that is
malformed, system wide, or does not name the issuer raises SCOPEBAD (05_scalar R78 to R80, R103, 15_engines R220).
YIELD makes the thread not ready for 16 cycles, PAUSE for x[a][15:0] cycles, at least the 4 of the issue spacing; the
chunk is not cut (05_scalar R78). Ending a chunk of at least one instruction requests its commit: the chunk becomes
the older one, in state requested with its code, CUTWHY holds its length, token and code, a new chunk of no
instruction starts from the thread's registers, and memory, the cores' buffers and the other threads are as before;
the request stands behind those of earlier cycles (01_machine R33, R35, 09_ordering R138). What the new chunk starts
from is log 8, and that an empty chunk is not cut is log 13, both deduced. -/
def Obligations.ChunkEndsAndPauses : Prop :=
  (
      (
          ∀ (s : State), Calm s → s.inEvent = false →
            (∀ p, Ends (.chunk p) s s 16 .ready) ∧
            Ends .wfi s s 6 (.wait .wfi) ∧
            (∀ p n, Ends (.waitb p n) s s 4 (.wait (.batch n s.pc))) ∧
            (∀ p d a, barScopeOk (s.x a) s.th.placeCore = true →
              Ends (.bar p d a) s ((s.capture (.reg (.x d))).postCommit (.arrive (s.x a) d)) 7 (.wait (.barrier d))) ∧
            (∀ p d a, barScopeOk (s.x a) s.th.placeCore = false → Traps (.bar p d a) s 30 (s.x a))) ∧
      (
          ∀ (s : State), Calm s →
            (∀ p, exec (.yield p) s = .next ((completed s (s.pc + 4) (.retry .paused)).modTh fun th => { th with nextIssue := s.cycle + 16 })) ∧
            (∀ p a, exec (.pause p a) s = .next ((completed s (s.pc + 4) (.retry .paused)).modTh fun th =>
              { th with nextIssue := s.cycle + Nat.max (bits (s.x a) 15 0) 4 })))) ∧
  (
      ∀ (s : State) (code : Nat), s.th.chunk.count ≠ 0 → (s.coreOf s.th.core).halted = false →
        parityFlips s s.th.core s.th.chunk = [] →
        let t := s.cutChunk s.cur code
        (∃ c, t.th.older = some c ∧ c.state = .requested ∧ c.reason = code ∧ c.count = s.th.chunk.count ∧
          c.writes = s.th.chunk.writes ∧ c.post = s.th.chunk.post) ∧
        t.th.cutwhy = cutwhyWord s.th.chunk.count s.th.chunk.token code ∧ t.th.chunk.count = 0 ∧
        t.th.chunk.start = s.th.regs ∧ t.th.regs = s.th.regs ∧ t.requests.length = s.requests.length + 1 ∧
        (∀ u, t.requests.contains u = (u == s.cur || s.requests.contains u)) ∧
        ((∀ u ∈ s.requests, u ≠ s.cur ∧ (((s.thr u).older.map (·.reqAt)).getD 0) < s.cycle) → t.requests = s.requests ++ [s.cur]) ∧
        t.mem = s.mem ∧ t.cores = s.cores ∧ ∀ u, u ≠ s.cur → t.thr u = s.thr u)

/-- LOOP with a count of zero clears the level and skips the body; otherwise it takes one from the count, sets the
level's start to the next address and its count register, and goes on (05_scalar R82). -/
def Obligations.LoopInstruction : Prop :=
  ∀ (s : State) (p : Bool) (l : BitVec 1) (a : Reg) (len : BitVec 11), Calm s → 1 ≤ len.toNat →
    (s.x a = 0 → DoesTo (.loop p l a len) s (s.loopClear l.toNat) (s.pc + BitVec.ofNat 64 (4 * (len.toNat + 1)))) ∧
    (s.x a ≠ 0 → ∃ t, exec (.loop p l a len) s = .next t ∧ t.pc = s.pc + 4 ∧ t.x a = s.x a - 1 ∧
      (∀ r, r ≠ a → t.x r = s.x r) ∧ t.mem = s.mem ∧
      (l = 0 → (loopLevel t.th.regs.csr 0).1 = true ∧ t.th.regs.csr.loopS0 = BitVec.ofNat 64 (bits (s.pc + 4) 55 2 * 4) ∧
        bits t.th.regs.csr.loopC0 16 6 = len.toNat ∧ bits t.th.regs.csr.loopC0 5 1 = a.toNat ∧
        t.th.regs.csr.loopC1 = s.th.regs.csr.loopC1) ∧
      (l = 1 → (loopLevel t.th.regs.csr 1).1 = true ∧ t.th.regs.csr.loopS1 = BitVec.ofNat 64 (bits (s.pc + 4) 55 2 * 4) ∧
        bits t.th.regs.csr.loopC1 16 6 = len.toNat ∧ bits t.th.regs.csr.loopC1 5 1 = a.toNat ∧
        t.th.regs.csr.loopC0 = s.th.regs.csr.loopC0))

/-- LCLR clears its level; the loop rule goes back to the first instruction while the count register of the innermost
level that ends here is not zero, taking one from it, and clears the level when it is zero, after which an outer level
that ends at the same instruction is tested; a jump clears each active level whose body it leaves, level 1 like level
0 (05_scalar R83, R84). -/
def Obligations.LoopRule : Prop :=
  (∀ (s : State) (p : Bool) (l : BitVec 1), Calm s → Does (.lclr p l) s (s.loopClear l.toNat)) ∧
  (∀ (s : State) (q first last : Word) (r : Reg), loopLevel s.th.regs.csr 1 = (true, first, last, r) → q = last →
    s.x r ≠ 0 → loopRule s q .seq = (s.setX r (s.x r - 1), first)) ∧
  (∀ (s : State) (q first last : Word) (r : Reg), loopLevel s.th.regs.csr 1 = (true, first, last, r) → q = last →
    s.x r = 0 → (loopLevel s.th.regs.csr 0).1 = false → loopRule s q .seq = (s.loopClear 1, q + 4)) ∧
  (∀ (s : State) (q first last : Word) (r : Reg), (loopLevel s.th.regs.csr 1).1 = false →
    loopLevel s.th.regs.csr 0 = (true, first, last, r) → q = last → s.x r ≠ 0 →
      loopRule s q .seq = (s.setX r (s.x r - 1), first)) ∧
  (∀ (s : State) (q n first last : Word) (r : Reg), (loopLevel s.th.regs.csr 1).1 = false →
    loopLevel s.th.regs.csr 0 = (true, first, last, r) → (n < first ∨ last < n) → loopRule s q (.jump n) = (s.loopClear 0, n)) ∧
  (∀ (s : State) (q n first last : Word) (r : Reg), (loopLevel s.th.regs.csr 1).1 = false →
    loopLevel s.th.regs.csr 0 = (true, first, last, r) → first ≤ n → n ≤ last → loopRule s q (.jump n) = (s, n)) ∧
  (∀ (s : State) (q first last : Word) (r : Reg), (loopLevel s.th.regs.csr 1).1 = false →
    loopLevel s.th.regs.csr 0 = (true, first, last, r) → q = last → s.x r = 0 → loopRule s q .seq = (s.loopClear 0, q + 4)) ∧
  (∀ (s : State) (q f1 e1 f0 e0 : Word) (r1 r0 : Reg), loopLevel s.th.regs.csr 1 = (true, f1, e1, r1) → q = e1 → s.x r1 = 0 →
    loopLevel s.th.regs.csr 0 = (true, f0, e0, r0) → q = e0 →
      (s.x r0 ≠ 0 → loopRule s q .seq = ((s.loopClear 1).setX r0 (s.x r0 - 1), f0)) ∧
      (s.x r0 = 0 → loopRule s q .seq = ((s.loopClear 1).loopClear 0, q + 4))) ∧
  (∀ (s : State) (q : Word), (∀ l, l < 2 → (loopLevel s.th.regs.csr l).1 = true → q ≠ (loopLevel s.th.regs.csr l).2.2.1) →
    loopRule s q .seq = (s, q + 4)) ∧
  (∀ (s : State) (q n : Word),
    let out := fun (l : Nat) =>
      let k := loopLevel s.th.regs.csr l
      k.1 = true ∧ (n < k.2.1 ∨ k.2.2.1 < n)
    (out 1 → out 0 → loopRule s q (.jump n) = ((s.loopClear 1).loopClear 0, n)) ∧
    (out 1 → ¬ out 0 → loopRule s q (.jump n) = (s.loopClear 1, n)) ∧
    (¬ out 1 → out 0 → loopRule s q (.jump n) = (s.loopClear 0, n)) ∧
    (¬ out 1 → ¬ out 0 → loopRule s q (.jump n) = (s, n)))

/-! ## Pairs, contexts and pointers -/

/-- AEQW of a bound thread appends its word to the queue that its slot writes; AEQR takes the oldest of the queue that
its slot reads; a thread that is in no pair raises the illegal-instruction trap, whatever else holds (01_machine R30,
05_scalar R85). -/
def Obligations.AccessExecuteQueues : Prop :=
  (∀ (s : State) (p : Bool) (a : Reg) (u : Nat), Calm s → s.inEvent = false → s.partner s.cur = some u →
    (s.th.slot < 8 → s.pairOf.rq.length < 4 →
      Does (.aeqw p a) s (s.setPair { s.pairOf with rq := s.pairOf.rq ++ [(s.x a, s.th.chunk.uid)] })) ∧
    (8 ≤ s.th.slot → s.pairOf.fq.length < 16 →
      Does (.aeqw p a) s (s.setPair { s.pairOf with fq := s.pairOf.fq ++ [(s.x a, s.th.chunk.uid)] }))) ∧
  (∀ (s : State) (p : Bool) (d : Reg) (u n : Nat) (w : Word) (q : List (Word × Nat)), Calm s → s.inEvent = false →
    s.partner s.cur = some u →
    (s.th.slot < 8 → s.pairOf.fq = (w, n) :: q →
      Does (.aeqr p d) s (((s.setPair { s.pairOf with fq := q }).setX d w).modChunk fun c => { c with aeTaken := c.aeTaken ++ [(w, n)] })) ∧
    (8 ≤ s.th.slot → s.pairOf.rq = (w, 0) :: q →
      Does (.aeqr p d) s (((s.setPair { s.pairOf with rq := q }).setX d w).modChunk fun c => { c with aeTaken := c.aeTaken ++ [(w, 0)] }))) ∧
  (∀ (s : State) (p : Bool) (a d : Reg), s.live = true → s.partner s.cur = none →
    Traps (.aeqw p a) s 2 ((encode (.aeqw p a)).setWidth 64) ∧ Traps (.aeqr p d) s 2 ((encode (.aeqr p d)).setWidth 64))

/-- In S mode CTXSAVE of an empty slot and CTXLOAD of a valid area note the save or the start for the chunk's commit,
and CTXSAVE of an occupied slot asks its thread to leave first and then notes its save, or that of an empty slot where
the thread is gone by then; CTXLOAD into a slot that is not free is an illegal instruction (a slot whose CTXSAVE has
not committed is not yet free, log 124); TLBINV notes the removal, SFENCE.VMA removes the matching translations for
the issuing core, and ZLINE appends the relaxed store of a line of zeros; in U mode each is an illegal instruction
(05_scalar R86 to R89, R103). The hardware state that an area holds at 0x3D00 is the model's choice, log 34. -/
def Obligations.SupervisorInstructions : Prop :=
  (∀ (s : State) (p : Bool) (a b : Reg), Ready s → s.th.regs.smode = false →
    Traps (.ctxsave p a b) s 2 ((encode (.ctxsave p a b)).setWidth 64) ∧
    Traps (.ctxload p a b) s 2 ((encode (.ctxload p a b)).setWidth 64) ∧
    Traps (.tlbinv p a b) s 2 ((encode (.tlbinv p a b)).setWidth 64) ∧
    Traps (.zline p a) s 2 ((encode (.zline p a)).setWidth 64) ∧
    Traps (.sfenceVma a b) s 2 ((encode (.sfenceVma a b)).setWidth 64)) ∧
  (∀ (s : State) (p : Bool) (a b : Reg), Calm s → s.th.regs.smode = true →
    (∀ k t bs, s.x b = BitVec.ofNat 64 k → k < 16 → k ≠ s.th.slot → s.inSlot s.th.core k = none → s.th.status = .ready →
      areaBlocks s .store (s.x a) 1 = .ok (t, bs) →
      Does (.ctxsave p a b) s (t.modChunk fun c => { c with ctx := c.ctx ++ [.save bs none none] })) ∧
    (∀ k t v bs, s.x b = BitVec.ofNat 64 k → k < 16 → k ≠ s.th.slot → s.inSlot s.th.core k = some v → s.partner v = none →
      areaBlocks s .store (s.x a) 1 = .ok (t, bs) →
      exec (.ctxsave p a b) s = .next ((askPreempt t v).stall (.ctx v))) ∧
    (∀ k t v bs, s.x b = BitVec.ofNat 64 k → k < 16 → k ≠ s.th.slot → s.inSlot s.th.core k = none →
      s.th.status = .retry (.ctx v) → (s.thr v).isOut = true → s.outPartner v = none →
      areaBlocks s .store (s.x a) 1 = .ok (t, bs) →
      Does (.ctxsave p a b) s (t.modChunk fun c => { c with ctx := c.ctx ++ [.save bs (some v) none] })) ∧
    (∀ k t v bs, s.x b = BitVec.ofNat 64 k → k < 16 → k ≠ s.th.slot → s.inSlot s.th.core k = none →
      s.th.status = .retry (.ctx v) → (s.thr v).isOut = false → areaBlocks s .store (s.x a) 1 = .ok (t, bs) →
      Does (.ctxsave p a b) s (t.modChunk fun c => { c with ctx := c.ctx ++ [.save bs none none] })) ∧
    (∀ k, s.x b = BitVec.ofNat 64 k → k < 16 → ((s.inSlot s.th.core k).isSome = true ∨ s.slotKept s.th.core k = true) →
      Traps (.ctxload p a b) s 2 ((encode (.ctxload p a b)).setWidth 64)) ∧
    (∀ k t bs, s.x b = BitVec.ofNat 64 k → k < 16 → s.inSlot s.th.core k = none → s.slotKept s.th.core k = false →
      areaBlocks s .load (s.x a) 1 = .ok (t, bs) →
      let h : Word := BitVec.ofNat 64 (leNat (t.viewBlock bs 0))
      h.getLsbD 0 = true → (h.getLsbD 1 = true → k < 8) → h.getLsbD 3 = false →
      leNat (t.viewBlock bs 61) ≠ 0 →
        Does (.ctxload p a b) s (t.modChunk fun c => { c with ctx := c.ctx ++ [.load bs s.th.core k] })) ∧
    Does (.tlbinv p a b) s (s.modChunk fun c => { c with
      tlbinv := c.tlbinv ++ [(if a = 0 then none else some (s.x a), if b = 0 then none else some (s.x b))] }) ∧
    (let va := if a = 0 then none else some (s.x a)
     let id := if b = 0 then none else some (s.x b)
     Does (.sfenceVma a b) s ((s.fenceTlb s.th.core va id).modChunk fun c => { c with sfenced := true }) ∧
     (∀ e ∈ ((s.fenceTlb s.th.core va id).coreOf s.th.core).tlb, tlbHit va id e = false) ∧
     ∀ e ∈ (s.fenceTlb s.th.core va id).clusterTlb s.th.core, tlbHit va id e = true → e.barred.contains s.th.core = true) ∧
    (∀ t pa va, s.inEvent = false → checkVa s .store (s.x a) 64 = .ok (t, pa, va) →
      Does (.zline p a) s (t.postCommit (.relaxed pa (List.replicate 64 0) true))))

/-- PTRFMT forms the pointer of a format code f, an exponent code e and an address, and raises FATPTR with it where f
and e are no valid pair; PTRINFO answers whether a pointer is valid, its element width and its top byte; PTRCLR clears
the top byte. They write x[d] at issue and never touch memory (05_scalar R90). -/
def Obligations.PointerInstructions : Prop :=
  ∀ (s : State) (p : Bool) (d a b : Reg), Calm s →
    let f := bits (s.x b) 3 0
    let e := bits (s.x b) 7 4
    let y : Word := BitVec.ofNat 64 (f * 2 ^ 60 + e * 2 ^ 56 + bits (s.x a) 55 0)
    let bad := 13 ≤ f ∨ ((f = 10 ∨ f = 11) ∧ (e < 3 ∨ 7 < e)) ∨ (¬ (f = 10 ∨ f = 11) ∧ e ≠ 0)
    let k := bits (s.x a) 63 60
    let g := bits (s.x a) 59 56
    let good := ¬ (13 ≤ k ∨ ((k = 10 ∨ k = 11) ∧ (g < 3 ∨ 7 < g)) ∨ (¬ (k = 10 ∨ k = 11) ∧ g ≠ 0))
    let ebits := if k ≤ 1 ∨ k = 8 ∨ k = 9 then 8 else if k = 2 ∨ k = 5 ∨ k = 6 then 16 else if k = 3 ∨ k = 7 then 32
      else if k = 4 then 64 else if k = 10 ∨ k = 11 then 4 else if k = 12 then 128 else 0
    (bad → Traps (.ptrfmt p d a b) s 29 y) ∧ (¬ bad → Does (.ptrfmt p d a b) s (s.setX d y)) ∧
    (good → Does (.ptrinfo p d a) s (s.setX d (BitVec.ofNat 64 (65536 + ebits * 256 + bits (s.x a) 63 56)))) ∧
    (¬ good → Does (.ptrinfo p d a) s (s.setX d (BitVec.ofNat 64 (ebits * 256 + bits (s.x a) 63 56)))) ∧
    Does (.ptrclr p d a) s (s.setX d (BitVec.ofNat 64 (bits (s.x a) 55 0))) ∧
    (∀ w, (s.setX d w).mem = s.mem ∧ (s.setX d w).cores = s.cores ∧ (∀ r, r ≠ d → (s.setX d w).x r = s.x r) ∧
      (s.setX d w).x d = (if d = 0 then 0 else w))

/-! ## Local memory, reductions, reservations and relaxed access -/

/-- LDL gives x[d] the sign-extended bytes of its local place as a local-memory result; STL writes the low bytes of
x[b] there; a local address that names no such place raises LOCALADDR with it, as does STL to CB or ST and an access
to a CB block outside the window (05_scalar R91, R92, R106). -/
def Obligations.LocalMemory : Prop :=
  (∀ (s t : State) (p : Bool) (d a : Reg) (mode size : BitVec 2) (off : BitVec 7) (pl : LocalPlace) (n : Nat) (la : Word)
      (bs : List Byte), Calm s → ldlPlace s (s.x a) mode size off false = .ok (pl, n, la) → localRead s pl la.toNat n = .ok (t, bs) →
    Does (.ldl p d a mode size off) s (t.setLong .local (.x d (signExt (8 * n) (leNat bs))) none)) ∧
  (∀ (s t : State) (p : Bool) (a b : Reg) (mode size : BitVec 2) (off : BitVec 7) (pl : LocalPlace) (n : Nat) (la : Word),
      Calm s → ldlPlace s (s.x a) mode size off true = .ok (pl, n, la) → localWrite s pl la (leBytes n (s.x b).toNat) = .ok t →
    Does (.stl p a b mode size off) s t) ∧
  (∀ (s : State) (sp o n mode : Nat) (st : Bool), o < 2 ^ 60 →
    sp = 0 ∨ 6 ≤ sp ∨ (mode ≠ 0 ∧ sp ≠ 4) ∨ o % n ≠ 0 ∨ (sp = 1 ∧ 524288 < o + n) ∨ (sp = 2 ∧ 262144 < o + n) ∨
      (sp = 3 ∧ 262144 < o + n) ∨ (sp = 5 ∧ 4096 < o + n) ∨ (st = true ∧ (sp = 3 ∨ sp = 5)) ∨
      (sp = 3 ∧ windowHas s.th.regs.csr.cbwin o = false) ∨ (sp = 4 ∧ s.launch.csp = 0) →
    localPlace s sp o n mode st = .error (.trap 52 (BitVec.ofNat 64 (sp * 2 ^ 60 + o)))) ∧
  (∀ (s : State) (o n : Nat), n ≠ 0 → o % n = 0 →
    (o + n ≤ 524288 → localPlace s 1 o n 0 true = .ok (.buf .wb o)) ∧
    (o + n ≤ 262144 → localPlace s 2 o n 0 true = .ok (.buf .ab o)) ∧
    (o + n ≤ 262144 → windowHas s.th.regs.csr.cbwin o = true → localPlace s 3 o n 0 false = .ok (.buf .cb o)) ∧
    (o + n ≤ 4096 → localPlace s 5 o n 0 false = .ok (.buf .st o)))

/-- A reduction checks its address as a store and appends its operation, its physical address, its size and its
operand to the post-commit list; RED.FADD.S in a deterministic launch raises DETFP instead; RED.FXA converts its
operand at execution and its conditions go to NFLAGS (05_scalar R94, 09_ordering R156, 11_numbers R169). A reduction's
value is the sum, the signed minimum or maximum, or the bitwise combination of the old word and the operand, of the
reduction's width (05_scalar R94). -/
def Obligations.Reductions : Prop :=
  (
      ∀ (s t : State) (p : Bool) (a b : Reg) (pa va : Nat), Calm s → s.inEvent = false →
        (checkVa s .store (s.x a) 4 = .ok (t, pa, va) →
          Does (.redAddW p a b) s (t.postCommit (.reduce .add pa 4 (opW b t))) ∧
          Does (.redMinW p a b) s (t.postCommit (.reduce .min pa 4 (opW b t))) ∧
          Does (.redMaxW p a b) s (t.postCommit (.reduce .max pa 4 (opW b t))) ∧
          (t.launch.det = false → Does (.redFaddS p a b) s (t.postCommit (.reduce .fadd pa 4 (opW b t)))) ∧
          (t.launch.det = true → Traps (.redFaddS p a b) s 26 (BitVec.ofNat 64 va))) ∧
        (checkVa s .store (s.x a) 8 = .ok (t, pa, va) →
          Does (.redAddD p a b) s (t.postCommit (.reduce .add pa 8 (opD b t))) ∧
          Does (.redMinD p a b) s (t.postCommit (.reduce .min pa 8 (opD b t))) ∧
          Does (.redMaxD p a b) s (t.postCommit (.reduce .max pa 8 (opD b t))) ∧
          Does (.redAndD p a b) s (t.postCommit (.reduce .and pa 8 (opD b t))) ∧
          Does (.redOrD p a b) s (t.postCommit (.reduce .or pa 8 (opD b t))) ∧
          Does (.redXorD p a b) s (t.postCommit (.reduce .xor pa 8 (opD b t)))) ∧
        (checkVa s .store (s.x a) 16 = .ok (t, pa, va) →
          let r := fxaOf (fp32.num (bits (t.x b) 31 0))
          Does (.redFxa p a b) s ((t.orFlags r.2).postCommit (.reduce .fxa pa 16 r.1)))) ∧
  (
      ∀ (old : Nat) (t : BitVec 128),
        (∀ n, reduceValue .add n old t = ((old + t.toNat % 2 ^ (8 * n)) % 2 ^ (8 * n), 0)) ∧
        (∀ n, reduceValue .and n old t = (old &&& t.toNat % 2 ^ (8 * n), 0)) ∧
        (∀ n, reduceValue .or n old t = (old ||| t.toNat % 2 ^ (8 * n), 0)) ∧
        (∀ n, reduceValue .xor n old t = (old ^^^ t.toNat % 2 ^ (8 * n), 0)) ∧
        (∀ n, n ≤ 16 → old < 2 ^ (8 * n) → (BitVec.ofNat (8 * n) (reduceValue .min n old t).1).toInt =
          min (BitVec.ofNat (8 * n) old).toInt (t.setWidth (8 * n)).toInt) ∧
        (∀ n, n ≤ 16 → old < 2 ^ (8 * n) → (BitVec.ofNat (8 * n) (reduceValue .max n old t).1).toInt =
          max (BitVec.ofNat (8 * n) old).toInt (t.setWidth (8 * n)).toInt))

/-- LRW captures its register, asks for the reservation after commit, ends its chunk with code 5 and waits; SCH stores
to the word that the thread holds and hands it over after commit; LRWQ reads the state of the word's queue; LRW of a
held word and SCH of one that is not held raise QUEUEBAD (05_scalar R96 to R99). LRWQ's access size is deduced, log
133; that a word is known by its address alone, whatever the sizes of LRW and SCH, is the model's choice, log 151. -/
def Obligations.QueuedReservations : Prop :=
  (∀ (s t : State) (p : Bool) (d a : Reg) (pa va : Nat), Calm s → s.inEvent = false →
    let held := t.holds t.cur pa || t.awaits t.cur pa || decide (4 ≤ (t.heldWords t.cur).length)
    (checkVa s .store (s.x a) 4 = .ok (t, pa, va) → t.placeOf pa = .own →
      (held = false → Ends (.lrwW p d a) s ((t.capture (.reg (.x d))).postCommit (.lrwRequest pa 4 d)) 5
        (.wait (.reservation pa 4 d t.pc (BitVec.ofNat 64 va)))) ∧
      (held = true → Traps (.lrwW p d a) s 55 (BitVec.ofNat 64 va))) ∧
    (checkVa s .store (s.x a) 8 = .ok (t, pa, va) → t.placeOf pa = .own →
      (held = false → Ends (.lrwD p d a) s ((t.capture (.reg (.x d))).postCommit (.lrwRequest pa 8 d)) 5
        (.wait (.reservation pa 8 d t.pc (BitVec.ofNat 64 va)))) ∧
      (held = true → Traps (.lrwD p d a) s 55 (BitVec.ofNat 64 va)))) ∧
  (∀ (s t u : State) (p : Bool) (a b : Reg) (pa va : Nat), Ready s → s.inEvent = false →
    (checkVa s .store (s.x a) 4 = .ok (t, pa, va) →
      (t.holds t.cur pa = false → Traps (.schW p a b) s 55 (BitVec.ofNat 64 va)) ∧
      (t.holds t.cur pa = true → writePlain t pa va (leBytes 4 (t.x b).toNat) = .ok u →
        Stores (.schW p a b) s (u.postCommit (.handover pa)))) ∧
    (checkVa s .store (s.x a) 8 = .ok (t, pa, va) →
      (t.holds t.cur pa = false → Traps (.schD p a b) s 55 (BitVec.ofNat 64 va)) ∧
      (t.holds t.cur pa = true → writePlain t pa va (leBytes 8 (t.x b).toNat) = .ok u →
        Stores (.schD p a b) s (u.postCommit (.handover pa))))) ∧
  (∀ (s t : State) (p : Bool) (d a : Reg) (pa va : Nat), Calm s → checkVa s .load (s.x a) 4 = .ok (t, pa, va) →
    t.placeOf pa = .own → t.poison.contains (pa / 64) = false →
      Does (.lrwq p d a) s (t.setLong .far (.x d (lrwqWord t t.cur pa)) none))

/-- STX and STX.REL append their relaxed store, STX.REL with its scope; LDA reads the bytes at their home under the
thread's own writes as a far result, those of a peer device by a far request, and LDA.D in the device alias the
register, whose read it performs at issue with the read's effects (log 47); a malformed scope raises SCOPEBAD
(05_scalar R100 to R102, 09_ordering R144, R150, 25_system R349). -/
def Obligations.RelaxedAccess : Prop :=
  (∀ (s t : State) (p : Bool) (a b d : Reg) (pa va : Nat), Calm s → s.inEvent = false →
    (checkVaBy s false .store (s.x a) 4 = .ok (t, pa, va) →
      Does (.stxW p a b) s (t.postCommit (.relaxed pa (leBytes 4 (t.x b).toNat) false)) ∧
      ((scopeOf (s.x d)).isSome = true →
        Does (.stxRelW p a b d) s (t.postCommit (.storeRel (t.x d) pa (leBytes 4 (t.x b).toNat))))) ∧
    (checkVaBy s true .store (s.x a) 8 = .ok (t, pa, va) →
      Does (.stxD p a b) s (t.postCommit (.relaxed pa (leBytes 8 (t.x b).toNat) false)) ∧
      ((scopeOf (s.x d)).isSome = true →
        Does (.stxRelD p a b d) s (t.postCommit (.storeRel (t.x d) pa (leBytes 8 (t.x b).toNat))))) ∧
    (scopeOf (s.x d) = none → Traps (.stxRelW p a b d) s 30 (s.x d) ∧ Traps (.stxRelD p a b d) s 30 (s.x d))) ∧
  (∀ (s t : State) (p : Bool) (d a b : Reg) (pa va : Nat), Calm s →
    (scopeOf (s.x b) = none → Traps (.ldaW p d a b) s 30 (s.x b) ∧ Traps (.ldaD p d a b) s 30 (s.x b)) ∧
    ((scopeOf (s.x b)).isSome = true → checkVa s .load (s.x a) 4 = .ok (t, pa, va) → t.ldaWait = none →
      t.poisonedFor pa = false → t.invalWaits t.th.core pa = false → t.homeTainted pa = false →
        let v := RegVal.x d (signExt 32 (leNat (t.homeView pa 4)))
        let own := (List.range 4).all fun i => (t.ownByte t.cur (pa + i)).isSome
        (t.isFar pa = false ∨ own = true → Does (.ldaW p d a b) s ((t.enterRead pa 4 va).setLong .far v none)) ∧
        (t.isFar pa = true → own = false → t.farCount t.cur < 1024 →
          let mine := (List.range 4).filterMap fun i => (t.ownByte t.cur (pa + i)).map fun b => (i, b)
          let q := (t.enterRead pa 4 va).askFar (.lda 4 d mine) pa
          Does (.ldaW p d a b) s (q.1.setLong .far v (some q.2)))) ∧
    ((scopeOf (s.x b)).isSome = true → checkVaBy s true .load (s.x a) 8 = .ok (t, pa, va) → t.inAlias pa = true → t.ldaWait = none →
      t.invalWaits t.th.core pa = false → bar0Waits t (t.aliasOff pa) .load = false → (List.range 8).mapM (fun i => t.ownByte t.cur (pa + i)) = none →
        let q := bar0Read t (t.aliasOff pa)
        Does (.ldaD p d a b) s ((q.1.enterRead pa 8 va).setLong .far (.x d q.2) none)) ∧
    ((scopeOf (s.x b)).isSome = true → checkVaBy s true .load (s.x a) 8 = .ok (t, pa, va) → t.inAlias pa = false →
      checkVa s .load (s.x a) 8 = .ok (t, pa, va) → t.ldaWait = none →
      t.poisonedFor pa = false → t.invalWaits t.th.core pa = false → t.homeTainted pa = false →
        let v := RegVal.x d (signExt 64 (leNat (t.homeView pa 8)))
        let own := (List.range 8).all fun i => (t.ownByte t.cur (pa + i)).isSome
        (t.isFar pa = false ∨ own = true → Does (.ldaD p d a b) s ((t.enterRead pa 8 va).setLong .far v none)) ∧
        (t.isFar pa = true → own = false → t.farCount t.cur < 1024 →
          let mine := (List.range 8).filterMap fun i => (t.ownByte t.cur (pa + i)).map fun b => (i, b)
          let q := (t.enterRead pa 8 va).askFar (.lda 8 d mine) pa
          Does (.ldaD p d a b) s (q.1.setLong .far v (some q.2)))))

/-! ## Vectors -/

/-- The arithmetic functions and the four functions of R177 give each active element of v[d] the result of its
operands' elements, leave the others, OR the conditions of the active ones into NFLAGS, and trap VTYPEBAD on a format
they do not accept (13_vector_tile R180 to R186). The digits of VEXP2 and VLOG2 come from series, log 15. -/
def Obligations.VectorArithmetic : Prop :=
  ∀ (s : State) (p : Bool) (g : BitVec 3) (d a b : Reg), Calm s →
    let t := vtypeOf s.th.regs.csr.vtype
    let ar := fun (op : VOp) (y : Reg) => elementwise s g d fun i => arithElem t op (s.elem t a i) (s.elem t y i) (s.elem t d i)
    let fn := fun (f : Fn) => elementwise s g d fun i =>
      ((fmtFloat t.fmt).getD fp32).fn f t.rm t.sat (((fmtFloat t.fmt).getD fp32).num (s.elem t a i))
    (1 ≤ t.fmt → t.fmt ≤ 9 →
      Does (.vadd p g d a b) s (ar .add b) ∧ Does (.vsub p g d a b) s (ar .sub b) ∧ Does (.vmul p g d a b) s (ar .mul b) ∧
      Does (.vfma p g d a b) s (ar .fma b) ∧ Does (.vfms p g d a b) s (ar .fms b) ∧ Does (.vmin p g d a b) s (ar .min b) ∧
      Does (.vmax p g d a b) s (ar .max b) ∧ Does (.vabs p g d a) s (ar .abs a) ∧ Does (.vneg p g d a) s (ar .neg a)) ∧
    (5 ≤ t.fmt → t.fmt ≤ 7 →
      Does (.vrcp p g d a) s (fn .rcp) ∧ Does (.vrsqrt p g d a) s (fn .rsqrt) ∧ Does (.vexp2 p g d a) s (fn .exp2) ∧
      Does (.vlog2 p g d a) s (fn .log2)) ∧
    (t.fmt = 0 ∨ 9 < t.fmt → ∀ i ∈ [Instr.vadd p g d a b, .vsub p g d a b, .vmul p g d a b, .vfma p g d a b, .vfms p g d a b,
      .vmin p g d a b, .vmax p g d a b, .vabs p g d a, .vneg p g d a], Traps i s 53 (s.th.regs.csr.vtype.setWidth 64)) ∧
    (t.fmt < 5 ∨ 7 < t.fmt → ∀ i ∈ [Instr.vrcp p g d a, .vrsqrt p g d a, .vexp2 p g d a, .vlog2 p g d a],
      Traps i s 53 (s.th.regs.csr.vtype.setWidth 64))

/-- The bitwise functions, the shifts and the movements accept every element format and raise no condition; a shift of
the element's width or more gives 0, or the sign for VSHR; VINS writes one element, VPERM reads every source element
first, VSEL takes v[a] where the predicate holds and v[b] elsewhere; a format code beyond 9 raises VTYPEBAD
(13_vector_tile R180, R187, R189). VEXT gives x[d] one element, sign-extended for a signed integer format and 0 where
the element is inactive; a format code beyond 9 raises VTYPEBAD (13_vector_tile R180, R189). -/
def Obligations.VectorBitsAndMovement : Prop :=
  (
      ∀ (s : State) (p : Bool) (g : BitVec 3) (d a b : Reg), Calm s →
        let t := vtypeOf s.th.regs.csr.vtype
        let e := fmtBits t.fmt
        let ew := fun (f : Nat → Nat) => elementwise s g d fun i => (f i, 0)
        let x := s.elem t a
        let y := s.elem t b
        (9 < t.fmt → ∀ i ∈ [Instr.vand p g d a b, .vor p g d a b, .vxor p g d a b, .vshl p g d a b, .vshrl p g d a b, .vshr p g d a b,
          .vmov p g d a, .vbcast p g d a, .vins p g d a b, .vperm p g d a b, .vsel p g d a b],
          Traps i s 53 (s.th.regs.csr.vtype.setWidth 64)) ∧
        (t.fmt ≤ 9 →
          Does (.vand p g d a b) s (ew fun i => x i &&& y i) ∧ Does (.vor p g d a b) s (ew fun i => x i ||| y i) ∧
          Does (.vxor p g d a b) s (ew fun i => x i ^^^ y i) ∧
          Does (.vshl p g d a b) s (ew fun i => if y i < e then x i * 2 ^ y i % 2 ^ e else 0) ∧
          Does (.vshrl p g d a b) s (ew fun i => if y i < e then x i / 2 ^ y i else 0) ∧
          Does (.vshr p g d a b) s (ew fun i => ((BitVec.ofNat e (x i)).sshiftRight (Nat.min (y i) e)).toNat) ∧
          Does (.vmov p g d a) s (ew x) ∧ Does (.vbcast p g d a) s (ew fun _ => (s.x a).toNat % 2 ^ e) ∧
          Does (.vins p g d a b) s (ew fun i => if i = (s.x b).toNat % (512 / e) then (s.x a).toNat % 2 ^ e else s.elem t d i) ∧
          Does (.vperm p g d a b) s (ew fun i => x (y i % (512 / e))) ∧
          Does (.vsel p g d a b) s (s.enterVec .vector (some (.v d (vecOf e ((List.range (512 / e)).map fun i =>
            if activeAt (s.p g) e i then (elems e (s.v a)).getD i 0 else (elems e (s.v b)).getD i 0))))))) ∧
  (
      ∀ (s : State) (p : Bool) (g : BitVec 3) (d a b : Reg), Calm s →
        let t := vtypeOf s.th.regs.csr.vtype
        let e := fmtBits t.fmt
        let j := (s.x b).toNat % (512 / e)
        (9 < t.fmt → Traps (.vext p g d a b) s 53 (s.th.regs.csr.vtype.setWidth 64)) ∧
        (t.fmt ≤ 9 →
          (activeAt (s.p g) e j = false → Does (.vext p g d a b) s (s.enterVec .vector (some (.x d 0)))) ∧
          (activeAt (s.p g) e j = true → (fmtIsInt t.fmt && !t.uns) = true →
            Does (.vext p g d a b) s (s.enterVec .vector (some (.x d (signExt e (s.elem t a j)))))) ∧
          (activeAt (s.p g) e j = true → (fmtIsInt t.fmt && !t.uns) = false →
            Does (.vext p g d a b) s (s.enterVec .vector (some (.x d (BitVec.ofNat 64 (s.elem t a j))))))))

/-- A comparison gives each active element's bits of p[d] its outcome and every other bit 0; VCVT converts the
elements that source and destination share; a reduction leaves the result of the tree in element 0 and 0 in the
others; each raises VTYPEBAD on a format that it does not accept, VCVT also on its destination's, whose code stands
above VTYPE's (13_vector_tile R180, R188, R190, R191, 11_numbers R178). -/
def Obligations.VectorComparisonConversionReduction : Prop :=
  ∀ (s : State) (p : Bool) (g d : BitVec 3) (v a b : Reg) (fmt : BitVec 4) (u : Bool), Calm s →
    let t := vtypeOf s.th.regs.csr.vtype
    let e := fmtBits t.fmt
    let r := fun (c : VCmp) (i : Nat) =>
      if activeAt (s.p g) e i then cmpElem t c (s.elem t a i) (s.elem t b i) else (false, 0)
    let cmp := fun (c : VCmp) =>
      (s.orFlags (((List.range (512 / e)).map (r c)).foldl (fun f x => f ||| x.2) 0)).enterVec .vector (some (.p d (BitVec.ofNat 64
        ((List.range 64).foldl (fun w i => if (((List.range (512 / e)).map (r c)).getD (i / (e / 8)) (false, 0)).1 then w + 2 ^ i else w) 0))))
    let red := fun (op : VOp) =>
      let q := treeRun (fun x y => arithElem t op x y 0) 7 ((List.range (512 / e)).map fun i => (s.elem t a i, activeAt (s.p g) e i)) 0
      (s.orFlags q.2).enterVec .vector (some (.v v (BitVec.ofNat 512 (q.1.getD (emptyReduce t op)))))
    let vt : Word := s.th.regs.csr.vtype.setWidth 64
    (9 < t.fmt → Traps (.vcmpeq p g d a b) s 53 vt) ∧
    (t.fmt = 0 ∨ 9 < t.fmt → ∀ i ∈ [Instr.vcmplt p g d a b, .vcmple p g d a b, .vrsum p g v a, .vrmax p g v a, .vrmin p g v a,
      .vcvt p g v a fmt u], Traps i s 53 vt) ∧
    (1 ≤ t.fmt → t.fmt ≤ 9 → fmt.toNat = 0 ∨ 9 < fmt.toNat →
      Traps (.vcvt p g v a fmt u) s 53 (BitVec.ofNat 64 (s.th.regs.csr.vtype.toNat ||| ((b2n u * 16 + fmt.toNat) * 256)))) ∧
    (t.fmt ≤ 9 → Does (.vcmpeq p g d a b) s (cmp .eq)) ∧
    (1 ≤ t.fmt → t.fmt ≤ 9 →
      Does (.vcmplt p g d a b) s (cmp .lt) ∧ Does (.vcmple p g d a b) s (cmp .le) ∧
      Does (.vrsum p g v a) s (red .add) ∧ Does (.vrmax p g v a) s (red .max) ∧ Does (.vrmin p g v a) s (red .min) ∧
      (1 ≤ fmt.toNat → fmt.toNat ≤ 9 →
        let ed := fmtBits fmt.toNat
        let c := fun (i : Nat) =>
          if Nat.min (512 / e) (512 / ed) ≤ i then (0, (0 : BitVec 6))
          else if activeAt (s.p g) ed i then convertElem t.fmt fmt.toNat t.uns u t.sat t.rm (s.elem t a i)
          else (((s.v v).extractLsb' (ed * i) ed).toNat, 0)
        Does (.vcvt p g v a fmt u) s ((s.orFlags (((List.range (512 / ed)).map c).foldl (fun f x => f ||| x.2) 0)).enterVec .vector (some (.v v (vecOf ed (((List.range (512 / ed)).map c).map (·.1))))))))

/-- VSETT exchanges VTYPE with x[a]; the predicate functions write p[d] or x[d] as vector results (13_vector_tile
R192). -/
def Obligations.PredicatesAndType : Prop :=
  ∀ (s : State) (p : Bool) (x a : Reg) (d i j : BitVec 3), Calm s →
    Does (.vsett p x a) s ((s.setX x (s.th.regs.csr.vtype.setWidth 64)).setCsr 0x800 fun c => { c with vtype := (s.x a).setWidth 8 }) ∧
    Does (.pand p d i j) s (s.enterVec .vector (some (.p d (s.p i &&& s.p j)))) ∧
    Does (.por p d i j) s (s.enterVec .vector (some (.p d (s.p i ||| s.p j)))) ∧
    Does (.pnot p d i) s (s.enterVec .vector (some (.p d (~~~(s.p i))))) ∧
    Does (.pcnt p x i) s (s.enterVec .vector (some (.x x (BitVec.ofNat 64 (popOf 64 (s.p i).toNat))))) ∧
    Does (.pfirst p x i) s (s.enterVec .vector (some (.x x (BitVec.ofNat 64 (ctzOf 64 (s.p i).toNat))))) ∧
    Does (.pset p d a) s (s.enterVec .vector (some (.p d (s.x a))))

/-- A vector load gives the active elements of v[d] the bytes at their addresses and leaves the others; a vector store
writes the active elements in ascending order; the offset of element i is its place, i times the stride, or the index
element times the element's size; VLDL and VSTL move the active elements of one local granule; a format code beyond 9
raises VTYPEBAD (13_vector_tile R180, R193 to R195). That every active address is formed before any other check is
deduced, log 18. -/
def Obligations.VectorMemory : Prop :=
  (∀ (s : State) (p : Bool) (g : BitVec 3) (d a b : Reg), Calm s → 9 < (vtypeOf s.th.regs.csr.vtype).fmt →
    ∀ i ∈ [Instr.vld p g d a, .vlds p g d a b, .vgath p g d a b, .vst p g d a, .vsts p g d a b, .vscat p g d a b, .vldl p g d a,
      .vstl p g d a], Traps i s 53 (s.th.regs.csr.vtype.setWidth 64)) ∧
  (∀ (s t : State) (p : Bool) (g : BitVec 3) (d a b : Reg) (m : VMem) (addrs : List Nat) (bs : List (List Byte)), Calm s →
    let ty := vtypeOf s.th.regs.csr.vtype
    let e := fmtBits ty.fmt
    let is := activeList (s.p g) e
    let r := t.enterVec .vector (some (.v d (vecOf e (placeElems e (elems e (s.v d)) is bs))))
    ty.fmt ≤ 9 → ptrOk (s.x a) = true → elemAddrs (s.x a) (vmemOffset s ty m) is = .ok addrs →
    loadMany s (e / 8) false addrs = .ok (t, bs) →
      (m = .unit → Does (.vld p g d a) s r) ∧ (m = .stride b → Does (.vlds p g d a b) s r) ∧
      (m = .index b → Does (.vgath p g d a b) s r)) ∧
  (∀ (s t : State) (p : Bool) (g : BitVec 3) (d a b : Reg) (m : VMem) (addrs : List Nat), Ready s →
    let ty := vtypeOf s.th.regs.csr.vtype
    let e := fmtBits ty.fmt
    let is := activeList (s.p g) e
    ty.fmt ≤ 9 → ptrOk (s.x a) = true → elemAddrs (s.x a) (vmemOffset s ty m) is = .ok addrs →
    storeMany s (addrs.zip (is.map fun i => leBytes (e / 8) (s.elem ty d i))) = .ok t →
      (m = .unit → Stores (.vst p g d a) s (t.enterVec .vector none)) ∧
      (m = .stride b → Stores (.vsts p g d a b) s (t.enterVec .vector none)) ∧
      (m = .index b → Stores (.vscat p g d a b) s (t.enterVec .vector none))) ∧
  (∀ (s t : State) (p : Bool) (g : BitVec 3) (d a : Reg) (pl : LocalPlace) (bs : List (List Byte)), Ready s →
    let ty := vtypeOf s.th.regs.csr.vtype
    let e := fmtBits ty.fmt
    let is := activeList (s.p g) e
    ty.fmt ≤ 9 → vlocalPlace s (s.x a) = .ok pl →
      (readElems s pl (s.x a).toNat (e / 8) is = .ok (t, bs) →
        Stores (.vldl p g d a) s (t.enterVec .local (some (.v d (vecOf e (placeElems e (elems e (s.v d)) is bs)))))) ∧
      (writeElems s pl (s.x a) (is.map fun i => (i * (e / 8), leBytes (e / 8) (s.elem ty d i))) = .ok t →
        Stores (.vstl p g d a) s (t.enterVec .vector none)))

/-! ## Tiles -/

/-- A tile instruction in a slot without tile state raises the illegal-instruction trap (01_machine R21). -/
def Obligations.TileInstructionsNeedATileSlot : Prop :=
  ∀ (s : State) (p tr : Bool) (td ta tb tm g : BitVec 3) (ac : BitVec 2) (a : Reg), s.live = true → s.th.tile = false →
    (∀ i ∈ [Instr.tld p td a tr, .tst p td a tr, .tzero p td, .tmov p td ta, .ttrans p td ta, .acld p ac a, .acst p ac a,
        .acz p ac, .tcvt p td ac, .tgen p td g tr, .tfill p td a, .tmma p ac ta tb tr, .tmmas p ac ta tb tm tr,
        .tmmag p ac ta g tr, .gsetK p g a, .gsetSeed p g a, .gsetScope p g a tr, .gsetOrg p g a, .gsetPar p g a],
      Traps i s 2 ((encode i).setWidth 64)) ∧
    (∀ f im csr rd src, 0x810 ≤ csr.toNat → csr.toNat ≤ 0x81F →
      Traps (.csrInstruction f im csr rd src) s 2 ((encode (.csrInstruction f im csr rd src)).setWidth 64))

/-- The movements of tile registers give their destination, as a tile result: TLD the rows at its addresses with the
format that its pointer names, TST the rows of its source to memory, TZERO zeros, TFILL one value in every element of
the shape, TMOV its source within its shape, with its TSHAPE, TTRANS the transposed elements with the transposed
shape; a shape that is not usable raises TILESHAPE (13_vector_tile R198, R200, R201). That TMOV checks no shape is
deduced, log 39. -/
def Obligations.TileMovements : Prop :=
  (∀ (s : State) (p : Bool) (td ta : BitVec 3) (a : Reg), Calm s → s.th.tile = true →
    Does (.tzero p td) s (s.setLong .tile (.tl td ⟨0, 0⟩) none) ∧
    Does (.tmov p td ta) s ((s.setTshape td (s.tshape ta)).setLong .tile (.tl td ((s.tl ta).within (shapeFields (s.tshape ta)))) none) ∧
    (let h := shapeFields (s.tshape td)
     (h.ok = true → h.fmt ≠ 11 →
      Does (.tfill p td a) s (s.setLong .tile (.tl td ⟨tileFrom h fun _ _ => ((s.x a).signExtend 128).toNat, 0⟩) none)) ∧
     (h.ok = false → Traps (.tfill p td a) s 51 0)) ∧
    (let w := s.tshape ta
     let h := shapeFields w
     let w' := (w &&& 0xFFFF000F) ||| BitVec.ofNat 32 ((h.k - 1) * 16 + (h.rows * h.e / 8 - 1) * 256)
     (h.ok = true → h.q4 = false → h.k ≤ 16 → h.rows * h.e / 8 ≤ 64 →
      Does (.ttrans p td ta) s ((s.setTshape td w').setLong .tile
        (.tl td ⟨tileFrom (shapeFields w') fun j i => tileElem (s.tl ta).bytes h.e i j, 0⟩) none)) ∧
     (h.ok = false ∨ h.q4 = true ∨ 16 < h.k ∨ 64 < h.rows * h.e / 8 → Traps (.ttrans p td ta) s 51 0))) ∧
  (∀ (s t : State) (p pitched : Bool) (td : BitVec 3) (a : Reg) (rows : List (List Byte)), Ready s → s.th.tile = true →
    ptrOk (s.x a) = true →
    let f := bits (s.x a) 63 60
    let e := bits (s.x a) 59 56
    let w := s.tshape td
    let s1 := if f = 0 then s else s.setTshape td (tshapeFormat w f e)
    let h1 := shapeFields (s1.tshape td)
    let h := shapeFields w
    let other := f ≠ 0 ∧ (f ≠ (w.extractLsb' 0 4).toNat ∨ e ≠ (w.extractLsb' 28 4).toNat)
    (h1.ok = true → loadRows s1 h1 a pitched (List.range h1.rows) = .ok (t, rows) →
      let parts := rows.map (splitRow h1)
      Stores (.tld p td a pitched) s (t.setLong .tile (.tl td
        { bytes := rowsOf (parts.map fun q => leNat q.1), side := BitVec.ofNat 256 (leNat (parts.flatMap (·.2))) }) none)) ∧
    (other → Traps (.tst p td a pitched) s 51 0) ∧
    (¬ other → h.ok = true → storeRows s h a pitched (s.tl td) (List.range h.rows) = .ok t → Stores (.tst p td a pitched) s t))

/-- ACLD reads sixteen rows of 64 bytes of CB into an accumulator tile and ACST writes them; ACZ zeroes it; TCVT
converts the accumulator's elements to the format of its destination's shape; an address that is no accumulator window
raises LOCALADDR with it (13_vector_tile R202, R203). Which address ACCBUSY names is deduced, log 41. -/
def Obligations.AccumulatorTiles : Prop :=
  (∀ (s : State) (p : Bool) (ac : BitVec 2) (a : Reg), Calm s → s.th.tile = true →
    Does (.acz p ac) s (s.setLong .tile (.ta ac 0) none) ∧
    (bits (s.x a) 63 60 ≠ 3 ∨ bits (s.x a) 59 0 % 64 ≠ 0 ∨ 262144 ≤ bits (s.x a) 59 0 →
      Traps (.acld p ac a) s 52 (s.x a) ∧ Traps (.acst p ac a) s 52 (s.x a))) ∧
  (∀ (s t : State) (p : Bool) (ac : BitVec 2) (a : Reg) (o : Nat) (rows : List Nat), Ready s → s.th.tile = true →
    accWindow s (s.x a) = .ok o →
    ((List.range 16).foldlM (fun (st : State × List Nat) r => do
        let (s, b) ← bufRead st.1 .cb (o + r * 256) 64
        .ok (s, st.2 ++ [leNat b])) (s, []) = (Except.ok (t, rows) : Except Stop (State × List Nat)) →
      Stores (.acld p ac a) s (t.setLong .tile (.ta ac (rowsOf rows)) none)) ∧
    (windowBusy (s.coreOf s.th.placeCore) o = (none, false) →
      (List.range 16).foldlM (fun (u : State) r =>
        bufPut u .cb (o + r * 256) (leBytes 64 ((s.ta ac).extractLsb' (r * 512) 512).toNat)) s = (Except.ok t : Except Stop State) →
      Stores (.acst p ac a) s t) ∧
    (∀ b c, windowBusy (s.coreOf s.th.placeCore) o = (some b, c) →
      Traps (.acst p ac a) s 25 (BitVec.ofNat 64 (3 * 2 ^ 60 + b)))) ∧
  (∀ (s : State) (p : Bool) (td : BitVec 3) (ac : BitVec 2), Calm s → s.th.tile = true →
    let h := shapeFields (s.tshape td)
    let conv := fun (r c : Nat) =>
      match fmtFloat h.fmt with
      | some f => f.ofNum .rne true (fp32.num (tileElem (s.ta ac) 32 r c))
      | none => convFit h.e false true (intOf 32 false (tileElem (s.ta ac) 32 r c))
    let q := gather h.rows h.k fun r c => (conv r c).2
    h.ok = true → h.k ≤ 16 → (1 ≤ h.fmt ∧ h.fmt ≤ 3) ∨ (5 ≤ h.fmt ∧ h.fmt ≤ 9) →
      Does (.tcvt p td ac) s (((s.orFlags q.1).addTsat td q.2).setLong .tile (.tl td ⟨tileFrom h fun r c => (conv r c).1, 0⟩) none))

/-- The products add A B to the accumulator tile, element by element as the number chapter lays down, where the shapes
and formats agree, with their conditions to NFLAGS and their saturations to TSAT; TMMAS expands A by its metadata,
TMMAG takes B from a generator, whose conditions and saturations over the values used count too; with NTRAP a
product's new NaN traps and its result is there at once; TGEN fills a tile with a generator's values; a generator that
is not valid raises VTYPEBAD with its bits 255 to 192, shapes that do not agree raise TILESHAPE (11_numbers R176,
13_vector_tile R204 to R207, R209, R214). The generator tables come from series, log 15. -/
def Obligations.TileProductsAndGeneration : Prop :=
  (∀ (s : State) (p tr : Bool) (ac : BitVec 2) (ta tb tm : BitVec 3) (n : Nat), Calm s → s.th.tile = true →
    let ha := shapeFields (s.tshape ta)
    let hb := shapeFields (s.tshape tb)
    let out := fun (r : BitVec 8192 × BitVec 6 × Nat × Option (Nat × Nat)) =>
      ((s.orFlags r.2.1).addTsat (ac.setWidth 3) r.2.2.1).setLong .tile (.ta ac r.1) none
    let b := (tileOperand hb [] (s.tl tb)).turned tr
    let r := product (s.ta ac) (tileOperand ha [] (s.tl ta)) b ha.rows n ha.k
    ha.ok = true → hb.ok = true → ha.q4 = false → hb.q4 = false → fmtPairOk ha.fmt hb.fmt = true →
      (s.th.regs.csr.nctl = false → bDims hb tr ha.k = some n → Does (.tmma p ac ta tb tr) s (out r)) ∧
      (s.th.regs.csr.nctl = true → bDims hb tr ha.k = some n →
        (r.2.2.2 = none → Does (.tmma p ac ta tb tr) s
          ((((s.orFlags r.2.1).addTsat (ac.setWidth 3) r.2.2.1).markPending (.ta ac)).modRegs (·.put (.ta ac r.1)))) ∧
        ∀ i j, r.2.2.2 = some (i, j) → Traps (.tmma p ac ta tb tr) s 28 (BitVec.ofNat 64 (i * 256 + j))) ∧
      (bDims hb tr ha.k = none → Traps (.tmma p ac ta tb tr) s 51 0) ∧
      (s.th.regs.csr.nctl = false → 2 * ha.k % 4 = 0 → bDims hb tr (2 * ha.k) = some n →
        (∀ i, i < ha.rows → ∀ q, q < 2 * ha.k / 4 → (metaPair (s.tl tm).bytes i q).1 < (metaPair (s.tl tm).bytes i q).2) →
        Does (.tmmas p ac ta tb tm tr) s (out (product (s.ta ac) (expand (tileOperand ha [] (s.tl ta)) (metaPair (s.tl tm).bytes)) b
          ha.rows n (2 * ha.k))))) ∧
  (∀ (s u v : State) (p tr : Bool) (ac : BitVec 2) (ta tb : BitVec 3) (n : Nat) (sa sb : List Nat), Ready s → s.th.tile = true →
    let ha := shapeFields (s.tshape ta)
    let hb := shapeFields (s.tshape tb)
    ha.ok = true → hb.ok = true → fmtPairOk ha.fmt hb.fmt = true → bDims hb tr ha.k = some n →
    readScales s ha (s.tl ta) = .ok (u, sa) → readScales u hb (u.tl tb) = .ok (v, sb) → v.th.regs.csr.nctl = false →
      let r := product (v.ta ac) (tileOperand ha sa (v.tl ta)) ((tileOperand hb sb (v.tl tb)).turned tr) ha.rows n ha.k
      Stores (.tmma p ac ta tb tr) s (((v.orFlags r.2.1).addTsat (ac.setWidth 3) r.2.2.1).setLong .tile (.ta ac r.1) none)) ∧
  (∀ (s : State) (p tr : Bool) (td g ta : BitVec 3) (ac : BitVec 2), Calm s → s.th.tile = true →
    let gv := s.g g
    let val := fun (r c : Nat) => if tr then genValue gv s.th.regs.csr.launchkey (fun _ => 0) c r
      else genValue gv s.th.regs.csr.launchkey (fun _ => 0) r c
    (gValid gv = false → Traps (.tgen p td g tr) s 53 (gv.extractLsb' 192 64) ∧ Traps (.tmmag p ac ta g tr) s 53 (gv.extractLsb' 192 64)) ∧
    (gValid gv = true → gKind gv < 4 →
      let s1 := s.setTshape td (tshapeFormat (s.tshape td) (gOut gv) 0)
      let h := shapeFields (s1.tshape td)
      let q := gather h.rows h.k fun r c => (val r c).2
      h.ok = true → Does (.tgen p td g tr) s
        (((s1.orFlags q.1).addTsat td q.2).setLong .tile (.tl td ⟨tileFrom h fun r c => (val r c).1, 0⟩) none)) ∧
    (gValid gv = true → gKind gv < 4 → s.th.regs.csr.nctl = false →
      let ha := shapeFields (s.tshape ta)
      let out := gOut gv
      let b : MatOperand := { fmt := out, num := fun j k => ((fmtFloat out).getD fp32).num (val j k).1
                              int := fun j k => intOf 8 false (val j k).1 }
      let r := product (s.ta ac) (tileOperand ha [] (s.tl ta)) b ha.rows 16 ha.k
      let q := gather 16 ha.k fun j k => (val j k).2
      ha.ok = true → ha.q4 = false → fmtPairOk ha.fmt out = true →
        Does (.tmmag p ac ta g tr) s
          (((s.orFlags (r.2.1 ||| q.1)).addTsat (ac.setWidth 3) (r.2.2.1 + q.2)).setLong .tile (.ta ac r.1) none)) ∧
    (∀ ha, ha = shapeFields (s.tshape ta) → gValid gv = true → ha.ok = true → fmtPairOk ha.fmt (gOut gv) = false →
      Traps (.tmmag p ac ta g tr) s 51 0)) ∧
  (∀ (s u : State) (p tr : Bool) (td g : BitVec 3) (fs : List (Nat × Nat)), Ready s → s.th.tile = true → gValid (s.g g) = true →
    let gv := s.g g
    let s1 := s.setTshape td (tshapeFormat (s.tshape td) (gOut gv) 0)
    let h := shapeFields (s1.tshape td)
    let val := fun (r c : Nat) => if tr then genValue gv u.th.regs.csr.launchkey (ropeOf fs) c r
      else genValue gv u.th.regs.csr.launchkey (ropeOf fs) r c
    let q := gather h.rows h.k fun r c => (val r c).2
    h.ok = true → readRopes s1 gv (if tr then h.rows else h.k) = .ok (u, fs) →
      Stores (.tgen p td g tr) s
        (((u.orFlags q.1).addTsat td q.2).setLong .tile (.tl td ⟨tileFrom h fun r c => (val r c).1, 0⟩) none))

/-- The five GSET forms write their field group of g[d] from x[a] at issue, keep every other field, and raise no trap
of their own beyond the illegal instruction of a slot without tile state (13_vector_tile R211, R212). -/
def Obligations.GeneratorRegisters : Prop :=
  ∀ (s : State) (p loc : Bool) (gd : BitVec 3) (a : Reg), Calm s →
    let w := s.x a
    let g := s.g gd
    (s.th.tile = true →
      (∃ k, Does (.gsetK p gd a) s (s.setG gd k) ∧
        gFields k = (gSeed g, gScope g, gRow g, gCol g, gParam g, bits w 2 0, bits w 7 4, gLocal g)) ∧
      (∃ k, Does (.gsetSeed p gd a) s (s.setG gd k) ∧
        gFields k = (w, gScope g, gRow g, gCol g, gParam g, gKind g, gOut g, gLocal g)) ∧
      (∃ k, Does (.gsetScope p gd a loc) s (s.setG gd k) ∧
        gFields k = (gSeed g, w, gRow g, gCol g, gParam g, gKind g, gOut g, loc)) ∧
      (∃ k, Does (.gsetOrg p gd a) s (s.setG gd k) ∧
        gFields k = (gSeed g, gScope g, bits w 31 0, bits w 63 32, gParam g, gKind g, gOut g, gLocal g)) ∧
      (∃ k, Does (.gsetPar p gd a) s (s.setG gd k) ∧
        gFields k = (gSeed g, gScope g, gRow g, gCol g, bits w 31 0, gKind g, gOut g, gLocal g))) ∧
    (s.th.tile = false → ∀ i ∈ [Instr.gsetK p gd a, .gsetSeed p gd a, .gsetScope p gd a loc, .gsetOrg p gd a, .gsetPar p gd a],
      Traps i s 2 ((encode i).setWidth 64))

/-! ## CSRs -/

/-- A CSR instruction reads the CSR into x[d] and, where it writes, writes the source, the OR, or the AND with its
complement, where a write of CHUNKLEN or of a loop's count register already holds for the end of the instruction
itself; an access from U mode to a supervisor number, a write of a read-only number, a number that names no CSR and a
tile CSR in a slot without tile state are illegal instructions (05_scalar R104, R105). -/
def Obligations.CsrInstructions : Prop :=
  (∀ (s : State) (f : CsrOp) (im : Bool) (csr : BitVec 12) (rd src : Reg), Calm s →
    csrIllegal s csr (csrWrites f src) = false →
    (csrWrites f src = false → Does (.csrInstruction f im csr rd src) s (s.setX rd (csrRead s csr))) ∧
    (∀ t, csrWrites f src = true → csr ≠ 0x803 → csr ≠ 0x80C → csr ≠ 0x80E →
      csrWrite s csr (csrNew f (csrRead s csr) (if im then src.setWidth 64 else s.x src)) = .ok t →
        Does (.csrInstruction f im csr rd src) s (t.setX rd (csrRead s csr))) ∧
    (∀ t, csrWrites f src = true → csr = 0x803 ∨ csr = 0x80C ∨ csr = 0x80E →
      csrWrite s csr (csrNew f (csrRead s csr) (if im then src.setWidth 64 else s.x src)) = .ok t →
        exec (.csrInstruction f im csr rd src) s = .next (finish s (t.setX rd (csrRead s csr)) .seq))) ∧
  (∀ (s : State) (f : CsrOp) (im : Bool) (csr : BitVec 12) (rd src : Reg), s.live = true →
    (s.th.regs.smode = false ∧ csrSupervisor csr = true) ∨ (0xCC0 ≤ csr.toNat ∧ csr.toNat ≤ 0xCCB ∧ (f = .rw ∨ src ≠ 0)) ∨
      (0x810 ≤ csr.toNat ∧ csr.toNat ≤ 0x81F ∧ s.th.tile = false) ∨ (0x831 ≤ csr.toNat ∧ csr.toNat ≤ 0xCBF) →
    Traps (.csrInstruction f im csr rd src) s 2 ((encode (.csrInstruction f im csr rd src)).setWidth 64))

/-- What the CSRs with rules of their own store: CHUNKLEN brings its length into 256 to 16,384 and sets CUR; SQUASHMAX
and VSHARE store 1 for 0; LOOPC with a length of 0 stores ACTIVE 0; satp ignores a mode other than 0 and 11; stvec
stores mode 0 for modes 2 and 3; a malformed STEALDOM raises SCOPEBAD; the counters, TCCCTL and THERMRANK are written
at commit (01_machine R31, R38, R40, 05_scalar R81, 21_scheduling R314, 23_faults R326, R328). Clearing the selected
entry of the error log makes it invalid, where bit 0 of the value is 1 and the entry exists; a register write reaches
the CSR that it names (05_scalar R105, 07_memory R130). CHUNKLEN of 0 is log 59, the core of EVCNT is log 42 and the
checks of a register write are log 123, all deduced. -/
def Obligations.CsrWritesWithRules : Prop :=
  (
      ∀ (s : State), s.live = true →
        (∀ v, exec (.chunklenWrite v) s = .next (s.setCsr 0x803 fun c => { c with
          chunkLen := Nat.min 16384 (Nat.max 256 (bits v 14 0)), chunkCur := Nat.min 16384 (Nat.max 256 (bits v 14 0)) })) ∧
        (∀ v, exec (.squashmaxWrite v) s = .next (s.setCsr 0x5C9 fun c => { c with
          squashmax := if v.setWidth 4 = (0 : BitVec 4) then 1 else v.setWidth 4 })) ∧
        (∀ v, exec (.vshareWrite v) s = .next (s.setCsr 0x804 fun c => { c with
          vshare := if v.setWidth 4 = (0 : BitVec 4) then 1 else v.setWidth 4 })) ∧
        (∀ v, (scopeOf v).isSome = true → exec (.stealdomWrite v) s = .next (s.setCsr 0x805 fun c => { c with stealdom := v })) ∧
        (∀ v, scopeOf v = none → Traps (.stealdomWrite v) s 30 v) ∧
        (∀ v, bits v 16 6 ≠ 0 → exec (.loopcWrite 0 v) s = .next (s.setCsr 0x80C fun c => { c with loopC0 := v &&& 0x1FFFF })) ∧
        (∀ v, bits v 16 6 = 0 → exec (.loopcWrite 1 v) s = .next (s.setCsr 0x80E fun c => { c with loopC1 := v &&& 0x1FFFF &&& 0x1FFFE })) ∧
        (∀ v, bits v 63 60 = 0 ∨ bits v 63 60 = 11 →
          exec (.satpWrite v) s = .next (s.setCsr 0x180 fun c => { c with satp := v &&& 0xFFFFF0FFFFFFFFFF })) ∧
        (∀ v, bits v 63 60 ≠ 0 → bits v 63 60 ≠ 11 → exec (.satpWrite v) s = .next s) ∧
        (∀ v, exec (.stvecWrite v) s = .next (s.setCsr 0x105 fun c => { c with
          stvec := if 2 ≤ bits v 1 0 then v &&& ~~~(3 : Word) else v })) ∧
        (∀ n v, exec (.eventCsrWrite true n v) s = .next (s.postCommit (.evWrite true n v))) ∧
        (∀ n v, exec (.eventCsrWrite false n v) s = .next (s.postCommit (.evWrite false n (v &&& 0x1FFFF)))) ∧
        (∀ v, exec (.perCoreCsrWrite true v) s = .next (s.postCommit (.perCore true (v &&& 0x00FFFFFFFFFFFFC1)))) ∧
        (∀ v, exec (.perCoreCsrWrite false v) s = .next (s.postCommit (.perCore false (v &&& 0x10100)))) ∧
        (∀ v, ∃ n, exec (.errinjWrite v) s = .next (s.modTh fun th => { th with errinj := n, injAt := none }) ∧
          (bits v 7 4 = 1 ∨ bits v 7 4 = 2 ∨ 10 ≤ bits v 7 4 → n.getLsbD 0 = false ∧ n.extractLsb' 4 4 = 0)) ∧
        (∀ v, s.th.slot < 8 → v.getLsbD 0 = false → exec (.aeroleWrite v) s =
          .next (((s.modChunk fun c => { c with aeTaken := c.aeTaken ++ s.pairOf.fq, dropped := c.dropped ++ s.pairOf.rq }).setPair
            ⟨[], []⟩).setCsr 0x806 fun c => { c with bind := false })) ∧
        (∀ v u, s.th.slot < 8 → v.getLsbD 0 = true → s.inSlot s.th.core (s.th.slot + 8) = some u → (s.thr u).lid = s.th.lid →
          exec (.aeroleWrite v) s = .next (s.setCsr 0x806 fun c => { c with bind := true }))) ∧
  (
      (∀ (s : State) (v : Word) (e : ErrEntry), s.live = true → v.getLsbD 0 = true →
        (s.th.regs.csr.errsel.extractLsb' 10 2).toNat = 2 → (s.th.regs.csr.errsel.extractLsb' 0 4).toNat < 10 →
        (tabGet [] (s.coreOf (selectedLog s).1).errlog (selectedLog s).2.1)[(selectedLog s).2.2]? = some e →
        ∃ t f, exec (.errlogEntryClear v) s = .next t ∧
          (tabGet [] (t.coreOf (selectedLog s).1).errlog (selectedLog s).2.1)[(selectedLog s).2.2]? = some f ∧ f.valid = false) ∧
      (∀ (s t : State) (n : BitVec 12) (v : Word), s.live = true → csrIllegal s n true = false → csrWrite s n v = .ok t →
        exec (.registerWrite (.csr n) v) s = .next t) ∧
      (∀ (s : State) (off : Nat) (v : Word), off % 8 = 0 → exec (.registerWrite (.bar0 off) v) s = .next (bar0Write s off v)))

/-! ## Messages and optimistic events -/

/-- SEND and SENDT reserve a send-queue entry, take the next sequence number of their counter and append the message;
a malformed descriptor, or a VRT that the event has passed, raises QUEUEBAD; in an event SENDT also logs what it sent
(17_messages R249, R250, R254, R264, R265). That OPTWRITE outside an event comes before the checks of the descriptor
and the VRT is deduced, log 27. -/
def Obligations.Sending : Prop :=
  ∀ (s : State) (p : Bool) (a b d : Reg), Calm s → s.th.sendUsed < Config.sendEntries →
    let s1 := s.modChunk fun c => { c with sendRes := c.sendRes + 1 }
    let o := s.th.regs.opt
    (s.inEvent = false → descOk s (s.x a) = true → Does (.send p a b) s (formMessage s1 (s.x a) 0 b).1) ∧
    (s.inEvent = false → descOk s (s.x a) = false → Traps (.send p a b) s 55 (s.x a)) ∧
    (o.on = false → o.inEvent = false → descOk s (s.x a) = true → s.x d ≠ 0 →
      Does (.sendt p a b d) s (formMessage s1 (s.x a) (s.x d) b).1) ∧
    (s.inEvent = true → descOk s (s.x a) = true → lvtWord o < s.x d → o.out.length + pendingOut s s.cur < o.oent →
      Does (.sendt p a b d) s ((formMessage s1 (s.x a) (s.x d) b).1.postCommit
        (.outLog ⟨o.evKey, s.x a, s.x d, (formMessage s1 (s.x a) (s.x d) b).2.seq⟩))) ∧
    (s.inEvent = true → descOk s (s.x a) = true → s.x d ≤ lvtWord o → s.x d ≠ 0 → Traps (.sendt p a b d) s 55 (s.x d)) ∧
    (o.on = true → o.inEvent = false → Traps (.sendt p a b d) s 49 0)

/-- RECV and RECVS take the first held untimed message of their channels, and of their selector, at once: it leaves
the queue, its payload goes to v[d] and its header image to v[d + 1] as message results, those of a message in a spill
ring from the 128 bytes of its entry in memory, where a poisoned line raises POISON; without a message the chunk ends
with code 6 and the thread waits; MSGQ reads the counts of a channel (17_messages R251, R255 to R257, 23_faults R334).
MSGQ's counts are log 57, and the place of a ring entry, with its physical address as the trap value of POISON, is log
31, both deduced. -/
def Obligations.Receiving : Prop :=
  ∀ (s : State) (p : Bool) (d a b : Reg), Calm s →
    let mask := channelMask (s.x a)
    let got := fun (m : Msg) =>
      ((countEvent (s.modTh fun th => { th with
        recvq := th.recvq.filter fun k => k.ordinal != m.ordinal
        chunk := { th.chunk with taken := m :: th.chunk.taken } }) s.cur 13 1).setLong .message
          (.v d (s.msgPayload s.cur m)) none).setLong .message (.v (d + 1) (s.msgImage s.cur m)) none
    (∀ m, m.ring = false → s.msgPayload s.cur m = m.payload ∧ s.msgImage s.cur m = m.image ∧ ringStop s d m = none) ∧
    (∀ m, m.ring = true → s.msgPayload s.cur m = BitVec.ofNat 512 (leNat (memRead s.mem (s.ringEntry s.cur m) 64)) ∧
      s.msgImage s.cur m = BitVec.ofNat 512 (leNat (memRead s.mem (s.ringEntry s.cur m + 64) 64))) ∧
    (s.inEvent = false → s.th.recvq.find? (recvWants mask none) = none →
      Ends (.recv p d a) s s 6 (.wait (.recv d mask s.pc))) ∧
    (∀ m, s.inEvent = false → s.th.recvq.find? (recvWants mask none) = some m → ringStop s d m = none →
      Does (.recv p d a) s (got m)) ∧
    (∀ m, s.inEvent = false → s.th.recvq.find? (recvWants mask none) = some m → m.ring = true →
      s.poison.contains (s.ringEntry s.cur m / 64) = true →
      Traps (.recv p d a) s 50 (BitVec.ofNat 64 (s.ringEntry s.cur m))) ∧
    (∀ m, s.inEvent = false → s.th.recvq.find? (recvWants mask none) = some m → m.ring = true →
      s.poison.contains (s.ringEntry s.cur m / 64) = false → s.poison.contains (s.ringEntry s.cur m / 64 + 1) = true →
      exec (.recv p d a) s = .next (takeTrap ((s.capture (.reg (.v d))).modRegs (·.put (.v d (s.msgPayload s.cur m)))) 50
        (BitVec.ofNat 64 (s.ringEntry s.cur m + 64)))) ∧
    (s.inEvent = false → (s.x b).getLsbD 31 = false → s.th.recvq.find? (recvWants mask (some (s.x b))) = none →
      Ends (.recvs p d a b) s s 6 (.wait (.recvs d mask (s.x b) s.pc))) ∧
    (∀ m, s.inEvent = false → (s.x b).getLsbD 31 = false → s.th.recvq.find? (recvWants mask (some (s.x b))) = some m →
      ringStop s d m = none → Does (.recvs p d a b) s (got m)) ∧
    (s.inEvent = false → (s.x b).getLsbD 31 = true → Traps (.recvs p d a b) s 55 (s.x b)) ∧
    Does (.msgq p d a) s (s.setX d (msgqWord s.th ((s.x a).setWidth 2)))

/-- OPTON captures the entry image and takes its rings from the descriptor; RECVT starts an event with the held timed
message of least key, from the image; STIRV defers its store to the irrevocable ring; EVEND ends the event, LVT
becoming the event's VRT plus 1, saturating, and the chunk with code 10; OPTOFF leaves the mode, or waits until the
rings are empty (17_messages R258 to R266, R274). -/
def Obligations.OptimisticEvents : Prop :=
  (∀ (s t : State) (p : Bool) (a : Reg) (va : Nat) (bs : List Byte), Calm s → s.th.regs.opt.on = false →
    pointerAddr (s.x a) 0 = .ok va → va % 64 = 0 → loadVa s va 64 false = .ok (t, bs) → optionsOk bs = true →
    ∃ u, exec (.opton p a) s = .next u ∧ u.th.regs.opt.on = true ∧ u.th.regs.opt.inEvent = false ∧
      u.th.regs.opt.sbase = lineWord bs 0 ∧ u.th.regs.opt.ssize = lineWord bs 1 ∧ u.th.regs.opt.lvt = 0 ∧
      u.th.regs.opt.image.x = s.th.regs.x ∧ u.th.regs.opt.image.v = s.th.regs.v ∧ u.pc = s.pc + 4) ∧
  (∀ (s : State) (p : Bool) (d : Reg) (m : Msg), Calm s → s.th.regs.opt.on = true → s.th.regs.opt.inEvent = false →
    s.th.chunk.count = 0 → leastTimed s.th.recvq = some m → ringStop s d m = none →
    ∃ t, exec (.recvt p d) s = .next t ∧ t.th.regs.opt.inEvent = true ∧ t.th.regs.opt.evKey = m.key ∧
      t.th.regs.opt.evVrt = m.vrt ∧ t.th.regs.opt.evPc = s.pc ∧ t.th.regs.opt.lvt = m.vrt ∧
      t.th.regs.x = s.th.regs.opt.image.x ∧ t.pc = s.pc + 4 ∧ t.mem = s.mem) ∧
  (∀ (s t : State) (p : Bool) (a b : Reg) (pa va : Nat), Calm s → s.inEvent = true → checkVa s .store (s.x a) 8 = .ok (t, pa, va) →
    s.th.regs.opt.irr.length + pendingIrr t t.cur < s.th.regs.opt.ient →
      Does (.stirv p a b) s (t.postCommit (.irrLog ⟨s.th.regs.opt.evKey, pa, t.x b, 0⟩))) ∧
  (∀ (s : State) (p : Bool), Calm s →
    (s.inEvent = true → Ends (.evend p) s (s.modRegs fun r => { r with opt := { r.opt with
      inEvent := false, logged := [], lvt := if r.opt.evVrt = BitVec.allOnes 64 then r.opt.evVrt else r.opt.evVrt + 1 } }) 10 .ready) ∧
    (s.inEvent = false → Traps (.evend p) s 2 ((encode (.evend p)).setWidth 64)) ∧
    (s.th.regs.opt.on = true → s.th.regs.opt.inEvent = false →
      (optoffWaits s s.cur = true → Ends (.optoff p) s s 6 (.wait (.optoff false))) ∧
      (optoffWaits s s.cur = false → Does (.optoff p) s (s.modRegs Regs.leaveOpt))))

/-! ## Tasks and nets -/

/-- SPAWN pushes its record at the young end of the core's Kennel, seen by thieves at commit; an entry that has been
spilled has its words in the launch's context region; TAKE gives x[d] and x[d + 1] the next record of the fixed list,
or the Kennel's youngest, and without one ends the chunk with code 18 and waits; a PC that is none raises QUEUEBAD
with it (01_machine R39, 21_scheduling R305 to R307, R312). TNEW with x[a] zero allocates the lowest free entry for a
join and gives its handle; TDEC appends a decrement of its handle; JOIN of a join entry whose count is zero frees it
at commit, and with another count, or where the entry's TNEW is still on its way, ends the chunk with code 8 and waits
(of an entry that software has stored into, count and state are free values, log 152); TLIST with zero leaves the
fixed list; TEXIT ends the chunk with code 24 and the thread with it (21_scheduling R308 to R313). That JOIN of an
entry whose TNEW is still on its way waits is log 132, and where spilled entries stand is log 31, both deduced. -/
def Obligations.TaskInstructions : Prop :=
  (
      ∀ (s : State) (p : Bool) (d a b : Reg), Calm s → s.inEvent = false → s.launch.det = false →
        let core := s.th.placeCore
        let k := (s.coreOf core).kennel s.th.lid
        (taskPcOk (s.x a) = true → 0 < (s.coreOf core).freePlaces s.th.lid →
          Does (.spawn p a b) s (s.pushEntry core s.th.lid
            ⟨false, s.x a, s.x b, some s.th.chunk.uid, none, false, 0⟩)) ∧
        (∀ e, (k.filter fun e => !e.spilled).length < 255 → 64 ≤ (k.filter fun e => !e.spilled).length → e.spilled = false →
          s.pushEntry core s.th.lid e = s.modCore core fun c => c.setKennel s.th.lid (k ++ [e])) ∧
        (taskPcOk (s.x a) = false → Traps (.spawn p a b) s 55 (s.x a)) ∧
        (∀ i e, s.th.regs.tasks = none → youngest false k = some i → k[i]? = some e →
          Does (.take p d) s (((reserveEntry s core i).setLong .far (.x d (s.readEntry core s.th.lid e).w0) none).setLong .far
            (.x (d + 1) (s.readEntry core s.th.lid e).w1) none)) ∧
        (∀ e : KEntry, (e.spilled = false → s.readEntry core s.th.lid e = e) ∧
          (e.spilled = true → (s.readEntry core s.th.lid e).w0 = s.dword (s.spillEntry core s.th.lid e.place))) ∧
        (s.th.regs.tasks = none → youngest false k = none → Ends (.take p d) s s 18 (.wait (.take d))) ∧
        (∀ t, s.th.regs.tasks = some t → listPlace t s.th.lindex s.th.regs.taskPos s.launch.threads = none →
          Does (.take p d) s (((s.modRegs fun r => { r with taskPos := s.th.regs.taskPos + 1 }).setLong .far (.x d 0) none).setLong
            .far (.x (d + 1) 0) none))) ∧
  (
      (∀ (s : State) (p : Bool) (d a b : Reg) (i : Nat), Calm s → s.inEvent = false → s.launch.det = false → s.launch.csp ≠ 0 →
        s.x a = 0 → s.x b ≠ 0 → (s.x b).toNat < 2 ^ 32 → freeIndex s s.th.placeCore = some i →
        ∃ t, exec (.tnew p d a b) s = .next t ∧ t.pc = s.pc + 4 ∧ t.mem = s.mem ∧
          t.x d = (if d = 0 then 0 else BitVec.ofNat 64 (coreY s.th.placeCore * 2 ^ 24 + coreX s.th.placeCore * 2 ^ 16 + i)) ∧
          t.th.chunk.news = s.th.chunk.news ++ [(i, 0, 0, (s.x b).setWidth 32)] ∧ t.th.chunk.newJoins = i :: s.th.chunk.newJoins) ∧
      (∀ (s : State) (p : Bool) (a : Reg) (core i : Nat), Calm s → s.inEvent = false → s.launch.det = false →
        handleOf s s.th.lid (s.x a) = some (core, i) →
        Does (.tdec p a) s (s.postCommit (.decrement (s.x a))) ∧
        (joinComing s s.cur core i = true → Ends (.join p a) s s 8 (.wait (.join (s.x a)))) ∧
        (joinComing s s.cur core i = false → s.launch.csp ≠ 0 → s.spoiled.contains (taskEntry s s.th.lid core i) = false →
          taskState s (taskEntry s s.th.lid core i) = 2 →
          (taskCount s (taskEntry s s.th.lid core i) = 0 →
            Does (.join p a) s (s.modChunk fun c => { c with joins := c.joins ++ [s.x a] })) ∧
          (taskCount s (taskEntry s s.th.lid core i) ≠ 0 → Ends (.join p a) s s 8 (.wait (.join (s.x a)))))) ∧
      (∀ (s : State) (p : Bool) (a : Reg), Calm s → s.inEvent = false → s.launch.det = false → handleOf s s.th.lid (s.x a) = none →
        Traps (.tdec p a) s 55 (s.x a) ∧ Traps (.join p a) s 55 (s.x a)) ∧
      (∀ (s : State) (p : Bool) (a : Reg), Calm s → s.inEvent = false →
        (s.x a = 0 → Does (.tlist p a) s (s.modRegs fun r => { r with tasks := none, taskPos := 0 })) ∧
        (s.th.regs.opt.on = false → Ends (.texit p) s (s.modChunk fun c => { c with exits := true }) 24 .ready)))

/-- IXNEW gives the first node of the core's cache, IXFREE frees a node of the pool at commit, IXPAIR pushes the pair
of two nodes linked by their principal ports, IXLINK writes both link words; in a deterministic launch each is an
illegal instruction, and in an event OPTWRITE (19_nets R279, R285, R292 to R294). That OPTWRITE in an event comes
before every NETBAD check is deduced, log 27. -/
def Obligations.NetInstructions : Prop :=
  (∀ (s : State) (p : Bool) (d : Reg) (n : Word) (ns : List Word), Calm s → s.inEvent = false → s.launch.det = false →
    s.nodeCache = n :: ns →
    ∃ t, exec (.ixnew p d) s = .next t ∧ t.pc = s.pc + 4 ∧ t.x d = (if d = 0 then 0 else n) ∧ t.nodeCache = ns ∧
      t.th.chunk.nodes = s.th.chunk.nodes ++ [n] ∧ t.mem = s.mem) ∧
  (∀ (s t : State) (p : Bool) (a : Reg), Calm s → s.inEvent = false → s.launch.det = false → freeNode s (s.x a) = .ok t →
    Does (.ixfree p a) s t) ∧
  (∀ (s t u : State) (p : Bool) (a b : Reg), Calm s → s.inEvent = false → s.launch.det = false → nodeOk (s.x a) = true →
    nodeOk (s.x b) = true → needPair s (s.x a) (s.x b) = .ok t → reservePlaces t 1 = .ok u →
    Does (.ixpair p a b) s (pushPair u (s.x a).toNat (s.x b).toNat)) ∧
  (∀ (s t u v w : State) (p : Bool) (a b : Reg), Ready s → s.inEvent = false → s.launch.det = false → portOk (s.x a) = true →
    portOk (s.x b) = true → s.x a ≠ s.x b → (portNum (s.x a) ≠ 0 ∨ portNum (s.x b) ≠ 0) → needPort s (s.x a) = .ok t →
    needPort t (s.x b) = .ok u → writeWord u (linkAddr (portNode (s.x a)) (portNum (s.x a))) (s.x b) = .ok v →
    writeWord v (linkAddr (portNode (s.x b)) (portNum (s.x b))) (s.x a) = .ok w →
    Stores (.ixlink p a b) s w) ∧
  (∀ (s : State) (p : Bool) (d a b : Reg), s.live = true → s.launch.det = true →
    ∀ i ∈ [Instr.ixpop p d, .ixpair p a b, .ixnew p d, .ixfree p a, .ixlink p a b, .ixrule p a b, .ixdone p],
      Traps i s 2 ((encode i).setWidth 64)) ∧
  (∀ (s : State) (p : Bool) (d a b : Reg), Ready s → s.launch.det = false → s.inEvent = true →
    ∀ i ∈ [Instr.ixpop p d, .ixpair p a b, .ixnew p d, .ixfree p a, .ixlink p a b], Traps i s 49 0)

/-- IXPOP begins a rewrite with the youngest pair of the core's Kennel: the pair's words in x[d] and x[d + 1], the
thread in the rewrite, its pc kept; IXRULE of a pair whose rule names a handler links x1 and goes to it, and with a
template makes the rewrite; IXDONE clears the in-rewrite bit and ends the chunk with code 12, and outside a rewrite it
is an illegal instruction (19_nets R286 to R290). That the handler's jump is a taken jump for loops is log 52, and
that IXPOP is illegal in a rewrite is log 25, both deduced. -/
def Obligations.Rewrites : Prop :=
  (∀ (s : State) (p : Bool) (d : Reg) (i : Nat) (e : KEntry), Calm s → s.inEvent = false → s.launch.det = false →
    s.th.chunk.count = 0 → youngest true ((s.coreOf s.th.placeCore).kennel s.th.lid) = some i →
    ((s.coreOf s.th.placeCore).kennel s.th.lid)[i]? = some e →
    Does (.ixpop p d) s (startRewrite (reserveEntry (s.cutChunk s.cur 11) s.th.placeCore i) d
      ((s.cutChunk s.cur 11).readEntry s.th.placeCore s.th.lid e))) ∧
  (∀ (s t u v w : State) (p : Bool) (a b : Reg) (ha hb : Word) (e : RuleEntry), Rewriting s → s.inEvent = false →
    s.launch.det = false → nodeOk (s.x a) = true → nodeOk (s.x b) = true → needPair s (s.x a) (s.x b) = .ok t →
    readWord t (s.x a).toNat = .ok (u, ha) → readWord u (s.x b).toNat = .ok (v, hb) → bits ha 7 0 ≤ 63 → bits hb 7 0 ≤ 63 →
    readRule v (bits ha 7 0) (bits hb 7 0) = .ok (w, e) → e.ok = true →
    (e.type = 2 → Fits (completed (w.setX 1 (w.pc + 4)) (BitVec.ofNat 64 (bits e.e1 55 0)) .ready) →
      DoesTo (.ixrule p a b) s (w.setX 1 (w.pc + 4)) (BitVec.ofNat 64 (bits e.e1 55 0))) ∧
    (∀ r, e.type = 1 →
      rewrite w (s.x a) (s.x a).toNat (s.x b).toNat (bits e.e0 55 6 * 64) (bits e.e0 5 3) none = .ok r →
      r.th.chunk.count = s.th.chunk.count → Stores (.ixrule p a b) s r)) ∧
  (∀ (s : State) (p : Bool), Rewriting s → s.inEvent = false → s.launch.det = false →
    Fits (completed (s.modRegs fun r => { r with inRewrite := false }) (s.pc + 4) .ready) →
    Ends (.ixdone p) s (s.modRegs fun r => { r with inRewrite := false }) 12 .ready) ∧
  (∀ (s : State) (p : Bool), s.live = true → s.th.regs.inRewrite = false →
    Traps (.ixdone p) s 2 ((encode (.ixdone p)).setWidth 64))

/-! ## Engine commands -/

/-- BATCH sets the batch number; ENQ reserves its scoreboard entries, appends the command of the four words with the
thread's batch number and gives its ticket; ENQ to engine 3 is illegal in U mode; ENGQ reads the status word, or with
bit 63 the detail word (15_engines R217 to R223). -/
def Obligations.EngineCommands : Prop :=
  (∀ (s : State) (p : Bool) (n : BitVec 4), Calm s → Does (.batch p n) s (s.setCsr 0x80A fun c => { c with batchno := n })) ∧
  (∀ (s t : State) (p : Bool) (d a : Reg) (e : BitVec 2) (w : Word), Calm s → s.inEvent = false →
    (e = 3 → s.th.regs.smode = true) → postCommand s (s.x a) (s.x (a + 1)) (s.x (a + 2)) (s.x (a + 3)) e = .ok (t, w) →
      Does (.enq p d a e) s (t.setX d w)) ∧
  (∀ (s : State) (w0 w1 w2 w3 : Word) (e : BitVec 2), 5 ≤ s.sbFree s.th.placeCore →
    ∃ t c, postCommand s w0 w1 w2 w3 e = .ok (t, c.ticket) ∧ t.th.chunk.post = s.th.chunk.post ++ [.command c] ∧
      c.tid = s.cur ∧ c.engine = e ∧ c.batch = s.th.regs.csr.batchno ∧ bits c.w0 19 16 = s.th.regs.csr.batchno.toNat ∧
      c.w1 = w1 ∧ c.w2 = w2 ∧ c.w3 = w3 ∧ c.state = .waiting ∧ c.serial ≠ 0) ∧
  (∀ (s : State) (p : Bool) (d a : Reg), s.live = true → s.th.regs.smode = false →
    Traps (.enq p d a 3) s 2 ((encode (.enq p d a 3)).setWidth 64)) ∧
  (∀ (s : State) (p : Bool) (d a : Reg), Calm s →
    Does (.engq p d a) s (s.setX d (if (s.x a).getLsbD 63 then detailWord s s.cur (putBits (s.x a) 63 1 0)
      else statusWord s s.cur (putBits (s.x a) 63 1 0))))

/-! ## Operations of a thread's results, interrupts and commits -/

/-- A known result returns to its register, one of the vector queue only as its thread's oldest and by the arbiter's
choice; a YIELD or PAUSE ends when its cycles have passed; a vector window gives each busy thread its share of credit;
a STATE packet is flushed 4,096 cycles after its first record (01_machine R26, 05_scalar R78, 13_vector_tile R182,
21_scheduling R315, 27_debug R369). The management processor sets SEIP, STIP and SSIP of a thread, the last from
outside every chunk; an enabled interrupt is taken at a boundary with no earlier event there (23_faults R327, R330,
R332). When a result returns is log 12 and where an interrupt may be taken is log 43, both deduced. -/
def Obligations.ThreadEvents : Prop :=
  (
      (∀ (s : State) (t k : Nat) (r : Result), (s.thr t).results[k]? = some r → r.far = none →
        let put := fun (q : Regs) => (r.val.map q.put).getD q
        let u := s.modThr t fun th => { th with
          regs := put th.regs
          chunk := if r.uid == th.chunk.uid then th.chunk else { th.chunk with start := put th.chunk.start }
          results := th.results.eraseIdx k }
        (r.vec = false → exec (.longLatencyResult t k) s = .next u) ∧
        (r.vec = true → ((s.thr t).results.take k).any (·.vec) = false → vectorChoice s (s.thr t).core = some t →
          exec (.longLatencyResult t k) s = .next (vectorGrant u t)) ∧
        (r.vec = true → ((s.thr t).results.take k).any (·.vec) = true → exec (.longLatencyResult t k) s = .next s)) ∧
      (∀ (s : State) (t : Nat), (s.thr t).status = .retry .paused → (s.thr t).nextIssue ≤ s.cycle →
        exec (.yieldEnd t) s = .next (s.modThr t fun th => { th with status := .ready })) ∧
      (∀ (s : State) (t : Nat), s.cycle < (s.thr t).nextIssue → exec (.yieldEnd t) s = .next s) ∧
      (∀ (s : State) (core t : Nat), (t, s.thr t) ∈ s.threads → (s.thr t).loc = .slot → (s.thr t).core = core →
        keysRise s.threads = true →
        let busy := fun (th : Thread) => th.results.any fun r => r.vec
        let sum := ((s.resident.filter fun p => p.2.core == core).filter fun p => busy p.2).foldl (fun n p => n + p.2.regs.csr.vshare.toNat) 0
        ∃ u, exec (.vectorWindow core) s = .next u ∧ (u.thr t).credit = (if busy (s.thr t) then
          Nat.min 16 ((s.thr t).credit + 16 * (s.thr t).regs.csr.vshare.toNat / Nat.max 1 sum) else 0)) ∧
      (∀ (s : State) (t : Nat), (s.thr t).log ≠ [] → (s.thr t).logStart + 4096 ≤ s.cycle →
        exec (.statePacketFlush t) s = .next (flushLog s t))) ∧
  (
      ∀ (s : State) (t : Nat),
        (∀ on, exec (.seiChange t on) s = .next (s.modThr t fun th => { th with seip := on })) ∧
        (∀ on, exec (.stiTimer t on) s = .next (s.modThr t fun th => { th with stip := on })) ∧
        (∃ u, exec (.mpWake t) s = .next u ∧ (u.thr t).regs.csr.ssip = true ∧ (u.thr t).chunk.start.csr.ssip = true ∧
          (u.thr t).regs.x = (s.thr t).regs.x ∧ (∀ v, v ≠ t → u.thr v = s.thr v) ∧ u.mem = s.mem) ∧
        (∀ c, interruptCause s t = some c → atBoundary s t = true → earlierEvent (s.thr t) = false →
          exec (.interrupt t) s = .next (takeInterrupt s t c)) ∧
        (interruptCause s t = none → exec (.interrupt t) s = .next s))

/-- A grant is the commit point: memory takes the chunk's writes to this device and the host, the request is gone, the
chunk is granted with its list, and the translations that its TLBINVs name have left every TLB; a chunk whose lines
failed their parity check squashes; a request that may not be granted leaves everything (01_machine R36, 05_scalar
R88, 07_memory R117, 09_ordering R138, R139). A release follows the grant: the thread's NFLAGS join the GFLAGS of its
group, the chunk is gone, and its list goes out in order, as far as the thread has room for far requests; a broadcast
reaches a core once, and there squashes what it meets; the token goes to the first thread of its queue, once its
earlier chunk is granted and no broadcast is on its way to its core; a chunk that has not been granted is not
released, so flags raised in a squashed chunk never reach GFLAGS (01_machine R37, R38, 09_ordering R139, R140, R150).
That a grant is one step is the model's choice, log 9, what changes at the release is log 65, when the token is
granted is log 71, and that matching translations have left every TLB in the step of the grant is the model's choice,
log 38. -/
def Obligations.CommitAndRelease : Prop :=
  (
      (∀ (s : State) (t : Nat) (c : Chunk), s.paused = false → s.requests.contains t = true → grantable s t = true →
        behind s t = false → (s.thr t).older = some c → c.parity = none →
        exec (.commitGrant t) s = .next (grantChunk s t c)) ∧
      (∀ (s : State) (t : Nat) (c : Chunk), (s.thr t).older = some c → c.state = .requested → c.parity.isSome = true →
        exec (.commitGrant t) s = .next (squash s t true 1)) ∧
      (∀ (s : State) (t : Nat) (c : Chunk), c.ctx = [] → c.freed = [] →
        let u := grantChunk s t c
        u.mem = (c.writes.filter fun e => !s.isFar e.1).foldl (fun m e => memSet m e.1 e.2) s.mem ∧
        u.requests = s.requests.filter (· != t) ∧
        (∃ k, (u.thr t).older = some k ∧ k.state = .granted ∧ k.uid = c.uid ∧ k.writes = []) ∧
        (u.thr t).regs = (s.thr t).regs ∧
        (∀ v ∈ c.tlbinv, ∀ p ∈ u.cores, ∀ e ∈ p.2.tlb, tlbHit v.1 v.2 e = false)) ∧
      (∀ (s : State) (t : Nat) (c : Chunk), (s.thr t).older = some c → c.parity = none → grantable s t = false →
        exec (.commitGrant t) s = .next s) ∧
      (∀ (s : State) (t : Nat), (s.thr t).older = none → exec (.commitGrant t) s = .next s)) ∧
  (
      (∀ (s : State) (t : Nat) (c : Chunk), (s.thr t).older = some c →
        let n := sendable s (1024 - s.farCount t) c.post
        (releasable s t c = true → n = c.post.length → exec (.postCommitRelease t) s = .next (releaseChunk s t c)) ∧
        (releasable s t c = true → n ≠ c.post.length → exec (.postCommitRelease t) s = .next
          ((((c.post.take n).foldl (sendAct t) s).modThr t fun th => { th with
            older := th.older.map fun k => { k with post := c.post.drop n } }).drained)) ∧
        (c.state ≠ .granted → exec (.postCommitRelease t) s = .next s)) ∧
      (∀ (s : State) (k : Nat) (b : Bcast), s.bcasts[k]? = some b →
        exec (.commitBroadcastApply k) s = .next
          (let s1 := { s with bcasts := s.bcasts.eraseIdx k }
           let s2 := if (s1.thr b.tid).core = b.core then s1
             else s1.modCore b.core fun c => c.keepCopies fun a => !b.words.contains (a / 4)
           ((s2.resident.filter fun p => p.2.core == b.core && p.1 != b.tid).map (·.1)).foldl (castHit b) s2)) ∧
      (∀ (s : State) (t : Nat) (q : List Nat), s.token = none → s.tokenQ = t :: q → (s.thr t).loc = .slot →
        (∀ c, (s.thr t).older = some c → c.inFlight = false) → (s.bcasts.any fun b => b.core == (s.thr t).core) = false →
        ∃ u, exec .tokenGrant s = .next u ∧ u.token = some t ∧ u.tokenQ = s.tokenQ.filter (· != t) ∧
          (u.thr t).chunk.token = true ∧ (u.thr t).regs = (s.thr t).regs ∧ u.mem = s.mem))

/-! ## Operations at the homes -/

/-- What a thread's actions do at their homes: a command is installed where its queue has room, a relaxed store is
performed and a ZLINE clears its line's poison, a reduction leaves its combined value, an invalidation drops its
bytes, a fence marker is done when everything before it in its scope is, and a removal of translations, which waits
for a command that still translates through one, empties every TLB and walker of matching entries. A store at its home
leaves its bytes in memory and the invalidations of its holders on their way; a reduction leaves there the combination
of the old word and the operand; an invalidation takes the words that it touches out of the L1, and leaves every other
copy (05_scalar R79, R88, R89, R94, R100, 09_ordering R141, R145, 15_engines R221). How the own copies change is log
56, and what a release and a command wait for is log 81 and log 82. -/
def Obligations.ActionsAtTheirHomes : Prop :=
  (∀ (s : State) (k t l core : Nat) (c : Command), s.flights[k]? = some ⟨t, l, core, .command c⟩ → s.free_ k t = true →
    (s.cmds.filter fun d => sameQueue d c.core c.engine.toNat && d.state != .retired).length < queueRoom c.engine.toNat →
    c.flag 8 = false → c.flag 9 = false →
      exec (.commandInstall k) s = .next (installCommand (s.dropFlight k) c).drained) ∧
  (∀ (s : State) (k t l core pa : Nat) (bs : List Byte) (z : Bool), s.flights[k]? = some ⟨t, l, core, .relaxed pa bs z⟩ →
    writeReady s k t pa bs.length = true →
      let u := storeHome (s.dropFlight k) t pa bs
      (aliasHeld s pa = false → exec (.relaxedStorePerform k) s = .next
        (if z then { u with poison := u.poison.filter (· != pa / 64) } else u).drained) ∧
      (aliasHeld s pa = true → exec (.relaxedStorePerform k) s = .next s)) ∧
  (∀ (s : State) (t pa : Nat) (bs : List Byte), s.inAlias pa = false →
    (storeHome s t pa bs).mem = memWrite s.mem pa bs ∧
    ∀ c, s.activeCores.contains c = true → (t = noThread ∨ c ≠ (s.thr t).core) → (spanLines pa bs.length).any (s.holdsLine c) = true →
      bs ≠ [] → (⟨c, pa, bs.length, t, s.homeOf pa⟩ : Inval) ∈ (storeHome s t pa bs).invals) ∧
  (∀ (s : State) (k t l core pa n : Nat) (op : RedOp) (x : BitVec 128), s.flights[k]? = some ⟨t, l, core, .reduce op pa n x⟩ →
    writeReady s k t pa n = true → s.isFar pa = false →
      (s.bankBusy pa = false →
        exec (.reductionApply k) s = .next ((applyReduction s t l op pa n x).dropFlight k).drained) ∧
      (s.bankBusy pa = true → exec (.reductionApply k) s = .next s)) ∧
  (∀ (s : State) (t l pa n : Nat) (op : RedOp) (x : BitVec 128), s.isFar pa = false →
    (s.coreOf ((clusterCores (s.homeOf pa)).headD 0)).flips = [] →
    (s.poison.contains (pa / 64) = false → (applyReduction s t l op pa n x).mem =
      memWrite s.mem pa (leBytes n (reduceValue op n (leNat (memRead s.mem pa n)) x).1)) ∧
    (s.poison.contains (pa / 64) = true → (applyReduction s t l op pa n x).mem = s.mem)) ∧
  (∀ (s : State) (k : Nat) (v : Inval), s.invals[k]? = some v →
    ((s.invals.take k).any fun w => w.core == v.core && w.home == v.home) = false → deferred s v.core v.pa v.len = false →
      exec (.invalidationApply k) s = .next (invalidateAt { s with invals := s.invals.eraseIdx k } v.core v.pa v.len)) ∧
  (∀ (s : State) (core pa n : Nat), (∀ t, ∀ l ∈ spanLines pa n, lineMeets l (s.thr t).chunk = false ∧
      ∀ c, (s.thr t).older = some c → lineMeets l c = false) →
    invalidateAt s core pa n = s.modCore core (·.dropBytes pa n) ∧
    ((invalidateAt s core pa n).coreOf core).l1 = (s.coreOf core).l1.filter fun e =>
      decide (e.1 / 4 < pa / 4) || decide ((pa + n - 1) / 4 < e.1 / 4)) ∧
  (∀ (s : State) (k t l core : Nat) (w : Word), s.flights[k]? = some ⟨t, l, core, .fence w⟩ → s.releaseReady k t w false = true →
      exec (.releaseComplete k) s = .next (s.dropFlight k).drained) ∧
  (∀ (s : State) (k t : Nat) (va id : Option Word), s.tlbinvs[k]? = some (t, va, id) →
    (grainHolds s va id = true → exec (.tlbinvComplete k) s = .next s) ∧
    (grainHolds s va id = false → ∃ u, exec (.tlbinvComplete k) s = .next u ∧ u.tlbinvs = s.tlbinvs.eraseIdx k ∧ u.mem = s.mem ∧ u.threads = s.threads ∧
      (∀ p ∈ u.cores, ∀ e ∈ p.2.tlb, tlbHit va id e = false) ∧ (∀ p ∈ u.ctlbs, ∀ e ∈ p.2, tlbHit va id e = false) ∧
      ∀ p ∈ u.walkers, ∀ e ∈ p.2, ptrHit va id e = false))

/-- Far requests: a group is performed after the thread's earlier groups to its device, and clears the poison of the
lines that its ZLINEs zero; a request is served, a release's once it is complete, and then acknowledged, when it
leaves FARCNT, a line's behind the invalidations of it; a refusal and a timeout take their class; a write of another
device at a far span goes to memory and drops the copies (05_scalar R89, R101, 09_ordering R149 to R151, 25_system
R353). That a refused group drops copies is log 69, deduced. -/
def Obligations.FarRequests : Prop :=
  (∀ (s : State) (k t l core : Nat) (d : BitVec 11) (num : BitVec 32) (bs : List Host.Cell) (zs : List Nat) (parts : List FarPart),
    s.flights[k]? = some ⟨t, l, core, .farGroup d num bs zs parts⟩ → s.free_ k t = true →
    ((s.earlier k t).any fun f => match f.act with
      | .farGroup e _ _ _ _ => e == d
      | .reduce _ pa n _ => (Act.farGroup d num bs zs parts).meets pa n
      | _ => false) = false → (bs.any fun b => s.poison.contains (b.1 / 64) && !zs.contains (b.1 / 64)) = false →
      let u := markServed (performGroup s t l parts) t num
      u.mem = parts.foldl (fun m p => match p with
        | .plain b => b.foldl (fun m e => memSet m e.1 e.2) m
        | .store b => b.foldl (fun m e => memSet m e.1 e.2) m
        | .red op pa n x => memWrite m pa (leBytes n (reduceValue op n (leNat (memRead m pa n)) x).1)) s.mem ∧
      exec (.farStoreGroup k) s = .next ({ u with poison := u.poison.filter fun l => !zs.contains l }.dropFlight k).drained) ∧
  (∀ (s : State) (k : Nat) (f : FarReq), s.far[k]? = some f →
    (f.served = false → s.poison.contains (f.pa / 64) = false → f.kind = .line →
      exec (.farRequestServe k) s = .next (markServed s f.tid f.num)) ∧
    (f.served = false → exec (.farAck k) s = .next s) ∧
    (∀ irr j sc bs, f.served = false → s.poison.contains (f.pa / 64) = false → f.kind = .rel irr →
      relFlight s k f irr = some (j, sc, bs) → s.releaseReady j f.tid sc true = true →
      let u := performGroup s f.tid (s.thr f.tid).lid [.store (layWrite [] f.pa bs)]
      exec (.farRequestServe k) s = .next (markServed ((dropEntry u j).dropFlight j) f.tid f.num).drained) ∧
    (f.served = true → f.kind = .group ∨ f.kind = .red ∨ f.kind = .rel false → exec (.farAck k) s = .next (s.dropFar k)) ∧
    (∀ j t l op pa n x, f.served = false → s.poison.contains (f.pa / 64) = false → f.kind = .red → redFlight s k f = some j →
      s.flights[j]? = some ⟨t, l, (s.thr t).core, .reduce op pa n x⟩ → writeReady s j t pa n = true →
      exec (.farRequestServe k) s = .next (markServed ((applyReduction s t l op pa n x).dropFlight j) t f.num).drained) ∧
    (f.served = true → f.kind = .line → s.invalWaits (s.thr f.tid).core f.pa = true → exec (.farAck k) s = .next s) ∧
    (f.served = true → f.kind = .line → s.invalWaits (s.thr f.tid).core f.pa = false →
      exec (.farAck k) s = .next ((s.dropFar k).fillLine ((s.dropFar k).thr f.tid).core f.pa))) ∧
  (∀ (s : State) (k : Nat), exec (.farRefusal k 1) s = .next (refuse s k 1) ∧ exec (.farRefusal k 2) s = .next (refuse s k 2) ∧
    exec (.farTimeout k) s = .next (refuse s k 3)) ∧
  (∀ (s : State) (pa : Nat) (b : Byte) (bs : List Byte), s.isFar pa = true → pa % 256 + (b :: bs).length ≤ 256 →
    deferredAny s pa (b :: bs).length = false →
    (s.invals.any fun v => (spanLines pa (b :: bs).length).any fun l => v.home == s.homeOf (l * 64)) = false →
      exec (.switchInvalidation pa (b :: bs)) s =
        .next (invalidateAll { s with mem := memWrite s.mem pa (b :: bs) } pa (b :: bs).length))

/-- An arrival joins its barrier; one of a scope that takes in other devices also waits for their participants; the
timeout ends an instance with the status of its first absent participant; a reservation's request enters the word's
queue, a handover frees the word for its next waiter, a request sent again and a late grant go to the tail, and a
sleeper whose limit has passed is swapped out and keeps its place (05_scalar R80, R96 to R98, 25_system R358). An
arrival at an ended instance is log 61, deduced; how participants on other devices are stood for, and so what clears
that wait, is the model's choice, log 44. -/
def Obligations.BarriersAndReservations : Prop :=
  (∀ (s : State) (k t l core : Nat) (w : Word) (d : Reg), s.flights[k]? = some ⟨t, l, core, .arrive w d⟩ →
    s.releaseReady k t w false = true → exec (.barrierArrival k) s = .next (arriveBar (s.dropFlight k) t w d).drained) ∧
  (∀ (s : State) (k : Nat) (b : Barrier), s.barriers[k]? = some b → b.ended = none → b.arrived ≠ [] →
    absentOf s b ≠ [] ∨ b.elsewhere = true →
    ((absentOf s b).any fun t => (s.thr t).loc != .slot && (s.coreOf (s.thr t).core).proxy) = false →
      exec (.barrierTimeout k) s = .next (endBarrier (timeoutStatus s b).1 b (timeoutStatus s b).2) ∧
      (∀ t, b.elsewhere = false → firstAbsent s b = some t →
        (timeoutStatus s b).2 = absentWord s.reg.devnum.toNat (s.thr t).lindex)) ∧
  (∀ (s : State) (k : Nat) (b : Barrier), s.flights[k]? = none → s.barriers[k - s.flights.length]? = some b →
    b.elsewhere = true → b.ended = none →
      exec (.barrierArrival k) s = .next (settleBarriers { s with barriers := s.barriers.map fun (c : Barrier) =>
        if c = b then { b with elsewhere := false } else c })) ∧
  (∀ (s : State) (k t l core pa n : Nat) (d : Reg), s.flights[k]? = some ⟨t, l, core, .lrwRequest pa n d⟩ → s.free_ k t = true →
    exec (.reservationRequest k) s = .next (enterQueue (s.dropFlight k) t pa n d).drained) ∧
  (∀ (s : State) (k t l core pa : Nat), s.flights[k]? = some ⟨t, l, core, .handover pa⟩ → s.free_ k t = true →
    exec (.reservationHandover k) s = .next (freeWord (s.dropFlight k) t pa).drained) ∧
  (∀ (s : State) (k t pa n : Nat) (d : Reg), s.resends[k]? = some (t, pa, n, d) →
    exec (.reservationResend k) s = .next (enterQueue { s with resends := s.resends.eraseIdx k } t pa n d)) ∧
  (∀ (s : State) (k t pa n : Nat) (d : Reg) (pc va : Word) (r : Reservation), s.reserved[k]? = some r → r.holder = some t →
    r.started = false → (s.thr t).status = .wait (.reservation pa n d pc va) → r.pa = pa →
    exec (.grantTimeout k) s = .next (enterQueue (freeWord s t pa) t pa n d)) ∧
  (∀ (s : State) (t pa n : Nat) (d : Reg) (pc va : Word), (s.thr t).loc = .slot →
    (s.thr t).status = .wait (.reservation pa n d pc va) → (s.reserved.any fun r => r.pa == pa && r.holder == some t) = false →
    (s.thr t).older = none → (s.thr t).chunk.count = 0 → (s.thr t).regs.csr.waitswap ≠ 0 → s.partner t = none →
    exec (.waitswapExpiry t) s = .next (toTcc (s.modThr t fun th => { th with swapped := true }) t false)) ∧
  (∀ (s : State) (t pa n : Nat) (d : Reg), (s.reserved.find? fun r => r.pa == pa) = none →
    (s.coreOf ((clusterCores (s.homeOf pa)).headD 0)).flips = [] →
    (enterQueue s t pa n d).reserved = s.reserved ++
      [{ pa := pa, holder := some t, started := false, size := n, value := leNat (memRead s.mem pa n), waiters := [] }])

/-! ## Operations of messages and tasks -/

/-- A message reaches its receiver's queue and is acknowledged, one for another device leaves the package, and one
without a receiver is dropped; an anti-message meets the last twin that arrived before it: both go where the twin is
not processed, and a processed one asks for a rollback; an acknowledgement frees a send-queue entry; the oldest entry
of a ring moves to the queue (17_messages R250 to R252, R268, R270). A rollback squashes the thread's uncommitted
chunks and undoes its events from the straggler's key on; GVT is published as the larger of its value and the new one,
which takes in the group's part on other devices (a free value, log 153), and the groups' resident threads collect
their fossils; a thread that waits too long for room in a ring takes QUEUEBAD with the ring's field of the descriptor
(17_messages R267 to R273). How the sequencer forms its chunks is log 140, and that a halted thread is not rolled back
is log 126, both the model's. -/
def Obligations.MessageEvents : Prop :=
  (
      (∀ (s : State) (k t l core u : Nat) (dst : Position) (m : Msg), s.flights[k]? = some ⟨t, l, core, .message dst m⟩ →
        dst.dev = s.reg.devnum → receiver s (s.launchOf l).launchkey dst = some u → arrives s k t dst m (some u) = true →
        (m.anti = false →
          let s1 := acknowledge (s.dropFlight k) t m
          exec (.messageArrival k) s = .next
            (if straggles (s1.thr u) m then askRollback (placeMessage s1 u m) u m.key else placeMessage s1 u m).drained) ∧
        (∀ q, m.anti = true → (((s.dropFlight k).thr u).recvq.filter fun p => m.twin p).getLast? = some q →
          let s1 := placeMessage (s.dropFlight k) u m
          let a := (s.thr u).arrivals
          (q.processed = true → exec (.antiMessageArrival k) s = .next (askRollback s1 u m.key).drained) ∧
          (q.processed = false →
            let v := s1.modThr u fun th => { th with recvq := dropMates th.recvq a.toNat q.ordinal.toNat }
            exec (.antiMessageArrival k) s = .next v.drained ∧
            ∀ x ∈ (v.thr u).recvq, x.ordinal ≠ a ∧ x.ordinal ≠ q.ordinal)) ∧
        (m.anti = true → (((s.dropFlight k).thr u).recvq.filter fun p => m.twin p) = [] →
          exec (.antiMessageArrival k) s = .next (dropPacket (s.dropFlight k) dst.core 1 m.low m.vrt).drained)) ∧
      (∀ (s : State) (k t l core : Nat) (dst : Position) (m : Msg), s.flights[k]? = some ⟨t, l, core, .message dst m⟩ → m.anti = false →
        arrives s k t dst m none = true →
        (dst.dev ≠ s.reg.devnum → exec (.messageArrival k) s = .next (acknowledge (s.dropFlight k) t m).drained) ∧
        (dst.dev = s.reg.devnum → receiver s (s.launchOf l).launchkey dst = none → exec (.messageArrival k) s =
          .next (dropPacket (acknowledge (s.dropFlight k) t m) dst.core 1 m.low m.vrt).drained)) ∧
      (∀ (s : State) (k t : Nat), s.acks[k]? = some t →
        exec (.messageAck k) s = .next ({ s with acks := s.acks.eraseIdx k }.modThr t fun th => { th with sendBusy := th.sendBusy - 1 })) ∧
      (∀ (s : State) (t : Nat) (c : BitVec 2) (m : Msg), (s.thr t).atHome = true → queueCount (s.thr t) < Config.recvEntries →
        (s.thr t).recvq.find? (fun m => m.ring && m.ch == c) = some m → s.poison.contains (s.ringEntry t m / 64) = false →
        s.poison.contains (s.ringEntry t m / 64 + 1) = false →
        exec (.spillRingDrain t c) s = .next (s.modThr t (·.mapMsgs fun k =>
          if k.ordinal == m.ordinal then { k with ring := false, place := 0, payload := s.msgPayload t m } else k)))) ∧
  (
      (∀ (s : State) (t : Nat) (ks : BitVec 128), (s.thr t).ks = some ks → rollbackReady (s.thr t) = true →
        (s.coreOf (s.thr t).core).halted = false →
          exec (.rollback t) s = .next (rollBack
            (if (s.thr t).older.isSome || (s.thr t).chunk.count != 0 then squash s t true 3 else s) t ks)) ∧
      (∀ (s : State) (key : Word), s.paused = false → groupOf s key ≠ [] →
        let f := farGvt s
        let g := Nat.max (tabGet (0 : Word) s.gvts key.toNat).toNat (Nat.min f.2 (gvtOf f.1 key))
        let s1 := { f.1 with gvts := tabSet f.1.gvts key.toNat (BitVec.ofNat 64 g) }
        (s.peers = [] → f = (s, 2 ^ 64 - 1)) ∧
        exec (.gvtPublish key) s = .next
          (((groupOf s1 key).filter fun p => p.2.loc == .slot).foldl (fun s p => fossilCollect s p.1 g) s1)) ∧
      (∀ (s : State) (t : Nat) (field : Word), (s.thr t).status = .retry (.ring field) → (s.thr t).loc = .slot → (s.thr t).older = none →
        (s.coreOf (s.thr t).core).halted = false →
        exec (.ringWaitTimeout t) s = .next (s.asThread t fun u => takeTrap u 55 ((s.thr t).regs.opt.desc + field))))

/-- A waiting TAKE or IXPOP in a slot of a core that is not halted, once it obtains a record, goes on with its words,
a TAKE's as the first effect of its next chunk, and without a record nothing changes; a decrement lowers its entry's
count, and at 1 pushes the record of a task entry and frees the entry, and one of a free entry is dropped with a DROP
packet (where nothing else has stored into the entry; else its count and state are free values, log 152); the waiting
TAKEs of a quiescent launch give zeros, those that cannot begin a chunk when it begins; a refill brings the cache the
youngest nodes of the spill stack and fresh ones of the pool, and the threads that wait for it go on (01_machine R40,
19_nets R286, R293, 21_scheduling R307, R310). Which nodes of the spill stack a refill takes, and their order in the
cache, is log 50, deduced. -/
def Obligations.TaskOperations : Prop :=
  (∀ (s : State) (t : Nat), s.begins t = false → exec (.steal t) s = .next s) ∧
  (∀ (s s1 : State) (t : Nat) (d : Reg) (e : KEntry), s.begins t = true →
    ((s.thr t).status = .wait (.take d) → obtain { s with cur := t } false = some (s1, e) →
      ∃ u, exec (.steal t) s = .next u ∧ (u.thr t).regs.getX d = (if d = 0 then 0 else if d + 1 = d then e.w1 else e.w0) ∧
        (u.thr t).regs.getX (d + 1) = (if d + 1 = 0 then 0 else e.w1) ∧ (u.thr t).status = .ready ∧ u.cur = s.cur) ∧
    ((s.thr t).status = .wait (.take d) → obtain { s with cur := t } false = none → exec (.steal t) s = .next s) ∧
    ((s.thr t).status = .retry (.ixpop d) → (s.thr t).chunk.count = 0 → obtain { s with cur := t } true = some (s1, e) →
      let r := startRewrite s1 d e
      r.th.regs.csr.loopC0.getLsbD 0 = false → r.th.regs.csr.loopC1.getLsbD 0 = false → r.th.chunk.count = 0 →
      r.th.retired = (s.thr t).retired → r.cur = t → Fits (completed r ((s.thr t).regs.pc + 4) .ready) →
        exec (.steal t) s = .next (countEvent { completed r ((s.thr t).regs.pc + 4) .ready with cur := s.cur } t 2 1)) ∧
    ((s.thr t).status = .retry (.ixpop d) → obtain { s with cur := t } true = none →
      exec (.steal t) s = .next s)) ∧
  (∀ (s : State) (k t l core home i : Nat) (h : Word), s.flights[k]? = some ⟨t, l, core, .decrement h⟩ → s.free_ k t = true →
    handleOf s l h = some (home, i) →
    let pa := taskEntry s l home i
    let n := taskCount s pa
    let st := taskState s pa
    s.spoiled.contains pa = false →
    let u := (s.dropFlight k).quietWrite (pa + 16) (leBytes 4 (n - 1))
    (st ≠ 0 → 2 ≤ n → exec (.taskDecrement k) s = .next u.drained) ∧
    (st = 2 → n = 1 → exec (.taskDecrement k) s = .next u.drained) ∧
    (st = 1 → n = 1 → exec (.taskDecrement k) s = .next
      (((u.modCore home fun c => { c with kreserved := tabSet c.kreserved l (tabGet 0 c.kreserved l - 1) }).pushEntry home l
        ⟨false, u.dword pa, u.dword (pa + 8), none, none, false, 0⟩).quietWrite (pa + 20) [0]).drained) ∧
    (st = 0 ∨ n = 0 → exec (.taskDecrement k) s = .next (dropPacket (s.dropFlight k) home 2 h 0).drained)) ∧
  (∀ (s : State) (l : Nat), keysRise s.threads = true → quiescent s l = true →
    (∀ p ∈ s.members l, ∃ d, p.2.status = .wait (.take d)) →
    ∃ u, exec (.launchQuiescent l) s = .next u ∧ u.mem = s.mem ∧ ∀ p ∈ s.members l, ∀ d, p.2.status = .wait (.take d) →
      (s.begins p.1 = true → (u.thr p.1).regs.getX d = 0 ∧ (u.thr p.1).regs.getX (d + 1) = 0 ∧ (u.thr p.1).status = .ready) ∧
      (s.begins p.1 = false → (u.thr p.1).status = .wait (.zeros d false))) ∧
  (∀ (s : State) (l : Nat), quiescent s l = true → exec (.launchQuiescent l) s = .next ((s.members l).foldl returnZeros s)) ∧
  (∀ (s s1 : State) (core l t pa : Nat) (lp : Bool) (th : Thread) (p : Pool) (addr : Nat → Nat), keysRise s.threads = true →
    s.threads.find? (fun p => p.2.placeCore == core && p.2.lid == l && p.2.status == .retry .refill) = some (t, th) →
    translateTh { s with cur := t } .load th.regs.csr.ixpool.toNat = .ok (s1, pa, lp) → poolAt s pa = some p →
    let held := tabGet 0 (s.coreOf core).stacked l
    let n := Nat.min 32 held
    let fresh := Nat.min (32 - n) (p.count - p.next)
    (∀ i, i < n → ∃ s2 q, translateTh { s with cur := t } .load (stackEntry p (s.launchOf l).rect core (held - n + i)) =
      .ok (s2, addr i, q)) →
    ∃ u, exec (.nodeCacheRefill core l) s = .next u ∧
      tabGet [] (u.coreOf core).caches l = tabGet [] (s.coreOf core).caches l ++ ((List.range n).map (fun i => s.dword (addr i)) ++
        (List.range fresh).map fun i => p.base + BitVec.ofNat 64 (64 * (p.next + i))).reverse ∧
      tabGet 0 (u.coreOf core).stacked l = held - n ∧
      (0 < fresh → u.mem = memWrite s.mem (p.pa + 16) (leBytes 8 (p.next + fresh))) ∧ (fresh = 0 → u.mem = s.mem) ∧
      (u.thr t).status = .ready)

/-! ## Engine commands -/

/-- The head of a core's matrix queue starts, where it is of the event's kind, well formed and free of hazards, and
makes its product, its zeros or its output, a beat at each event; a running head makes its next beat; a beat whose
accesses are sound takes effect whole, and after the last the command has made its last access; the first group of
metadata that is out of order ends a product with class 7 (15_engines R216, R224, R225, R228 to R233). The copy engine
of a cluster serves the FIFOs that have a beat to make round robin: the head of the FIFO whose turn it is starts and
makes a beat of its copy, its gather or scatter, or its broadcast of scales, and the pointer moves to that FIFO; a
reducing copy reads its elements and sends them; a FIFO whose turn it is not is left alone (15_engines R216, R234 to
R237). How much of a command one step runs is the model's choice, log 20. -/
def Obligations.MatrixAndCopyCommands : Prop :=
  (
      ∀ (s s1 : State) (core : Nat) (c : Command), canStart s1 c = true →
        let u := started s1 c
        (readyHead s core 0 0x01 = some (s1, c) → exec (.mma core) s = .next (matrixCommand u c)) ∧
        (readyHead s core 0 0x02 = some (s1, c) → exec (.mmag core) s = .next (matrixCommand u c)) ∧
        (readyHead s core 0 0x03 = some (s1, c) → exec (.mmas core) s = .next (matrixCommand u c)) ∧
        (readyHead s core 0 0x06 = some (s1, c) → exec (.gangmma core) s = .next (matrixCommand u c)) ∧
        (readyHead s core 0 0x04 = some (s1, c) → exec (.accz core) s = .next (runCommand u c (acczBeats c))) ∧
        (readyHead s core 0 0x05 = some (s1, c) → exec (.accout core) s = .next (runCommand u c (outBeats u c))) ∧
        (headOf s core 0 = some c → c.state = .running → engineHalted s c = false →
          (c.kind = 0x01 → exec (.mma core) s = .next (matrixCommand s c)) ∧
          (c.kind = 0x04 → exec (.accz core) s = .next (runCommand s c (acczBeats c)))) ∧
        (∀ i, i ≤ bits c.w3 7 4 - bits c.w3 3 0 → bits c.w3 3 0 ≤ bits c.w3 7 4 → ∀ p ∈ (acczBeats c).getD i [],
          ∀ (a : State × Stat), p.run a = (zeroRange a.1 c.core .cb ((bits c.w3 3 0 + i) * 16384) 16384, a.2)) ∧
        (∀ (x : State) (all rest : List (List Step)) (b : List Step), all.drop c.progress = b :: rest → c.cls ≠ 8 →
          x.paused = false → beatWaits x c b = false → beatPages x c b = c.held →
          let y := settleTouches x c (b.flatMap (·.touches))
          soundSteps y c (b ++ rest.flatten) = (b ++ rest.flatten, none) →
          let r := b.foldl (fun (a : State × Stat) p => p.run a) (y, Stat.none_)
          let z := keepTouches r.1 c b
          (rest = [] → runCommand x c all = finishCommand z c.id r.2 none) ∧
          (rest ≠ [] → runCommand x c all = z.modCmd c.id fun c => { c.gather r.2 with progress := c.progress + 1 })) ∧
        (∀ (x : State) d, c.progress = 0 → c.mat.sparse = true → ((metaStep c c.mat).findSome? (stepFault x c)) = none →
          metaBad x c c.mat = some d → matrixCommand x c = finishCommand x c.id Stat.none_ (some (7, BitVec.ofNat 64 d)))) ∧
  (
      ∀ (s s1 : State) (core : Nat) (c : Command), canStart s1 c = true →
        let u := started s1 c
        let turn := fun (v : State) => { v with
          copyPtr := tabSet v.copyPtr (clusterOf core) ((clusterCores (clusterOf core)).idxOf core) }
        copyTurn s (clusterOf core) = some core →
        (readyHead s core 1 0x10 = some (s1, c) → exec (.copy core) s = .next (turn (runCommand u c (single (copySteps c []
          (operandSpot u c (c.flag 24) (c.sliceCore (bits c.w0 28 26)) c.w1)
          (operandSpot u c (c.flag 25) (c.sliceCore (bits c.w0 31 29)) c.w2) 0 1 (bits c.w0 63 32)))))) ∧
        (readyHead s core 1 0x12 = some (s1, c) → exec (.gather core) s = .next (turn (runCommand u c (indexedBeats u c false)))) ∧
        (readyHead s core 1 0x13 = some (s1, c) → exec (.scatter core) s = .next (turn (runCommand u c (indexedBeats u c true)))) ∧
        (readyHead s core 1 0x14 = some (s1, c) → exec (.scalecast core) s = .next (turn (runCommand u c (castBeats u c)))) ∧
        (readyHead s core 1 0x11 = some (s1, c) → exec (.redcopy core) s = .next
          (turn (runBeat u c (redBeats u c) fun s st f => redSent s c.id st f))) ∧
        (∀ other, other ≠ core → clusterOf other = clusterOf core → copyReady s other = true →
          exec (.copy other) s = .next s ∧ exec (.redcopy other) s = .next s) ∧
        (headOf s core 1 = none → exec (.copy core) s = .next s))

/-- A reducing copy in order is applied and consumes its sequence number, one of the next 127 is held, a later one is
refused and sent again, an earlier one is a sequence error; a gap that lasts puts the region in error; a command that
is done retires after its release (15_engines R237, R238, 09_ordering R148). What a region reset does to held commands
is log 91, deduced. -/
def Obligations.ReducingCopiesAndRetirement : Prop :=
  (∀ (s : State) (id r : Nat) (c : Command), s.cmd? id = some c → c.kind = 0x11 → c.state = .running → c.sent = true →
    c.resend = false → s.paused = false → (s.regions.any fun q => q.2.held.contains c.id) = false →
    beatWaits s c [⟨touchRun 1 (redDest c) (c.data.length / 4 * redSize c) true, false, fun a => a⟩] = false →
    (∀ q, some q ∈ destPas s c (c.data.length / 4 * redSize c) → s.bankBusy q.1 = false) →
    (redRegion s c).1 = some r →
    let u := s.fresh.2
    let k := s.regionOf r
    let d := (BitVec.ofNat 32 (bits c.w0 63 32) - k.next).toNat
    (k.err = true → exec (.redcopyApply id) s = .next (sequenceError u c 3)) ∧
    (k.err = false → d = 0 → exec (.redcopyApply id) s = .next (applyHeld (applyInOrder u c r) r 128)) ∧
    (k.err = false → 1 ≤ d → d ≤ 127 → exec (.redcopyApply id) s = .next (u.modRegion r fun k => { k with held := k.held ++ [c.id] })) ∧
    (k.err = false → 128 ≤ d → d < 2 ^ 31 → exec (.redcopyApply id) s = .next (u.modCmd c.id fun k => { k with resend := true })) ∧
    (k.err = false → 2 ^ 31 ≤ d → exec (.redcopyApply id) s = .next (sequenceError u c 1))) ∧
  (∀ (s : State) (id : Nat), exec (.redcopyResend id) s = .next (s.modCmd id fun c => { c with resend := false })) ∧
  (∀ (s : State) (r : Nat), (s.regionOf r).held = [] → exec (.regionGapTimeout r) s = .next s) ∧
  (∀ (s : State) (r : Nat), (s.regionOf r).held ≠ [] →
    exec (.regionGapTimeout r) s = .next ((s.regionOf r).held.foldl (fun (s : State) id =>
      match s.cmd? id with
      | some c => if c.state = .running then sequenceError s c 2 else s
      | none => s) (s.modRegion r fun k => { k with err := true, held := [] }))) ∧
  (∀ (s : State) (id : Nat) (c : Command), s.cmd? id = some c → c.state = .done →
    (c.flag 9 = false → exec (.commandRetire id) s = .next (retireCommand s c)) ∧
    (c.flag 9 = true → c.cls ≠ 1 → released s c.tid (commandScope c) c.id = false → exec (.commandRetire id) s = .next s)) ∧
  (∀ (s : State) (r : Nat), r < 64 → s.reg.phase ≠ 15 → exec (.regionValid r) s = .next (setRegionValid s r true) ∧
    exec (.regionReset r) s = .next (resetRegion s r)) ∧
  (∀ (s : State) (r : Nat), r < 256 → s.reg.phase ≠ 15 → exec (.collectiveSlotValid r) s = .next (setSlotValid s r))

/-- A collective's head whose SEQ is its slot's NEXT joins the slot with the bytes of its source, a later one waits,
an earlier or repeated one is a sequence error, and a fault ends it; only a member whose command still runs has
contributed; when every rank has contributed, each member here gets its bytes and the sequence number is consumed; a
member that is missing too long aborts it, on a device that has not contributed as on the others (15_engines R239,
25_system R356, R357). A save at the head of the checkpoint engine's queue starts where no earlier save or drain is
left, and its cut closes when every device has arrived; a device that does not arrive ends it with class 5; the
records are written once every committed write has been performed, and what the cut held goes on; the drain writes the
next piece to the host; a restore writes its records back, and a table that cannot be used ends the command with its
error (25_system R359 to R363). Which missing device a timeout names is a free value, logs 94 and 98; how much of a
command one step runs is log 20, the host addresses of a drain are log 54, both the model's choice, and what the drain
sets up at the end of the save is log 97, deduced. -/
def Obligations.CollectivesAndCheckpoints : Prop :=
  (
      (∀ (core : Nat), ∀ p ∈ [(0x20, Instr.allred core), (0x21, .bcast core), (0x22, .redscat core), (0x23, .allgath core)],
        (∀ (s : State), readyHead s core 2 p.1 = none → exec p.2 s = .next s) ∧
        ∀ (s s1 : State) (c : Command) (k : Nat) (sl : Collective), readyHead s core 2 p.1 = some (s1, c) → canStart s1 c = true →
          groupSlot s (bits c.w3 15 0) = some (k, sl) →
          let n := sourceBytes s sl c
          let d := (BitVec.ofNat 32 (bits c.w0 63 32) - sl.next).toNat
          let u := started s1 c
          let y := settleTouches u c (touchRun 0 (.glob (bits c.w1 55 0)) n false)
          let again := sl.here.any fun id => match u.cmd? id with | some e => e.core == c.core | none => false
          (1 ≤ d → d < 2 ^ 31 → exec p.2 s = .next s) ∧
          (beatWaits s c (sourceSteps c n) = false → 2 ^ 31 ≤ d → exec p.2 s = .next (sequenceError u c 1)) ∧
          (beatWaits s c (sourceSteps c n) = false → d = 0 → again = true → exec p.2 s = .next (sequenceError u c 1)) ∧
          (beatWaits s c (sourceSteps c n) = false → d = 0 → again = false → (soundSteps y c (sourceSteps c n)).2 = none →
            exec p.2 s = .next ((y.modCmd c.id fun e => { e with data := runRead y c (.glob (bits c.w1 55 0)) n }).modColl k
              fun sl => { sl with here := sl.here ++ [c.id] })) ∧
          (∀ f, beatWaits s c (sourceSteps c n) = false → d = 0 → again = false → (soundSteps y c (sourceSteps c n)).2 = some f →
            exec p.2 s = .next (finishCommand y c.id Stat.none_ (some f)))) ∧
      (∀ (s : State) (sl : Collective), (∀ c ∈ contributors s sl, c.state = .running) ∧
        ∀ (r : Nat), (∀ c ∈ contributors s sl, rankOf s sl c.core ≠ some r) → tabFind (rankData s sl []) r = none) ∧
      (∀ (s : State) (slot : Nat) (remote : List (Nat × List Byte)),
        let sl := s.collOf slot
        let data := rankData s sl remote
        sl.valid = true → 0 < sl.nmem → (∀ r, r < sl.nmem → (tabFind data r).isSome = true) →
        ((contributors s sl).any fun c => beatWaits s c
          (resultSteps c (collectiveResult c sl.nmem ((rankOf s sl c.core).getD 0) data).1)) = false →
          exec (.collectiveContribution slot remote) s = .next
            (((contributors s sl).foldl (fun (s : State) c =>
              writeResult s c (collectiveResult c sl.nmem ((rankOf s sl c.core).getD 0) data).1
                (collectiveResult c sl.nmem ((rankOf s sl c.core).getD 0) data).2.1
                (collectiveResult c sl.nmem ((rankOf s sl c.core).getD 0) data).2.2) s).modColl slot fun sl =>
                  { sl with next := sl.next + 1, here := [] })) ∧
      (∀ (s : State) (slot : Nat),
        let sl := s.collOf slot
        let open_ := (missingRanks s sl).2
        sl.valid = true → open_ ≠ [] → sl.here ≠ [] ∨ (missingRanks s sl).1.length ≠ open_.length →
          ∃ r, r ∈ open_ ∧ exec (.collectiveTimeout slot) s = .next (abortCollective s.fresh.2 slot (rankEntry s.fresh.2 sl r / 2 ^ 16 % 2 ^ 11)))) ∧
  (
      (∀ (s s1 : State) (c : Command), ckptHead s = some c → readyHead s c.core 3 0x30 = some (s1, c) → canStart s1 c = true →
        let u := started s1 c
        (∀ es, ckptTable s c = .ok (false, es) → s.ckpt.records = [] → s.ckpt.cut = none →
          exec .ckpt s = .next { u with ckpt := { u.ckpt with cut := some (c.id, false) } }) ∧
        (∀ es, ckptTable s c = .ok (true, es) →
          let r := restoreEntries u c Stat.none_ es
          exec .ckptRestore s = .next (finishCommand r.1 c.id r.2.1 r.2.2)) ∧
        (∀ f, ckptTable s c = .error f → exec .ckpt s = .next (finishCommand u c.id Stat.none_ (some f)))) ∧
      (∀ (s : State) (id : Nat), s.ckpt.cut = some (id, false) →
        exec .ckptAllArrived s = .next { s with ckpt := { s.ckpt with cut := some (id, true) } }) ∧
      (∀ (s : State) (id d : Nat) (c : Command), s.ckpt.cut = some (id, false) → d < 2048 → d ≠ s.reg.devnum.toNat →
        s.reg.domain.getLsbD d = true → s.cmd? id = some c → c.state = .running →
          ∃ m, m < 2048 ∧ m ≠ s.reg.devnum.toNat ∧ s.reg.domain.getLsbD m = true ∧ exec .ckptTimeout s =
            .next (finishCommand { s.fresh.2 with ckpt := { s.ckpt with cut := none } } id Stat.none_ (some (5, BitVec.ofNat 64 m)))) ∧
      (∀ (s : State) (id : Nat) (c : Command), s.ckpt.cut = some (id, true) → s.cmd? id = some c → c.state = .running →
        (cutFixed s = false → exec .ckptResume s = .next s) ∧
        (∀ es s1 st, cutFixed s = true → ckptTable s c = .ok (false, es) → beatWaits s c (es.flatMap (saveSteps c)) = false →
          runSteps { s with ckpt := { s.ckpt with cut := none } } c (es.flatMap (saveSteps c)) Stat.none_ = (s1, st, none) →
          let s2 := finishCommand s1 id st none
          exec .ckptResume s = .next (startDrain s2 (bits c.w0 63 32) (es.flatMap (drainPieces s2 c))))) ∧
      (∀ (s : State), s.ckpt.cut = none → exec .ckptResume s = .next s ∧ exec .ckptAllArrived s = .next s) ∧
      (∀ (s : State) (off pa n : Nat) (rest : List (Nat × Nat × Nat)), s.ckpt.records = (off, pa, n) :: rest →
        bits s.ckpt.ctl 31 16 ≠ 0 → s.paused = false → s.flipWait pa = false → s.bankBusy pa = false →
        s.ckpt.ctl.getLsbD 11 = false → s.ckpt.ctl.getLsbD 12 = true →
        let v := settleArray s noThread pa
        let u := agentWrite v noThread (2 ^ 51 + (s.ckpt.hostBase.toNat + off) % 2 ^ 51) ((List.range n).map fun i => v.homeByte (pa + i))
        exec .ckptDrain s = .next { u with ckpt := { u.ckpt with
          drained := u.ckpt.drained + BitVec.ofNat 64 n, done := rest.isEmpty, records := rest } }))

/-! ## Operations of the memory system, the host, the launch engine and the package -/

/-- A refresh that is due is made where no read waits at the bank, postponed up to 8 times where one does, and then
forced on all 16 banks of the pseudo-channel; one due at a bank that is not yet free is owed (the model's choice, log
142); one that is owed is made up, and a refresh that ends frees its bank, which gives a host read that waits there
its line; a miss gives the waiting threads of the core their line (05_scalar R103, 07_memory R121, R126, R127). When a
refresh falls due and ends is log 6. -/
def Obligations.RefreshAndFills : Prop :=
  (∀ (s : State) (stack pc bank : Nat), stack < 16 → pc < 64 → bank < 16 →
    let b := bankKey stack pc bank
    ((s.bank b).busy = 0 → s.queuedRead b = false → exec (.refpbDue stack pc bank) s =
      .next ((s.setBank b { s.bank b with busy := 1 }).modHbm stack fun h => { h with pb := h.pb + 1 })) ∧
    ((s.bank b).busy = 0 → s.queuedRead b = true → (s.bank b).owed < 8 → exec (.refpbDue stack pc bank) s =
      .next ((s.setBank b { s.bank b with owed := (s.bank b).owed + 1 }).modHbm stack fun h => { h with post := h.post + 1 })) ∧
    ((s.bank b).busy ≠ 0 → s.queuedRead b = false → (s.bank b).owed < 8 → exec (.refpbDue stack pc bank) s =
      .next ((s.setBank b { s.bank b with owed := (s.bank b).owed + 1 }).modHbm stack fun h => h)) ∧
    ((s.bank b).busy = 0 → s.queuedRead b = true → 8 ≤ (s.bank b).owed → ∃ u, exec (.refpbDue stack pc bank) s = .next u ∧
      (∀ j, j < 16 → u.bank (bankKey stack pc j) = { owed := 0, busy := 2 }) ∧
      (tabGet Hbm.reset u.hbm stack).forced = (tabGet Hbm.reset s.hbm stack).forced + 1) ∧
    ((s.bank b).busy = 0 → 0 < (s.bank b).owed → s.queuedRead b = false → exec (.owedRefresh stack pc bank) s =
      .next ((s.setBank b { owed := (s.bank b).owed - 1, busy := 1 }).modHbm stack fun h => { h with pb := h.pb + 1 })) ∧
    ((s.bank b).busy = 1 → s.readers = [] →
      exec (.refreshEnd stack pc bank) s = .next (s.setBank b { s.bank b with busy := 0 })) ∧
    (∀ pa, (s.bank b).busy = 1 → s.readers = [(.host, pa)] → s.placeOf pa = .own → s.bankAt pa = b →
      exec (.refreshEnd stack pc bank) s =
        .next (hostReadLine { s.setBank b { s.bank b with busy := 0 } with readers := [] } pa)) ∧
    ((s.bank b).busy = 2 → s.readers = [] → ∃ u, exec (.refreshEnd stack pc bank) s = .next u ∧
      ∀ j, j < 16 → u.bank (bankKey stack pc j) = { s.bank (bankKey stack pc j) with busy := 0 })) ∧
  (∀ (s : State) (t pa : Nat) (f : Bool), keysRise s.threads = true → (t, s.thr t) ∈ s.threads → (s.thr t).loc = .slot →
    (s.thr t).status = .retry (.miss pa f) → s.isFar (pa / 64 * 64) = false →
    (s.placeOf (pa / 64 * 64) = .own → (s.bank (s.bankAt (pa / 64 * 64))).busy = 0) →
    (f = false → s.invalWaits (s.thr t).core (pa / 64 * 64) = false) →
    s.homeTainted (pa / 64 * 64) = false → s.poison.contains (pa / 64) = false →
    ∃ u, exec (.missFill (s.thr t).core pa f) s = .next u ∧ u.mem = s.mem ∧ (u.thr t).status = .ready ∧
      (u.thr t).regs = (s.thr t).regs ∧
      (f = false → u.cores = (s.fillLine (s.thr t).core (pa / 64 * 64)).cores) ∧
      (f = true → ∀ i, i < 64 → (tabFind (u.coreOf (s.thr t).core).l1i (pa / 64 * 64 + i)).isSome = true))

/-- The host's snoop of a host line takes the device's copies and its bytes reach memory; its access to this device's
memory is performed at the line's home, after a snoop in host bias, and a read gives the host the line as its home
holds it, or poison, or waits at a bank that is refreshed; a bias flip is taken up and completes when the losing
side's accesses have; a lost line is poisoned; a replay changes nothing and a port that is down gives up its traffic
(09_ordering R153, R154, 23_faults R340, 25_system R350, R351). The snoop before an access in host bias is log 120,
deduced. -/
def Obligations.HostAndLinks : Prop :=
  (∀ (s : State) (pa : Nat), s.flipWait pa = false → s.paused = false → snoopHeld s pa = false → s.isHost pa = true →
    exec (.hostSnoop pa none) s = .next (invalidateAll s (pa / 64 * 64) 64) ∧
    (∀ bs, inLine pa bs = true → exec (.hostSnoop pa (some bs)) s = .next (invalidateAll (hostWrite s pa bs) pa bs.length)) ∧
    (s.placeOf pa = .own → s.reg.phase = 4 →
      (s.bankBusy pa = false →
        exec (.hostCxlMemAccess pa none) s = .next (hostReadLine (invalidateAll s (pa / 64 * 64) 64) pa)) ∧
      (∀ bs, inLine pa bs = true →
        exec (.hostCxlMemAccess pa (some bs)) s = .next (invalidateAll (hostWrite s pa bs) pa bs.length)))) ∧
  (∀ (s : State) (pa : Nat) (bs : List Byte), s.placeOf pa = .own → s.reg.phase = 4 → s.flipWait pa = false → s.paused = false →
    s.isHost pa = false →
    (s.bankBusy pa = false → exec (.hostCxlMemAccess pa none) s = .next (hostReadLine s pa)) ∧
    (s.bankBusy pa = true → exec (.hostCxlMemAccess pa none) s = .next (s.waitAt .host pa)) ∧
    (inLine pa bs = true → ∃ u, exec (.hostCxlMemAccess pa (some bs)) s = .next u ∧ u.mem = memWrite s.mem pa bs ∧
      u.threads = s.threads ∧ u.poison = (if bs.length = 64 then s.poison.filter (· != pa / 64) else s.poison))) ∧
  (∀ (s : State) (pa : Nat), s.homeTainted pa = false → hostReadLine s pa = { s with
    hostRead := some (pa / 64 * 64, (List.range 64).map fun i => s.homeByte (pa / 64 * 64 + i), s.poison.contains (pa / 64)) }) ∧
  (∀ (s : State) (pa : Nat) (bs : List Byte), (hostWrite s pa bs).mem = memWrite s.mem pa bs ∧
    (hostWrite s pa bs).poison = (if bs.length = 64 then s.poison.filter (· != pa / 64) else s.poison)) ∧
  (∀ (s : State), s.reg.phase ≠ 15 → s.flipping = none → s.hostBias.contains (flipPage s) = !s.reg.biasReg.getLsbD 1 →
    exec .biasFlip s = .next { s with
      flipping := some (flipPage s, s.reg.biasReg.getLsbD 1), reg := { s.reg with biasReg := s.reg.biasReg ||| 1 } }) ∧
  (∀ (s : State) (p : Nat), pageBusy s p = false →
    (s.flipping = some (p, false) → exec .biasFlipComplete s = .next { s with
      flipping := none, cmds := s.cmds.map fun (c : Command) => { c with held := c.held.filter fun h => !h.touches p }
      hostBias := s.hostBias.filter (· != p), reg := { s.reg with biasReg := s.reg.biasReg &&& ~~~(1 : Word) } }) ∧
    (s.flipping = some (p, true) → deferredAny s (p * 4096) 4096 = false →
      let u := invalidateAll s (p * 4096) 4096
      exec .biasFlipComplete s = .next { u with
        flipping := none, cmds := u.cmds.map fun (c : Command) => { c with held := c.held.filter fun h => !h.touches p }
        hostBias := addNew p u.hostBias, reg := { u.reg with biasReg := u.reg.biasReg &&& ~~~(1 : Word) } })) ∧
  (∀ (s : State) (pa : Nat), s.placeOf pa = .own → s.hostBias.contains (pa / 4096) = true →
    exec (.hostAgentFailure pa) s = .next { s with poison := addNew (pa / 64) s.poison }) ∧
  (∀ (s : State) (port : Nat), exec (.flitCrcReplay port) s = .next s ∧
    (port < 12 → exec (.portDown port) s =
      .next { s with reg := { s.reg with portsDown := s.reg.portsDown ||| BitVec.ofNat 12 (2 ^ port) } }))

/-- A record whose stamp is its number plus 1 is accepted, another is fetched again, and after 64 times QUEUE code 1
is taken; the first record that can be placed is placed, and a thread of it starts with the record's entry, arguments
and index; a completed launch counts in QDONE and writes its completion word (21_scheduling R297 to R304). The queue's
registers: QTAIL takes 32 bits; QBASE and QSIZE are written only while the queue is not resident and has no record
outstanding, and then the counts start from QTAIL; a queue that is switched out keeps its counts and gets its
completions when it is switched in; CLEAR drops the code and reads the unplaced records again, with SKIP from the next
record on (21_scheduling R297, R300, R304). How CLEAR treats fetched records is log 103, deduced. -/
def Obligations.LaunchEngineAndQueues : Prop :=
  (
      (∀ (s : State) (q : Nat), fetchable s q = true →
        let k := s.queueOf q
        let pa := recordPa s k k.fetchNext
        let ws := wordsOf (memRead s.mem pa 128)
        s.flipWait pa = false → s.bankBusy pa = false → s.bankBusy (pa + 64) = false →
        s.homeTainted pa = false → s.homeTainted (pa + 64) = false →
        s.poison.contains (pa / 64) = false → s.poison.contains (pa / 64 + 1) = false →
        let kept := s.modQueue q fun k => { k with fetched := k.fetched ++ [(k.fetchNext.toNat, ws)], fetchNext := k.fetchNext + 1, tries := 0 }
        let again := s.modQueue q fun k => { k with tries := k.tries + 1 }
        let good := bits (ws.getD 15 0) 63 32 = (k.fetchNext + 1).toNat
        (k.tries = 0 → good → exec (.recordFetch q) s = .next (checkHead kept q)) ∧
        (k.tries = 0 → ¬ good → exec (.recordFetch q) s = .next again) ∧
        (k.tries ≠ 0 → good → exec (.recordRefetch q) s = .next (checkHead kept q)) ∧
        (k.tries ≠ 0 → k.tries < 64 → ¬ good → exec (.recordRefetch q) s = .next again) ∧
        (64 ≤ k.tries → ¬ good → k.fetched = [] → exec (.recordRefetch q) s = .next (queueError s q 1 k.fetchNext))) ∧
      (∀ (s : State),
        let s1 := (List.range 64).foldl checkHead s
        ∀ k r, (serviceOrder s1).find? (fun q => canPlace s1 q.2) = some (k, r) → exec .launchPlacement s = .next (placeRecord s1 k r)) ∧
      (∀ (s : State) (r : LRec) (ts : Option TaskList) (i : Nat),
        let g := startRegs s r ts i
        g.pc = r.entry ∧ g.getX 10 = r.args ∧ g.getX 11 = BitVec.ofNat 64 i ∧ g.smode = false ∧ g.csr.chunkLen = r.chunkLen ∧
          g.csr.launchkey = r.key ∧ g.csr.stealdom = r.stealdom ∧ g.tasks = ts ∧ g.marks = []) ∧
      (∀ (s : State) (l : Nat) (la : Launch), tabFind s.launches l = some la → launchDone s l = true → s.paused = false →
        la.doneAddr = 0 → exec (.launchComplete l) s = .next (forgetLaunch (s.modQueue la.queue fun q =>
          if q.out then { q with outDone := q.outDone + 1 } else { q with qdone := q.qdone + 1 }) l)) ∧
      (∀ (s : State) (l pa : Nat) (la : Launch), tabFind s.launches l = some la → launchDone s l = true → s.paused = false →
        la.doneAddr ≠ 0 → engineTranslate s true .store la.doneAddr.toNat = .ok pa → s.inAlias pa = false → s.isFar pa = false →
        exec (.launchComplete l) s = .next (forgetLaunch ((homeWrite s noThread none pa (leBytes 8 (completionWord s l).toNat)).modQueue
          la.queue fun q => if q.out then { q with outDone := q.outDone + 1 } else { q with qdone := q.qdone + 1 }) l))) ∧
  (
      ∀ (s : State) (q : Nat), q < 64 → s.reg.phase ≠ 15 →
        let k := s.queueOf q
        (∀ v, exec (.qtailWrite q v) s = .next (s.modQueue q fun k => { k with qtail := v.setWidth 32 })) ∧
        (∀ v, k.res = false → k.qdone = k.qtail →
          exec (.queueConfigWrite q true v) s = .next (s.modQueue q fun _ => { k with
            qsize := Nat.min 16 (bits v 4 0), qhead := k.qtail, qdone := k.qtail, fetchNext := k.qtail, fetched := [], tries := 0 }) ∧
          exec (.queueConfigWrite q false v) s = .next (s.modQueue q fun _ => { k with
            qbase := v &&& 0xFFFFFFFF80, qhead := k.qtail, qdone := k.qtail, fetchNext := k.qtail, fetched := [], tries := 0 })) ∧
        (∀ size v, k.res = true ∨ k.qdone ≠ k.qtail → exec (.queueConfigWrite q size v) s = .next s) ∧
        (k.res = true → ∃ u, exec (.queueSwitchOut q) s = .next u ∧ u.queueOf q = { k with res := false, out := true }) ∧
        (k.res = false → ∃ u, exec (.queueSwitchIn q) s = .next u ∧
          u.queueOf q = { k with res := true, out := false, qdone := k.qdone + BitVec.ofNat 32 k.outDone, outDone := 0 }) ∧
        (k.stopped = true →
          (∃ u, exec (.queueClear q) s = .next u ∧ u.queueOf q = { k with code := 0, fetched := [], fetchNext := k.qhead, tries := 0 }) ∧
          ∃ u, exec (.queueClearSkip q) s = .next u ∧
            u.queueOf q = { k with code := 0, qhead := k.qhead + 1, fetched := [], fetchNext := k.qhead + 1, tries := 0 }) ∧
        (k.stopped = false →
          (∃ u, exec (.queueClear q) s = .next u ∧ u.queueOf q = { k with code := 0 }) ∧
          ∃ u, exec (.queueClearSkip q) s = .next u ∧ u.queueOf q = { k with code := 0 }))

/-- A settled thread that is asked to leave goes to the TCC, with its registers, as the youngest of the four contexts
there; a runnable context enters a free slot of its kind on its core; slots are disabled from 15 down, their thread
asked to leave, and enabled in the reverse order; the TCC is flushed; a committed TMARK acts on its operation
(21_scheduling R316 to R321, 27_debug R374). -/
def Obligations.ContextMoves : Prop :=
  (∀ (s : State) (t : Nat), (s.thr t).loc = .slot → (s.thr t).cutReq = some .preempt → (s.coreOf (s.thr t).core).halted = false →
    s.partner t = none → (s.thr t).regs.inRewrite = false → (s.thr t).older = none → (∀ u, (s.thr t).status ≠ .retry (.ctx u)) →
    ((s.thr t).chunk.count ≠ 0 → settled (s.cutChunk t 15) t = false → exec (.preemption t) s = .next (s.cutChunk t 15)) ∧
    ((s.thr t).chunk.count = 0 → (s.thr t).results = [] → (s.coreOf (s.thr t).core).disabled.getLsbD (s.thr t).slot = false →
      exec (.preemption t) s = .next (toTcc (s.cutChunk t 15) t (noWait ((s.cutChunk t 15).thr t))))) ∧
  (∀ (s : State) (t k : Nat), (s.thr t).loc = .tcc → restorable s t = true → s.outPartner t = none → s.reg.d3hot = false →
    let core := (s.thr t).core
    recordAwaits s (s.launchOf (s.thr t).lid).prio core = false → s.reg.gated.contains (clusterOf core) = false →
    (s.coreOf core).disabled.getLsbD (s.thr t).slot = false → s.slotFor core (s.thr t).tile = some k →
    (s.coreOf core).flips = [] → (s.thr t).regs.opt.on = false →
      exec (.contextRestore t) s = .next (intoSlot s t core k)) ∧
  (∀ (s : State) (t : Nat) (run : Bool), let core := (s.thr t).core
    (∀ e ∈ (s.coreOf core).tcc, e.1 ≠ t) →
    ((toTcc s t run).thr t).loc = .tcc ∧ ((toTcc s t run).thr t).regs = (s.thr t).regs ∧
    ((toTcc s t run).thr t).runnable = run ∧ ((toTcc s t run).thr t).core = core ∧ ((toTcc s t run).thr t).halted = false ∧
    ((toTcc s t run).coreOf core).tcc = ((s.coreOf core).tcc ++ [(t, true)]).drop ((s.coreOf core).tcc.length - 3) ∧
    (toTcc s t run).token ≠ some t) ∧
  (∀ (s : State) (t core slot : Nat), ((intoSlot s t core slot).thr t).loc = .slot ∧ ((intoSlot s t core slot).thr t).core = core ∧
    ((intoSlot s t core slot).thr t).slot = slot ∧ ((intoSlot s t core slot).thr t).regs = (s.thr t).regs ∧
    (intoSlot s t core slot).mem = s.mem) ∧
  (∀ (s : State) (core slot : Nat), core < Config.coreCount → slot < 16 →
    ((s.coreOf core).disabled.getLsbD slot = false → (∀ i, slot < i → i < 16 → (s.coreOf core).disabled.getLsbD i = true) →
      ∃ u, exec (.slotDisable core slot) s = .next u ∧ (u.coreOf core).disabled.getLsbD slot = true ∧ u.mem = s.mem ∧
        ∀ t, s.inSlot core slot = some t → (u.thr t).cutReq = some .preempt) ∧
    ((s.coreOf core).disabled.getLsbD slot = true → (∀ i, i < slot → (s.coreOf core).disabled.getLsbD i = false) →
      ∃ u, exec (.slotEnable core slot) s = .next u ∧ (u.coreOf core).disabled.getLsbD slot = false ∧ u.mem = s.mem ∧
        u.threads = s.threads)) ∧
  (∀ (s : State) (core : Nat), exec (.tccFlush core) s = .next (s.flushTcc core) ∧
    ∀ e ∈ ((s.flushTcc core).coreOf core).tcc, e.2 = false) ∧
  (∀ (s : State) (t : Nat) (v : Word), (s.thr t).loc = .slot →
    (bits v 63 60 = 1 → exec (.tmarkStart t v) s = .next (applyTmark s t v)) ∧
    (bits v 63 60 = 2 → exec (.tmarkStop t v) s = .next (applyTmark s t v)) ∧
    (bits v 63 60 ≠ 1 → bits v 63 60 ≠ 2 → exec (.tmarkMark t v) s = .next (applyTmark s t v)))

/-- The debug modules: a halt stops a core without threads at once and a thread at its boundary, with its chunk cut; a
resume clears the halt; DMDATA reads and writes the selected register, and DMMEM the selected thread's memory, or the
access fails and DMERR says so; TRRDPTR moves within the packets written; the domain's own bit stays 1 (25_system
R352, 27_debug R364 to R367, R372). What clears DMERR is log 112, deduced. -/
def Obligations.DebugModules : Prop :=
  (∀ (s : State) (k : Nat),
    (k < 168 → s.reg.phase ≠ 15 → exec (.debugHalt k) s = .next (haltCluster s k)) ∧
    (((haltModule s k).debugOf k).whistle = false → haltCluster s k = haltModule s k) ∧
    haltModule s k = (debugCores s k).foldl haltCore (s.modDebug k fun d => { d with halt := true })) ∧
  (∀ (s : State) (core : Nat), (s.resident.filter fun p => p.2.core == core) = [] → (s.coreOf core).halted = false →
    haltCore s core = s.modCore core fun c => { c with halted := true }) ∧
  (∀ (s : State) (t : Nat), (s.thr t).loc = .slot → (s.thr t).halted = false → (s.coreOf (s.thr t).core).halted = true →
    (s.thr t).regs.inRewrite = false → (s.thr t).chunk.count = 0 ∨ (s.thr t).older = none →
    (∀ u, (s.thr t).status ≠ .retry (.ctx u)) →
      let u := (s.cutChunk t 19).modThr t fun th => { th with halted := true }
      haltThread s t = flushCommits (flushLog (logChange u t) t) t) ∧
  (∀ (s : State) (k : Nat), k < 168 → s.reg.phase ≠ 15 → (∀ c ∈ clusterCores k, (s.resident.filter fun p => p.2.core == c) = []) →
    ∃ u, exec (.debugResume k) s = .next u ∧ (u.debugOf k).halt = false ∧ u.mem = s.mem ∧ u.threads = s.threads ∧
      ∀ c ∈ clusterCores k, (u.coreOf c).halted = false) ∧
  (∀ (s : State) (k t : Nat), s.reg.phase ≠ 15 → selectedThread s k = some t →
    (∀ (n : Reg), selectedReg s k = (0, n.toNat, 0) →
      exec (.dmdataRead k) s = .next (s.modDebug k fun d => { d with data := (s.thr t).regs.getX n, dmerr := false })) ∧
    (∀ (n : Reg) v, selectedReg s k = (0, n.toNat, 0) → n ≠ 0 → (s.thr t).older = none →
      ∃ u, exec (.dmdataWrite k v) s = .next u ∧ (u.thr t).regs.getX n = v ∧ (∀ r, r ≠ n → (u.thr t).regs.getX r = (s.thr t).regs.getX r) ∧
        u.mem = s.mem ∧ (u.debugOf k).dmerr = false) ∧
    (∀ n w v, selectedReg s k = (0, n, w) → 32 ≤ n ∨ 1 ≤ w →
      exec (.dmdataRead k) s = .next (s.modDebug k fun d => { d with data := 0, dmerr := true }) ∧
      exec (.dmdataWrite k v) s = .next (s.modDebug k fun d => { d with dmerr := true }))) ∧
  (∀ (s : State) (k : Nat) (v : Word), s.reg.phase ≠ 15 → selectedThread s k = none →
    exec (.dmdataRead k) s = .next (s.modDebug k fun d => { d with data := 0, dmerr := true }) ∧
    exec (.dmdataWrite k v) s = .next (s.modDebug k fun d => { d with dmerr := true }) ∧
    exec (.dmmemRead k) s = .next (s.modDebug k fun d => { d with mem := 0, dmerr := true }) ∧
    exec (.dmmemWrite k v) s = .next (s.modDebug k fun d => { d with dmerr := true })) ∧
  (∀ (s : State) (k t pa : Nat) (v : Word), s.reg.phase ≠ 15 →
    (debugPa s k .load = .ok (t, pa) → s.poison.contains (pa / 64) = false → (s.debugOf k).view = false →
      exec (.dmmemRead k) s = .next (s.modDebug k fun d => { d with
        mem := BitVec.ofNat 64 (leNat ((List.range 8).map fun i => s.homeByte (pa + i))), dmerr := false })) ∧
    (debugPa s k .store = .ok (t, pa) → (s.debugOf k).view = false →
      exec (.dmmemWrite k v) s = .next ((agentWrite s noThread pa (leBytes 8 v.toNat)).modDebug k fun d => { d with
        mem := v, dmerr := false })) ∧
    (debugPa s k .load = .error true → exec (.dmmemRead k) s = .next s) ∧
    (debugPa s k .store = .error true → exec (.dmmemWrite k v) s = .next s) ∧
    (debugPa s k .store = .error false → exec (.dmmemWrite k v) s = .next (s.modDebug k fun d => { d with dmerr := true }))) ∧
  (∀ (s : State) (v : Word), s.reg.phase ≠ 15 →
    ((v.setWidth 32 - s.trace.rdptr).toNat ≤ (s.trace.wrptr - s.trace.rdptr).toNat → s.trace.owed = 0 → s.trace.buf = [] →
      exec (.trrdptrWrite v) s = .next { s with trace := { s.trace with rdptr := v.setWidth 32 } }) ∧
    ((s.trace.wrptr - s.trace.rdptr).toNat < (v.setWidth 32 - s.trace.rdptr).toNat → exec (.trrdptrWrite v) s = .next s)) ∧
  (∀ (s : State) (i : Nat) (v : Word), i < 32 → s.reg.phase ≠ 15 →
    (∀ d, d < 64 → s.reg.domain.getLsbD (64 * i + d) = true → v.getLsbD d = true ∨ 64 * i + d = s.reg.devnum.toNat) →
    ∃ u, exec (.domainMembershipWrite i v) s = .next u ∧ u.reg.domain.getLsbD s.reg.devnum.toNat = true ∧
      (∀ d, d < 64 → 64 * i + d ≠ s.reg.devnum.toNat → u.reg.domain.getLsbD (64 * i + d) = v.getLsbD d) ∧
      (∀ d, d / 64 ≠ i → d ≠ s.reg.devnum.toNat → u.reg.domain.getLsbD d = s.reg.domain.getLsbD d) ∧ u.mem = s.mem)

/-- A freeze stops every clock, with HBM in self-refresh; a warm reset keeps this device's HBM and its poison and a
cold reset does not, CSP reads zero after both and no thread is left; BOOT goes through its phases, applies the
configuration at phase 1 and the offline cores at phase 3 and is ready, or stays in recovery; PWRCAP stores its cap
between 800 and 3,200 or 0; the clock falls by 100 MHz to 1,200; clusters without a launch can be gated, which takes
the copies that its home holds out of the other cores (R341), and wake again; D3hot needs every thread out of its slot
(27_debug R376 to R378). While the package is frozen no step but a reset changes anything but the agenda (27_debug
R376). What a reset keeps is log 118, how a throttle picks its core log 110, how D3hot begins log 119, what BOOT sets
of the pool log 31, and that a flash write changes the window alone log 51, the model's readings. -/
def Obligations.FreezeResetAndPower : Prop :=
  (
      (∀ (s : State), exec .freezeSignal s = .next { s with reg := { s.reg with frozen := true, selfRefresh := true } } ∧
        (s.reg.phase ≠ 15 →
          exec (.freezeRegisterWrite 0x46A5) s = .next { s with reg := { s.reg with frozen := true, selfRefresh := true } }) ∧
        ∀ v, v ≠ 0x46A5 → exec (.freezeRegisterWrite v) s = .next s) ∧
      (∀ (s : State), ∃ u, exec .warmReset s = .next u ∧ u.threads = [] ∧ u.launches = [] ∧ u.cores = [] ∧ u.poison = s.poison ∧
        u.reg.frozen = false ∧ u.reg.phase = 0 ∧ u.reg.flash = s.reg.flash ∧
        u.reg.domain = BitVec.ofNat 2048 (2 ^ s.reg.devnum.toNat) ∧
        (Memory.wf s.mem = true → (∀ a, a < 2 ^ 55 → memGet u.mem a = memGet s.mem a) ∧ ∀ a, 2 ^ 55 ≤ a → memGet u.mem a = 0)) ∧
      (∀ (s : State), ∃ u, exec .coldReset s = .next u ∧ u.threads = [] ∧ u.launches = [] ∧ u.cores = [] ∧
        u.reg.frozen = false ∧ u.reg.phase = 0 ∧ u.reg.flash = s.reg.flash ∧
        (Memory.wf s.mem = true → (∀ a, a < 2 ^ 55 → s.placeOf a = .own → memGet u.mem a = 0) ∧
          (∀ a, a < 2 ^ 55 → s.placeOf a ≠ .own → memGet u.mem a = memGet s.mem a) ∧ ∀ a, 2 ^ 55 ≤ a → memGet u.mem a = 0)) ∧
      (∀ (s : State) (ldb : BitVec 4) (c : BootConfig) (e r : Bool) (off : List Nat),
        (s.reg.phase = 0 → exec (.boot ldb c e r off) s = .next { s with reg := { s.reg with phase := 1 } }) ∧
        (s.reg.phase = 1 → exec (.boot ldb c e true off) s = .next { s with reg := { s.reg with phase := 15 } }) ∧
        (s.reg.phase = 1 → ldb.toNat ≤ 8 → exec (.boot ldb c e false off) s = .next { s with reg := { s.reg with
          phase := 2, ldb := ldb, devnum := c.devnum, imgErr := e, farto := c.farto, barto := c.barto, poolBase := c.poolBase
          poolSize := c.poolSize, domain := BitVec.ofNat 2048 (2 ^ c.devnum.toNat) } }) ∧
        (s.reg.phase = 2 → exec (.boot ldb c e r off) s = .next { s with reg := { s.reg with phase := 3 } }) ∧
        (s.reg.phase = 3 → exec (.boot ldb c e r off) s = .next { s with reg := { s.reg with
          phase := 4, offline := (off.filter fun c => decide (c < Config.coreCount)).eraseDups } })) ∧
      (∀ (s : State) (off : Nat) (v : Word), off < 65536 → off % 8 = 0 →
        exec (.flashWindowWrite off v) s = .next { s with reg := { s.reg with flash := tabSet s.reg.flash off v } }) ∧
      (∀ (s : State) (v : Word), s.reg.phase ≠ 15 →
        let c := bits v 15 0
        ∃ u, exec (.pwrcapWrite v) s = .next u ∧ u = { s with reg := { s.reg with cap := u.reg.cap } } ∧
          (c = 0 → u.reg.cap = 0) ∧ (c ≠ 0 → c < 800 → u.reg.cap = 800) ∧ (3200 < c → u.reg.cap = 3200) ∧
          (800 ≤ c → c ≤ 3200 → u.reg.cap.toNat = c)) ∧
      (∀ (s : State),
        (1200 < s.reg.clk.toNat → exec .powerThrottle s = .next { s with reg := { s.reg with clk := s.reg.clk - 100 } }) ∧
        (s.reg.clk.toNat ≤ 1200 → ∃ core, core < Config.coreCount ∧
          (∀ i, topSlot s.fresh.2 core = some i → exec .powerThrottle s = .next (disableSlot s.fresh.2 core i)) ∧
          (topSlot s.fresh.2 core = none → exec .powerThrottle s = .next s.fresh.2))) ∧
      (∀ (s : State) (k : Nat), k < 168 → s.onCluster k = [] →
        let waits := s.invals.any (fun v => v.home == k) || (hostLinesAt s k).any fun l => deferredAny s (l * 64) 64
        (waits = true → exec (.clusterPowerGate k) s = .next s) ∧
        (waits = false →
          let v := dropCopies ((hostLinesAt s k).foldl (fun s l => invalidateAll s (l * 64) 64) s) (clusterCores k)
          exec (.clusterPowerGate k) s = .next { v with reg := { v.reg with gated := addNew k v.reg.gated } } ∧
          (s.trace.en = false → v.mem = s.mem) ∧ tabFind v.ctlbs k = none ∧
          ∀ c ∈ clusterCores k, (v.coreOf c).l1 = [] ∧ (v.coreOf c).l1i = [] ∧ (v.coreOf c).tlb = [])) ∧
      (∀ (s : State) (k : Nat), s.reg.d3hot = false →
        exec (.clusterWake k) s = .next { s with reg := { s.reg with gated := s.reg.gated.filter (· != k) } }) ∧
      (∀ (s : State),
        (s.resident ≠ [] → exec .d3hotEntry s = .next (s.resident.foldl (fun s p => askPreempt s p.1) s)) ∧
        (s.resident = [] → ∃ u, exec .d3hotEntry s = .next u ∧ u.reg.d3hot = true ∧ u.reg.selfRefresh = true ∧
          u.reg.gated = List.range 168 ∧ u.resident = [] ∧ ∀ p ∈ u.threads, p.2.loc ≠ .tcc) ∧
        (s.reg.d3hot = true → exec .d3hotExit s =
          .next { s with reg := { s.reg with d3hot := false, selfRefresh := false, gated := [] } }))) ∧
  (
      ∀ (s t : State), s.reg.frozen = true → step s = .next t →
        (s.agenda.head? = some (.event .warmReset) ∨ s.agenda.head? = some (.event .coldReset)) ∨
          t = { s with agenda := s.agenda.tail })

/-! ## Reset, the step and the encoding -/

/-- What reset leaves: no thread, no launch, no request and nothing listed in memory; FARTO 10,000 and BARTO 100,000,
the clock at 2,400, PHASE 0; and a thread's registers start with the reset values of its CSRs, generators and tiles
(05_scalar R106, R108, 13_vector_tile R179, R196, 21_scheduling R314, 25_system R348, 27_debug R377, R378). That
memory lists nothing, so that every byte reads 0, is the model's choice, log 1. -/
def Obligations.ResetState : Prop :=
  let s := State.reset
  s.threads = [] ∧ s.launches = [] ∧ s.flights = [] ∧ s.requests = [] ∧ s.mem = [] ∧ Memory.wf s.mem = true ∧ s.poison = [] ∧
  s.hostBias = [] ∧ s.reg.farto = 10000 ∧ s.reg.barto = 100000 ∧ s.reg.jsatp = 0 ∧ s.reg.jstvec = 0 ∧ s.reg.phase = 0 ∧
  s.reg.clk = 2400 ∧ s.reg.cap = 0 ∧ s.reg.frozen = false ∧ s.trace.size = 0 ∧ s.reg.offline = [] ∧ s.reg.offClusters = [] ∧
  (∀ k, (s.queueOf k).res = false ∧ (s.queueOf k).qtail = 0) ∧ (∀ r, (s.regionOf r).valid = false) ∧
  let c := Regs.reset.csr
  c.cbwin = 0xF0 ∧ c.squashmax = 4 ∧ c.vtype = 7 ∧ c.chunkLen = 4096 ∧ c.chunkCur = 4096 ∧ c.vshare = 1 ∧ c.waitswap = 4096 ∧
  c.sstatus = 0 ∧ c.nflags = 0 ∧ c.nctl = false ∧ c.batchno = 0 ∧ c.errsel = 0 ∧
  (∀ i : Fin 8, c.tshape[i] = 0x3FF7 ∧ c.tsat[i] = 0 ∧ Regs.reset.tl[i] = ⟨0, 0⟩ ∧ Regs.reset.g[i] = 0) ∧
  (∀ i : Fin 4, Regs.reset.ta[i] = 0)

/-- A step at which a thread's instruction stands at its turn executes it: the bytes that the fetch gives decode to an
instruction, and the step is that instruction's exec, with the counters of a completed instruction, the values of code
that the move changed and the state records after it; a word that stands for no instruction traps with cause 2 and its
bits; a fetch that is stopped brings what its stop brings; a thread whose vector queue is full is not ready; an
operation of the agenda is its exec; in bare mode the fetch of a word that the instruction cache holds, and that
nothing has changed, gives it (01_machine R24, 03_encoding R48, 05_scalar R103, 13_vector_tile R182, 23_faults R332).
The agenda that says whose turn it is is the model's own, log 5, and which copy a fetch meets is log 11. -/
def Obligations.StepRunsDecodedInstruction : Prop :=
  (∀ (s f : State) (t w : Nat) (rest : List Move), s.agenda = .issue t :: rest → s.reg.frozen = false →
    let s0 := { s with agenda := rest }
    let s1 := { s0 with cur := t }
    s1.live = true → boundary s1 t = none → (s.thr t).nextIssue ≤ s.cycle → traceStalls s1 (s.thr t) = false →
    tokenWaits s1 (s.thr t) = false → s1.vecFull = false → (∀ v, (s.thr t).status ≠ .wait v) → (s.thr t).status ≠ .retry .token →
    (∀ h, (s.thr t).status = .retry (.held h) → holdOver s1 t h = true) →
    (fetchWord s1 = .ok (f, w) →
      (∀ i, decode (BitVec.ofNat 32 w) = .ok i → markStalls f i = false →
        step s = thenDo (exec i f) fun u => settleMove s0 (afterIssue f t i u)) ∧
      (∀ e, decode (BitVec.ofNat 32 w) = .error e → step s = .next (settleMove s0 (takeTrap f 2 (BitVec.ofNat 64 w))))) ∧
    (∀ e, fetchWord s1 = .error e → step s = .next (settleMove s0 (applyStop s1 e)))) ∧
  (∀ (s : State) (t : Nat) (rest : List Move), s.agenda = .issue t :: rest → s.reg.frozen = false →
    let s0 := { s with agenda := rest }
    let s1 := { s0 with cur := t }
    s1.live = true → boundary s1 t = none → (s.thr t).nextIssue ≤ s.cycle → traceStalls s1 (s.thr t) = false →
    tokenWaits s1 (s.thr t) = false → s1.vecFull = true → (s.thr t).status = .ready →
      step s = .next (settleMove s0 (s1.stall .vecQueue))) ∧
  (∀ (s : State) (i : Instr) (rest : List Move), s.agenda = .event i :: rest → s.reg.frozen = false →
    let s0 := { s with agenda := rest }
    step s = thenDo (exec i s0) (settleMove s0)) ∧
  (∀ (s : State), s.pc.toNat % 4 = 0 → s.pc.toNat < 2 ^ 52 → bits s.who.satp 63 60 = 0 → reachable s s.who s.pc.toNat = true →
    s.flipWait s.pc.toNat = false → s.poisonedFor s.pc.toNat = false → s.isFar s.pc.toNat = false →
    ((s.coreOf s.th.core).flips.any fun f => f.array == 1 && f.addr / 64 == s.pc.toNat / 64) = false →
    codePresent s s.pc.toNat = true → ∀ w, codeWords s s.pc.toNat = [w] → ∃ f, fetchWord s = .ok (f, w))

/-- Words written out from the encoding tables stand for the instructions that the tables name: WAITB.P 1, ENGQ, VLD,
SEND, RECVT.P, IXPOP, IXRULE, SPAWN, TAKE.P and TNEW. -/
def Obligations.WordsDecode : Prop :=
  (∃ p n, decode 0x8A10000B = .ok (.waitb p n) ∧ p = true ∧ n = 1) ∧ (∃ p d a, decode 0x1003038B = .ok (.engq p d a)) ∧
  (∃ p g d a, decode 0x1005422B = .ok (.vld p g d a)) ∧ (∃ p a b, decode 0x0035300B = .ok (.send p a b)) ∧
  (∃ d, decode 0x8800320B = .ok (.recvt true d)) ∧ (∃ d, decode 0x0000450B = .ok (.ixpop false d)) ∧
  (∃ a b, decode 0x0AB5400B = .ok (.ixrule false a b)) ∧ (∃ a b, decode 0x00B5200B = .ok (.spawn false a b)) ∧
  (∃ d, decode 0x8400250B = .ok (.take true d)) ∧ ∃ d a b, decode 0x06E6A60B = .ok (.tnew false d a b)

/-- Decoding the encoded word of a well-formed instruction gives the instruction back, with every operand at every
value. -/
def Obligations.DecodeEncode : Prop :=
  ∀ (i : Instr) (w : Inst), encode? i = some w → i.wf = true → decode w = .ok i

/-- Every step keeps memory in its canonical form: addresses strictly rising and no byte of 0 listed. The form is the
model's own, log 1. -/
def Obligations.MemoryStaysCanonical : Prop :=
  ∀ (s t : State), Memory.wf s.mem = true → step s = .next t → Memory.wf t.mem = true
end

