-- ==== Sys2Proof/Laws/Memory.lean ====
section
/-!
SUPPORT. Tables and memory: a read after a write, and the canonical form that every write keeps.
-/
namespace Sys2Proof.Machine

variable {α : Type}

/-! ## Reading after writing -/

theorem tabGet_tabSet (d : α) (m : List (Nat × α)) (a : Nat) (w : α) (b : Nat) :
    tabGet d (tabSet m a w) b = if a = b then w else tabGet d m b := by
  induction m with
  | nil => simp [tabSet, tabGet]
  | cons p m ih =>
    obtain ⟨k, v⟩ := p
    simp only [tabSet]
    split
    · simp [tabGet]
    · split
      · rename_i h; subst h; by_cases h : a = b <;> simp [tabGet, h]
      · by_cases h : k = b
        · subst h; simp_all [tabGet]
        · simp [tabGet, h, ih]

@[simp] theorem tabGet_tabSet_same (d : α) (m : List (Nat × α)) (a : Nat) (w : α) : tabGet d (tabSet m a w) a = w := by
  simp [tabGet_tabSet]

theorem tabGet_tabSet_other (d : α) (m : List (Nat × α)) {a b : Nat} (w : α) (h : a ≠ b) :
    tabGet d (tabSet m a w) b = tabGet d m b := by simp [tabGet_tabSet, h]

theorem tabFind_tabSet (m : List (Nat × α)) (a : Nat) (w : α) (b : Nat) :
    tabFind (tabSet m a w) b = if a = b then some w else tabFind m b := by
  induction m with
  | nil => simp [tabSet, tabFind]
  | cons p m ih =>
    obtain ⟨k, v⟩ := p
    simp only [tabSet]
    split
    · simp [tabFind]
    · split
      · rename_i h; subst h; by_cases h : a = b <;> simp [tabFind, h]
      · by_cases h : k = b
        · subst h; simp_all [tabFind]
        · simp [tabFind, h, ih]

/-- Keys rise strictly, from a bound on. -/
def Rises (n : Nat) : List (Nat × α) → Prop
  | [] => True
  | (k, _) :: m => n ≤ k ∧ Rises (k + 1) m

theorem Rises.mono {n m : Nat} {l : List (Nat × α)} (h : Rises n l) (hm : m ≤ n) : Rises m l := by
  cases l with
  | nil => trivial
  | cons p l => exact ⟨Nat.le_trans hm h.1, h.2⟩

theorem rises_of_keysRise : ∀ {l : List (Nat × α)}, keysRise l = true → Rises 0 l
  | [], _ => trivial
  | [_], _ => ⟨Nat.zero_le _, trivial⟩
  | (a, _) :: (b, w) :: m, h => by
    simp only [keysRise, Bool.and_eq_true, decide_eq_true_eq] at h
    have := rises_of_keysRise (l := (b, w) :: m) h.2
    exact ⟨Nat.zero_le _, h.1, this.2⟩

theorem keysRise_of_rises {n : Nat} : ∀ {l : List (Nat × α)}, Rises n l → keysRise l = true
  | [], _ => rfl
  | [_], _ => rfl
  | (a, _) :: (b, w) :: m, h => by
    simp only [keysRise, Bool.and_eq_true, decide_eq_true_eq]
    exact ⟨h.2.1, keysRise_of_rises (n := b) ⟨Nat.le_refl _, h.2.2⟩⟩

theorem keysRise_iff {l : List (Nat × α)} : keysRise l = true ↔ Rises 0 l :=
  ⟨rises_of_keysRise, keysRise_of_rises⟩

theorem Rises.tabSet {n : Nat} : ∀ {l : List (Nat × α)}, Rises n l → ∀ (a : Nat) (w : α), n ≤ a → Rises n (tabSet l a w)
  | [], _, _, _, h => ⟨h, trivial⟩
  | (k, v) :: m, hl, a, w, h => by
    simp only [Machine.tabSet]
    split
    · exact ⟨h, by omega, hl.2⟩
    · split
      · subst_vars; exact hl
      · exact ⟨hl.1, Rises.tabSet hl.2 a w (by omega)⟩

theorem Rises.tabDel {n : Nat} : ∀ {l : List (Nat × α)}, Rises n l → ∀ a : Nat, Rises n (tabDel l a)
  | [], _, _ => trivial
  | (k, v) :: m, hl, a => by
    simp only [Machine.tabDel]
    split
    · exact hl.2.mono (by have := hl.1; omega)
    · exact ⟨hl.1, Rises.tabDel hl.2 a⟩

theorem tabGet_low (d : α) : ∀ {l : List (Nat × α)} {n a : Nat}, Rises n l → a < n → tabGet d l a = d
  | [], _, _, _, _ => rfl
  | (k, v) :: m, n, a, hl, h => by
    have : k ≠ a := by have := hl.1; omega
    simp only [tabGet, this, if_false]
    exact tabGet_low d hl.2 (by have := hl.1; omega)

theorem tabGet_tabDel (d : α) : ∀ {l : List (Nat × α)} {n : Nat}, Rises n l → ∀ a b : Nat,
    tabGet d (tabDel l a) b = if a = b then d else tabGet d l b
  | [], _, _, a, b => by simp [tabDel, tabGet]
  | (k, v) :: m, n, hl, a, b => by
    simp only [tabDel]
    split
    · rename_i ha
      subst ha
      by_cases h : k = b
      · subst h; simp [tabGet_low d hl.2 (Nat.lt_succ_self _)]
      · simp [tabGet, h]
    · by_cases h : k = b
      · subst h; simp_all [tabGet, eq_comm]
      · simp [tabGet, h, tabGet_tabDel d hl.2 a b]

/-! ## Memory -/

theorem Memory.wf_iff {m : Mem} : Memory.wf m = true ↔ Rises 0 m ∧ ∀ c ∈ m, c.2 ≠ 0 := by
  simp [Memory.wf, keysRise_iff]

theorem mem_tabSet {l : List (Nat × α)} {a : Nat} {w : α} {c : Nat × α} (h : c ∈ tabSet l a w) : c = (a, w) ∨ c ∈ l := by
  induction l with
  | nil => simp_all [tabSet]
  | cons p l ih =>
    obtain ⟨k, v⟩ := p
    simp only [tabSet] at h
    split at h
    · simpa using h
    · split at h
      · rcases List.mem_cons.mp h with h | h
        · exact .inl h
        · exact .inr (List.mem_cons_of_mem _ h)
      · rcases List.mem_cons.mp h with h | h
        · exact .inr (h ▸ List.mem_cons_self ..)
        · exact (ih h).imp id (List.mem_cons_of_mem _)

theorem mem_tabDel {l : List (Nat × α)} {a : Nat} {c : Nat × α} (h : c ∈ tabDel l a) : c ∈ l := by
  induction l with
  | nil => simp_all [tabDel]
  | cons p l ih =>
    obtain ⟨k, v⟩ := p
    simp only [tabDel] at h
    split at h
    · exact List.mem_cons_of_mem _ h
    · rcases List.mem_cons.mp h with h | h
      · exact h ▸ List.mem_cons_self ..
      · exact List.mem_cons_of_mem _ (ih h)

/-- A byte write keeps the canonical form. -/
theorem memSet_wf {m : Mem} (h : Memory.wf m = true) (a : Nat) (b : Byte) : Memory.wf (memSet m a b) = true := by
  rw [Memory.wf_iff] at h ⊢
  simp only [memSet]
  split
  · exact ⟨h.1.tabDel a, fun c hc => h.2 c (mem_tabDel hc)⟩
  · refine ⟨h.1.tabSet a b (Nat.zero_le _), fun c hc => ?_⟩
    rcases mem_tabSet hc with rfl | hc
    · assumption
    · exact h.2 c hc

/-- A write of bytes keeps the canonical form. -/
theorem memWrite_wf {m : Mem} (h : Memory.wf m = true) (a : Nat) (bs : List Byte) : Memory.wf (memWrite m a bs) = true := by
  induction bs generalizing m a with
  | nil => exact h
  | cons b bs ih => exact ih (memSet_wf h a b) (a + 1)

/-- A read after a byte write. -/
theorem memGet_memSet {m : Mem} (h : Memory.wf m = true) (a : Nat) (b : Byte) (c : Nat) :
    memGet (memSet m a b) c = if a = c then b else memGet m c := by
  rw [Memory.wf_iff] at h
  simp only [memSet, memGet]
  split
  · rw [tabGet_tabDel 0 h.1]; split <;> simp_all
  · exact tabGet_tabSet 0 m a b c

/-- A read after a write of bytes: the byte written, inside, and what stood there, outside. -/
theorem memGet_memWrite {m : Mem} (h : Memory.wf m = true) (a : Nat) (bs : List Byte) (c : Nat) :
    memGet (memWrite m a bs) c = if a ≤ c ∧ c < a + bs.length then bs.getD (c - a) 0 else memGet m c := by
  induction bs generalizing m a with
  | nil => have : ¬(a ≤ c ∧ c < a) := by omega
           simp [memWrite, this]
  | cons b bs ih =>
    rw [memWrite, ih (memSet_wf h a b), memGet_memSet h]
    simp only [List.length_cons]
    by_cases hc : a = c
    · subst hc
      have h1 : ¬(a + 1 ≤ a ∧ a < a + 1 + bs.length) := by omega
      have h2 : a ≤ a ∧ a < a + (bs.length + 1) := by omega
      rw [if_neg h1, if_pos h2]; simp
    · by_cases h3 : a + 1 ≤ c ∧ c < a + 1 + bs.length
      · have h4 : a ≤ c ∧ c < a + (bs.length + 1) := by omega
        have h5 : c - a = (c - (a + 1)) + 1 := by omega
        simp [h3, h4, h5]
      · have h4 : ¬(a ≤ c ∧ c < a + (bs.length + 1)) := by omega
        rw [if_neg h3, if_neg h4, if_neg hc]

/-- Memory right after reset is in the canonical form. -/
theorem reset_mem_wf : Memory.wf State.reset.mem = true := rfl

/-- A write of the hardware's bookkeeping keeps the canonical form. -/
theorem quietWrite_wf {s : State} (h : Memory.wf s.mem = true) (pa : Nat) (bs : List Byte) :
    Memory.wf (s.quietWrite pa bs).mem = true := memWrite_wf h pa bs

/-! ## Units of the state -/

theorem State.thr_setThr (s : State) (t : Nat) (th : Thread) (u : Nat) :
    (s.setThr t th).thr u = if t = u then th else s.thr u := tabGet_tabSet ..

@[simp] theorem State.thr_setThr_same (s : State) (t : Nat) (th : Thread) : (s.setThr t th).thr t = th := by
  simp [State.thr_setThr]

@[simp] theorem State.th_setThr_cur (s : State) (th : Thread) : (s.setThr s.cur th).th = th :=
  State.thr_setThr_same s s.cur th

theorem State.coreOf_modCore (s : State) (c : Nat) (f : Core → Core) (d : Nat) :
    (s.modCore c f).coreOf d = if c = d then f (s.coreOf c) else s.coreOf d := tabGet_tabSet ..

@[simp] theorem State.coreOf_setThr (s : State) (t : Nat) (th : Thread) (c : Nat) : (s.setThr t th).coreOf c = s.coreOf c := rfl

@[simp] theorem State.thr_modCore (s : State) (c : Nat) (f : Core → Core) (t : Nat) : (s.modCore c f).thr t = s.thr t := rfl

@[simp] theorem State.th_modCore (s : State) (c : Nat) (f : Core → Core) : (s.modCore c f).th = s.th := rfl

end Sys2Proof.Machine
end

