-- ==== Sys2Proof/Laws/State.lean ====
section
/-!
SUPPORT. The state after an update, field by field: every update of a unit of the state is one of `setThr`, `modCore`, `modLaunch`,
`modQueue`, or comes down to one.
-/
namespace Sys2Proof.Machine

variable (s : State) (t c l q : Nat) (th : Thread)

/-! ## Updates that come down to setThr -/

@[simp] theorem State.modThr_eq (f : Thread → Thread) : s.modThr t f = s.setThr t (f (s.thr t)) := rfl
@[simp] theorem State.modTh_eq (f : Thread → Thread) : s.modTh f = s.setThr s.cur (f s.th) := rfl
@[simp] theorem State.modRegs_eq (f : Regs → Regs) :
    s.modRegs f = s.setThr s.cur { s.th with regs := f s.th.regs } := rfl
@[simp] theorem State.modCsr_eq (f : Csrs → Csrs) :
    s.modCsr f = s.setThr s.cur { s.th with regs := { s.th.regs with csr := f s.th.regs.csr } } := rfl
@[simp] theorem State.modChunk_eq (f : Chunk → Chunk) :
    s.modChunk f = s.setThr s.cur { s.th with chunk := f s.th.chunk } := rfl
@[simp] theorem State.setPc_eq (a : Word) :
    s.setPc a = s.setThr s.cur { s.th with regs := { s.th.regs with pc := a } } := rfl
@[simp] theorem State.stall_eq (w : Why) : s.stall w = s.setThr s.cur { s.th with status := .retry w } := rfl
@[simp] theorem State.postCommit_eq (a : Act) :
    s.postCommit a = s.setThr s.cur { s.th with chunk := { s.th.chunk with post := s.th.chunk.post ++ [a] } } := rfl

/-! ## setThr -/

@[simp] theorem State.setThr_agenda : (s.setThr t th).agenda = s.agenda := rfl
@[simp] theorem State.setThr_cur : (s.setThr t th).cur = s.cur := rfl
@[simp] theorem State.setThr_cycle : (s.setThr t th).cycle = s.cycle := rfl
@[simp] theorem State.setThr_turn : (s.setThr t th).turn = s.turn := rfl
@[simp] theorem State.setThr_free : (s.setThr t th).free = s.free := rfl
@[simp] theorem State.setThr_nextTid : (s.setThr t th).nextTid = s.nextTid := rfl
@[simp] theorem State.setThr_nextUid : (s.setThr t th).nextUid = s.nextUid := rfl
@[simp] theorem State.setThr_nextCmd : (s.setThr t th).nextCmd = s.nextCmd := rfl
@[simp] theorem State.setThr_stamp : (s.setThr t th).stamp = s.stamp := rfl
@[simp] theorem State.setThr_cores : (s.setThr t th).cores = s.cores := rfl
@[simp] theorem State.setThr_mem : (s.setThr t th).mem = s.mem := rfl
@[simp] theorem State.setThr_poison : (s.setThr t th).poison = s.poison := rfl
@[simp] theorem State.setThr_hostBias : (s.setThr t th).hostBias = s.hostBias := rfl
@[simp] theorem State.setThr_flipping : (s.setThr t th).flipping = s.flipping := rfl
@[simp] theorem State.setThr_flights : (s.setThr t th).flights = s.flights := rfl
@[simp] theorem State.setThr_invals : (s.setThr t th).invals = s.invals := rfl
@[simp] theorem State.setThr_bcasts : (s.setThr t th).bcasts = s.bcasts := rfl
@[simp] theorem State.setThr_tlbinvs : (s.setThr t th).tlbinvs = s.tlbinvs := rfl
@[simp] theorem State.setThr_requests : (s.setThr t th).requests = s.requests := rfl
@[simp] theorem State.setThr_grants : (s.setThr t th).grants = s.grants := rfl
@[simp] theorem State.setThr_tokenQ : (s.setThr t th).tokenQ = s.tokenQ := rfl
@[simp] theorem State.setThr_token : (s.setThr t th).token = s.token := rfl
@[simp] theorem State.setThr_barriers : (s.setThr t th).barriers = s.barriers := rfl
@[simp] theorem State.setThr_reserved : (s.setThr t th).reserved = s.reserved := rfl
@[simp] theorem State.setThr_overflow : (s.setThr t th).overflow = s.overflow := rfl
@[simp] theorem State.setThr_resends : (s.setThr t th).resends = s.resends := rfl
@[simp] theorem State.setThr_far : (s.setThr t th).far = s.far := rfl
@[simp] theorem State.setThr_acks : (s.setThr t th).acks = s.acks := rfl
@[simp] theorem State.setThr_cmds : (s.setThr t th).cmds = s.cmds := rfl
@[simp] theorem State.setThr_gvts : (s.setThr t th).gvts = s.gvts := rfl
@[simp] theorem State.setThr_launches : (s.setThr t th).launches = s.launches := rfl
@[simp] theorem State.setThr_nextLid : (s.setThr t th).nextLid = s.nextLid := rfl
@[simp] theorem State.setThr_queues : (s.setThr t th).queues = s.queues := rfl
@[simp] theorem State.setThr_lastServed : (s.setThr t th).lastServed = s.lastServed := rfl
@[simp] theorem State.setThr_regions : (s.setThr t th).regions = s.regions := rfl
@[simp] theorem State.setThr_colls : (s.setThr t th).colls = s.colls := rfl
@[simp] theorem State.setThr_ckpt : (s.setThr t th).ckpt = s.ckpt := rfl
@[simp] theorem State.setThr_debugs : (s.setThr t th).debugs = s.debugs := rfl
@[simp] theorem State.setThr_trace : (s.setThr t th).trace = s.trace := rfl
@[simp] theorem State.setThr_hbm : (s.setThr t th).hbm = s.hbm := rfl
@[simp] theorem State.setThr_banks : (s.setThr t th).banks = s.banks := rfl
@[simp] theorem State.setThr_readers : (s.setThr t th).readers = s.readers := rfl
@[simp] theorem State.setThr_spoiled : (s.setThr t th).spoiled = s.spoiled := rfl
@[simp] theorem State.setThr_ctlbs : (s.setThr t th).ctlbs = s.ctlbs := rfl
@[simp] theorem State.setThr_walkers : (s.setThr t th).walkers = s.walkers := rfl
@[simp] theorem State.setThr_copyPtr : (s.setThr t th).copyPtr = s.copyPtr := rfl
@[simp] theorem State.setThr_hostRead : (s.setThr t th).hostRead = s.hostRead := rfl
@[simp] theorem State.setThr_reg : (s.setThr t th).reg = s.reg := rfl
@[simp] theorem State.setThr_threads : (s.setThr t th).threads = tabSet s.threads t th := rfl

/-! ## modCore -/

variable (f : Core → Core)

@[simp] theorem State.modCore_agenda : (s.modCore c f).agenda = s.agenda := rfl
@[simp] theorem State.modCore_cur : (s.modCore c f).cur = s.cur := rfl
@[simp] theorem State.modCore_cycle : (s.modCore c f).cycle = s.cycle := rfl
@[simp] theorem State.modCore_turn : (s.modCore c f).turn = s.turn := rfl
@[simp] theorem State.modCore_free : (s.modCore c f).free = s.free := rfl
@[simp] theorem State.modCore_nextTid : (s.modCore c f).nextTid = s.nextTid := rfl
@[simp] theorem State.modCore_nextUid : (s.modCore c f).nextUid = s.nextUid := rfl
@[simp] theorem State.modCore_nextCmd : (s.modCore c f).nextCmd = s.nextCmd := rfl
@[simp] theorem State.modCore_stamp : (s.modCore c f).stamp = s.stamp := rfl
@[simp] theorem State.modCore_threads : (s.modCore c f).threads = s.threads := rfl
@[simp] theorem State.modCore_mem : (s.modCore c f).mem = s.mem := rfl
@[simp] theorem State.modCore_poison : (s.modCore c f).poison = s.poison := rfl
@[simp] theorem State.modCore_hostBias : (s.modCore c f).hostBias = s.hostBias := rfl
@[simp] theorem State.modCore_flipping : (s.modCore c f).flipping = s.flipping := rfl
@[simp] theorem State.modCore_flights : (s.modCore c f).flights = s.flights := rfl
@[simp] theorem State.modCore_invals : (s.modCore c f).invals = s.invals := rfl
@[simp] theorem State.modCore_bcasts : (s.modCore c f).bcasts = s.bcasts := rfl
@[simp] theorem State.modCore_tlbinvs : (s.modCore c f).tlbinvs = s.tlbinvs := rfl
@[simp] theorem State.modCore_requests : (s.modCore c f).requests = s.requests := rfl
@[simp] theorem State.modCore_grants : (s.modCore c f).grants = s.grants := rfl
@[simp] theorem State.modCore_tokenQ : (s.modCore c f).tokenQ = s.tokenQ := rfl
@[simp] theorem State.modCore_token : (s.modCore c f).token = s.token := rfl
@[simp] theorem State.modCore_barriers : (s.modCore c f).barriers = s.barriers := rfl
@[simp] theorem State.modCore_reserved : (s.modCore c f).reserved = s.reserved := rfl
@[simp] theorem State.modCore_overflow : (s.modCore c f).overflow = s.overflow := rfl
@[simp] theorem State.modCore_resends : (s.modCore c f).resends = s.resends := rfl
@[simp] theorem State.modCore_far : (s.modCore c f).far = s.far := rfl
@[simp] theorem State.modCore_acks : (s.modCore c f).acks = s.acks := rfl
@[simp] theorem State.modCore_cmds : (s.modCore c f).cmds = s.cmds := rfl
@[simp] theorem State.modCore_gvts : (s.modCore c f).gvts = s.gvts := rfl
@[simp] theorem State.modCore_launches : (s.modCore c f).launches = s.launches := rfl
@[simp] theorem State.modCore_nextLid : (s.modCore c f).nextLid = s.nextLid := rfl
@[simp] theorem State.modCore_queues : (s.modCore c f).queues = s.queues := rfl
@[simp] theorem State.modCore_lastServed : (s.modCore c f).lastServed = s.lastServed := rfl
@[simp] theorem State.modCore_regions : (s.modCore c f).regions = s.regions := rfl
@[simp] theorem State.modCore_colls : (s.modCore c f).colls = s.colls := rfl
@[simp] theorem State.modCore_ckpt : (s.modCore c f).ckpt = s.ckpt := rfl
@[simp] theorem State.modCore_debugs : (s.modCore c f).debugs = s.debugs := rfl
@[simp] theorem State.modCore_trace : (s.modCore c f).trace = s.trace := rfl
@[simp] theorem State.modCore_hbm : (s.modCore c f).hbm = s.hbm := rfl
@[simp] theorem State.modCore_banks : (s.modCore c f).banks = s.banks := rfl
@[simp] theorem State.modCore_readers : (s.modCore c f).readers = s.readers := rfl
@[simp] theorem State.modCore_spoiled : (s.modCore c f).spoiled = s.spoiled := rfl
@[simp] theorem State.modCore_ctlbs : (s.modCore c f).ctlbs = s.ctlbs := rfl
@[simp] theorem State.modCore_walkers : (s.modCore c f).walkers = s.walkers := rfl
@[simp] theorem State.modCore_copyPtr : (s.modCore c f).copyPtr = s.copyPtr := rfl
@[simp] theorem State.modCore_hostRead : (s.modCore c f).hostRead = s.hostRead := rfl
@[simp] theorem State.modCore_reg : (s.modCore c f).reg = s.reg := rfl
@[simp] theorem State.modCore_cores : (s.modCore c f).cores = tabSet s.cores c (f (s.coreOf c)) := rfl

/-! ## modLaunch -/

variable (g : Launch → Launch)

@[simp] theorem State.modLaunch_cur : (s.modLaunch l g).cur = s.cur := rfl
@[simp] theorem State.modLaunch_threads : (s.modLaunch l g).threads = s.threads := rfl
@[simp] theorem State.modLaunch_cores : (s.modLaunch l g).cores = s.cores := rfl
@[simp] theorem State.modLaunch_mem : (s.modLaunch l g).mem = s.mem := rfl
@[simp] theorem State.modLaunch_free : (s.modLaunch l g).free = s.free := rfl
@[simp] theorem State.modLaunch_cmds : (s.modLaunch l g).cmds = s.cmds := rfl
@[simp] theorem State.modLaunch_queues : (s.modLaunch l g).queues = s.queues := rfl
@[simp] theorem State.modLaunch_lastServed : (s.modLaunch l g).lastServed = s.lastServed := rfl
@[simp] theorem State.modLaunch_agenda : (s.modLaunch l g).agenda = s.agenda := rfl
@[simp] theorem State.modLaunch_cycle : (s.modLaunch l g).cycle = s.cycle := rfl
@[simp] theorem State.modLaunch_turn : (s.modLaunch l g).turn = s.turn := rfl
@[simp] theorem State.modLaunch_nextTid : (s.modLaunch l g).nextTid = s.nextTid := rfl
@[simp] theorem State.modLaunch_nextUid : (s.modLaunch l g).nextUid = s.nextUid := rfl
@[simp] theorem State.modLaunch_nextCmd : (s.modLaunch l g).nextCmd = s.nextCmd := rfl
@[simp] theorem State.modLaunch_stamp : (s.modLaunch l g).stamp = s.stamp := rfl
@[simp] theorem State.modLaunch_ctlbs : (s.modLaunch l g).ctlbs = s.ctlbs := rfl
@[simp] theorem State.modLaunch_walkers : (s.modLaunch l g).walkers = s.walkers := rfl
@[simp] theorem State.modLaunch_copyPtr : (s.modLaunch l g).copyPtr = s.copyPtr := rfl
@[simp] theorem State.modLaunch_poison : (s.modLaunch l g).poison = s.poison := rfl
@[simp] theorem State.modLaunch_hostBias : (s.modLaunch l g).hostBias = s.hostBias := rfl
@[simp] theorem State.modLaunch_flipping : (s.modLaunch l g).flipping = s.flipping := rfl
@[simp] theorem State.modLaunch_hostRead : (s.modLaunch l g).hostRead = s.hostRead := rfl
@[simp] theorem State.modLaunch_flights : (s.modLaunch l g).flights = s.flights := rfl
@[simp] theorem State.modLaunch_invals : (s.modLaunch l g).invals = s.invals := rfl
@[simp] theorem State.modLaunch_bcasts : (s.modLaunch l g).bcasts = s.bcasts := rfl
@[simp] theorem State.modLaunch_tlbinvs : (s.modLaunch l g).tlbinvs = s.tlbinvs := rfl
@[simp] theorem State.modLaunch_requests : (s.modLaunch l g).requests = s.requests := rfl
@[simp] theorem State.modLaunch_grants : (s.modLaunch l g).grants = s.grants := rfl
@[simp] theorem State.modLaunch_tokenQ : (s.modLaunch l g).tokenQ = s.tokenQ := rfl
@[simp] theorem State.modLaunch_token : (s.modLaunch l g).token = s.token := rfl
@[simp] theorem State.modLaunch_barriers : (s.modLaunch l g).barriers = s.barriers := rfl
@[simp] theorem State.modLaunch_reserved : (s.modLaunch l g).reserved = s.reserved := rfl
@[simp] theorem State.modLaunch_overflow : (s.modLaunch l g).overflow = s.overflow := rfl
@[simp] theorem State.modLaunch_resends : (s.modLaunch l g).resends = s.resends := rfl
@[simp] theorem State.modLaunch_far : (s.modLaunch l g).far = s.far := rfl
@[simp] theorem State.modLaunch_acks : (s.modLaunch l g).acks = s.acks := rfl
@[simp] theorem State.modLaunch_gvts : (s.modLaunch l g).gvts = s.gvts := rfl
@[simp] theorem State.modLaunch_nextLid : (s.modLaunch l g).nextLid = s.nextLid := rfl
@[simp] theorem State.modLaunch_regions : (s.modLaunch l g).regions = s.regions := rfl
@[simp] theorem State.modLaunch_colls : (s.modLaunch l g).colls = s.colls := rfl
@[simp] theorem State.modLaunch_ckpt : (s.modLaunch l g).ckpt = s.ckpt := rfl
@[simp] theorem State.modLaunch_debugs : (s.modLaunch l g).debugs = s.debugs := rfl
@[simp] theorem State.modLaunch_trace : (s.modLaunch l g).trace = s.trace := rfl
@[simp] theorem State.modLaunch_hbm : (s.modLaunch l g).hbm = s.hbm := rfl
@[simp] theorem State.modLaunch_banks : (s.modLaunch l g).banks = s.banks := rfl
@[simp] theorem State.modLaunch_readers : (s.modLaunch l g).readers = s.readers := rfl
@[simp] theorem State.modLaunch_spoiled : (s.modLaunch l g).spoiled = s.spoiled := rfl
@[simp] theorem State.modLaunch_reg : (s.modLaunch l g).reg = s.reg := rfl
@[simp] theorem State.modLaunch_launches : (s.modLaunch l g).launches = tabSet s.launches l (g (s.launchOf l)) := rfl

/-! ## modQueue -/

variable (h : Queue → Queue)

@[simp] theorem State.modQueue_cur : (s.modQueue q h).cur = s.cur := rfl
@[simp] theorem State.modQueue_threads : (s.modQueue q h).threads = s.threads := rfl
@[simp] theorem State.modQueue_cores : (s.modQueue q h).cores = s.cores := rfl
@[simp] theorem State.modQueue_mem : (s.modQueue q h).mem = s.mem := rfl
@[simp] theorem State.modQueue_free : (s.modQueue q h).free = s.free := rfl
@[simp] theorem State.modQueue_cmds : (s.modQueue q h).cmds = s.cmds := rfl
@[simp] theorem State.modQueue_launches : (s.modQueue q h).launches = s.launches := rfl
@[simp] theorem State.modQueue_lastServed : (s.modQueue q h).lastServed = s.lastServed := rfl
@[simp] theorem State.modQueue_agenda : (s.modQueue q h).agenda = s.agenda := rfl
@[simp] theorem State.modQueue_cycle : (s.modQueue q h).cycle = s.cycle := rfl
@[simp] theorem State.modQueue_turn : (s.modQueue q h).turn = s.turn := rfl
@[simp] theorem State.modQueue_nextTid : (s.modQueue q h).nextTid = s.nextTid := rfl
@[simp] theorem State.modQueue_nextUid : (s.modQueue q h).nextUid = s.nextUid := rfl
@[simp] theorem State.modQueue_nextCmd : (s.modQueue q h).nextCmd = s.nextCmd := rfl
@[simp] theorem State.modQueue_stamp : (s.modQueue q h).stamp = s.stamp := rfl
@[simp] theorem State.modQueue_ctlbs : (s.modQueue q h).ctlbs = s.ctlbs := rfl
@[simp] theorem State.modQueue_walkers : (s.modQueue q h).walkers = s.walkers := rfl
@[simp] theorem State.modQueue_copyPtr : (s.modQueue q h).copyPtr = s.copyPtr := rfl
@[simp] theorem State.modQueue_poison : (s.modQueue q h).poison = s.poison := rfl
@[simp] theorem State.modQueue_hostBias : (s.modQueue q h).hostBias = s.hostBias := rfl
@[simp] theorem State.modQueue_flipping : (s.modQueue q h).flipping = s.flipping := rfl
@[simp] theorem State.modQueue_hostRead : (s.modQueue q h).hostRead = s.hostRead := rfl
@[simp] theorem State.modQueue_flights : (s.modQueue q h).flights = s.flights := rfl
@[simp] theorem State.modQueue_invals : (s.modQueue q h).invals = s.invals := rfl
@[simp] theorem State.modQueue_bcasts : (s.modQueue q h).bcasts = s.bcasts := rfl
@[simp] theorem State.modQueue_tlbinvs : (s.modQueue q h).tlbinvs = s.tlbinvs := rfl
@[simp] theorem State.modQueue_requests : (s.modQueue q h).requests = s.requests := rfl
@[simp] theorem State.modQueue_grants : (s.modQueue q h).grants = s.grants := rfl
@[simp] theorem State.modQueue_tokenQ : (s.modQueue q h).tokenQ = s.tokenQ := rfl
@[simp] theorem State.modQueue_token : (s.modQueue q h).token = s.token := rfl
@[simp] theorem State.modQueue_barriers : (s.modQueue q h).barriers = s.barriers := rfl
@[simp] theorem State.modQueue_reserved : (s.modQueue q h).reserved = s.reserved := rfl
@[simp] theorem State.modQueue_overflow : (s.modQueue q h).overflow = s.overflow := rfl
@[simp] theorem State.modQueue_resends : (s.modQueue q h).resends = s.resends := rfl
@[simp] theorem State.modQueue_far : (s.modQueue q h).far = s.far := rfl
@[simp] theorem State.modQueue_acks : (s.modQueue q h).acks = s.acks := rfl
@[simp] theorem State.modQueue_gvts : (s.modQueue q h).gvts = s.gvts := rfl
@[simp] theorem State.modQueue_nextLid : (s.modQueue q h).nextLid = s.nextLid := rfl
@[simp] theorem State.modQueue_regions : (s.modQueue q h).regions = s.regions := rfl
@[simp] theorem State.modQueue_colls : (s.modQueue q h).colls = s.colls := rfl
@[simp] theorem State.modQueue_ckpt : (s.modQueue q h).ckpt = s.ckpt := rfl
@[simp] theorem State.modQueue_debugs : (s.modQueue q h).debugs = s.debugs := rfl
@[simp] theorem State.modQueue_trace : (s.modQueue q h).trace = s.trace := rfl
@[simp] theorem State.modQueue_hbm : (s.modQueue q h).hbm = s.hbm := rfl
@[simp] theorem State.modQueue_banks : (s.modQueue q h).banks = s.banks := rfl
@[simp] theorem State.modQueue_readers : (s.modQueue q h).readers = s.readers := rfl
@[simp] theorem State.modQueue_spoiled : (s.modQueue q h).spoiled = s.spoiled := rfl
@[simp] theorem State.modQueue_reg : (s.modQueue q h).reg = s.reg := rfl
@[simp] theorem State.modQueue_queues : (s.modQueue q h).queues = tabSet s.queues q (h (s.queueOf q)) := rfl

end Sys2Proof.Machine
end

