-- ==== Sys2Proof/Laws/Ops.lean ====
section
/-!
SUPPORT. What the shared operations do: the frame in which a thread's instruction runs, chunk capacity, results, traps.
-/
namespace Sys2Proof.Machine

/-! ## Tables and bytes -/

theorem tabSet_tabSet {α : Type} (m : List (Nat × α)) (a : Nat) (v w : α) : tabSet (tabSet m a v) a w = tabSet m a w := by
  induction m with
  | nil => simp [tabSet]
  | cons p m ih =>
    obtain ⟨k, u⟩ := p
    by_cases h1 : a < k
    · simp [tabSet, h1]
    · by_cases h2 : a = k
      · subst h2; simp [tabSet]
      · simp [tabSet, h1, h2, ih]

@[simp] theorem State.setThr_setThr (s : State) (t : Nat) (a b : Thread) : (s.setThr t a).setThr t b = s.setThr t b := by
  simp [State.setThr, tabSet_tabSet]

@[simp] theorem length_leBytes (n v : Nat) : (leBytes n v).length = n := by
  induction n generalizing v with
  | zero => rfl
  | succ n ih => simp [leBytes, ih]

/-- Little-endian bytes hold the number they were made from, reduced to their width. -/
theorem leNat_leBytes (n v : Nat) : leNat (leBytes n v) = v % 256 ^ n := by
  induction n generalizing v with
  | zero => simp [leBytes, leNat, Nat.mod_one]
  | succ n ih =>
    simp only [leBytes, leNat, ih, BitVec.toNat_ofNat]
    rw [show 256 ^ (n + 1) = 256 * 256 ^ n by rw [Nat.pow_succ, Nat.mul_comm], Nat.mod_mul]

/-! ## Tables: what an entry adds to a sum -/

/-- The sum of a number for each entry. -/
def tabSum {α : Type} (f : Nat × α → Nat) (m : List (Nat × α)) : Nat := m.foldl (fun n p => n + f p) 0

theorem foldl_add {β : Type} (f : β → Nat) (l : List β) (n : Nat) :
    l.foldl (fun n p => n + f p) n = n + l.foldl (fun n p => n + f p) 0 := by
  induction l generalizing n with
  | nil => simp
  | cons p l ih => simp only [List.foldl_cons, Nat.zero_add]; rw [ih, ih (f p)]; omega

theorem tabSum_cons {α : Type} (f : Nat × α → Nat) (p : Nat × α) (m : List (Nat × α)) :
    tabSum f (p :: m) = f p + tabSum f m := by
  simp only [tabSum, List.foldl_cons, Nat.zero_add]; exact foldl_add f m (f p)

theorem tabSum_tabSet_le {α : Type} (f : Nat × α → Nat) (m : List (Nat × α)) (a : Nat) (w : α) :
    tabSum f (tabSet m a w) ≤ tabSum f m + f (a, w) := by
  induction m with
  | nil => simp [tabSet, tabSum]
  | cons p m ih =>
    obtain ⟨k, v⟩ := p
    by_cases h1 : a < k
    · simp only [tabSet, h1, if_true, tabSum_cons]; omega
    · by_cases h2 : a = k
      · simp only [tabSet, h2, Nat.lt_irrefl, if_false, if_true, tabSum_cons]; omega
      · simp only [tabSet, h1, h2, if_false, tabSum_cons]; omega

/-- A sum over the chunks in flight on a core is a sum over its threads. -/
theorem chunkSum (s : State) (c : Nat) (g : Chunk → Nat) :
    ((s.coreChunks c).filter Chunk.inFlight).foldl (fun n k => n + g k) 0 =
      tabSum (fun p => if p.2.loc == .slot && p.2.core == c
        then (p.2.chunks.filter Chunk.inFlight).foldl (fun n k => n + g k) 0 else 0) s.threads := by
  simp only [State.coreChunks]
  induction s.threads with
  | nil => rfl
  | cons p m ih =>
    rw [tabSum_cons, List.filter_cons]
    split
    · rename_i h
      rw [List.flatMap_cons, List.filter_append, List.foldl_append, foldl_add, ih]
    · rw [ih, Nat.zero_add]

/-- A thread put in place of another adds at most its own chunks to a core's sum. -/
theorem chunkSum_setThr_le (s : State) (t c : Nat) (th : Thread) (g : Chunk → Nat) :
    (((s.setThr t th).coreChunks c).filter Chunk.inFlight).foldl (fun n k => n + g k) 0 ≤
      ((s.coreChunks c).filter Chunk.inFlight).foldl (fun n k => n + g k) 0 +
        (th.chunks.filter Chunk.inFlight).foldl (fun n k => n + g k) 0 := by
  rw [chunkSum, chunkSum]
  refine Nat.le_trans (tabSum_tabSet_le _ _ _ _) (Nat.add_le_add_left ?_ _)
  split <;> simp

theorem chunks_alone {th : Thread} (h : th.older = none) (g : Chunk → Nat) :
    (th.chunks.filter Chunk.inFlight).foldl (fun n k => n + g k) 0 ≤ g th.chunk := by
  simp only [Thread.chunks, h, List.nil_append]
  by_cases hf : th.chunk.inFlight <;> simp [hf]

/-! ## Capacity (R32, R34, R116) -/

theorem undoFits_setThr {s : State} {t : Nat} {th : Thread} (ho : th.older = none) (hc : ((s.setThr t th).th).core = s.th.core)
    (h : s.undoInUse s.th.core + th.chunk.undoBytes ≤ Config.undoBytes) : (s.setThr t th).undoFits = true := by
  simp only [State.undoFits, hc, decide_eq_true_eq, State.undoInUse]
  exact Nat.le_trans (Nat.le_trans (chunkSum_setThr_le ..) (Nat.add_le_add_left (chunks_alone ho _) _)) h

theorem linesFit_setThr {s : State} {t : Nat} {th : Thread} (ho : th.older = none) (hc : ((s.setThr t th).th).core = s.th.core)
    (h : s.specLines s.th.core + th.chunk.wlines.length ≤ Config.specLines)
    (h' : s.overflowLines s.th.core + th.chunk.ovf.length ≤ 64) : (s.setThr t th).linesFit = true := by
  simp only [State.linesFit, hc, Bool.and_eq_true, decide_eq_true_eq, State.specLines, State.overflowLines]
  exact ⟨Nat.le_trans (Nat.le_trans (chunkSum_setThr_le ..) (Nat.add_le_add_left (chunks_alone ho _) _)) h,
    Nat.le_trans (Nat.le_trans (chunkSum_setThr_le ..) (Nat.add_le_add_left (chunks_alone ho _) _)) h'⟩

theorem undoBytes_addNew_le (k : UndoKey) (c : Chunk) :
    ({ c with undo := addNew k c.undo } : Chunk).undoBytes ≤ c.undoBytes + undoSize k := by
  simp only [Chunk.undoBytes, addNew]
  split
  · omega
  · simp only [List.foldl_cons, Nat.zero_add]
    rw [foldl_add]; omega

/-! ## Park (R26) -/

/-- With nothing outstanding and nothing pending, parking changes nothing. -/
theorem park_calm {s : State} (h : Ready s) : s.park = some s := by
  simp [State.park, h.results, h.marks]

/-- Where no register has a parity error, none of the registers read has one. -/
theorem badReg_sound {s : State} (h : s.soundRegs = true) (rs : List RegName) : s.badReg rs = none := by
  simp only [State.soundRegs, List.all_eq_true, Bool.not_eq_true'] at h
  simp only [State.badReg, List.findSome?_eq_none_iff, Option.map_eq_none_iff, List.find?_eq_none]
  intro r _ f hf
  simp [h f hf]

theorem tabGet_mem {α : Type} (d : α) (m : List (Nat × α)) (a : Nat) (h : tabGet d m a ≠ d) : (a, tabGet d m a) ∈ m := by
  induction m with
  | nil => simp [tabGet] at h
  | cons p m ih =>
    obtain ⟨k, v⟩ := p
    simp only [tabGet] at h ⊢
    split
    · subst_vars; simp
    · rename_i hk
      simp only [hk, if_false] at h
      exact List.mem_cons_of_mem _ (ih h)


/-! ## Completion (R24, R31, R32, R83) -/

/-- What an instruction's own effect keeps: only the current thread's entry differs among the threads, the chunk captures at
most `n` bytes and gains at most `m` lines, and nothing that the frame looks at changes. -/
structure Local (n m : Nat) (s t : State) : Prop where
  threads : ∀ th, tabSet t.threads s.cur th = tabSet s.threads s.cur th
  cur : t.cur = s.cur
  core : t.th.core = s.th.core
  older : t.th.older = s.th.older
  inRewrite : t.th.regs.inRewrite = s.th.regs.inRewrite
  loop0 : t.th.regs.csr.loopC0 = s.th.regs.csr.loopC0
  loop1 : t.th.regs.csr.loopC1 = s.th.regs.csr.loopC1
  count : t.th.chunk.count = s.th.chunk.count
  chunkCur : t.th.regs.csr.chunkCur = s.th.regs.csr.chunkCur
  undo : t.th.chunk.undoBytes ≤ s.th.chunk.undoBytes + n
  lines : t.th.chunk.wlines.length ≤ s.th.chunk.wlines.length + m
  ovf : t.th.chunk.ovf.length ≤ s.th.chunk.ovf.length + m

theorem Local.refl (s : State) : Local 0 0 s s := by constructor <;> simp

theorem Local.trans {n m n' m' : Nat} {s t u : State} (h : Local n m s t) (k : Local n' m' t u) :
    Local (n + n') (m + m') s u where
  threads th := by rw [← h.threads, ← h.cur]; exact k.threads th
  cur := k.cur.trans h.cur
  core := k.core.trans h.core
  older := k.older.trans h.older
  inRewrite := k.inRewrite.trans h.inRewrite
  loop0 := k.loop0.trans h.loop0
  loop1 := k.loop1.trans h.loop1
  count := k.count.trans h.count
  chunkCur := k.chunkCur.trans h.chunkCur
  undo := by have := h.undo; have := k.undo; omega
  lines := by have := h.lines; have := k.lines; omega
  ovf := by have := h.ovf; have := k.ovf; omega

theorem Local.mono {n m n' m' : Nat} {s t : State} (h : Local n m s t) (hn : n ≤ n') (hm : m ≤ m') : Local n' m' s t :=
  { h with undo := by have := h.undo; omega, lines := by have := h.lines; omega, ovf := by have := h.ovf; omega }

/-- The three ways in which an instruction goes on without ending its chunk. -/
def After.next (a : After) (pc : Word) : Word :=
  match a with | .goto n => n | .jump n => n | .noLoop n => n | _ => pc + 4

theorem loopTest_off {s : State} (h0 : s.th.regs.csr.loopC0.getLsbD 0 = false) (h1 : s.th.regs.csr.loopC1.getLsbD 0 = false)
    (l : Nat) (q : Word) : loopTest s l q = (s, none) := by
  by_cases h : l = 0 <;> simp only [loopTest, loopLevel, h, if_true, if_false, h0, h1] <;> rfl

theorem loopLeave_off {s : State} (h0 : s.th.regs.csr.loopC0.getLsbD 0 = false) (h1 : s.th.regs.csr.loopC1.getLsbD 0 = false)
    (l : Nat) (q : Word) : loopLeave s l q = s := by
  by_cases h : l = 0 <;> simp only [loopLeave, loopLevel, h, if_true, if_false, h0, h1] <;> rfl

/-- With no hardware loop active, the loop rule leaves the state alone. -/
theorem loopRule_off {s : State} (h0 : s.th.regs.csr.loopC0.getLsbD 0 = false) (h1 : s.th.regs.csr.loopC1.getLsbD 0 = false)
    (q : Word) (a : After) : loopRule s q a = (s, a.next q) := by
  cases a <;> simp only [loopRule, loopTest_off h0 h1, loopLeave_off h0 h1, After.next]

theorem loopReads_off {s : State} (h0 : s.th.regs.csr.loopC0.getLsbD 0 = false) (h1 : s.th.regs.csr.loopC1.getLsbD 0 = false) :
    loopReads s = [] := by
  simp only [loopReads, loopLevel, if_true, Nat.one_ne_zero, if_false, h0, h1]; rfl

/-- The state that completing an instruction leaves differs from the effect's in the current thread only. -/
theorem completed_eq (s : State) (next : Word) (st : Status) : completed s next st = s.setThr s.cur { s.th with
    regs := { s.th.regs with pc := next }
    chunk := { s.th.chunk with count := s.th.chunk.count + 1 }
    nextIssue := s.cycle + 4
    retired := s.th.retired + 1
    status := st } := by
  simp [completed]

theorem undoBytes_count (c : Chunk) (n : Nat) : ({ c with count := n } : Chunk).undoBytes = c.undoBytes := rfl

/-- On a ready thread an instruction that neither ends its chunk nor pauses completes where the capacities hold: its
effect, the next pc, the count. -/
theorem finish_ready {s t : State} {n m : Nat} {a : After} (h : Ready s) (k : Local n m s t)
    (hf : Fits (completed t (a.next s.pc) .ready)) (ha : (∀ n w, a ≠ .cut n w) ∧ ∀ n, a ≠ .pause n) :
    finishFrom s s t a = completed t (a.next s.pc) .ready := by
  have h0 : t.th.regs.csr.loopC0.getLsbD 0 = false := by rw [k.loop0]; exact h.loop0
  have h1 : t.th.regs.csr.loopC1.getLsbD 0 = false := by rw [k.loop1]; exact h.loop1
  have hr : retire t s.pc a = completed t (a.next s.pc) .ready := by
    cases a with
    | cut n w => exact absurd rfl (ha.1 n w)
    | pause n => exact absurd rfl (ha.2 n)
    | _ => simp [retire, loopRule_off h0 h1, completed, endWait]
  have he : endCode (completed t (a.next s.pc) .ready) a = 0 := by
    have := h.short
    have hlt : ¬ (t.th.regs.csr.chunkCur ≤ t.th.chunk.count + 1) := by rw [k.chunkCur, k.count]; omega
    cases a with
    | cut n w => exact absurd rfl (ha.1 n w)
    | _ => simp [endCode, completed_eq, hlt]
  have hi : (completed t (a.next s.pc) .ready).th.regs.inRewrite = false := by
    rw [completed_eq, State.th_setThr_cur]; exact k.inRewrite.trans h.noRewrite
  have hn : firstPending s [] = none := rfl
  unfold finishFrom
  cases a with
  | cut n w => exact absurd rfl (ha.1 n w)
  | pause n => exact absurd rfl (ha.2 n)
  | _ => simp only [loopReads_off h0 h1, hn, hr, hf.1, hf.2, he, hi]; rfl

/-- Where a core has room for one instruction, the capacities hold after it. -/
theorem fits_calm {s t : State} {n m : Nat} {w : Word} {st : Status} (h : Calm s) (k : Local n m s t) (hn : n ≤ 8192) (hm : m ≤ 16) :
    Fits (completed t w st) := by
  obtain ⟨th, hthr, hc, ho, hl, hv, hu⟩ : ∃ th, (completed t w st).threads = tabSet s.threads s.cur th ∧
      th.core = s.th.core ∧ th.older = none ∧ th.chunk.wlines = t.th.chunk.wlines ∧ th.chunk.ovf = t.th.chunk.ovf ∧
      th.chunk.undoBytes = t.th.chunk.undoBytes := by
    exact ⟨{ t.th with
        regs := { t.th.regs with pc := w }
        chunk := { t.th.chunk with count := t.th.chunk.count + 1 }
        nextIssue := t.cycle + 4
        retired := t.th.retired + 1
        status := st }, by rw [completed_eq, State.setThr_threads, k.cur, k.threads],
      k.core, k.older.trans h.older, rfl, rfl, rfl⟩
  have hcore : (completed t w st).th.core = s.th.core := by rw [completed_eq, State.th_setThr_cur, k.core]
  refine ⟨?_, ?_⟩
  · rw [State.undoFits, decide_eq_true_eq, State.undoInUse, State.coreChunks, hcore, hthr]
    refine Nat.le_trans (chunkSum_setThr_le s s.cur s.th.core th Chunk.undoBytes)
      (Nat.le_trans (Nat.add_le_add_left (chunks_alone ho _) _) ?_)
    have := h.undoRoom
    have := k.undo
    simp only [State.undoInUse] at *
    omega
  · rw [State.linesFit, Bool.and_eq_true, decide_eq_true_eq, decide_eq_true_eq, State.specLines, State.overflowLines,
      State.coreChunks, hcore, hthr]
    have := h.lineRoom
    have := h.ovfRoom
    have := k.lines
    have := k.ovf
    constructor
    · refine Nat.le_trans (chunkSum_setThr_le s s.cur s.th.core th fun k => k.wlines.length)
        (Nat.le_trans (Nat.add_le_add_left (chunks_alone ho _) _) ?_)
      simp only [State.specLines, hl] at *
      omega
    · refine Nat.le_trans (chunkSum_setThr_le s s.cur s.th.core th fun k => k.ovf.length)
        (Nat.le_trans (Nat.add_le_add_left (chunks_alone ho _) _) ?_)
      simp only [State.overflowLines, hv] at *
      omega

/-- A thread instruction on a ready thread whose body goes on completes with the body's effect where the capacities hold. -/
theorem run_ready {p : Bool} {regs : List RegName} {body : Body} {s t : State} {n m : Nat} {a : After} (h : Ready s)
    (hb : body s = .ok (t, a)) (k : Local n m s t) (hf : Fits (completed t (a.next s.pc) .ready))
    (ha : (∀ n w, a ≠ .cut n w) ∧ ∀ n, a ≠ .pause n) :
    runInstr p none regs body s = .next (completed t (a.next s.pc) .ready) := by
  have hp : (if p then s.park else some s) = some s := by cases p <;> simp [park_calm h]
  have hq : firstPending s regs = none := by simp [firstPending, h.marks]
  simp [runInstr, h.live, attempt, hp, hq, badReg_sound h.sound, hb, finish_ready h k hf ha]

/-- The same on a calm thread, whose core has room. -/
theorem run_calm {p : Bool} {regs : List RegName} {body : Body} {s t : State} {n m : Nat} {a : After} (h : Calm s)
    (hb : body s = .ok (t, a)) (k : Local n m s t) (hn : n ≤ 8192) (hm : m ≤ 16)
    (ha : (∀ n w, a ≠ .cut n w) ∧ ∀ n, a ≠ .pause n) :
    runInstr p none regs body s = .next (completed t (a.next s.pc) .ready) :=
  run_ready h.toReady hb k (fits_calm h k hn hm) ha

/-! ## The operations that write registers (R26, R27, R34) -/

/-- A change of the current thread alone. -/
theorem Local.of_setThr {n m : Nat} {s : State} {th : Thread} (hc : th.core = s.th.core) (ho : th.older = s.th.older)
    (hr : th.regs.inRewrite = s.th.regs.inRewrite) (h0 : th.regs.csr.loopC0 = s.th.regs.csr.loopC0)
    (h1 : th.regs.csr.loopC1 = s.th.regs.csr.loopC1) (hn : th.chunk.count = s.th.chunk.count)
    (hk : th.regs.csr.chunkCur = s.th.regs.csr.chunkCur) (hu : th.chunk.undoBytes ≤ s.th.chunk.undoBytes + n)
    (hl : th.chunk.wlines.length ≤ s.th.chunk.wlines.length + m) (hv : th.chunk.ovf.length ≤ s.th.chunk.ovf.length + m) :
    Local n m s (s.setThr s.cur th) := by
  constructor <;> simp [State.setThr_threads, tabSet_tabSet, *]

theorem Local.capture (s : State) (k : UndoKey) : Local (undoSize k) 0 s (s.capture k) := by
  rw [State.capture, State.modChunk_eq]
  exact .of_setThr rfl rfl rfl rfl rfl rfl rfl (undoBytes_addNew_le k _) (Nat.le_refl _) (Nat.le_refl _)

/-- Register writes that leave the CSRs and the rewrite alone. -/
theorem Local.modRegs {s : State} {f : Regs → Regs} (hr : (f s.th.regs).inRewrite = s.th.regs.inRewrite)
    (hc : (f s.th.regs).csr = s.th.regs.csr) : Local 0 0 s (s.modRegs f) := by
  rw [State.modRegs_eq]
  exact .of_setThr rfl rfl hr (by rw [hc]) (by rw [hc]) rfl (by rw [hc]) (Nat.le_refl _) (Nat.le_refl _) (Nat.le_refl _)

theorem putX_keeps (r : Regs) (n : Reg) (w : Word) :
    (r.putX n w).inRewrite = r.inRewrite ∧ (r.putX n w).csr = r.csr ∧ (r.putX n w).marks = r.marks := by
  simp only [Regs.putX]; split <;> simp

theorem putP_keeps (r : Regs) (n : BitVec 3) (w : Word) :
    (r.putP n w).inRewrite = r.inRewrite ∧ (r.putP n w).csr = r.csr ∧ (r.putP n w).marks = r.marks := by
  simp only [Regs.putP]; split <;> simp

theorem Local.setX (s : State) (n : Reg) (w : Word) : Local 32 0 s (s.setX n w) := by
  unfold State.setX
  split
  · exact (Local.refl s).mono (by omega) (by omega)
  · exact ((Local.capture s (.reg (.x n))).trans
      (Local.modRegs (f := (·.putX n w)) (putX_keeps ..).1 (putX_keeps ..).2.1)).mono (by simp [undoSize, regSize, roundUp]) (Nat.le_refl _)

theorem Local.setP (s : State) (n : BitVec 3) (w : Word) : Local 32 0 s (s.setP n w) := by
  unfold State.setP
  split
  · exact (Local.refl s).mono (by omega) (by omega)
  · exact ((Local.capture s (.reg (.p n))).trans
      (Local.modRegs (f := (·.putP n w)) (putP_keeps ..).1 (putP_keeps ..).2.1)).mono (by simp [undoSize, regSize, roundUp]) (Nat.le_refl _)

theorem Local.setV (s : State) (n : Reg) (w : VReg) : Local (undoSize (.reg (.v n))) 0 s (s.setV n w) :=
  (Local.capture s (.reg (.v n))).trans (Local.modRegs (f := (·.putV n w)) rfl rfl)

theorem Local.setG (s : State) (n : BitVec 3) (w : GReg) : Local (undoSize (.reg (.g n))) 0 s (s.setG n w) :=
  (Local.capture s (.reg (.g n))).trans (Local.modRegs (f := (·.putG n w)) rfl rfl)

/-- ORing conditions into NFLAGS captures at most one CSR. -/
theorem Local.orFlags (s : State) (f : BitVec 6) : Local 32 0 s (s.orFlags f) := by
  unfold State.orFlags
  split
  · exact (Local.refl s).mono (by omega) (by omega)
  · rw [State.setCsr]
    refine (Local.capture s (.csr 0x801)).trans (m' := 0) (n' := 0) ?_
    rw [State.modCsr_eq]
    exact .of_setThr rfl rfl rfl rfl rfl rfl rfl (Nat.le_refl _) (Nat.le_refl _) (Nat.le_refl _)

/-- A register that becomes pending is captured, and the pending marks with it. -/
theorem Local.markPending (s : State) (n : RegName) : Local (undoSize (.reg n) + 32) 0 s (s.markPending n) := by
  unfold State.markPending
  exact ((Local.capture s (.reg n)).trans (Local.capture _ .marks)).trans (n' := 0) (m' := 0) (Local.modRegs rfl rfl)

/-- A result that waits to be returned is no part of what the frame looks at. -/
theorem Local.results (s : State) (f : Thread → List Result) : Local 0 0 s (s.modTh fun th => { th with results := f th }) := by
  rw [State.modTh_eq]
  exact .of_setThr rfl rfl rfl rfl rfl rfl rfl (Nat.le_refl _) (Nat.le_refl _) (Nat.le_refl _)

/-- A long-latency result captures the register and the pending marks, at most. -/
theorem Local.setLong (s : State) (cls : ResClass) (v : RegVal) (far : Option Nat) :
    Local (undoSize (.reg v.name) + 32) 0 s (s.setLong cls v far) := by
  unfold State.setLong
  split
  · exact (Local.markPending s v.name).trans (n' := 0) (m' := 0) (Local.results ..)
  · exact (Local.refl s).mono (by omega) (by omega)

/-- An instruction of the vector queue captures what a long-latency result captures. -/
theorem Local.enterVec (s : State) (cls : ResClass) (v : Option RegVal) :
    Local ((v.elim 0 fun v => undoSize (.reg v.name)) + 32) 0 s (s.enterVec cls v) := by
  unfold State.enterVec
  cases v with
  | none => exact (Local.results ..).mono (by simp) (Nat.le_refl _)
  | some v =>
    by_cases h : realReg v.name
    · simp only [h, if_true]
      exact (Local.markPending s v.name).trans (n' := 0) (m' := 0) (Local.results ..)
    · simp only [h]
      exact (Local.results ..).mono (by simp) (Nat.le_refl _)

end Sys2Proof.Machine
end

