-- ==== Sys2Proof/Laws/Operands.lean ====
section
/-!
SUPPORT. What the operand forms do to the thread that uses them: a successful access is local to its thread in the sense
of `Local`, with the undo bytes and the lines that it can add.
-/
namespace Sys2Proof.Machine

/-- A change outside the threads. -/
theorem Local.of_threads {s t : State} (ht : t.threads = s.threads) (hc : t.cur = s.cur) : Local 0 0 s t := by
  have h : t.th = s.th := by simp only [State.th, State.thr, ht, hc]
  constructor <;> simp [ht, hc, h]

theorem Local.then0 {s t u : State} (h : Local 0 0 s t) (k : Local 0 0 t u) : Local 0 0 s u := h.trans k

theorem Local.modCore (s : State) (c : Nat) (f : Core → Core) : Local 0 0 s (s.modCore c f) := .of_threads rfl rfl

/-- A change of the chunk that keeps its count, its captures and its lines. -/
theorem Local.modChunk {s : State} {f : Chunk → Chunk} {n m : Nat} (hn : (f s.th.chunk).count = s.th.chunk.count)
    (hu : (f s.th.chunk).undoBytes ≤ s.th.chunk.undoBytes + n)
    (hl : (f s.th.chunk).wlines.length ≤ s.th.chunk.wlines.length + m)
    (hv : (f s.th.chunk).ovf.length ≤ s.th.chunk.ovf.length + m) : Local n m s (s.modChunk f) := by
  rw [State.modChunk_eq]
  exact .of_setThr rfl rfl rfl rfl rfl hn rfl hu hl hv

theorem Local.postCommit (s : State) (a : Act) : Local 0 0 s (s.postCommit a) :=
  .modChunk rfl (Nat.le_refl _) (Nat.le_refl _) (Nat.le_refl _)

/-- A CSR write that leaves the loop counts and CHUNKLEN captures one CSR. -/
theorem Local.setCsr {s : State} {k : BitVec 12} {f : Csrs → Csrs} (h0 : (f s.th.regs.csr).loopC0 = s.th.regs.csr.loopC0)
    (h1 : (f s.th.regs.csr).loopC1 = s.th.regs.csr.loopC1) (hk : (f s.th.regs.csr).chunkCur = s.th.regs.csr.chunkCur) :
    Local 32 0 s (s.setCsr k f) := by
  refine (Local.capture s (.csr k)).trans (n' := 0) (m' := 0) ?_
  have e : (s.capture (.csr k)).th.regs = s.th.regs := by simp [State.capture]
  show Local 0 0 (s.capture (.csr k)) ((s.capture (.csr k)).modCsr f)
  rw [State.modCsr_eq]
  refine .of_setThr rfl rfl rfl ?_ ?_ rfl ?_ (Nat.le_refl _) (Nat.le_refl _) (Nat.le_refl _) <;> simp only [e] <;> assumption

/-! ## Translation and signatures -/

theorem Local.fresh (s : State) : Local 0 0 s s.fresh.2 := .of_threads rfl rfl

theorem Local.transChoice (s : State) (l : List Met) : Local 0 0 s (transChoice s l).1 := by
  unfold Machine.transChoice
  split
  · exact .refl s
  · exact .refl s
  · exact .fresh s

theorem Local.keepTranslation (s : State) (core : Nat) (e : TlbEntry) (ps : List PtrEntry) :
    Local 0 0 s (s.keepTranslation core e ps) := .of_threads rfl rfl

theorem Local.ite {n m : Nat} {s t u : State} {c : Prop} [Decidable c] (h : Local n m s t) (k : Local n m s u) :
    Local n m s (if c then t else u) := by split <;> assumption

theorem Local.keepWalk (s : State) (core : Nat) (w : Who) (acc : Acc) (va : Nat) (m : Met) :
    Local 0 0 s (keepWalk s core w acc va m) := by
  unfold Machine.keepWalk
  split
  · refine .ite (.then0 (.ite (.keepTranslation ..) (.refl s)) (.of_threads rfl rfl)) (.ite (.keepTranslation ..) (.refl s))
  · exact .refl s

/-- The use of a translation changes no thread. -/
theorem Local.useLeaf {s t : State} {core : Nat} {w : Who} {acc : Acc} {va pa : Nat} {m : Met} {lp : Bool}
    (h : useLeaf s core w acc va m = .ok (t, pa, lp)) : Local 0 0 s t := by
  simp only [Machine.useLeaf] at h
  repeat' split at h
  all_goals cases h
  exact .keepWalk ..

/-- A translation changes no thread, whoever it is for. -/
theorem Local.translate {s t : State} {core : Nat} {own : Option Nat} {w : Who} {acc : Acc} {va pa : Nat} {lp : Bool}
    (h : translate s core own w acc va = .ok (t, pa, lp)) : Local 0 0 s t := by
  simp only [Machine.translate] at h
  split at h
  · repeat' split at h
    all_goals cases h
    exact .refl s
  · exact (Local.transChoice s _).then0 (.useLeaf h)

theorem Local.translateBy {s t : State} {al : Bool} {acc : Acc} {va pa : Nat} {lp : Bool}
    (h : translateBy s al acc va = .ok (t, pa, lp)) : Local 0 0 s t := by
  simp only [Machine.translateBy] at h
  split at h
  · cases h
  · cases h
  · cases h
  · cases h; exact .translate ‹_›

theorem Local.translateTh {s t : State} {acc : Acc} {va pa : Nat} {lp : Bool} (h : translateTh s acc va = .ok (t, pa, lp)) :
    Local 0 0 s t := .translateBy h

theorem Local.enterRead (s : State) (pa n va : Nat) : Local 0 0 s (s.enterRead pa n va) := by
  unfold State.enterRead
  exact Local.modChunk rfl (Nat.le_refl _) (Nat.le_refl _) (Nat.le_refl _)

theorem Local.makeWay (s : State) (core line : Nat) : Local 0 0 s (s.makeWay core line) := by
  unfold State.makeWay
  dsimp only
  split
  · exact .refl s
  · exact (Local.fresh s).then0 (.modCore ..)

theorem Local.enterWrite (s : State) (pa va : Nat) : Local 0 1 s (s.enterWrite pa va) := by
  unfold State.enterWrite
  dsimp only
  split
  · exact (Local.refl s).mono (by omega) (by omega)
  · refine (Local.ite (c := decide (8 ≤ s.waysOf s.th.core (pa / 64)) = true) (.refl s)
      (.makeWay s s.th.core (pa / 64))).trans (n' := 0) (m' := 1) (.modChunk rfl (Nat.le_refl _) (Nat.le_refl _) ?_)
    dsimp only
    split <;> simp

/-- A change of the current thread that keeps what the frame looks at. -/
theorem Local.modTh {s : State} {f : Thread → Thread} (h : (f s.th).core = s.th.core ∧ (f s.th).older = s.th.older ∧
    (f s.th).regs = s.th.regs ∧ (f s.th).chunk = s.th.chunk) : Local 0 0 s (s.modTh f) := by
  obtain ⟨hc, ho, hr, hk⟩ := h
  rw [State.modTh_eq]
  exact .of_setThr hc ho (by rw [hr]) (by rw [hr]) (by rw [hr]) (by rw [hk]) (by rw [hr]) (by rw [hk]; exact Nat.le_refl _)
    (by rw [hk]; exact Nat.le_refl _) (by rw [hk]; exact Nat.le_refl _)

theorem Local.coreTh {s : State} {c : Nat} {f : Core → Core} {g : Thread → Thread} (h : ∀ th, (g th).core = th.core ∧
    (g th).older = th.older ∧ (g th).regs = th.regs ∧ (g th).chunk = th.chunk) : Local 0 0 s ((s.modCore c f).modTh g) :=
  (Local.modCore s c f).then0 (Local.modTh (h _))

theorem Local.inject (s : State) (a c o b : Nat) : Local 0 0 s (s.inject a c o b) := by
  unfold State.inject
  dsimp only
  repeat' split
  all_goals first | exact Local.refl s | exact Local.coreTh fun _ => ⟨rfl, rfl, rfl, rfl⟩

theorem Local.specWrite (s : State) (pa va : Nat) (bs : List Byte) : Local 0 1 s (s.specWrite pa va bs) :=
  (((Local.enterWrite s pa va).trans (.modChunk (n := 0) (m := 0) rfl (Nat.le_refl _) (Nat.le_refl _) (Nat.le_refl _))).trans
    (.modCore ..)).trans (.inject ..)

/-! ## Plain access -/

theorem Local.fillLine (s : State) (core pa : Nat) : Local 0 0 s (s.fillLine core pa) := by
  unfold State.fillLine
  dsimp only
  split
  · exact .modCore ..
  · exact (Local.makeWay ..).then0 (.modCore ..)

theorem Local.readPlain {s t : State} {pa n va : Nat} {w : Bool} {bs : List Byte} (h : readPlain s pa n va w = .ok (t, bs)) :
    Local 0 0 s t := by
  simp only [Machine.readPlain] at h
  repeat' split at h
  all_goals cases h
  · exact .enterRead ..
  · exact (Local.fillLine ..).trans (.enterRead ..)

theorem Local.writePlain {s t : State} {pa va : Nat} {bs : List Byte} (h : writePlain s pa va bs = .ok t) : Local 0 1 s t := by
  simp only [Machine.writePlain] at h
  repeat' split at h
  all_goals cases h
  all_goals exact .specWrite ..

/-- Some number of lines and no undo bytes. -/
def Lines (s t : State) : Prop := ∃ m, Local 0 m s t

theorem Lines.trans {s t u : State} (h : Lines s t) (k : Lines t u) : Lines s u := by
  obtain ⟨m, h⟩ := h
  obtain ⟨m', k⟩ := k
  exact ⟨m + m', h.trans k⟩

theorem Lines.refl (s : State) : Lines s s := ⟨0, .refl s⟩

theorem Lines.writeRing {s t : State} {va k : Nat} {bs : List Byte} (h : writeRing s va bs k = .ok t) : Lines s t := by
  induction k generalizing s va bs with
  | zero => cases bs <;> (simp only [Machine.writeRing] at h; cases h; exact .refl _)
  | succ k ih =>
    cases bs with
    | nil => simp only [Machine.writeRing] at h; cases h; exact .refl _
    | cons b bs =>
      simp only [Machine.writeRing] at h
      split at h
      · cases h
      · rename_i h1
        split at h
        · cases h
        · rename_i h2
          exact (Lines.trans ⟨0, Local.translateTh h1⟩ ⟨1, Local.writePlain h2⟩).trans (ih h)

theorem Lines.pushUndo {s t : State} {va pa : Nat} (h : pushUndo s va pa = .ok t) : Lines s t := by
  simp only [Machine.pushUndo] at h
  repeat' split at h
  all_goals cases h
  · exact .refl s
  · rename_i h1
    refine (Lines.writeRing h1).trans ⟨0, ?_⟩
    exact Local.modRegs rfl rfl

theorem Lines.storeTo {s t : State} {va pa : Nat} {lp : Bool} {bs : List Byte} (h : storeTo s va pa lp bs = .ok t) :
    Lines s t := by
  simp only [Machine.storeTo] at h
  split at h
  · split at h
    · cases h
    · split at h
      · cases h
      · rename_i h2
        exact (Lines.pushUndo h2).trans ⟨1, .writePlain h⟩
  · exact ⟨1, .writePlain h⟩

theorem Local.loadVa {s t : State} {va n : Nat} {w : Bool} {bs : List Byte} (h : loadVa s va n w = .ok (t, bs)) :
    Local 0 0 s t := by
  simp only [Machine.loadVa] at h
  split at h
  · cases h
  · split at h
    · cases h
    · rename_i h1
      exact (Local.translateTh h1).trans (.readPlain h)

theorem Lines.storeAt {s t : State} {va : Nat} {bs : List Byte} (h : storeAt s va bs = .ok t) : Lines s t := by
  simp only [Machine.storeAt] at h
  split at h
  · cases h
  · split at h
    · cases h
    · rename_i h1
      exact Lines.trans ⟨0, Local.translateTh h1⟩ (.storeTo h)

theorem Lines.storeVa {s t : State} {va : Nat} {bs : List Byte} (h : storeVa s va bs = .ok t) : Lines s t := by
  simp only [Machine.storeVa] at h
  repeat' split at h
  all_goals first | cases h | exact .storeAt h

theorem Local.loadMany {s t : State} {n : Nat} {w : Bool} {as : List Nat} {bs : List (List Byte)}
    (h : loadMany s n w as = .ok (t, bs)) : Local 0 0 s t := by
  induction as generalizing s bs with
  | nil => simp only [Machine.loadMany] at h; cases h; exact .refl _
  | cons a as ih =>
    simp only [Machine.loadMany] at h
    split at h
    · cases h
    · rename_i h1
      split at h
      · cases h
      · rename_i h2
        cases h
        exact (Local.loadVa h1).trans (ih h2)

theorem Lines.storeMany {s t : State} {l : List (Nat × List Byte)} (h : storeMany s l = .ok t) : Lines s t := by
  induction l generalizing s with
  | nil => simp only [Machine.storeMany] at h; cases h; exact .refl _
  | cons a l ih =>
    obtain ⟨a, b⟩ := a
    simp only [Machine.storeMany] at h
    split at h
    · cases h
    · rename_i h1
      exact (Lines.storeVa h1).trans (ih h)

theorem Local.checkVaBy {s t : State} {al : Bool} {acc : Acc} {w : Word} {n pa va : Nat}
    (h : checkVaBy s al acc w n = .ok (t, pa, va)) : Local 0 0 s t := by
  simp only [Machine.checkVaBy] at h
  split at h
  · cases h
  · split at h
    · cases h
    · split at h
      · cases h
      · rename_i h1
        cases h
        exact .translateBy h1

theorem Local.checkVa {s t : State} {acc : Acc} {w : Word} {n pa va : Nat} (h : checkVa s acc w n = .ok (t, pa, va)) :
    Local 0 0 s t := .checkVaBy h

/-! ## Typed buffers and local places -/

theorem Local.logError (s : State) (c a i ad w t : Nat) (o : Bool) (sy : BitVec 16) (cl : BitVec 4) (inj : Bool) :
    Local 0 0 s (s.logError c a i ad w t o sy cl inj).1 := .of_threads rfl rfl

theorem Local.foldl {β : Type} (f : State → β → State) (h : ∀ s b, Local 0 0 s (f s b)) (l : List β) (s : State) :
    Local 0 0 s (l.foldl f s) := by
  induction l generalizing s with
  | nil => exact .refl s
  | cons b l ih => exact (h s b).trans (ih _)

theorem Local.bufRead {s t : State} {sp : Space} {o n : Nat} {bs : List Byte} (h : bufRead s sp o n = .ok (t, bs)) :
    Local 0 0 s t := by
  simp only [Machine.bufRead] at h
  repeat' split at h
  all_goals cases h
  exact .refl s

theorem Local.captureGran (s : State) (sp : Space) (o : Nat) : Local 80 0 s (s.captureGran sp o) := by
  unfold State.captureGran
  simp only
  split
  · exact (Local.refl s).mono (by omega) (by omega)
  · exact (Local.capture s (.granule sp _)).trans
      (.modChunk (n := 0) (m := 0) rfl (Nat.le_refl _) (Nat.le_refl _) (Nat.le_refl _))

theorem Local.bufPut {s t : State} {sp : Space} {o : Nat} {bs : List Byte} (h : bufPut s sp o bs = .ok t) : Local 80 0 s t := by
  simp only [Machine.bufPut] at h
  repeat' split at h
  all_goals cases h
  exact ((Local.captureGran ..).trans (.modCore ..)).trans (.inject ..)

theorem Local.bufWrite {s t : State} {sp : Space} {o : Nat} {bs : List Byte} (h : bufWrite s sp o bs = .ok t) :
    Local 80 0 s t := by
  simp only [Machine.bufWrite] at h
  split at h
  · cases h
  · exact .bufPut h

theorem Local.localRead {s t : State} {p : LocalPlace} {va n : Nat} {bs : List Byte} (h : localRead s p va n = .ok (t, bs)) :
    Local 0 0 s t := by
  cases p with
  | buf sp o => exact .bufRead h
  | csp pa => exact .readPlain h

theorem Local.localWrite {s t : State} {p : LocalPlace} {la : Word} {bs : List Byte} (h : localWrite s p la bs = .ok t) :
    Local 80 1 s t := by
  cases p with
  | buf sp o => exact (Local.bufWrite h).mono (by omega) (by omega)
  | csp pa =>
    simp only [Machine.localWrite] at h
    split at h
    · cases h
    · exact (Local.writePlain h).mono (by omega) (by omega)

end Sys2Proof.Machine
end

