-- ==== Sys2Proof/Laws/Chunks.lean ====
section
/-!
SUPPORT. What ending a chunk and entering a handler keep.
-/
namespace Sys2Proof.Machine

/-- What the end of a chunk keeps: memory, the thread's registers and results, every other thread, and all that is not
the requests, the cores' error logs and flips, and the model's own counters. -/
structure Kept (s u : State) (t : Nat) : Prop where
  mem : u.mem = s.mem
  cur : u.cur = s.cur
  cycle : u.cycle = s.cycle
  launches : u.launches = s.launches
  flights : u.flights = s.flights
  regs : (u.thr t).regs = (s.thr t).regs
  status : (u.thr t).status = (s.thr t).status
  results : (u.thr t).results = (s.thr t).results
  core : (u.thr t).core = (s.thr t).core
  others : ∀ v, v ≠ t → u.thr v = s.thr v

theorem Kept.refl (s : State) (t : Nat) : Kept s s t := by constructor <;> simp

theorem Kept.trans {s u v : State} {t : Nat} (h : Kept s u t) (k : Kept u v t) : Kept s v t where
  mem := k.mem.trans h.mem
  cur := k.cur.trans h.cur
  cycle := k.cycle.trans h.cycle
  launches := k.launches.trans h.launches
  flights := k.flights.trans h.flights
  regs := k.regs.trans h.regs
  status := k.status.trans h.status
  results := k.results.trans h.results
  core := k.core.trans h.core
  others w hw := (k.others w hw).trans (h.others w hw)

/-- A change of the thread that keeps its registers, status, results and core. -/
theorem Kept.modThr {s : State} {t : Nat} {f : Thread → Thread} (h : (f (s.thr t)).regs = (s.thr t).regs ∧
    (f (s.thr t)).status = (s.thr t).status ∧ (f (s.thr t)).results = (s.thr t).results ∧
    (f (s.thr t)).core = (s.thr t).core) : Kept s (s.modThr t f) t where
  mem := rfl
  cur := rfl
  cycle := rfl
  launches := rfl
  flights := rfl
  regs := by rw [State.modThr_eq, State.thr_setThr_same]; exact h.1
  status := by rw [State.modThr_eq, State.thr_setThr_same]; exact h.2.1
  results := by rw [State.modThr_eq, State.thr_setThr_same]; exact h.2.2.1
  core := by rw [State.modThr_eq, State.thr_setThr_same]; exact h.2.2.2
  others v hv := by rw [State.modThr_eq, State.thr_setThr]; simp [Ne.symm hv]

/-- A change outside threads, memory and launches. -/
theorem Kept.of {s u : State} {t : Nat} (h : u.mem = s.mem ∧ u.cur = s.cur ∧ u.cycle = s.cycle ∧ u.launches = s.launches ∧
    u.flights = s.flights ∧ u.threads = s.threads) : Kept s u t := by
  obtain ⟨h1, h2, h3, h4, h5, h6⟩ := h
  have : ∀ v, u.thr v = s.thr v := by intro v; simp only [State.thr, h6]
  constructor <;> simp [*]

theorem Kept.logRebuild (s : State) (t v : Nat) (older : Bool) (f : Flip) : Kept s (logRebuild s v older f).1 t :=
  .of ⟨rfl, rfl, rfl, rfl, rfl, rfl⟩

theorem Kept.checkLines (s : State) (t v : Nat) (c : Chunk) : Kept s (checkLines s v c).1 t := by
  unfold Machine.checkLines
  dsimp only
  generalize List.filterMap _ _ = l
  generalize (none : Option Bool) = b
  induction l generalizing s b with
  | nil => exact .refl ..
  | cons f l ih => exact (Kept.logRebuild ..).trans (ih _ _)

theorem Kept.older (s : State) (t : Nat) (c : Chunk) : Kept s (s.modThr t fun th => { th with older := some c }) t :=
  .modThr ⟨rfl, rfl, rfl, rfl⟩

theorem Kept.newChunk (s : State) (t : Nat) : Kept s (s.newChunk t) t :=
  .trans (u := s.modThr t fun th => { th with chunk := Chunk.fresh s.nextUid th.regs }) (.modThr ⟨rfl, rfl, rfl, rfl⟩)
    (.of ⟨rfl, rfl, rfl, rfl, rfl, rfl⟩)

theorem Kept.requestChunk (s : State) (t : Nat) (c : Chunk) : Kept s (requestChunk s t c) t := by
  unfold Machine.requestChunk
  refine (Kept.checkLines s t t c).trans ?_
  generalize Machine.checkLines s t c = p
  obtain ⟨s', pa⟩ := p
  dsimp only
  refine Kept.trans ?_ (.modThr ⟨rfl, rfl, rfl, rfl⟩)
  refine Kept.trans ?_ (.newChunk ..)
  refine Kept.trans (.older ..) (.of ⟨rfl, rfl, rfl, rfl, rfl, rfl⟩)

/-- Ending a chunk keeps the thread's registers, memory and every other thread (R32, R35). -/
theorem Kept.cutChunk (s : State) (t code : Nat) : Kept s (s.cutChunk t code) t := by
  unfold State.cutChunk
  dsimp only
  split
  · exact .modThr ⟨rfl, rfl, rfl, rfl⟩
  · exact (Kept.requestChunk ..).trans (.modThr ⟨rfl, rfl, rfl, rfl⟩)

/-- A trap of a thread whose earlier chunk has committed and whose results have returned writes the trap CSRs and the saved
set, and leaves memory and every other thread as they were (R28, R330). -/
theorem takeTrap_regs {s : State} {cause : Nat} {tval : Word} (h1 : s.th.results = []) (h2 : s.th.regs.inRewrite = false)
    (h3 : s.th.older = none) :
    (takeTrap s cause tval).th.regs = s.th.regs.enterTrap false cause tval s.th.regs.pc ∧
    (takeTrap s cause tval).mem = s.mem ∧ (takeTrap s cause tval).cur = s.cur ∧
    ∀ v, v ≠ s.cur → (takeTrap s cause tval).thr v = s.thr v := by
  have k := Kept.cutChunk s s.cur 13
  have key : takeTrap s cause tval = enterHandler (s.cutChunk s.cur 13) s.cur false cause tval s.th.regs.pc := by
    simp [takeTrap, h1, h2, h3, k.cur]
  have hr : ((s.cutChunk s.cur 13).thr s.cur).regs = s.th.regs := k.regs
  rw [key]
  refine ⟨?_, ?_, ?_, fun v hv => ?_⟩
  · simp [enterHandler, State.sealStart, State.th, k.cur, hr]
  · simp [enterHandler, State.sealStart, k.mem]
  · simp [enterHandler, State.sealStart, k.cur]
  · simp only [enterHandler, State.sealStart, State.modThr_eq, State.thr_setThr, Ne.symm hv, if_false]
    exact k.others v hv

end Sys2Proof.Machine
end

