-- ==== Sys2Proof/Tests/Slice0.lean ====
section
/-!
SUPPORT. Tests: ill-formed terms, words decoded, single steps with results worked out by hand from the spec, and for each statement a
state and operands that meet its hypotheses.
-/
namespace Sys2Proof.Tests

set_option Elab.async false

open Sys2Proof.Machine

/-! ## States -/

/-- One thread in slot 0 of core 0, in U mode, as a launch starts it. -/
def base : State := { State.reset.withFetchWord 32 0x13 with agenda := [] }

/-- The base state with x registers. -/
def withX (l : List (Reg × Word)) : State := base.modRegs fun r => l.foldl (fun r e => r.putX e.1 e.2) r

def calm (s : State) : Bool :=
  s.live && decide (s.th.results = []) && decide (s.th.regs.marks = []) && s.soundRegs && decide (s.th.older = none) && !s.th.regs.inRewrite &&
    !s.th.regs.csr.loopC0.getLsbD 0 && !s.th.regs.csr.loopC1.getLsbD 0 && decide (s.th.chunk.count + 1 < s.th.regs.csr.chunkCur) &&
    decide (s.undoInUse s.th.core + s.th.chunk.undoBytes + 8192 ≤ Config.undoBytes) &&
    decide (s.specLines s.th.core + s.th.chunk.wlines.length + 16 ≤ Config.specLines) &&
    decide (s.overflowLines s.th.core + s.th.chunk.ovf.length + 16 ≤ 64)

theorem calm_of {s : State} (h : calm s = true) : Calm s := by
  simp only [calm, Bool.and_eq_true, decide_eq_true_eq, Bool.not_eq_true'] at h
  obtain ⟨⟨⟨⟨⟨⟨⟨⟨⟨⟨⟨a, b⟩, c⟩, o⟩, d⟩, e⟩, f⟩, g⟩, k⟩, l⟩, m⟩, n⟩ := h
  exact ⟨⟨a, b, c, o, d, e, f, g, k⟩, l, m, n⟩

def rewriting (s : State) : Bool :=
  s.live && decide (s.th.results = []) && decide (s.th.regs.marks = []) && s.soundRegs && decide (s.th.older = none) && s.th.regs.inRewrite &&
    s.th.chunk.rewrite && !s.th.regs.csr.loopC0.getLsbD 0 && !s.th.regs.csr.loopC1.getLsbD 0 &&
    decide (s.th.chunk.count + 1 < 16384)

theorem rewriting_of {s : State} (h : rewriting s = true) : Rewriting s := by
  simp only [rewriting, Bool.and_eq_true, decide_eq_true_eq, Bool.not_eq_true'] at h
  obtain ⟨⟨⟨⟨⟨⟨⟨⟨⟨a, b⟩, c⟩, o⟩, d⟩, e⟩, f⟩, g⟩, k⟩, l⟩ := h
  exact ⟨a, b, c, o, d, e, f, g, k, l⟩

/-- An answer, not a stop. -/
def okay {α : Type} : Except Stop α → Bool
  | .ok _ => true
  | .error _ => false

/-- An answer that satisfies a test. -/
def okayAnd {α : Type} (r : Except Stop α) (f : α → Bool) : Bool :=
  match r with
  | .ok a => f a
  | .error _ => false

/-- The state after an outcome, where there is one. -/
def after (o : Host.Outcome State Fault Refusal) : State :=
  match o with
  | .next s => s
  | _ => State.reset

/-- The line at 0x2000 in the L1 of core 0, and x1 = 0x2000. -/
def loaded : State := (withX [(1, 0x2000), (2, 0x77)]).fillLine 0 0x2000

/-! ## Witnesses: the base instructions -/

theorem witness_calm : Calm base ∧ Calm loaded := ⟨calm_of (by decide), calm_of (by decide)⟩

theorem witness_branches : branchTaken .beq 0 0 = true ∧ branchTaken .bne 0 0 = false ∧
    ((0x1000 : Word) + ((2 : BitVec 12) ++ (0 : BitVec 1)).signExtend 64).toNat % 4 = 0 ∧
    ((0x1000 : Word) + ((1 : BitVec 12) ++ (0 : BitVec 1)).signExtend 64).toNat % 4 ≠ 0 := by decide +kernel

theorem witness_plain_access : okay (pointerAddr (loaded.x 1) 4) = true ∧ okay (loadVa loaded 0x2004 4 true) = true ∧
    okay (storeVa loaded 0x2004 [1, 2, 3, 4]) = true ∧ bits loaded.who.satp 63 60 = 0 ∧ reachable loaded loaded.who 0x2004 = true ∧
    loaded.flipWait 0x2004 = false ∧ loaded.ldaWait = none ∧ loaded.poisonedFor 0x2004 = false ∧
    loaded.badGroup 0x2004 4 = none ∧ loaded.tainted 0x2004 4 = false ∧ loaded.present 0x2004 4 = true ∧ loaded.inEvent = false ∧
    loaded.th.chunk.relaxedMeets 0x2004 4 = false ∧ ptrOk 0xF000000000000000 = false ∧ 0x2002 % 4 ≠ 0 ∧
    ptrOk 0x00FFFFFFFFFFFFFF = true := by decide +kernel

theorem witness_own_write : ∀ x ∈ base.th.chunk.post, actByte 0x2000 x = none := by decide +kernel

/-- In an event of a thread whose state region is the 64 KiB at 0, under one page that has LPPRIV or not: x1 = 0x2000 lies in the
region and x2 = 0x20000 does not. -/
def paged (lp : Bool) : State :=
  let pte : Word := 0xDF ||| if lp then 0x800 else 0
  let pte := if base.localDie 0x2000 then pte ||| 0x400 else pte
  let s := (withX [(1, 0x2000), (2, 0x20000), (3, 5)]).modRegs fun r => { r with
    csr := { r.csr with satp := 0xA000000000000010 }
    opt := { r.opt with on := true, inEvent := true, sbase := 0, ssize := 0x10000, ubase := 0x8000, uent := 16, logged := [0x80] } }
  let ptr := fun (a : Nat) => leBytes 8 (a / 4096 * 2 ^ 14 + 1)
  let m := memWrite (memWrite s.mem 0x10000 (ptr 0x11000)) 0x11000 (ptr 0x12000)
  State.fillLine { s with mem := memWrite m 0x12000 (leBytes 8 pte.toNat) } 0 0x2000

theorem witness_lr : okayAnd (translateTh loaded .load 0x2000) (fun r => okay (readPlain r.1 r.2.1 8 0x2000 true)) = true ∧
    okay (pointerAddr (loaded.x 1) 0) = true ∧ loaded.optBars 0x2000 8 = false ∧ calm (paged false) = true ∧
    (paged false).optBars 0x20000 8 = true ∧ (paged false).optBars 0x2000 8 = false ∧
    okayAnd (translateTh (paged false) .load 0x2000) (fun r => !r.2.2 && r.1.inEvent) = true ∧
    okayAnd (translateTh (paged true) .load 0x2000) (fun r => r.2.2 && okay (readPlain r.1 r.2.1 8 0x2000 true)) = true := by
  decide +kernel

theorem witness_sc : (after (exec (.lr true false false 3 1) loaded)).th.chunk.lrs.contains 0x2000 = true ∧
    loaded.th.chunk.lrs.contains 0x2000 = false ∧ okayAnd (translateTh loaded .store 0x2000) (fun r => r.2.1 == 0x2000) = true ∧
    okayAnd (translateTh (after (exec (.lr true false false 3 1) loaded)) .store 0x2000) (fun r =>
      okay (storeTo r.1 0x2000 r.2.1 r.2.2 (leBytes 8 0x77))) = true := by decide +kernel

theorem witness_amo : (∀ n ∈ [4, 8], okayAnd (translateTh loaded .store 0x2000) (fun r =>
    okayAnd (readPlain r.1 r.2.1 n 0x2000 true) fun q =>
      okay (storeTo q.1 0x2000 r.2.1 r.2.2 (leBytes n (amoValue .add (BitVec.ofNat 64 (leNat q.2)) 0x77).toNat))) = true) ∧
    (paged false).optBars 0x20000 4 = true := by decide +kernel

/-- A relaxed store of the chunk stands at 0x2000; an AMO in an event meets a page without LPPRIV. -/
theorem witness_atomics : okayAnd (translateTh (after (exec (.stxD false 1 2) loaded)) .load 0x2000) (fun r =>
      okayAnd (readPlain r.1 r.2.1 8 0x2000 true) fun q => q.1.th.chunk.relaxedMeets 0x2000 8) = true ∧
    okayAnd (translateTh (paged false) .store 0x2000) (fun r => !r.2.2 && okayAnd (readPlain r.1 r.2.1 8 0x2000 true) (·.1.inEvent)) = true ∧
    (after (exec (.fenceI 0 0 0) base)).threads.length = 1 := by decide +kernel

theorem witness_fence_s : (scopeOf packageScope).isSome = true ∧ scopeOf 0xF000000000000000 = none := by decide +kernel

theorem witness_modes : base.th.regs.smode = false ∧ (takeTrap base 8 0).th.regs.smode = true ∧
    calm (base.modRegs fun r => { r with smode := true }) = true ∧ (8 : Nat) < 2 ^ 63 := by decide +kernel

/-- A thread with a mark, an active loop and an event in progress, and no result outstanding. -/
def marked : State := base.modRegs fun r => { r with marks := [.x 3], csr := { r.csr with loopC0 := 0x8B, loopC1 := 0x8B }
                                                     opt := { r.opt with on := true, inEvent := true } }

theorem witness_entry : marked.th.results = [] ∧ marked.th.regs.inRewrite = false ∧ marked.th.older = none ∧
    marked.th.regs.csr.loopC0.getLsbD 0 = true ∧ marked.th.regs.opt.inEvent = true := by decide +kernel

/-- The base state with x3 pending, and a result for it outstanding. -/
def pending : State := base.setLong .far (.x 3 7) none

/-- The same after the result has returned: the mark stays. -/
def returned : State := pending.modTh fun th => { th with results := [] }

theorem witness_pending : realReg (.x 3) = true ∧ pending.th.results ≠ [] ∧ pending.live = true ∧ returned.live = true ∧
    returned.th.results = [] ∧ returned.th.regs.marks ≠ [] ∧ firstPending returned [.x 1, .x 3] = some (.x 3) ∧
    csrIllegal returned 0x801 (csrWrites .rw 3) = false ∧ returned.th.tile = true ∧ returned.launch.det = false ∧
    returned.th.regs.inRewrite = false ∧ firstPending (base.setLong .tile (.ta 3 0) none) [.ta 3] = some (.ta 3) ∧
    (returned.modRegs fun r => { r with smode := true }).th.regs.smode = true := by decide +kernel

/-- RECVT with a result outstanding, IXRULE in a rewrite, AEQW and AEQR of a pair, and ENQ to the checkpoint engine. -/
theorem witness_parks : (let s := pending.modRegs fun r => { r with opt := { r.opt with on := true } };
      s.live = true ∧ s.th.regs.opt.on = true ∧ s.th.regs.opt.inEvent = false ∧ s.th.results ≠ []) ∧
    (let s := pending.modRegs fun r => { r with inRewrite := true }; s.live = true ∧ s.launch.det = false ∧ s.th.regs.inRewrite = true) ∧
    (let s := base.modCsr fun c => { c with bind := true };
      let s := { s with threads := tabSet s.threads 1 { s.thr 0 with slot := 8, chunk := Chunk.fresh 9 Regs.reset } };
      (s.partner s.cur = some 1 ∧ s.live = true)) ∧
    (pending.modRegs fun r => { r with smode := true }).th.regs.smode = true ∧ pending.th.regs.opt.on = false := by decide +kernel

/-- ADDI of a pending register traps with PENDREG and names x3; PTRCLR.P of it parks, and then runs (R26, R27). -/
theorem test_pending : (after (exec (.baseCompute (.imm .addi 1 3 1)) returned)).th.regs.csr.scause = 24 ∧
    (after (exec (.baseCompute (.imm .addi 1 3 1)) returned)).th.regs.csr.stval = 3 ∧
    (after (exec (.ptrclr true 1 3) pending)).th.status = .retry .parked ∧
    (after (exec (.ptrclr true 1 3) returned)).th.regs.marks = [] := by decide +kernel

/-! ## Witnesses: chunks, pairs, supervisor instructions -/

/-- In S mode. -/
def sup : State := base.modRegs fun r => { r with smode := true }

/-- The base state after one instruction of its chunk. -/
def worked : State := after (exec (.baseCompute (.imm .addi 3 0 5)) base)

theorem witness_bar : barScopeOk packageScope base.th.placeCore = true ∧ barScopeOk 0x3FFFF base.th.placeCore = false ∧
    base.inEvent = false := by decide +kernel

theorem witness_cut : worked.th.chunk.count ≠ 0 ∧ (worked.coreOf worked.th.core).halted = false ∧
    parityFlips worked worked.th.core worked.th.chunk = [] ∧
    ∀ u ∈ worked.requests, u ≠ worked.cur ∧ (((worked.thr u).older.map (·.reqAt)).getD 0) < worked.cycle := by decide +kernel

theorem witness_loop : (withX [(5, 3)]).x 5 ≠ 0 ∧ (withX [(5, 0)]).x 5 = 0 ∧ 1 ≤ (1 : BitVec 11).toNat := by decide +kernel

/-- Level 0 active over two instructions from 0x1000, counted in x5; and level 1 alike. -/
def inLoop (l : Nat) (n : Word) : State := (withX [(5, n)]).modRegs fun r => { r with csr :=
  if l = 0 then { r.csr with loopS0 := 0x1000, loopC0 := 0x8B } else { r.csr with loopS1 := 0x1000, loopC1 := 0x8B } }

theorem witness_loop_rule : loopLevel (inLoop 1 2).th.regs.csr 1 = (true, 0x1000, 0x1004, 5) ∧ (inLoop 1 2).x 5 ≠ 0 ∧
    (inLoop 1 0).x 5 = 0 ∧ (loopLevel (inLoop 1 0).th.regs.csr 0).1 = false ∧ (loopLevel (inLoop 0 2).th.regs.csr 1).1 = false ∧
    loopLevel (inLoop 0 2).th.regs.csr 0 = (true, 0x1000, 0x1004, 5) ∧ (0x1008 : Word) > 0x1004 ∧ (0xFFC : Word) < 0x1000 ∧
    (0x1000 : Word) ≤ 0x1004 := by decide +kernel

/-- Both levels active, and ending at the same instruction. -/
def inLoops (n1 n0 : Word) : State := (withX [(5, n1), (6, n0)]).modRegs fun r => { r with csr :=
  { r.csr with loopS0 := 0xFFC, loopC0 := 0xCD, loopS1 := 0x1000, loopC1 := 0x8B } }

theorem witness_loop_levels : loopLevel (inLoops 0 2).th.regs.csr 1 = (true, 0x1000, 0x1004, 5) ∧ (inLoops 0 2).x 5 = 0 ∧
    loopLevel (inLoops 0 2).th.regs.csr 0 = (true, 0xFFC, 0x1004, 6) ∧ (inLoops 0 2).x 6 ≠ 0 ∧ (inLoops 0 0).x 6 = 0 ∧
    (loopLevel (inLoop 0 0).th.regs.csr 1).1 = false ∧ (inLoop 0 0).x 5 = 0 ∧
    ((0xFFC : Word) < 0x1000 ∧ ¬ ((0xFFC : Word) < 0xFFC ∨ (0x1004 : Word) < 0xFFC)) := by decide +kernel

/-- Two threads of one launch, bound, in slots 0 and 8 of core 0; the second one's word waits in each queue. -/
def pair : State :=
  let s := base.modCsr fun c => { c with bind := true }
  let s := { s with threads := tabSet s.threads 1 { s.thr 0 with slot := 8, chunk := Chunk.fresh 9 Regs.reset } }
  s.setPair { rq := [(7, 0)], fq := [(8, 9)] }

theorem witness_pair : calm pair = true ∧ pair.partner 0 = some 1 ∧ pair.th.slot < 8 ∧ pair.pairOf.rq.length < 4 ∧
    pair.pairOf.fq = [(8, 9)] ∧ calm { pair with cur := 1 } = true ∧ State.partner { pair with cur := 1 } 1 = some 0 ∧
    (State.pairOf { pair with cur := 1 }).rq = [(7, 0)] ∧ (State.pairOf { pair with cur := 1 }).fq.length < 16 ∧
    pair.inEvent = false ∧ 8 ≤ (pair.thr 1).slot ∧ base.partner 0 = none ∧ base.live = true := by decide +kernel

/-- A valid context area at 0x4000, for a thread without tile state, and x1 = 0x4000, x2 = 3. -/
def area : State :=
  let s := (withX [(1, 0x4000), (2, 3)]).modRegs fun r => { r with smode := true }
  { s with mem := memWrite (memWrite s.mem 0x4000 [1]) 0x7D00 [5] }

/-- The same with another thread in slot 3, or with that thread out and this one waiting to save it. -/
def occupied : State := { area with threads := tabSet area.threads 1 { area.thr 0 with slot := 3 } }

def awaiting : State :=
  { area.modTh (fun th => { th with status := .retry (.ctx 1) }) with
    threads := tabSet (tabSet area.threads 0 { area.thr 0 with status := .retry (.ctx 1) }) 1 { area.thr 0 with loc := .tcc, slot := 3 } }

theorem witness_supervisor : calm area = true ∧ area.th.regs.smode = true ∧ base.th.regs.smode = false ∧ area.x 2 = BitVec.ofNat 64 3 ∧
    3 ≠ area.th.slot ∧ area.inSlot 0 3 = none ∧ area.th.status = .ready ∧ okay (areaBlocks area .store (area.x 1) 1) = true ∧
    calm occupied = true ∧ occupied.inSlot 0 3 = some 1 ∧ occupied.partner 1 = none ∧
    okay (areaBlocks occupied .store (occupied.x 1) 1) = true ∧
    calm awaiting = true ∧ awaiting.th.status = .retry (.ctx 1) ∧ awaiting.inSlot 0 3 = none ∧ (awaiting.thr 1).isOut = true ∧
    awaiting.outPartner 1 = none ∧ okay (areaBlocks awaiting .store (awaiting.x 1) 1) = true ∧
    okayAnd (areaBlocks area .load (area.x 1) 1) (fun r =>
      let h : Word := BitVec.ofNat 64 (leNat (r.1.viewBlock r.2 0))
      h.getLsbD 0 && !h.getLsbD 1 && !h.getLsbD 3 && leNat (r.1.viewBlock r.2 61) != 0) = true ∧
    area.inEvent = false ∧ okay (checkVa area .store (area.x 1) 64) = true := by decide +kernel

/-- The thread that a CTXSAVE waited for has exited, and slot 3 is empty. -/
def left : State :=
  { area.modTh (fun th => { th with status := .retry (.ctx 1) }) with
    threads := tabSet (tabSet area.threads 0 { area.thr 0 with status := .retry (.ctx 1) }) 1 { area.thr 0 with loc := .exited, slot := 3 } }

theorem witness_left : calm left = true ∧ left.th.status = .retry (.ctx 1) ∧ left.inSlot 0 3 = none ∧ (left.thr 1).isOut = false ∧
    okay (areaBlocks left .store (left.x 1) 1) = true ∧ (occupied.inSlot 0 3).isSome = true ∧ area.slotKept 0 3 = false := by
  decide +kernel

/-! ## Witnesses: local memory, reductions, reservations, relaxed access -/

theorem witness_local : okayAnd (ldlPlace base 0x1000000000000000 0 3 0 false) (fun r => okay (localRead base r.1 r.2.2.toNat r.2.1)) = true ∧
    okayAnd (ldlPlace base 0x1000000000000000 0 3 0 true) (fun r => okay (localWrite base r.1 r.2.2 (leBytes 8 5))) = true ∧
    windowHas base.th.regs.csr.cbwin 262136 = true ∧ windowHas 0x00 16384 = false ∧ base.launch.csp = 0 ∧
    524280 % 8 = 0 ∧ 524280 + 8 ≤ 524288 ∧ 262136 + 8 ≤ 262144 ∧ 4088 + 8 ≤ 4096 := by decide +kernel

theorem witness_posted : (∀ n ∈ [4, 8, 16], okay (checkVa loaded .store (loaded.x 1) n) = true) ∧ loaded.launch.det = false ∧
    okayAnd (checkVa (loaded.modLaunch 0 fun l => { l with det := true }) .store 0x2000 4) (fun r => r.1.launch.det) = true ∧
    (0x80 : Nat) < 2 ^ 8 := by decide +kernel

/-- The base thread holds the word at 0x2000. -/
def holding : State := { loaded with reserved := [{ pa := 0x2000, holder := some 0, started := true, waiters := [], size := 4, value := 0 }] }

theorem witness_reservation : (∀ n ∈ [4, 8], okayAnd (checkVa loaded .store (loaded.x 1) n) (fun r => r.1.placeOf r.2.1 == .own &&
      !r.1.holds r.1.cur r.2.1 && !r.1.awaits r.1.cur r.2.1 && decide ((r.1.heldWords r.1.cur).length < 4)) = true) ∧
    (∀ n ∈ [4, 8], okayAnd (checkVa holding .store (holding.x 1) n) (fun r =>
      r.1.holds r.1.cur r.2.1 && r.1.placeOf r.2.1 == .own && okay (writePlain r.1 r.2.1 r.2.2 (leBytes n 7))) = true) ∧
    okayAnd (checkVa holding .load (holding.x 1) 4) (fun r => !r.1.poison.contains (r.2.1 / 64)) = true := by decide +kernel

/-- Device 1 is in the domain, and x1 names its memory; the device alias stands at the start of the window, and x1 names it. -/
def farLoad : State := { (withX [(1, 0x10000000000)]) with reg := { base.reg with domain := 3 } }
def aliased : State := { (withX [(1, 0x8000000000000)]) with reg := { base.reg with alias0 := some 0 } }

theorem witness_relaxed : okay (checkVaBy loaded false .store (loaded.x 1) 4) = true ∧ okay (checkVaBy loaded true .store (loaded.x 1) 8) = true ∧
    okayAnd (checkVa loaded .load (loaded.x 1) 8) (fun r => r.1.ldaWait.isNone && !r.1.poisonedFor r.2.1 && !r.1.isFar r.2.1 &&
      !r.1.invalWaits r.1.th.core r.2.1 && !r.1.homeTainted r.2.1 && !r.1.inAlias r.2.1) = true ∧
    (∀ n ∈ [4, 8], okayAnd (checkVa farLoad .load (farLoad.x 1) n) (fun r => r.1.ldaWait.isNone && !r.1.poisonedFor r.2.1 && r.1.isFar r.2.1 &&
      !r.1.invalWaits r.1.th.core r.2.1 && !r.1.homeTainted r.2.1 && (r.1.ownByte r.1.cur r.2.1).isNone &&
      decide (r.1.farCount r.1.cur < 1024)) = true) ∧
    okayAnd (checkVaBy aliased true .load (aliased.x 1) 8) (fun r => r.1.inAlias r.2.1 && r.1.ldaWait.isNone &&
      !r.1.invalWaits r.1.th.core r.2.1 && !bar0Waits r.1 (r.1.aliasOff r.2.1) .load && ((List.range 8).mapM fun i => r.1.ownByte r.1.cur (r.2.1 + i)) == none) = true ∧
    (scopeOf packageScope).isSome = true := by decide +kernel

/-! ## Witnesses: vectors, tiles, generators, CSRs -/

/-- The base state with another VTYPE. -/
def withType (n : BitVec 8) : State := base.modCsr fun c => { c with vtype := n }

theorem witness_vector : calm base = true ∧ (vtypeOf base.th.regs.csr.vtype).fmt = 7 ∧ calm (withType 0) = true ∧
    (vtypeOf (withType 0).th.regs.csr.vtype).fmt = 0 ∧ (vtypeOf (withType 1).th.regs.csr.vtype).fmt = 1 ∧
    (vtypeOf (withType 9).th.regs.csr.vtype).fmt = 9 ∧ 9 < (vtypeOf (withType 10).th.regs.csr.vtype).fmt ∧
    (vtypeOf (withType 5).th.regs.csr.vtype).fmt = 5 ∧ (vtypeOf (withType 4).th.regs.csr.vtype).fmt < 5 := by decide +kernel

/-- Accesses of vector memory and conversions to and from codes that stand for no format. -/
theorem witness_vtype : calm (withType 10) = true ∧ (0 : BitVec 4).toNat = 0 ∧ 9 < (10 : BitVec 4).toNat := by decide +kernel

theorem witness_extract : activeAt (base.p 0) 32 0 = true ∧ activeAt (base.p 1) 32 0 = false ∧
    (fmtIsInt 7 && !(vtypeOf base.th.regs.csr.vtype).uns) = false ∧
    (fmtIsInt (vtypeOf (withType 1).th.regs.csr.vtype).fmt && !(vtypeOf (withType 1).th.regs.csr.vtype).uns) = true := by decide +kernel

theorem witness_vector_memory : ptrOk (loaded.x 1) = true ∧
    okayAnd (elemAddrs (loaded.x 1) (vmemOffset loaded (vtypeOf 7) .unit) (activeList (loaded.p 0) 32)) (fun a =>
      a == (List.range 16).map (fun i => 0x2000 + 4 * i) && okay (loadMany loaded 4 false a) &&
        okay (storeMany loaded (a.zip (a.map fun _ => leBytes 4 5)))) = true := by decide +kernel

theorem witness_vector_local : okayAnd (vlocalPlace (withX [(1, 0x1000000000000000)]) 0x1000000000000000) (fun p =>
    okay (readElems base p 0x1000000000000000 4 [0, 1]) &&
      okay (writeElems base p 0x1000000000000000 [(0, leBytes 4 5), (4, leBytes 4 6)])) = true := by decide +kernel

/-- A thread in a slot without tile state. -/
def noTile : State := base.modTh fun th => { th with tile := false, slot := 9 }

theorem witness_tiles : calm base = true ∧ base.th.tile = true ∧ noTile.live = true ∧ noTile.th.tile = false ∧
    (shapeFields (base.tshape 0)).ok = true ∧ (shapeFields (base.tshape 0)).q4 = false ∧ (shapeFields (base.tshape 0)).fmt = 7 ∧
    (shapeFields (base.tshape 0)).k ≤ 16 ∧ (shapeFields (base.tshape 0)).rows * (shapeFields (base.tshape 0)).e / 8 ≤ 64 ∧
    (shapeFields 0xD).ok = false := by decide +kernel

/-- A TSHAPE of one row of 64 bytes of FP32, and x1 = 0x2000 in format RAW. -/
def oneRow : State := loaded.setTshape 2 0x3F07

theorem witness_tile_memory : ptrOk (oneRow.x 1) = true ∧ (shapeFields (oneRow.tshape 2)).ok = true ∧
    okay (loadRows oneRow (shapeFields (oneRow.tshape 2)) 1 false (List.range 1)) = true ∧
    okay (storeRows oneRow (shapeFields (oneRow.tshape 2)) 1 false (oneRow.tl 2) (List.range 1)) = true ∧
    bits (oneRow.x 1) 63 60 = 0 ∧ bits ((0x7000000000000000 : Word)) 63 60 ≠ 0 := by decide +kernel

theorem witness_accumulator : okayAnd (accWindow base 0x3000000000000000) (· == 0) = true ∧
    windowBusy (base.coreOf base.th.placeCore) 0 = (none, false) ∧
    windowBusy { base.coreOf 0 with sb := [⟨1, some (.cb, 0, 64, true)⟩] } 0 = (some 0, true) ∧
    okay ((List.range 16).foldlM (fun (st : State × List Nat) r => do
      let (s, b) ← bufRead st.1 .cb (0 + r * 256) 64
      .ok (s, st.2 ++ [leNat b])) (base, [])) = true ∧
    okay ((List.range 16).foldlM (fun (u : State) r => bufPut u .cb (0 + r * 256) (leBytes 64 0)) base) = true ∧ bits (0x3000000000000000 : Word) 63 60 = 3 ∧
    (1 ≤ (shapeFields (base.tshape 0)).fmt) := by decide +kernel

theorem witness_products : fmtPairOk 7 7 = true ∧ bDims (shapeFields (base.tshape 0)) false 16 = some 16 ∧
    bDims (shapeFields 0x1FF7) false 16 = none ∧ (shapeFields 0x1FF7).ok = true ∧ base.th.regs.csr.nctl = false ∧
    2 * (shapeFields 0x1FF7).k = 16 ∧ (shapeFields 0x1FF7).q4 = false ∧
    ((List.range 16).all fun i => (List.range 4).all fun q => decide ((metaPair (rowsOf (List.replicate 16 0x4444)) i q).1 <
      (metaPair (rowsOf (List.replicate 16 0x4444)) i q).2)) = true := by decide +kernel

/-- With NTRAP, a product without a new NaN, and one of an infinity by 0. -/
def trapping (q : Nat) : State := (base.modCsr fun c => { c with nctl := true }).modRegs fun r => r.put (.tl 0 ⟨BitVec.ofNat 8192 q, 0⟩)

/-- A tile of NVFP4 whose scales lie in ST, and one of MXFP4 with its own. -/
def scaled (f : BitVec 32) : State := base.setTshape 1 f

theorem witness_ntrap : calm (trapping 0) = true ∧ (trapping 0).th.regs.csr.nctl = true ∧
    (let s := trapping 0; let h := shapeFields (s.tshape 0); let b := tileOperand h [] (s.tl 0);
      h.ok && !h.q4 && (product (s.ta 0) b (b.turned false) h.rows 16 h.k).2.2.2.isNone) = true ∧
    (let s := trapping 0x7F800000; let h := shapeFields (s.tshape 0); let b := tileOperand h [] (s.tl 0);
      (product (s.ta 0) b (tileOperand h [] (s.tl 1)) h.rows 16 h.k).2.2.2.isSome) = true ∧
    okay (readScales base (shapeFields (base.tshape 0)) (base.tl 0)) = true := by decide +kernel

theorem witness_generators : gValid ((7 : GReg) <<< 228) = true ∧ gKind ((7 : GReg) <<< 228) = 0 ∧ gValid (base.g 0) = false ∧
    fmtPairOk (shapeFields (base.tshape 0)).fmt (gOut ((7 : GReg) <<< 228)) = true := by decide +kernel

/-- A rope generator reads its frequencies from ST, which lists nothing. -/
theorem witness_ropes : gValid ((4 : GReg) <<< 232 ||| (7 : GReg) <<< 228) = true ∧
    okay (readRopes base ((4 : GReg) <<< 232 ||| (7 : GReg) <<< 228) 16) = true := by decide +kernel

theorem witness_csr : csrIllegal base 0x801 (csrWrites .rw 0) = false ∧ csrWrites .rs 0 = false ∧ csrWrites .rw 0 = true ∧
    okay (csrWrite base 0x801 (csrNew .rw (csrRead base 0x801) 5)) = true ∧ csrSupervisor 0x100 = true ∧
    okay (csrWrite base 0x803 (csrNew .rw (csrRead base 0x803) 512)) = true ∧ okay (csrWrite base 0x80C 0x8B) = true ∧
    (0xCC0 : BitVec 12).toNat ≤ (0xCCB : BitVec 12).toNat ∧ (0x831 : BitVec 12).toNat ≤ 0xCBF := by decide +kernel

theorem witness_csr_rules : base.live = true ∧ (scopeOf packageScope).isSome = true ∧ scopeOf 0xFFFF = none ∧
    bits (0x40 : Word) 16 6 ≠ 0 ∧ bits (0x3F : Word) 16 6 = 0 ∧ bits (0xB000000000000000 : Word) 63 60 = 11 ∧
    bits (0x9000000000000000 : Word) 63 60 = 9 ∧ base.th.slot < 8 ∧ pair.inSlot 0 (pair.th.slot + 8) = some 1 ∧
    (pair.thr 1).lid = pair.th.lid := by decide +kernel

/-- An entry in the log of array 3, with ERRSEL on its word 2. -/
def withLog : State :=
  let e : ErrEntry := { addr := 8, launchid := 0, lindex := 0, syndrome := 0, attempt := 0, cls := 1, inj := false, lost := false,
                        valid := true, chunkno := 0, word := 0, time := 0, stamp := 0, index := 0 }
  (base.modCore 0 fun c => { c with errlog := tabSet c.errlog 3 [e] }).modCsr fun c => { c with errsel := 0x0803 }

theorem witness_log : withLog.live = true ∧ (withLog.th.regs.csr.errsel.extractLsb' 10 2).toNat = 2 ∧
    (withLog.th.regs.csr.errsel.extractLsb' 0 4).toNat < 10 ∧
    ((tabGet [] (withLog.coreOf (selectedLog withLog).1).errlog (selectedLog withLog).2.1)[(selectedLog withLog).2.2]?).isSome = true ∧
    csrIllegal base 0x801 true = false ∧ okay (csrWrite base 0x801 3) = true ∧ (8 : Nat) % 8 = 0 := by decide +kernel

/-! ## Witnesses: messages, optimistic events, tasks, nets, commands -/

/-- A descriptor of the base thread's own position: core (0, 0), slot 0, no payload. -/
theorem witness_send : base.th.sendUsed < Config.sendEntries ∧ descOk base 0 = true ∧ descOk base 0x30 = false ∧
    base.th.regs.opt.on = false ∧ base.th.regs.opt.inEvent = false := by decide +kernel

/-- A held untimed message of channel 0, and a timed one of VRT 5. -/
def note (vrt : Word) (n : Word) : Msg :=
  { vrt := vrt, seq := 1, anti := false, len := 0, ch := 0, dthr := 0, sthr := 0, sy := 0, sx := 0, srcDev := 0, payload := 0
    ordinal := n, ring := false, place := 0, processed := false }

/-- The same in the spill ring, in a given place. -/
def ringed (k : Nat) : Msg := { note 0 0 with ring := true, place := k }

def held : State := (withX [(1, 0x1), (2, 0x0000000100000000), (3, 0x80000000)]).modTh fun th => { th with recvq := [note 0 0] }

theorem witness_receive : calm held = true ∧ held.th.recvq.find? (recvWants (channelMask (held.x 1)) none) = some (note 0 0) ∧
    base.th.recvq.find? (recvWants (channelMask (base.x 1)) none) = none ∧
    held.th.recvq.find? (recvWants (channelMask (held.x 1)) (some (held.x 2))) = some (note 0 0) ∧
    (held.x 2).getLsbD 31 = false ∧ (held.x 3).getLsbD 31 = true ∧ ringStop held 1 (note 0 0) = none := by decide +kernel

/-- A ring message held, with the lines of the given offsets of its entry poisoned. -/
def ringHeld (bad : List Nat) : State :=
  let s := held.modTh fun th => { th with recvq := [ringed 0] }
  { s with poison := bad.map fun k => s.ringEntry s.cur (ringed 0) / 64 + k }

theorem witness_ring : (ringHeld []).th.recvq.find? (recvWants (channelMask ((ringHeld []).x 1)) none) = some (ringed 0) ∧
    (ringed 0).ring = true ∧ ringStop (ringHeld []) 1 (ringed 0) = none ∧
    (ringHeld [0]).poison.contains ((ringHeld [0]).ringEntry (ringHeld [0]).cur (ringed 0) / 64) = true ∧
    (ringHeld [1]).poison.contains ((ringHeld [1]).ringEntry (ringHeld [1]).cur (ringed 0) / 64) = false ∧
    (ringHeld [1]).poison.contains ((ringHeld [1]).ringEntry (ringHeld [1]).cur (ringed 0) / 64 + 1) = true := by decide +kernel

/-- A descriptor for OPTON at 0x2000, with 16 places in each ring. -/
def described : State :=
  let s := withX [(1, 0x2000)]
  { s with mem := memWrite s.mem 0x2000 ((leBytes 8 0x10000 ++ leBytes 8 64 ++ leBytes 8 0x20000 ++ leBytes 8 0x30000 ++
      leBytes 8 0x40000 ++ leBytes 8 0x1000100010) ++ leBytes 8 0x1FFFF) }.fillLine 0 0x2000

/-- In optimistic mode, with a timed message held. -/
def optimistic : State := (base.modRegs fun r => { r with opt := { r.opt with on := true, ient := 16, oent := 16, uent := 16 } }).modTh
  fun th => { th with recvq := [note 5 0] }

/-- In an event at VRT 5. -/
def inAnEvent : State := (withX [(1, 0x2000), (2, 6), (3, 5)]).modRegs fun r =>
  { r with opt := { r.opt with on := true, inEvent := true, evVrt := 5, ient := 16, oent := 16, uent := 16 } }

theorem witness_optimistic : calm described = true ∧
    okayAnd (loadVa described 0x2000 64 false) (fun r => optionsOk r.2) = true ∧ 0x2000 % 64 = 0 ∧
    okayAnd (pointerAddr (described.x 1) 0) (· == 0x2000) = true ∧ ringStop optimistic 1 (note 5 0) = none ∧
    described.th.regs.opt.on = false ∧ calm optimistic = true ∧
    optimistic.th.regs.opt.on = true ∧ optimistic.th.chunk.count = 0 ∧ leastTimed optimistic.th.recvq = some (note 5 0) ∧
    calm inAnEvent = true ∧ inAnEvent.inEvent = true ∧ okay (checkVa inAnEvent .store (inAnEvent.x 1) 8) = true ∧
    inAnEvent.th.regs.opt.irr.length + pendingIrr inAnEvent inAnEvent.cur < inAnEvent.th.regs.opt.ient ∧
    lvtWord inAnEvent.th.regs.opt < inAnEvent.x 2 ∧ inAnEvent.x 3 ≤ lvtWord inAnEvent.th.regs.opt ∧
    inAnEvent.th.regs.opt.out.length + pendingOut inAnEvent inAnEvent.cur < inAnEvent.th.regs.opt.oent ∧
    optoffWaits optimistic 0 = false ∧
    optoffWaits (optimistic.modRegs fun r => { r with opt := { r.opt with out := [⟨0, 0, 0, 0⟩] } }) 0 = true := by decide +kernel

/-- A task and an active pair in the Kennel of core 0. -/
def tasked : State := base.modCore 0 fun c => c.setKennel 0 [
  { pair := false, w0 := 0x3000, w1 := 0, pusher := none, taker := none, spilled := false, place := 0 },
  { pair := true, w0 := 0x40, w1 := 0x80, pusher := none, taker := none, spilled := false, place := 0 }]

/-- A Kennel of 100 tasks on core. -/
def stocked : State := base.modCore 0 fun c => c.setKennel 0
  (List.replicate 100 { pair := false, w0 := 0x3000, w1 := 0, pusher := none, taker := none, spilled := false, place := 0 })

theorem witness_tasks : taskPcOk 0x3000 = true ∧ taskPcOk 0x3001 = false ∧ 0 < (base.coreOf 0).freePlaces 0 ∧
    calm tasked = true ∧ youngest false ((tasked.coreOf 0).kennel 0) = some 0 ∧ youngest true ((tasked.coreOf 0).kennel 0) = some 1 ∧
    youngest false ((base.coreOf 0).kennel 0) = none ∧ base.th.regs.tasks = none ∧
    (tasked.coreOf 0).kennel 0 ≠ [] ∧ (base.coreOf 0).freePlaces 0 ≠ 0 ∧
    64 ≤ (((stocked.coreOf 0).kennel 0).filter fun e => !e.spilled).length ∧
    (((stocked.coreOf 0).kennel 0).filter fun e => !e.spilled).length < 255 ∧
    listPlace ⟨0, 0, false⟩ base.th.lindex 0 base.launch.threads = none := by decide +kernel

/-- A launch with a table in CSP, and a join entry of count 0 at index 0. -/
def tabled (n : Nat) : State :=
  let s := (withX [(1, 0), (2, 1)]).modLaunch 0 fun l => { l with csp := 1, rect := 0 }
  { s with mem := memWrite s.mem (taskEntry s 0 0 0 + 16) (leBytes 4 n ++ [2]) }

theorem witness_table : calm (tabled 0) = true ∧ (tabled 0).launch.csp ≠ 0 ∧ freeIndex (tabled 0) 0 = some 1 ∧
    handleOf (tabled 0) 0 0 = some (0, 0) ∧ (tabled 0).spoiled = [] ∧ taskState (tabled 0) (taskEntry (tabled 0) 0 0 0) = 2 ∧
    taskCount (tabled 0) (taskEntry (tabled 0) 0 0 0) = 0 ∧ taskCount (tabled 3) (taskEntry (tabled 3) 0 0 0) ≠ 0 ∧
    handleOf (tabled 0) 0 0x800 = none ∧ joinComing (tabled 0) 0 0 0 = false ∧
    joinComing ((tabled 0).modChunk fun c => { c with newJoins := [0] }) 0 0 0 = true ∧ (tabled 0).x 1 = 0 ∧ (tabled 0).x 2 ≠ 0 ∧
    ((tabled 0).x 2).toNat < 2 ^ 32 ∧ (tabled 0).inEvent = false ∧ (tabled 0).launch.det = false ∧
    (tabled 0).th.regs.opt.on = false := by decide +kernel

/-- Two nodes of kind 0 without auxiliary ports at 0x2000 and 0x2040, linked by their principal ports, in a pool of four nodes
at 0x2000 described at 0x5000; the rules at 0x6000, the first of them e0, e1; a template of zeros at 0x7000. -/
def netMem (e0 e1 : List (Nat × Byte)) : Mem :=
  [(0x1000, 0x13), (0x2008, 0x40), (0x2009, 0x20), (0x2049, 0x20), (0x2081, 1), (0x20C1, 1), (0x5001, 0x20), (0x5008, 4)] ++ e0 ++ e1

def net (e0 e1 : List (Nat × Byte)) : State :=
  let s := (withX [(1, 0x2000), (2, 0x2040), (3, 0x2081), (4, 0x20C0)]).modCsr fun c => { c with ixpool := 0x5000, ixrules := 0x6000 }
  let m := netMem e0 e1
  let at_ := fun (a n : Nat) => (List.range n).map fun i => (a + i, memGet m (a + i))
  { s with mem := m }.modCore 0 fun c => { c with
    l1 := at_ 0x2000 16 ++ at_ 0x2040 16 ++ at_ 0x2080 8 ++ at_ 0x20C0 8 ++ at_ 0x6000 16 ++ at_ 0x7000 64 }

theorem witness_nets : calm (net [] []) = true ∧ (net [] []).launch.det = false ∧ okay (freeNode (net [] []) 0x2000) = true ∧
    nodeOk 0x2000 = true ∧ okayAnd (needPair (net [] []) 0x2000 0x2040) (fun t => okay (reservePlaces t 1)) = true ∧
    State.nodeCache ((net [] []).modCore 0 fun c => { c with caches := [(0, [0x2080])] }) = [0x2080] ∧
    ((net [] []).modLaunch 0 fun l => { l with det := true }).launch.det = true := by decide +kernel

theorem witness_link : portOk 0x2081 = true ∧ portOk 0x20C0 = true ∧ portNum 0x2081 = 1 ∧
    okayAnd (needPort (net [] []) 0x2081) (fun t => okayAnd (needPort t 0x20C0) fun u =>
      okayAnd (writeWord u (linkAddr (portNode 0x2081) 1) 0x20C0) fun v =>
        okay (writeWord v (linkAddr (portNode 0x20C0) 0) 0x2081)) = true := by decide +kernel

/-- The same in a rewrite. -/
def rewritingNet (e0 e1 : List (Nat × Byte)) : State :=
  ((net e0 e1).modRegs fun r => { r with inRewrite := true }).modChunk fun c => { c with rewrite := true }

/-- The rule of the pair of x1 and x2 satisfies a test. -/
def ruleIs (s : State) (f : State → RuleEntry → Bool) : Bool :=
  okayAnd (needPair s 0x2000 0x2040) fun t => okayAnd (readWord t 0x2000) fun u => okayAnd (readWord u.1 0x2040) fun v =>
    okayAnd (readRule v.1 (bits u.2 7 0) (bits v.2 7 0)) fun w => f w.1 w.2

theorem witness_rewrite : rewriting (rewritingNet [(0x6000, 2)] [(0x6009, 0x30)]) = true ∧ (rewritingNet [(0x6000, 2)] [(0x6009, 0x30)]).inEvent = false ∧
    ruleIs (rewritingNet [(0x6000, 2)] [(0x6009, 0x30)]) (fun w e => e.ok && e.type == 2 && (completed (w.setX 1 (w.pc + 4)) 0x3000 .ready).undoFits &&
      (completed (w.setX 1 (w.pc + 4)) 0x3000 .ready).linesFit) = true ∧
    ruleIs (rewritingNet [(0x6000, 1), (0x6001, 0x70)] []) (fun w e => e.ok && e.type == 1 &&
      okayAnd (rewrite w 0x2000 0x2000 0x2040 0x7000 0 none) fun r => r.th.chunk.count == 0 &&
        (completed r (r.pc + 4) .ready).undoFits && (completed r (r.pc + 4) .ready).linesFit) = true ∧
    (let s := rewritingNet [] [];
      let u := completed (s.modRegs fun r => { r with inRewrite := false }) (s.pc + 4) .ready;
      u.undoFits && u.linesFit) = true := by decide +kernel

theorem witness_commands : 5 ≤ base.sbFree base.th.placeCore ∧ sup.th.regs.smode = true ∧
    okay (postCommand base 0x0105 0 0 0 0) = true := by decide +kernel

/-! ## Witnesses: operations of threads, commits and homes -/

/-- A thread with a far-class result for x3, and one with an entry of the vector queue. -/
def owing (c : ResClass) (vec : Bool) : State := base.modTh fun th => { th with results := [⟨1, c, some (.x 3 7), none, vec⟩], credit := 2 }

theorem witness_thread_events : ((owing .far false).thr 0).results[0]? = some ⟨1, .far, some (.x 3 7), none, false⟩ ∧
    ((owing .vector true).thr 0).results[0]? = some ⟨1, .vector, some (.x 3 7), none, true⟩ ∧
    vectorChoice (owing .vector true) ((owing .vector true).thr 0).core = some 0 ∧
    (let s := base.modTh fun th => { th with results := [⟨1, .vector, none, none, true⟩, ⟨1, .vector, none, none, true⟩] };
      ((s.thr 0).results.take 1).any (·.vec) = true) ∧
    (0, (owing .vector true).thr 0) ∈ (owing .vector true).threads ∧ keysRise (owing .vector true).threads = true ∧
    ((base.modTh fun th => { th with status := .retry .paused }).thr 0).status = .retry .paused ∧
    ((base.modTh fun th => { th with nextIssue := 5 }).thr 0).nextIssue > base.cycle ∧
    interruptCause base 0 = none ∧ (let s := (base.modTh fun th => { th with seip := true }).modCsr fun c => { c with sie := 0x200, sstatus := 2 }
      interruptCause s 0 = some 9 ∧ atBoundary s 0 = true ∧ earlierEvent (s.thr 0) = false) ∧
    ((base.modTh fun th => { th with log := [0], logStart := 0 }).thr 0).log ≠ [] := by decide +kernel

/-- The base chunk after a store, with its commit requested; and after the grant and its broadcast. -/
def requested : State := (after (exec (.standardStore .sd 1 2 0) loaded)).cutChunk 0 16
def granted : State := after (exec (.commitBroadcastApply 0) (after (exec (.commitGrant 0) requested)))

/-- The same where a word of the chunk's lines had a parity error at the cut. -/
def broken : State := ((after (exec (.standardStore .sd 1 2 0) loaded)).modCore 0 fun k =>
  { k with flips := [⟨0, loaded.th.chunk.uid, 0x2000, 0, false⟩] }).cutChunk 0 16

theorem witness_commit : requested.paused = false ∧ requested.requests = [0] ∧ grantable requested 0 = true ∧ behind requested 0 = false ∧
    ((requested.thr 0).older.map fun c => (c.parity, c.ctx, c.freed)) = some (none, [], []) ∧
    ((broken.thr 0).older.map fun c => (c.state == .requested, c.parity.isSome)) = some (true, true) ∧
    (let s := requested.modThr 0 fun th => { th with results := [⟨loaded.th.chunk.uid, .far, none, some 1, false⟩] };
      grantable s 0 = false) ∧ (base.thr 0).older = none := by decide +kernel

/-- The same chunk with two requests to a peer device in its list, of which its thread has room for n. -/
def crowded (n : Nat) : State :=
  let s := granted.modThr 0 fun th => { th with older := th.older.map fun c =>
    { c with post := [.reduce .add 0x10000000000 8 1, .reduce .add 0x10000000008 8 1] } }
  { s with reg := { s.reg with domain := 3 }, far := (List.range (1024 - n)).map fun i => ⟨0, BitVec.ofNat 32 i, .group, 0x10000000000, false⟩ }

theorem witness_release : ((granted.thr 0).older.map fun c => releasable granted 0 c &&
      sendable granted (1024 - granted.farCount 0) c.post == c.post.length) = some true ∧
    (((crowded 1).thr 0).older.map fun c => releasable (crowded 1) 0 c &&
      sendable (crowded 1) (1024 - (crowded 1).farCount 0) c.post != c.post.length) = some true ∧
    ((requested.thr 0).older.map fun c => decide (c.state ≠ .granted)) = some true ∧
    (let s := { base with bcasts := [⟨1, 5, 0, [0x80], [0x800]⟩], tokenQ := [0] };
     s.bcasts[0]? = some ⟨1, 5, 0, [0x80], [0x800]⟩ ∧ s.token = none ∧ (s.thr 0).loc = .slot ∧ (s.thr 0).older = none ∧
       (s.bcasts.any fun b => b.core == (s.thr 0).core) = false) := by
  decide +kernel

/-- The base state with one action on its way. -/
def flying (a : Act) : State := { base with flights := [⟨0, 0, 0, a⟩] }

/-- A command of the base thread, and the state with it at the head of its queue. -/
def cmd (e : BitVec 2) (w0 w1 w2 w3 : Word) : Command :=
  { id := 1, tid := 0, lid := 0, core := 0, engine := e, serial := 1, batch := 0, w0 := w0, w1 := w1, w2 := w2, w3 := w3
    snap := (7 : GReg) <<< 228, key := 0, satp := 0, cbwin := 0xF0, entries := 1, started := false, state := .waiting, cls := 0
    detail := 0, reported := false, mark := none, satcnt := 0, flags := 0, resend := false, progress := 0, sent := false, data := []
    held := [] }

def queued (c : Command) : State := { base with cmds := [c] }

theorem witness_homes : (flying (.command (cmd 0 4 0 0 0))).free_ 0 0 = true ∧ (cmd 0 4 0 0 0).flag 8 = false ∧
    (cmd 0 4 0 0 0).flag 9 = false ∧ (0 : Nat) < queueRoom 0 ∧ writeReady (flying (.relaxed 0x3000 [1, 2, 3, 4] false)) 0 0 0x3000 4 = true ∧
    writeReady (flying (.reduce .add 0x3000 8 1)) 0 0 0x3000 8 = true ∧ base.isFar 0x3000 = false ∧
    (let s := { base with invals := [⟨0, 0x3000, 8, 1, 0⟩] };
     s.invals[0]? = some ⟨0, 0x3000, 8, 1, 0⟩ ∧ deferred s 0 0x3000 8 = false) ∧
    (flying (.fence packageScope)).releaseReady 0 0 packageScope false = true ∧
    ({ base with tlbinvs := [(0, none, none)] } : State).tlbinvs[0]? = some (0, none, none) := by decide +kernel

theorem witness_home_effects : aliasHeld base 0x3000 = false ∧ (flying (.relaxed 0x3000 [1] false)).inAlias 0x3000 = false := by
  decide +kernel

/-- The line at 0x2000 is held by core 0; a bank is under refresh. -/
theorem witness_home_holder : loaded.activeCores.contains 0 = true ∧ (spanLines 0x2000 8).any (loaded.holdsLine 0) = true := by decide +kernel

theorem witness_home_bank : (let s := (flying (.reduce .add 0x3000 8 1)).setBank (base.bankAt 0x3000) { owed := 0, busy := 1 };
      writeReady s 0 0 0x3000 8 = true ∧ s.isFar 0x3000 = false ∧ s.bankBusy 0x3000 = true) := by decide +kernel

theorem witness_home_reduce : base.bankBusy 0x3000 = false ∧
    (base.coreOf ((clusterCores (base.homeOf 0x3000)).headD 0)).flips = [] ∧ base.poison = [] := by decide +kernel

theorem witness_invalidate : (∀ l ∈ spanLines 0x2000 8, lineMeets l (loaded.thr 0).chunk = false) ∧ (loaded.thr 0).older = none ∧
    (loaded.thr 1) = Thread.reset ∧ (∀ l ∈ spanLines 0x2000 8, lineMeets l Thread.reset.chunk = false) := by decide +kernel

/-- A running command whose held page a removal of every translation names, and none. -/
theorem witness_grain : grainHolds base none none = false ∧
    grainHolds { base with cmds := [{ cmd 1 0 0 0 0 with state := .running, held := [⟨0, 0, 16, 0, 0xDF, true⟩] }] } none none = true := by
  decide +kernel

/-- A thread of device 0 of a domain of two, with far requests in given states. -/
def farring (a : Act) (fs : List FarReq) : State := { flying a with far := fs, reg := { base.reg with domain := 3 } }

theorem witness_far : (let s := farring (.farGroup 1 1 [(0x10000000000, 7)] [] [.store [(0x10000000000, 7)]]) [];
      s.free_ 0 0 = true ∧ ((s.earlier 0 0).isEmpty) = true) ∧
    (let s := farring (.storeRel packageScope 0x10000000000 [1, 2, 3, 4]) [⟨0, 1, .line, 0x10000000000, false⟩,
        ⟨0, 2, .group, 0x10000000000, true⟩, ⟨0, 3, .line, 0x10000000000, true⟩, ⟨0, 4, .rel false, 0x10000000000, false⟩];
      s.far[0]? = some ⟨0, 1, .line, 0x10000000000, false⟩ ∧ s.far[1]? = some ⟨0, 2, .group, 0x10000000000, true⟩ ∧
        s.far[2]? = some ⟨0, 3, .line, 0x10000000000, true⟩ ∧ s.far[3]? = some ⟨0, 4, .rel false, 0x10000000000, false⟩ ∧
        s.isFar 0x10000000000 = true ∧ deferredAny s 0x10000000000 4 = false ∧ s.poison = [] ∧ s.invals = []) ∧
    (let s := farring (.storeRel packageScope 0x10000000000 [1, 2, 3, 4]) [⟨0, 4, .rel false, 0x10000000000, false⟩];
      relFlight s 0 ⟨0, 4, .rel false, 0x10000000000, false⟩ false = some (0, packageScope, [1, 2, 3, 4]) ∧ s.releaseReady 0 0 packageScope true = true) := by
  decide +kernel

/-- A far reduction with its request; and a served line behind an invalidation of it, or not. -/
theorem witness_far_red : (let s := farring (.reduce .add 0x10000000000 8 1) [⟨0, 1, .red, 0x10000000000, false⟩];
      redFlight s 0 ⟨0, 1, .red, 0x10000000000, false⟩ = some 0 ∧ s.flights[0]? = some ⟨0, 0, (s.thr 0).core, .reduce .add 0x10000000000 8 1⟩ ∧
        writeReady s 0 0 0x10000000000 8 = true ∧ s.poison = []) ∧
    (let s := { farring (.fence packageScope) [⟨0, 1, .line, 0x10000000000, true⟩] with invals := [⟨0, 0x10000000000, 8, 1, 0⟩] };
      s.invalWaits (s.thr 0).core 0x10000000000 = true) ∧
    (farring (.fence packageScope) [⟨0, 1, .line, 0x10000000000, true⟩]).invalWaits 0 0x10000000000 = false := by decide +kernel

/-- A barrier instance at which only thread 5 has arrived, and perhaps some of another device have not. -/
def barred (e : Bool) : State := { base with barriers := [⟨0, 0, packageScope, 0, [(5, 3)], e, none⟩] }

/-- A thread that waits for the reservation of 0x3000, which it has got, or not. -/
def sleeping (r : List Reservation) : State :=
  { (base.modTh fun th => { th with status := .wait (.reservation 0x3000 8 4 0x1000 0x3000) }) with reserved := r }

theorem witness_barriers : (flying (.arrive packageScope 3)).releaseReady 0 0 packageScope false = true ∧
    ((barred false).barriers[0]?.map fun b => absentOf (barred false) b) = some [0] ∧
    ((barred false).barriers[0]?.bind fun b => firstAbsent (barred false) b) = some 0 ∧
    ((barred true).barriers[0]?.map fun b => b.elsewhere && b.ended.isNone) = some true ∧ (barred true).flights = [] ∧
    ((base.thr 0).loc != .slot) = false ∧
    (flying (.lrwRequest 0x3000 8 3)).free_ 0 0 = true ∧ (flying (.handover 0x3000)).free_ 0 0 = true ∧
    ({ base with resends := [(0, 0x3000, 8, 3)] } : State).resends[0]? = some (0, 0x3000, 8, 3) ∧
    ((sleeping [⟨0x3000, some 0, false, 8, 0, []⟩]).thr 0).status = .wait (.reservation 0x3000 8 4 0x1000 0x3000) ∧
    (sleeping [⟨0x3000, some 0, false, 8, 0, []⟩]).reserved[0]? = some ⟨0x3000, some 0, false, 8, 0, []⟩ ∧
    ((sleeping []).thr 0).regs.csr.waitswap ≠ 0 ∧ (sleeping []).partner 0 = none ∧ ((sleeping []).thr 0).chunk.count = 0 ∧
    (base.reserved.find? fun r => r.pa == 0x3000) = none := by decide +kernel

/-! ## Witnesses: messages, tasks, commands at their queues -/

def toSelf (m : Msg) : State := flying (.message ⟨0, 0, 0⟩ m)

theorem witness_messages : receiver (toSelf (note 0 0)) 0 ⟨0, 0, 0⟩ = some 0 ∧
    arrives (toSelf (note 0 0)) 0 0 ⟨0, 0, 0⟩ (note 0 0) (some 0) = true ∧ (note 0 0).anti = false ∧
    (let m := { note 5 0 with anti := true };
     let s := (toSelf m).modTh fun th => { th with recvq := [{ note 5 0 with processed := true }] };
     arrives s 0 0 ⟨0, 0, 0⟩ m (some 0) = true ∧
       (((s.dropFlight 0).thr 0).recvq.filter fun p => m.twin p).getLast? = some { note 5 0 with processed := true }) ∧
    (let m := { note 5 0 with anti := true };
     let s := (toSelf m).modTh fun th => { th with recvq := [note 5 0] };
     arrives s 0 0 ⟨0, 0, 0⟩ m (some 0) = true ∧ (((s.dropFlight 0).thr 0).recvq.filter fun p => m.twin p).getLast? = some (note 5 0)) ∧
    (let m := { note 5 0 with anti := true };
     arrives (toSelf m) 0 0 ⟨0, 0, 0⟩ m (some 0) = true ∧ ((((toSelf m).dropFlight 0).thr 0).recvq.filter fun p => m.twin p) = []) ∧
    (∀ dst ∈ [(⟨5, 0, 0⟩ : Position), ⟨0, 0, 3⟩], arrives (flying (.message dst (note 0 0))) 0 0 dst (note 0 0) none = true) ∧
    receiver (flying (.message ⟨0, 0, 3⟩ (note 0 0))) 0 ⟨0, 0, 3⟩ = none ∧ base.reg.devnum = 0 ∧
    ({ base with acks := [0] } : State).acks[0]? = some 0 ∧
    (let s := ringHeld [];
     (s.thr 0).atHome = true ∧ queueCount (s.thr 0) < Config.recvEntries ∧ s.poison.contains (s.ringEntry 0 (ringed 0) / 64) = false ∧
       s.poison.contains (s.ringEntry 0 (ringed 0) / 64 + 1) = false ∧
       (s.thr 0).recvq.find? (fun m => m.ring && m.ch == 0) = some (ringed 0)) := by decide +kernel

theorem witness_rollback : (let s := optimistic.modTh fun th => { th with ks := some 0 };
      (s.thr 0).ks = some 0 ∧ rollbackReady (s.thr 0) = true ∧ (s.coreOf 0).halted = false) ∧
    groupOf optimistic 0 ≠ [] ∧ optimistic.paused = false ∧ optimistic.peers = [] ∧
    (let s := base.modTh fun th => { th with status := .retry (.ring 0x30) };
      (s.thr 0).status = .retry (.ring 0x30) ∧ (s.thr 0).loc = .slot ∧ (s.thr 0).older = none) := by decide +kernel

/-- The base thread waits for a record of the Kennel. -/
def taking (s : State) : State := s.modTh fun th => { th with status := .wait (.take 3) }
def popping (s : State) : State := s.modTh fun th => { th with status := .retry (.ixpop 3) }

theorem witness_take : ((taking tasked).thr 0).status = .wait (.take 3) ∧ (taking tasked).begins 0 = true ∧
    ((taking tasked).modCore 0 fun c => { c with halted := true }).begins 0 = false ∧
    (obtain { taking tasked with cur := 0 } false).isSome = true ∧ (obtain { taking base with cur := 0 } false).isNone = true ∧
    ((popping tasked).thr 0).status = .retry (.ixpop 3) ∧ ((popping tasked).thr 0).chunk.count = 0 ∧
    (obtain { popping base with cur := 0 } true).isNone = true ∧
    (match obtain { popping tasked with cur := 0 } true with
      | some (s1, e) =>
        let r := startRewrite s1 3 e
        r.th.retired == ((popping tasked).thr 0).retired && r.cur == 0 && !r.th.regs.csr.loopC0.getLsbD 0 && !r.th.regs.csr.loopC1.getLsbD 0 && r.th.chunk.count == 0 &&
          (completed r (((popping tasked).thr 0).regs.pc + 4) .ready).undoFits &&
          (completed r (((popping tasked).thr 0).regs.pc + 4) .ready).linesFit
      | none => false) = true := by decide +kernel

/-- A decrement on its way to an entry in state st with count n. -/
def decrementing (st : Byte) (n : Nat) : State :=
  let s := tabled n
  { s with flights := [⟨0, 0, 0, .decrement 0⟩], mem := memWrite s.mem (taskEntry s 0 0 0 + 20) [st] }

theorem witness_decrement : (decrementing 2 3).free_ 0 0 = true ∧ handleOf (decrementing 2 3) 0 0 = some (0, 0) ∧ (decrementing 2 3).spoiled = [] ∧
    (∀ n ∈ [0, 1, 3], ∀ st ∈ [0, 1, 2], taskCount (decrementing (BitVec.ofNat 8 st) n) (taskEntry (decrementing (BitVec.ofNat 8 st) n) 0 0 0) = n ∧
      taskState (decrementing (BitVec.ofNat 8 st) n) (taskEntry (decrementing (BitVec.ofNat 8 st) n) 0 0 0) = st) := by decide +kernel

theorem witness_quiescent : quiescent (taking base) 0 = true ∧ keysRise (taking base).threads = true ∧
    ((taking base).members 0).map (·.2.status) = [.wait (.take 3)] ∧ (taking base).begins 0 = true ∧
    (let s := (taking base).modCore 0 fun c => { c with halted := true }; quiescent s 0 = true ∧ s.begins 0 = false) := by decide +kernel

/-- A thread of the net waits for nodes, with k of them on the spill stack. -/
def refilling (k : Nat) : State := ((net [] []).modTh fun th => { th with status := .retry .refill }).modCore 0 fun c =>
  { c with stacked := [(0, k)] }

theorem witness_refill : (∀ k ∈ [0, 2], keysRise (refilling k).threads = true ∧
    (((refilling k).threads.find? fun p => p.2.placeCore == 0 && p.2.lid == 0 && p.2.status == .retry .refill).map (·.1)) = some 0 ∧
    okayAnd (translateTh { refilling k with cur := 0 } .load ((refilling k).thr 0).regs.csr.ixpool.toNat) (fun r =>
      r.2.1 == 0x5000 && (match poolAt (refilling k) r.2.1 with
        | some p => p.count == 4 && p.next == 0 && (List.range k).all fun i =>
            okay (translateTh { refilling k with cur := 0 } .load (stackEntry p ((refilling k).launchOf 0).rect 0 i))
        | none => false)) = true) := by decide +kernel

/-- The head of a queue is of a kind and can start. -/
def starts (c : Command) (e k : Nat) : Bool :=
  match readyHead (queued c) 0 e k with
  | some (s1, d) => canStart s1 d && d == c
  | none => false

theorem witness_matrix : starts (cmd 0 0x0000022266000001 0x2000000000000000 0x1000000000000000 2) 0 1 = true ∧
    starts (cmd 0 0x0000000007000002 0x2000000000000000 0 0) 0 2 = true ∧
    starts (cmd 0 0x0000000066004003 0x2000000000000000 0x1000000000000000 0) 0 3 = true ∧ starts (cmd 0 4 0 0 0) 0 4 = true ∧
    starts (cmd 0 0x07000005 0x2000000000000000 0 0) 0 5 = true ∧
    starts (cmd 0 0x0000000066000006 0x2000000000000000 0x1000000000000000 0x0040000000000000) 0 6 = true := by decide +kernel

theorem witness_running : (let s := queued { cmd 0 4 0 0 0 with state := .running };
    headOf s 0 0 = some { cmd 0 4 0 0 0 with state := .running } ∧ engineHalted s (cmd 0 4 0 0 0) = false) ∧
    bits ((cmd 0 4 0 0 0x10).w3) 3 0 ≤ bits ((cmd 0 4 0 0 0x10).w3) 7 4 ∧ (acczBeats (cmd 0 4 0 0 0x10)).length = 2 ∧
    (let c := cmd 0 4 0 0 0x10;
      ((acczBeats c).drop c.progress).length = 2 ∧ beatWaits (queued c) c ((acczBeats c).getD 0 []) = false ∧
        beatPages (queued c) c ((acczBeats c).getD 0 []) = c.held ∧
        (soundSteps (queued c) c ((acczBeats c).getD 0 [] ++ (acczBeats c).getD 1 [])).2 = none ∧ c.cls ≠ 8) := by decide +kernel

/-- The head of the copy engine's queue is of a kind, can start, and it is its FIFO's turn. -/
def copies (c : Command) (k : Nat) : Bool := starts c 1 k && copyTurn (queued c) 0 == some 0

def addCopy : Command := cmd 1 0x01000011 0x2000 0x3000 1

theorem witness_copies : copies (cmd 1 0x0000000800000010 0x2000 0x3000 0) 0x10 = true ∧ copies addCopy 0x11 = true ∧
    copies (cmd 1 0x0000000400000012 0x2000 0x3000 0x4000) 0x12 = true ∧
    copies (cmd 1 0x0000000400000013 0x2000 0x3000 0x4000) 0x13 = true ∧
    copies (cmd 1 0x0000001001000014 0x2000000000000000 0 0) 0x14 = true ∧ headOf base 0 1 = none ∧
    (let s := { base with cmds := [addCopy, { addCopy with id := 2, core := 1 }] };
      copyTurn s 0 = some 0 ∧ copyReady s 1 = true ∧ clusterOf 1 = clusterOf 0) := by decide +kernel

/-- Groups of metadata out of order end a product with class 7: WB holds zeros. -/
theorem witness_metadata : (let c := cmd 0 0x0000000066004003 0x2000000000000000 0x1000000000000000 0;
    let s := queued c;
    c.progress = 0 ∧ c.mat.sparse = true ∧ ((metaStep c c.mat).findSome? (stepFault s c)).isNone = true ∧
      (metaBad s c c.mat).isSome = true) := by decide +kernel

/-! ## Witnesses: reducing copies, collectives, checkpoints -/

/-- A running reducing copy of one element to 0x3000 with sequence number n, and region 0 over it, which expects 5. -/
def reducing (n : Word) (r : Region) : State :=
  { base with
    cmds := [{ cmd 1 (0x01000011 ||| n <<< 32) 0x2000 0x3000 1 with state := .running, sent := true, data := [1, 0, 0, 0] }]
    regions := [(0, r)] }

def region : Region := { rbase := 0x3000, rsize := 0x1000, next := 5, guard := false, err := false, valid := true, held := [], terms := [] }

/-- Region 0 alone holds the command's destination. -/
def onlyRegion (s : State) (c : Command) : Bool :=
  let ps := destPas s c (c.data.length / 4 * redSize c)
  (s.regions.filter fun r => ps.all fun p => match p with | some (pa, n) => r.2.has s pa n | none => false).map (·.1) == [0]

/-- The command is ready to be applied in region 0. -/
def applies (s : State) : Bool :=
  match s.cmd? 1 with
  | some c => c.kind == 0x11 && c.state == .running && c.sent && !c.resend && !s.paused &&
      !beatWaits s c [⟨touchRun 1 (redDest c) (c.data.length / 4 * redSize c) true, false, fun a => a⟩] &&
      !(s.regions.any fun q => q.2.held.contains c.id) && onlyRegion s c &&
      (destPas s c (c.data.length / 4 * redSize c)).all fun p => match p with | some q => !s.bankBusy q.1 | none => true
  | none => false

/-- With one region over the destination there is no choice. -/
theorem red_region (s : State) (c : Command) (h : onlyRegion s c = true) : (redRegion s c).1 = some 0 := by
  simp only [onlyRegion, beq_iff_eq] at h
  simp only [redRegion]
  erw [h]
  simp [Nat.mod_one]

theorem witness_reducing : applies (reducing 5 region) = true ∧ applies (reducing 5 { region with err := true }) = true ∧
    applies (reducing 6 region) = true ∧ applies (reducing 132 region) = true ∧ applies (reducing 133 region) = true ∧
    applies (reducing 4 region) = true ∧ (BitVec.ofNat 32 132 - region.next).toNat = 127 ∧
    (BitVec.ofNat 32 4 - region.next).toNat ≥ 2 ^ 31 ∧ ((reducing 5 { region with held := [9] }).regionOf 0).held ≠ [] ∧
    (base.regionOf 0).held = [] ∧ base.reg.phase ≠ 15 := by decide +kernel

theorem witness_retire : (let c := { cmd 0 4 0 0 0 with state := .done };
      (queued c).cmd? 1 = some c ∧ c.state = .done ∧ c.flag 9 = false) ∧
    (let c := { cmd 1 0x210 0 0 0 with state := .done };
      c.flag 9 = true ∧ c.cls ≠ 1 ∧
        released { queued c with invals := [⟨0, 0x3000, 8, 0, 0⟩] } 0 (commandScope c) 1 = false) := by decide +kernel

/-- Slot 0 with one rank, core (0, 0), which has contributed four bytes; and with a second rank, which has not. -/
def gathered (n : Nat) : State :=
  { base with
    cmds := [{ cmd 2 0x0000000400000020 0x2000 0x3000 0 with state := .running, data := [1, 0, 0, 0] }]
    mem := memWrite base.mem 0x8004 [1]
    colls := [(0, { valid := true, gid := 0, list := 0x8000, nmem := n, next := 0, here := [1] })] }

theorem witness_collectives : (let s := gathered 1;
      (s.collOf 0).valid = true ∧ 0 < (s.collOf 0).nmem ∧ ((contributors s (s.collOf 0)).any fun c => beatWaits s c
        (resultSteps c (collectiveResult c 1 ((rankOf s (s.collOf 0) c.core).getD 0) (rankData s (s.collOf 0) [])).1)) = false ∧
      ∀ r, r < 1 → (tabFind (rankData s (s.collOf 0) []) r).isSome = true) ∧
    (missingRanks (gathered 2) ((gathered 2).collOf 0)).2 = [1] ∧ ((gathered 2).collOf 0).here ≠ [] := by
  refine ⟨⟨by decide +kernel, by decide +kernel, by decide +kernel, ?_⟩, by decide +kernel, by decide +kernel⟩
  intro r h
  have : r = 0 := by omega
  subst this
  decide +kernel

/-- A collective of core (0, 0) alone at the head of its port, with SEQ n, in a slot that expects 5 and that core r has joined. -/
def joining (k : Word) (n : Word) (r : List Nat) : State :=
  let c := cmd 2 (k ||| n <<< 32) 0x2000 0x3000 0x0000000400000000
  { base with
    cmds := [c, { c with id := 2, state := .running }]
    colls := [(0, { valid := true, gid := 0, list := 0x8000, nmem := 1, next := 5, here := r })] }

/-- The head of the port of kind k can start, and what its slot makes of it. -/
def joins (s : State) (k : Nat) (f : State → Command → Collective → Nat → Bool) : Bool :=
  match readyHead s 0 2 k with
  | some (s1, c) => canStart s1 c && (match groupSlot s (bits c.w3 15 0) with
    | some (_, sl) => f (started s1 c) c sl (BitVec.ofNat 32 (bits c.w0 63 32) - sl.next).toNat &&
        !beatWaits s c (sourceSteps c (sourceBytes s sl c))
    | none => false)
  | none => false

theorem witness_joining : (∀ k ∈ [0x20, 0x21, 0x22, 0x23], joins (joining (BitVec.ofNat 64 k) 5 []) k (fun u c sl d => d == 0 &&
      (soundSteps (settleTouches u c (touchRun 0 (.glob (bits c.w1 55 0)) (sourceBytes u sl c) false)) c
        (sourceSteps c (sourceBytes u sl c))).2.isNone) = true) ∧
    joins (joining 0x20 6 []) 0x20 (fun _ _ _ d => decide (1 ≤ d) && decide (d < 2 ^ 31)) = true ∧
    joins (joining 0x20 4 []) 0x20 (fun _ _ _ d => decide (2 ^ 31 ≤ d)) = true ∧
    joins (joining 0x20 5 [2]) 0x20 (fun u c sl d => d == 0 &&
      sl.here.any fun id => match u.cmd? id with | some e => e.core == c.core | none => false) = true ∧
    joins { joining 0x20 5 [] with poison := [0x80] } 0x20 (fun u c sl d => d == 0 &&
      (soundSteps (settleTouches u c (touchRun 0 (.glob (bits c.w1 55 0)) (sourceBytes u sl c) false)) c
        (sourceSteps c (sourceBytes u sl c))).2.isSome) = true ∧
    readyHead base 0 2 0x20 = none := by decide +kernel

/-- A checkpoint command whose table at 0x9000 has no entry: a save, a restore, or neither. -/
def saving (dir : Byte) : State :=
  { queued (cmd 3 0x30 0x9000 0xA000 0) with mem := memWrite base.mem 0x9008 [dir] }

def tableIs (s : State) (f : Except (Nat × Word) (Bool × List CkEntry) → Bool) : Bool :=
  match ckptHead s with
  | some c => (match readyHead s c.core 3 0x30 with | some (s1, _) => canStart s1 c | none => false) && f (ckptTable s c)
  | none => false

def cutState (closed : Bool) : State :=
  { saving 0 with cmds := [{ cmd 3 0x30 0x9000 0xA000 0 with state := .running }], ckpt := { base.ckpt with cut := some (1, closed) },
                  reg := { base.reg with domain := 3 } }

theorem witness_checkpoints : tableIs (saving 0) (fun r => match r with | .ok (false, []) => true | _ => false) = true ∧
    tableIs (saving 1) (fun r => match r with | .ok (true, []) => true | _ => false) = true ∧
    tableIs (saving 2) (fun r => match r with | .error _ => true | _ => false) = true ∧
    (saving 0).ckpt.records = [] ∧ (saving 0).ckpt.cut = none ∧
    (cutState false).reg.domain.getLsbD 1 = true ∧ (cutState false).cmd? 1 = some { cmd 3 0x30 0x9000 0xA000 0 with state := .running } ∧
    cutFixed (cutState true) = true ∧ cutFixed { cutState true with flights := [⟨0, 0, 0, .fence packageScope⟩] } = false ∧
    (let s := cutState true;
      let c := { cmd 3 0x30 0x9000 0xA000 0 with state := .running };
      cutFixed s = true ∧ beatWaits s c (([] : List CkEntry).flatMap (saveSteps c)) = false ∧
        (match ckptTable s c with | .ok (false, []) => true | _ => false) = true) ∧
    (let s := { base with ckpt := { base.ckpt with records := [(0, 0x3000, 8)], ctl := 0x11000 } };
      s.ckpt.records = [(0, 0x3000, 8)] ∧ bits s.ckpt.ctl 31 16 ≠ 0 ∧ s.paused = false ∧ s.flipWait 0x3000 = false ∧
        s.bankBusy 0x3000 = false ∧ s.ckpt.ctl.getLsbD 11 = false ∧ s.ckpt.ctl.getLsbD 12 = true) := by
  decide +kernel

/-! ## Witnesses: the memory system, the host and the launch engine -/

def missing (pa : Nat) (f : Bool) : State := base.modTh fun th => { th with status := .retry (.miss pa f) }

/-- A thread on core 0 waits for a line of bank b. -/
theorem witness_refresh : base.queuedRead (bankKey 0 0 0) = false ∧ (base.bank (bankKey 15 63 15)).busy = 0 ∧
    (missing 0x3000 false).queuedRead ((missing 0x3000 false).bankAt 0x3000) = true ∧
    (let s := base.setBank (bankKey 0 0 0) { owed := 8, busy := 0 }; 8 ≤ (s.bank (bankKey 0 0 0)).owed) ∧
    (let s := base.setBank (bankKey 0 0 0) { owed := 1, busy := 0 }; 0 < (s.bank (bankKey 0 0 0)).owed) ∧
    (let s := base.setBank (bankKey 0 0 0) { owed := 1, busy := 1 }; (s.bank (bankKey 0 0 0)).busy = 1) ∧
    (let s := base.setBank (bankKey 0 0 0) { owed := 1, busy := 2 }; (s.bank (bankKey 0 0 0)).busy = 2) ∧
    base.readers = [] ∧ (let s := base.setBank (base.bankAt 0x3000) { owed := 0, busy := 1 };
      (s.waitAt .host 0x3000).readers = [(.host, 0x3000)] ∧ s.bankBusy 0x3000 = true ∧ s.placeOf 0x3000 = .own) ∧
    keysRise (missing 0x3000 false).threads = true ∧ ((missing 0x3000 true).thr 0).status = .retry (.miss 0x3000 true) ∧
    (missing 0x3000 false).isFar 0x3000 = false ∧ (missing 0x3000 false).placeOf 0x3000 = .own ∧
    ((missing 0x3000 false).bank ((missing 0x3000 false).bankAt 0x3000)).busy = 0 ∧
    (missing 0x3000 false).invalWaits 0 0x3000 = false ∧ (missing 0x3000 false).homeTainted 0x3000 = false ∧
    (missing 0x3000 false).poison = [] ∧ (0, (missing 0x3000 false).thr 0) ∈ (missing 0x3000 false).threads := by decide +kernel

/-- A booted device: the four phases of BOOT, with a pool of context regions at 2^30. -/
def boots (s : State) : State := after (execBoot 8 ⟨0, 10000, 100000, 2 ^ 30, 2 ^ 30⟩ false false [] s)
def booted : State := boots (boots (boots (boots base)))

theorem witness_boot : base.reg.phase = 0 ∧ (boots base).reg.phase = 1 ∧ (8 : BitVec 4).toNat ≤ 8 ∧ (boots (boots base)).reg.phase = 2 ∧
    (boots (boots (boots base))).reg.phase = 3 ∧ booted.reg.phase = 4 := by decide +kernel

theorem witness_host : base.flipWait (2 ^ 51) = false ∧ base.paused = false ∧ snoopHeld base (2 ^ 51) = false ∧
    base.isHost (2 ^ 51) = true ∧ inLine (2 ^ 51) [1, 2] = true ∧ booted.placeOf 0x3000 = .own ∧ booted.paused = false ∧
    booted.flipWait 0x3000 = false ∧ booted.bankBusy 0x3000 = false ∧ booted.homeTainted 0x3000 = false ∧
    booted.isHost 0x3000 = false ∧ State.isHost { booted with hostBias := [3] } 0x3000 = true ∧
    snoopHeld { booted with hostBias := [3] } 0x3000 = false ∧ base.flipping = none ∧ base.reg.phase ≠ 15 ∧
    base.hostBias.contains (flipPage base) = !({ base with reg := { base.reg with biasReg := 2 } } : State).reg.biasReg.getLsbD 1 ∧
    pageBusy { base with flipping := some (3, true) } 3 = false ∧ deferredAny base (3 * 4096) 4096 = false := by decide +kernel

/-- Queue 0 is resident with one record at 0x10000, stamped as given, after so many tries. -/
def queue (stamp : Byte) (tries : Nat) : State :=
  let s := booted.modQueue 0 fun q => { q with qbase := 0x10000, res := true, qsize := 1, qtail := 1, tries := tries }
  { s with mem := memWrite (memWrite s.mem 0x10000 (leBytes 8 0x3000 ++ leBytes 8 5 ++ leBytes 8 0 ++ leBytes 8 0x0000010000000101)) 0x1007C [stamp] }

theorem witness_queue : fetchable (queue 1 0) 0 = true ∧
    recordPa (queue 1 0) ((queue 1 0).queueOf 0) 0 = 0x10000 ∧
    (∀ pa ∈ [0x10000, 0x10040], (queue 1 0).flipWait pa = false ∧ (queue 1 0).bankBusy pa = false ∧ (queue 1 0).homeTainted pa = false) ∧
    (queue 1 0).poison = [] ∧ ((queue 1 64).queueOf 0).fetched = [] ∧
    bits ((wordsOf (memRead (queue 1 0).mem 0x10000 128)).getD 15 0) 63 32 = 1 ∧
    bits ((wordsOf (memRead (queue 2 0).mem 0x10000 128)).getD 15 0) 63 32 ≠ 1 ∧
    fetchable (queue 1 3) 0 = true ∧ fetchable (queue 1 64) 0 = true ∧ (booted.queueOf 0).res = false ∧
    (booted.queueOf 0).qdone = (booted.queueOf 0).qtail ∧ ((queue 1 0).queueOf 0).res = true ∧
    ({ (queue 1 0).queueOf 0 with code := 1 }).stopped = true ∧ ((queue 1 0).queueOf 0).stopped = false := by decide +kernel

theorem witness_placement : (let s := after (execRecordFetch 0 (queue 1 0));
    ((serviceOrder ((List.range 64).foldl checkHead s)).find? fun q => canPlace ((List.range 64).foldl checkHead s) q.2).isSome) = true := by
  decide +kernel

/-- The launch's only thread has exited; the completion word goes nowhere, or to 0x4000. -/
def finished (done : Word) : State :=
  (base.modTh fun th => { th with loc := .exited }).modLaunch 0 fun l => { l with doneAddr := done }

theorem witness_completion : (tabFind (finished 0).launches 0).isSome = true ∧ launchDone (finished 0) 0 = true ∧
    launchDone (finished 0x4000) 0 = true ∧ (finished 0).paused = false ∧
    (match engineTranslate (finished 0x4000) true .store 0x4000 with | .ok pa => pa == 0x4000 | .error _ => false) = true ∧
    (finished 0x4000).inAlias 0x4000 = false ∧ (finished 0x4000).isFar 0x4000 = false := by decide +kernel

/-! ## Witnesses: contexts, debug modules, power, the step -/

/-- A thread that is asked to leave, whose chunk is empty or not; and one that is out. -/
def leaving (s : State) : State := s.modTh fun th => { th with cutReq := some .preempt }
def out : State := base.modTh fun th => { th with loc := .tcc, runnable := true }


theorem witness_contexts : ((leaving base).thr 0).cutReq = some .preempt ∧ ((leaving base).thr 0).chunk.count = 0 ∧ (base.thr 0).loc = .slot ∧
    (base.coreOf 0).halted = false ∧ (leaving base).partner 0 = none ∧ ((leaving base).thr 0).regs.inRewrite = false ∧
    ((leaving base).thr 0).older = none ∧ ((leaving base).thr 0).status = .ready ∧ ((leaving base).thr 0).results = [] ∧
    (out.thr 0).loc = .tcc ∧ out.reg.d3hot = false ∧ (out.thr 0).regs.opt.on = false ∧
    (base.coreOf 0).disabled.getLsbD (base.thr 0).slot = false ∧
    ((leaving worked).thr 0).chunk.count ≠ 0 ∧ settled ((leaving worked).cutChunk 0 15) 0 = false ∧
    (∀ e ∈ (base.coreOf 0).tcc, e.1 ≠ 0) ∧ (out.thr 0).isOut = true ∧ restorable out 0 = true ∧ out.outPartner 0 = none ∧ recordAwaits out 0 0 = false ∧
    out.slotFor 0 true = some 0 ∧ out.reg.gated.contains 0 = false ∧ (out.coreOf 0).flips = [] ∧
    (base.coreOf 0).disabled.getLsbD 15 = false ∧ (∀ i, i < 16 → ¬ 15 < i) ∧
    ((base.modCore 0 fun c => { c with disabled := 0xFFFF }).coreOf 0).disabled.getLsbD 0 = true := by decide +kernel

/-- Module 0 has core 0 halted and its slot 0 selected, with register n of file 0 and an address. -/
def debugged (addr : Word) : State :=
  (base.modCore 0 fun c => { c with halted := true }).modDebug 0 fun d => { d with addr := addr }

theorem witness_debug_waits : (let s := { debugged 0x2000 with flipping := some (2, true) };
      (match debugPa s 0 .load, debugPa s 0 .store with | .error a, .error b => a && b | _, _ => false) = true) ∧
    (match debugPa (debugged 0x2001) 0 .store with | .error a => !a | _ => false) = true := by decide +kernel

theorem witness_debug : (base.resident.filter fun p => p.2.core == 7) = [] ∧ (base.coreOf 7).halted = false ∧
    (let s := worked.modCore 0 fun c => { c with halted := true }; (s.thr 0).halted = false ∧ (s.coreOf 0).halted = true ∧
      (s.cutChunk 0 19).traces 0 0 = false) ∧
    selectedThread (debugged 5) 0 = some 0 ∧ selectedReg (debugged 5) 0 = (0, (5 : Reg).toNat, 0) ∧
    (selectedReg (debugged 40) 0).2.1 ≥ 32 ∧ selectedThread base 0 = none ∧ 
    (match debugPa (debugged 0x2000) 0 .load, debugPa (debugged 0x2000) 0 .store with
      | .ok a, .ok b => a == (0, 0x2000) && b == (0, 0x2000)
      | _, _ => false) = true ∧ ((debugged 0x2000).debugOf 0).view = false ∧
    ((base.debugOf 0).whistle = false) ∧ (∀ c ∈ clusterCores 167, (base.resident.filter fun p => p.2.core == c) = []) ∧
    (base.trace.wrptr - base.trace.rdptr).toNat < ((5 : BitVec 32) - base.trace.rdptr).toNat ∧ base.trace.owed = 0 ∧ base.trace.buf = [] ∧
    base.reg.phase ≠ 15 ∧ (let s := base.modCore 0 fun c => { c with halted := true };
      (s.thr 0).loc = .slot ∧ (s.thr 0).regs.inRewrite = false ∧ (s.thr 0).chunk.count = 0 ∧ (s.thr 0).status = .ready) ∧
    (((haltModule base 3).debugOf 3).whistle = false) ∧
    base.reg.domain.getLsbD 0 = true := by decide +kernel

theorem witness_power : Memory.wf base.mem = true ∧ 1200 < base.reg.clk.toNat ∧ base.onCluster 5 = [] ∧
    base.reg.d3hot = false ∧ base.resident ≠ [] ∧ State.reset.resident = [] ∧
    (after (exec .freezeSignal base)).reg.frozen = true ∧
    base.invals.any (fun v => v.home == 5) = false ∧ ((hostLinesAt base 5).any fun l => deferredAny base (l * 64) 64) = false ∧
    ({ base with invals := [⟨0, 0x3000, 8, 1, 5⟩] } : State).invals.any (fun v => v.home == 5) = true ∧ topSlot base 0 = some 15 := by decide +kernel

/-- About to issue at 0x1000. -/
def ready : State := { base with agenda := [.issue 0] }

theorem witness_step : ready.agenda = [.issue 0] ∧ ready.reg.frozen = false ∧ State.live { ready with agenda := [], cur := 0 } = true ∧
    boundary { ready with agenda := [], cur := 0 } 0 = none ∧
    (ready.thr 0).nextIssue ≤ ready.cycle ∧ traceStalls { ready with agenda := [] } (ready.thr 0) = false ∧
    tokenWaits { ready with agenda := [] } (ready.thr 0) = false ∧
    okayAnd (fetchWord { ready with agenda := [] }) (fun r => r.2 == 0x13) = true ∧ (ready.thr 0).status = .ready ∧
    State.vecFull { ready with agenda := [], cur := 0 } = false ∧
    okayAnd (fetchWord { ready with agenda := [] }) (fun r => !markStalls r.1 (.baseCompute (.imm .addi 0 0 0))) = true ∧
    State.vecFull ((base.modTh fun th => { th with results := List.replicate 8 ⟨1, .vector, none, none, true⟩ })) = true ∧
    (match decode 0 with | .error _ => true | .ok _ => false) = true := by decide +kernel

theorem witness_fetch : codePresent ready 0x1000 = true ∧ codeWords ready 0x1000 = [0x13] ∧ ready.pc = 0x1000 ∧
    bits ready.who.satp 63 60 = 0 ∧ reachable ready ready.who 0x1000 = true ∧ ready.flipWait 0x1000 = false ∧
    ready.poisonedFor 0x1000 = false ∧ ready.isFar 0x1000 = false ∧ (ready.coreOf ready.th.core).flips = [] := by decide +kernel

theorem witness_event : (let s := { base with agenda := [.event .freezeSignal] };
    s.agenda = [.event .freezeSignal] ∧ s.reg.frozen = false) := by decide +kernel

/-! ## Ill-formed terms: every check of Instr.wf refuses one (R49, R52, R57, R60) -/

theorem test_wf_instructions : ([.loop false 0 1 0, .enq false 1 29 0, .enq false 23 20 0, .take false 0, .take false 31,
    .ixpop false 0, .recv false 31 1, .recvs false 31 1 2, .recvt false 31, .ldl false 1 2 3 0 0, .stl false 1 2 3 0 0,
    .tld false 0 31 true, .tst false 0 31 true, .fence 8 3 3 0 0] : List Instr).all (fun i => !i.wf) = true := by decide +kernel

theorem test_wf_cores : ([.mma 1344, .mmag 1344, .mmas 1344, .accz 1344, .accout 1344, .gangmma 1344, .copy 1344, .redcopy 1344,
    .gather 1344, .scatter 1344, .scalecast 1344, .allred 1344, .bcast 1344, .redscat 1344, .allgath 1344, .vectorWindow 1344,
    .tccFlush 1344, .slotDisable 1344 0, .slotEnable 0 16] : List Instr).all (fun i => !i.wf) = true := by decide +kernel

theorem test_wf_banks : ([.refpbDue 16 0 0, .owedRefresh 0 64 0, .refreshEnd 0 0 16] : List Instr).all (fun i => !i.wf) = true := by
  decide +kernel

theorem test_wf_queues : ([.qtailWrite 64 0, .recordFetch 64, .recordRefetch 64, .queueConfigWrite 64 true 0, .queueSwitchOut 64,
    .queueSwitchIn 64, .queueClear 64, .queueClearSkip 64] : List Instr).all (fun i => !i.wf) = true := by decide +kernel

theorem test_wf_slots : ([.regionValid 64, .regionReset 64, .regionGapTimeout 64, .collectiveSlotValid 256, .collectiveTimeout 256,
    .collectiveContribution 256 [], .domainMembershipWrite 32 0, .flitCrcReplay 12, .portDown 12] : List Instr).all
    (fun i => !i.wf) = true := by decide +kernel

theorem test_wf_clusters : ([.debugHalt 168, .debugResume 168, .dmdataRead 168, .dmdataWrite 168 0, .dmmemRead 168, .dmmemWrite 168 0,
    .clusterPowerGate 168, .clusterWake 168] : List Instr).all (fun i => !i.wf) = true := by decide +kernel

/-! ## Decoding: words written out from the encoding tables of the spec (R42 to R61) -/

/-- Each word decodes to the instruction beside it. -/
def agree (l : List (Nat × Instr)) : Bool := l.all fun e => match decode (BitVec.ofNat 32 e.1) with
  | .ok i => decide (i = e.2)
  | .error _ => false

/-- Each word is refused for the reason beside it. -/
def refuse (l : List (Nat × Reject)) : Bool := l.all fun e => match decode (BitVec.ofNat 32 e.1) with
  | .ok _ => false
  | .error r => decide (r = e.2)

/-- The control group (R51). -/
theorem test_decode_control : agree [
    (0x0000000B, .chunk false), (0x8200000B, .yield true), (0x0405000B, .pause false 10), (0x8605000B, .fenceS true 10),
    (0x0805060B, .bar false 12 10), (0x8AD0000B, .waitb true 13), (0x0CD0000B, .batch false 13),
    (0x8E2A060B, .enq true 12 20 2), (0x1005060B, .engq false 12 10), (0x9210000B, .lclr true 1), (0x1405000B, .aeqw false 10),
    (0x9600060B, .aeqr true 12), (0x18B5000B, .ctxsave false 10 11), (0x9AB5000B, .ctxload true 10 11),
    (0x1CB5000B, .tlbinv false 10 11), (0x9E05000B, .zline true 10)] = true := by decide +kernel

/-- LOOP (R52): length 5, level 1. -/
theorem test_decode_loop : agree [
    (0x0054908B, .loop false 1 9 5), (0xFFFF900B, .loop true 0 31 2047)] = true := by decide +kernel

/-- The tasks group (R53). -/
theorem test_decode_tasks : agree [
    (0x00B5200B, .spawn false 10 11), (0x8205200B, .join true 10), (0x0400260B, .take false 12),
    (0x86B5260B, .tnew true 12 10 11), (0x0805200B, .tdec false 10), (0x8A00200B, .texit true), (0x0C05200B, .tlist false 10)] = true := by decide +kernel

/-- The messages group (R54). -/
theorem test_decode_messages : agree [
    (0x00B5300B, .send false 10 11), (0x82B5360B, .sendt true 10 11 12), (0x0405360B, .recv false 12 10),
    (0x86B5360B, .recvs true 12 10 11), (0x0800360B, .recvt false 12), (0x8A00300B, .evend true),
    (0x0CB5300B, .stirv false 10 11), (0x8E05300B, .opton true 10), (0x1000300B, .optoff false),
    (0x9205360B, .msgq true 12 10)] = true := by decide +kernel

/-- The nets group (R55). -/
theorem test_decode_nets : agree [
    (0x0000460B, .ixpop false 12), (0x82B5400B, .ixpair true 10 11), (0x0400460B, .ixnew false 12),
    (0x8605400B, .ixfree true 10), (0x08B5400B, .ixlink false 10 11), (0x8AB5400B, .ixrule true 10 11),
    (0x0C00400B, .ixdone false)] = true := by decide +kernel

/-- The pointers group (R56). -/
theorem test_decode_pointers : agree [
    (0x00B5560B, .ptrfmt false 12 10 11), (0x8205560B, .ptrinfo true 12 10), (0x0405560B, .ptrclr false 12 10)] = true := by decide +kernel

/-- LDL and STL (R57): mode 1, size 2, offset 0x55. -/
theorem test_decode_local : agree [
    (0x3555062B, .ldl false 12 10 1 2 0x55), (0xB4B51AAB, .stl true 10 11 1 2 0x55)] = true := by decide +kernel

/-- Reductions and reservations (R58). -/
theorem test_decode_reductions : agree [
    (0x00B5202B, .redAddW false 10 11), (0x82B5202B, .redAddD true 10 11), (0x04B5202B, .redMinW false 10 11),
    (0x86B5202B, .redMinD true 10 11), (0x08B5202B, .redMaxW false 10 11), (0x8AB5202B, .redMaxD true 10 11),
    (0x0CB5202B, .redAndD false 10 11), (0x8EB5202B, .redOrD true 10 11), (0x10B5202B, .redXorD false 10 11),
    (0x92B5202B, .redFaddS true 10 11), (0x14B5202B, .redFxa false 10 11), (0x9605262B, .lrwW true 12 10),
    (0x1805262B, .lrwD false 12 10), (0x9AB5202B, .schW true 10 11), (0x1CB5202B, .schD false 10 11),
    (0x9E05262B, .lrwq true 12 10)] = true := by decide +kernel

/-- Relaxed access (R58). -/
theorem test_decode_relaxed : agree [
    (0x00B5302B, .stxW false 10 11), (0x82B5302B, .stxD true 10 11), (0x04B5362B, .stxRelW false 10 11 12),
    (0x86B5362B, .stxRelD true 10 11 12), (0x08B5362B, .ldaW false 12 10 11), (0x8AB5362B, .ldaD true 12 10 11)] = true := by decide +kernel

/-- Vector memory access (R58, R193). -/
theorem test_decode_vector_memory : agree [
    (0x5005462B, .vld false 5 12 10), (0xD205462B, .vst true 5 12 10), (0x54B5462B, .vlds false 5 12 10 11),
    (0xD6B5462B, .vsts true 5 12 10 11), (0x58B5462B, .vgath false 5 12 10 11), (0xDAB5462B, .vscat true 5 12 10 11),
    (0x5C05462B, .vldl false 5 12 10), (0xDE05462B, .vstl true 5 12 10)] = true := by decide +kernel

/-- Vector and predicate functions (R59), functions 0 to 12. -/
theorem test_decode_vector_0 : agree [
    (0x0196A65B, .vadd false 6 12 10 11), (0x8396A65B, .vsub true 6 12 10 11), (0x0596A65B, .vmul false 6 12 10 11),
    (0x8796A65B, .vfma true 6 12 10 11), (0x0996A65B, .vfms false 6 12 10 11), (0x8B96A65B, .vmin true 6 12 10 11),
    (0x0D96A65B, .vmax false 6 12 10 11), (0x8F80A65B, .vabs true 6 12 10), (0x1180A65B, .vneg false 6 12 10),
    (0x9396A65B, .vand true 6 12 10 11), (0x1596A65B, .vor false 6 12 10 11), (0x9796A65B, .vxor true 6 12 10 11),
    (0x1996A65B, .vshl false 6 12 10 11)] = true := by decide +kernel

/-- Vector and predicate functions (R59), functions 13 to 25. -/
theorem test_decode_vector_1 : agree [
    (0x9B96A65B, .vshr true 6 12 10 11), (0x1D96A65B, .vshrl false 6 12 10 11), (0x9F96A2DB, .vcmpeq true 6 5 10 11),
    (0x2196A2DB, .vcmplt false 6 5 10 11), (0xA396A2DB, .vcmple true 6 5 10 11), (0x2596A65B, .vsel false 6 12 10 11),
    (0xA780A65B, .vmov true 6 12 10), (0x2980A65B, .vbcast false 6 12 10), (0xAB96A65B, .vins true 6 12 10 11),
    (0x2D96A65B, .vext false 6 12 10 11), (0xAF96A65B, .vperm true 6 12 10 11), (0x31B0A65B, .vcvt false 6 12 10 8 true),
    (0xB380A65B, .vrsum true 6 12 10)] = true := by decide +kernel

/-- Vector and predicate functions (R59), functions 26 to 38. -/
theorem test_decode_vector_2 : agree [
    (0x3580A65B, .vrmax false 6 12 10), (0xB780A65B, .vrmin true 6 12 10), (0x3980A65B, .vrcp false 6 12 10),
    (0xBB80A65B, .vrsqrt true 6 12 10), (0x3D80A65B, .vexp2 false 6 12 10), (0xBF80A65B, .vlog2 true 6 12 10),
    (0x4000A65B, .vsett false 12 10), (0xC206225B, .pand true 4 2 3), (0x4406225B, .por false 4 2 3),
    (0xC600225B, .pnot true 4 2), (0x4800265B, .pcnt false 12 2), (0xCA00265B, .pfirst true 12 2),
    (0x4C00A25B, .pset false 4 10)] = true := by decide +kernel

/-- Tile data movement (R60). -/
theorem test_decode_tile : agree [
    (0x01400CFB, .tld false 6 10 true), (0x85400C7B, .tst true 6 10 false), (0x08000C7B, .tzero false 6),
    (0x8C028C7B, .tmov true 6 5), (0x10028C7B, .ttrans false 6 5), (0x9540067B, .acld true 3 10),
    (0x1940067B, .acst false 3 10), (0x9C00067B, .acz true 3), (0x20010C7B, .tcvt false 6 2),
    (0xA4028CFB, .tgen true 6 5 true), (0x29400C7B, .tfill false 6 10)] = true := by decide +kernel

/-- Matrix and generator instructions (R61). -/
theorem test_decode_matrix : agree [
    (0x001A96FB, .tmma false 3 5 6 true), (0x849A967B, .tmmas true 3 5 6 4 false), (0x081A96FB, .tmmag false 3 5 6 true),
    (0x81402C7B, .gsetK true 6 10), (0x05402C7B, .gsetSeed false 6 10), (0x89402CFB, .gsetScope true 6 10 true),
    (0x0D402C7B, .gsetOrg false 6 10), (0x91402C7B, .gsetPar true 6 10)] = true := by decide +kernel

/-- The words that the spec itself writes out. -/
theorem test_decode_worked : agree [
    (0x8A10000B, .waitb true 1), (0x1003038B, .engq false 7 6), (0x8A00000B, .waitb true 0), (0x0E06030B, .enq false 6 12 0),
    (0x583382AB, .ldl false 5 7 2 3 3), (0x306511AB, .stl false 10 6 1 2 3), (0x0054900B, .loop false 0 9 5),
    (0x068411DB, .vfma false 2 3 1 2), (0x3010115B, .vcvt false 0 2 1 8 false), (0x400062DB, .vsett false 5 6),
    (0x1005422B, .vld false 1 4 10), (0x0235358B, .sendt false 10 3 11), (0x8800320B, .recvt true 4),
    (0x88D6400B, .ixlink true 12 13), (0x8400250B, .take true 10), (0x06E6A60B, .tnew false 12 13 14),
    (0x0468907B, .tmmas false 0 1 2 3 false), (0x092022FB, .gsetScope false 1 9 true), (0x014004FB, .tld false 2 10 true),
    (0x000D12FB, .tmma false 1 2 3 true)] = true := by decide +kernel

/-- Loads and stores of the standard base, offset -3 or 0x7E1. -/
theorem test_decode_loads : agree [
    (0xFFD30283, .standardLoad .lb 5 6 0xFFD), (0xFFD31283, .standardLoad .lh 5 6 0xFFD),
    (0xFFD32283, .standardLoad .lw 5 6 0xFFD), (0xFFD33283, .standardLoad .ld 5 6 0xFFD),
    (0xFFD34283, .standardLoad .lbu 5 6 0xFFD), (0xFFD35283, .standardLoad .lhu 5 6 0xFFD),
    (0xFFD36283, .standardLoad .lwu 5 6 0xFFD), (0x7E7300A3, .standardStore .sb 6 7 0x7E1),
    (0x7E7310A3, .standardStore .sh 6 7 0x7E1), (0x7E7320A3, .standardStore .sw 6 7 0x7E1),
    (0x7E7330A3, .standardStore .sd 6 7 0x7E1)] = true := by decide +kernel

/-- OP (RV64I, M). -/
theorem test_decode_op_0 : agree [
    (0x007302B3, .baseCompute (.op .add 5 6 7)), (0x007312B3, .baseCompute (.op .sll 5 6 7)),
    (0x007322B3, .baseCompute (.op .slt 5 6 7)), (0x007332B3, .baseCompute (.op .sltu 5 6 7)),
    (0x007342B3, .baseCompute (.op .xor 5 6 7)), (0x007352B3, .baseCompute (.op .srl 5 6 7)),
    (0x007362B3, .baseCompute (.op .or 5 6 7)), (0x007372B3, .baseCompute (.op .and 5 6 7)),
    (0x407302B3, .baseCompute (.op .sub 5 6 7)), (0x407352B3, .baseCompute (.op .sra 5 6 7)),
    (0x027302B3, .baseCompute (.op .mul 5 6 7)), (0x027312B3, .baseCompute (.op .mulh 5 6 7)),
    (0x027322B3, .baseCompute (.op .mulhsu 5 6 7)), (0x027332B3, .baseCompute (.op .mulhu 5 6 7)),
    (0x027342B3, .baseCompute (.op .div 5 6 7)), (0x027352B3, .baseCompute (.op .divu 5 6 7)),
    (0x027362B3, .baseCompute (.op .rem 5 6 7)), (0x027372B3, .baseCompute (.op .remu 5 6 7))] = true := by decide +kernel

/-- OP (Zba, Zbb). -/
theorem test_decode_op_1 : agree [
    (0x207322B3, .baseCompute (.op .sh1add 5 6 7)), (0x207342B3, .baseCompute (.op .sh2add 5 6 7)),
    (0x207362B3, .baseCompute (.op .sh3add 5 6 7)), (0x407342B3, .baseCompute (.op .xnor 5 6 7)),
    (0x407362B3, .baseCompute (.op .orn 5 6 7)), (0x407372B3, .baseCompute (.op .andn 5 6 7)),
    (0x0A7342B3, .baseCompute (.op .min 5 6 7)), (0x0A7352B3, .baseCompute (.op .minu 5 6 7)),
    (0x0A7362B3, .baseCompute (.op .max 5 6 7)), (0x0A7372B3, .baseCompute (.op .maxu 5 6 7)),
    (0x607312B3, .baseCompute (.op .rol 5 6 7)), (0x607352B3, .baseCompute (.op .ror 5 6 7))] = true := by decide +kernel

/-- OP-32. -/
theorem test_decode_op32 : agree [
    (0x007302BB, .baseCompute (.op32 .addw 5 6 7)), (0x007312BB, .baseCompute (.op32 .sllw 5 6 7)),
    (0x007352BB, .baseCompute (.op32 .srlw 5 6 7)), (0x407302BB, .baseCompute (.op32 .subw 5 6 7)),
    (0x407352BB, .baseCompute (.op32 .sraw 5 6 7)), (0x027302BB, .baseCompute (.op32 .mulw 5 6 7)),
    (0x027342BB, .baseCompute (.op32 .divw 5 6 7)), (0x027352BB, .baseCompute (.op32 .divuw 5 6 7)),
    (0x027362BB, .baseCompute (.op32 .remw 5 6 7)), (0x027372BB, .baseCompute (.op32 .remuw 5 6 7)),
    (0x087302BB, .baseCompute (.op32 .adduw 5 6 7)), (0x207322BB, .baseCompute (.op32 .sh1adduw 5 6 7)),
    (0x207342BB, .baseCompute (.op32 .sh2adduw 5 6 7)), (0x207362BB, .baseCompute (.op32 .sh3adduw 5 6 7)),
    (0x607312BB, .baseCompute (.op32 .rolw 5 6 7)), (0x607352BB, .baseCompute (.op32 .rorw 5 6 7)),
    (0x080342BB, .baseCompute (.unary .zexth 5 6))] = true := by decide +kernel

/-- OP-IMM and OP-IMM-32. -/
theorem test_decode_imm : agree [
    (0x80130293, .baseCompute (.imm .addi 5 6 0x801)), (0x80132293, .baseCompute (.imm .slti 5 6 0x801)),
    (0x80133293, .baseCompute (.imm .sltiu 5 6 0x801)), (0x80134293, .baseCompute (.imm .xori 5 6 0x801)),
    (0x80136293, .baseCompute (.imm .ori 5 6 0x801)), (0x80137293, .baseCompute (.imm .andi 5 6 0x801)),
    (0x8013029B, .baseCompute (.imm .addiw 5 6 0x801)), (0x02A31293, .baseCompute (.shift .slli 5 6 0x2A)),
    (0x02A35293, .baseCompute (.shift .srli 5 6 0x2A)), (0x42A35293, .baseCompute (.shift .srai 5 6 0x2A)),
    (0x62A35293, .baseCompute (.shift .rori 5 6 0x2A)), (0x0AA3129B, .baseCompute (.shift .slliuw 5 6 0x2A)),
    (0x0153129B, .baseCompute (.shiftW .slliw 5 6 0x15)), (0x0153529B, .baseCompute (.shiftW .srliw 5 6 0x15)),
    (0x4153529B, .baseCompute (.shiftW .sraiw 5 6 0x15)), (0x6153529B, .baseCompute (.shiftW .roriw 5 6 0x15))] = true := by decide +kernel

/-- One-source functions of Zbb, LUI, AUIPC. -/
theorem test_decode_unary : agree [
    (0x60031293, .baseCompute (.unary .clz 5 6)), (0x60131293, .baseCompute (.unary .ctz 5 6)),
    (0x60231293, .baseCompute (.unary .cpop 5 6)), (0x60431293, .baseCompute (.unary .sextb 5 6)),
    (0x60531293, .baseCompute (.unary .sexth 5 6)), (0x28735293, .baseCompute (.unary .orcb 5 6)),
    (0x6B835293, .baseCompute (.unary .rev8 5 6)), (0x6003129B, .baseCompute (.unary .clzw 5 6)),
    (0x6013129B, .baseCompute (.unary .ctzw 5 6)), (0x6023129B, .baseCompute (.unary .cpopw 5 6)),
    (0x123452B7, .baseCompute (.lui 5 0x12345)), (0x89ABC297, .baseCompute (.auipc 5 0x89ABC))] = true := by decide +kernel

/-- Branches and jumps. -/
theorem test_decode_jumps : agree [
    (0x54730A63, .branchJump (.branch .beq 6 7 0x2AA)), (0x54731A63, .branchJump (.branch .bne 6 7 0x2AA)),
    (0x54734A63, .branchJump (.branch .blt 6 7 0x2AA)), (0x54735A63, .branchJump (.branch .bge 6 7 0x2AA)),
    (0x54736A63, .branchJump (.branch .bltu 6 7 0x2AA)), (0x54737A63, .branchJump (.branch .bgeu 6 7 0x2AA)),
    (0x807300E3, .branchJump (.branch .beq 6 7 0xC00)), (0x344120EF, .branchJump (.jal 1 0x091A2)),
    (0x801FF0EF, .branchJump (.jal 1 0xFFC00)), (0x07F300E7, .branchJump (.jalr 1 6 0x07F))] = true := by decide +kernel

/-- Fences and atomics. -/
theorem test_decode_atomics : agree [
    (0x0FF0000F, .fence 0 15 15 0 0), (0x8330000F, .fenceTso 0 0), (0x0000100F, .fenceI 0 0 0),
    (0x140332AF, .lr true true false 5 6), (0x1A7322AF, .sc false false true 5 6 7),
    (0x0E7332AF, .amo .swap true true true 5 6 7), (0x067332AF, .amo .add true true true 5 6 7),
    (0x267332AF, .amo .xor true true true 5 6 7), (0x667332AF, .amo .and true true true 5 6 7),
    (0x467332AF, .amo .or true true true 5 6 7), (0x867332AF, .amo .min true true true 5 6 7),
    (0xA67332AF, .amo .max true true true 5 6 7), (0xC67332AF, .amo .minu true true true 5 6 7),
    (0xE67332AF, .amo .maxu true true true 5 6 7)] = true := by decide +kernel

/-- SYSTEM. -/
theorem test_decode_system : agree [
    (0x00000073, .ecall), (0x00100073, .ebreak), (0x10200073, .sret), (0x10500073, .wfi), (0x12730073, .sfenceVma 6 7),
    (0x801312F3, .csrInstruction .rw false 0x801 5 6), (0x801322F3, .csrInstruction .rs false 0x801 5 6),
    (0x801332F3, .csrInstruction .rc false 0x801 5 6), (0x801352F3, .csrInstruction .rw true 0x801 5 6),
    (0x801362F3, .csrInstruction .rs true 0x801 5 6), (0x801372F3, .csrInstruction .rc true 0x801 5 6)] = true := by decide +kernel

/-- Words that encode no instruction (R42, R43, R48, R49, R57, R60): why each is refused. -/
theorem test_decode_refuses : refuse [
    (0x00010001, .compressed), (0x0000001F, .wide), (0x00000057, .opcode), (0x30200073, .function), (0x0000600B, .function),
    (0x2000000B, .function), (0x0000008B, .field), (0x0B00000B, .immediate), (0x0E0A0B8B, .group), (0x0E0E808B, .group),
    (0x0004900B, .immediate), (0x0050110B, .immediate), (0x0400200B, .group), (0x0400BF8B, .group), (0x6000002B, .immediate),
    (0x03E000FB, .group), (0x1420087B, .field), (0x4E00005B, .function)] = true := by decide +kernel

/-! ## Single steps, with results worked out by hand from the spec -/

/-- ADDI wraps, and reads its source before it writes it (RV64I). -/
theorem test_addi_wraps : (after (exec (.baseCompute (.imm .addi 1 1 1)) (withX [(1, 0xFFFFFFFFFFFFFFFF)]))).x 1 = 0 ∧
    (after (exec (.baseCompute (.imm .addi 1 1 0xFFF)) (withX [(1, 5)]))).x 1 = 4 := by decide +kernel

/-- A write of x0 is discarded (RV64I). -/
theorem test_x0_discards : (after (exec (.baseCompute (.imm .addi 0 1 1)) (withX [(1, 5)]))).x 0 = 0 := by decide +kernel

/-- ADDIW sign-extends its 32-bit sum. -/
theorem test_addiw_extends :
    (after (exec (.baseCompute (.imm .addiw 2 1 1)) (withX [(1, 0x7FFFFFFF)]))).x 2 = 0xFFFFFFFF80000000 := by decide +kernel

/-- The corners of division, as the RISC-V specification tabulates them. -/
theorem test_division_corners :
    (after (exec (.baseCompute (.op .divu 3 1 2)) (withX [(1, 7)]))).x 3 = 0xFFFFFFFFFFFFFFFF ∧
    (after (exec (.baseCompute (.op .rem 3 1 2)) (withX [(1, 7)]))).x 3 = 7 ∧
    (after (exec (.baseCompute (.op .div 3 1 2)) (withX [(1, 0x8000000000000000), (2, 0xFFFFFFFFFFFFFFFF)]))).x 3 =
      0x8000000000000000 := by decide +kernel

/-- MULHSU of -1 and the greatest unsigned number. -/
theorem test_mulhsu :
    (after (exec (.baseCompute (.op .mulhsu 3 1 2)) (withX [(1, 0xFFFFFFFFFFFFFFFF), (2, 0xFFFFFFFFFFFFFFFF)]))).x 3 =
      0xFFFFFFFFFFFFFFFF := by decide +kernel

/-- Byte functions of Zbb. -/
theorem test_zbb_bytes : (after (exec (.baseCompute (.unary .orcb 2 1)) (withX [(1, 0x0100002000000080)]))).x 2 = 0xFF0000FF000000FF ∧
    (after (exec (.baseCompute (.unary .rev8 2 1)) (withX [(1, 0x0102030405060708)]))).x 2 = 0x0807060504030201 := by decide +kernel

/-- A taken branch goes back; an untaken one goes on; JAL links. -/
theorem test_branch_back : (after (exec (.branchJump (.branch .blt 1 2 0xFFC)) (withX [(1, 0xFFFFFFFFFFFFFFFF)]))).th.regs.pc =
      base.th.regs.pc - 8 ∧
    (after (exec (.branchJump (.branch .bltu 1 2 0xFFC)) (withX [(1, 0xFFFFFFFFFFFFFFFF)]))).th.regs.pc = base.th.regs.pc + 4 := by
  decide +kernel

theorem test_jal_links : (after (exec (.branchJump (.jal 1 8)) base)).x 1 = base.th.regs.pc + 4 ∧
    (after (exec (.branchJump (.jal 1 8)) base)).th.regs.pc = base.th.regs.pc + 16 := by decide +kernel

/-- A thread reads the byte it has just stored, sign-extended. -/
theorem test_store_then_load : (after (exec (.standardLoad .lb 3 1 1) (after (exec (.standardStore .sh 1 2 0)
    (loaded.modRegs fun r => r.putX 2 0x80FF))))).x 3 = 0xFFFFFFFFFFFFFF80 := by decide +kernel

/-- ECALL in U mode: cause 8, the pc saved, S mode (R332). -/
theorem test_ecall_traps : (after (exec .ecall base)).th.regs.smode = true ∧
    (after (exec .ecall base)).th.regs.csr.scause = 8 ∧
    (after (exec .ecall base)).th.regs.csr.sepc = base.th.regs.pc := by decide +kernel

/-- SRET is a privileged instruction: in U mode it traps (cause 2). -/
theorem test_sret_in_u : (after (exec .sret base)).th.regs.csr.scause = 2 := by decide +kernel

/-- PSET marks its register, and the result arrives with all 64 bits (R26, R192). -/
theorem test_pset : (after (exec (.pset false 1 2) (withX [(2, 0xFF00FF00FF00FF00)]))).th.regs.marks = [.p 1] ∧
    (after (exec (.longLatencyResult base.cur 0) (after (exec (.pset false 1 2) (withX [(2, 0xFF00FF00FF00FF00)]))))).p 1 =
      0xFF00FF00FF00FF00 := by decide +kernel

/-- The indexes of the page walk that 23_faults works out for VA 0x0000_1234_5678_9ABC (R342, R343). -/
theorem test_walk_indexes : [4, 3, 2, 1, 0].map (vaIndex 0x123456789ABC) = [0x00, 0x24, 0xD1, 0xB3, 0x189] := by decide +kernel

/-- Core (5, 1) with a launch of 4 MiB of CSP, as 06_scalar_notes lays it out. -/
def onCore53 : State := (base.modTh fun th => { th with placeCore := 53, core := 53 }).modLaunch base.th.lid fun l => { l with csp := 2 }

/-- The three modes of LDL at offset 0x9_0148, as 06_scalar_notes tabulates them (R91, R93). -/
theorem test_csp_modes : okay (localPlace onCore53 4 0x90148 8 0 false) = false ∧
    okayAnd (localPlace onCore53 4 0x90148 8 1 false) (fun p => p == .csp 0x0080000000910148) = true ∧
    okayAnd (localPlace onCore53 4 0x90148 8 2 false) (fun p => p == .csp 0x0080000000D12008) = true := by decide +kernel

/-- 1.5 and -1.5 in FXA (R169). -/
theorem test_fxa : fxaOf (.fin false 3 (-1)) = (0x00000000000180000000000000000000, 0) ∧
    fxaOf (.fin true 3 (-1)) = (0xFFFFFFFFFFFE80000000000000000000, 0) := by decide +kernel

end Sys2Proof.Tests
end

section
/-!
PROOFS. What needs tile state in its slot: the tile instructions and the tile CSRs (01_machine R21).
-/
namespace Sys2Proof.Machine

/-- An instruction whose early check finds it illegal traps, whatever its park, its registers and its body (R332). -/
theorem runInstr_illegal {s : State} {early : Option Stop} {i : Instr} (hlive : s.live = true)
    (he : early = some (illegal i)) (p : Bool) (regs : List RegName) (body : Body) :
    runInstr p early regs body s = .next (takeTrap s 2 ((encode i).setWidth 64)) := by
  simp [runInstr, hlive, attempt, he, illegal, applyStop]

/-! ## Tile instructions -/

theorem needTile_of_no_tile {s : State} (ht : s.th.tile = false) (i : Instr) : needTile i s = some (illegal i) := by
  simp [needTile, ht]

/-- The early check of the instruction is that its slot has tile state. -/
def TileGuarded (i : Instr) : Prop :=
  ∀ s, ∃ p regs body, exec i s = runInstr p (needTile i s) regs body s

theorem TileGuarded.traps {i : Instr} (h : TileGuarded i) {s : State} (hlive : s.live = true) (ht : s.th.tile = false) :
    Traps i s 2 ((encode i).setWidth 64) := by
  obtain ⟨p, regs, body, hexec⟩ := h s
  exact hexec.trans (runInstr_illegal hlive (needTile_of_no_tile ht i) p regs body)

/-- The instructions of custom-3 (R199): what each one means opens with the check. -/
theorem tileInstructions_guarded (p tr : Bool) (td ta tb tm g : BitVec 3) (ac : BitVec 2) (a : Reg) :
    ∀ i ∈ [Instr.tld p td a tr, .tst p td a tr, .tzero p td, .tmov p td ta, .ttrans p td ta, .acld p ac a, .acst p ac a,
        .acz p ac, .tcvt p td ac, .tgen p td g tr, .tfill p td a, .tmma p ac ta tb tr, .tmmas p ac ta tb tm tr,
        .tmmag p ac ta g tr, .gsetK p g a, .gsetSeed p g a, .gsetScope p g a tr, .gsetOrg p g a, .gsetPar p g a],
      TileGuarded i := by
  simp only [List.forall_mem_cons, List.not_mem_nil, false_implies, implies_true, and_true]
  and_intros <;> exact fun _ => ⟨_, _, _, rfl⟩

/-! ## Tile CSRs -/

theorem csrTile_iff {n : BitVec 12} : csrTile n = true ↔ 0x810 ≤ n.toNat ∧ n.toNat ≤ 0x81F := by
  simp [csrTile]

/-- A read is as illegal as a write (R21, R104). -/
theorem csrIllegal_of_no_tile {s : State} {n : BitVec 12} (ht : s.th.tile = false) (hn : csrTile n = true) (writes : Bool) :
    csrIllegal s n writes = true := by
  simp [csrIllegal, ht, hn]

theorem csrInstruction_traps_of_illegal {s : State} {f : CsrOp} {im : Bool} {csr : BitVec 12} {rd src : Reg}
    (hlive : s.live = true) (h : csrIllegal s csr (csrWrites f src) = true) :
    Traps (.csrInstruction f im csr rd src) s 2 ((encode (.csrInstruction f im csr rd src)).setWidth 64) :=
  runInstr_illegal hlive (if_pos h) _ _ _

/-- Settles O26: every tile instruction and every access to a tile CSR is stopped by its early check. The slot of
`Tests.noTile` meets the premises (`Tests.witness_tiles`). -/
theorem tileInstructionsNeedATileSlot : Obligations.TileInstructionsNeedATileSlot := by
  intro s p tr td ta tb tm g ac a hlive ht
  refine ⟨fun i hi => ?_, fun f im csr rd src hlow hhigh => ?_⟩
  · exact (tileInstructions_guarded p tr td ta tb tm g ac a i hi).traps hlive ht
  · have htile : csrTile csr = true := csrTile_iff.2 ⟨hlow, hhigh⟩
    exact csrInstruction_traps_of_illegal hlive (csrIllegal_of_no_tile ht htile _)

end Sys2Proof.Machine
end

section
/-!
PROOFS. The pointer instructions: PTRFMT, PTRINFO and PTRCLR (05_scalar R90).
-/
namespace Sys2Proof.Machine

/-! ## Reading an x register after a write -/

theorem getX_putX (r : Regs) (d q : Reg) (w : Word) :
    (r.putX d w).getX q = if q = d then (if d = 0 then 0 else w) else r.getX q := by
  by_cases hq : q = d
  · subst hq
    by_cases hd : q = 0 <;> simp only [Regs.putX, Regs.getX, hd, if_true, if_false, Vector.getElem_set_self]
  · have hn : d.toNat ≠ q.toNat := fun h => hq (BitVec.eq_of_toNat_eq h.symm)
    rw [if_neg hq]
    by_cases hd : d = 0
    · simp only [Regs.putX, hd, if_true]
    · simp only [Regs.putX, Regs.getX, hd, if_false, Vector.getElem_set_ne _ _ hn]

@[simp] theorem State.setX_mem (s : State) (d : Reg) (w : Word) : (s.setX d w).mem = s.mem := by
  unfold State.setX; split <;> rfl

@[simp] theorem State.setX_cores (s : State) (d : Reg) (w : Word) : (s.setX d w).cores = s.cores := by
  unfold State.setX; split <;> rfl

theorem State.setX_regs (s : State) (d : Reg) (w : Word) : (s.setX d w).th.regs = s.th.regs.putX d w := by
  unfold State.setX
  split
  · next hd => simp [Regs.putX, hd]
  · simp [State.capture]

/-- A read of an x register after a write of one; x0 stays 0. -/
theorem State.x_setX (s : State) (d q : Reg) (w : Word) :
    (s.setX d w).x q = if q = d then (if d = 0 then 0 else w) else s.x q := by
  simp only [State.x, State.setX_regs, getX_putX]

@[simp] theorem State.x_setX_same (s : State) (d : Reg) (w : Word) : (s.setX d w).x d = if d = 0 then 0 else w := by
  simp [State.x_setX]

theorem State.x_setX_other (s : State) {d q : Reg} (w : Word) (h : q ≠ d) : (s.setX d w).x q = s.x q := by
  simp [State.x_setX, h]

/-! ## Instructions that write an x register at issue or trap -/

/-- On a calm thread an instruction whose body writes an x register at issue completes with that write. -/
theorem run_setX {p : Bool} {regs : List RegName} {body : Body} {s : State} {d : Reg} {w : Word} (h : Calm s)
    (hb : body s = .ok (s.setX d w, .seq)) :
    runInstr p none regs body s = .next (completed (s.setX d w) (s.pc + 4) .ready) :=
  run_calm h hb (Local.setX s d w) (by decide) (by decide) ⟨nofun, nofun⟩

/-- With no hardware loop active, a trap of the body is taken as it is: no count register can be pending (R83). -/
theorem stopAt_trap {s : State} (h : Ready s) (cause : Nat) (tval : Word) :
    stopAt s s (.trap cause tval) = takeTrap s cause tval := by
  have hp : firstPending s (loopReads s) = none := by rw [loopReads_off h.loop0 h.loop1]; rfl
  simp [stopAt, hp, applyStop]

/-- On a ready thread a trap of the body is the instruction's trap. -/
theorem run_trap {p : Bool} {regs : List RegName} {body : Body} {s : State} {cause : Nat} {tval : Word} (h : Ready s)
    (hb : body s = .error (.trap cause tval)) : runInstr p none regs body s = .next (takeTrap s cause tval) := by
  have hp : (if p then s.park else some s) = some s := by cases p <;> simp [park_calm h]
  have hq : firstPending s regs = none := by simp [firstPending, h.marks]
  simp [runInstr, h.live, attempt, hp, hq, badReg_sound h.sound, hb, stopAt_trap h]

/-! ## Pointers -/

/-- A format code and an exponent code fail PTRFMT's test, in the order in which R90 lists the reasons. -/
theorem ptrValid_eq_false_iff {f e : Nat} : ptrValid f e = false ↔
    13 ≤ f ∨ ((f = 10 ∨ f = 11) ∧ (e < 3 ∨ 7 < e)) ∨ (¬ (f = 10 ∨ f = 11) ∧ e ≠ 0) := by
  unfold ptrValid
  split <;> simp <;> omega

/-- The width of an element, by the rows of R90's table. -/
theorem fmtBits_eq_rows (k : Nat) : fmtBits k =
    if k ≤ 1 ∨ k = 8 ∨ k = 9 then 8 else if k = 2 ∨ k = 5 ∨ k = 6 then 16 else if k = 3 ∨ k = 7 then 32
      else if k = 4 then 64 else if k = 10 ∨ k = 11 then 4 else if k = 12 then 128 else 0 := by
  have h01 : (k = 0 ∨ k = 1 ∨ k = 8 ∨ k = 9) = (k ≤ 1 ∨ k = 8 ∨ k = 9) := propext (by omega)
  simp only [fmtBits, h01]

/-- The pointer that PTRFMT forms: the format code and the exponent code of one word and the address of another. -/
def formedPointer (codes addr : Word) : Word :=
  BitVec.ofNat 64 (bits codes 3 0 * 2 ^ 60 + bits codes 7 4 * 2 ^ 56 + bits addr 55 0)

/-- What PTRINFO answers of a word: valid, the element width and the top byte. -/
def pointerInfo (w : Word) : Word :=
  BitVec.ofNat 64 (b2n (ptrOk w) * 65536 + fmtBits (bits w 63 60) * 256 + bits w 63 56)

theorem ptrfmt_traps {s : State} (h : Calm s) (p : Bool) (d a b : Reg)
    (hv : ptrValid (bits (s.x b) 3 0) (bits (s.x b) 7 4) = false) :
    Traps (.ptrfmt p d a b) s 29 (formedPointer (s.x b) (s.x a)) :=
  run_trap h.toReady (by simp [hv, formedPointer])

theorem ptrfmt_does {s : State} (h : Calm s) (p : Bool) (d a b : Reg)
    (hv : ptrValid (bits (s.x b) 3 0) (bits (s.x b) 7 4) = true) :
    Does (.ptrfmt p d a b) s (s.setX d (formedPointer (s.x b) (s.x a))) :=
  run_setX h (by simp [hv, formedPointer])

theorem ptrinfo_does {s : State} (h : Calm s) (p : Bool) (d a : Reg) :
    Does (.ptrinfo p d a) s (s.setX d (pointerInfo (s.x a))) :=
  run_setX h rfl

theorem ptrclr_does {s : State} (h : Calm s) (p : Bool) (d a : Reg) :
    Does (.ptrclr p d a) s (s.setX d (BitVec.ofNat 64 (bits (s.x a) 55 0))) :=
  run_setX h rfl

theorem pointerInfo_of_valid {w : Word} (h : ptrOk w = true) :
    pointerInfo w = BitVec.ofNat 64 (65536 + fmtBits (bits w 63 60) * 256 + bits w 63 56) := by
  simp [pointerInfo, h, b2n]

theorem pointerInfo_of_invalid {w : Word} (h : ptrOk w = false) :
    pointerInfo w = BitVec.ofNat 64 (fmtBits (bits w 63 60) * 256 + bits w 63 56) := by
  simp [pointerInfo, h, b2n]

/-- Settles O16: the test of R90 is `ptrValid`, its table `fmtBits`, and the frame that of a write of an x register.
`Tests.base` meets the premise (`Tests.witness_calm`). -/
theorem pointerInstructions : Obligations.PointerInstructions := by
  intro s p d a b h f e y bad k g good ebits
  have hbad : ptrValid f e = false ↔ bad := ptrValid_eq_false_iff
  have hgood : ptrOk (s.x a) = false ↔ ¬ good := ptrValid_eq_false_iff.trans Classical.not_not.symm
  have hwidth : fmtBits k = ebits := fmtBits_eq_rows k
  refine ⟨fun hb => ?_, fun hb => ?_, fun hg => ?_, fun hg => ?_, ptrclr_does h p d a, fun w => ?_⟩
  · exact ptrfmt_traps h p d a b (hbad.2 hb)
  · exact ptrfmt_does h p d a b (eq_true_of_ne_false (mt hbad.1 hb))
  · have hv : ptrOk (s.x a) = true := eq_true_of_ne_false fun hv => hgood.1 hv hg
    rw [← hwidth, ← pointerInfo_of_valid hv]
    exact ptrinfo_does h p d a
  · rw [← hwidth, ← pointerInfo_of_invalid (hgood.2 hg)]
    exact ptrinfo_does h p d a
  · exact ⟨s.setX_mem d w, s.setX_cores d w, fun r hr => s.x_setX_other w hr, s.x_setX_same d w⟩

end Sys2Proof.Machine
end

section
/-!
PROOFS. Vector and predicate functions that need no arithmetic: the bitwise functions, the shifts, selection and movement,
the predicate functions and VSETT (13_vector_tile R180 to R183, R187, R189, R192).
-/
namespace Sys2Proof.Machine

/-! ## The type check and the vector queue (R180, R182) -/

theorem vecFull_of_no_results {s : State} (h : s.th.results = []) : s.vecFull = false := by
  simp [State.vecFull, h]

theorem vecStart_accepted {s : State} {ok : Nat → Bool} (hr : s.th.results = [])
    (hok : ok (vtypeOf s.th.regs.csr.vtype).fmt = true) : vecStart s ok = .ok (vtypeOf s.th.regs.csr.vtype) := by
  have hfmt : ok (s.th.regs.csr.vtype.toNat % 16) = true := hok
  simp [vecStart, hfmt, vecFull_of_no_results hr]

theorem vecStart_refused {s : State} {ok : Nat → Bool} (hok : ok (vtypeOf s.th.regs.csr.vtype).fmt = false) :
    vecStart s ok = .error (.trap 53 (s.th.regs.csr.vtype.setWidth 64)) := by
  have hfmt : ok (s.th.regs.csr.vtype.toNat % 16) = false := hok
  simp [vecStart, hfmt]

/-- The body of the instruction opens with the type check of a group of functions. -/
def TypeChecked (ok : Nat → Bool) (i : Instr) : Prop :=
  ∀ s, ∃ p regs, ∃ rest : State → VType → Except Stop (State × After),
    exec i s = runInstr p none regs (fun s => vecStart s ok >>= rest s) s

theorem TypeChecked.traps {ok : Nat → Bool} {i : Instr} (h : TypeChecked ok i) {s : State} (hs : Ready s)
    (hok : ok (vtypeOf s.th.regs.csr.vtype).fmt = false) : Traps i s 53 (s.th.regs.csr.vtype.setWidth 64) := by
  obtain ⟨p, regs, rest, hexec⟩ := h s
  have hbody : vecStart s ok >>= rest s = .error (.trap 53 (s.th.regs.csr.vtype.setWidth 64)) := by
    rw [vecStart_refused hok]; rfl
  exact hexec.trans (run_trap hs hbody)

/-! ## Results of the vector queue (R181 to R183) -/

/-- No register captures more than a tile register does. -/
theorem undoSize_reg_le (n : RegName) : undoSize (.reg n) ≤ 1072 := by
  cases n <;> simp [undoSize, regSize, roundUp]

/-- On a calm thread an instruction whose body raises conditions and enters the vector queue completes with that. -/
theorem run_orFlags_enterVec {p : Bool} {regs : List RegName} {body : Body} {s : State} {c : BitVec 6} {cls : ResClass}
    {v : RegVal} (h : Calm s) (hb : body s = .ok ((s.orFlags c).enterVec cls (some v), .seq)) :
    runInstr p none regs body s = .next (completed ((s.orFlags c).enterVec cls (some v)) (s.pc + 4) .ready) := by
  have hsize : 32 + (undoSize (.reg v.name) + 32) ≤ 8192 := by
    have := undoSize_reg_le v.name; omega
  exact run_calm h hb ((Local.orFlags s c).trans (Local.enterVec _ cls (some v))) hsize (by decide) ⟨nofun, nofun⟩

/-- The same without conditions. -/
theorem run_enterVec {p : Bool} {regs : List RegName} {body : Body} {s : State} {cls : ResClass} {v : RegVal} (h : Calm s)
    (hb : body s = .ok (s.enterVec cls (some v), .seq)) :
    runInstr p none regs body s = .next (completed (s.enterVec cls (some v)) (s.pc + 4) .ready) :=
  run_orFlags_enterVec (c := 0) h hb

/-! ## Element-wise functions (R181, R183) -/

/-- Of the results that a function gives to all elements, the merge keeps those of the active ones. -/
theorem mergeElems_map_range (pr : Word) (e : Nat) (old : List Nat) (f : Nat → Nat × BitVec 6) :
    mergeElems pr e old (((List.range (512 / e)).map f).map (·.1)) =
      (List.range (512 / e)).map fun i => if activeAt pr e i then (f i).1 else old.getD i 0 := by
  refine List.map_congr_left fun i hi => ?_
  simp [List.mem_range.1 hi]

/-- The conditions that an element-wise function raises are those of the active elements. -/
theorem conditions_map_range (pr : Word) (e n : Nat) (f : Nat → Nat × BitVec 6) :
    (List.range n).foldl (fun c i => if activeAt pr e i then c ||| (((List.range n).map f).getD i (0, 0)).2 else c) 0 =
      (List.range n).foldl (fun c i => if activeAt pr e i then c ||| (f i).2 else c) 0 := by
  refine List.foldl_rel (r := Eq) rfl fun i hi c _ hc => ?_
  have hget : (((List.range n).map f).getD i (0, 0)).2 = (f i).2 := by simp [List.mem_range.1 hi]
  rw [hget, hc]

/-- The body of an element-wise function has the effect that the statements call `elementwise`. -/
theorem vecBody_accepted {ok : Nat → Bool} {g : BitVec 3} {d : Reg} {f : State → VType → Nat → Nat × BitVec 6} {s : State}
    (hr : s.th.results = []) (hok : ok (vtypeOf s.th.regs.csr.vtype).fmt = true) :
    vecBody ok g d f s = .ok (elementwise s g d (f s (vtypeOf s.th.regs.csr.vtype)), .seq) := by
  rw [vecBody, vecStart_accepted hr hok, elementwise, ← mergeElems_map_range, ← conditions_map_range]
  rfl

/-- On a calm thread an element-wise function of an accepted format completes with its effect. -/
theorem run_elementwise {p : Bool} {regs : List RegName} {ok : Nat → Bool} {g : BitVec 3} {d : Reg}
    {f : State → VType → Nat → Nat × BitVec 6} {s : State} (h : Calm s)
    (hok : ok (vtypeOf s.th.regs.csr.vtype).fmt = true) :
    runInstr p none regs (vecBody ok g d f) s =
      .next (completed (elementwise s g d (f s (vtypeOf s.th.regs.csr.vtype))) (s.pc + 4) .ready) :=
  run_orFlags_enterVec h (vecBody_accepted h.results hok)

/-! ## Bits, shifts, selection and movement (R187, R189) -/

theorem fmtAny_iff {f : Nat} : fmtAny f = true ↔ f ≤ 9 := by simp [fmtAny]

theorem fmtAny_eq_false_iff {f : Nat} : fmtAny f = false ↔ 9 < f := by simp [fmtAny]

theorem bitsAndMovement_typeChecked (p : Bool) (g : BitVec 3) (d a b : Reg) :
    ∀ i ∈ [Instr.vand p g d a b, .vor p g d a b, .vxor p g d a b, .vshl p g d a b, .vshrl p g d a b, .vshr p g d a b,
        .vmov p g d a, .vbcast p g d a, .vins p g d a b, .vperm p g d a b, .vsel p g d a b], TypeChecked fmtAny i := by
  simp only [List.forall_mem_cons, List.not_mem_nil, false_implies, implies_true, and_true]
  and_intros <;> exact fun _ => ⟨_, _, _, rfl⟩

theorem vext_typeChecked (p : Bool) (g : BitVec 3) (d a b : Reg) : TypeChecked fmtAny (.vext p g d a b) :=
  fun _ => ⟨_, _, _, rfl⟩

/-- The elements of VSEL: those of v[a] where the predicate holds and those of v[b] elsewhere. -/
theorem vsel_does {s : State} (h : Calm s) (hfmt : fmtAny (vtypeOf s.th.regs.csr.vtype).fmt = true) (p : Bool)
    (g : BitVec 3) (d a b : Reg) :
    let e := fmtBits (vtypeOf s.th.regs.csr.vtype).fmt
    Does (.vsel p g d a b) s
      (s.enterVec .vector (some (.v d (vecOf e (mergeElems (s.p g) e (elems e (s.v b)) (elems e (s.v a))))))) :=
  run_enterVec h (by rw [vecStart_accepted h.results hfmt]; rfl)

/-- What VEXT makes of an element: 0 of an inactive one, and the sign only of a signed integer. -/
def extractedWord (t : VType) (active : Bool) (x : Nat) : Word :=
  if !active then 0 else if fmtIsInt t.fmt && !t.uns then signExt (fmtBits t.fmt) x else BitVec.ofNat 64 x

theorem extractedWord_inactive (t : VType) (x : Nat) : extractedWord t false x = 0 := rfl

theorem extractedWord_signed {t : VType} (h : (fmtIsInt t.fmt && !t.uns) = true) (x : Nat) :
    extractedWord t true x = signExt (fmtBits t.fmt) x := if_pos h

theorem extractedWord_unsigned {t : VType} (h : (fmtIsInt t.fmt && !t.uns) = false) (x : Nat) :
    extractedWord t true x = BitVec.ofNat 64 x := if_neg (ne_true_of_eq_false h)

theorem vext_does {s : State} (h : Calm s) (hfmt : fmtAny (vtypeOf s.th.regs.csr.vtype).fmt = true) (p : Bool)
    (g : BitVec 3) (d a b : Reg) :
    let t := vtypeOf s.th.regs.csr.vtype
    let e := fmtBits t.fmt
    let j := (s.x b).toNat % (512 / e)
    Does (.vext p g d a b) s (s.enterVec .vector (some (.x d (extractedWord t (activeAt (s.p g) e j) (s.elem t a j))))) :=
  run_enterVec h (by rw [vecStart_accepted h.results hfmt]; rfl)

/-- Settles O22: every function opens with the type check, and under a format that it accepts it is element-wise, or one
result of the vector queue. The states `Tests.withType` meet the premises (`Tests.witness_vector`,
`Tests.witness_extract`). -/
theorem vectorBitsAndMovement : Obligations.VectorBitsAndMovement := by
  refine ⟨?_, ?_⟩ <;> intro s p g d a b h t e
  · intro ew x y
    refine ⟨fun hbad i hi => ?_, fun hgood => ?_⟩
    · exact (bitsAndMovement_typeChecked p g d a b i hi).traps h.toReady (fmtAny_eq_false_iff.2 hbad)
    · have hfmt : fmtAny t.fmt = true := fmtAny_iff.2 hgood
      have helem {regs f} : runInstr p none regs (vecBody fmtAny g d f) s =
          .next (completed (elementwise s g d (f s t)) (s.pc + 4) .ready) := run_elementwise h hfmt
      exact ⟨helem, helem, helem, helem, helem, helem, helem, helem, helem, helem, vsel_does h hfmt p g d a b⟩
  · intro j
    refine ⟨fun hbad => (vext_typeChecked p g d a b).traps h.toReady (fmtAny_eq_false_iff.2 hbad), fun hgood => ?_⟩
    have hext : Does _ s (s.enterVec .vector (some (.x d (extractedWord t (activeAt (s.p g) e j) (s.elem t a j))))) :=
      vext_does h (fmtAny_iff.2 hgood) p g d a b
    refine ⟨fun hact => ?_, fun hact hint => ?_, fun hact hint => ?_⟩
    · rwa [hact, extractedWord_inactive] at hext
    · rwa [hact, extractedWord_signed hint] at hext
    · rwa [hact, extractedWord_unsigned hint] at hext

/-! ## Predicates and VTYPE (R192) -/

/-- On a calm thread a predicate function completes with its one result, whatever VTYPE is. -/
theorem run_predBody {p : Bool} {regs : List RegName} {w : State → RegVal} {s : State} (h : Calm s) :
    runInstr p none regs (predBody w) s = .next (completed (s.enterVec .vector (some (w s))) (s.pc + 4) .ready) :=
  run_enterVec h (by simp [predBody, vecFull_of_no_results h.results])

theorem vsett_does {s : State} (h : Calm s) (p : Bool) (d a : Reg) :
    Does (.vsett p d a) s
      ((s.setX d (s.th.regs.csr.vtype.setWidth 64)).setCsr 0x800 fun c => { c with vtype := (s.x a).setWidth 8 }) := by
  have hlocal := (Local.setX s d (s.th.regs.csr.vtype.setWidth 64)).trans
    (Local.setCsr (k := 0x800) (f := fun c => { c with vtype := (s.x a).setWidth 8 }) rfl rfl rfl)
  refine run_calm (a := .seq) h ?_ hlocal (by decide) (by decide) ⟨nofun, nofun⟩
  rfl

/-- Settles O24: VSETT writes at issue, the predicate functions through the vector queue, which a calm thread has empty.
`Tests.base` meets the premise (`Tests.witness_calm`). -/
theorem predicatesAndType : Obligations.PredicatesAndType := by
  intro s p x a d i j h
  exact ⟨vsett_does h p x a, run_predBody h, run_predBody h, run_predBody h, run_predBody h, run_predBody h, run_predBody h⟩

end Sys2Proof.Machine
end

section
/-!
PROOFS. The generator registers: a field put into a register, and the five forms of GSET (13_vector_tile R211, R212).
-/
namespace Sys2Proof.Machine

/-! ## A field put into a generator register -/

/-- The bits of a field that was put in are the value's, the others the register's. -/
theorem getLsbD_gPut (g : GReg) (lsb n v : Nat) {k : Nat} (hk : k < 256) :
    (gPut g lsb n v).getLsbD k = if lsb ≤ k ∧ k < lsb + n then v.testBit (k - lsb) else g.getLsbD k := by
  have hmask : ((2 ^ n - 1) * 2 ^ lsb).testBit k = decide (lsb ≤ k ∧ k < lsb + n) := by
    rw [Nat.testBit_mul_two_pow, Nat.testBit_two_pow_sub_one, ← Bool.decide_and, decide_eq_decide]
    omega
  have hvalue : (v % 2 ^ n * 2 ^ lsb).testBit k = (decide (lsb ≤ k ∧ k < lsb + n) && v.testBit (k - lsb)) := by
    rw [Nat.testBit_mul_two_pow, Nat.testBit_mod_two_pow, ← Bool.and_assoc, ← Bool.decide_and]
    congr 1
    rw [decide_eq_decide]
    omega
  simp only [gPut, BitVec.getLsbD_or, BitVec.getLsbD_and, BitVec.getLsbD_not, BitVec.getLsbD_ofNat, hk, hmask, hvalue,
    decide_true, Bool.true_and]
  split <;> simp [*]

/-- A field reads as what was put into it. -/
theorem extractLsb'_gPut_same (g : GReg) {lsb n : Nat} (v : Nat) (h : lsb + n ≤ 256) :
    (gPut g lsb n v).extractLsb' lsb n = BitVec.ofNat n v := by
  ext k hk
  have hin : lsb ≤ lsb + k ∧ lsb + k < lsb + n := by omega
  rw [BitVec.getElem_extractLsb', getLsbD_gPut _ _ _ _ (by omega), if_pos hin, Nat.add_sub_cancel_left,
    ← BitVec.getLsbD_eq_getElem, BitVec.getLsbD_ofNat, decide_eq_true hk, Bool.true_and]

/-- A field keeps its value where another is put in. -/
theorem extractLsb'_gPut_other (g : GReg) {lsb n i m : Nat} (v : Nat) (hm : i + m ≤ 256) (h : i + m ≤ lsb ∨ lsb + n ≤ i) :
    (gPut g lsb n v).extractLsb' i m = g.extractLsb' i m := by
  ext k hk
  have hout : ¬ (lsb ≤ i + k ∧ i + k < lsb + n) := by omega
  rw [BitVec.getElem_extractLsb', BitVec.getElem_extractLsb', getLsbD_gPut _ _ _ _ (by omega), if_neg hout]

/-- A field that takes bits of a word and is read as a number. -/
theorem toNat_extractLsb'_gPut_bits (g : GReg) (w : Word) {lsb n msb low : Nat} (h : lsb + n ≤ 256) (hn : msb + 1 - low = n) :
    ((gPut g lsb n (bits w msb low)).extractLsb' lsb n).toNat = bits w msb low := by
  have hlt : bits w msb low < 2 ^ n := hn ▸ Nat.mod_lt _ (Nat.two_pow_pos _)
  rw [extractLsb'_gPut_same g _ h, BitVec.toNat_ofNat, Nat.mod_eq_of_lt hlt]

/-- A field that takes a whole word. -/
theorem extractLsb'_gPut_word (g : GReg) (w : Word) {lsb : Nat} (h : lsb + 64 ≤ 256) :
    (gPut g lsb 64 w.toNat).extractLsb' lsb 64 = w := by
  rw [extractLsb'_gPut_same g _ h, BitVec.ofNat_toNat, BitVec.setWidth_eq]

theorem gLocal_gPut_same (g : GReg) (loc : Bool) : gLocal (gPut g 232 1 (b2n loc)) = loc := by
  rw [gLocal, getLsbD_gPut _ _ _ _ (by decide), if_pos (by decide)]
  cases loc <;> rfl

theorem gLocal_gPut_other (g : GReg) {lsb n : Nat} (v : Nat) (h : lsb + n ≤ 232 ∨ 232 < lsb) :
    gLocal (gPut g lsb n v) = gLocal g := by
  rw [gLocal, getLsbD_gPut _ _ _ _ (by decide), if_neg (by omega), gLocal]

/-! ## The fields after each form's puts (R211, R212) -/

section
variable (g : GReg) (w : Word)

theorem gFields_putSeed : gFields (gPut g 0 64 w.toNat) =
    (w, gScope g, gRow g, gCol g, gParam g, gKind g, gOut g, gLocal g) := by
  simp (disch := omega) only [gFields, gSeed, gScope, gRow, gCol, gParam, gKind, gOut, gLocal_gPut_other,
    extractLsb'_gPut_word, extractLsb'_gPut_other]

theorem gFields_putScope (loc : Bool) : gFields (gPut (gPut g 64 64 w.toNat) 232 1 (b2n loc)) =
    (gSeed g, w, gRow g, gCol g, gParam g, gKind g, gOut g, loc) := by
  simp (disch := omega) only [gFields, gSeed, gScope, gRow, gCol, gParam, gKind, gOut, gLocal_gPut_same,
    extractLsb'_gPut_word, extractLsb'_gPut_other]

theorem gFields_putOrg : gFields (gPut (gPut g 128 32 (bits w 31 0)) 160 32 (bits w 63 32)) =
    (gSeed g, gScope g, bits w 31 0, bits w 63 32, gParam g, gKind g, gOut g, gLocal g) := by
  simp (disch := omega) only [gFields, gSeed, gScope, gRow, gCol, gParam, gKind, gOut, gLocal_gPut_other,
    toNat_extractLsb'_gPut_bits, extractLsb'_gPut_other]

theorem gFields_putPar : gFields (gPut g 192 32 (bits w 31 0)) =
    (gSeed g, gScope g, gRow g, gCol g, bits w 31 0, gKind g, gOut g, gLocal g) := by
  simp (disch := omega) only [gFields, gSeed, gScope, gRow, gCol, gParam, gKind, gOut, gLocal_gPut_other,
    toNat_extractLsb'_gPut_bits, extractLsb'_gPut_other]

theorem gFields_putK : gFields (gPut (gPut g 224 3 (bits w 2 0)) 228 4 (bits w 7 4)) =
    (gSeed g, gScope g, gRow g, gCol g, gParam g, bits w 2 0, bits w 7 4, gLocal g) := by
  simp (disch := omega) only [gFields, gSeed, gScope, gRow, gCol, gParam, gKind, gOut, gLocal_gPut_other,
    toNat_extractLsb'_gPut_bits, extractLsb'_gPut_other]

end

/-! ## The five forms of GSET (R212) -/

theorem needTile_of_tile {s : State} (ht : s.th.tile = true) (i : Instr) : needTile i s = none := by
  simp [needTile, ht]

/-- On a calm thread in a tile slot a GSET form writes at issue what it makes of x[a] and g[d]. -/
theorem run_gset {p : Bool} {i : Instr} {regs : List RegName} {s : State} (h : Calm s) (ht : s.th.tile = true)
    (gd : BitVec 3) (f : Word → GReg → GReg) (a : Reg) :
    runInstr p (needTile i s) regs (gsetBody gd f a) s =
      .next (completed (s.setG gd (f (s.x a) (s.g gd))) (s.pc + 4) .ready) := by
  have hsize : undoSize (.reg (.g gd)) ≤ 8192 := Nat.le_trans (undoSize_reg_le _) (by decide)
  rw [needTile_of_tile ht]
  exact run_calm (a := .seq) h rfl (Local.setG s gd (f (s.x a) (s.g gd))) hsize (by decide) ⟨nofun, nofun⟩

/-- Settles O30: each form puts its fields into g[d], and without tile state the early check stops it (O26). `Tests.base`
meets the premise in a tile slot (`Tests.witness_tiles`). -/
theorem generatorRegisters : Obligations.GeneratorRegisters := by
  intro s p loc gd a h w g
  refine ⟨fun ht => ⟨?_, ?_, ?_, ?_, ?_⟩, fun ht i hi => ?_⟩
  · exact ⟨_, run_gset h ht gd _ a, gFields_putK g w⟩
  · exact ⟨_, run_gset h ht gd _ a, gFields_putSeed g w⟩
  · exact ⟨_, run_gset h ht gd _ a, gFields_putScope g w loc⟩
  · exact ⟨_, run_gset h ht gd _ a, gFields_putOrg g w⟩
  · exact ⟨_, run_gset h ht gd _ a, gFields_putPar g w⟩
  · have htile := tileInstructions_guarded p loc 0 0 0 0 gd 0 a i (List.mem_of_mem_drop (i := 14) hi)
    exact htile.traps h.live ht

end Sys2Proof.Machine
end

section
/-!
PROOFS. The round trip of the encoding, over all instructions (03_encoding R42 to R61).
-/
namespace Sys2Proof.Laws.Roundtrip

/-- The round trip of every instruction; an operation or event has no word. -/
theorem statement_all (i : Instr) : Statement i := by
  cases i with
  | chunk p => exact chunk p
  | yield p => exact yield p
  | pause p a => exact pause p a
  | fenceS p a => exact fenceS p a
  | bar p d a => exact bar p d a
  | waitb p n => exact waitb p n
  | batch p n => exact batch p n
  | enq p d a e => exact enq p d a e
  | engq p d a => exact engq p d a
  | lclr p l => exact lclr p l
  | aeqw p a => exact aeqw p a
  | aeqr p d => exact aeqr p d
  | ctxsave p a b => exact ctxsave p a b
  | ctxload p a b => exact ctxload p a b
  | tlbinv p a b => exact tlbinv p a b
  | zline p a => exact zline p a
  | loop p l a len => exact loop p l a len
  | spawn p a b => exact spawn p a b
  | join p a => exact join p a
  | take p d => exact take p d
  | tnew p d a b => exact tnew p d a b
  | tdec p a => exact tdec p a
  | texit p => exact texit p
  | tlist p a => exact tlist p a
  | send p a b => exact send p a b
  | sendt p a b d => exact sendt p a b d
  | recv p d a => exact recv p d a
  | recvs p d a b => exact recvs p d a b
  | recvt p d => exact recvt p d
  | evend p => exact evend p
  | stirv p a b => exact stirv p a b
  | opton p a => exact opton p a
  | optoff p => exact optoff p
  | msgq p d a => exact msgq p d a
  | ixpop p d => exact ixpop p d
  | ixpair p a b => exact ixpair p a b
  | ixnew p d => exact ixnew p d
  | ixfree p a => exact ixfree p a
  | ixlink p a b => exact ixlink p a b
  | ixrule p a b => exact ixrule p a b
  | ixdone p => exact ixdone p
  | ptrfmt p d a b => exact ptrfmt p d a b
  | ptrinfo p d a => exact ptrinfo p d a
  | ptrclr p d a => exact ptrclr p d a
  | ldl p d a mode size off => exact ldl p d a mode size off
  | stl p a b mode size off => exact stl p a b mode size off
  | redAddW p a b => exact redAddW p a b
  | redAddD p a b => exact redAddD p a b
  | redMinW p a b => exact redMinW p a b
  | redMinD p a b => exact redMinD p a b
  | redMaxW p a b => exact redMaxW p a b
  | redMaxD p a b => exact redMaxD p a b
  | redAndD p a b => exact redAndD p a b
  | redOrD p a b => exact redOrD p a b
  | redXorD p a b => exact redXorD p a b
  | redFaddS p a b => exact redFaddS p a b
  | redFxa p a b => exact redFxa p a b
  | lrwW p d a => exact lrwW p d a
  | lrwD p d a => exact lrwD p d a
  | schW p a b => exact schW p a b
  | schD p a b => exact schD p a b
  | lrwq p d a => exact lrwq p d a
  | stxW p a b => exact stxW p a b
  | stxD p a b => exact stxD p a b
  | stxRelW p a b d => exact stxRelW p a b d
  | stxRelD p a b d => exact stxRelD p a b d
  | ldaW p d a b => exact ldaW p d a b
  | ldaD p d a b => exact ldaD p d a b
  | vld p g d a => exact vld p g d a
  | vst p g d a => exact vst p g d a
  | vlds p g d a b => exact vlds p g d a b
  | vsts p g d a b => exact vsts p g d a b
  | vgath p g d a b => exact vgath p g d a b
  | vscat p g d a b => exact vscat p g d a b
  | vldl p g d a => exact vldl p g d a
  | vstl p g d a => exact vstl p g d a
  | vadd p g d a b => exact vadd p g d a b
  | vsub p g d a b => exact vsub p g d a b
  | vmul p g d a b => exact vmul p g d a b
  | vfma p g d a b => exact vfma p g d a b
  | vfms p g d a b => exact vfms p g d a b
  | vmin p g d a b => exact vmin p g d a b
  | vmax p g d a b => exact vmax p g d a b
  | vabs p g d a => exact vabs p g d a
  | vneg p g d a => exact vneg p g d a
  | vand p g d a b => exact vand p g d a b
  | vor p g d a b => exact vor p g d a b
  | vxor p g d a b => exact vxor p g d a b
  | vshl p g d a b => exact vshl p g d a b
  | vshr p g d a b => exact vshr p g d a b
  | vshrl p g d a b => exact vshrl p g d a b
  | vcmpeq p g d a b => exact vcmpeq p g d a b
  | vcmplt p g d a b => exact vcmplt p g d a b
  | vcmple p g d a b => exact vcmple p g d a b
  | vsel p g d a b => exact vsel p g d a b
  | vmov p g d a => exact vmov p g d a
  | vbcast p g d a => exact vbcast p g d a
  | vins p g d a b => exact vins p g d a b
  | vext p g d a b => exact vext p g d a b
  | vperm p g d a b => exact vperm p g d a b
  | vcvt p g d a fmt u => exact vcvt p g d a fmt u
  | vrsum p g d a => exact vrsum p g d a
  | vrmax p g d a => exact vrmax p g d a
  | vrmin p g d a => exact vrmin p g d a
  | vrcp p g d a => exact vrcp p g d a
  | vrsqrt p g d a => exact vrsqrt p g d a
  | vexp2 p g d a => exact vexp2 p g d a
  | vlog2 p g d a => exact vlog2 p g d a
  | vsett p d a => exact vsett p d a
  | pand p d a b => exact pand p d a b
  | por p d a b => exact por p d a b
  | pnot p d a => exact pnot p d a
  | pcnt p d a => exact pcnt p d a
  | pfirst p d a => exact pfirst p d a
  | pset p d a => exact pset p d a
  | tld p td a pitched => exact tld p td a pitched
  | tst p td a pitched => exact tst p td a pitched
  | tzero p td => exact tzero p td
  | tmov p td ta => exact tmov p td ta
  | ttrans p td ta => exact ttrans p td ta
  | acld p td a => exact acld p td a
  | acst p td a => exact acst p td a
  | acz p td => exact acz p td
  | tcvt p td ta => exact tcvt p td ta
  | tgen p td g tr => exact tgen p td g tr
  | tfill p td a => exact tfill p td a
  | tmma p td ta tb tr => exact tmma p td ta tb tr
  | tmmas p td ta tb tm tr => exact tmmas p td ta tb tm tr
  | tmmag p td ta g tr => exact tmmag p td ta g tr
  | gsetK p gd a => exact gsetK p gd a
  | gsetSeed p gd a => exact gsetSeed p gd a
  | gsetScope p gd a loc => exact gsetScope p gd a loc
  | gsetOrg p gd a => exact gsetOrg p gd a
  | gsetPar p gd a => exact gsetPar p gd a
  | standardLoad f rd rs1 imm => exact standardLoad f rd rs1 imm
  | standardStore f rs1 rs2 imm => exact standardStore f rs1 rs2 imm
  | baseCompute c => exact baseCompute c
  | branchJump j => exact branchJump j
  | fence fm pred succ rd rs1 => exact fence fm pred succ rd rs1
  | fenceTso rd rs1 => exact fenceTso rd rs1
  | fenceI imm rd rs1 => exact fenceI imm rd rs1
  | lr dbl aq rl rd rs1 => exact lr dbl aq rl rd rs1
  | sc dbl aq rl rd rs1 rs2 => exact sc dbl aq rl rd rs1 rs2
  | amo f dbl aq rl rd rs1 rs2 => exact amo f dbl aq rl rd rs1 rs2
  | wfi  => exact wfi
  | sfenceVma rs1 rs2 => exact sfenceVma rs1 rs2
  | ecall  => exact ecall
  | ebreak  => exact ebreak
  | sret  => exact sret
  | csrInstruction f immediate csr rd src => exact csrInstruction f immediate csr rd src
  | _ => rintro w ⟨⟩

/-- Settles O59, by the round trip of each constructor. -/
theorem decodeEncode : Obligations.DecodeEncode := statement_all

end Sys2Proof.Laws.Roundtrip
end

section
/-!
PROOFS. Reset, the words of the encoding tables, and the step (01_machine R24, 03_encoding R48, 05_scalar R103).
-/
namespace Sys2Proof.Machine

/-- Settles O58: the decoder evaluates on each word. -/
theorem wordsDecode : Obligations.WordsDecode :=
  ⟨⟨true, 1, rfl, rfl, rfl⟩, ⟨_, _, _, rfl⟩, ⟨_, _, _, _, rfl⟩, ⟨_, _, _, rfl⟩, ⟨_, rfl⟩, ⟨_, rfl⟩, ⟨_, _, rfl⟩,
    ⟨_, _, rfl⟩, ⟨_, rfl⟩, ⟨_, _, _, rfl⟩⟩

/-- Settles O56: each field is written out in `State.reset` and `Regs.reset`; an element of a file is the one that the file
repeats. -/
theorem resetState : Obligations.ResetState := by
  refine ⟨rfl, rfl, rfl, rfl, rfl, rfl, rfl, rfl, rfl, rfl, rfl, rfl, rfl, rfl, rfl, rfl, rfl, rfl, rfl,
    fun _ => ⟨rfl, rfl⟩, fun _ => rfl, rfl, rfl, rfl, rfl, rfl, rfl, rfl, rfl, rfl, rfl, rfl, rfl, fun i => ?_, fun i => ?_⟩
  · exact ⟨Vector.getElem_replicate _, Vector.getElem_replicate _, Vector.getElem_replicate _, Vector.getElem_replicate _⟩
  · exact Vector.getElem_replicate _

/-! ## A thread at its turn (R24, R32) -/

/-- Nothing at the boundary of a thread, and nothing of the barrel, keeps it from issuing. -/
structure AtTurn (s : State) (t : Nat) : Prop where
  live : s.live = true
  boundary : boundary s t = none
  due : (s.thr t).nextIssue ≤ s.cycle
  trace : traceStalls s (s.thr t) = false
  token : tokenWaits s (s.thr t) = false

/-- A thread at its turn that stands in no wait, and whose hold is over, fetches its instruction. -/
theorem prepare_fetches {s : State} {t : Nat} (h : AtTurn { s with cur := t } t) (hvec : State.vecFull { s with cur := t } = false)
    (hwait : ∀ v, (s.thr t).status ≠ .wait v) (htoken : (s.thr t).status ≠ .retry .token)
    (hheld : ∀ k, (s.thr t).status = .retry (.held k) → holdOver { s with cur := t } t k = true) :
    prepare s t = fetchIssue { s with cur := t } := by
  have hdue : ¬ s.cycle < (State.thr { s with cur := t } t).nextIssue := Nat.not_lt.2 h.due
  have hstatus : (State.thr { s with cur := t } t).status = (s.thr t).status := rfl
  simp only [prepare, h.live, h.boundary, hdue, h.trace, h.token, hvec, hstatus, Bool.not_true, Bool.not_false, Bool.and_true,
    decide_false, Bool.or_self, Bool.false_eq_true, if_false]
  cases hs : (s.thr t).status with
  | ready => rfl
  | wait w => exact absurd hs (hwait w)
  | retry w =>
    cases w with
    | token => exact absurd hs htoken
    | held k => simp only [hheld k hs, if_true]
    | _ => rfl

/-- A ready thread at its turn whose vector queue is full becomes not ready (R182). -/
theorem prepare_vecFull {s : State} {t : Nat} (h : AtTurn { s with cur := t } t) (hvec : State.vecFull { s with cur := t } = true)
    (hready : (s.thr t).status = .ready) : prepare s t = .idle (State.stall { s with cur := t } .vecQueue) := by
  have hdue : ¬ s.cycle < (State.thr { s with cur := t } t).nextIssue := Nat.not_lt.2 h.due
  have hstatus : (State.thr { s with cur := t } t).status = .ready := hready
  simp [prepare, h.live, h.boundary, hdue, h.trace, h.token, hvec, hstatus]

theorem step_of_issue {s : State} {t : Nat} {rest : List Move} (ha : s.agenda = .issue t :: rest) (hf : s.reg.frozen = false) :
    step s = (takeSlot exec { s with agenda := rest } t).1 := by
  simp [step, ha, runMove, hf, issue]

theorem takeSlot_idle {s s' : State} {t : Nat} (h : prepare s t = .idle s') :
    (takeSlot exec s t).1 = .next (settleMove s s') := by
  rw [takeSlot, h]

/-- An instruction that is run is its exec, followed by what follows every instruction and every move. -/
theorem takeSlot_run {s s' : State} {t : Nat} {i : Instr} (h : prepare s t = .run i s') :
    (takeSlot exec s t).1 = thenDo (exec i s') fun u => settleMove s (afterIssue s' t i u) := by
  rw [takeSlot, h]
  dsimp only
  cases exec i s' <;> rfl

/-- In bare mode a fetch that nothing stops gives the one value that the word can have (R103). -/
theorem fetchWord_bare {s : State} {w : Nat} (halign : s.pc.toNat % 4 = 0) (hlow : s.pc.toNat < 2 ^ 52)
    (hbare : bits s.who.satp 63 60 = 0) (hreach : reachable s s.who s.pc.toNat = true) (hflip : s.flipWait s.pc.toNat = false)
    (hpoison : s.poisonedFor s.pc.toNat = false) (hfar : s.isFar s.pc.toNat = false)
    (hparity : ((s.coreOf s.th.core).flips.any fun f => f.array == 1 && f.addr / 64 == s.pc.toNat / 64) = false)
    (hcode : codePresent s s.pc.toNat = true) (hw : codeWords s s.pc.toNat = [w]) : fetchWord s = .ok (s, w) := by
  have htrans : translateTh s .fetch s.pc.toNat = .ok (s, s.pc.toNat, true) := by
    have hwho : ({ s.who with alias_ := false } : Who) = s.who := rfl
    have hin : ¬ (2 ^ 52 ≤ s.pc.toNat ∨ (!reachable s s.who s.pc.toNat) = true) := by simp only [hreach, Bool.not_true, Bool.false_eq_true, or_false]; omega
    rw [translateTh, translateBy, translate, hwho, if_pos hbare, if_neg hin, hflip]
    rfl
  have hhigh : ¬ 2 ^ 56 ≤ s.pc.toNat := by omega
  have halign' : ¬ s.pc.toNat % 4 ≠ 0 := Classical.not_not.2 halign
  simp only [fetchWord, if_neg halign', if_neg hhigh, htrans, hpoison, hfar, hparity, hcode, hw, chooseWord,
    Bool.false_eq_true, if_false, if_true]

/-- Settles O57. `Tests.base` meets the premises of a step (`Tests.witness_step`). -/
theorem stepRunsDecodedInstruction : Obligations.StepRunsDecodedInstruction := by
  refine ⟨?_, ?_, ?_, ?_⟩
  · intro s f t w rest ha hf s0 s1 hlive hb hdue htr htok hvec hwait htoken hheld
    have hfetch : prepare s0 t = fetchIssue s1 := prepare_fetches ⟨hlive, hb, hdue, htr, htok⟩ hvec hwait htoken hheld
    refine ⟨fun hok => ⟨fun i hi hm => ?_, fun e he => ?_⟩, fun e he => ?_⟩
    · have hrun : prepare s0 t = .run i f := by simp only [hfetch, fetchIssue, hok, hi, hm, Bool.false_eq_true, if_false]
      exact (step_of_issue ha hf).trans (takeSlot_run hrun)
    · have hidle : prepare s0 t = .idle (takeTrap f 2 (BitVec.ofNat 64 w)) := by simp only [hfetch, fetchIssue, hok, he]
      exact (step_of_issue ha hf).trans (takeSlot_idle hidle)
    · have hidle : prepare s0 t = .idle (applyStop s1 e) := by simp only [hfetch, fetchIssue, he]
      exact (step_of_issue ha hf).trans (takeSlot_idle hidle)
  · intro s t rest ha hf s0 s1 hlive hb hdue htr htok hvec hready
    have hidle : prepare s0 t = .idle (s1.stall .vecQueue) := prepare_vecFull ⟨hlive, hb, hdue, htr, htok⟩ hvec hready
    exact (step_of_issue ha hf).trans (takeSlot_idle hidle)
  · intro s i rest ha hf s0
    simp [step, ha, runMove, hf, s0]
  · intro s h1 h2 h3 h4 h5 h6 h7 h8 h9 w hw
    exact ⟨s, fetchWord_bare h1 h2 h3 h4 h5 h6 h7 h8 h9 hw⟩

end Sys2Proof.Machine
end

section
/-!
PROOFS. What completing an instruction and each kind of effect leave unchanged; the computations, branches and jumps of the
base (03_encoding R42, R43; 01_machine R27, R33).
-/
namespace Sys2Proof.Machine

/-! ## Frames -/

/-- Memory, the cores, the chunk's writes and the other threads are as before. -/
def Frame (s e : State) : Prop :=
  e.mem = s.mem ∧ (∀ a, memGet e.mem a = memGet s.mem a) ∧ e.cores = s.cores ∧ e.cur = s.cur ∧
    e.th.chunk.writes = s.th.chunk.writes ∧ ∀ u, u ≠ s.cur → e.thr u = s.thr u

theorem State.thr_setThr_other (s : State) {t u : Nat} (th : Thread) (h : u ≠ t) : (s.setThr t th).thr u = s.thr u := by
  rw [State.thr_setThr, if_neg h.symm]

theorem Frame.refl (s : State) : Frame s s := ⟨rfl, fun _ => rfl, rfl, rfl, rfl, fun _ _ => rfl⟩

theorem Frame.trans {s t u : State} (h : Frame s t) (k : Frame t u) : Frame s u := by
  obtain ⟨hm, -, hc, hcur, hw, ho⟩ := h
  obtain ⟨km, -, kc, kcur, kw, ko⟩ := k
  have hmem := km.trans hm
  exact ⟨hmem, fun a => by rw [hmem], kc.trans hc, kcur.trans hcur, kw.trans hw,
    fun v hv => (ko v (hcur ▸ hv)).trans (ho v hv)⟩

/-- A change of the current thread that keeps its chunk's writes. -/
theorem Frame.modTh {s : State} {f : Thread → Thread} (h : (f s.th).chunk.writes = s.th.chunk.writes) : Frame s (s.modTh f) := by
  rw [State.modTh_eq]
  exact ⟨rfl, fun _ => rfl, rfl, rfl, by rw [State.th_setThr_cur, h], fun u hu => s.thr_setThr_other _ hu⟩

theorem Frame.modRegs (s : State) (f : Regs → Regs) : Frame s (s.modRegs f) := Frame.modTh rfl

theorem Frame.capture (s : State) (k : UndoKey) : Frame s (s.capture k) := Frame.modTh rfl

theorem Frame.setX (s : State) (d : Reg) (w : Word) : Frame s (s.setX d w) := by
  unfold State.setX
  split
  · exact .refl s
  · exact (Frame.capture ..).trans (.modRegs ..)

theorem Frame.setG (s : State) (n : BitVec 3) (g : GReg) : Frame s (s.setG n g) := (Frame.capture ..).trans (.modRegs ..)

theorem Frame.setCsr (s : State) (n : BitVec 12) (f : Csrs → Csrs) : Frame s (s.setCsr n f) :=
  (Frame.capture ..).trans (.modRegs ..)

theorem Frame.orFlags (s : State) (f : BitVec 6) : Frame s (s.orFlags f) := by
  unfold State.orFlags
  split
  · exact .refl s
  · exact .setCsr ..

theorem Frame.markPending (s : State) (n : RegName) : Frame s (s.markPending n) :=
  ((Frame.capture ..).trans (.capture ..)).trans (.modRegs ..)

theorem Frame.setLong (s : State) (c : ResClass) (v : RegVal) (f : Option Nat) : Frame s (s.setLong c v f) := by
  unfold State.setLong
  split
  · exact (Frame.markPending ..).trans (.modTh rfl)
  · exact .refl s

/-! ## The thread after each effect -/

@[simp] theorem State.capture_regs (s : State) (k : UndoKey) : (s.capture k).th.regs = s.th.regs := by simp [State.capture]

@[simp] theorem State.capture_post (s : State) (k : UndoKey) : (s.capture k).th.chunk.post = s.th.chunk.post := by
  simp [State.capture]

@[simp] theorem State.modRegs_regs (s : State) (f : Regs → Regs) : (s.modRegs f).th.regs = f s.th.regs := by simp

@[simp] theorem State.modRegs_chunk (s : State) (f : Regs → Regs) : (s.modRegs f).th.chunk = s.th.chunk := by simp

theorem State.setX_post (s : State) (d : Reg) (w : Word) : (s.setX d w).th.chunk.post = s.th.chunk.post := by
  unfold State.setX
  split
  · rfl
  · rw [modRegs_chunk, capture_post]

theorem State.setCsr_regs (s : State) (n : BitVec 12) (f : Csrs → Csrs) :
    (s.setCsr n f).th.regs = { s.th.regs with csr := f s.th.regs.csr } := by
  rw [State.setCsr, State.modCsr, modRegs_regs, capture_regs]

theorem State.setCsr_post (s : State) (n : BitVec 12) (f : Csrs → Csrs) : (s.setCsr n f).th.chunk.post = s.th.chunk.post := by
  rw [State.setCsr, State.modCsr, modRegs_chunk, capture_post]

theorem State.setG_regs (s : State) (n : BitVec 3) (g : GReg) : (s.setG n g).th.regs = s.th.regs.putG n g := by
  rw [State.setG, modRegs_regs, capture_regs]

theorem State.markPending_regs (s : State) (n : RegName) :
    (s.markPending n).th.regs = { s.th.regs with marks := addNew n s.th.regs.marks } := by
  rw [State.markPending, modRegs_regs, capture_regs, capture_regs]

theorem State.markPending_post (s : State) (n : RegName) : (s.markPending n).th.chunk.post = s.th.chunk.post := by
  rw [State.markPending, modRegs_chunk, capture_post, capture_post]

/-- A long-latency result marks its register, where it is one, and changes no other register state. -/
theorem State.setLong_regs (s : State) (c : ResClass) (v : RegVal) (f : Option Nat) : (s.setLong c v f).th.regs =
    { s.th.regs with marks := if realReg v.name then addNew v.name s.th.regs.marks else s.th.regs.marks } := by
  unfold State.setLong
  split
  · next h => rw [State.modTh_eq, State.th_setThr_cur]; exact s.markPending_regs v.name
  · rfl

theorem State.setLong_post (s : State) (c : ResClass) (v : RegVal) (f : Option Nat) :
    (s.setLong c v f).th.chunk.post = s.th.chunk.post := by
  unfold State.setLong
  split
  · rw [State.modTh_eq, State.th_setThr_cur]; exact s.markPending_post v.name
  · rfl

theorem contains_addNew {α : Type} [BEq α] [LawfulBEq α] (a m : α) (l : List α) :
    (addNew a l).contains m = (m == a || l.contains m) := by
  unfold addNew
  split
  · next h =>
    cases hm : m == a
    · simp
    · rw [eq_of_beq hm, h]; rfl
  · rw [List.contains_cons]

/-- The result that enters the vector queue: none for x0 or p0 (R26). -/
def queuedResult : Option RegVal → Option RegVal
  | some v => if realReg v.name then some v else none
  | none => none

theorem enterVec_eq (s : State) (c : ResClass) (v : Option RegVal) : s.enterVec c v =
    (match queuedResult v with | some v => s.markPending v.name | none => s).modTh
      fun th => { th with results := th.results ++ [(⟨th.chunk.uid, c, queuedResult v, none, true⟩ : Result)] } := by
  cases v <;> rfl

theorem Frame.enterVec (s : State) (c : ResClass) (v : Option RegVal) : Frame s (s.enterVec c v) := by
  rw [enterVec_eq]
  cases queuedResult v with
  | none => exact .modTh rfl
  | some v => exact (Frame.markPending ..).trans (.modTh rfl)

theorem enterVec_regs (s : State) (c : ResClass) (v : Option RegVal) : (s.enterVec c v).th.regs =
    { s.th.regs with marks := match queuedResult v with | some v => addNew v.name s.th.regs.marks | none => s.th.regs.marks } := by
  rw [enterVec_eq, State.modTh_eq, State.th_setThr_cur]
  cases queuedResult v with
  | none => rfl
  | some v => exact s.markPending_regs v.name

theorem enterVec_post (s : State) (c : ResClass) (v : Option RegVal) : (s.enterVec c v).th.chunk.post = s.th.chunk.post := by
  rw [enterVec_eq, State.modTh_eq, State.th_setThr_cur]
  cases queuedResult v with
  | none => rfl
  | some v => exact s.markPending_post v.name

theorem queuedResult_of_ne {v : Option RegVal} {m : RegName} (h : ∀ r, v = some r → m ≠ r.name) :
    ∀ r, queuedResult v = some r → m ≠ r.name := by
  intro r hr
  cases v with
  | none => cases hr
  | some q =>
    simp only [queuedResult] at hr
    split at hr
    · exact h r hr
    · cases hr

/-! ## Completion (R24, R31) -/

@[simp] theorem completed_mem (s : State) (n : Word) (st : Status) : (completed s n st).mem = s.mem := rfl
@[simp] theorem completed_cores (s : State) (n : Word) (st : Status) : (completed s n st).cores = s.cores := rfl
@[simp] theorem completed_cur (s : State) (n : Word) (st : Status) : (completed s n st).cur = s.cur := rfl

@[simp] theorem completed_regs (s : State) (n : Word) (st : Status) : (completed s n st).th.regs = { s.th.regs with pc := n } := by
  rw [completed_eq, State.th_setThr_cur]

theorem completed_chunk (s : State) (n : Word) (st : Status) :
    (completed s n st).th.chunk = { s.th.chunk with count := s.th.chunk.count + 1 } := by
  rw [completed_eq, State.th_setThr_cur]

theorem completed_other (s : State) (n : Word) (st : Status) {u : Nat} (h : u ≠ s.cur) :
    (completed s n st).thr u = s.thr u := by
  rw [completed_eq]; exact s.thr_setThr_other _ h

@[simp] theorem completed_x (s : State) (n : Word) (st : Status) (r : Reg) : (completed s n st).x r = s.x r := by
  rw [State.x, completed_regs]; rfl

@[simp] theorem completed_pc (s : State) (n : Word) (st : Status) : (completed s n st).pc = n := by
  rw [State.pc, completed_regs]

/-- Settles O3: every effect is a change of the current thread alone. -/
theorem effectFrames : Obligations.EffectFrames := by
  intro s same post
  refine ⟨fun i e n hd => ⟨_, hd, rfl, rfl, rfl, ?_, ?_, completed_regs .., fun u hu => completed_other _ _ _ hu⟩, ?_, ?_, ?_,
    ?_, ?_, ?_, ?_, ?_⟩
  · rw [completed_chunk]
  · rw [completed_chunk]
  · intro r w
    refine ⟨Frame.setX s r w, s.setX_post r w, ?_, fun q hq => s.x_setX_other w hq⟩
    rw [State.setX_regs, Regs.putX]
    split <;> rfl
  · intro c v f
    refine ⟨Frame.setLong s c v f, s.setLong_post c v f, by rw [State.setLong_regs], fun m hm => ?_⟩
    rw [State.setLong_regs]
    split
    · rw [contains_addNew, beq_false_of_ne hm, Bool.false_or]
    · rfl
  · intro c v
    refine ⟨Frame.enterVec s c v, enterVec_post s c v, by rw [enterVec_regs], fun m hm => ?_⟩
    rw [enterVec_regs]
    cases hq : queuedResult v with
    | none => rfl
    | some r => exact (contains_addNew ..).trans (by rw [beq_false_of_ne (queuedResult_of_ne hm r hq), Bool.false_or])
  · exact fun n f => ⟨Frame.setCsr s n f, s.setCsr_post n f, s.setCsr_regs n f⟩
  · intro f
    refine ⟨Frame.orFlags s f, ?_, ?_⟩ <;> unfold State.orFlags <;> split
    · rfl
    · exact s.setCsr_post _ _
    · next h => simp [h]
    · exact s.setCsr_regs _ _
  · intro n g
    refine ⟨Frame.setG s n g, ?_, ?_, fun m hm => ?_⟩
    · rw [State.setG, State.modRegs_chunk, State.capture_post]
    · rw [State.setG_regs]; rfl
    · have hne : n.toNat ≠ m.toNat := fun e => hm (BitVec.eq_of_toNat_eq e.symm)
      rw [State.g, State.setG_regs]
      exact Vector.getElem_set_ne n.isLt m.isLt hne
  · intro n w
    refine ⟨Frame.setCsr .., s.setCsr_post _ _, ?_, fun m hm => ?_⟩
    · rw [State.setTshape, State.setCsr_regs]
    · have hne : n.toNat ≠ m.toNat := fun e => hm (BitVec.eq_of_toNat_eq e.symm)
      rw [State.tshape, State.setTshape, State.setCsr_regs]
      exact Vector.getElem_set_ne n.isLt m.isLt hne
  · intro a
    refine ⟨Frame.modTh rfl, ?_, ?_⟩ <;> rw [State.postCommit_eq, State.th_setThr_cur]

/-! ## Computations (R43) -/

/-- Settles O1. `Tests.base` meets the premise (`Tests.witness_calm`). -/
theorem computationsWriteTheirDestination : Obligations.ComputationsWriteTheirDestination := by
  have hdoes : ∀ (s : State) (c : Compute), Calm s →
      Does (.baseCompute c) s (s.setX (computeDest c) (computeValue c s.x s.pc)) := fun s c h => run_setX h rfl
  refine ⟨fun s c h => ⟨hdoes s c h, rfl⟩, fun s t c h ht => ?_⟩
  obtain rfl : completed (s.setX (computeDest c) (computeValue c s.x s.pc)) (s.pc + 4) .ready = t :=
    Host.Outcome.next.inj ((hdoes s c h).symm.trans ht)
  obtain ⟨hmem, hget, hcores, hcur, -, hother⟩ := Frame.setX s (computeDest c) (computeValue c s.x s.pc)
  have hregs : (s.setX (computeDest c) (computeValue c s.x s.pc)).th.regs =
      { s.th.regs with x := (s.th.regs.putX (computeDest c) (computeValue c s.x s.pc)).x } := by
    rw [State.setX_regs, Regs.putX]
    split <;> rfl
  refine ⟨hmem, hcores, fun u hu => ?_, hget, fun r hr => ?_, ?_⟩
  · exact (completed_other _ _ _ (hcur ▸ hu)).trans (hother u hu)
  · rw [completed_x, State.x_setX_other _ _ hr]
  · rw [completed_regs, hregs]
    exact ⟨rfl, rfl, rfl, rfl, rfl, rfl, rfl⟩

/-! ## Branches and jumps (R42) -/

/-- On a calm thread a jump to an address that is no multiple of 4 traps at the jump, and any other goes there with the
effect of its link. -/
theorem run_jump {regs : List RegName} {body : Body} {s e : State} {n : Word} {k m : Nat} (h : Calm s) (hl : Local k m s e)
    (hk : k ≤ 8192) (hm : m ≤ 16) (hb : body s = (jumpTo s n).map fun r => (e, r.2)) :
    (n.toNat % 4 = 0 → runInstr false none regs body s = .next (completed e n .ready)) ∧
    (n.toNat % 4 ≠ 0 → runInstr false none regs body s = .next (takeTrap s 0 n)) := by
  refine ⟨fun ha => ?_, fun ha => ?_⟩
  · exact run_calm (a := .jump n) h (by rw [hb, jumpTo, if_neg (Classical.not_not.2 ha)]; rfl) hl hk hm ⟨nofun, nofun⟩
  · exact run_trap h.toReady (by rw [hb, jumpTo, if_pos ha]; rfl)

/-- Settles O2. `Tests.base` meets the premise (`Tests.witness_branches`). -/
theorem branchesAndJumps : Obligations.BranchesAndJumps := by
  intro s rd a b h
  have hlink : Local 32 0 s (s.setX rd (s.pc + 4)) := .setX ..
  refine ⟨fun f off hf => ?_, ?_, ?_, ?_⟩
  · exact run_calm (a := .seq) h (by simp [jumpBody, hf]) (.refl s) (by decide) (by decide) ⟨nofun, nofun⟩
  · intro f off hf n
    refine run_jump h (.refl s) (by decide) (by decide) ?_
    simp only [jumpBody, hf, if_true, jumpTo]
    split <;> rfl
  · intro off n
    refine run_jump h hlink (by decide) (by decide) ?_
    simp only [jumpBody, jumpTo]
    split <;> rfl
  · intro imm n
    refine run_jump h hlink (by decide) (by decide) ?_
    simp only [jumpBody, jumpTo]
    split <;> rfl

end Sys2Proof.Machine
end

section
/-!
PROOFS. Standard loads and stores, plain access by address, LR, SC and AMO (05_scalar R103, 09_ordering R132 to R134, 11_numbers
R168).
-/
namespace Sys2Proof.Machine

/-- On a ready thread an instruction whose effect may write many lines completes where the capacities hold. -/
theorem run_stores {p : Bool} {regs : List RegName} {body : Body} {s t : State} (h : Ready s) (hb : body s = .ok (t, .seq))
    (k : ∃ n m, Local n m s t) (hf : Fits (completed t (s.pc + 4) .ready)) :
    runInstr p none regs body s = .next (completed t (s.pc + 4) .ready) := by
  obtain ⟨n, m, k⟩ := k
  exact run_ready h hb k hf ⟨nofun, nofun⟩

/-! ## Standard loads and stores -/

/-- Settles O4. `Tests.witness_load` and `Tests.witness_store` meet the premises. -/
theorem standardLoadsAndStores : Obligations.StandardLoadsAndStores := by
  refine ⟨fun s t f rd a imm va bs h hp hl => ?_, fun s t f a b imm va h hp hs => ?_⟩
  · refine run_calm (a := .seq) h ?_ ((Local.loadVa hl).trans (.setX t rd _)) (by decide) (by decide) ⟨nofun, nofun⟩
    simp only [baseAddr, hp, hl, bind, Except.bind]
  · obtain ⟨m, k⟩ := Lines.storeVa hs
    refine run_stores h ?_ ⟨_, _, k⟩
    simp only [baseAddr, hp, hs, bind, Except.bind]

/-! ## Plain access by address -/

/-- In bare mode a reachable address is its own translation (R328). -/
theorem translateTh_bare {s : State} {va : Nat} (acc : Acc) (hb : bits s.who.satp 63 60 = 0) (hva : va < 2 ^ 52)
    (hr : reachable s s.who va = true) (hf : s.flipWait va = false) : translateTh s acc va = .ok (s, va, true) := by
  have hw : ({ s.who with alias_ := false } : Who) = s.who := rfl
  simp only [translateTh, translateBy, translate, hw, hb, hr, hf, if_true, Nat.not_le.2 hva, Bool.not_true, Bool.false_eq_true,
    or_self, if_false]

theorem readStop_none {s : State} {pa n va : Nat} (hl : s.ldaWait = none) (hp : s.poisonedFor pa = false)
    (hg : s.badGroup pa n = none) (ht : s.tainted pa n = false) : readStop s pa n va = none := by
  simp only [readStop, hl, hp, hg, ht, Bool.false_eq_true, if_false]

theorem optBars_of_not_inEvent {s : State} (h : s.inEvent = false) (va n : Nat) : s.optBars va n = false := by
  rw [State.optBars, h, Bool.false_and]

theorem tabFind_layWrite (m : Mem) (a : Nat) (bs : List Byte) (c : Nat) :
    tabFind (layWrite m a bs) c = if a ≤ c ∧ c < a + bs.length then some (bs.getD (c - a) 0) else tabFind m c := by
  induction bs generalizing m a with
  | nil => rw [layWrite, if_neg (by simp)]
  | cons b bs ih =>
    rw [layWrite, ih, tabFind_tabSet]
    rcases Nat.lt_trichotomy a c with hlt | rfl | hgt
    · obtain ⟨k, hk⟩ : ∃ k, c - a = k + 1 := ⟨c - a - 1, by omega⟩
      have hk' : c - (a + 1) = k := by omega
      have hin : a + 1 ≤ c ∧ c < a + 1 + bs.length ↔ a ≤ c ∧ c < a + (b :: bs).length := by simp; omega
      simp only [hin, hk, hk', List.getD_cons_succ, Nat.ne_of_lt hlt, if_false]
    · rw [if_neg (by omega), if_pos rfl, if_pos (by simp), Nat.sub_self, List.getD_cons_zero]
    · rw [if_neg (by omega), if_neg (by omega), if_neg (by omega)]

/-- The parts of the state that decide what a thread sees as its own writes, the chunk's plain writes apart. -/
structure SameSight (s t : State) : Prop where
  mem : t.mem = s.mem
  cur : t.cur = s.cur
  older : t.th.older = s.th.older
  post : t.th.chunk.post = s.th.chunk.post
  flights : t.flights = s.flights

theorem SameSight.trans {s t u : State} (h : SameSight s t) (k : SameSight t u) : SameSight s u :=
  ⟨k.mem.trans h.mem, k.cur.trans h.cur, k.older.trans h.older, k.post.trans h.post, k.flights.trans h.flights⟩

theorem SameSight.setThr {s : State} {th : Thread} (ho : th.older = s.th.older) (hp : th.chunk.post = s.th.chunk.post) :
    SameSight s (s.setThr s.cur th) := ⟨rfl, rfl, by simpa using ho, by simpa using hp, rfl⟩

theorem SameSight.of_threads {s t : State} (hm : t.mem = s.mem) (hc : t.cur = s.cur) (ht : t.threads = s.threads)
    (hf : t.flights = s.flights) : SameSight s t := by
  have hth : t.th = s.th := by rw [State.th, State.th, State.thr, State.thr, hc, ht]
  exact ⟨hm, hc, by rw [hth], by rw [hth], hf⟩

theorem State.th_modTh (s : State) (f : Thread → Thread) : (s.modTh f).th = f s.th := by rw [State.modTh_eq, State.th_setThr_cur]

theorem SameSight.modTh (s : State) {f : Thread → Thread} (ho : ∀ th, (f th).older = th.older)
    (hp : ∀ th, (f th).chunk.post = th.chunk.post) : SameSight s (s.modTh f) := .setThr (ho _) (hp _)

theorem SameSight.modCore (s : State) (c : Nat) (f : Core → Core) : SameSight s (s.modCore c f) :=
  .of_threads rfl rfl rfl rfl

theorem SameSight.makeWay (s : State) (core line : Nat) : SameSight s (s.makeWay core line) := by
  unfold State.makeWay
  simp only
  split <;> exact .of_threads rfl rfl rfl rfl

theorem makeWay_th (s : State) (core line : Nat) : (s.makeWay core line).th = s.th := by
  unfold State.makeWay
  simp only
  split <;> rfl

theorem SameSight.enterWrite (s : State) (pa va : Nat) : SameSight s (s.enterWrite pa va) := by
  unfold State.enterWrite
  simp only [State.modChunk_eq]
  split
  · exact .of_threads rfl rfl rfl rfl
  · split
    · exact .setThr rfl rfl
    · exact (SameSight.makeWay s s.th.core (pa / 64)).trans (.setThr rfl rfl)

theorem enterWrite_writes (s : State) (pa va : Nat) : (s.enterWrite pa va).th.chunk.writes = s.th.chunk.writes := by
  unfold State.enterWrite
  simp only [State.modChunk_eq]
  split
  · rfl
  · split
    · rw [State.th_setThr_cur]
    · rw [State.th_setThr_cur, makeWay_th]

theorem SameSight.inject (s : State) (a c o b : Nat) : SameSight s (s.inject a c o b) := by
  unfold State.inject
  dsimp only
  split
  · split
    · exact .of_threads rfl rfl rfl rfl
    · refine SameSight.trans ?_ (SameSight.modTh _ ?_ ?_)
      · exact .modCore ..
      · exact fun _ => rfl
      · exact fun _ => rfl
  · exact .of_threads rfl rfl rfl rfl

theorem inject_writes (s : State) (a c o b : Nat) : (s.inject a c o b).th.chunk.writes = s.th.chunk.writes := by
  unfold State.inject
  dsimp only
  split
  · split
    · rfl
    · rw [State.th_modTh, State.th_modCore]
  · rfl

theorem SameSight.specWrite (s : State) (pa va : Nat) (bs : List Byte) : SameSight s (s.specWrite pa va bs) := by
  unfold State.specWrite
  refine (SameSight.enterWrite s pa va).trans ?_
  refine SameSight.trans (t := ((s.enterWrite pa va).modChunk fun c => { c with writes := layWrite c.writes pa bs })) ?_ ?_
  · exact .modTh _ (fun _ => rfl) fun _ => rfl
  · refine SameSight.trans ?_ (.inject ..)
    exact .of_threads rfl rfl rfl rfl

/-- The chunk's writes after a plain write: its bytes over those before (R134). -/
theorem specWrite_writes (s : State) (pa va : Nat) (bs : List Byte) :
    (s.specWrite pa va bs).th.chunk.writes = layWrite s.th.chunk.writes pa bs := by
  unfold State.specWrite
  simp only [inject_writes, State.th_modCore, State.modChunk_eq, State.th_setThr_cur, enterWrite_writes]

theorem postByte_none {a : Nat} {l : List Act} (h : ∀ x ∈ l, actByte a x = none) : postByte a l = none := by
  unfold postByte
  induction l with
  | nil => rfl
  | cons x l ih =>
    rw [List.foldl_cons, h x List.mem_cons_self]
    exact ih fun y hy => h y (List.mem_cons_of_mem _ hy)

/-- What the thread sees as its own byte after a plain write, where no relaxed store of its chunk covers it (R134). -/
theorem ownByte_specWrite_covered (s : State) (pa va : Nat) (bs : List Byte) {i : Nat} (hi : i < bs.length)
    (hp : ∀ x ∈ s.th.chunk.post, actByte (pa + i) x = none) :
    (s.specWrite pa va bs).ownByte s.cur (pa + i) = some (bs.getD i 0) := by
  have k := SameSight.specWrite s pa va bs
  have hth : (s.specWrite pa va bs).thr s.cur = (s.specWrite pa va bs).th := by rw [State.th, k.cur]
  simp only [State.ownByte, hth, chunkByte, k.post, postByte_none hp, specWrite_writes, tabFind_layWrite,
    Nat.le_add_right, true_and, Nat.add_lt_add_iff_left, hi, if_true, Nat.add_sub_cancel_left]

theorem ownByte_specWrite_outside (s : State) (pa va : Nat) (bs : List Byte) {a : Nat} (ha : a < pa ∨ pa + bs.length ≤ a) :
    (s.specWrite pa va bs).ownByte s.cur a = s.ownByte s.cur a := by
  have k := SameSight.specWrite s pa va bs
  have hth : (s.specWrite pa va bs).thr s.cur = (s.specWrite pa va bs).th := by rw [State.th, k.cur]
  have hs : s.thr s.cur = s.th := rfl
  have hout : ¬ (pa ≤ a ∧ a < pa + bs.length) := by omega
  simp only [State.ownByte, hth, hs, chunkByte, k.post, k.older, k.flights, specWrite_writes, tabFind_layWrite, hout, if_false]

/-- Settles O5. `Tests.witness_plain` meets the premises. -/
theorem plainAccessByAddress : Obligations.PlainAccessByAddress := by
  refine ⟨⟨?_, ?_, ?_, ?_, ?_⟩, fun s pa va bs => ⟨(SameSight.specWrite s pa va bs).mem, fun i hi hp =>
    ownByte_specWrite_covered s pa va bs hi hp, fun a ha => ownByte_specWrite_outside s pa va bs ha⟩⟩
  · intro s va n hb hva hr hal hf hl hp hg ht hc hpr
    simp only [loadVa, translateTh_bare .load hb hva hr hf, hal, ne_eq, not_true, if_false, readPlain, readStop_none hl hp hg ht,
      hc, hpr, Bool.false_eq_true, if_true]
  · intro s va b bs hb hva hr hal he hf hm hg hc
    have hbars := optBars_of_not_inEvent he va (b :: bs).length
    simp only [storeVa, storeAt, translateTh_bare .store hb hva hr hf, hal, ne_eq, not_true, if_false, hbars, Bool.false_eq_true,
      storeTo, he, writePlain, plainStop, hm, hg, hc, ite_self, Bool.and_false]
  · intro base off h
    unfold pointerAddr
    split
    · rfl
    · next hok =>
      rw [Bool.not_eq_true, Bool.not_eq_false'] at hok
      rw [hok] at h
      refine if_neg ?_
      rcases h with h | h | h
      · cases h
      · omega
      · omega
  · exact fun s va n w h => if_pos h
  · intro s va bs h he
    simp only [storeVa, optBars_of_not_inEvent he, Bool.false_eq_true, if_false, h, ne_eq, not_false_eq_true, if_true]

/-! ## LR, SC and AMO -/

/-- On a ready thread a stop that is no trap and leaves no state of its own is carried out. -/
theorem run_stop {p : Bool} {regs : List RegName} {body : Body} {s : State} {e : Stop} (h : Ready s) (hb : body s = .error e)
    (hl : ∀ t, e ≠ .leave t) (ht : e.traps = false) : runInstr p none regs body s = .next (applyStop s e) := by
  have hp : (if p then s.park else some s) = some s := by cases p <;> simp [park_calm h]
  have hq : firstPending s regs = none := by simp [firstPending, h.marks]
  have hr : (if e.afterPending then firstPending s (loopReads s) else none) = none := by
    rw [loopReads_off h.loop0 h.loop1]
    exact ite_self _
  have hstop : stopAt s s e = applyStop s e := by
    unfold stopAt
    rw [hr]
    cases e with
    | leave t => exact absurd rfl (hl t)
    | _ => simp only [ht, Bool.false_eq_true, if_false]
  simp only [runInstr, h.live, if_true, attempt, hp, hq, badReg_sound h.sound, hb, hstop]

/-- On a ready thread a cut before the instruction is made at once: no older chunk stands in the way (R32). -/
theorem run_cutBefore {p : Bool} {regs : List RegName} {body : Body} {s : State} {code : Nat} {w : Why} (h : Ready s)
    (hb : body s = .error (.cut code w)) :
    runInstr p none regs body s = .next ((s.cutChunk s.cur code).stall w) := by
  rw [run_stop h hb (fun t e => by cases e) rfl, applyStop, if_neg (by simp [h.older])]

/-- Once an address is translated, an LR in an event needs LPPRIV of its page (R264). -/
theorem lr_settled (s t u : State) (dbl aq rl lp : Bool) (rd a : Reg) (va pa : Nat) (bs : List Byte) (h : Calm s)
    (hp : pointerAddr (s.x a) 0 = .ok va) (hb : s.optBars va (atomSize dbl) = false) (hal : va % atomSize dbl = 0)
    (ht : translateTh s .load va = .ok (t, pa, lp)) :
    (t.inEvent = true → lp = false → Traps (.lr dbl aq rl rd a) s 49 (BitVec.ofNat 64 va)) ∧
    ((t.inEvent = true → lp = true) → readPlain t pa (atomSize dbl) va true = .ok (u, bs) →
      (u.th.chunk.relaxedMeets pa (atomSize dbl) = false →
        Does (.lr dbl aq rl rd a) s (((u.enterWrite pa va).modChunk fun c => { c with lrs := addNew pa c.lrs }).setX rd
          (signExt (8 * atomSize dbl) (leNat bs)))) ∧
      (u.th.chunk.relaxedMeets pa (atomSize dbl) = true →
        exec (.lr dbl aq rl rd a) s = .next ((s.cutChunk s.cur 22).stall .olderCommit))) := by
  refine ⟨fun he hlp => run_trap h.toReady ?_, fun he hr => ?_⟩
  · simp only [hp, hb, hal, ht, he, hlp, bind, Except.bind, ne_eq, not_true, Bool.false_eq_true, if_false, Bool.not_false,
      Bool.and_self, if_true]
  · have hev : (t.inEvent && !lp) = false := by cases hi : t.inEvent <;> simp [he, hi]
    have k := (Local.translateTh ht).trans (Local.readPlain hr)
    refine ⟨fun hm => ?_, fun hm => run_cutBefore h.toReady ?_⟩
    · have kl : Local 0 0 (u.enterWrite pa va) ((u.enterWrite pa va).modChunk fun c => { c with lrs := addNew pa c.lrs }) :=
        .modChunk rfl (Nat.le_refl _) (Nat.le_refl _) (Nat.le_refl _)
      refine run_calm (a := .seq) h ?_ ((k.trans (.enterWrite u pa va)).trans (kl.trans (.setX _ rd _))) (by decide) (by decide)
        ⟨nofun, nofun⟩
      simp only [hp, hb, hal, ht, hev, hr, plainStop, hm, bind, Except.bind, ne_eq, not_true, Bool.false_eq_true, if_false]
    · have hw : u.th.regs.inRewrite = false := k.inRewrite.trans h.noRewrite
      simp only [hp, hb, hal, ht, hev, hr, plainStop, hm, hw, bind, Except.bind, ne_eq, not_true, Bool.false_eq_true, if_false,
        if_true]

/-- Settles O6. `Tests.witness_lr`, `Tests.witness_sc` and `Tests.witness_amo` meet the premises. -/
theorem lrScAmo : Obligations.LrScAmo := by
  refine ⟨?_, ?_, ?_⟩
  · intro s t u dbl aq rl lp rd a va pa bs h hp
    refine ⟨fun hb => run_trap h.toReady ?_, fun hb hal ht => lr_settled s t u dbl aq rl lp rd a va pa bs h hp hb hal ht⟩
    simp only [hp, hb, bind, Except.bind, if_true]
  · intro s t u dbl aq rl lp rd a b va pa h hp hal ht
    have kt := Local.translateTh ht
    refine ⟨fun hc hb hs => run_stores h ?_ ?_, fun hc => run_stores h ?_ ⟨_, _, kt.trans (.setX t rd 1)⟩⟩
    · simp only [hp, hal, ht, hc, hb, hs, bind, Except.bind, ne_eq, not_true, Bool.false_eq_true, if_false, if_true]
    · obtain ⟨m, ks⟩ := Lines.storeTo hs
      exact ⟨_, _, kt.trans (ks.trans ((Local.enterRead u pa _ va).trans (.setX _ rd 0)))⟩
    · simp only [hp, hal, ht, hc, bind, Except.bind, ne_eq, not_true, Bool.false_eq_true, if_false]
  · intro s t u v f aq rl lp rd a b va pa bs h hp
    have hlocal : ∀ {n w : Nat} {bs' : List Byte}, translateTh s .store va = .ok (t, pa, lp) →
        readPlain t pa n va true = .ok (u, bs) → storeTo u va pa lp bs' = .ok v →
        ∃ n m, Local n m s (v.setX rd (signExt w (leNat bs))) := by
      intro n w bs' ht hr hs
      obtain ⟨m, ks⟩ := Lines.storeTo hs
      exact ⟨_, _, (Local.translateTh ht).trans ((Local.readPlain hr).trans (ks.trans (.setX v rd _)))⟩
    refine ⟨fun dbl hb => run_trap h ?_, fun dbl hb hal ht hr he hlp => run_trap h ?_, fun hb hal ht hr hs => ?_,
      fun hb hal ht hr hs => ?_⟩
    · simp only [hp, hb, bind, Except.bind, if_true]
    · simp only [hp, hb, hal, ht, hr, storeTo, he, hlp, bind, Except.bind, ne_eq, not_true, Bool.false_eq_true, if_false, if_true,
        Bool.not_false]
    · refine run_stores h ?_ (hlocal ht hr hs)
      simp only [hp, atomSize, hb, hal, ht, hr, hs, bind, Except.bind, ne_eq, not_true, Bool.false_eq_true, if_false, if_true]
    · refine run_stores h ?_ (hlocal ht hr hs)
      simp only [hp, atomSize, hb, hal, ht, hr, hs, lo32, bind, Except.bind, ne_eq, not_true, Bool.false_eq_true, if_false]

end Sys2Proof.Machine
end

section
/-!
PROOFS. Fences; the system calls, taking a trap and SRET; LOOP, LCLR and the loop rule (05_scalar R79, R81 to R84, R103,
23_faults R326 to R331).
-/
namespace Sys2Proof.Machine

/-! ## Fences -/

theorem Local.noteFenced {s : State} (e : State) (h : Local 0 0 s e) : Local 0 0 s (e.modChunk fun c => { c with fenced := true }) :=
  h.trans (.modChunk (n := 0) (m := 0) rfl (Nat.le_refl _) (Nat.le_refl _) (Nat.le_refl _))

theorem fence_does {p : Bool} {regs : List RegName} {body : Body} {s : State} {w : Word} (h : Calm s)
    (hb : body s = .ok (s.postCommit (.fence w), .seq)) :
    runInstr p none regs body s = .next (completed (s.postCommit (.fence w)) (s.pc + 4) .ready) :=
  run_calm (a := .seq) h hb (.postCommit s _) (by decide) (by decide) ⟨nofun, nofun⟩

/-- The state that FENCE.I's effect leaves (R103). -/
def fencedCode (s : State) : State :=
  ((s.modCore s.th.core fun c => { c with l1i := [], flips := c.flips.filter fun f => f.array != 1 }).modRegs fun r =>
    { r with codeFrom := s.th.codeSeen.length, codeOwn := [] }).modChunk fun c => { c with fenced := true }

theorem fenceI_does {s : State} (h : Calm s) (imm : BitVec 12) (rd rs1 : Reg) : Does (.fenceI imm rd rs1) s (fencedCode s) := by
  refine run_calm (a := .seq) h rfl (.noteFenced _ ?_) (by decide) (by decide) ⟨nofun, nofun⟩
  exact (Local.modCore s s.th.core _).trans (.modRegs rfl rfl)

/-- After FENCE.I a fetch of the thread meets no value of before it (R103). -/
theorem codeWords_fencedCode (s : State) (n : Word) (st : Status) (pa : Nat) :
    codeWords (completed (fencedCode s) n st) pa =
      [codeView (completed (fencedCode s) n st) (completed (fencedCode s) n st).cur pa] := by
  have hseen : (completed (fencedCode s) n st).th.codeSeen = s.th.codeSeen := by
    rw [completed_eq, State.th_setThr_cur, fencedCode]
    simp only [State.modChunk_eq, State.modRegs_eq, State.th_setThr_cur, State.th_modCore]
  have hfrom : (completed (fencedCode s) n st).th.regs.codeFrom = s.th.codeSeen.length := by
    rw [completed_regs, fencedCode]
    simp only [State.modChunk_eq, State.modRegs_eq, State.th_setThr_cur]
  have hown : (completed (fencedCode s) n st).th.regs.codeOwn = [] := by
    rw [completed_regs, fencedCode]
    simp only [State.modChunk_eq, State.modRegs_eq, State.th_setThr_cur]
  simp only [codeWords, hseen, hfrom, hown, Nat.sub_self, List.take_zero, List.append_nil, List.filter_nil, List.map_nil]
  rfl

/-- Settles O7. `Tests.base` meets the premise, `Tests.witness_fence_s` those on scopes. -/
theorem fences : Obligations.Fences := by
  intro s h
  refine ⟨fun _ _ _ _ _ => fence_does h rfl, fun _ _ => fence_does h rfl, fenceI_does h, fun imm rd rs1 u pa hu => ?_,
    fun p a hs => fence_does h ?_, fun p a hs => run_trap h.toReady ?_⟩
  · obtain rfl : completed (fencedCode s) (s.pc + 4) .ready = u :=
      Host.Outcome.next.inj ((fenceI_does h imm rd rs1).symm.trans hu)
    exact codeWords_fencedCode ..
  · obtain ⟨f, hf⟩ := Option.isSome_iff_exists.1 hs
    simp only [needScope, hf, bind, Except.bind]
  · simp only [needScope, hs, bind, Except.bind]

/-! ## Fields of a word -/

/-- The bits of a field that was put in are the value's, the others the word's. -/
theorem getLsbD_putBits (w : Word) (lsb n v : Nat) {k : Nat} (hk : k < 64) :
    (putBits w lsb n v).getLsbD k = if lsb ≤ k ∧ k < lsb + n then v.testBit (k - lsb) else w.getLsbD k := by
  have hmask : ((2 ^ n - 1) * 2 ^ lsb).testBit k = decide (lsb ≤ k ∧ k < lsb + n) := by
    rw [Nat.testBit_mul_two_pow, Nat.testBit_two_pow_sub_one, ← Bool.decide_and, decide_eq_decide]
    omega
  have hvalue : (v % 2 ^ n * 2 ^ lsb).testBit k = (decide (lsb ≤ k ∧ k < lsb + n) && v.testBit (k - lsb)) := by
    rw [Nat.testBit_mul_two_pow, Nat.testBit_mod_two_pow, ← Bool.and_assoc, ← Bool.decide_and]
    congr 1
    rw [decide_eq_decide]
    omega
  simp only [putBits, BitVec.getLsbD_or, BitVec.getLsbD_and, BitVec.getLsbD_not, BitVec.getLsbD_ofNat, hk, hmask, hvalue,
    decide_true, Bool.true_and]
  split <;> simp [*]

theorem getLsbD_putBits_bit (w : Word) (i : Nat) (b : Bool) {k : Nat} (hk : k < 64) :
    (putBits w i 1 (b2n b)).getLsbD k = if k = i then b else w.getLsbD k := by
  rw [getLsbD_putBits w i 1 _ hk]
  by_cases hi : k = i
  · subst hi
    cases b <;> simp [b2n]
  · rw [if_neg (by omega), if_neg hi]

theorem getLsbD_putBits_same (w : Word) (b : Bool) {i : Nat} (hi : i < 64) : (putBits w i 1 (b2n b)).getLsbD i = b := by
  rw [getLsbD_putBits_bit w i b hi, if_pos rfl]

theorem getLsbD_putBits_other (w : Word) (b : Bool) {i k : Nat} (hk : k < 64) (h : k ≠ i) :
    (putBits w i 1 (b2n b)).getLsbD k = w.getLsbD k := by
  rw [getLsbD_putBits_bit w i b hk, if_neg h]

theorem bits_one (w : Word) (i : Nat) : bits w i i = b2n (w.getLsbD i) := by
  rw [bits, Nat.add_sub_cancel_left, Nat.pow_one, ← BitVec.testBit_toNat, Nat.testBit, Nat.shiftRight_eq_div_pow]
  rcases Nat.mod_two_eq_zero_or_one (w.toNat / 2 ^ i) with h | h <;> simp [b2n, h, Nat.one_and_eq_mod_two]

/-- A bit that already has the value stays as it is. -/
theorem putBits_bit_same {w : Word} {i : Nat} {b : Bool} (h : w.getLsbD i = b) : putBits w i 1 (b2n b) = w := by
  refine BitVec.eq_of_getLsbD_eq fun k hk => ?_
  rw [getLsbD_putBits_bit w i b hk]
  split
  · next hi => rw [hi, h]
  · rfl

/-! ## Taking a trap (R28, R330) -/

/-- A trap of a thread with no result outstanding, outside a rewrite and with no older chunk that its cut would wait for. -/
theorem takeTrap_enters {s : State} {cause : Nat} {tval : Word} (h1 : s.th.results = []) (h2 : s.th.regs.inRewrite = false)
    (h3 : s.th.older = none ∨ s.th.chunk.count = 0) :
    (takeTrap s cause tval).th.regs = s.th.regs.enterTrap false cause tval s.th.regs.pc ∧ (takeTrap s cause tval).mem = s.mem := by
  have k := Kept.cutChunk s s.cur 13
  have hw : ¬ (s.th.chunk.count ≠ 0 ∧ s.th.older.isSome = true) := by
    rcases h3 with h | h <;> simp [h]
  have key : takeTrap s cause tval = enterHandler (s.cutChunk s.cur 13) s.cur false cause tval s.th.regs.pc := by
    simp only [takeTrap, h1, List.isEmpty_nil, Bool.not_true, Bool.false_eq_true, if_false, h2, hw, k.cur]
  have hr : ((s.cutChunk s.cur 13).thr s.cur).regs = s.th.regs := k.regs
  rw [key]
  refine ⟨?_, ?_⟩
  · simp [enterHandler, State.sealStart, State.th, k.cur, hr]
  · simp [enterHandler, State.sealStart, k.mem]

theorem scause_exception {cause : Nat} (h : cause < 2 ^ 63) : putBits (BitVec.ofNat 64 cause) 63 1 (b2n false) = BitVec.ofNat 64 cause := by
  refine putBits_bit_same ?_
  rw [BitVec.getLsbD_ofNat, Nat.testBit_lt_two_pow h, Bool.and_false]

/-- What the entry of a handler writes (R326, R330). -/
theorem enterTrap_fields (q : Regs) {cause : Nat} (tval epc : Word) (hc : cause < 2 ^ 63) :
    let r := q.enterTrap false cause tval epc
    r.csr.sepc = epc &&& ~~~(3 : Word) ∧ r.csr.scause = BitVec.ofNat 64 cause ∧ r.csr.stval = tval ∧
    r.pc = q.csr.stvec &&& ~~~(3 : Word) ∧ r.smode = true ∧ r.csr.sstatus.getLsbD 8 = q.smode ∧
    r.csr.sstatus.getLsbD 5 = q.csr.sstatus.getLsbD 1 ∧ r.csr.sstatus.getLsbD 1 = false ∧
    r.csr.loopC0.getLsbD 0 = false ∧ r.csr.loopC1.getLsbD 0 = false := by
  have hz : ∀ w : Word, putBits w 0 1 0 = putBits w 0 1 (b2n false) := fun _ => rfl
  have ho : ∀ w : Word, putBits w 1 1 0 = putBits w 1 1 (b2n false) := fun _ => rfl
  refine ⟨rfl, scause_exception hc, rfl, rfl, rfl, ?_, ?_, ?_, ?_, ?_⟩ <;>
    simp (disch := decide) only [Regs.enterTrap, hz, ho, getLsbD_putBits_same, getLsbD_putBits_other]

/-- Settles O8. `Tests.base` meets the first premise, `Tests.witness_entry` those of the second part. -/
theorem systemCallsEnterTheHandler : Obligations.SystemCallsEnterTheHandler := by
  have htrap : ∀ {s : State} {c : Nat} {v : Word}, Ready s → c < 2 ^ 63 →
      (takeTrap s c v).pc = s.th.regs.csr.stvec &&& ~~~(3 : Word) ∧ (takeTrap s c v).th.regs.smode = true ∧
      (takeTrap s c v).th.regs.csr.sepc = s.pc &&& ~~~(3 : Word) ∧ (takeTrap s c v).th.regs.csr.scause = BitVec.ofNat 64 c ∧
      (takeTrap s c v).th.regs.csr.stval = v ∧ (takeTrap s c v).mem = s.mem := by
    intro s c v h hc
    obtain ⟨hr, hm⟩ := takeTrap_enters (cause := c) (tval := v) h.results h.noRewrite (.inl h.older)
    obtain ⟨hepc, hcause, hval, hpc, hmode, -⟩ := enterTrap_fields s.th.regs v s.th.regs.pc hc
    exact ⟨by rw [State.pc, hr, hpc], by rw [hr, hmode], by rw [hr, hepc, State.pc], by rw [hr, hcause], by rw [hr, hval], hm⟩
  refine ⟨fun s h => ?_, fun s cause tval h1 h2 h3 hc => ?_⟩
  · have hcall : Traps .ecall s (if s.th.regs.smode then 9 else 8) 0 := run_trap h rfl
    have hbreak : Traps .ebreak s 3 s.pc := run_trap h rfl
    obtain ⟨c1, c2, c3, c4, c5, c6⟩ := htrap (c := if s.th.regs.smode then 9 else 8) (v := 0) h (by split <;> decide)
    obtain ⟨b1, b2, b3, b4, b5, b6⟩ := htrap (c := 3) (v := s.pc) h (by decide)
    refine ⟨hcall, hbreak, ⟨_, hcall, c1, c2, c3, ?_, c5, c6⟩, ⟨_, hbreak, b1, b2, b3, b4, b5, b6⟩⟩
    rw [c4]
    split <;> rfl
  · intro q r
    obtain ⟨hr, hm⟩ := takeTrap_enters (cause := cause) (tval := tval) h1 h2 h3
    obtain ⟨e1, e2, e3, e4, e5, e6, e7, e8, e9, e10⟩ := enterTrap_fields s.th.regs tval s.th.regs.pc hc
    have hr' : r = q.enterTrap false cause tval q.pc := hr
    rw [hr']
    exact ⟨e1, e2, e3, e4, e5, e6, e7, e8, rfl, rfl, rfl, rfl, e9, e10, rfl, rfl, fun _ => rfl, hm⟩

/-! ## Completion where the loop levels change -/

/-- What an instruction's own effect keeps that may change the loop levels and the chunk's length: only the current thread's
entry differs among the threads, and the chunk captures at most `n` bytes and gains at most `m` lines. -/
structure Room (n m : Nat) (s t : State) : Prop where
  threads : ∀ th, tabSet t.threads s.cur th = tabSet s.threads s.cur th
  cur : t.cur = s.cur
  core : t.th.core = s.th.core
  older : t.th.older = s.th.older
  inRewrite : t.th.regs.inRewrite = s.th.regs.inRewrite
  count : t.th.chunk.count = s.th.chunk.count
  undo : t.th.chunk.undoBytes ≤ s.th.chunk.undoBytes + n
  lines : t.th.chunk.wlines.length ≤ s.th.chunk.wlines.length + m
  ovf : t.th.chunk.ovf.length ≤ s.th.chunk.ovf.length + m

theorem Local.room {n m : Nat} {s t : State} (h : Local n m s t) : Room n m s t :=
  ⟨h.threads, h.cur, h.core, h.older, h.inRewrite, h.count, h.undo, h.lines, h.ovf⟩

theorem Room.trans {n m n' m' : Nat} {s t u : State} (h : Room n m s t) (k : Room n' m' t u) : Room (n + n') (m + m') s u where
  threads th := by rw [← h.threads, ← h.cur]; exact k.threads th
  cur := k.cur.trans h.cur
  core := k.core.trans h.core
  older := k.older.trans h.older
  inRewrite := k.inRewrite.trans h.inRewrite
  count := k.count.trans h.count
  undo := by have := h.undo; have := k.undo; omega
  lines := by have := h.lines; have := k.lines; omega
  ovf := by have := h.ovf; have := k.ovf; omega

/-- Register writes that leave the rewrite alone. -/
theorem Room.modRegs {s : State} {f : Regs → Regs} (hr : (f s.th.regs).inRewrite = s.th.regs.inRewrite) :
    Room 0 0 s (s.modRegs f) := by
  rw [State.modRegs_eq]
  constructor <;> simp [State.setThr_threads, tabSet_tabSet, hr]

theorem Room.setCsr (s : State) (n : BitVec 12) (f : Csrs → Csrs) : Room 32 0 s (s.setCsr n f) :=
  Room.trans (n' := 0) (m' := 0) (Local.capture s (.csr n)).room (Room.modRegs (f := fun r => { r with csr := f r.csr }) rfl)

theorem fits_congr {s t : State} (ht : s.threads = t.threads) (hc : s.cur = t.cur) : Fits s ↔ Fits t := by
  simp only [Fits, State.undoFits, State.linesFit, State.undoInUse, State.specLines, State.overflowLines, State.coreChunks,
    State.th, State.thr, ht, hc]
  exact Iff.rfl

/-- Where a core has room for one instruction, the capacities hold after it. -/
theorem fits_of {s u : State} {w : Word} {st : Status} (h : Calm s) (hthreads : ∀ th, tabSet u.threads s.cur th = tabSet s.threads s.cur th)
    (hcur : u.cur = s.cur) (hcore : u.th.core = s.th.core) (holder : u.th.older = s.th.older)
    (hundo : u.th.chunk.undoBytes ≤ s.th.chunk.undoBytes + 8192) (hlines : u.th.chunk.wlines.length ≤ s.th.chunk.wlines.length + 16)
    (hovf : u.th.chunk.ovf.length ≤ s.th.chunk.ovf.length + 16) : Fits (completed u w st) := by
  have hth : (completed u w st).threads = (s.setThr s.cur (completed u w st).th).threads := by
    rw [completed_eq, State.th_setThr_cur, State.setThr_threads, State.setThr_threads, hcur, hthreads]
  have hfields : (completed u w st).th.core = s.th.core ∧ (completed u w st).th.older = none ∧
      (completed u w st).th.chunk.undoBytes = u.th.chunk.undoBytes ∧ (completed u w st).th.chunk.wlines = u.th.chunk.wlines ∧
      (completed u w st).th.chunk.ovf = u.th.chunk.ovf := by
    rw [completed_eq, State.th_setThr_cur]
    exact ⟨hcore, holder.trans h.older, rfl, rfl, rfl⟩
  obtain ⟨hc, ho, hu, hl, hv⟩ := hfields
  have := h.undoRoom
  have := h.lineRoom
  have := h.ovfRoom
  rw [fits_congr hth (show (completed u w st).cur = _ from hcur)]
  refine ⟨undoFits_setThr ho ?_ (by omega), linesFit_setThr ho ?_ (by rw [hl]; omega) (by rw [hv]; omega)⟩
  · rw [State.th_setThr_cur, hc]
  · rw [State.th_setThr_cur, hc]

theorem fits_room {s t : State} {n m : Nat} {w : Word} {st : Status} (h : Calm s) (k : Room n m s t) (hn : n ≤ 8192) (hm : m ≤ 16) :
    Fits (completed t w st) :=
  fits_of h k.threads k.cur k.core k.older (Nat.le_trans k.undo (Nat.add_le_add_left hn _)) (Nat.le_trans k.lines (Nat.add_le_add_left hm _))
    (Nat.le_trans k.ovf (Nat.add_le_add_left hm _))

/-- A thread instruction on a calm thread completes with its body's effect where the loop rule leaves that alone and the chunk
is not at its end. -/
theorem run_room {p : Bool} {regs : List RegName} {body : Body} {s t : State} {n m : Nat} {a : After} {q : Word} (h : Calm s)
    (hb : body s = .ok (t, a)) (k : Room n m s t) (hn : n ≤ 8192) (hm : m ≤ 16) (hr : loopRule t s.pc a = (t, q))
    (hk : t.th.chunk.count + 1 < t.th.regs.csr.chunkCur) (ha : (∀ n w, a ≠ .cut n w) ∧ ∀ n, a ≠ .pause n) :
    runInstr p none regs body s = .next (completed t q .ready) := by
  have hp : (if p then s.park else some s) = some s := by cases p <;> simp [park_calm h.toReady]
  have hpend : ∀ l, firstPending s l = none := by simp [firstPending, h.marks]
  have hret : retire t s.pc a = completed t q .ready := by
    cases a with
    | cut n w => exact absurd rfl (ha.1 n w)
    | pause n => exact absurd rfl (ha.2 n)
    | _ => simp [retire, hr, completed, endWait]
  have hend : endCode (completed t q .ready) a = 0 := by
    have : ¬ (t.th.regs.csr.chunkCur ≤ t.th.chunk.count + 1) := by omega
    cases a with
    | cut n w => exact absurd rfl (ha.1 n w)
    | _ => simp [endCode, completed_eq, this]
  have hi : (completed t q .ready).th.regs.inRewrite = false := by rw [completed_regs]; exact k.inRewrite.trans h.noRewrite
  obtain ⟨hu, hl⟩ := fits_room (w := q) (st := .ready) h k hn hm
  have hfin : finishFrom s s t a = completed t q .ready := by
    unfold finishFrom
    simp only [hpend, hret, hend, hi, hu, hl]
    rfl
  simp only [runInstr, h.live, if_true, attempt, hp, hpend, badReg_sound h.sound, hb, hfin]

/-! ## SRET (R331) -/

/-- The state that SRET's effect leaves. -/
def returned (s : State) : State :=
  ((((s.capture (.csr 0x100)).capture .marks).capture (.csr 0x80C)).capture (.csr 0x80E)).modRegs Regs.leaveTrap

theorem returned_regs (s : State) : (returned s).th.regs = s.th.regs.leaveTrap := by
  rw [returned, State.modRegs_regs, State.capture_regs, State.capture_regs, State.capture_regs, State.capture_regs]

theorem returned_mem (s : State) : (returned s).mem = s.mem := rfl

theorem returned_x (s : State) (n : Reg) : (returned s).x n = s.x n := by
  rw [State.x, returned_regs]
  rfl

theorem room_returned (s : State) : Room 128 0 s (returned s) :=
  ((((Local.capture s (.csr 0x100)).trans (.capture _ .marks)).trans (.capture _ (.csr 0x80C))).trans
    (.capture _ (.csr 0x80E))).room.trans (n' := 0) (m' := 0) (.modRegs rfl)

theorem sret_does {s : State} (h : Calm s) (hm : s.th.regs.smode = true) : DoesTo .sret s (returned s) s.th.regs.csr.sepc := by
  have hpc : (returned s).pc = s.th.regs.csr.sepc := by rw [State.pc, returned_regs]; rfl
  have hneeds : needS .sret s = none := if_pos hm
  show runInstr false (needS .sret s) [] _ s = _
  rw [hneeds]
  refine run_room (a := .noLoop (returned s).pc) h rfl (room_returned s) (by decide) (by decide) (by rw [hpc]; rfl) ?_
    ⟨nofun, nofun⟩
  rw [returned_regs, (room_returned s).count]
  exact h.short

/-- What SRET restores (R331). -/
theorem leaveTrap_fields (q : Regs) :
    (q.leaveTrap).csr.sstatus.getLsbD 1 = q.csr.sstatus.getLsbD 5 ∧ (q.leaveTrap).csr.sstatus.getLsbD 5 = true ∧
    (q.leaveTrap).csr.sstatus.getLsbD 8 = false ∧ (q.leaveTrap).csr.loopC0.getLsbD 0 = q.saved.act0 ∧
    (q.leaveTrap).csr.loopC1.getLsbD 0 = q.saved.act1 := by
  have hset : ∀ w : Word, putBits w 5 1 1 = putBits w 5 1 (b2n true) := fun _ => rfl
  have hclear : ∀ w : Word, putBits w 8 1 0 = putBits w 8 1 (b2n false) := fun _ => rfl
  refine ⟨?_, ?_, ?_, ?_, ?_⟩ <;>
    simp (disch := decide) only [Regs.leaveTrap, bits_one, hset, hclear, getLsbD_putBits_same, getLsbD_putBits_other]

/-- Settles O9. `Tests.witness_modes` meets the premises. -/
theorem sretRestores : Obligations.SretRestores := by
  intro s h
  refine ⟨fun hu => ?_, fun hm => ⟨_, sret_does h hm, ?_⟩⟩
  · exact runInstr_illegal (i := .sret) h.live (if_neg (ne_true_of_eq_false hu)) ..
  · obtain ⟨h1, h5, h8, hc0, hc1⟩ := leaveTrap_fields s.th.regs
    refine ⟨completed_pc .., ?_⟩
    rw [completed_regs, returned_regs]
    exact ⟨rfl, h1, h5, h8, rfl, hc0, hc1, rfl, fun n => by rw [completed_x, returned_x],
      by rw [completed_mem, returned_mem]⟩

/-! ## Hardware loops (R81 to R84) -/

theorem loopClear_inactive {s : State} (h : Ready s) (l : Nat) : Local 32 0 s (s.loopClear l) := by
  unfold State.loopClear
  split
  · exact .setCsr (putBits_bit_same (b := false) h.loop0) rfl rfl
  · exact .setCsr rfl (putBits_bit_same (b := false) h.loop1) rfl

/-- What LOOP writes to the CSRs of a level. -/
def setLevel (s : State) (l : BitVec 1) (st c : Word) : State :=
  if l = 0 then (s.setCsr 0x80B fun q => { q with loopS0 := st }).setCsr 0x80C fun q => { q with loopC0 := c }
  else (s.setCsr 0x80D fun q => { q with loopS1 := st }).setCsr 0x80E fun q => { q with loopC1 := c }

theorem setLevel_regs (s : State) (l : BitVec 1) (st c : Word) : (setLevel s l st c).th.regs = { s.th.regs with csr :=
    if l = 0 then { s.th.regs.csr with loopS0 := st, loopC0 := c } else { s.th.regs.csr with loopS1 := st, loopC1 := c } } := by
  unfold setLevel
  split <;> rw [State.setCsr_regs, State.setCsr_regs]

theorem State.setCsr_mem (s : State) (n : BitVec 12) (f : Csrs → Csrs) : (s.setCsr n f).mem = s.mem := (Frame.setCsr s n f).1

theorem setLevel_mem (s : State) (l : BitVec 1) (st c : Word) : (setLevel s l st c).mem = s.mem := by
  unfold setLevel
  split <;> rw [State.setCsr_mem, State.setCsr_mem]

theorem room_setLevel (s : State) (l : BitVec 1) (st c : Word) : Room 64 0 s (setLevel s l st c) := by
  unfold setLevel
  split <;> exact (Room.setCsr ..).trans (.setCsr ..)

/-- The count word that LOOP writes: ACTIVE, LENGTH and the count register (R81). -/
def loopCount (len : BitVec 11) (a : Reg) : Word := BitVec.ofNat 64 (len.toNat * 64 + a.toNat * 2 + 1)

theorem loopCount_fields (len : BitVec 11) (a : Reg) : (loopCount len a).getLsbD 0 = true ∧
    bits (loopCount len a) 16 6 = len.toNat ∧ bits (loopCount len a) 5 1 = a.toNat := by
  have hl := len.isLt
  have ha := a.isLt
  have hn : (loopCount len a).toNat = len.toNat * 64 + a.toNat * 2 + 1 := by
    rw [loopCount, BitVec.toNat_ofNat, Nat.mod_eq_of_lt (by omega)]
  refine ⟨?_, ?_, ?_⟩
  · rw [← BitVec.testBit_toNat, hn, Nat.testBit_zero, decide_eq_true_eq]
    omega
  · rw [bits, hn]
    omega
  · rw [bits, hn]
    omega

/-- LOOP itself is no last instruction of the body that it sets up. -/
theorem pc_ne_last (pc : Word) {n : Nat} (h1 : 1 ≤ n) (h2 : n < 2048) :
    pc ≠ BitVec.ofNat 64 (bits (pc + 4) 55 2 * 4) + BitVec.ofNat 64 (4 * (n - 1)) := by
  intro h
  have := congrArg BitVec.toNat h
  have h4 : (4 : Word).toNat = 4 := rfl
  simp only [bits, BitVec.toNat_add, BitVec.toNat_ofNat, h4] at this
  have := pc.isLt
  omega

/-- A level that is inactive or does not end here is left alone. -/
theorem loopTest_idle {s : State} {l : Nat} {q : Word}
    (h : (loopLevel s.th.regs.csr l).1 = true → q ≠ (loopLevel s.th.regs.csr l).2.2.1) : loopTest s l q = (s, none) := by
  unfold loopTest
  refine if_neg fun hc => ?_
  rw [Bool.and_eq_true, beq_iff_eq] at hc
  exact h hc.1 hc.2

theorem loopTest_back {s : State} {l : Nat} {q first last : Word} {r : Reg}
    (h : loopLevel s.th.regs.csr l = (true, first, last, r)) (hq : q = last) (hx : s.x r ≠ 0) :
    loopTest s l q = (s.setX r (s.x r - 1), some first) := by
  simp only [loopTest, h, hq, beq_self_eq_true, Bool.and_self, if_true, bne_iff_ne, ne_eq, hx, not_false_eq_true]

theorem loopTest_done {s : State} {l : Nat} {q first last : Word} {r : Reg}
    (h : loopLevel s.th.regs.csr l = (true, first, last, r)) (hq : q = last) (hx : s.x r = 0) :
    loopTest s l q = (s.loopClear l, none) := by
  simp only [loopTest, h, hq, beq_self_eq_true, Bool.and_self, if_true, hx, bne_self_eq_false, Bool.false_eq_true, if_false]

/-- The loop rule after a plain instruction, from what the two tests answer. -/
theorem loopRule_seq_back1 {s t : State} {q f : Word} (h : loopTest s 1 q = (t, some f)) : loopRule s q .seq = (t, f) := by
  simp only [loopRule, h]

theorem loopRule_seq_back0 {s t u : State} {q f : Word} (h1 : loopTest s 1 q = (t, none)) (h0 : loopTest t 0 q = (u, some f)) :
    loopRule s q .seq = (u, f) := by
  simp only [loopRule, h1, h0]

theorem loopRule_seq_on {s t u : State} {q : Word} (h1 : loopTest s 1 q = (t, none)) (h0 : loopTest t 0 q = (u, none)) :
    loopRule s q .seq = (u, q + 4) := by
  simp only [loopRule, h1, h0]

theorem loopLeave_out {s : State} {l : Nat} {n : Word} (h : (loopLevel s.th.regs.csr l).1 = true ∧
    (n < (loopLevel s.th.regs.csr l).2.1 ∨ (loopLevel s.th.regs.csr l).2.2.1 < n)) : loopLeave s l n = s.loopClear l := by
  unfold loopLeave
  refine if_pos ?_
  rw [Bool.and_eq_true, Bool.or_eq_true, decide_eq_true_eq, decide_eq_true_eq]
  exact h

theorem loopLeave_in {s : State} {l : Nat} {n : Word} (h : ¬ ((loopLevel s.th.regs.csr l).1 = true ∧
    (n < (loopLevel s.th.regs.csr l).2.1 ∨ (loopLevel s.th.regs.csr l).2.2.1 < n))) : loopLeave s l n = s := by
  unfold loopLeave
  refine if_neg fun hc => h ?_
  rw [Bool.and_eq_true, Bool.or_eq_true, decide_eq_true_eq, decide_eq_true_eq] at hc
  exact hc

theorem loopClear_regs (s : State) (l : Nat) : (s.loopClear l).th.regs = { s.th.regs with csr :=
    if l = 0 then { s.th.regs.csr with loopC0 := putBits s.th.regs.csr.loopC0 0 1 0 }
    else { s.th.regs.csr with loopC1 := putBits s.th.regs.csr.loopC1 0 1 0 } } := by
  unfold State.loopClear
  split <;> rw [State.setCsr_regs]

/-- Clearing level 1 leaves level 0 and the count registers. -/
theorem loopLevel_clear_other (s : State) : loopLevel (s.loopClear 1).th.regs.csr 0 = loopLevel s.th.regs.csr 0 := by
  rw [loopClear_regs]
  rfl

theorem loopClear_x (s : State) (l : Nat) (r : Reg) : (s.loopClear l).x r = s.x r := by
  rw [State.x, loopClear_regs]
  rfl

/-- Where the level is active and the rest of it is given, the level is the tuple that the loop rule reads. -/
theorem ne_of_inactive {c : Csrs} {l : Nat} {q : Word} (h : (loopLevel c l).1 = false) :
    (loopLevel c l).1 = true → q ≠ (loopLevel c l).2.2.1 := fun ht => absurd ht (ne_true_of_eq_false h)

theorem loop_nonzero {s : State} (h : Calm s) (p : Bool) (l : BitVec 1) (a : Reg) {len : BitVec 11} (hlen : 1 ≤ len.toNat)
    (hx : s.x a ≠ 0) : DoesTo (.loop p l a len) s
      (setLevel (s.setX a (s.x a - 1)) l (BitVec.ofNat 64 (bits (s.pc + 4) 55 2 * 4)) (loopCount len a)) (s.pc + 4) := by
  obtain ⟨-, hlenBits, -⟩ := loopCount_fields len a
  have hpc := pc_ne_last s.pc hlen len.isLt
  have k := (Local.setX s a (s.x a - 1)).room.trans (room_setLevel (s.setX a (s.x a - 1)) l
    (BitVec.ofNat 64 (bits (s.pc + 4) 55 2 * 4)) (loopCount len a))
  have hcsr : (s.setX a (s.x a - 1)).th.regs.csr = s.th.regs.csr := by rw [State.setX_regs, (putX_keeps ..).2.1]
  have hregs := congrArg Regs.csr (setLevel_regs (s.setX a (s.x a - 1)) l (BitVec.ofNat 64 (bits (s.pc + 4) 55 2 * 4)) (loopCount len a))
  rw [hcsr] at hregs
  refine run_room (a := .goto (s.pc + 4)) h (by simp only [if_neg hx]; rfl) k (by decide) (by decide) ?_ ?_ ⟨nofun, nofun⟩
  · have htest : ∀ k, k < 2 → loopTest (setLevel (s.setX a (s.x a - 1)) l (BitVec.ofNat 64 (bits (s.pc + 4) 55 2 * 4))
        (loopCount len a)) k s.pc = (setLevel (s.setX a (s.x a - 1)) l (BitVec.ofNat 64 (bits (s.pc + 4) 55 2 * 4)) (loopCount len a), none) := by
      intro k hk
      refine loopTest_idle fun hact => ?_
      rw [hregs] at hact ⊢
      obtain rfl | rfl : k = 0 ∨ k = 1 := by omega
      · by_cases hl : l = 0
        · simp only [loopLevel, hl, if_true, hlenBits]
          exact hpc
        · simp only [loopLevel, hl, if_true, if_false, h.loop0, Bool.false_eq_true] at hact
      · by_cases hl : l = 0
        · simp only [loopLevel, hl, Nat.one_ne_zero, if_true, if_false, h.loop1, Bool.false_eq_true] at hact
        · simp only [loopLevel, hl, Nat.one_ne_zero, if_false, hlenBits]
          exact hpc
    simp only [loopRule, htest 1 (by decide), htest 0 (by decide)]
  · have hcur : (if l = 0 then ({ s.th.regs.csr with loopS0 := BitVec.ofNat 64 (bits (s.pc + 4) 55 2 * 4), loopC0 := loopCount len a } : Csrs)
        else { s.th.regs.csr with loopS1 := BitVec.ofNat 64 (bits (s.pc + 4) 55 2 * 4), loopC1 := loopCount len a }).chunkCur =
        s.th.regs.csr.chunkCur := by split <;> rfl
    rw [hregs, hcur, k.count]
    exact h.short

/-- Settles O12. `Tests.witness_loop` meets the premises. -/
theorem loopInstruction : Obligations.LoopInstruction := by
  intro s p l a len h hlen
  refine ⟨fun hx => ?_, fun hx => ⟨_, loop_nonzero h p l a hlen hx, ?_⟩⟩
  · exact run_calm (a := .goto _) h (by simp only [hx, if_true]) (loopClear_inactive h.toReady l.toNat) (by decide) (by decide)
      ⟨nofun, nofun⟩
  · obtain ⟨hact, hlenBits, hreg⟩ := loopCount_fields len a
    have ha : a ≠ 0 := fun e => hx (by rw [e]; rfl)
    have hxs : ∀ r, (setLevel (s.setX a (s.x a - 1)) l (BitVec.ofNat 64 (bits (s.pc + 4) 55 2 * 4)) (loopCount len a)).x r =
        (s.setX a (s.x a - 1)).x r := fun r => by rw [State.x, setLevel_regs]; rfl
    have hcsr : (s.setX a (s.x a - 1)).th.regs.csr = s.th.regs.csr := by rw [State.setX_regs, (putX_keeps ..).2.1]
    refine ⟨completed_pc .., ?_, fun r hr => ?_, ?_, fun hl => ?_, fun hl => ?_⟩
    · rw [completed_x, hxs, State.x_setX_same, if_neg ha]
    · rw [completed_x, hxs, State.x_setX_other _ _ hr]
    · rw [completed_mem, setLevel_mem, State.setX_mem]
    · simp only [completed_regs, setLevel_regs, hcsr, hl, if_true, loopLevel]
      exact ⟨hact, trivial, hlenBits, hreg, trivial⟩
    · subst hl
      simp only [completed_regs, setLevel_regs, hcsr, show ¬ (1 : BitVec 1) = 0 by decide, if_false, loopLevel, Nat.one_ne_zero]
      exact ⟨hact, trivial, hlenBits, hreg, trivial⟩

/-- Settles O13. `Tests.witness_loop_rule` and `Tests.witness_loop_levels` meet the premises. -/
theorem loopRuleHolds : Obligations.LoopRule := by
  have hlive : ∀ {c : Csrs} {l : Nat} {v : Bool × Word × Word × Reg}, loopLevel c l = v → (loopLevel c l).1 = v.1 :=
    fun h => by rw [h]
  refine ⟨fun s p l h => ?_, fun s q first last r h1 hq hx => loopRule_seq_back1 (loopTest_back h1 hq hx), ?_, ?_, ?_, ?_, ?_, ?_, ?_, ?_⟩
  · exact run_calm (a := .seq) h rfl (loopClear_inactive h.toReady l.toNat) (by decide) (by decide) ⟨nofun, nofun⟩
  · intro s q first last r h1 hq hx h0
    refine loopRule_seq_on (loopTest_done h1 hq hx) (loopTest_idle ?_)
    rw [loopLevel_clear_other]
    exact ne_of_inactive h0
  · exact fun s q first last r h1 h0 hq hx => loopRule_seq_back0 (loopTest_idle (ne_of_inactive h1)) (loopTest_back h0 hq hx)
  · intro s q n first last r h1 h0 hn
    have hin : loopLeave s 1 n = s := loopLeave_in fun h => by rw [h1] at h; cases h.1
    have hout : loopLeave s 0 n = s.loopClear 0 := loopLeave_out (by rw [h0]; exact ⟨rfl, hn⟩)
    simp only [loopRule, hin, hout]
  · intro s q n first last r h1 h0 hf hl
    have hin : loopLeave s 1 n = s := loopLeave_in fun h => by rw [h1] at h; cases h.1
    have hin0 : loopLeave s 0 n = s := loopLeave_in fun h => by
      rw [h0] at h
      rcases h.2 with h | h
      · exact absurd hf (BitVec.not_le.2 h)
      · exact absurd hl (BitVec.not_le.2 h)
    simp only [loopRule, hin, hin0]
  · exact fun s q first last r h1 h0 hq hx => loopRule_seq_on (loopTest_idle (ne_of_inactive h1)) (loopTest_done h0 hq hx)
  · intro s q f1 e1 f0 e0 r1 r0 h1 hq1 hx1 h0 hq0
    have h0' := (loopLevel_clear_other s).trans h0
    have hd := loopTest_done h1 hq1 hx1
    refine ⟨fun hx => ?_, fun hx => loopRule_seq_on hd (loopTest_done h0' hq0 (by rw [loopClear_x, hx]))⟩
    rw [loopRule_seq_back0 hd (loopTest_back h0' hq0 (by rw [loopClear_x]; exact hx)), loopClear_x]
  · exact fun s q h => loopRule_seq_on (loopTest_idle (h 1 (by decide))) (loopTest_idle (h 0 (by decide)))
  · intro s q n out
    have hout0 : out 0 → loopLeave (s.loopClear 1) 0 n = (s.loopClear 1).loopClear 0 := fun h =>
      loopLeave_out (by rw [loopLevel_clear_other]; exact h)
    have hin0 : ¬ out 0 → loopLeave (s.loopClear 1) 0 n = s.loopClear 1 := fun h =>
      loopLeave_in (by rw [loopLevel_clear_other]; exact h)
    refine ⟨fun h1 h0 => ?_, fun h1 h0 => ?_, fun h1 h0 => ?_, fun h1 h0 => ?_⟩
    · simp only [loopRule, loopLeave_out h1, hout0 h0]
    · simp only [loopRule, loopLeave_out h1, hin0 h0]
    · simp only [loopRule, loopLeave_in h1, loopLeave_out h0]
    · simp only [loopRule, loopLeave_in h1, loopLeave_in h0]

end Sys2Proof.Machine
end

section
/-!
PROOFS. The instructions that end their chunk or pause, and what ending a chunk leaves (05_scalar R78 to R80, R103, 01_machine
R31 to R35, 09_ordering R138).
-/
namespace Sys2Proof.Machine

/-! ## Instructions that end their chunk -/

/-- The state of a thread whose instruction pauses it (R78). -/
def pausedUntil (s : State) (n : Nat) : State :=
  (completed s (s.pc + 4) (.retry .paused)).modTh fun th => { th with nextIssue := s.cycle + Nat.max n 4 }

theorem hasRoom {s t : State} {n m : Nat} (h : Calm s) (k : Local n m s t) (hn : n ≤ 8192) (hm : m ≤ 16) (w : Word) (st : Status) :
    (completed t w st).undoFits = true ∧ (completed t w st).linesFit = true := fits_calm h k hn hm

/-- On a calm thread an instruction that ends its chunk completes, and the chunk is cut after it (R32, R35). -/
theorem run_ends {p : Bool} {regs : List RegName} {body : Body} {s t : State} {n m code : Nat} {w : Option Wait} (h : Calm s)
    (hb : body s = .ok (t, .cut code w)) (k : Local n m s t) (hn : n ≤ 8192) (hm : m ≤ 16) (hcode : code ≠ 0) :
    runInstr p none regs body s = .next ((completed t (s.pc + 4) (endWait (.cut code w))).cutChunk s.cur code) := by
  have h0 : t.th.regs.csr.loopC0.getLsbD 0 = false := by rw [k.loop0]; exact h.loop0
  have h1 : t.th.regs.csr.loopC1.getLsbD 0 = false := by rw [k.loop1]; exact h.loop1
  have hp : (if p then s.park else some s) = some s := by cases p <;> simp [park_calm h.toReady]
  have hpend : ∀ l, firstPending s l = none := by simp [firstPending, h.marks]
  have hret : retire t s.pc (.cut code w) = completed t (s.pc + 4) (endWait (.cut code w)) := by
    simp [retire, loopRule_off h0 h1, completed, After.next]
  have hend : endCode (completed t (s.pc + 4) (endWait (.cut code w))) (.cut code w) = code := by
    have := h.short
    have : ¬ (t.th.regs.csr.chunkCur ≤ t.th.chunk.count + 1) := by rw [k.chunkCur, k.count]; omega
    simp [endCode, completed_eq, this]
  have hi : (completed t (s.pc + 4) (endWait (.cut code w))).th.regs.inRewrite = false := by
    rw [completed_regs]; exact k.inRewrite.trans h.noRewrite
  obtain ⟨hu, hl⟩ := hasRoom h k hn hm (s.pc + 4) (endWait (.cut code w))
  have hfin : finishFrom s s t (.cut code w) = (completed t (s.pc + 4) (endWait (.cut code w))).cutChunk s.cur code := by
    unfold finishFrom
    simp only [hpend, hret, hend, hi, hu, hl, hcode, h.older, completed_cur, k.cur]
    rfl
  simp only [runInstr, h.live, if_true, attempt, hp, hpend, badReg_sound h.sound, hb, hfin]

/-- On a calm thread an instruction that pauses it completes, and the chunk goes on (R78). -/
theorem run_pause {p : Bool} {regs : List RegName} {body : Body} {s : State} {n : Nat} (h : Calm s)
    (hb : body s = .ok (s, .pause n)) : runInstr p none regs body s = .next (pausedUntil s n) := by
  have hp : (if p then s.park else some s) = some s := by cases p <;> simp [park_calm h.toReady]
  have hpend : ∀ l, firstPending s l = none := by simp [firstPending, h.marks]
  have hret : retire s s.pc (.pause n) = pausedUntil s n := by
    simp [retire, loopRule_off h.loop0 h.loop1, completed, After.next, endWait, pausedUntil]
  have hthreads : (pausedUntil s n).threads = tabSet s.threads s.cur (pausedUntil s n).th := by
    simp [pausedUntil, completed_eq]
  have hfits : Fits (pausedUntil s n) := by
    rw [fits_congr (t := s.setThr s.cur (pausedUntil s n).th) hthreads rfl]
    have := h.undoRoom
    have := h.lineRoom
    have := h.ovfRoom
    obtain ⟨hc, ho, hu, hl, hv⟩ : (pausedUntil s n).th.core = s.th.core ∧ (pausedUntil s n).th.older = none ∧
        (pausedUntil s n).th.chunk.undoBytes = s.th.chunk.undoBytes ∧ (pausedUntil s n).th.chunk.wlines = s.th.chunk.wlines ∧
        (pausedUntil s n).th.chunk.ovf = s.th.chunk.ovf := by
      rw [pausedUntil, State.th_modTh, completed_eq, State.th_setThr_cur]
      exact ⟨rfl, h.older, rfl, rfl, rfl⟩
    refine ⟨undoFits_setThr ho (by rw [State.th_setThr_cur, hc]) (by omega),
      linesFit_setThr ho (by rw [State.th_setThr_cur, hc]) (by rw [hl]; omega) (by rw [hv]; omega)⟩
  obtain ⟨hu, hl⟩ := hfits
  have hi : (pausedUntil s n).th.regs.inRewrite = false := by
    rw [pausedUntil, State.th_modTh, completed_regs]
    exact h.noRewrite
  have hend : endCode (pausedUntil s n) (.pause n) = 0 := by
    have := h.short
    have : ¬ (s.th.regs.csr.chunkCur ≤ s.th.chunk.count + 1) := by omega
    simp [endCode, pausedUntil, completed_eq, this]
  have hfin : finishFrom s s s (.pause n) = pausedUntil s n := by
    unfold finishFrom
    simp only [hpend, hret, hend, hi, hu, hl]
    rfl
  simp only [runInstr, h.live, if_true, attempt, hp, hpend, badReg_sound h.sound, hb, hfin]

theorem noRewrite_of_ready {s : State} (h : Ready s) : noRewrite s = .ok () :=
  if_neg (by rw [h.noRewrite]; exact Bool.false_ne_true)

theorem notInEvent_of {s : State} (h : s.inEvent = false) (v : Word) : notInEvent s v = .ok () :=
  if_neg (by rw [h]; exact Bool.false_ne_true)

/-! ## Ending a chunk (R33, R35, R138) -/

theorem insertRequest_cons (s : State) (t u : Nat) (us : List Nat) : insertRequest s t (u :: us) =
    if ((s.thr u).older.map (·.reqAt)).getD 0 = s.cycle ∧ requestKey (s.thr t) < requestKey (s.thr u) then t :: u :: us
    else u :: insertRequest s t us := by
  simp only [insertRequest]
  cases (s.thr u).older <;> rfl

theorem length_insertRequest (s : State) (t : Nat) (l : List Nat) : (insertRequest s t l).length = l.length + 1 := by
  induction l with
  | nil => rfl
  | cons u us ih =>
    rw [insertRequest_cons]
    split
    · rfl
    · rw [List.length_cons, ih, List.length_cons]

theorem contains_insertRequest (s : State) (t u : Nat) (l : List Nat) :
    (insertRequest s t l).contains u = (u == t || l.contains u) := by
  induction l with
  | nil => exact List.contains_cons
  | cons v vs ih =>
    rw [insertRequest_cons]
    split
    · exact List.contains_cons
    · rw [List.contains_cons, ih, List.contains_cons, Bool.or_left_comm]

/-- A request stands behind those of earlier cycles (R138). -/
theorem insertRequest_last {s : State} {t : Nat} {l : List Nat}
    (h : ∀ u ∈ l, ((s.thr u).older.map (·.reqAt)).getD 0 < s.cycle) : insertRequest s t l = l ++ [t] := by
  induction l with
  | nil => rfl
  | cons u us ih =>
    have hu := h u List.mem_cons_self
    rw [insertRequest_cons, if_neg (fun hc => Nat.ne_of_lt hu hc.1), ih fun v hv => h v (List.mem_cons_of_mem _ hv),
      List.cons_append]

/-- The chunk as it stands when its commit is requested, its lines sound (R136). -/
def requested (s : State) (t : Nat) (c : Chunk) : Chunk :=
  { c with state := .requested, reach := reachOf s (s.thr t).core c, reqAt := s.cycle, parity := none, heldReq := false }

/-- The state after the request of a chunk whose lines are sound, on a core that is not halted. -/
theorem requestChunk_eq {s : State} {t : Nat} {c : Chunk} (hh : (s.coreOf (s.thr t).core).halted = false)
    (hp : parityFlips s (s.thr t).core c = []) :
    let s1 := s.setThr t { s.thr t with older := some (requested s t c) }
    requestChunk s t c = ({ s1 with requests := insertRequest s1 t s.requests, nextUid := s.nextUid + 1 } : State).setThr t
      { s.thr t with
        older := some (requested s t c)
        chunk := { Chunk.fresh s.nextUid (s.thr t).regs with detAt := detAfter c.detAt c.count } } := by
  have hcheck : checkLines s t c = (s, none) := by simp only [checkLines, hp]; rfl
  simp only [requestChunk, hcheck, hh]
  simp only [State.newChunk, State.modThr, State.setThr, State.thr, tabGet_tabSet_same, tabSet_tabSet]
  rfl

/-- The chunk of the current thread as it is requested at its end with a code. -/
def endedChunk (s : State) (code : Nat) : Chunk := requested s s.cur { s.th.chunk with reason := code }

/-- The current thread after the end of its chunk with a code. -/
def endedThread (s : State) (code : Nat) : Thread := { s.th with
  older := some (endedChunk s code)
  cutwhy := cutwhyWord s.th.chunk.count s.th.chunk.token code
  chunk := { Chunk.fresh s.nextUid s.th.regs with detAt := detAfter s.th.chunk.detAt s.th.chunk.count } }

/-- Where the current thread's chunk of at least one instruction ends, its lines sound, on a core that is not halted. -/
theorem cutChunk_eq {s : State} {code : Nat} (hc : s.th.chunk.count ≠ 0) (hh : (s.coreOf s.th.core).halted = false)
    (hp : parityFlips s s.th.core s.th.chunk = []) :
    let s1 := s.setThr s.cur { s.th with older := some (endedChunk s code) }
    s.cutChunk s.cur code = ({ s1 with requests := insertRequest s1 s.cur s.requests, nextUid := s.nextUid + 1 } : State).setThr s.cur
      (endedThread s code) := by
  intro s1
  have hr := requestChunk_eq (s := s) (t := s.cur) (c := { s.th.chunk with reason := code }) hh hp
  have hth : s.thr s.cur = s.th := rfl
  simp only [State.cutChunk, hth, hc, if_false, hr, State.modThr, State.thr_setThr_same]
  rw [State.setThr_setThr]
  rfl

/-- What the end of a chunk changes and what it leaves (R33, R35). -/
theorem cutChunk_fields {s : State} {code : Nat} (hc : s.th.chunk.count ≠ 0) (hh : (s.coreOf s.th.core).halted = false)
    (hp : parityFlips s s.th.core s.th.chunk = []) :
    (s.cutChunk s.cur code).th = endedThread s code ∧
    (s.cutChunk s.cur code).requests =
      insertRequest (s.setThr s.cur { s.th with older := some (endedChunk s code) }) s.cur s.requests ∧
    (s.cutChunk s.cur code).cores = s.cores ∧ ∀ u, u ≠ s.cur → (s.cutChunk s.cur code).thr u = s.thr u := by
  refine ⟨?_, ?_, ?_, (Kept.cutChunk s s.cur code).others⟩ <;> rw [cutChunk_eq hc hh hp]
  · exact State.thr_setThr_same ..
  · rfl
  · rfl

/-- Settles O11. `Tests.base` meets the first premises, `Tests.witness_bar` those on scopes, `Tests.witness_cut` those of the
last part. -/
theorem chunkEndsAndPauses : Obligations.ChunkEndsAndPauses := by
  refine ⟨⟨fun s h he => ⟨fun p => ?_, ?_, fun p n => ?_, fun p d a ha => ?_, fun p d a ha => run_trap h.toReady ?_⟩, fun s h =>
    ⟨fun p => run_pause (n := 16) h rfl, fun p a => run_pause h rfl⟩⟩, fun s code hc hh hp => ?_⟩
  · refine run_ends (code := 16) (w := none) h ?_ (.refl s) (by decide) (by decide) (by decide)
    simp only [noRewrite_of_ready h.toReady, bind, Except.bind]
  · refine run_ends (code := 6) (w := some .wfi) h ?_ (.refl s) (by decide) (by decide) (by decide)
    simp only [notInEvent_of he, noRewrite_of_ready h.toReady, bind, Except.bind]
  · refine run_ends (code := 4) (w := some (.batch n s.pc)) h ?_ (.refl s) (by decide) (by decide) (by decide)
    simp only [notInEvent_of he, noRewrite_of_ready h.toReady, bind, Except.bind]
  · refine run_ends (code := 7) (w := some (.barrier d)) h ?_ ((Local.capture s (.reg (.x d))).trans (.postCommit _ _))
      (Nat.le_trans (undoSize_reg_le _) (by decide)) (by decide) (by decide)
    simp only [notInEvent_of he, noRewrite_of_ready h.toReady, ha, if_true, bind, Except.bind]
  · simp only [notInEvent_of he, noRewrite_of_ready h.toReady, ha, Bool.false_eq_true, if_false, bind, Except.bind]
  · obtain ⟨hth, hreq, hcores, hother⟩ := cutChunk_fields (code := code) hc hh hp
    have hsame : ∀ u, u ≠ s.cur → (s.setThr s.cur { s.th with older := some (endedChunk s code) }).thr u = s.thr u :=
      fun u hu => s.thr_setThr_other _ hu
    intro t
    rw [hth, hreq]
    refine ⟨⟨endedChunk s code, rfl, rfl, rfl, rfl, rfl, rfl⟩, rfl, rfl, rfl, rfl, length_insertRequest .., fun u =>
      contains_insertRequest .., fun h => insertRequest_last fun u hu => ?_, (Kept.cutChunk s s.cur code).mem, hcores, hother⟩
    rw [hsame u (h u hu).1]
    exact (h u hu).2

end Sys2Proof.Machine
end

section
/-!
PROOFS. Pending registers: the interlock of every instruction, and the park of the Twirus forms (01_machine R26 to R28).
-/
namespace Sys2Proof.Machine

/-! ## What putting errors right keeps -/

/-- The same thread is current, and no thread has completed an instruction. -/
def SameCount (s t : State) : Prop := t.cur = s.cur ∧
  ∀ u, (tabGet Thread.reset t.threads u).retired = (tabGet Thread.reset s.threads u).retired

theorem SameCount.refl (s : State) : SameCount s s := ⟨rfl, fun _ => rfl⟩

theorem SameCount.trans {s t u : State} (h : SameCount s t) (k : SameCount t u) : SameCount s u :=
  ⟨k.1.trans h.1, fun v => (k.2 v).trans (h.2 v)⟩

theorem SameCount.of_threads {s t : State} (hc : t.cur = s.cur) (ht : t.threads = s.threads) : SameCount s t :=
  ⟨hc, fun u => by rw [ht]⟩

theorem SameCount.modThr (s : State) (t : Nat) {f : Thread → Thread} (h : ∀ th, (f th).retired = th.retired) :
    SameCount s (s.modThr t f) := by
  refine ⟨rfl, fun u => ?_⟩
  show ((s.modThr t f).thr u).retired = (s.thr u).retired
  rw [State.modThr_eq, State.thr_setThr]
  split
  · next e => rw [h, e]
  · rfl

theorem SameCount.foldl {β : Type} {f : State → β → State} (h : ∀ s b, SameCount s (f s b)) (l : List β) (s : State) :
    SameCount s (l.foldl f s) := by
  induction l generalizing s with
  | nil => exact .refl s
  | cons b l ih => exact (h s b).trans (ih _)

theorem SameCount.ite {s t u : State} {c : Prop} [Decidable c] (h : SameCount s t) (k : SameCount s u) :
    SameCount s (if c then t else u) := by split <;> assumption

theorem SameCount.modCore (s : State) (c : Nat) (f : Core → Core) : SameCount s (s.modCore c f) := .refl s

theorem SameCount.dropFlips {s t : State} (h : SameCount s t) (c : Nat) (f : Flip → Bool) : SameCount s (t.dropFlips c f) := h

theorem SameCount.putBack (s : State) (u : Nat) : SameCount s (putBack s u) := by
  unfold Machine.putBack
  dsimp only
  split
  · exact (SameCount.modThr s u (f := fun w => { w with loc := .slot, cutReq := none }) fun _ => rfl).trans (.of_threads rfl rfl)
  · exact .modThr s u fun _ => rfl

theorem SameCount.giveBack (s : State) (t : Nat) (c : Chunk) (msgs : List Msg) : SameCount s (giveBack s t c msgs) := by
  unfold Machine.giveBack
  dsimp only
  refine SameCount.trans ?_ (.modThr _ t fun _ => rfl)
  refine SameCount.trans ?_ (.foldl (fun s op => ?_) c.ctx _)
  · refine SameCount.trans ?_ (.foldl ?_ c.cleared _)
    · exact .of_threads rfl rfl
    · exact fun s e => .of_threads rfl rfl
  · cases op with
    | save bs a b =>
      have hback : ∀ (s : State) (u : Option Nat), SameCount s (match u with | some u => Machine.putBack s u | none => s) := by
        intro s u
        cases u with
        | none => exact .refl s
        | some u => exact .putBack s u
      exact (hback s a).trans (hback _ b)
    | load bs c k => exact .refl s

theorem SameCount.discardChunk (s : State) (t : Nat) (c : Chunk) (first : Bool) : SameCount s (discardChunk s t c first) := by
  unfold Machine.discardChunk
  dsimp only
  refine SameCount.trans ?_ (.of_threads rfl rfl)
  refine SameCount.trans ?_ (.giveBack _ t c _)
  exact .of_threads rfl rfl

theorem SameCount.terminateLaunch (s : State) (l : Nat) : SameCount s (terminateLaunch s l) := by
  unfold Machine.terminateLaunch
  dsimp only
  refine SameCount.trans ?_ (.of_threads rfl rfl)
  refine SameCount.foldl (fun s p => ?_) s.threads s
  split
  · refine SameCount.trans ?_ (.modCore _ p.2.core _)
    refine SameCount.trans ?_ (.modThr _ p.1 ?_)
    · refine (SameCount.discardChunk s p.1 p.2.chunk true).trans ?_
      cases p.2.older with
      | none => exact .refl _
      | some c => exact .ite (.refl _) (.discardChunk ..)
    · exact fun _ => rfl
  · exact .refl s

theorem SameCount.takeOffline (s : State) (array core : Nat) : SameCount s (takeOffline s array core) := by
  have hend : ∀ (s : State) (cores : List Nat), SameCount s (endLaunchesOn s cores) := fun s cores =>
    .foldl (fun s l => .terminateLaunch s l) _ s
  unfold Machine.takeOffline
  dsimp only
  split
  · exact SameCount.trans (.of_threads rfl rfl) (hend _ _)
  · exact SameCount.trans (.of_threads rfl rfl) (hend _ _)

theorem SameCount.noteError (s : State) (core array inst addr word t : Nat) (synd : BitVec 16) (cls : BitVec 4) (inj : Bool) :
    SameCount s (s.noteError core array inst addr word t synd cls inj) := by
  unfold State.noteError
  dsimp only
  refine SameCount.trans (t := (s.logError core array inst addr word t false synd cls inj).1) (.of_threads rfl rfl) ?_
  exact .ite (.takeOffline ..) (.refl _)

theorem SameCount.correctWords (s : State) (core array inst t : Nat) (addr : Nat → Nat) (hit : Flip → Bool) :
    SameCount s (correctWords s core array inst t addr hit) := by
  unfold Machine.correctWords
  refine SameCount.foldl (fun s q => ?_) _ s
  refine .ite (.refl s) ?_
  refine SameCount.trans ?_ (.of_threads rfl rfl)
  exact SameCount.trans (t := s.secded.2) (.of_threads rfl rfl) (.noteError ..)

theorem SameCount.settleArray (s : State) (t pa : Nat) : SameCount s (settleArray s t pa) := by
  unfold Machine.settleArray
  dsimp only
  refine (SameCount.correctWords ..).trans (.foldl ?_ _ _)
  intro s q
  have k : ∀ (c a i ad w : Nat) (sy : BitVec 16) (cl : BitVec 4) (inj : Bool),
      SameCount s (s.secded.2.fresh.2.noteError c a i ad w t sy cl inj) := fun c a i ad w sy cl inj =>
    SameCount.trans (t := s.secded.2.fresh.2) (.of_threads rfl rfl) (.noteError ..)
  split
  · exact ⟨(k ..).1, fun u => (k ..).2 u⟩
  · exact (k ..).dropFlips _ _

theorem SameCount.settleLine (s : State) (t core pa : Nat) (code : Bool) : SameCount s (settleLine s t core pa code) := by
  unfold Machine.settleLine
  dsimp only
  refine SameCount.trans ?_ (.settleArray ..)
  split
  · exact .refl s
  · exact (SameCount.dropFlips (SameCount.noteError ..) _ _).trans (.modCore ..)

theorem SameCount.settleSite (s : State) (t : Nat) (e : Site) : SameCount s (settleSite s t e) := by
  unfold Machine.settleSite
  cases e with
  | line code pa => exact .settleLine ..
  | buf core sp o n => exact .correctWords ..

theorem SameCount.keepInjected (s t : State) : SameCount s (s.keepInjected t) := by
  unfold State.keepInjected
  dsimp only
  refine SameCount.trans (t := { s with cores := s.cores.map fun (q : Nat × Core) => (q.1, { q.2 with flips := (t.coreOf q.1).flips }) })
    (.of_threads rfl rfl) ?_
  exact .modThr _ _ fun _ => rfl

/-! ## The interlock and the park (R26, R27) -/

/-- The state after a park with nothing outstanding: no mark stays. -/
def unmarked (s : State) : State := (s.capture .marks).modRegs fun r => { r with marks := [] }

theorem unmarked_th (s : State) : (unmarked s).th = { s.th with
    regs := { s.th.regs with marks := [] }
    chunk := { s.th.chunk with undo := addNew .marks s.th.chunk.undo } } := by
  simp [unmarked, State.capture]

theorem unmarked_cur (s : State) : (unmarked s).cur = s.cur := rfl

theorem unmarked_live (s : State) : (unmarked s).live = s.live := by
  rw [State.live, unmarked_th]
  rfl

theorem park_unmarked (s : State) (h : s.th.results = []) : (unmarked s).park = some (unmarked s) := by
  simp [State.park, unmarked_th, h]

theorem park_of_marks {s : State} (h : s.th.results = []) (hm : s.th.regs.marks ≠ []) : s.park = some (unmarked s) := by
  simp [State.park, h, hm, unmarked]

theorem park_waits {s : State} (h : s.th.results ≠ []) : s.park = none := by
  simp [State.park, h]

/-- Not ready: the instruction is tried again (R24). -/
def Retries (t : State) : Prop := ∃ w, t.th.status = .retry w

theorem retries_stall (s : State) (w : Why) : Retries (s.stall w) := ⟨w, by rw [State.stall_eq, State.th_setThr_cur]⟩

theorem retries_ite {c : Prop} [Decidable c] {s t : State} (h : Retries s) (k : Retries t) : Retries (if c then s else t) := by
  split <;> assumption

/-- Where the core's capacity is short, an instruction outside a rewrite is tried again (R32). -/
theorem retries_capacityCut {s : State} (hr : s.th.regs.inRewrite = false) (code : Nat) (alone : Bool) (h : Hold) :
    Retries (capacityCut s code alone h) := by
  unfold capacityCut
  simp only [hr, Bool.false_eq_true, if_false]
  exact retries_ite (retries_stall ..) (retries_stall ..)

/-- The completion of an instruction looks at the state before its park only where the instruction is tried again. -/
theorem finishFrom_park {s0 s s1 s2 : State} {a : After} (hr : s.th.regs.inRewrite = false) :
    finishFrom s0 s1 s2 a = finishFrom s s1 s2 a ∨ Retries (finishFrom s s1 s2 a) := by
  unfold finishFrom
  dsimp only
  split
  · exact .inl rfl
  · split
    · exact .inl rfl
    · split
      · exact .inr (retries_capacityCut hr ..)
      · split
        · exact .inr (retries_capacityCut hr ..)
        · split
          · exact .inl rfl
          · split
            · exact .inr (retries_stall ..)
            · exact .inl rfl

/-- A stop of an instruction that has not issued leaves it to be tried again, or counts no instruction, unless it looks at
nothing before its park. -/
theorem stopAt_park {s0 s s1 : State} (hr : s.th.regs.inRewrite = false) (e : Stop) :
    stopAt s0 s1 e = stopAt s s1 e ∨ Retries (stopAt s s1 e) ∨ (stopAt s s1 e).th.retired = s.th.retired := by
  unfold stopAt
  split
  · exact .inl rfl
  · cases e with
    | trap c v => exact .inl rfl
    | bufLost core sp f => exact .inl rfl
    | partTrap v c tv => exact .inl rfl
    | squash t f => exact .inl rfl
    | leave t => exact .inr (.inr (by rw [State.th_modTh]))
    | stall w => exact .inr (.inl (retries_stall s w))
    | cut code w => exact .inr (.inl (retries_ite (retries_stall ..) (retries_stall ..)))
    | undoRewrite h =>
      refine .inr (.inl ?_)
      show Retries (holdRewrite s h)
      unfold holdRewrite
      rw [Retries, State.th_modTh]
      split
      · exact ⟨_, rfl⟩
      · exact ⟨_, rfl⟩
    | granule h sp g =>
      refine .inr (.inl ?_)
      show Retries (applyStop s (.granule h sp g))
      unfold applyStop
      simp only [hr, Bool.false_eq_true, if_false]
      exact retries_ite (retries_stall ..) (retries_stall ..)
    | farLine pa w =>
      exact .inr (.inl (retries_ite (retries_stall ..) (retries_ite (retries_stall ..) (retries_stall ..))))
    | settle t e =>
      have k := (SameCount.keepInjected s t).trans (.settleSite _ s.cur e)
      refine .inr (.inr ?_)
      show (settleSite (s.keepInjected t) s.cur e).th.retired = s.th.retired
      rw [State.th, k.1]
      exact k.2 s.cur

/-- An instruction runs as one of the model's thread instructions: its early checks and the registers that it names. -/
def Framed (i : Bool → Instr) (early : Bool → State → Option Stop) (regs : List RegName) : Prop :=
  ∃ body : Bool → Body, ∀ p s, exec (i p) s = runInstr p (early p s) regs (body p) s

/-- The interlock of an instruction without a park. -/
theorem interlocks_of {i : Instr} {early : Option Stop} {regs : List RegName} {body : Body} {s : State} (hl : s.live = true)
    (he : early = none) (hi : exec i s = runInstr false early regs body s) : Interlocks i regs s := by
  intro r hr
  rw [Traps, hi, runInstr, if_pos hl, he, attempt]
  simp only [Bool.false_eq_true, if_false, hr]

theorem Framed.parks {i : Bool → Instr} {early : Bool → State → Option Stop} {regs : List RegName} {s : State}
    (h : Framed i early regs) (hl : s.live = true) (he : ∀ p, early p s = none) (he' : ∀ p, early p (unmarked s) = none) :
    Parks i regs s := by
  obtain ⟨body, hbody⟩ := h
  refine ⟨interlocks_of hl (he false) (hbody false s), fun hw => ?_, fun hn hm hr t ht hret hst => ?_⟩
  · rw [hbody, runInstr, if_pos hl, he, attempt]
    simp only [if_true, park_waits hw]
  · have hth := unmarked_th s
    have hr' : (unmarked s).th.regs.inRewrite = false := by rw [hth]; exact hr
    have hcount : (unmarked s).th.retired = s.th.retired := by rw [hth]
    change exec (i true) (unmarked s) = .next t at ht
    rw [hbody, runInstr, if_pos ((unmarked_live s).trans hl), he', attempt] at ht
    simp only [if_true, park_unmarked s hn] at ht
    rw [hbody, runInstr, if_pos hl, he, attempt]
    simp only [if_true, park_of_marks hn hm]
    have hno : ∀ {u : State}, u = t → Retries u ∨ u.th.retired = s.th.retired → False := by
      rintro u rfl (⟨w, hw⟩ | hw)
      · exact hst w hw
      · omega
    split at ht
    · exact ht
    · split at ht
      · exact ht
      · split at ht
        · next e he =>
          rcases stopAt_park (s0 := s) (s := unmarked s) (s1 := unmarked s) hr' e with h | h | h
          · rw [h]; exact ht
          · exact (hno (Host.Outcome.next.inj ht) (.inl h)).elim
          · exact (hno (Host.Outcome.next.inj ht) (.inr (h.trans hcount))).elim
        · next s2 a hb =>
          rcases finishFrom_park (s0 := s) (s := unmarked s) (s1 := unmarked s) (s2 := s2) (a := a) hr' with h | h
          · rw [h]; exact ht
          · exact (hno (Host.Outcome.next.inj ht) (.inl h)).elim

/-! ## What the early checks look at -/

theorem unmarked_launch (s : State) : (unmarked s).launch = s.launch := by
  rw [State.launch, unmarked_th]
  rfl

/-- The entries of a table that meet a test, where the entry that is written does not and did not. -/
theorem find_tabSet {α : Type} (f : Nat × α → Bool) (l : List (Nat × α)) (a : Nat) (d w : α) (hw : f (a, w) = false)
    (hd : f (a, tabGet d l a) = false) : (tabSet l a w).find? f = l.find? f := by
  induction l with
  | nil => simp [tabSet, hw]
  | cons p l ih =>
    obtain ⟨k, v⟩ := p
    simp only [tabSet]
    split
    · rw [List.find?_cons, hw]
    · split
      · next h =>
        subst h
        rw [tabGet, if_pos rfl] at hd
        rw [List.find?_cons, hw, List.find?_cons, hd]
      · next h =>
        rw [tabGet, if_neg (Ne.symm h)] at hd
        rw [List.find?_cons, List.find?_cons, ih hd]

/-- A thread's pair does not depend on its marks. -/
theorem unmarked_partner (s : State) : (unmarked s).partner s.cur = s.partner s.cur := by
  have hth := unmarked_th s
  have hcur : (unmarked s).thr s.cur = (unmarked s).th := rfl
  have hown : ∀ th : Thread, th.slot = s.th.slot →
      (th.loc == .slot && th.core == s.th.core && th.slot == (if s.th.slot < 8 then s.th.slot + 8 else s.th.slot - 8)) = false := by
    intro th h
    have : (th.slot == (if s.th.slot < 8 then s.th.slot + 8 else s.th.slot - 8)) = false := by
      rw [beq_eq_false_iff_ne, h]
      split <;> omega
    rw [this, Bool.and_false]
  have hslot : (unmarked s).inSlot s.th.core (if s.th.slot < 8 then s.th.slot + 8 else s.th.slot - 8) =
      s.inSlot s.th.core (if s.th.slot < 8 then s.th.slot + 8 else s.th.slot - 8) := by
    have hthreads : (unmarked s).threads = tabSet s.threads s.cur (unmarked s).th := by
      simp [unmarked, State.capture]
    rw [State.inSlot, State.inSlot, hthreads]
    congr 1
    exact find_tabSet _ s.threads s.cur Thread.reset _ (hown _ (by rw [hth])) (hown _ rfl)
  have hpart : ∀ u, ((unmarked s).thr u).lid = (s.thr u).lid ∧ ((unmarked s).thr u).regs.csr.bind = (s.thr u).regs.csr.bind := by
    intro u
    by_cases hu : u = s.cur
    · rw [hu, hcur, hth]
      exact ⟨rfl, rfl⟩
    · have : (unmarked s).thr u = s.thr u := ((Frame.capture s .marks).trans (.modRegs _ _)).2.2.2.2.2 u hu
      rw [this]
      exact ⟨rfl, rfl⟩
  have hs : s.thr s.cur = s.th := rfl
  unfold State.partner
  simp only [hcur, hth, hs, hslot]
  cases s.inSlot s.th.core (if s.th.slot < 8 then s.th.slot + 8 else s.th.slot - 8) with
  | none => rfl
  | some u =>
    obtain ⟨hlid, hbind⟩ := hpart u
    by_cases h8 : s.th.slot < 8 <;> simp only [h8, if_true, if_false, hlid, hbind]

/-! ## The conclusion -/

/-- An instruction without early checks parks. -/
theorem parks_plain {i : Bool → Instr} {regs : List RegName} {s : State} (hl : s.live = true)
    (h : Framed i (fun _ _ => none) regs) : Parks i regs s := h.parks hl (fun _ => rfl) fun _ => rfl

/-- An instruction whose early check is an illegal-instruction trap under a condition parks where that does not hold, with
marks or without. -/
theorem parks_unless {i : Bool → Instr} {regs : List RegName} {s : State} {c : State → Bool} {e : Bool → Stop} (hl : s.live = true)
    (hc : c s = false) (hc' : c (unmarked s) = false) (h : Framed i (fun p s => if c s then some (e p) else none) regs) :
    Parks i regs s :=
  h.parks hl (fun _ => if_neg (ne_true_of_eq_false hc)) fun _ => if_neg (ne_true_of_eq_false hc')

/-- An instruction whose early check asks for a condition parks where that holds, with marks or without. -/
theorem parks_where {i : Bool → Instr} {regs : List RegName} {s : State} {c : State → Bool} {e : Bool → Stop} (hl : s.live = true)
    (hc : c s = true) (hc' : c (unmarked s) = true) (h : Framed i (fun p s => if c s then none else some (e p)) regs) :
    Parks i regs s :=
  h.parks hl (fun _ => if_pos hc) fun _ => if_pos hc'

/-- An instruction that always parks is not ready while a result is outstanding. -/
theorem exec_parked {i : Instr} {early : Option Stop} {regs : List RegName} {body : Body} {s : State} (hl : s.live = true)
    (hw : s.th.results ≠ []) (he : early = none) (hi : exec i s = runInstr true early regs body s) :
    exec i s = .next (s.stall .parked) := by
  rw [hi, runInstr, if_pos hl, he, attempt]
  simp only [if_true, park_waits hw]

theorem markPending_results (s : State) (n : RegName) : (s.markPending n).th.results = s.th.results := by
  simp [State.markPending, State.capture]

/-- A long-latency result of a register is one more outstanding, and the register is pending (R26, R27). -/
theorem setLong_pending (s : State) (c : ResClass) (v : RegVal) (f : Option Nat) (h : realReg v.name = true) :
    (s.setLong c v f).th.regs.marks = addNew v.name s.th.regs.marks ∧
    (s.setLong c v f).th.results.length = s.th.results.length + 1 := by
  refine ⟨by rw [State.setLong_regs, if_pos h], ?_⟩
  rw [State.setLong, if_pos h, State.th_modTh]
  exact (List.length_append ..).trans (by rw [markPending_results]; rfl)

/-- The interlocks of the standard instructions (R27). -/
theorem standard_interlocks {s : State} (hl : s.live = true) :
    (∀ c, Interlocks (.baseCompute c) (computeSrcs c ++ [.x (computeDest c)]) s) ∧
    (∀ f a b off, Interlocks (.branchJump (.branch f a b off)) [.x a, .x b] s) ∧
    (∀ rd off, Interlocks (.branchJump (.jal rd off)) [.x rd] s) ∧
    (∀ rd a off, Interlocks (.branchJump (.jalr rd a off)) [.x a, .x rd] s) ∧
    (∀ f rd a imm, Interlocks (.standardLoad f rd a imm) [.x a, .x rd] s) ∧
    (∀ f a b imm, Interlocks (.standardStore f a b imm) [.x a, .x b] s) ∧
    (∀ dbl aq rl rd a b, Interlocks (.lr dbl aq rl rd a) [.x a, .x rd] s ∧ Interlocks (.sc dbl aq rl rd a b) [.x a, .x b, .x rd] s ∧
      ∀ f, Interlocks (.amo f dbl aq rl rd a b) [.x a, .x b, .x rd] s) ∧
    ∀ f n rd src, csrIllegal s n (csrWrites f src) = false →
      Interlocks (.csrInstruction f false n rd src) [.x src, .x rd] s ∧ Interlocks (.csrInstruction f true n rd src) [.x rd] s := by
  refine ⟨fun c => interlocks_of hl rfl rfl, fun f a b off => interlocks_of hl rfl rfl, fun rd off => interlocks_of hl rfl rfl,
    fun rd a off => interlocks_of hl rfl rfl, fun f rd a imm => interlocks_of hl rfl rfl, fun f a b imm => interlocks_of hl rfl rfl,
    fun dbl aq rl rd a b => ⟨interlocks_of hl rfl rfl, interlocks_of hl rfl rfl, fun f => interlocks_of hl rfl rfl⟩,
    fun f n rd src h => ?_⟩
  have he : ∀ i : Instr, (if csrIllegal s n (csrWrites f src) then some (illegal i) else none) = none := fun i =>
    if_neg (ne_true_of_eq_false h)
  exact ⟨interlocks_of hl (he _) rfl, interlocks_of hl (he _) rfl⟩

/-- Settles O10. `Tests.witness_pending` and `Tests.witness_parks` meet the premises. -/
theorem pendingRegisters : Obligations.PendingRegisters := by
  refine ⟨⟨fun _ => ⟨rfl, rfl⟩, fun _ => ⟨rfl, rfl, rfl⟩, fun _ => rfl⟩, fun s c v f hv => ?_, fun s c v h => ?_, fun s hl => ?_⟩
  · obtain ⟨hmarks, hresults⟩ := setLong_pending s c v f hv
    exact ⟨hmarks, hresults, by rw [enterVec_regs, queuedResult, if_pos hv]⟩
  · rw [takeTrap, if_pos (by simpa using h)]
  · have plain : ∀ {i : Bool → Instr} {regs : List RegName}, Framed i (fun _ _ => none) regs → Parks i regs s := parks_plain hl
    have hregs : (unmarked s).th.regs = { s.th.regs with marks := [] } := by rw [unmarked_th]
    have htile : (unmarked s).th.tile = s.th.tile := by rw [unmarked_th]
    have hlaunch := unmarked_launch s
    refine ⟨standard_interlocks hl, fun d a b => ?_, fun g d a b => ?_, fun d a b r => ?_, fun ht td tb tc ta a f => ?_,
      fun hd hr d a b => ?_, fun hd hr a b => ?_, fun hm a b => ?_⟩
    · refine ⟨?_, fun l n => plain ⟨_, fun _ _ => rfl⟩, plain ⟨_, fun _ _ => rfl⟩, fun u hu => ?_, fun e he => ?_, fun ho => ?_,
        fun ho => ?_, ?_, ?_, ?_, ?_, plain ⟨_, fun _ _ => rfl⟩, plain ⟨_, fun _ _ => rfl⟩, plain ⟨_, fun _ _ => rfl⟩,
        plain ⟨_, fun _ _ => rfl⟩⟩
      · intro i hi
        repeat
          obtain _ | ⟨_, hi⟩ := hi
          · exact plain ⟨_, fun _ _ => rfl⟩
        cases hi
      · have hp : (s.partner s.cur).isNone = false := by rw [hu]; rfl
        have hp' : ((unmarked s).partner s.cur).isNone = false := by rw [unmarked_partner, hp]
        exact ⟨parks_unless (c := fun s => (s.partner s.cur).isNone) hl hp hp' ⟨_, fun _ _ => rfl⟩,
          parks_unless (c := fun s => (s.partner s.cur).isNone) hl hp hp' ⟨_, fun _ _ => rfl⟩⟩
      · have hc : ¬ (e = 3 ∧ (!s.th.regs.smode) = true) := fun h => by rw [he h.1] at h; exact Bool.noConfusion h.2
        have hc' : ¬ (e = 3 ∧ (!(unmarked s).th.regs.smode) = true) := by rw [hregs]; exact hc
        exact Framed.parks (early := fun p s => if e = 3 ∧ !s.th.regs.smode then some (illegal (.enq p d a e)) else none)
          ⟨_, fun _ _ => rfl⟩ hl (fun _ => if_neg hc) fun _ => if_neg hc'
      · exact parks_unless (c := fun s => s.th.regs.opt.on) hl ho (by rw [hregs]; exact ho) ⟨_, fun _ _ => rfl⟩
      · refine ⟨parks_where (c := fun s => s.th.regs.opt.on) hl ho (by rw [hregs]; exact ho) ⟨_, fun _ _ => rfl⟩, fun hev hw p =>
          exec_parked hl hw (if_pos (by rw [ho, hev]; rfl)) rfl⟩
      · intro i hi
        repeat
          obtain _ | ⟨_, hi⟩ := hi
          · exact plain ⟨_, fun _ _ => rfl⟩
        cases hi
      · intro i hi
        repeat
          obtain _ | ⟨_, hi⟩ := hi
          · exact plain ⟨_, fun _ _ => rfl⟩
        cases hi
      · intro i hi
        repeat
          obtain _ | ⟨_, hi⟩ := hi
          · exact plain ⟨_, fun _ _ => rfl⟩
        cases hi
      · exact fun m z o => ⟨plain ⟨_, fun _ _ => rfl⟩, plain ⟨_, fun _ _ => rfl⟩⟩
    · refine ⟨?_, ?_, ?_, ?_, ?_, ?_, plain ⟨_, fun _ _ => rfl⟩⟩
      · intro i hi
        repeat
          obtain _ | ⟨_, hi⟩ := hi
          · exact plain ⟨_, fun _ _ => rfl⟩
        cases hi
      · intro i hi
        repeat
          obtain _ | ⟨_, hi⟩ := hi
          · exact plain ⟨_, fun _ _ => rfl⟩
        cases hi
      · intro q i hi
        repeat
          obtain _ | ⟨_, hi⟩ := hi
          · exact plain ⟨_, fun _ _ => rfl⟩
        cases hi
      · intro i hi
        repeat
          obtain _ | ⟨_, hi⟩ := hi
          · exact plain ⟨_, fun _ _ => rfl⟩
        cases hi
      · intro i hi
        repeat
          obtain _ | ⟨_, hi⟩ := hi
          · exact plain ⟨_, fun _ _ => rfl⟩
        cases hi
      · intro i hi
        repeat
          obtain _ | ⟨_, hi⟩ := hi
          · exact plain ⟨_, fun _ _ => rfl⟩
        cases hi
    · refine ⟨?_, plain ⟨_, fun _ _ => rfl⟩, plain ⟨_, fun _ _ => rfl⟩, plain ⟨_, fun _ _ => rfl⟩, plain ⟨_, fun _ _ => rfl⟩⟩
      intro i hi
      repeat
        obtain _ | ⟨_, hi⟩ := hi
        · exact plain ⟨_, fun _ _ => rfl⟩
      cases hi
    · have tile : ∀ {i : Bool → Instr} {regs : List RegName}, Framed i (fun p s => needTile (i p) s) regs → Parks i regs s :=
        parks_where (c := fun s => s.th.tile) hl ht (htile.trans ht)
      refine ⟨tile ⟨_, fun _ _ => rfl⟩, tile ⟨_, fun _ _ => rfl⟩, tile ⟨_, fun _ _ => rfl⟩, tile ⟨_, fun _ _ => rfl⟩,
        tile ⟨_, fun _ _ => rfl⟩, tile ⟨_, fun _ _ => rfl⟩, tile ⟨_, fun _ _ => rfl⟩, tile ⟨_, fun _ _ => rfl⟩,
        tile ⟨_, fun _ _ => rfl⟩, tile ⟨_, fun _ _ => rfl⟩, tile ⟨_, fun _ _ => rfl⟩, tile ⟨_, fun _ _ => rfl⟩,
        tile ⟨_, fun _ _ => rfl⟩, tile ⟨_, fun _ _ => rfl⟩, tile ⟨_, fun _ _ => rfl⟩, tile ⟨_, fun _ _ => rfl⟩, ?_⟩
      intro i hi
      repeat
        obtain _ | ⟨_, hi⟩ := hi
        · exact tile ⟨_, fun _ _ => rfl⟩
      cases hi
    · have task : ∀ {i : Bool → Instr} {regs : List RegName} (k : Bool),
          Framed i (fun p s => taskIllegal s (i p) k) regs → Parks i regs s := fun k =>
        parks_unless (c := fun s => (k && s.launch.det) || s.th.regs.inRewrite) hl (by rw [hd, hr, Bool.and_false]; rfl)
          (by rw [hlaunch, hregs, hd, hr, Bool.and_false]; rfl)
      have net : ∀ {i : Bool → Instr} {regs : List RegName}, Framed i (fun p s => netIllegal s (i p)) regs → Parks i regs s :=
        parks_unless (c := fun s => s.launch.det) hl hd (by rw [hlaunch, hd])
      refine ⟨?_, task true ⟨_, fun _ _ => rfl⟩, ?_, net ⟨_, fun _ _ => rfl⟩, ?_⟩
      · intro i hi
        obtain _ | ⟨_, _ | ⟨_, _ | ⟨_, ⟨⟩⟩⟩⟩ := hi
        · exact task true ⟨_, fun _ _ => rfl⟩
        · exact net ⟨_, fun _ _ => rfl⟩
        · exact net ⟨_, fun _ _ => rfl⟩
      · intro i hi
        obtain _ | ⟨_, _ | ⟨_, _ | ⟨_, _ | ⟨_, ⟨⟩⟩⟩⟩⟩ := hi
        · exact task true ⟨_, fun _ _ => rfl⟩
        · exact parks_unless (c := fun s => s.launch.det) hl hd (by rw [hlaunch, hd]) ⟨_, fun _ _ => rfl⟩
        · exact task false ⟨_, fun _ _ => rfl⟩
        · exact net ⟨_, fun _ _ => rfl⟩
      · exact parks_unless (c := fun s => s.launch.det || s.th.regs.inRewrite) hl (by rw [hd, hr]; rfl)
          (by rw [hlaunch, hregs, hd, hr]; rfl) ⟨_, fun _ _ => rfl⟩
    · exact parks_unless (c := fun s => s.launch.det || !s.th.regs.inRewrite) hl (by rw [hd, hr]; rfl)
        (by rw [hlaunch, hregs, hd, hr]; rfl) ⟨_, fun _ _ => rfl⟩
    · have sup : ∀ {i : Bool → Instr} {regs : List RegName}, Framed i (fun p s => needS (i p) s) regs → Parks i regs s :=
        parks_where (c := fun s => s.th.regs.smode) hl hm (by rw [hregs]; exact hm)
      exact ⟨sup ⟨_, fun _ _ => rfl⟩, sup ⟨_, fun _ _ => rfl⟩, sup ⟨_, fun _ _ => rfl⟩, sup ⟨_, fun _ _ => rfl⟩,
        interlocks_of hl (if_pos hm) rfl⟩

end Sys2Proof.Machine
end

section
/-!
PROOFS. The queues of bound pairs and the supervisor instructions (05_scalar R85 to R89).
-/
namespace Sys2Proof.Machine

/-! ## Access and execute queues (R30, R85) -/

theorem Local.setPair (s : State) (q : Pair) : Local 0 0 s (s.setPair q) := .modCore ..

/-- A change of the chunk that keeps what the frame looks at. -/
theorem Local.noteChunk {n m : Nat} {s t : State} {f : Chunk → Chunk} (h : Local n m s t)
    (hf : ∀ c, (f c).count = c.count ∧ (f c).undo = c.undo ∧ (f c).wlines = c.wlines ∧ (f c).ovf = c.ovf) :
    Local n m s (t.modChunk f) := by
  obtain ⟨hc, hu, hw, ho⟩ := hf t.th.chunk
  refine h.trans (n' := 0) (m' := 0) (.modChunk hc (Nat.le_of_eq ?_) (Nat.le_of_eq (congrArg List.length hw)) (Nat.le_of_eq (congrArg List.length ho)))
  rw [Chunk.undoBytes, hu]
  rfl

theorem needsPair_bound {s : State} {u : Nat} (h : s.partner s.cur = some u) (i : Instr) : needsPair i s = none := by
  rw [needsPair, h]
  rfl

/-- Settles O14. `Tests.witness_pair` meets the premises. -/
theorem accessExecuteQueues : Obligations.AccessExecuteQueues := by
  refine ⟨fun s p a u h he hu => ⟨fun hs hq => ?_, fun hs hq => ?_⟩, fun s p d u n w q h he hu => ⟨fun hs hq => ?_, fun hs hq => ?_⟩,
    fun s p a d hl hu => ⟨?_, ?_⟩⟩
  · show runInstr p (needsPair (.aeqw p a) s) [.x a] _ s = _
    rw [needsPair_bound hu]
    refine run_calm (a := .seq) h ?_ (.setPair s _) (by decide) (by decide) ⟨nofun, nofun⟩
    simp only [notInEvent_of he, hs, if_true, Nat.not_le.2 hq, if_false, bind, Except.bind]
  · show runInstr p (needsPair (.aeqw p a) s) [.x a] _ s = _
    rw [needsPair_bound hu]
    refine run_calm (a := .seq) h ?_ (.setPair s _) (by decide) (by decide) ⟨nofun, nofun⟩
    simp only [notInEvent_of he, Nat.not_lt.2 hs, if_false, Nat.not_le.2 hq, bind, Except.bind]
  · show runInstr p (needsPair (.aeqr p d) s) [.x d] _ s = _
    rw [needsPair_bound hu]
    refine run_calm (a := .seq) h ?_ (((Local.setPair s _).trans (.setX _ d w)).noteChunk fun _ => ⟨rfl, rfl, rfl, rfl⟩)
      (by decide) (by decide) ⟨nofun, nofun⟩
    simp only [notInEvent_of he, noRewrite_of_ready h.toReady, hs, if_true, hq, bind, Except.bind]
  · show runInstr p (needsPair (.aeqr p d) s) [.x d] _ s = _
    rw [needsPair_bound hu]
    refine run_calm (a := .seq) h ?_ (((Local.setPair s _).trans (.setX _ d w)).noteChunk fun _ => ⟨rfl, rfl, rfl, rfl⟩)
      (by decide) (by decide) ⟨nofun, nofun⟩
    simp only [notInEvent_of he, noRewrite_of_ready h.toReady, Nat.not_lt.2 hs, if_false, hq, bind, Except.bind]
  · exact runInstr_illegal hl (if_pos (by rw [hu]; rfl)) ..
  · exact runInstr_illegal hl (if_pos (by rw [hu]; rfl)) ..

/-! ## Supervisor instructions (R86 to R89) -/

theorem needS_smode {s : State} (h : s.th.regs.smode = true) (i : Instr) : needS i s = none := if_pos h

theorem slotOperand_of {w : Word} {k : Nat} (hw : w = BitVec.ofNat 64 k) (hk : k < 16) (i : Instr) : slotOperand i w = .ok k := by
  have hn : w.toNat = k := by rw [hw, BitVec.toNat_ofNat, Nat.mod_eq_of_lt (by omega)]
  have hhi : bits w 63 4 = 0 := by rw [bits, hn]; omega
  have hlo : bits w 3 0 = k := by rw [bits, hn]; omega
  rw [slotOperand, hhi, hlo]
  exact if_neg (Classical.not_not.2 rfl)

/-- Reading where context areas lie changes nothing. -/
theorem areaBlocks_state {s t : State} {acc : Acc} {w : Word} {n : Nat} {bs : List Nat} (h : areaBlocks s acc w n = .ok (t, bs)) :
    t = s := by
  unfold areaBlocks at h
  dsimp only at h
  split at h
  · cases h
  · split at h
    · cases h
    · split at h
      · cases h
      · split at h
        · cases h
        · cases h
          rfl

theorem Local.noteCtx (s : State) (op : CtxOp) : Local 0 0 s (s.modChunk fun c => { c with ctx := c.ctx ++ [op] }) :=
  (Local.refl s).noteChunk fun _ => ⟨rfl, rfl, rfl, rfl⟩

/-- On a ready thread an instruction that leaves a state in which the thread is not ready leaves that state (R27). -/
theorem run_leave {p : Bool} {regs : List RegName} {body : Body} {s t : State} {w : Why} (h : Ready s)
    (hb : body s = .error (.leave (t.stall w))) (hm : t.th.regs.marks = s.th.regs.marks) (hr : t.th.retired = s.th.retired) :
    runInstr p none regs body s = .next (t.stall w) := by
  have hp : (if p then s.park else some s) = some s := by cases p <;> simp [park_calm h]
  have hq : ∀ l, firstPending s l = none := by simp [firstPending, h.marks]
  have hk : ((t.stall w).keepMarks s.th.regs.marks).modTh (fun th => { th with retired := s.th.retired }) = t.stall w := by
    rw [State.keepMarks, if_pos (by rw [State.stall_eq, State.th_setThr_cur]; exact hm), State.modTh_eq, State.stall_eq,
      State.th_setThr_cur, State.setThr_cur, State.setThr_setThr, ← hr]
  simp only [runInstr, h.live, if_true, attempt, hp, hq, badReg_sound h.sound, hb, stopAt, ite_self, hk]

theorem askPreempt_th (s : State) (v : Nat) : (askPreempt s v).th.regs = s.th.regs ∧ (askPreempt s v).th.retired = s.th.retired := by
  unfold askPreempt
  rw [State.modThr_eq, State.th, State.setThr_cur, State.thr_setThr]
  split
  · next e => rw [e]; exact ⟨rfl, rfl⟩
  · exact ⟨rfl, rfl⟩

/-- The supervisor instructions in U mode (R48). -/
theorem supervisor_illegal {s : State} (p : Bool) (a b : Reg) (h : Ready s) (hu : s.th.regs.smode = false) :
    Traps (.ctxsave p a b) s 2 ((encode (.ctxsave p a b)).setWidth 64) ∧
    Traps (.ctxload p a b) s 2 ((encode (.ctxload p a b)).setWidth 64) ∧
    Traps (.tlbinv p a b) s 2 ((encode (.tlbinv p a b)).setWidth 64) ∧
    Traps (.zline p a) s 2 ((encode (.zline p a)).setWidth 64) ∧
    Traps (.sfenceVma a b) s 2 ((encode (.sfenceVma a b)).setWidth 64) := by
  have hn : ∀ i : Instr, needS i s = some (illegal i) := fun i => if_neg (ne_true_of_eq_false hu)
  exact ⟨runInstr_illegal h.live (hn _) .., runInstr_illegal h.live (hn _) .., runInstr_illegal h.live (hn _) ..,
    runInstr_illegal h.live (hn _) .., runInstr_illegal h.live (hn _) ..⟩

/-- CTXSAVE of a slot that another thread occupies asks it to leave (R86). -/
theorem ctxsave_asks {s t : State} (p : Bool) (a b : Reg) {k v : Nat} {bs : List Nat} (h : Calm s) (hm : s.th.regs.smode = true)
    (hx : s.x b = BitVec.ofNat 64 k) (hk : k < 16) (hne : k ≠ s.th.slot) (hv : s.inSlot s.th.core k = some v)
    (hp : s.partner v = none) (ha : areaBlocks s .store (s.x a) 1 = .ok (t, bs)) :
    exec (.ctxsave p a b) s = .next ((askPreempt t v).stall (.ctx v)) := by
  obtain rfl := areaBlocks_state ha
  show runInstr p (needS (.ctxsave p a b) t) [.x a, .x b] _ t = _
  rw [needS_smode hm]
  refine run_leave h.toReady ?_ (by rw [(askPreempt_th t v).1]) (askPreempt_th t v).2
  simp only [slotOperand_of hx hk, hne, if_false, hv, hp, ha, bind, Except.bind]

/-- CTXSAVE of a slot without a thread notes the save, of the context that it has had taken or of none (R86). -/
theorem ctxsave_notes {s t : State} (p : Bool) (a b : Reg) {k : Nat} {bs : List Nat} {who : Option Nat} (h : Calm s)
    (hm : s.th.regs.smode = true) (hx : s.x b = BitVec.ofNat 64 k) (hk : k < 16) (hne : k ≠ s.th.slot)
    (hv : s.inSlot s.th.core k = none) (ha : areaBlocks s .store (s.x a) 1 = .ok (t, bs))
    (hw : (s.th.status = .ready ∧ who = none) ∨ (∃ v, s.th.status = .retry (.ctx v) ∧ (s.thr v).isOut = false ∧ who = none) ∨
      ∃ v, s.th.status = .retry (.ctx v) ∧ (s.thr v).isOut = true ∧ s.outPartner v = none ∧ who = some v) :
    Does (.ctxsave p a b) s (t.modChunk fun c => { c with ctx := c.ctx ++ [.save bs who none] }) := by
  obtain rfl := areaBlocks_state ha
  show runInstr p (needS (.ctxsave p a b) t) [.x a, .x b] _ t = _
  rw [needS_smode hm]
  refine run_calm (a := .seq) h ?_ (.noteCtx t _) (by decide) (by decide) ⟨nofun, nofun⟩
  rcases hw with ⟨hs, rfl⟩ | ⟨v, hs, ho, rfl⟩ | ⟨v, hs, ho, hp, rfl⟩
  · simp only [slotOperand_of hx hk, hne, if_false, hv, hs, ha, Option.isSome_none, Bool.false_eq_true, bind, Except.bind]
  · simp only [slotOperand_of hx hk, hne, if_false, hv, hs, ho, ha, Option.isSome_none, Bool.false_eq_true, bind, Except.bind]
  · simp only [slotOperand_of hx hk, hne, if_false, hv, hs, ho, hp, ha, if_true, Option.isSome_none, Bool.false_eq_true, bind,
      Except.bind]

/-- CTXLOAD of a valid area into a free slot notes the start of its context (R87). -/
theorem ctxload_notes {s t : State} (p : Bool) (a b : Reg) {k : Nat} {bs : List Nat} (h : Calm s) (hm : s.th.regs.smode = true)
    (hx : s.x b = BitVec.ofNat 64 k) (hk : k < 16) (hv : s.inSlot s.th.core k = none) (hkept : s.slotKept s.th.core k = false)
    (ha : areaBlocks s .load (s.x a) 1 = .ok (t, bs)) (h0 : (BitVec.ofNat 64 (leNat (t.viewBlock bs 0))).getLsbD 0 = true)
    (h1 : (BitVec.ofNat 64 (leNat (t.viewBlock bs 0))).getLsbD 1 = true → k < 8)
    (h3 : (BitVec.ofNat 64 (leNat (t.viewBlock bs 0))).getLsbD 3 = false) (hid : leNat (t.viewBlock bs 61) ≠ 0) :
    Does (.ctxload p a b) s (t.modChunk fun c => { c with ctx := c.ctx ++ [.load bs s.th.core k] }) := by
  obtain rfl := areaBlocks_state ha
  show runInstr p (needS (.ctxload p a b) t) [.x a, .x b] _ t = _
  rw [needS_smode hm]
  have htile : ((BitVec.ofNat 64 (leNat (t.viewBlock bs 0))).getLsbD 1 && decide (8 ≤ k)) = false := by
    cases hb : (BitVec.ofNat 64 (leNat (t.viewBlock bs 0))).getLsbD 1
    · rfl
    · rw [Bool.true_and, decide_eq_false (Nat.not_le.2 (h1 hb))]
  refine run_calm (a := .seq) h ?_ (.noteCtx t _) (by decide) (by decide) ⟨nofun, nofun⟩
  simp only [slotOperand_of hx hk, hv, hkept, ha, h0, htile, h3, beq_eq_false_iff_ne.2 hid, Option.isSome_none, Bool.or_self,
    Bool.false_eq_true, if_false, Bool.not_true, Bool.false_and, bind, Except.bind]

/-- After SFENCE.VMA the core's own TLB holds no translation that it names, and those of its cluster's TLB are barred to it
(R103). -/
theorem fenceTlb_fences (s : State) (core : Nat) (va id : Option Word) :
    (∀ e ∈ ((s.fenceTlb core va id).coreOf core).tlb, tlbHit va id e = false) ∧
    ∀ e ∈ (s.fenceTlb core va id).clusterTlb core, tlbHit va id e = true → e.barred.contains core = true := by
  refine ⟨fun e he => ?_, fun e he hh => ?_⟩
  · have hc : (s.fenceTlb core va id).coreOf core = { s.coreOf core with tlb := (s.coreOf core).tlb.filter fun e => !tlbHit va id e } :=
      tabGet_tabSet_same ..
    rw [hc, List.mem_filter, Bool.not_eq_true'] at he
    exact he.2
  · have hk : (s.fenceTlb core va id).clusterTlb core = (tabGet [] s.ctlbs (clusterOf core)).map fun (e : TlbEntry) =>
        if tlbHit va id e then { e with barred := addNew core e.barred } else e := tabGet_tabSet_same ..
    rw [hk, List.mem_map] at he
    obtain ⟨q, -, rfl⟩ := he
    by_cases hq : tlbHit va id q = true
    · rw [if_pos hq, contains_addNew, beq_self_eq_true, Bool.true_or]
    · rw [if_neg hq] at hh
      exact absurd hh hq

/-- Settles O15. `Tests.witness_supervisor` and `Tests.witness_left` meet the premises. -/
theorem supervisorInstructions : Obligations.SupervisorInstructions := by
  refine ⟨fun s p a b h hu => supervisor_illegal p a b h hu, fun s p a b h hm => ⟨?_, ?_, ?_, ?_, ?_, ?_, ?_, ?_, ?_⟩⟩
  · exact fun k t bs hx hk hne hv hs ha => ctxsave_notes p a b h hm hx hk hne hv ha (.inl ⟨hs, rfl⟩)
  · exact fun k t v bs hx hk hne hv hp ha => ctxsave_asks p a b h hm hx hk hne hv hp ha
  · exact fun k t v bs hx hk hne hv hs ho hp ha => ctxsave_notes p a b h hm hx hk hne hv ha (.inr (.inr ⟨v, hs, ho, hp, rfl⟩))
  · exact fun k t v bs hx hk hne hv hs ho ha => ctxsave_notes p a b h hm hx hk hne hv ha (.inr (.inl ⟨v, hs, ho, rfl⟩))
  · intro k hx hk hbusy
    show runInstr p (needS (.ctxload p a b) s) [.x a, .x b] _ s = _
    rw [needS_smode hm]
    refine run_trap h.toReady ?_
    simp only [slotOperand_of hx hk, Bool.or_eq_true, hbusy, if_true, bind, Except.bind]
    rfl
  · exact fun k t bs hx hk hv hkept ha => fun h0 h1 h3 hid => ctxload_notes p a b h hm hx hk hv hkept ha h0 h1 h3 hid
  · show runInstr p (needS (.tlbinv p a b) s) [.x a, .x b] _ s = _
    rw [needS_smode hm]
    exact run_calm (a := .seq) h rfl ((Local.refl s).noteChunk fun _ => ⟨rfl, rfl, rfl, rfl⟩) (by decide) (by decide) ⟨nofun, nofun⟩
  · intro va id
    refine ⟨?_, fenceTlb_fences s s.th.core va id⟩
    show runInstr false (needS (.sfenceVma a b) s) [.x a, .x b] _ s = _
    rw [needS_smode hm]
    have k : Local 0 0 s (s.fenceTlb s.th.core va id) := .of_threads rfl rfl
    exact run_calm (a := .seq) h rfl (k.noteChunk fun _ => ⟨rfl, rfl, rfl, rfl⟩) (by decide) (by decide) ⟨nofun, nofun⟩
  · intro t pa va he hc
    show runInstr p (needS (.zline p a) s) [.x a] _ s = _
    rw [needS_smode hm]
    refine run_calm (a := .seq) h ?_ ((Local.checkVa hc).trans (.postCommit t _)) (by decide) (by decide) ⟨nofun, nofun⟩
    simp only [notInEvent_of he, hc, bind, Except.bind]

end Sys2Proof.Machine
end

section
/-!
PROOFS. Local memory, reductions and queued reservations (05_scalar R91 to R99).
-/
namespace Sys2Proof.Machine

/-! ## Local memory (R91, R92) -/

/-- A local address that names no place raises LOCALADDR. -/
theorem localPlace_bad {s : State} {sp o n mode : Nat} {st : Bool} (ho : o < 2 ^ 60)
    (h : sp = 0 ∨ 6 ≤ sp ∨ (mode ≠ 0 ∧ sp ≠ 4) ∨ o % n ≠ 0 ∨ (sp = 1 ∧ 524288 < o + n) ∨ (sp = 2 ∧ 262144 < o + n) ∨
      (sp = 3 ∧ 262144 < o + n) ∨ (sp = 5 ∧ 4096 < o + n) ∨ (st = true ∧ (sp = 3 ∨ sp = 5)) ∨
      (sp = 3 ∧ windowHas s.th.regs.csr.cbwin o = false) ∨ (sp = 4 ∧ s.launch.csp = 0)) :
    localPlace s sp o n mode st = .error (.trap 52 (BitVec.ofNat 64 (sp * 2 ^ 60 + o))) := by
  have hstop : localStop sp o = .trap 52 (BitVec.ofNat 64 (sp * 2 ^ 60 + o)) := by rw [localStop, Nat.mod_eq_of_lt ho]
  unfold localPlace
  simp only [hstop]
  by_cases hform : 2 ^ 60 ≤ o ∨ sp = 0 ∨ 6 ≤ sp ∨ (mode ≠ 0 ∧ sp ≠ 4) ∨ o % n ≠ 0
  · rw [if_pos hform]
  · rw [if_neg hform]
    by_cases h4 : sp = 4
    · have hcsp : s.launch.csp = 0 := by omega
      rw [if_pos h4, if_pos (by rw [State.cspBytes, hcsp, Nat.zero_mul])]
    · rw [if_neg h4]
      by_cases hlim : (if sp = 1 then 524288 else if sp = 5 then 4096 else 262144) < o + n
      · rw [if_pos hlim]
      · rw [if_neg hlim]
        by_cases hst : (st && (sp == 3 || sp == 5)) = true
        · rw [if_pos hst]
        · rw [if_neg hst]
          refine if_pos ?_
          have hst' : ¬ (st = true ∧ (sp = 3 ∨ sp = 5)) := by simpa using hst
          have hlim' : ¬ (sp = 1 ∧ 524288 < o + n) ∧ ¬ (sp = 2 ∧ 262144 < o + n) ∧ ¬ (sp = 3 ∧ 262144 < o + n) ∧
              ¬ (sp = 5 ∧ 4096 < o + n) := by
            refine ⟨?_, ?_, ?_, ?_⟩ <;> rintro ⟨rfl, hl⟩ <;> exact hlim (by simpa using hl)
          obtain ⟨l1, l2, l3, l5⟩ := hlim'
          have hw : sp = 3 ∧ windowHas s.th.regs.csr.cbwin o = false := by
            simp only [not_or] at hform
            obtain ⟨-, f0, f6, fm, fo⟩ := hform
            rcases h with h | h | h | h | h | h | h | h | h | h | h
            · exact absurd h f0
            · exact absurd h f6
            · exact absurd h fm
            · exact absurd h fo
            · exact absurd h l1
            · exact absurd h l2
            · exact absurd h l3
            · exact absurd h l5
            · exact absurd h hst'
            · exact h
            · exact absurd h.1 h4
          rw [hw.2]
          exact ⟨hw.1, rfl⟩

/-- An address within its buffer and its window names its place. -/
theorem localPlace_buf {s : State} {sp o n : Nat} {st : Bool} (h0 : sp ≠ 0) (h6 : sp < 6) (h4 : sp ≠ 4) (ho : o % n = 0)
    (hlim : o + n ≤ if sp = 1 then 524288 else if sp = 5 then 4096 else 262144) (hst : (st && (sp == 3 || sp == 5)) = false)
    (hw : sp = 3 → windowHas s.th.regs.csr.cbwin o = true) : localPlace s sp o n 0 st =
      .ok (.buf (if sp = 1 then .wb else if sp = 2 then .ab else if sp = 3 then .cb else .st) o) := by
  have hform : ¬ (2 ^ 60 ≤ o ∨ sp = 0 ∨ 6 ≤ sp ∨ (0 ≠ 0 ∧ sp ≠ 4) ∨ o % n ≠ 0) := by
    have : o ≤ 524288 := by
      split at hlim
      · omega
      · split at hlim <;> omega
    omega
  have hwin : ¬ (sp = 3 ∧ (!windowHas s.th.regs.csr.cbwin o) = true) := by
    rintro ⟨h3, hn⟩
    rw [hw h3] at hn
    cases hn
  unfold localPlace
  dsimp only
  rw [if_neg hform, if_neg h4, if_neg (Nat.not_lt.2 hlim), if_neg (ne_true_of_eq_false hst), if_neg hwin]

/-- Settles O17. `Tests.witness_local` meets the premises. -/
theorem localMemory : Obligations.LocalMemory := by
  refine ⟨?_, ?_, fun s sp o n mode st ho h => localPlace_bad ho h, fun s o n hn ho => ⟨fun h => ?_, fun h => ?_, fun h hw => ?_,
    fun h => ?_⟩⟩
  · intro s t p d a mode size off pl n la bs h hpl hr
    refine run_calm (a := .seq) h ?_ ((Local.localRead hr).trans (.setLong t _ _ _))
      (by have := undoSize_reg_le (.x d); simp only [RegVal.name]; omega) (by decide) ⟨nofun, nofun⟩
    simp only [hpl, hr, bind, Except.bind]
  · intro s t p a b mode size off pl n la h hpl hw
    refine run_calm (a := .seq) h ?_ (Local.localWrite hw) (by decide) (by decide) ⟨nofun, nofun⟩
    simp only [hpl, hw, bind, Except.bind]
  · exact localPlace_buf (by decide) (by decide) (by decide) ho h rfl nofun
  · exact localPlace_buf (by decide) (by decide) (by decide) ho h rfl nofun
  · exact localPlace_buf (by decide) (by decide) (by decide) ho h rfl fun _ => hw
  · exact localPlace_buf (by decide) (by decide) (by decide) ho h rfl nofun

/-! ## Reductions (R94) -/

/-- A reduction posts its operation. -/
theorem reduce_does {s t : State} {p : Bool} {regs : List RegName} {op : RedOp} {n : Nat} {a : Reg} {operand : State → BitVec 128}
    {pa va : Nat} (h : Calm s) (he : s.inEvent = false) (hc : checkVa s .store (s.x a) n = .ok (t, pa, va)) :
    runInstr p none regs (reduceBody op n a operand) s =
      .next (completed (t.postCommit (.reduce op pa n (operand t))) (s.pc + 4) .ready) := by
  refine run_calm (a := .seq) h ?_ ((Local.checkVa hc).trans (.postCommit t _)) (by decide) (by decide) ⟨nofun, nofun⟩
  simp only [reduceBody, notInEvent_of he, hc, bind, Except.bind]

theorem redFxa_does {s t : State} {p : Bool} {a b : Reg} {pa va : Nat} (h : Calm s) (he : s.inEvent = false)
    (hc : checkVa s .store (s.x a) 16 = .ok (t, pa, va)) :
    Does (.redFxa p a b) s ((t.orFlags (fxaOf (fp32.num (bits (t.x b) 31 0))).2).postCommit
      (.reduce .fxa pa 16 (fxaOf (fp32.num (bits (t.x b) 31 0))).1)) := by
  refine run_calm (a := .seq) h ?_ ((Local.checkVa hc).trans ((Local.orFlags t _).trans (.postCommit _ _))) (by decide) (by decide)
    ⟨nofun, nofun⟩
  simp only [notInEvent_of he, hc, bind, Except.bind]

theorem redFaddS_does {s t : State} {p : Bool} {a b : Reg} {pa va : Nat} (h : Calm s) (he : s.inEvent = false)
    (hc : checkVa s .store (s.x a) 4 = .ok (t, pa, va)) :
    (t.launch.det = false → Does (.redFaddS p a b) s (t.postCommit (.reduce .fadd pa 4 (opW b t)))) ∧
    (t.launch.det = true → Traps (.redFaddS p a b) s 26 (BitVec.ofNat 64 va)) := by
  refine ⟨fun hd => ?_, fun hd => run_trap h.toReady ?_⟩
  · refine run_calm (a := .seq) h ?_ ((Local.checkVa hc).trans (.postCommit t _)) (by decide) (by decide) ⟨nofun, nofun⟩
    simp only [notInEvent_of he, hc, hd, Bool.false_eq_true, if_false, bind, Except.bind]
  · simp only [notInEvent_of he, hc, hd, if_true, bind, Except.bind]

theorem ofNat_low_bits (w : Nat) (t : BitVec 128) : BitVec.ofNat w (t.toNat % 2 ^ w) = t.setWidth w := by
  apply BitVec.eq_of_toNat_eq
  rw [BitVec.toNat_ofNat, Nat.mod_mod, BitVec.toNat_setWidth]

/-- Settles O18. `Tests.witness_posted` meets the premises. -/
theorem reductions : Obligations.Reductions := by
  refine ⟨fun s t p a b pa va h he => ⟨fun hc => ?_, fun hc => ?_, fun hc => redFxa_does h he hc⟩, fun old t =>
    ⟨fun n => rfl, fun n => rfl, fun n => rfl, fun n => rfl, fun n _ _ => ?_, fun n _ _ => ?_⟩⟩
  · obtain ⟨hadd, hdet⟩ := redFaddS_does (p := p) (b := b) h he hc
    exact ⟨reduce_does h he hc, reduce_does h he hc, reduce_does h he hc, hadd, hdet⟩
  · exact ⟨reduce_does h he hc, reduce_does h he hc, reduce_does h he hc, reduce_does h he hc, reduce_does h he hc,
      reduce_does h he hc⟩
  · simp only [reduceValue]
    split
    · next hlt => rw [ofNat_low_bits, Int.min_eq_right (Int.le_of_lt hlt)]
    · next hge => rw [Int.min_eq_left (Int.not_lt.1 hge)]
  · simp only [reduceValue]
    split
    · next hlt => rw [ofNat_low_bits, Int.max_eq_right (Int.le_of_lt hlt)]
    · next hge => rw [Int.max_eq_left (Int.not_lt.1 hge)]

/-! ## Queued reservations (R96 to R99) -/

/-- LRW of a word on this device asks for the reservation, or raises QUEUEBAD. -/
theorem lrw_does {s t : State} {p : Bool} {n : Nat} {d a : Reg} {pa va : Nat} (h : Calm s) (he : s.inEvent = false)
    (hc : checkVa s .store (s.x a) n = .ok (t, pa, va)) (hpl : t.placeOf pa = .own) :
    let held := t.holds t.cur pa || t.awaits t.cur pa || decide (4 ≤ (t.heldWords t.cur).length)
    (held = false → runInstr p none [.x a, .x d] (lrwBody n d a) s =
      .next ((completed ((t.capture (.reg (.x d))).postCommit (.lrwRequest pa n d)) (s.pc + 4)
        (.wait (.reservation pa n d t.pc (BitVec.ofNat 64 va)))).cutChunk s.cur 5)) ∧
    (held = true → runInstr p none [.x a, .x d] (lrwBody n d a) s = .next (takeTrap s 55 (BitVec.ofNat 64 va))) := by
  refine ⟨fun hh => ?_, fun hh => run_trap h.toReady ?_⟩
  · refine run_ends (code := 5) (w := some (.reservation pa n d t.pc (BitVec.ofNat 64 va))) h ?_
      ((Local.checkVa hc).trans ((Local.capture t (.reg (.x d))).trans (.postCommit _ _)))
      (by have := undoSize_reg_le (.x d); omega) (by decide) (by decide)
    simp only [lrwBody, notInEvent_of he, noRewrite_of_ready h.toReady, hc, hpl, hh, ne_eq, not_true, Bool.false_eq_true, if_false,
      bind, Except.bind]
  · simp only [lrwBody, notInEvent_of he, noRewrite_of_ready h.toReady, hc, hpl, hh, ne_eq, not_true, if_false, if_true,
      bind, Except.bind]

/-- SCH of a word that the thread holds stores to it and hands it over; of another it raises QUEUEBAD. -/
theorem sch_does {s t u : State} {p : Bool} {n : Nat} {a b : Reg} {pa va : Nat} (h : Ready s) (he : s.inEvent = false)
    (hc : checkVa s .store (s.x a) n = .ok (t, pa, va)) :
    (t.holds t.cur pa = false → runInstr p none [.x a, .x b] (schBody n a b) s = .next (takeTrap s 55 (BitVec.ofNat 64 va))) ∧
    (t.holds t.cur pa = true → writePlain t pa va (leBytes n (t.x b).toNat) = .ok u →
      Fits (completed (u.postCommit (.handover pa)) (s.pc + 4) .ready) →
      runInstr p none [.x a, .x b] (schBody n a b) s = .next (completed (u.postCommit (.handover pa)) (s.pc + 4) .ready)) := by
  refine ⟨fun hh => run_trap h ?_, fun hh hw => run_stores h ?_ ⟨_, _, (Local.checkVa hc).trans ((Local.writePlain hw).trans (.postCommit u _))⟩⟩
  · simp only [schBody, notInEvent_of he, hc, hh, Bool.not_false, if_true, bind, Except.bind]
  · simp only [schBody, notInEvent_of he, hc, hh, hw, Bool.not_true, Bool.false_eq_true, if_false, bind, Except.bind]

/-- A register's long-latency result is within what one instruction captures. -/
theorem setLong_room (d : Reg) (w : Word) : 0 + (undoSize (.reg (RegVal.x d w).name) + 32) ≤ 8192 := by
  have := undoSize_reg_le (RegVal.x d w).name
  omega

/-- Settles O19. `Tests.witness_reservation` meets the premises. -/
theorem queuedReservations : Obligations.QueuedReservations := by
  refine ⟨fun s t p d a pa va h he => ⟨fun hc hpl => lrw_does h he hc hpl, fun hc hpl => lrw_does h he hc hpl⟩,
    fun s t u p a b pa va h he => ⟨fun hc => sch_does h he hc, fun hc => sch_does h he hc⟩, fun s t p d a pa va h hc hpl hp => ?_⟩
  refine run_calm (a := .seq) h ?_ ((Local.checkVa hc).trans (.setLong t _ _ _)) (setLong_room ..) (by decide) ⟨nofun, nofun⟩
  simp only [hc, hpl, hp, ne_eq, not_true, decide_false, Bool.or_self, Bool.false_eq_true, if_false, bind, Except.bind]

end Sys2Proof.Machine
end

section
/-!
PROOFS. Relaxed stores and acquire loads (05_scalar R100 to R102, 25_system R349).
-/
namespace Sys2Proof.Machine

/-! ## Relaxed stores (R100, R101) -/

theorem needScope_of {w : Word} (h : (scopeOf w).isSome = true) : ∃ f, needScope w = .ok f := by
  obtain ⟨f, hf⟩ := Option.isSome_iff_exists.1 h
  exact ⟨f, by rw [needScope, hf]⟩

theorem needScope_bad {w : Word} (h : scopeOf w = none) : needScope w = .error (.trap 30 w) := by
  rw [needScope, h]

theorem stx_does {s t : State} {p : Bool} {n : Nat} {a b : Reg} {pa va : Nat} (h : Calm s) (he : s.inEvent = false)
    (hc : checkVaBy s (n = 8) .store (s.x a) n = .ok (t, pa, va)) :
    runInstr p none [.x a, .x b] (stxBody n a b) s =
      .next (completed (t.postCommit (.relaxed pa (leBytes n (t.x b).toNat) false)) (s.pc + 4) .ready) := by
  refine run_calm (a := .seq) h ?_ ((Local.checkVaBy hc).trans (.postCommit t _)) (by decide) (by decide) ⟨nofun, nofun⟩
  simp only [stxBody, notInEvent_of he, hc, bind, Except.bind]

theorem stxRel_does {s t : State} {p : Bool} {n : Nat} {a b d : Reg} {pa va : Nat} (h : Calm s) (he : s.inEvent = false)
    (hs : (scopeOf (s.x d)).isSome = true) (hc : checkVaBy s (n = 8) .store (s.x a) n = .ok (t, pa, va)) :
    runInstr p none [.x a, .x b, .x d] (stxRelBody n a b d) s =
      .next (completed (t.postCommit (.storeRel (t.x d) pa (leBytes n (t.x b).toNat))) (s.pc + 4) .ready) := by
  obtain ⟨f, hf⟩ := needScope_of hs
  refine run_calm (a := .seq) h ?_ ((Local.checkVaBy hc).trans (.postCommit t _)) (by decide) (by decide) ⟨nofun, nofun⟩
  simp only [stxRelBody, notInEvent_of he, hf, hc, bind, Except.bind]

theorem stxRel_traps {s : State} {p : Bool} {n : Nat} {a b d : Reg} (h : Calm s) (he : s.inEvent = false)
    (hs : scopeOf (s.x d) = none) :
    runInstr p none [.x a, .x b, .x d] (stxRelBody n a b d) s = .next (takeTrap s 30 (s.x d)) := by
  refine run_trap h.toReady ?_
  simp only [stxRelBody, notInEvent_of he, needScope_bad hs, bind, Except.bind]

/-! ## Acquire loads (R102) -/

/-- Entering a read changes nothing that the thread sees as its own writes. -/
theorem ownByte_enterRead (s : State) (pa n va a : Nat) : (s.enterRead pa n va).ownByte s.cur a = s.ownByte s.cur a := by
  have k : SameSight s (s.enterRead pa n va) := by
    unfold State.enterRead State.modChunk
    exact .modTh _ (fun _ => rfl) fun _ => rfl
  have hth : (s.enterRead pa n va).thr s.cur = (s.enterRead pa n va).th := rfl
  have hs : s.thr s.cur = s.th := rfl
  have hw : (s.enterRead pa n va).th.chunk.writes = s.th.chunk.writes := by
    rw [State.enterRead, State.modChunk_eq, State.th_setThr_cur]
  simp only [State.ownByte, hth, hs, chunkByte, k.post, k.older, k.flights, hw]

theorem Local.askFar (s : State) (kind : FarKind) (pa : Nat) : Local 0 0 s (s.askFar kind pa).1 :=
  Local.then0 (t := { s with far := s.far ++ [({ tid := s.cur, num := s.th.farNext, kind := kind, pa := pa, served := false } : FarReq)] })
    (.of_threads rfl rfl) (Local.modTh (f := fun th => { th with farNext := s.th.farNext + 1 }) ⟨rfl, rfl, rfl, rfl⟩)

/-- LDA of a word reads it at its home, or asks its peer device for it (R102, R150). -/
theorem lda_body {s t : State} {n : Nat} {d a b : Reg} {pa va : Nat} (hs : (scopeOf (s.x b)).isSome = true)
    (hc : checkVa s .load (s.x a) n = .ok (t, pa, va)) (hl : t.ldaWait = none) (hp : t.poisonedFor pa = false)
    (hi : t.invalWaits t.th.core pa = false) (hh : t.homeTainted pa = false) :
    let v := RegVal.x d (signExt (8 * n) (leNat (t.homeView pa n)))
    let own := (List.range n).all fun i => (t.ownByte t.cur (pa + i)).isSome
    (t.isFar pa = false ∨ own = true → ldaBody n d a b s = .ok ((t.enterRead pa n va).setLong .far v none, .seq)) ∧
    (t.isFar pa = true → own = false → t.farCount t.cur < 1024 →
      let mine := (List.range n).filterMap fun i => (t.ownByte t.cur (pa + i)).map fun b => (i, b)
      let q := (t.enterRead pa n va).askFar (.lda n d mine) pa
      ldaBody n d a b s = .ok (q.1.setLong .far v (some q.2), .seq)) := by
  obtain ⟨f, hf⟩ := needScope_of hs
  have hfar : (t.enterRead pa n va).isFar pa = t.isFar pa := rfl
  have hcount : (t.enterRead pa n va).farCount (t.enterRead pa n va).cur = t.farCount t.cur := rfl
  have hown : ∀ i, (t.enterRead pa n va).ownByte (t.enterRead pa n va).cur (pa + i) = t.ownByte t.cur (pa + i) :=
    fun i => ownByte_enterRead t pa n va (pa + i)
  intro v own
  refine ⟨fun ho => ?_, fun hfr ho hroom => ?_⟩
  · have hcond : (t.isFar pa && !own) = false := by
      rcases ho with ho | ho
      · rw [ho, Bool.false_and]
      · rw [ho, Bool.not_true, Bool.and_false]
    simp only [ldaBody, hf, hc, hl, hp, hi, hh, hfar, bind, Except.bind, Option.isSome_none, Bool.false_eq_true, if_false]
    exact if_neg (ne_true_of_eq_false hcond)
  · have hcond : (t.isFar pa && !own) = true := by rw [hfr, ho]; rfl
    intro mine q
    simp only [ldaBody, hf, hc, hl, hp, hi, hh, hfar, bind, Except.bind, Option.isSome_none, Bool.false_eq_true, if_false, hcount,
      Nat.not_le.2 hroom, hown]
    exact if_pos hcond

/-- The completion of an LDA whose body is known. -/
theorem lda_does {p : Bool} {body : Body} {s t u : State} {regs : List RegName} {d : Reg} {w : Word} {f : Option Nat} (h : Calm s)
    (kt : Local 0 0 s t) (ku : Local 0 0 t u) (hb : body s = .ok (u.setLong .far (.x d w) f, .seq)) :
    runInstr p none regs body s = .next (completed (u.setLong .far (.x d w) f) (s.pc + 4) .ready) :=
  run_calm (a := .seq) h hb ((kt.trans ku).trans (.setLong u _ _ _)) (setLong_room d w) (by decide) ⟨nofun, nofun⟩

/-- A read of BAR0 changes the debug modules alone. -/
theorem Local.bar0Read (s : State) (off : Nat) : Local 0 0 s (bar0Read s off).1 := by
  have hdata : ∀ k, Local 0 0 s (readDmdata s k) := by
    intro k
    unfold readDmdata
    split <;> exact .of_threads rfl rfl
  have hmem : ∀ k, Local 0 0 s (readDmmem s k) := by
    intro k
    unfold readDmmem
    split
    · exact .ite (.of_threads rfl rfl) (.of_threads rfl rfl)
    · exact .refl s
    · exact .of_threads rfl rfl
  unfold Machine.bar0Read
  dsimp only
  split
  · exact .ite (hdata _) (.refl s)
  · exact .ite (hmem _) (.refl s)
  · exact .refl s

/-- LDA.D in the device alias reads the register (R349). -/
theorem ldaD_alias {s t : State} {p : Bool} {d a b : Reg} {pa va : Nat} (h : Calm s) (hs : (scopeOf (s.x b)).isSome = true)
    (hc : checkVaBy s true .load (s.x a) 8 = .ok (t, pa, va)) (hal : t.inAlias pa = true) (hl : t.ldaWait = none)
    (hi : t.invalWaits t.th.core pa = false) (hw : bar0Waits t (t.aliasOff pa) .load = false)
    (ho : (List.range 8).mapM (fun i => t.ownByte t.cur (pa + i)) = none) :
    Does (.ldaD p d a b) s (((bar0Read t (t.aliasOff pa)).1.enterRead pa 8 va).setLong .far (.x d (bar0Read t (t.aliasOff pa)).2) none) := by
  obtain ⟨f, hf⟩ := needScope_of hs
  refine lda_does h (Local.checkVaBy hc) ((Local.bar0Read t _).trans (.enterRead _ pa 8 va)) ?_
  simp only [hf, hc, hal, hl, hi, hw, ho, bind, Except.bind, Option.isSome_none, Bool.or_self, Bool.false_eq_true, if_false, if_true]

/-- LDA.D of memory is LDA (R102). -/
theorem ldaD_memory {s t t' u : State} {p : Bool} {d a b : Reg} {pa va : Nat} {w : Word} {f : Option Nat} (h : Calm s)
    (hs : (scopeOf (s.x b)).isSome = true) (hc : checkVaBy s true .load (s.x a) 8 = .ok (t', pa, va)) (hal : t'.inAlias pa = false)
    (kt : Local 0 0 s t) (ku : Local 0 0 t u) (hb : ldaBody 8 d a b s = .ok (u.setLong .far (.x d w) f, .seq)) :
    Does (.ldaD p d a b) s (u.setLong .far (.x d w) f) := by
  obtain ⟨g, hg⟩ := needScope_of hs
  refine lda_does h kt ku (Eq.trans ?_ hb)
  simp only [hg, hc, hal, bind, Except.bind, Bool.false_eq_true, if_false]

/-- Settles O20. `Tests.witness_relaxed` meets the premises. -/
theorem relaxedAccess : Obligations.RelaxedAccess := by
  refine ⟨fun s t p a b d pa va h he => ⟨fun hc => ⟨stx_does h he hc, fun hs => stxRel_does h he hs hc⟩,
    fun hc => ⟨stx_does h he hc, fun hs => stxRel_does h he hs hc⟩, fun hs => ⟨stxRel_traps h he hs, stxRel_traps h he hs⟩⟩,
    fun s t p d a b pa va h => ⟨fun hs => ⟨run_trap h.toReady ?_, run_trap h.toReady ?_⟩, ?_, ?_, ?_⟩⟩
  · simp only [ldaBody, needScope_bad hs, bind, Except.bind]
  · simp only [needScope_bad hs, bind, Except.bind]
  · intro hs hc hl hp hi hh v own
    obtain ⟨hnear, hfar⟩ := lda_body (d := d) hs hc hl hp hi hh
    exact ⟨fun ho => lda_does h (Local.checkVa hc) (.enterRead t pa 4 va) (hnear ho), fun hf ho hr =>
      lda_does h (Local.checkVa hc) ((Local.enterRead t pa 4 va).trans (.askFar ..)) (hfar hf ho hr)⟩
  · exact fun hs hc hal hl hi hw ho => ldaD_alias h hs hc hal hl hi hw ho
  · intro hs hcb hal hc hl hp hi hh v own
    obtain ⟨hnear, hfar⟩ := lda_body (d := d) hs hc hl hp hi hh
    exact ⟨fun ho => ldaD_memory h hs hcb hal (Local.checkVa hc) (.enterRead t pa 8 va) (hnear ho), fun hf ho hr =>
      ldaD_memory h hs hcb hal (Local.checkVa hc) ((Local.enterRead t pa 8 va).trans (.askFar ..)) (hfar hf ho hr)⟩

end Sys2Proof.Machine
end

section
/-!
PROOFS. Vector arithmetic, comparisons, conversions, reductions and vector memory (13_vector_tile R180 to R195).
-/
namespace Sys2Proof.Machine

/-! ## Arithmetic and functions (R177, R186) -/

theorem fmtArith_iff {f : Nat} : fmtArith f = true ↔ 1 ≤ f ∧ f ≤ 9 := by simp [fmtArith]

theorem fmtArith_eq_false_iff {f : Nat} : fmtArith f = false ↔ f = 0 ∨ 9 < f := by
  rw [← Bool.not_eq_true, fmtArith_iff]; omega

theorem fmtFn_iff {f : Nat} : fmtFn f = true ↔ 5 ≤ f ∧ f ≤ 7 := by
  simp only [fmtFn, Bool.or_eq_true, beq_iff_eq]; omega

theorem fmtFn_eq_false_iff {f : Nat} : fmtFn f = false ↔ f < 5 ∨ 7 < f := by
  rw [← Bool.not_eq_true, fmtFn_iff]; omega

theorem arithmetic_typeChecked (p : Bool) (g : BitVec 3) (d a b : Reg) :
    ∀ i ∈ [Instr.vadd p g d a b, .vsub p g d a b, .vmul p g d a b, .vfma p g d a b, .vfms p g d a b, .vmin p g d a b,
      .vmax p g d a b, .vabs p g d a, .vneg p g d a], TypeChecked fmtArith i := by
  simp only [List.forall_mem_cons, List.not_mem_nil, false_implies, implies_true, and_true]
  and_intros <;> exact fun _ => ⟨_, _, _, rfl⟩

theorem functions_typeChecked (p : Bool) (g : BitVec 3) (d a : Reg) :
    ∀ i ∈ [Instr.vrcp p g d a, .vrsqrt p g d a, .vexp2 p g d a, .vlog2 p g d a], TypeChecked fmtFn i := by
  simp only [List.forall_mem_cons, List.not_mem_nil, false_implies, implies_true, and_true]
  and_intros <;> exact fun _ => ⟨_, _, _, rfl⟩

/-- Settles O21: each function is element-wise under a type check. `Tests.witness_vector` and `Tests.witness_vtype` meet
the premises. -/
theorem vectorArithmetic : Obligations.VectorArithmetic := by
  intro s p g d a b h t ar fn
  refine ⟨fun h1 h9 => ?_, fun h5 h7 => ?_, fun hbad i hi => ?_, fun hbad i hi => ?_⟩
  · have hok : fmtArith t.fmt = true := fmtArith_iff.2 ⟨h1, h9⟩
    exact ⟨run_elementwise h hok, run_elementwise h hok, run_elementwise h hok, run_elementwise h hok, run_elementwise h hok,
      run_elementwise h hok, run_elementwise h hok, run_elementwise h hok, run_elementwise h hok⟩
  · have hok : fmtFn t.fmt = true := fmtFn_iff.2 ⟨h5, h7⟩
    exact ⟨run_elementwise h hok, run_elementwise h hok, run_elementwise h hok, run_elementwise h hok⟩
  · exact (arithmetic_typeChecked p g d a b i hi).traps h.toReady (fmtArith_eq_false_iff.2 hbad)
  · exact (functions_typeChecked p g d a i hi).traps h.toReady (fmtFn_eq_false_iff.2 hbad)

/-! ## Comparisons, conversions and reductions (R178, R188, R190, R191) -/

theorem cmp_typeChecked (p : Bool) (g d : BitVec 3) (v a b : Reg) (fmt : BitVec 4) (u : Bool) :
    ∀ i ∈ [Instr.vcmplt p g d a b, .vcmple p g d a b, .vrsum p g v a, .vrmax p g v a, .vrmin p g v a, .vcvt p g v a fmt u],
      TypeChecked fmtArith i := by
  simp only [List.forall_mem_cons, List.not_mem_nil, false_implies, implies_true, and_true]
  and_intros <;> exact fun _ => ⟨_, _, _, rfl⟩

theorem vcmpeq_typeChecked (p : Bool) (g d : BitVec 3) (a b : Reg) : TypeChecked fmtAny (.vcmpeq p g d a b) :=
  fun _ => ⟨_, _, _, rfl⟩

/-- Settles O23. `Tests.witness_vector` and `Tests.witness_vtype` meet the premises. -/
theorem vectorComparisonConversionReduction : Obligations.VectorComparisonConversionReduction := by
  intro s p g d v a b fmt u h t e r cmp red vt
  have start {ok} (hok : ok t.fmt = true) : vecStart s ok = .ok t := vecStart_accepted h.results hok
  refine ⟨fun hbad => ?_, fun hbad i hi => ?_, fun h1 h9 hbad => ?_, fun h9 => ?_, fun h1 h9 => ?_⟩
  · exact (vcmpeq_typeChecked p g d a b).traps h.toReady (fmtAny_eq_false_iff.2 hbad)
  · exact (cmp_typeChecked p g d v a b fmt u i hi).traps h.toReady (fmtArith_eq_false_iff.2 hbad)
  · refine run_trap h.toReady ?_
    rw [start (fmtArith_iff.2 ⟨h1, h9⟩)]
    exact if_pos (by rw [fmtArith_eq_false_iff.2 hbad]; rfl)
  · refine run_orFlags_enterVec h ?_
    rw [cmpBody, if_pos rfl, start (fmtAny_iff.2 h9)]
    rfl
  · have hok := start (fmtArith_iff.2 ⟨h1, h9⟩)
    refine ⟨run_orFlags_enterVec h ?_, run_orFlags_enterVec h ?_, run_orFlags_enterVec h ?_, run_orFlags_enterVec h ?_,
      run_orFlags_enterVec h ?_, fun d1 d9 => ?_⟩
    · rw [cmpBody, if_neg (by decide), hok]; rfl
    · rw [cmpBody, if_neg (by decide), hok]; rfl
    · rw [reduceVecBody, hok]; rfl
    · rw [reduceVecBody, hok]; rfl
    · rw [reduceVecBody, hok]; rfl
    · intro ed c
      refine run_orFlags_enterVec h ?_
      rw [hok]
      exact if_neg (by rw [fmtArith_iff.2 ⟨d1, d9⟩]; decide)

/-! ## Vector memory (R193 to R195) -/

theorem vectorMemory_typeChecked (p : Bool) (g : BitVec 3) (d a b : Reg) :
    ∀ i ∈ [Instr.vld p g d a, .vlds p g d a b, .vgath p g d a b, .vst p g d a, .vsts p g d a b, .vscat p g d a b, .vldl p g d a,
      .vstl p g d a], TypeChecked fmtAny i := by
  simp only [List.forall_mem_cons, List.not_mem_nil, false_implies, implies_true, and_true]
  and_intros <;> exact fun _ => ⟨_, _, _, rfl⟩

/-- A valid pointer names its own address. -/
theorem pointerAddr_zero {w : Word} (h : ptrOk w = true) : pointerAddr w 0 = .ok (bits w 55 0) := by
  have hlt : bits w 55 0 < 2 ^ 56 := Nat.mod_lt _ (Nat.two_pow_pos _)
  simp only [pointerAddr, h, Bool.not_true, Bool.false_eq_true, if_false]
  rw [if_pos (by omega)]
  simp

theorem Local.readElems {s t : State} {pl : LocalPlace} {la n : Nat} {is : List Nat} {bs : List (List Byte)}
    (h : readElems s pl la n is = .ok (t, bs)) : Local 0 0 s t := by
  induction is generalizing s bs with
  | nil => cases h; exact .refl _
  | cons i is ih =>
    simp only [Machine.readElems] at h
    split at h
    · cases h
    · next h1 =>
      split at h
      · cases h
      · next h2 => cases h; exact (Local.localRead h1).trans (ih h2)

theorem Local.writeElems {s t : State} {pl : LocalPlace} {la : Word} {l : List (Nat × List Byte)}
    (h : writeElems s pl la l = .ok t) : ∃ n m, Local n m s t := by
  induction l generalizing s with
  | nil => cases h; exact ⟨_, _, .refl _⟩
  | cons x l ih =>
    obtain ⟨o, b⟩ := x
    simp only [Machine.writeElems] at h
    split at h
    · cases h
    · next h1 =>
      obtain ⟨n, m, k⟩ := ih h
      exact ⟨_, _, (Local.localWrite h1).trans k⟩

/-- A vector load of any form gives the active elements what stands at their addresses. -/
theorem vload_does {s t : State} {p : Bool} {regs : List RegName} {g : BitVec 3} {d a : Reg} {m : VMem} {addrs : List Nat}
    {bs : List (List Byte)} (h : Calm s) :
    let ty := vtypeOf s.th.regs.csr.vtype
    let e := fmtBits ty.fmt
    let is := activeList (s.p g) e
    ty.fmt ≤ 9 → ptrOk (s.x a) = true → elemAddrs (s.x a) (vmemOffset s ty m) is = .ok addrs →
    loadMany s (e / 8) false addrs = .ok (t, bs) →
    runInstr p none regs (vloadBody m g d a) s =
      .next (completed (t.enterVec .vector (some (.v d (vecOf e (placeElems e (elems e (s.v d)) is bs))))) (s.pc + 4) .ready) := by
  intro ty e is h9 hp ha hl
  refine run_calm (a := .seq) h ?_ ((Local.loadMany hl).trans (.enterVec t _ _)) ?_ (by decide) ⟨nofun, nofun⟩
  · simp only [vloadBody, vecStart_accepted h.results (fmtAny_iff.2 h9), pointerAddr_zero hp, bind, Except.bind]
    rw [ha]
    dsimp only
    rw [hl]
  · have := undoSize_reg_le (.v d)
    simp only [RegVal.name, Option.elim]
    omega

/-- A vector store of any form writes the active elements in ascending order. -/
theorem vstore_stores {s t : State} {p : Bool} {regs : List RegName} {g : BitVec 3} {d a : Reg} {m : VMem} {addrs : List Nat}
    (h : Ready s) :
    let ty := vtypeOf s.th.regs.csr.vtype
    let e := fmtBits ty.fmt
    let is := activeList (s.p g) e
    ty.fmt ≤ 9 → ptrOk (s.x a) = true → elemAddrs (s.x a) (vmemOffset s ty m) is = .ok addrs →
    storeMany s (addrs.zip (is.map fun i => leBytes (e / 8) (s.elem ty d i))) = .ok t →
    Fits (completed (t.enterVec .vector none) (s.pc + 4) .ready) →
    runInstr p none regs (vstoreBody m g d a) s = .next (completed (t.enterVec .vector none) (s.pc + 4) .ready) := by
  intro ty e is h9 hp ha hl
  obtain ⟨n, k⟩ := Lines.storeMany hl
  refine run_stores h ?_ ⟨_, _, k.trans (.enterVec t _ _)⟩
  simp only [vstoreBody, vecStart_accepted h.results (fmtAny_iff.2 h9), pointerAddr_zero hp, bind, Except.bind]
  rw [ha]
  dsimp only
  rw [hl]

/-- Settles O25. `Tests.witness_vector_memory` and `Tests.witness_vector_local` meet the premises. -/
theorem vectorMemory : Obligations.VectorMemory := by
  refine ⟨fun s p g d a b h hbad i hi => ?_, ?_, ?_, ?_⟩
  · exact (vectorMemory_typeChecked p g d a b i hi).traps h.toReady (fmtAny_eq_false_iff.2 hbad)
  · intro s t p g d a b m addrs bs h ty e is r h9 hp ha hl
    refine ⟨?_, ?_, ?_⟩ <;> rintro rfl <;> exact vload_does h h9 hp ha hl
  · intro s t p g d a b m addrs h ty e is h9 hp ha hl
    refine ⟨?_, ?_, ?_⟩ <;> rintro rfl <;> exact vstore_stores h h9 hp ha hl
  · intro s t p g d a pl bs h ty e is h9 hpl
    have start : vecStart s fmtAny = .ok ty := vecStart_accepted h.results (fmtAny_iff.2 h9)
    refine ⟨fun hr => run_stores h ?_ ⟨_, _, (Local.readElems hr).trans (.enterVec t _ _)⟩, fun hw => ?_⟩
    · simp only [start, hpl, bind, Except.bind]
      rw [hr]
    · obtain ⟨n, k, hk⟩ := Local.writeElems hw
      refine run_stores h ?_ ⟨_, _, hk.trans (.enterVec t _ _)⟩
      simp only [start, hpl, bind, Except.bind]
      rw [hw]

end Sys2Proof.Machine
end

section
/-!
PROOFS. Tiles: movements, accumulator tiles, products and generation (13_vector_tile R196 to R210).
-/
namespace Sys2Proof.Machine

/-! ## Tile instructions in a slot with tile state (R21) -/

/-- A run of changes within the frame, of whatever size. -/
def Within (s t : State) : Prop := ∃ n m, Local n m s t

theorem Within.refl (s : State) : Within s s := ⟨_, _, .refl s⟩

theorem Within.trans {s t u : State} (h : Within s t) (k : Within t u) : Within s u := by
  obtain ⟨n, m, h⟩ := h
  obtain ⟨n', m', k⟩ := k
  exact ⟨_, _, h.trans k⟩

theorem Local.within {n m : Nat} {s t : State} (h : Local n m s t) : Within s t := ⟨n, m, h⟩

theorem Lines.within {s t : State} (h : Lines s t) : Within s t := h.elim fun _ k => k.within

theorem bind_ok {α β : Type} {x : Except Stop α} {a : α} {f : α → Except Stop β} (h : x = .ok a) : (x >>= f) = f a := by
  rw [h]; rfl

theorem bind_error {α β : Type} {x : Except Stop α} {e : Stop} {f : α → Except Stop β} (h : x = .error e) : (x >>= f) = .error e := by
  rw [h]; rfl

/-- What holds from each state of a fold to the next holds from its first to its last. -/
theorem foldlM_rel {σ β : Type} {R : σ → σ → Prop} (hr : ∀ x, R x x) (ht : ∀ {x y z : σ}, R x y → R y z → R x z)
    {f : σ → β → Except Stop σ} (hf : ∀ x b y, f x b = .ok y → R x y) (l : List β) {x y : σ} (h : l.foldlM f x = .ok y) : R x y := by
  induction l generalizing x with
  | nil => cases h; exact hr _
  | cons b l ih =>
    rw [List.foldlM_cons] at h
    cases hb : f x b with
    | error e => rw [hb] at h; cases h
    | ok z => rw [hb] at h; exact ht (hf x b z hb) (ih h)

section
variable {s t : State} {p : Bool} {i : Instr} {regs : List RegName} {body : Body}

theorem run_tile {n m : Nat} (h : Calm s) (htile : s.th.tile = true) (hb : body s = .ok (t, .seq)) (k : Local n m s t)
    (hn : n ≤ 8192) (hm : m ≤ 16) :
    runInstr p (needTile i s) regs body s = .next (completed t (s.pc + 4) .ready) := by
  rw [needTile_of_tile htile]
  exact run_calm h hb k hn hm ⟨nofun, nofun⟩

/-- The result of a tile instruction, given as a long-latency result, after what else it changes. -/
theorem run_tileResult {u : State} {n : Nat} {v : RegVal} (h : Calm s) (htile : s.th.tile = true)
    (hb : body s = .ok (u.setLong .tile v none, .seq)) (k : Local n 0 s u) (hn : n ≤ 4096) :
    runInstr p (needTile i s) regs body s = .next (completed (u.setLong .tile v none) (s.pc + 4) .ready) :=
  run_tile h htile hb (k.trans (.setLong u _ _ _)) (by have := undoSize_reg_le v.name; omega) (by decide)

theorem run_tileStores (h : Ready s) (htile : s.th.tile = true) (hb : body s = .ok (t, .seq)) (k : Within s t)
    (hf : Fits (completed t (s.pc + 4) .ready)) :
    runInstr p (needTile i s) regs body s = .next (completed t (s.pc + 4) .ready) := by
  rw [needTile_of_tile htile]
  exact run_stores h hb k hf

theorem run_tileTrap {cause : Nat} {tval : Word} (h : Ready s) (htile : s.th.tile = true)
    (hb : body s = .error (.trap cause tval)) : runInstr p (needTile i s) regs body s = .next (takeTrap s cause tval) := by
  rw [needTile_of_tile htile]
  exact run_trap h hb

end

theorem needShape_ok {w : BitVec 32} (h : (shapeFields w).ok = true) : needShape w = .ok (shapeFields w) := if_pos h

theorem needShape_bad {w : BitVec 32} (h : (shapeFields w).ok = false) : needShape w = .error (.trap 51 0) :=
  if_neg (ne_true_of_eq_false h)

theorem Local.setTshape (s : State) (n : BitVec 3) (w : BitVec 32) : Local 32 0 s (s.setTshape n w) :=
  Local.setCsr rfl rfl rfl

theorem Local.addTsat (s : State) (n : BitVec 3) (k : Nat) : Local 32 0 s (s.addTsat n k) := by
  unfold State.addTsat
  split
  · exact (Local.refl s).mono (by omega) (by omega)
  · exact Local.setCsr rfl rfl rfl

/-! ## Movements (R198, R200, R201) -/

theorem Local.loadSpan {s t : State} {l : List (Nat × Nat)} {bs : List Byte} (h : loadSpan s l = .ok (t, bs)) : Local 0 0 s t := by
  induction l generalizing s bs with
  | nil => cases h; exact .refl _
  | cons x l ih =>
    simp only [Machine.loadSpan] at h
    split at h
    · cases h
    · next h1 =>
      split at h
      · cases h
      · next h2 =>
        split at h
        · cases h
        · next h3 => cases h; exact ((Local.translateTh h1).trans (Local.readPlain h2)).trans (ih h3)

theorem Within.storeSpan {s t : State} {l : List (Nat × Nat)} {bs : List Byte} (h : storeSpan s bs l = .ok t) : Within s t := by
  induction l generalizing s bs with
  | nil => cases h; exact .refl _
  | cons x l ih =>
    simp only [Machine.storeSpan] at h
    split at h
    · cases h
    · next h1 => exact (Lines.storeAt h1).within.trans (ih h)

theorem Local.loadRows {s t : State} {h : Shape} {a : Reg} {pitched : Bool} {l : List Nat} {rows : List (List Byte)}
    (hl : loadRows s h a pitched l = .ok (t, rows)) : Local 0 0 s t := by
  induction l generalizing s rows with
  | nil => cases hl; exact .refl _
  | cons r l ih =>
    simp only [Machine.loadRows] at hl
    split at hl
    · cases hl
    · split at hl
      · cases hl
      · next h1 =>
        split at hl
        · cases hl
        · next h2 => cases hl; exact (Local.loadSpan h1).trans (ih h2)

theorem Within.storeRows {s t : State} {h : Shape} {a : Reg} {pitched : Bool} {v : Tile} {l : List Nat}
    (hl : storeRows s h a pitched v l = .ok t) : Within s t := by
  induction l generalizing s with
  | nil => cases hl; exact .refl _
  | cons r l ih =>
    simp only [Machine.storeRows] at hl
    split at hl
    · cases hl
    · split at hl
      · cases hl
      · next h1 => exact (Within.storeSpan h1).trans (ih hl)

theorem tfill_settled (s : State) (p : Bool) (td : BitVec 3) (a : Reg) (h : Calm s) (ht : s.th.tile = true) :
    let q := shapeFields (s.tshape td)
    (q.ok = true → q.fmt ≠ 11 →
      Does (.tfill p td a) s (s.setLong .tile (.tl td ⟨tileFrom q fun _ _ => ((s.x a).signExtend 128).toNat, 0⟩) none)) ∧
    (q.ok = false → Traps (.tfill p td a) s 51 0) := by
  refine ⟨fun hok h11 => run_tileResult (u := s) h ht ?_ (.refl s) (by decide), fun hbad => run_tileTrap h.toReady ht ?_⟩
  · simp only [needShape_ok hok, bind, Except.bind, h11, if_false]
    rfl
  · simp only [needShape_bad hbad, bind, Except.bind]

theorem ttrans_settled (s : State) (p : Bool) (td ta : BitVec 3) (h : Calm s) (ht : s.th.tile = true) :
    let w := s.tshape ta
    let q := shapeFields w
    let w' := (w &&& 0xFFFF000F) ||| BitVec.ofNat 32 ((q.k - 1) * 16 + (q.rows * q.e / 8 - 1) * 256)
    (q.ok = true → q.q4 = false → q.k ≤ 16 → q.rows * q.e / 8 ≤ 64 →
      Does (.ttrans p td ta) s ((s.setTshape td w').setLong .tile
        (.tl td ⟨tileFrom (shapeFields w') fun j i => tileElem (s.tl ta).bytes q.e i j, 0⟩) none)) ∧
    (q.ok = false ∨ q.q4 = true ∨ 16 < q.k ∨ 64 < q.rows * q.e / 8 → Traps (.ttrans p td ta) s 51 0) := by
  intro w q w'
  refine ⟨fun hok h4 hk hr => run_tileResult h ht ?_ (.setTshape s td w') (by decide), fun hbad => run_tileTrap h.toReady ht ?_⟩
  · have hc : (q.q4 || decide (16 < q.k) || decide (64 < q.rows * q.e / 8)) = false := by simp [h4, hk, hr]
    exact (bind_ok (needShape_ok hok)).trans (if_neg (ne_true_of_eq_false hc))
  · by_cases hok : q.ok = true
    · have hc : (q.q4 || decide (16 < q.k) || decide (64 < q.rows * q.e / 8)) = true := by
        rw [hok] at hbad
        simpa [or_assoc] using hbad
      exact (bind_ok (needShape_ok hok)).trans (if_pos hc)
    · exact bind_error (needShape_bad (eq_false_of_ne_true hok))

theorem tld_stores {s t : State} {p pitched : Bool} {td : BitVec 3} {a : Reg} {rows : List (List Byte)} (hr : Ready s)
    (ht : s.th.tile = true) (hp : ptrOk (s.x a) = true) :
    let f := bits (s.x a) 63 60
    let s1 := if f = 0 then s else s.setTshape td (tshapeFormat (s.tshape td) f (bits (s.x a) 59 56))
    let h1 := shapeFields (s1.tshape td)
    h1.ok = true → loadRows s1 h1 a pitched (List.range h1.rows) = .ok (t, rows) →
      let parts := rows.map (splitRow h1)
      Stores (.tld p td a pitched) s (t.setLong .tile (.tl td
        { bytes := rowsOf (parts.map fun q => leNat q.1), side := BitVec.ofNat 256 (leNat (parts.flatMap (·.2))) }) none) := by
  intro f s1 h1 hok hl parts
  have hs1 : Local 32 0 s s1 := .ite ((Local.refl s).mono (by omega) (by omega)) (.setTshape ..)
  refine run_tileStores hr ht ?_ ((hs1.trans (Local.loadRows hl)).trans (.setLong t _ _ _)).within
  exact (bind_ok (pointerAddr_zero hp)).trans ((bind_ok (needShape_ok hok)).trans (bind_ok hl))

theorem tst_settled {s t : State} {p pitched : Bool} {td : BitVec 3} {a : Reg} (hr : Ready s) (ht : s.th.tile = true)
    (hp : ptrOk (s.x a) = true) :
    let f := bits (s.x a) 63 60
    let w := s.tshape td
    let h := shapeFields w
    let other := f ≠ 0 ∧ (f ≠ (w.extractLsb' 0 4).toNat ∨ bits (s.x a) 59 56 ≠ (w.extractLsb' 28 4).toNat)
    (other → Traps (.tst p td a pitched) s 51 0) ∧
    (¬ other → h.ok = true → storeRows s h a pitched (s.tl td) (List.range h.rows) = .ok t → Stores (.tst p td a pitched) s t) := by
  intro f w h other
  refine ⟨fun ho => run_tileTrap hr ht ?_, fun ho hok hl => run_tileStores hr ht ?_ (Within.storeRows hl)⟩
  · exact (bind_ok (pointerAddr_zero hp)).trans (if_pos ho)
  · exact (bind_ok (pointerAddr_zero hp)).trans ((if_neg ho).trans ((bind_ok (needShape_ok hok)).trans (bind_ok hl)))

/-- Settles O27. `Tests.witness_tiles` and `Tests.witness_tile_memory` meet the premises. -/
theorem tileMovements : Obligations.TileMovements := by
  refine ⟨fun s p td ta a h ht => ⟨?_, ?_, tfill_settled s p td a h ht, ttrans_settled s p td ta h ht⟩,
    fun s t p pitched td a rows hr ht hp => ?_⟩
  · exact run_tileResult h ht rfl (.refl s) (by decide)
  · exact run_tileResult h ht rfl (.setTshape s td _) (by decide)
  · obtain ⟨hbad, hgood⟩ := tst_settled (t := t) (p := p) (pitched := pitched) (td := td) hr ht hp
    exact ⟨tld_stores hr ht hp, hbad, hgood⟩

/-! ## Accumulator tiles (R202, R203) -/

theorem accWindow_bad {s : State} {w : Word} (h : bits w 63 60 ≠ 3 ∨ bits w 59 0 % 64 ≠ 0 ∨ 262144 ≤ bits w 59 0) :
    accWindow s w = .error (.trap 52 w) := by
  refine if_neg ?_
  rintro ⟨h3, h64, -, hlim, -⟩
  omega

theorem acld_stores {s t : State} {p : Bool} {ac : BitVec 2} {a : Reg} {o : Nat} {rows : List Nat} (hr : Ready s)
    (ht : s.th.tile = true) (hw : accWindow s (s.x a) = .ok o)
    (hl : (List.range 16).foldlM (fun (st : State × List Nat) r => do
        let (s, b) ← bufRead st.1 .cb (o + r * 256) 64
        .ok (s, st.2 ++ [leNat b])) (s, []) = (Except.ok (t, rows) : Except Stop (State × List Nat))) :
    Stores (.acld p ac a) s (t.setLong .tile (.ta ac (rowsOf rows)) none) := by
  have k : Within s t := by
    refine foldlM_rel (R := fun x y => Within x.1 y.1) (fun _ => .refl _) .trans ?_ _ hl
    intro x r y hy
    cases hb : bufRead x.1 .cb (o + r * 256) 64 with
    | error e => rw [hb] at hy; cases hy
    | ok z => rw [hb] at hy; cases hy; exact (Local.bufRead hb).within
  refine run_tileStores hr ht ?_ (k.trans (Local.setLong t _ _ _).within)
  exact (bind_ok hw).trans (bind_ok hl)

theorem acst_settled {s : State} {p : Bool} {ac : BitVec 2} {a : Reg} {o : Nat} (hr : Ready s) (ht : s.th.tile = true)
    (hw : accWindow s (s.x a) = .ok o) :
    (∀ t, windowBusy (s.coreOf s.th.placeCore) o = (none, false) →
      (List.range 16).foldlM (fun (u : State) r =>
        bufPut u .cb (o + r * 256) (leBytes 64 ((s.ta ac).extractLsb' (r * 512) 512).toNat)) s = (Except.ok t : Except Stop State) →
      Stores (.acst p ac a) s t) ∧
    (∀ b c, windowBusy (s.coreOf s.th.placeCore) o = (some b, c) →
      Traps (.acst p ac a) s 25 (BitVec.ofNat 64 (3 * 2 ^ 60 + b))) := by
  refine ⟨fun t hb hl => run_tileStores hr ht ?_ ?_, fun b c hb => run_tileTrap hr ht ?_⟩
  · simp only [hw, hb, bind, Except.bind] at hl ⊢
    rw [hl]
  · exact foldlM_rel (R := Within) Within.refl .trans (fun _ _ _ hy => (Local.bufPut hy).within) _ hl
  · simp only [hw, hb, bind, Except.bind]

theorem tcvt_does (s : State) (p : Bool) (td : BitVec 3) (ac : BitVec 2) (hc : Calm s) (ht : s.th.tile = true) :
    let h := shapeFields (s.tshape td)
    let conv := fun (r c : Nat) =>
      match fmtFloat h.fmt with
      | some f => f.ofNum .rne true (fp32.num (tileElem (s.ta ac) 32 r c))
      | none => convFit h.e false true (intOf 32 false (tileElem (s.ta ac) 32 r c))
    let q := gather h.rows h.k fun r c => (conv r c).2
    h.ok = true → h.k ≤ 16 → (1 ≤ h.fmt ∧ h.fmt ≤ 3) ∨ (5 ≤ h.fmt ∧ h.fmt ≤ 9) →
      Does (.tcvt p td ac) s (((s.orFlags q.1).addTsat td q.2).setLong .tile (.tl td ⟨tileFrom h fun r c => (conv r c).1, 0⟩) none) := by
  intro h conv q hok hk hfmt
  refine run_tileResult hc ht ?_ ((Local.orFlags s q.1).trans (.addTsat _ td q.2)) (by decide)
  have hform : (!(decide (1 ≤ h.fmt) && decide (h.fmt ≤ 3) || decide (5 ≤ h.fmt) && decide (h.fmt ≤ 9)) || decide (16 < h.k)) = false := by
    simp only [Bool.or_eq_false_iff, Bool.not_eq_false', Bool.or_eq_true, Bool.and_eq_true, decide_eq_true_eq, decide_eq_false_iff_not]
    omega
  exact (bind_ok (needShape_ok hok)).trans (if_neg (ne_true_of_eq_false hform))

/-- Settles O28. `Tests.witness_accumulator` and `Tests.witness_tiles` meet the premises. -/
theorem accumulatorTiles : Obligations.AccumulatorTiles := by
  refine ⟨fun s p ac a h ht => ⟨run_tileResult h ht rfl (.refl s) (by decide), fun hbad => ?_⟩,
    fun s t p ac a o rows hr ht hw => ?_, fun s p td ac h ht => tcvt_does s p td ac h ht⟩
  · have hacc := accWindow_bad (s := s) hbad
    exact ⟨run_tileTrap h.toReady ht (by rw [hacc]; rfl), run_tileTrap h.toReady ht (by rw [hacc]; rfl)⟩
  · obtain ⟨hst, hbusy⟩ := acst_settled (p := p) (ac := ac) hr ht hw
    exact ⟨acld_stores hr ht hw, hst t, hbusy⟩

/-! ## Products (R205 to R209) -/

/-- One cell of a product, as `product` computes it (R173, R174). -/
def productCell (acc : BitVec 8192) (a b : MatOperand) (m n k i j : Nat) : Nat × BitVec 6 :=
  let old := tileElem acc 32 i j
  if i < m ∧ j < n then
    if a.fmt = 1 then
      let (v, sat) := intElement (intOf 32 false old) ((List.range k).map fun q => a.int i q * b.int j q)
      ((BitVec.ofInt 32 v).toNat, if sat then fSAT else 0)
    else matElement (groupLen a.fmt b.fmt) old ((List.range k).map fun q => numMul (a.num i q) (b.num j q))
  else (old, 0)

/-- A product from its cells. -/
def productOf (acc : BitVec 8192) (ints : Prop) [Decidable ints] (el : Nat → Nat → Nat × BitVec 6) :
    BitVec 8192 × BitVec 6 × Nat × Option (Nat × Nat) :=
  let cells := (List.range 16).map fun i => (List.range 16).map fun j => el i j
  let fl := cells.foldl (fun f r => r.foldl (fun f c => f ||| c.2) f) (0 : BitVec 6)
  let sat := if ints then cells.foldl (fun q r => q + (r.filter fun c => c.2 == fSAT).length) 0 else 0
  let news := if ints then [] else
    ((List.range 16).flatMap fun i => (List.range 16).map fun j => (i, j)).filter fun q =>
      isNan32 ((cells.getD q.1 []).getD q.2 (0, 0)).1 && !isNan32 (tileElem acc 32 q.1 q.2)
  (rowsOf (cells.map fun r => rowOf 32 (r.map (·.1))), fl, sat, news.head?)

theorem product_eq (acc : BitVec 8192) (a b : MatOperand) (m n k : Nat) :
    product acc a b m n k = productOf acc (a.fmt = 1) (productCell acc a b m n k) := rfl

/-- A product looks at no value of B beyond its columns and positions. -/
theorem product_congr {acc : BitVec 8192} {a b b' : MatOperand} {m n k : Nat} (hf : b.fmt = b'.fmt)
    (hnum : ∀ j < n, ∀ q < k, b.num j q = b'.num j q) (hint : ∀ j < n, ∀ q < k, b.int j q = b'.int j q) :
    product acc a b m n k = product acc a b' m n k := by
  have hcell : productCell acc a b m n k = productCell acc a b' m n k := by
    funext i j
    unfold productCell
    by_cases hij : i < m ∧ j < n
    · have h1 : ((List.range k).map fun q => a.int i q * b.int j q) = (List.range k).map fun q => a.int i q * b'.int j q :=
        List.map_congr_left fun q hq => by rw [hint j hij.2 q (List.mem_range.1 hq)]
      have h2 : ((List.range k).map fun q => numMul (a.num i q) (b.num j q)) = (List.range k).map fun q => numMul (a.num i q) (b'.num j q) :=
        List.map_congr_left fun q hq => by rw [hnum j hij.2 q (List.mem_range.1 hq)]
      simp only [h1, h2, hf]
    · simp only [hij, if_false]
  rw [product_eq, product_eq, hcell]

theorem gather_congr {m n : Nat} {f g : Nat → Nat → BitVec 6} (h : ∀ r < m, ∀ c < n, f r c = g r c) : gather m n f = gather m n g := by
  refine List.foldl_rel (r := Eq) rfl fun r hr x _ hx => ?_
  subst hx
  refine List.foldl_rel (r := Eq) rfl fun c hc y _ hy => ?_
  rw [hy, h r (List.mem_range.1 hr) c (List.mem_range.1 hc)]

/-- An element of a table of all elements. -/
theorem table_get {α : Type} (m n : Nat) (f : Nat → Nat → α) (d : α) {i j : Nat} (hi : i < m) (hj : j < n) :
    ((((List.range m).map fun i => (List.range n).map fun j => f i j).getD i []).getD j d) = f i j := by
  simp [hi, hj]

/-- Without NTRAP a product's result is a tile result. -/
theorem deliver_out {s : State} (hn : s.th.regs.csr.nctl = false) (td : BitVec 2)
    (r : BitVec 8192 × BitVec 6 × Nat × Option (Nat × Nat)) (fl : BitVec 6) (n : Nat) :
    deliver s td r fl n =
      .ok (((s.orFlags (r.2.1 ||| fl)).addTsat (td.setWidth 3) (r.2.2.1 + n)).setLong .tile (.ta td r.1) none, .seq) := by
  simp only [deliver, hn, Bool.false_eq_true, if_false]

/-- With NTRAP a product without a new NaN has returned at once. -/
theorem deliver_now {s : State} (hn : s.th.regs.csr.nctl = true) (td : BitVec 2)
    {r : BitVec 8192 × BitVec 6 × Nat × Option (Nat × Nat)} (hr : r.2.2.2 = none) (fl : BitVec 6) (n : Nat) :
    deliver s td r fl n =
      .ok ((((s.orFlags (r.2.1 ||| fl)).addTsat (td.setWidth 3) (r.2.2.1 + n)).markPending (.ta td)).modRegs (·.put (.ta td r.1)), .seq) := by
  simp only [deliver, hn, hr, if_true]

/-- With NTRAP a new NaN traps. -/
theorem deliver_nan {s : State} (hn : s.th.regs.csr.nctl = true) (td : BitVec 2)
    {r : BitVec 8192 × BitVec 6 × Nat × Option (Nat × Nat)} {i j : Nat} (hr : r.2.2.2 = some (i, j)) (fl : BitVec 6) (n : Nat) :
    deliver s td r fl n = .error (.trap 28 (BitVec.ofNat 64 (i * 256 + j))) := by
  simp only [deliver, hn, hr, if_true]

theorem readScales_none {s : State} {h : Shape} {t : Tile} (h4 : h.q4 = false) : readScales s h t = .ok (s, []) := by
  simp only [readScales, h4, Bool.not_false, if_true]

theorem Within.readScales {s t : State} {h : Shape} {v : Tile} {l : List Nat} (hr : readScales s h v = .ok (t, l)) : Within s t := by
  unfold Machine.readScales at hr
  split at hr
  · cases hr; exact .refl _
  · split at hr
    · cases hr; exact .refl _
    · refine foldlM_rel (R := fun x y => Within x.1 y.1) (fun _ => .refl _) .trans ?_ _ hr
      intro x j y hy
      split at hy
      · cases hy
      · cases hb : bufRead x.1 .st (h.sbase + j) 1 with
        | error e => rw [hb] at hy; cases hy
        | ok z => rw [hb] at hy; cases hy; exact (Local.bufRead hb).within

theorem local_product (s : State) (td : BitVec 2) (fl : BitVec 6) (n : Nat) :
    Local 64 0 s ((s.orFlags fl).addTsat (td.setWidth 3) n) :=
  (Local.orFlags s fl).trans (.addTsat _ _ n)

/-- On a calm thread a product that reads no scales is delivered. -/
theorem run_product {s : State} {p : Bool} {i : Instr} {regs : List RegName} {body : Body} {td : BitVec 2}
    {r : BitVec 8192 × BitVec 6 × Nat × Option (Nat × Nat)} {fl : BitVec 6} {n : Nat} (h : Calm s) (ht : s.th.tile = true)
    (hb : body s = deliver s td r fl n) :
    (s.th.regs.csr.nctl = false → runInstr p (needTile i s) regs body s = .next (completed
      (((s.orFlags (r.2.1 ||| fl)).addTsat (td.setWidth 3) (r.2.2.1 + n)).setLong .tile (.ta td r.1) none) (s.pc + 4) .ready)) ∧
    (s.th.regs.csr.nctl = true →
      (r.2.2.2 = none → runInstr p (needTile i s) regs body s = .next (completed
        ((((s.orFlags (r.2.1 ||| fl)).addTsat (td.setWidth 3) (r.2.2.1 + n)).markPending (.ta td)).modRegs (·.put (.ta td r.1)))
        (s.pc + 4) .ready)) ∧
      ∀ i' j, r.2.2.2 = some (i', j) →
        runInstr p (needTile i s) regs body s = .next (takeTrap s 28 (BitVec.ofNat 64 (i' * 256 + j)))) := by
  refine ⟨fun hn => ?_, fun hn => ⟨fun hr => ?_, fun i' j hr => ?_⟩⟩
  · exact run_tileResult h ht (hb.trans (deliver_out hn ..)) (local_product ..) (by decide)
  · have k := ((local_product s td (r.2.1 ||| fl) (r.2.2.1 + n)).trans (.markPending _ (.ta td))).trans (n' := 0) (m' := 0)
      (.modRegs (f := (·.put (.ta td r.1))) rfl rfl)
    exact run_tile h ht (hb.trans (deliver_now hn td hr ..)) k (by have := undoSize_reg_le (.ta td); omega) (by decide)
  · exact run_tileTrap h.toReady ht (hb.trans (deliver_nan hn td hr ..))

theorem no_conditions (f : BitVec 6) : f ||| 0 = f := BitVec.or_zero

/-- The same where nothing but the product itself counts conditions and saturations. -/
theorem run_plainProduct {s : State} {p : Bool} {i : Instr} {regs : List RegName} {body : Body} {td : BitVec 2}
    {r : BitVec 8192 × BitVec 6 × Nat × Option (Nat × Nat)} (h : Calm s) (ht : s.th.tile = true) (hb : body s = deliver s td r 0 0) :
    (s.th.regs.csr.nctl = false → runInstr p (needTile i s) regs body s = .next (completed
      (((s.orFlags r.2.1).addTsat (td.setWidth 3) r.2.2.1).setLong .tile (.ta td r.1) none) (s.pc + 4) .ready)) ∧
    (s.th.regs.csr.nctl = true →
      (r.2.2.2 = none → runInstr p (needTile i s) regs body s = .next (completed
        ((((s.orFlags r.2.1).addTsat (td.setWidth 3) r.2.2.1).markPending (.ta td)).modRegs (·.put (.ta td r.1)))
        (s.pc + 4) .ready)) ∧
      ∀ i' j, r.2.2.2 = some (i', j) →
        runInstr p (needTile i s) regs body s = .next (takeTrap s 28 (BitVec.ofNat 64 (i' * 256 + j)))) := by
  have k := run_product (p := p) (i := i) (regs := regs) h ht hb
  rwa [no_conditions, Nat.add_zero] at k

section
variable {s : State} (p tr : Bool) (ac : BitVec 2) (ta tb tm : BitVec 3) {n : Nat}

theorem tmma_settled (h : Calm s) (ht : s.th.tile = true) :
    let ha := shapeFields (s.tshape ta)
    let hb := shapeFields (s.tshape tb)
    let b := (tileOperand hb [] (s.tl tb)).turned tr
    let r := product (s.ta ac) (tileOperand ha [] (s.tl ta)) b ha.rows n ha.k
    ha.ok = true → hb.ok = true → ha.q4 = false → hb.q4 = false → fmtPairOk ha.fmt hb.fmt = true → bDims hb tr ha.k = some n →
      (s.th.regs.csr.nctl = false → Does (.tmma p ac ta tb tr) s
        (((s.orFlags r.2.1).addTsat (ac.setWidth 3) r.2.2.1).setLong .tile (.ta ac r.1) none)) ∧
      (s.th.regs.csr.nctl = true →
        (r.2.2.2 = none → Does (.tmma p ac ta tb tr) s
          ((((s.orFlags r.2.1).addTsat (ac.setWidth 3) r.2.2.1).markPending (.ta ac)).modRegs (·.put (.ta ac r.1)))) ∧
        ∀ i j, r.2.2.2 = some (i, j) → Traps (.tmma p ac ta tb tr) s 28 (BitVec.ofNat 64 (i * 256 + j))) := by
  intro ha hb b r hoka hokb h4a h4b hf hd
  have hdim : (if fmtPairOk ha.fmt hb.fmt then bDims hb tr ha.k else none) = some n := by rw [hf, if_pos rfl, hd]
  refine run_plainProduct h ht ((bind_ok (needShape_ok hoka)).trans ((bind_ok (needShape_ok hokb)).trans ?_))
  simp only [ha, hb] at hdim h4a h4b
  simp only [hdim, readScales_none h4a, readScales_none h4b, bind, Except.bind]
  rfl

theorem tmma_misfit (h : Ready s) (ht : s.th.tile = true) :
    let ha := shapeFields (s.tshape ta)
    let hb := shapeFields (s.tshape tb)
    ha.ok = true → hb.ok = true → bDims hb tr ha.k = none → Traps (.tmma p ac ta tb tr) s 51 0 := by
  intro ha hb hoka hokb hd
  have hdim : (if fmtPairOk ha.fmt hb.fmt then bDims hb tr ha.k else none) = none := by rw [hd, ite_self]
  refine run_tileTrap h ht ((bind_ok (needShape_ok hoka)).trans ((bind_ok (needShape_ok hokb)).trans ?_))
  simp only [ha, hb] at hdim
  simp only [hdim]
  rfl

/-- TMMAS with indices that rise in every group. -/
theorem tmmas_does (h : Calm s) (ht : s.th.tile = true) :
    let ha := shapeFields (s.tshape ta)
    let hb := shapeFields (s.tshape tb)
    let b := (tileOperand hb [] (s.tl tb)).turned tr
    let r := product (s.ta ac) (expand (tileOperand ha [] (s.tl ta)) (metaPair (s.tl tm).bytes)) b ha.rows n (2 * ha.k)
    ha.ok = true → hb.ok = true → ha.q4 = false → hb.q4 = false → fmtPairOk ha.fmt hb.fmt = true →
    s.th.regs.csr.nctl = false → 2 * ha.k % 4 = 0 → bDims hb tr (2 * ha.k) = some n →
    (∀ i, i < ha.rows → ∀ q, q < 2 * ha.k / 4 → (metaPair (s.tl tm).bytes i q).1 < (metaPair (s.tl tm).bytes i q).2) →
    Does (.tmmas p ac ta tb tm tr) s (((s.orFlags r.2.1).addTsat (ac.setWidth 3) r.2.2.1).setLong .tile (.ta ac r.1) none) := by
  intro ha hb b r hoka hokb h4a h4b hf hn h4 hd hpair
  have hdim : (if fmtPairOk ha.fmt hb.fmt && !ha.q4 && 2 * ha.k % 4 == 0 then bDims hb tr (2 * ha.k) else none) = some n := by
    simp only [hf, h4a, h4, hd, Bool.not_false, Bool.and_self, beq_self_eq_true, if_true]
  have hgroups : ((List.range ha.rows).flatMap fun i => (List.range (2 * ha.k / 4)).map fun q => (i, q)).find?
      (fun g => decide ((metaPair (s.tl tm).bytes g.1 g.2).2 ≤ (metaPair (s.tl tm).bytes g.1 g.2).1)) = none := by
    simp only [List.find?_eq_none, List.mem_flatMap, List.mem_map, List.mem_range]
    rintro _ ⟨i, hi, q, hq, rfl⟩
    simpa using hpair i hi q hq
  refine (run_plainProduct h ht ((bind_ok (needShape_ok hoka)).trans ((bind_ok (needShape_ok hokb)).trans ?_))).1 hn
  simp only [ha, hb] at hdim h4b hgroups
  simp only [hdim, hgroups, readScales_none h4b, bind, Except.bind]
  rfl

/-- A product whose operands have scales. -/
theorem tmma_scaled {u v : State} {sa sb : List Nat} (h : Ready s) (ht : s.th.tile = true) :
    let ha := shapeFields (s.tshape ta)
    let hb := shapeFields (s.tshape tb)
    ha.ok = true → hb.ok = true → fmtPairOk ha.fmt hb.fmt = true → bDims hb tr ha.k = some n →
    readScales s ha (s.tl ta) = .ok (u, sa) → readScales u hb (u.tl tb) = .ok (v, sb) → v.th.regs.csr.nctl = false →
      let r := product (v.ta ac) (tileOperand ha sa (v.tl ta)) ((tileOperand hb sb (v.tl tb)).turned tr) ha.rows n ha.k
      Stores (.tmma p ac ta tb tr) s (((v.orFlags r.2.1).addTsat (ac.setWidth 3) r.2.2.1).setLong .tile (.ta ac r.1) none) := by
  intro ha hb hoka hokb hf hd hra hrb hn r
  have hdim : (if fmtPairOk ha.fmt hb.fmt then bDims hb tr ha.k else none) = some n := by rw [hf, if_pos rfl, hd]
  have hout := deliver_out hn ac r 0 0
  rw [no_conditions, Nat.add_zero] at hout
  refine run_tileStores h ht ((bind_ok (needShape_ok hoka)).trans ((bind_ok (needShape_ok hokb)).trans ?_))
    (((Within.readScales hra).trans (Within.readScales hrb)).trans ((local_product v ac _ _).trans (.setLong _ _ _ _)).within)
  simp only [ha, hb] at hdim hra hrb
  simp only [hdim, hra, hrb, bind, Except.bind]
  exact hout

end

/-! ## Generated tiles (R204, R207, R214) -/

theorem needGenerator_ok {g : GReg} (h : gValid g = true) : needGenerator g = .ok () := if_pos h

theorem needGenerator_bad {g : GReg} (h : gValid g = false) : needGenerator g = .error (.trap 53 (g.extractLsb' 192 64)) :=
  if_neg (ne_true_of_eq_false h)

theorem readRopes_none {s : State} {g : GReg} (h : gKind g < 4) (n : Nat) : readRopes s g n = .ok (s, []) := if_pos h

theorem ropeOf_nil : ropeOf [] = fun _ => 0 := rfl

theorem Within.readRopes {s t : State} {g : GReg} {n : Nat} {fs : List (Nat × Nat)} (h : readRopes s g n = .ok (t, fs)) : Within s t := by
  have one : ∀ (x : State) (o : Nat) (y : State × Nat), readRope x o = .ok y → Within x y.1 := by
    intro x o y hy
    simp only [Machine.readRope, bind, Except.bind] at hy
    repeat' split at hy
    all_goals cases hy
    next h1 _ _ h2 _ _ h3 _ _ h4 =>
      exact (((Local.bufRead h1).trans (Local.bufRead h2)).trans ((Local.bufRead h3).trans (Local.bufRead h4))).within
  unfold Machine.readRopes at h
  split at h
  · cases h; exact .refl _
  · refine foldlM_rel (R := fun x y => Within x.1 y.1) (fun _ => .refl _) .trans ?_ _ h
    intro x j y hy
    cases hr : readRope x.1 (ropeOffset g j) with
    | error e => rw [hr] at hy; cases hy
    | ok z => rw [hr] at hy; cases hy; exact one _ _ _ hr

section
variable {s : State} (p tr : Bool) (td g ta : BitVec 3) (ac : BitVec 2)

/-- TGEN of a generator whose frequencies are read. -/
theorem tgen_stores {u : State} {fs : List (Nat × Nat)} (hr : Ready s) (ht : s.th.tile = true) (hg : gValid (s.g g) = true) :
    let gv := s.g g
    let s1 := s.setTshape td (tshapeFormat (s.tshape td) (gOut gv) 0)
    let h := shapeFields (s1.tshape td)
    let val := fun (r c : Nat) => if tr then genValue gv u.th.regs.csr.launchkey (ropeOf fs) c r
      else genValue gv u.th.regs.csr.launchkey (ropeOf fs) r c
    let q := gather h.rows h.k fun r c => (val r c).2
    h.ok = true → readRopes s1 gv (if tr then h.rows else h.k) = .ok (u, fs) →
      Stores (.tgen p td g tr) s
        (((u.orFlags q.1).addTsat td q.2).setLong .tile (.tl td ⟨tileFrom h fun r c => (val r c).1, 0⟩) none) := by
  intro gv s1 h val q hok hrd
  have k : Within s1 ((u.orFlags q.1).addTsat td q.2) := (Within.readRopes hrd).trans ((Local.orFlags u q.1).trans (.addTsat _ td q.2)).within
  refine run_tileStores hr ht ((bind_ok (needGenerator_ok hg)).trans ((bind_ok (needShape_ok hok)).trans ((bind_ok hrd).trans ?_)))
    ((Local.setTshape s td _).within.trans (k.trans (Local.setLong _ _ _ _).within))
  rfl

/-- TGEN of a generator that reads no frequencies. -/
theorem tgen_does (hc : Calm s) (ht : s.th.tile = true) (hg : gValid (s.g g) = true) (hk : gKind (s.g g) < 4) :
    let gv := s.g g
    let val := fun (r c : Nat) => if tr then genValue gv s.th.regs.csr.launchkey (fun _ => 0) c r
      else genValue gv s.th.regs.csr.launchkey (fun _ => 0) r c
    let s1 := s.setTshape td (tshapeFormat (s.tshape td) (gOut gv) 0)
    let h := shapeFields (s1.tshape td)
    let q := gather h.rows h.k fun r c => (val r c).2
    h.ok = true → Does (.tgen p td g tr) s
      (((s1.orFlags q.1).addTsat td q.2).setLong .tile (.tl td ⟨tileFrom h fun r c => (val r c).1, 0⟩) none) := by
  intro gv val s1 h q hok
  have hkey : s1.th.regs.csr.launchkey = s.th.regs.csr.launchkey := by
    simp only [s1, State.setTshape, State.setCsr_regs]
  have k : Local (32 + (32 + 32)) 0 s ((s1.orFlags q.1).addTsat td q.2) :=
    (Local.setTshape s td _).trans ((Local.orFlags s1 q.1).trans (.addTsat _ td q.2))
  refine run_tileResult hc ht ((bind_ok (needGenerator_ok hg)).trans ((bind_ok (needShape_ok hok)).trans
    ((bind_ok (readRopes_none hk _)).trans ?_))) k (by decide)
  simp only [ropeOf_nil]
  rw [hkey]

/-- TMMAG of a generator that reads no frequencies: the table of its values holds those that the product uses. -/
theorem tmmag_does (h : Calm s) (ht : s.th.tile = true) (hg : gValid (s.g g) = true) (hk : gKind (s.g g) < 4)
    (hn : s.th.regs.csr.nctl = false) :
    let gv := s.g g
    let val := fun (r c : Nat) => if tr then genValue gv s.th.regs.csr.launchkey (fun _ => 0) c r
      else genValue gv s.th.regs.csr.launchkey (fun _ => 0) r c
    let ha := shapeFields (s.tshape ta)
    let out := gOut gv
    let b : MatOperand := { fmt := out, num := fun j k => ((fmtFloat out).getD fp32).num (val j k).1
                            int := fun j k => intOf 8 false (val j k).1 }
    let r := product (s.ta ac) (tileOperand ha [] (s.tl ta)) b ha.rows 16 ha.k
    let q := gather 16 ha.k fun j k => (val j k).2
    ha.ok = true → ha.q4 = false → fmtPairOk ha.fmt out = true →
      Does (.tmmag p ac ta g tr) s
        (((s.orFlags (r.2.1 ||| q.1)).addTsat (ac.setWidth 3) (r.2.2.1 + q.2)).setLong .tile (.ta ac r.1) none) := by
  intro gv val ha out b r q hok h4 hf
  let cells := (List.range 16).map fun j => (List.range ha.k).map fun k => val j k
  have hcell : ∀ j < 16, ∀ k < ha.k, (cells.getD j []).getD k (0, 0) = val j k := fun j hj k hk => table_get 16 ha.k val (0, 0) hj hk
  have hr : product (s.ta ac) (tileOperand ha [] (s.tl ta))
      { fmt := out, num := fun j k => ((fmtFloat out).getD fp32).num ((cells.getD j []).getD k (0, 0)).1
        int := fun j k => intOf 8 false ((cells.getD j []).getD k (0, 0)).1 } ha.rows 16 ha.k = r := by
    refine product_congr rfl (fun j hj k hk => ?_) fun j hj k hk => ?_
    · simp only [hcell j hj k hk, b]
    · simp only [hcell j hj k hk, b]
  have hq : gather 16 ha.k (fun j k => ((cells.getD j []).getD k (0, 0)).2) = q :=
    gather_congr fun j hj k hk => by rw [hcell j hj k hk]
  refine (run_product h ht ((bind_ok (needGenerator_ok hg)).trans ((bind_ok (needShape_ok hok)).trans ((if_neg ?_).trans
    ((bind_ok (readScales_none h4)).trans ((bind_ok (readRopes_none hk _)).trans ?_)))))).1 hn
  · rw [hf]; decide
  · rw [← hr, ← hq]
    rfl

theorem tmmag_misfit (h : Ready s) (ht : s.th.tile = true) (hg : gValid (s.g g) = true) {ha : Shape} (hha : ha = shapeFields (s.tshape ta))
    (hok : ha.ok = true) (hf : fmtPairOk ha.fmt (gOut (s.g g)) = false) : Traps (.tmmag p ac ta g tr) s 51 0 := by
  subst hha
  exact run_tileTrap h ht ((bind_ok (needGenerator_ok hg)).trans ((bind_ok (needShape_ok hok)).trans (if_pos (by rw [hf]; rfl))))

end

/-- Settles O29. `Tests.witness_products`, `Tests.witness_ntrap`, `Tests.witness_generators` and `Tests.witness_ropes` meet
the premises. -/
theorem tileProductsAndGeneration : Obligations.TileProductsAndGeneration := by
  refine ⟨?_, ?_, ?_, ?_⟩
  · intro s p tr ac ta tb tm n h ht ha hb out b r hoka hokb h4a h4b hf
    refine ⟨fun hn hd => ?_, fun hn hd => ?_, fun hd => ?_, fun hn h4 hd hpair => ?_⟩
    · exact (tmma_settled p tr ac ta tb h ht hoka hokb h4a h4b hf hd).1 hn
    · exact (tmma_settled p tr ac ta tb h ht hoka hokb h4a h4b hf hd).2 hn
    · exact tmma_misfit p tr ac ta tb h.toReady ht hoka hokb hd
    · exact tmmas_does p tr ac ta tb tm h ht hoka hokb h4a h4b hf hn h4 hd hpair
  · intro s u v p tr ac ta tb n sa sb h ht ha hb hoka hokb hf hd hra hrb hn
    exact tmma_scaled p tr ac ta tb h ht hoka hokb hf hd hra hrb hn
  · intro s p tr td g ta ac h ht gv val
    refine ⟨fun hg => ⟨?_, ?_⟩, fun hg hk => tgen_does p tr td g h ht hg hk, fun hg hk hn => tmmag_does p tr g ta ac h ht hg hk hn,
      fun ha hha hg hok hf => tmmag_misfit p tr g ta ac h.toReady ht hg hha hok hf⟩
    · exact run_tileTrap h.toReady ht (bind_error (needGenerator_bad hg))
    · exact run_tileTrap h.toReady ht (bind_error (needGenerator_bad hg))
  · intro s u p tr td g fs h ht hg
    exact tgen_stores p tr td g h ht hg

end Sys2Proof.Machine
end

section
/-!
PROOFS. The CSRs: what their writes change, the CSR instructions, and the writes with rules of their own (05_scalar R104 to
R109).
-/
namespace Sys2Proof.Machine

/-! ## What a write changes (R105) -/

theorem Local.writeAerole (s : State) (v : Word) : Local 32 0 s (writeAerole s v) := by
  have same : Local 32 0 s s := (Local.refl s).mono (by omega) (by omega)
  unfold Machine.writeAerole
  dsimp only
  split
  · exact same
  · split
    · split
      · exact .ite (Local.setCsr rfl rfl rfl) same
      · exact same
    · refine Local.trans (n := 0) (m := 0) ?_ (Local.setCsr rfl rfl rfl)
      refine Local.trans (n := 0) (m := 0) ?_ (Local.setPair ..)
      exact (Local.refl s).noteChunk fun _ => ⟨rfl, rfl, rfl, rfl⟩

theorem Local.writeErrlog (s : State) (v : Word) : Local 32 0 s (writeErrlog s v) := by
  have same : Local 32 0 s s := (Local.refl s).mono (by omega) (by omega)
  unfold Machine.writeErrlog
  dsimp only
  split
  · split
    · refine Local.trans (n := 32) (m := 0) ?_ (Local.modCore ..)
      exact (Local.capture s (.csr 0x5C4)).noteChunk fun _ => ⟨rfl, rfl, rfl, rfl⟩
    · exact same
  · exact same

theorem Local.writeLoops (s : State) (l : Nat) (v : Word) : Local 32 0 s (writeLoops s l v) :=
  .ite (Local.setCsr rfl rfl rfl) (Local.setCsr rfl rfl rfl)

theorem Local.postCommit32 (s : State) (a : Act) : Local 32 0 s (s.postCommit a) :=
  (Local.postCommit s a).mono (by omega) (by omega)

theorem Local.writeErrinj (s : State) (v : Word) : Local 32 0 s (writeErrinj s v) :=
  (Local.modTh ⟨rfl, rfl, rfl, rfl⟩).mono (by omega) (by omega)

/-- A write of a CSR other than CHUNKLEN and the loops' counts stays within the frame. -/
theorem Local.csrWrite {s t : State} {n : BitVec 12} {v : Word} (h1 : n ≠ 0x803) (h2 : n ≠ 0x80C) (h3 : n ≠ 0x80E)
    (h : csrWrite s n v = .ok t) : Local 32 0 s t := by
  have other : ∀ k : BitVec 12, n ≠ k → n.toNat ≠ k.toNat := fun k hk => mt BitVec.eq_of_toNat_eq hk
  have hset : ∀ {k : BitVec 12} {f : Csrs → Csrs}, (∀ c, (f c).loopC0 = c.loopC0 ∧ (f c).loopC1 = c.loopC1 ∧ (f c).chunkCur = c.chunkCur) →
      Local 32 0 s (s.setCsr k f) := fun hf => .setCsr (hf _).1 (hf _).2.1 (hf _).2.2
  unfold Machine.csrWrite at h
  split at h
  case h_22 hn => exact absurd hn (other 0x803 h1)
  case h_31 hn => exact absurd hn (other 0x80C h2)
  case h_33 hn => exact absurd hn (other 0x80E h3)
  case h_9 => cases h; exact .ite (hset fun _ => ⟨rfl, rfl, rfl⟩) ((Local.refl s).mono (by omega) (by omega))
  case h_13 => cases h; exact .writeErrinj s v
  case h_14 => cases h; exact .writeErrlog s v
  case h_16 | h_17 | h_34 => cases h; exact .postCommit32 s _
  case h_24 =>
    cases hs : needScope v with
    | error e => rw [writeStealdom, hs] at h; cases h
    | ok f => rw [writeStealdom, hs] at h; cases h; exact hset fun _ => ⟨rfl, rfl, rfl⟩
  case h_25 => cases h; exact .writeAerole s v
  case h_30 | h_32 => cases h; exact .writeLoops s _ v
  case h_35 =>
    dsimp only at h
    split at h
    · cases h; exact hset fun _ => ⟨rfl, rfl, rfl⟩
    · cases h; exact hset fun _ => ⟨rfl, rfl, rfl⟩
    · cases h; exact .postCommit32 s _
    · cases h; exact .postCommit32 s _
    · cases h; exact (Local.refl s).mono (by omega) (by omega)
  all_goals
    cases h
    exact hset fun _ => ⟨rfl, rfl, rfl⟩

/-! ## CSR instructions (R105, R183) -/

/-- An early check that finds nothing. -/
theorem runInstr_legal {c : Bool} (hc : c = false) (e : Stop) (p : Bool) (regs : List RegName) (body : Body) (s : State) :
    runInstr p (if c then some e else none) regs body s = runInstr p none regs body s := by
  rw [if_neg (ne_true_of_eq_false hc)]

/-- On a ready thread an instruction finishes from its body's effect. -/
theorem run_finish {p : Bool} {regs : List RegName} {body : Body} {s t : State} {a : After} (h : Ready s)
    (hb : body s = .ok (t, a)) : runInstr p none regs body s = .next (finish s t a) := by
  have hp : (if p then s.park else some s) = some s := by cases p <;> simp [park_calm h]
  have hq : firstPending s regs = none := by simp [firstPending, h.marks]
  simp [runInstr, h.live, attempt, hp, hq, badReg_sound h.sound, hb, finish]

theorem unitsWait_idle {s : State} (h : s.th.results = []) (n : BitVec 12) : unitsWait s n = false := by simp [unitsWait, h]

theorem csrInstruction_settled {s : State} (f : CsrOp) (im : Bool) (csr : BitVec 12) (rd src : Reg) (h : Calm s)
    (hleg : csrIllegal s csr (csrWrites f src) = false) :
    (csrWrites f src = false → Does (.csrInstruction f im csr rd src) s (s.setX rd (csrRead s csr))) ∧
    ∀ t, csrWrites f src = true → csrWrite s csr (csrNew f (csrRead s csr) (if im then src.setWidth 64 else s.x src)) = .ok t →
      (csr ≠ 0x803 → csr ≠ 0x80C → csr ≠ 0x80E → Does (.csrInstruction f im csr rd src) s (t.setX rd (csrRead s csr))) ∧
      exec (.csrInstruction f im csr rd src) s = .next (finish s (t.setX rd (csrRead s csr)) .seq) := by
  have hw := unitsWait_idle h.results csr
  refine ⟨fun hn => (runInstr_legal hleg ..).trans (run_setX h ?_), fun t hy ht => ⟨fun h1 h2 h3 => (runInstr_legal hleg ..).trans ?_,
    (runInstr_legal hleg ..).trans (run_finish h.toReady ?_)⟩⟩
  · simp only [hw, hn, Bool.false_eq_true, if_false, bind, Except.bind]
  · refine run_calm (a := .seq) h ?_ ((Local.csrWrite h1 h2 h3 ht).trans (.setX t rd _)) (by decide) (by decide) ⟨nofun, nofun⟩
    simp only [hw, hy, ht, Bool.false_eq_true, if_false, if_true, bind, Except.bind]
  · simp only [hw, hy, ht, Bool.false_eq_true, if_false, if_true, bind, Except.bind]

theorem csrIllegal_of {s : State} {f : CsrOp} {csr : BitVec 12} {src : Reg}
    (h : (s.th.regs.smode = false ∧ csrSupervisor csr = true) ∨ (0xCC0 ≤ csr.toNat ∧ csr.toNat ≤ 0xCCB ∧ (f = .rw ∨ src ≠ 0)) ∨
      (0x810 ≤ csr.toNat ∧ csr.toNat ≤ 0x81F ∧ s.th.tile = false) ∨ (0x831 ≤ csr.toNat ∧ csr.toNat ≤ 0xCBF)) :
    csrIllegal s csr (csrWrites f src) = true := by
  rcases h with ⟨hm, hs⟩ | ⟨hl, hh, hw⟩ | ⟨hl, hh, ht⟩ | ⟨hl, hh⟩
  · simp [csrIllegal, hm, hs]
  · have hro : csrReadOnly csr = true := by simp [csrReadOnly, hl, hh]
    have hwr : csrWrites f src = true := by
      rcases hw with rfl | hw
      · rfl
      · exact Bool.or_eq_true_iff.2 (.inr (bne_iff_ne.2 hw))
    simp [csrIllegal, hro, hwr]
  · exact csrIllegal_of_no_tile ht (csrTile_iff.2 ⟨hl, hh⟩) _
  · have hs : csrSupervisor csr = false := by
      simp only [csrSupervisor, List.contains_eq_mem, List.mem_cons, List.not_mem_nil, or_false, decide_eq_false_iff_not]
      omega
    have hro : csrReadOnly csr = false := by
      simp only [csrReadOnly, Bool.and_eq_false_iff, decide_eq_false_iff_not]; omega
    have hu : csrUser csr = false := by
      simp only [csrUser, Bool.or_eq_false_iff, Bool.and_eq_false_iff, decide_eq_false_iff_not]; omega
    simp [csrIllegal, hs, hro, hu]

/-- Settles O31. `Tests.witness_csr` meets the premises. -/
theorem csrInstructions : Obligations.CsrInstructions := by
  refine ⟨fun s f im csr rd src h hleg => ?_, fun s f im csr rd src hl h => csrInstruction_traps_of_illegal hl (csrIllegal_of h)⟩
  obtain ⟨hread, hwrite⟩ := csrInstruction_settled f im csr rd src h hleg
  exact ⟨hread, fun t hy h1 h2 h3 ht => (hwrite t hy ht).1 h1 h2 h3, fun t hy _ ht => (hwrite t hy ht).2⟩

/-! ## Writes with rules of their own -/

theorem threadWrite_ok {s t : State} {f : State → Except Stop State} (hl : s.live = true) (h : f s = .ok t) : threadWrite s f = t := by
  simp only [threadWrite, hl, h, if_true]

theorem threadWrite_trap {s : State} {f : State → Except Stop State} {cause : Nat} {tval : Word} (hl : s.live = true)
    (h : f s = .error (.trap cause tval)) : threadWrite s f = takeTrap s cause tval := by
  simp only [threadWrite, hl, h, if_true, applyStop]

theorem bits_and_low {v : Word} : bits (v &&& 0x1FFFF) 16 6 = bits v 16 6 := by
  have h : (v &&& 0x1FFFF).toNat = v.toNat % 2 ^ 17 := by
    rw [BitVec.toNat_and]
    exact Nat.and_two_pow_sub_one_eq_mod v.toNat 17
  simp only [bits, h]
  omega

/-- An array that cannot be injected disarms. -/
theorem errinj_disarmed {v : Word} (h : bits v 7 4 = 1 ∨ bits v 7 4 = 2 ∨ 10 ≤ bits v 7 4) (mode : Nat) :
    let bad := bits v 7 4 = 1 ∨ bits v 7 4 = 2 ∨ 10 ≤ bits v 7 4
    let n := BitVec.ofNat 24 (bits v 23 16 * 65536 + bits v 15 12 * 4096 + mode * 256 + (if bad then 0 else bits v 7 4 * 16 + bits v 0 0))
    n.getLsbD 0 = false ∧ n.extractLsb' 4 4 = 0 := by
  intro bad n
  have hn : n = BitVec.ofNat 24 (256 * (bits v 23 16 * 256 + bits v 15 12 * 16 + mode)) := by
    simp only [n, bad, h, if_true]
    congr 1
    omega
  rw [hn]
  constructor
  · rw [BitVec.getLsbD_ofNat, Nat.testBit_zero]
    simp only [Nat.reduceLT, decide_true, Bool.true_and, decide_eq_false_iff_not]
    omega
  · apply BitVec.eq_of_toNat_eq
    rw [BitVec.extractLsb'_toNat, BitVec.toNat_ofNat, Nat.shiftRight_eq_div_pow]
    show _ = 0
    omega

theorem writeLoopc_on {s : State} {v : Word} (h : bits v 16 6 ≠ 0) :
    writeLoopc s 0 v = s.setCsr 0x80C fun c => { c with loopC0 := v &&& 0x1FFFF } := by
  simp only [writeLoopc, bits_and_low, h, if_false, if_true]

theorem writeLoopc_off {s : State} {v : Word} (h : bits v 16 6 = 0) :
    writeLoopc s 1 v = s.setCsr 0x80E fun c => { c with loopC1 := v &&& 0x1FFFF &&& 0x1FFFE } := by
  simp only [writeLoopc, bits_and_low, h, if_true, Nat.one_ne_zero, if_false]

theorem writeStealdom_ok {s : State} {v : Word} (h : (scopeOf v).isSome = true) :
    writeStealdom s v = .ok (s.setCsr 0x805 fun c => { c with stealdom := v }) := by
  obtain ⟨f, hf⟩ := needScope_of h
  exact bind_ok hf

theorem writeAerole_unbind {s : State} {v : Word} (h8 : s.th.slot < 8) (h : v.getLsbD 0 = false) : writeAerole s v =
    ((s.modChunk fun c => { c with aeTaken := c.aeTaken ++ s.pairOf.fq, dropped := c.dropped ++ s.pairOf.rq }).setPair ⟨[], []⟩).setCsr
      0x806 fun c => { c with bind := false } := by
  simp only [writeAerole, Nat.not_le.2 h8, h, if_false, Bool.false_eq_true]

theorem writeAerole_bind {s : State} {v : Word} {u : Nat} (h8 : s.th.slot < 8) (h : v.getLsbD 0 = true)
    (hu : s.inSlot s.th.core (s.th.slot + 8) = some u) (hlid : (s.thr u).lid = s.th.lid) :
    writeAerole s v = s.setCsr 0x806 fun c => { c with bind := true } := by
  simp only [writeAerole, Nat.not_le.2 h8, h, hu, hlid, if_false, if_true]

/-- The selected entry of the error log, cleared (R130). -/
theorem writeErrlog_clears {s : State} {v : Word} {e : ErrEntry} (hv : v.getLsbD 0 = true)
    (h2 : (s.th.regs.csr.errsel.extractLsb' 10 2).toNat = 2) (h10 : (s.th.regs.csr.errsel.extractLsb' 0 4).toNat < 10)
    (he : (tabGet [] (s.coreOf (selectedLog s).1).errlog (selectedLog s).2.1)[(selectedLog s).2.2]? = some e) :
    ∃ f, (tabGet [] ((writeErrlog s v).coreOf (selectedLog s).1).errlog (selectedLog s).2.1)[(selectedLog s).2.2]? = some f ∧
      f.valid = false := by
  have hlt : (selectedLog s).2.2 < (tabGet [] (s.coreOf (selectedLog s).1).errlog (selectedLog s).2.1).length :=
    (List.getElem?_eq_some_iff.1 he).1
  unfold writeErrlog
  simp only [h2, h10, hv, and_self, if_true, he]
  rw [State.coreOf_modCore, if_pos rfl]
  simp only [tabGet_tabSet_same, List.getElem?_set_self hlt]
  exact ⟨_, rfl, rfl⟩

/-- Settles O32. `Tests.witness_csr_rules` and `Tests.witness_log` meet the premises. -/
theorem csrWritesWithRules : Obligations.CsrWritesWithRules := by
  have ok : ∀ {s t : State} {f : State → Except Stop State}, s.live = true → f s = .ok t → event (threadWrite s f) = .next t :=
    fun hl h => congrArg Host.Outcome.next (threadWrite_ok hl h)
  refine ⟨fun s hl => ⟨fun v => ok hl rfl, fun v => ok hl rfl, fun v => ok hl rfl, fun v hs => ok hl (writeStealdom_ok hs),
    fun v hs => congrArg _ (threadWrite_trap hl (bind_error (needScope_bad hs))),
    fun v hb => ok hl (congrArg _ (writeLoopc_on hb)), fun v hb => ok hl (congrArg _ (writeLoopc_off hb)),
    fun v hb => ok hl (congrArg _ (if_pos hb)), fun v h0 h11 => ok hl (congrArg _ (if_neg (not_or.2 ⟨h0, h11⟩))), fun v => ok hl rfl,
    fun n v => ok hl rfl, fun n v => ok hl rfl, fun v => ok hl rfl, fun v => ok hl rfl,
    fun v => ⟨_, ok hl rfl, fun hb => errinj_disarmed hb _⟩, fun v h8 hb => ok hl (congrArg _ (writeAerole_unbind h8 hb)),
    fun v u h8 hb hu hlid => ok hl (congrArg _ (writeAerole_bind h8 hb hu hlid))⟩, fun s v e hl hv h2 h10 he => ?_,
    fun s t n v hl hleg hw => ?_, fun s off v h => congrArg _ (if_pos h)⟩
  · obtain ⟨f, hf, hvalid⟩ := writeErrlog_clears hv h2 h10 he
    exact ⟨_, f, ok hl rfl, hf, hvalid⟩
  · exact (congrArg event (if_neg (ne_true_of_eq_false hleg))).trans (ok hl hw)

end Sys2Proof.Machine
end

section
/-!
PROOFS. Messages and optimistic events (17_messages R247 to R274).
-/
namespace Sys2Proof.Machine

theorem runInstr_none {e : Option Stop} (he : e = none) (p : Bool) (regs : List RegName) (body : Body) (s : State) :
    runInstr p e regs body s = runInstr p none regs body s := by rw [he]

theorem inEvent_event {s : State} (h : s.inEvent = true) : s.th.regs.opt.inEvent = true := (Bool.and_eq_true_iff.1 h).2

/-! ## Sending (R249, R250, R254, R265) -/

/-- The state once a send-queue entry is reserved (R250). -/
theorem reserveSend_ok {s : State} (h : s.th.sendUsed < Config.sendEntries) :
    reserveSend s = .ok (s.modChunk fun c => { c with sendRes := c.sendRes + 1 }) := if_pos h

theorem Local.formMessage (s : State) (desc vrt : Word) (b : Reg) : Local 0 0 s (formMessage s desc vrt b).1 := by
  refine Local.then0 ?_ (Local.postCommit ..)
  refine Local.modRegs ?_ ?_
  · split <;> rfl
  · split <;> rfl

theorem Local.reserved (s : State) : Local 0 0 s (s.modChunk fun c => { c with sendRes := c.sendRes + 1 }) :=
  (Local.refl s).noteChunk fun _ => ⟨rfl, rfl, rfl, rfl⟩

theorem send_settled {s : State} (p : Bool) (a b : Reg) (h : Calm s) (hs : s.th.sendUsed < Config.sendEntries)
    (he : s.inEvent = false) :
    (descOk s (s.x a) = true → Does (.send p a b) s
      (formMessage (s.modChunk fun c => { c with sendRes := c.sendRes + 1 }) (s.x a) 0 b).1) ∧
    (descOk s (s.x a) = false → Traps (.send p a b) s 55 (s.x a)) := by
  refine ⟨fun hd => run_calm (a := .seq) h ?_ ((Local.reserved s).trans (.formMessage ..)) (by decide) (by decide) ⟨nofun, nofun⟩,
    fun hd => run_trap h.toReady ?_⟩
  · simp only [notInEvent_of he, hd, reserveSend_ok hs, bind, Except.bind, Bool.not_true, Bool.false_eq_true, if_false]
  · simp only [notInEvent_of he, hd, bind, Except.bind, Bool.not_false, if_true]

theorem sendt_settled {s : State} (p : Bool) (a b d : Reg) (h : Calm s) (hs : s.th.sendUsed < Config.sendEntries) :
    let s1 := s.modChunk fun c => { c with sendRes := c.sendRes + 1 }
    let o := s.th.regs.opt
    (o.on = false → o.inEvent = false → descOk s (s.x a) = true → s.x d ≠ 0 →
      Does (.sendt p a b d) s (formMessage s1 (s.x a) (s.x d) b).1) ∧
    (s.inEvent = true → descOk s (s.x a) = true → lvtWord o < s.x d → o.out.length + pendingOut s s.cur < o.oent →
      Does (.sendt p a b d) s ((formMessage s1 (s.x a) (s.x d) b).1.postCommit
        (.outLog ⟨o.evKey, s.x a, s.x d, (formMessage s1 (s.x a) (s.x d) b).2.seq⟩))) ∧
    (s.inEvent = true → descOk s (s.x a) = true → s.x d ≤ lvtWord o → s.x d ≠ 0 → Traps (.sendt p a b d) s 55 (s.x d)) ∧
    (o.on = true → o.inEvent = false → Traps (.sendt p a b d) s 49 0) := by
  intro s1 o
  have hform : Local 0 0 s (formMessage s1 (s.x a) (s.x d) b).1 := (Local.reserved s).trans (.formMessage ..)
  refine ⟨fun hon hev hd hv => ?_, fun hev hd hlt hroom => ?_, fun hev hd hle hv => run_trap h.toReady ?_,
    fun hon hev => run_trap h.toReady ?_⟩
  · refine run_calm (a := .seq) h ?_ hform (by decide) (by decide) ⟨nofun, nofun⟩
    simp only [o] at hon hev
    simp only [hon, hev, hd, hv, reserveSend_ok hs, bind, Except.bind, Bool.not_true, Bool.false_and, Bool.false_eq_true, if_false]
    rfl
  · refine run_calm (a := .seq) h ?_ (hform.trans (.postCommit _ _)) (by decide) (by decide) ⟨nofun, nofun⟩
    have hev' : s.th.regs.opt.inEvent = true := inEvent_event hev
    have hv : s.x d ≠ 0 := by
      intro h0
      rw [h0] at hlt
      exact absurd hlt BitVec.not_lt_zero
    have hle : decide (s.x d ≤ lvtWord s.th.regs.opt) = false := decide_eq_false (BitVec.not_le.2 hlt)
    have hfull : decide (s.th.regs.opt.oent ≤ s.th.regs.opt.out.length + pendingOut s s.cur) = false :=
      decide_eq_false (Nat.not_le.2 hroom)
    simp only [hev', hd, hv, hle, hfull, reserveSend_ok hs, bind, Except.bind, Bool.not_true, Bool.and_false, Bool.false_eq_true,
      if_false, if_true]
    rfl
  · have hev' : s.th.regs.opt.inEvent = true := inEvent_event hev
    have hle' : decide (s.x d ≤ lvtWord s.th.regs.opt) = true := decide_eq_true hle
    simp only [hev', hd, hv, hle', Bool.not_true, Bool.and_false, Bool.and_self, Bool.false_eq_true, if_false, if_true]
  · simp only [o] at hon hev
    simp only [hon, hev, Bool.not_false, Bool.and_self, if_true]

/-- Settles O33. `Tests.witness_send` meets the premises. -/
theorem sending : Obligations.Sending := by
  intro s p a b d h hs s1 o
  obtain ⟨hplain, hevent, hpast, houtside⟩ := sendt_settled p a b d h hs
  exact ⟨fun he => (send_settled p a b h hs he).1, fun he => (send_settled p a b h hs he).2, hplain, hevent, hpast, houtside⟩

/-! ## Receiving (R255 to R257, R334) -/

/-- A change of the current thread that keeps its place, its older chunk and what the frame looks at in its registers and its
chunk. -/
theorem Local.noteTh {s : State} {f : Thread → Thread} (hc : (f s.th).core = s.th.core) (ho : (f s.th).older = s.th.older)
    (hr : (f s.th).regs = s.th.regs) (hk : (f s.th).chunk.count = s.th.chunk.count ∧ (f s.th).chunk.undo = s.th.chunk.undo ∧
      (f s.th).chunk.wlines = s.th.chunk.wlines ∧ (f s.th).chunk.ovf = s.th.chunk.ovf) : Local 0 0 s (s.modTh f) := by
  obtain ⟨hn, hu, hl, hv⟩ := hk
  rw [State.modTh_eq]
  exact .of_setThr hc ho (by rw [hr]) (by rw [hr]) (by rw [hr]) hn (by rw [hr]) (by rw [Chunk.undoBytes, hu]; exact Nat.le_refl _)
    (by rw [hl]; exact Nat.le_refl _) (by rw [hv]; exact Nat.le_refl _)

theorem Local.countEvent (s : State) (ev n : Nat) : Local 0 0 s (countEvent s s.cur ev n) := by
  unfold Machine.countEvent
  dsimp only
  split
  · exact Local.modTh ⟨rfl, rfl, rfl, rfl⟩
  · exact .refl s

theorem Local.giveMessage (s : State) (d : Reg) (v w : VReg) : Local 224 0 s (giveMessage s d v w) :=
  (Local.setLong s .message (.v d v) none).trans (.setLong _ .message (.v (d + 1) w) none) |>.mono
    (by simp [undoSize, regSize, roundUp, RegVal.name]) (Nat.le_refl _)

/-- The state that takes a message: it has left the queue, and its payload and image are on their way. -/
def taken (s : State) (d : Reg) (m : Msg) : State :=
  giveMessage (countEvent (s.modTh fun th => { th with
    recvq := th.recvq.filter fun k => k.ordinal != m.ordinal
    chunk := { th.chunk with taken := m :: th.chunk.taken } }) s.cur 13 1) d (s.msgPayload s.cur m) (s.msgImage s.cur m)

theorem takeMessage_ok {s : State} {d : Reg} {m : Msg} (h : ringStop s d m = none) : takeMessage s d m = .ok (taken s d m) := by
  simp only [takeMessage, h]
  rfl

theorem Local.taken (s : State) (d : Reg) (m : Msg) : Local 224 0 s (taken s d m) := by
  refine Local.trans (n := 0) (m := 0) ?_ (Local.giveMessage ..)
  refine Local.then0 (Local.noteTh rfl rfl rfl ⟨rfl, rfl, rfl, rfl⟩) (.countEvent _ 13 1)

/-- On a ready thread the trap of a part of a result is taken with the part in its register (R334). -/
theorem run_partTrap {p : Bool} {regs : List RegName} {body : Body} {s : State} {v : RegVal} {cause : Nat} {tval : Word} (h : Ready s)
    (hb : body s = .error (.partTrap v cause tval)) :
    runInstr p none regs body s = .next (takeTrap ((s.capture (.reg v.name)).modRegs (·.put v)) cause tval) := by
  have hp : (if p then s.park else some s) = some s := by cases p <;> simp [park_calm h]
  have hq : firstPending s regs = none := by simp [firstPending, h.marks]
  have hr : firstPending s (loopReads s) = none := by rw [loopReads_off h.loop0 h.loop1]; rfl
  have hold : ¬ (s.th.chunk.count ≠ 0 ∧ s.th.older.isSome = true) := by simp [h.older]
  have hstop : stopAt s s (.partTrap v cause tval) = takeTrap ((s.capture (.reg v.name)).modRegs (·.put v)) cause tval := by
    simp only [stopAt, Stop.afterPending, hr, ite_self, applyStop, if_neg hold]
  simp only [runInstr, h.live, if_true, attempt, hp, hq, badReg_sound h.sound, hb, hstop]

/-- The wait of a thread that finds no message (R255). -/
def recvWait (s : State) (d : Reg) (mask : BitVec 4) : Option Word → Wait
  | none => .recv d mask s.pc
  | some w => .recvs d mask w s.pc

/-- What RECV and RECVS do once their channels and selector are known. -/
theorem run_recv {s : State} {p : Bool} {regs : List RegName} {body : Body} {d : Reg} {mask : BitVec 4} {sel : Option Word} (h : Calm s)
    (hb : body s = recvBody d mask sel s) :
    (s.th.recvq.find? (recvWants mask sel) = none →
      runInstr p none regs body s = .next ((completed s (s.pc + 4) (.wait (recvWait s d mask sel))).cutChunk s.cur 6)) ∧
    ∀ m, s.th.recvq.find? (recvWants mask sel) = some m →
      (ringStop s d m = none → runInstr p none regs body s = .next (completed (taken s d m) (s.pc + 4) .ready)) ∧
      ∀ e, ringStop s d m = some e → body s = .error e := by
  refine ⟨fun hn => ?_, fun m hm => ⟨fun hs => ?_, fun e hs => ?_⟩⟩
  · refine run_ends (code := 6) (w := some (recvWait s d mask sel)) h (hb.trans ?_) (.refl s) (by decide) (by decide) (by decide)
    simp only [recvBody, hn]
    cases sel <;> rfl
  · refine run_calm (a := .seq) h (hb.trans ?_) (.taken s d m) (by decide) (by decide) ⟨nofun, nofun⟩
    simp only [recvBody, hm, takeMessage_ok hs, bind, Except.bind]
  · rw [hb]
    simp only [recvBody, hm, takeMessage, hs, bind, Except.bind]

theorem ringStop_queue {s : State} {d : Reg} {m : Msg} (h : m.ring = false) : ringStop s d m = none := by
  simp only [ringStop, h, Bool.not_false, if_true]

theorem ringStop_payload {s : State} {d : Reg} {m : Msg} (h : m.ring = true) (hp : s.poison.contains (s.ringEntry s.cur m / 64) = true) :
    ringStop s d m = some (.trap 50 (BitVec.ofNat 64 (s.ringEntry s.cur m))) := by
  simp only [ringStop, h, hp, Bool.not_true, Bool.false_eq_true, if_false, if_true]

theorem ringStop_image {s : State} {d : Reg} {m : Msg} (h : m.ring = true) (hp : s.poison.contains (s.ringEntry s.cur m / 64) = false)
    (hi : s.poison.contains (s.ringEntry s.cur m / 64 + 1) = true) :
    ringStop s d m = some (.partTrap (.v d (s.msgPayload s.cur m)) 50 (BitVec.ofNat 64 (s.ringEntry s.cur m + 64))) := by
  simp only [ringStop, State.msgPayload, h, hp, hi, Bool.not_true, Bool.false_eq_true, if_false, if_true]

theorem recv_runs {s : State} (p : Bool) (d a : Reg) (h : Ready s) (he : s.inEvent = false) :
    ∃ regs body, exec (.recv p d a) s = runInstr p none regs body s ∧ body s = recvBody d (channelMask (s.x a)) none s :=
  ⟨_, _, rfl, (bind_ok (notInEvent_of he 0)).trans (bind_ok (noRewrite_of_ready h))⟩

theorem recvs_runs {s : State} (p : Bool) (d a b : Reg) (h : Ready s) (he : s.inEvent = false) (hb : (s.x b).getLsbD 31 = false) :
    ∃ regs body, exec (.recvs p d a b) s = runInstr p none regs body s ∧
      body s = recvBody d (channelMask (s.x a)) (some (s.x b)) s :=
  ⟨_, _, rfl, (bind_ok (notInEvent_of he 0)).trans ((bind_ok (noRewrite_of_ready h)).trans (if_neg (ne_true_of_eq_false hb)))⟩

/-- Settles O34. `Tests.witness_receive` and `Tests.witness_ring` meet the premises. -/
theorem receiving : Obligations.Receiving := by
  intro s p d a b h mask got
  have hrecv (he : s.inEvent = false) := recv_runs p d a h.toReady he
  have hrecvs (he : s.inEvent = false) (hb : (s.x b).getLsbD 31 = false) := recvs_runs p d a b h.toReady he hb
  refine ⟨fun m hm => ⟨?_, ?_, ringStop_queue hm⟩, fun m hm => ⟨?_, ?_⟩, fun he hn => ?_, fun m he hm hs => ?_,
    fun m he hm hr hp => ?_, fun m he hm hr hp hi => ?_, fun he hb hn => ?_, fun m he hb hm hs => ?_, fun he hb => ?_,
    run_setX h rfl⟩
  · simp only [State.msgPayload, hm, Bool.false_eq_true, if_false]
  · simp only [State.msgImage, hm, Bool.false_eq_true, if_false]
  · simp only [State.msgPayload, hm, if_true, State.lineVal]
  · simp only [State.msgImage, hm, if_true, State.lineVal]
  · obtain ⟨_, _, hexec, hbody⟩ := hrecv he
    exact hexec.trans ((run_recv h hbody).1 hn)
  · obtain ⟨_, _, hexec, hbody⟩ := hrecv he
    exact hexec.trans (((run_recv h hbody).2 m hm).1 hs)
  · obtain ⟨_, _, hexec, hbody⟩ := hrecv he
    exact hexec.trans (run_trap h.toReady (((run_recv (p := p) (regs := []) h hbody).2 m hm).2 _ (ringStop_payload hr hp)))
  · obtain ⟨_, _, hexec, hbody⟩ := hrecv he
    exact hexec.trans (run_partTrap (v := .v d (s.msgPayload s.cur m)) h.toReady (((run_recv (p := p) (regs := []) h hbody).2 m hm).2 _ (ringStop_image hr hp hi)))
  · obtain ⟨_, _, hexec, hbody⟩ := hrecvs he hb
    exact hexec.trans ((run_recv h hbody).1 hn)
  · obtain ⟨_, _, hexec, hbody⟩ := hrecvs he hb
    exact hexec.trans (((run_recv h hbody).2 m hm).1 hs)
  · refine run_trap h.toReady ?_
    simp only [notInEvent_of he, noRewrite_of_ready h.toReady, hb, bind, Except.bind, if_true]

/-! ## Optimistic events (R258 to R266, R274) -/

/-- A step that leaves the current thread's registers and outstanding results as they are. -/
def SameRegs (s t : State) : Prop := t.th.regs = s.th.regs ∧ t.th.results = s.th.results

theorem SameRegs.trans {s t u : State} (h : SameRegs s t) (k : SameRegs t u) : SameRegs s u :=
  ⟨k.1.trans h.1, k.2.trans h.2⟩

theorem SameRegs.of_threads {s t : State} (ht : t.threads = s.threads) (hc : t.cur = s.cur) : SameRegs s t := by
  unfold SameRegs State.th State.thr
  rw [ht, hc]
  exact ⟨rfl, rfl⟩

theorem keepWalk_threads (s : State) (core : Nat) (w : Who) (acc : Acc) (va : Nat) (m : Met) :
    (keepWalk s core w acc va m).threads = s.threads ∧ (keepWalk s core w acc va m).cur = s.cur := by
  unfold keepWalk
  split
  · dsimp only
    split <;> split <;> exact ⟨rfl, rfl⟩
  · exact ⟨rfl, rfl⟩

theorem transChoice_threads (s : State) (l : List Met) :
    (transChoice s l).1.threads = s.threads ∧ (transChoice s l).1.cur = s.cur := by
  unfold transChoice
  split <;> exact ⟨rfl, rfl⟩

/-- A translation leaves every thread as it is. -/
theorem translateTh_threads {s t : State} {acc : Acc} {va pa : Nat} {lp : Bool} (h : translateTh s acc va = .ok (t, pa, lp)) :
    t.threads = s.threads ∧ t.cur = s.cur := by
  simp only [translateTh, translateBy] at h
  split at h
  · cases h
  · cases h
  · cases h
  · next r hr =>
    cases h
    simp only [translate] at hr
    split at hr
    · repeat' split at hr
      all_goals cases hr
      exact ⟨rfl, rfl⟩
    · simp only [useLeaf] at hr
      repeat' split at hr
      all_goals cases hr
      rw [(keepWalk_threads ..).1, (keepWalk_threads ..).2]
      exact transChoice_threads ..

theorem SameRegs.enterRead (s : State) (pa n va : Nat) : SameRegs s (s.enterRead pa n va) := by
  unfold SameRegs State.enterRead
  rw [State.modChunk_eq, State.th_setThr_cur]
  exact ⟨rfl, rfl⟩

theorem SameRegs.fillLine (s : State) (core pa : Nat) : SameRegs s (s.fillLine core pa) := by
  unfold State.fillLine State.makeWay
  dsimp only
  split
  · exact .of_threads rfl rfl
  · split <;> exact .of_threads rfl rfl

theorem SameRegs.readPlain {s t : State} {pa n va : Nat} {w : Bool} {bs : List Byte} (h : readPlain s pa n va w = .ok (t, bs)) :
    SameRegs s t := by
  simp only [Machine.readPlain] at h
  repeat' split at h
  all_goals cases h
  · exact .enterRead ..
  · exact (SameRegs.fillLine ..).trans (.enterRead ..)

theorem SameRegs.loadVa {s t : State} {va n : Nat} {w : Bool} {bs : List Byte} (h : loadVa s va n w = .ok (t, bs)) : SameRegs s t := by
  simp only [Machine.loadVa] at h
  split at h
  · cases h
  · split at h
    · cases h
    · next h1 =>
      obtain ⟨ht, hc⟩ := translateTh_threads h1
      exact (SameRegs.of_threads ht hc).trans (.readPlain h)

/-- The mode that OPTON enters, from the words of its descriptor and the registers that it captures (R258, R259). -/
def enteredMode (va : Nat) (w : Nat → Word) (r : Regs) : Opt :=
  { Opt.reset with
    on := true, desc := BitVec.ofNat 64 va, sbase := w 0, ssize := w 1, ubase := w 2, obase := w 3, ibase := w 4
    ient := bits (w 5) 47 32, oent := bits (w 5) 31 16, uent := bits (w 5) 15 0, iscope := w 6
    image := { x := r.x, v := r.v, p := r.p, vtype := r.csr.vtype } }

theorem opton_does {s t : State} (p : Bool) (a : Reg) {va : Nat} {bs : List Byte} (h : Calm s) (hon : s.th.regs.opt.on = false)
    (hp : pointerAddr (s.x a) 0 = .ok va) (hal : va % 64 = 0) (hl : loadVa s va 64 false = .ok (t, bs)) (hok : optionsOk bs = true) :
    Does (.opton p a) s (t.modRegs fun r => { r with opt := enteredMode va (lineWord bs) r }) := by
  have hres : t.th.results = [] := (SameRegs.loadVa hl).2.trans h.results
  refine (runInstr_none (if_neg (ne_true_of_eq_false hon)) ..).trans
    (run_calm (a := .seq) h ?_ ((Local.loadVa hl).trans (.modRegs rfl rfl)) (by decide) (by decide) ⟨nofun, nofun⟩)
  simp only [noRewrite_of_ready h.toReady, hp, hal, hl, hok, hres, bind, Except.bind, ne_eq, not_true, if_false, Bool.not_true,
    Bool.false_eq_true, List.isEmpty_nil]
  rfl

/-! ### RECVT -/

theorem Local.captures (s : State) (l : List UndoKey) : Local (l.map undoSize).sum 0 s (l.foldl State.capture s) := by
  induction l generalizing s with
  | nil => exact .refl s
  | cons k l ih => exact (Local.capture s k).trans (ih _)

theorem Frame.captures (s : State) (l : List UndoKey) : Frame s (l.foldl State.capture s) := by
  induction l generalizing s with
  | nil => exact .refl s
  | cons k l ih => exact (Frame.capture s k).trans (ih _)

theorem captures_regs (s : State) (l : List UndoKey) : (l.foldl State.capture s).th.regs = s.th.regs := by
  induction l generalizing s with
  | nil => rfl
  | cons k l ih => exact (ih _).trans (State.capture_regs s k)

theorem Local.captureImage (s : State) : Local 3904 0 s (captureImage s) :=
  (Local.captures s _).mono (by decide) (Nat.le_refl _)

/-- A boundary of no instruction changes CUTWHY alone. -/
theorem cutChunk_empty {s : State} (hc : s.th.chunk.count = 0) (code : Nat) :
    ∃ w, s.cutChunk s.cur code = s.modTh fun th => { th with cutwhy := w } := by
  have h : (s.thr s.cur).chunk.count = 0 := hc
  simp only [State.cutChunk, h, if_true]
  exact ⟨_, rfl⟩

/-- The registers of a thread that begins an event: its entry image, and the event's key and time (R260). -/
def eventRegs (r : Regs) (m : Msg) (pc : Word) : Regs :=
  { r.loadImage r.opt.image with
    opt := { r.opt with inEvent := true, evKey := m.key, evVrt := m.vrt, evPc := pc, lvt := m.vrt, logged := [] } }

/-- The message of an event is processed and taken (R260). -/
def messageBegun (s : State) (m : Msg) : State :=
  s.modTh fun th => { th with
    recvq := putMsg { m with processed := true } th.recvq
    chunk := { th.chunk with taken := m :: th.chunk.taken } }

/-- The registers are the event's (R260). -/
def imageLoaded (s : State) (m : Msg) : State := s.modRegs fun r => eventRegs r m s.pc

/-- The state in which an event has begun, its message given out apart. -/
def eventEntered (s : State) (m : Msg) : State := imageLoaded (messageBegun (captureImage (s.cutChunk s.cur 9)) m) m

/-- The state that RECVT leaves: the payload and the image are on their way. -/
def eventBegun (s : State) (d : Reg) (m : Msg) : State :=
  giveMessage (countEvent (eventEntered s m) (eventEntered s m).cur 13 1) d (s.msgPayload s.cur m) (s.msgImage s.cur m)

theorem Local.messageBegun (s : State) (m : Msg) : Local 0 0 s (messageBegun s m) :=
  Local.noteTh rfl rfl rfl ⟨rfl, rfl, rfl, rfl⟩

theorem Local.imageLoaded (s : State) (m : Msg) : Local 0 0 s (imageLoaded s m) := by
  rw [Machine.imageLoaded, State.modRegs_eq]
  exact .of_setThr rfl rfl rfl rfl rfl rfl rfl (Nat.le_refl _) (Nat.le_refl _) (Nat.le_refl _)

theorem Local.cutChunk_empty {s : State} (hc : s.th.chunk.count = 0) (code : Nat) : Local 0 0 s (s.cutChunk s.cur code) := by
  obtain ⟨w, hcut⟩ := Machine.cutChunk_empty hc code
  rw [hcut]
  exact Local.modTh ⟨rfl, rfl, rfl, rfl⟩

theorem Local.eventEntered {s : State} (m : Msg) (hc : s.th.chunk.count = 0) : Local 3904 0 s (eventEntered s m) :=
  (((Local.cutChunk_empty hc 9).trans (.captureImage _)).trans (.messageBegun _ m)).trans (.imageLoaded _ m)

theorem Local.eventBegun {s : State} (d : Reg) (m : Msg) (hc : s.th.chunk.count = 0) : Local 4128 0 s (eventBegun s d m) :=
  ((Local.eventEntered m hc).trans (.countEvent _ 13 1)).trans (.giveMessage ..)

theorem recvt_does {s : State} (p : Bool) (d : Reg) {m : Msg} (h : Calm s) (hon : s.th.regs.opt.on = true)
    (hev : s.th.regs.opt.inEvent = false) (hc : s.th.chunk.count = 0) (hm : leastTimed s.th.recvq = some m)
    (hs : ringStop s d m = none) : Does (.recvt p d) s (eventBegun s d m) := by
  refine (runInstr_none (if_pos (by rw [hon, hev]; rfl)) ..).trans 
    (run_calm (a := .seq) h ?_ (Local.eventBegun d m hc) (by decide) (by decide) ⟨nofun, nofun⟩)
  simp only [noRewrite_of_ready h.toReady, hc, hm, hs, bind, Except.bind, ne_eq, not_true, if_false]
  rfl

theorem countEvent_regs (s : State) (ev n : Nat) : (countEvent s s.cur ev n).th.regs = s.th.regs := by
  unfold countEvent
  dsimp only
  split
  · show ((s.modTh _).th).regs = _
    rw [State.th_modTh]
  · rfl

theorem Frame.countEvent (s : State) (ev n : Nat) : Frame s (countEvent s s.cur ev n) := by
  unfold Machine.countEvent
  dsimp only
  split
  · exact Frame.modTh rfl
  · exact .refl s

theorem giveMessage_regs (s : State) (d : Reg) (v w : VReg) :
    ∃ l, (giveMessage s d v w).th.regs = { s.th.regs with marks := l } := by
  rw [giveMessage, State.setLong_regs, State.setLong_regs]
  exact ⟨_, rfl⟩

theorem captureImage_regs (s : State) : (captureImage s).th.regs = s.th.regs := captures_regs s _

theorem messageBegun_regs (s : State) (m : Msg) : (messageBegun s m).th.regs = s.th.regs := by rw [messageBegun, State.th_modTh]

theorem imageLoaded_regs (s : State) (m : Msg) : (imageLoaded s m).th.regs = eventRegs s.th.regs m s.pc := by
  rw [imageLoaded, State.modRegs_eq, State.th_setThr_cur]

theorem cutChunk_empty_regs {s : State} (hc : s.th.chunk.count = 0) (code : Nat) : (s.cutChunk s.cur code).th.regs = s.th.regs := by
  obtain ⟨w, hcut⟩ := cutChunk_empty hc code
  rw [hcut, State.th_modTh]

theorem eventBegun_regs {s : State} (d : Reg) (m : Msg) (hc : s.th.chunk.count = 0) :
    ∃ l, (eventBegun s d m).th.regs = { eventRegs s.th.regs m s.pc with marks := l } := by
  have hregs : (messageBegun (captureImage (s.cutChunk s.cur 9)) m).th.regs = s.th.regs := by
    rw [messageBegun_regs, captureImage_regs, cutChunk_empty_regs hc]
  have hentered : (eventEntered s m).th.regs = eventRegs s.th.regs m s.pc := by
    rw [eventEntered, imageLoaded_regs, State.pc, hregs, State.pc]
  rw [eventBegun, ← hentered, ← countEvent_regs (eventEntered s m) 13 1]
  exact giveMessage_regs ..

theorem Frame.captureImage (s : State) : Frame s (captureImage s) := .captures s _

theorem Frame.messageBegun (s : State) (m : Msg) : Frame s (messageBegun s m) := .modTh rfl

theorem Frame.imageLoaded (s : State) (m : Msg) : Frame s (imageLoaded s m) := .modRegs ..

theorem Frame.giveMessage (s : State) (d : Reg) (v w : VReg) : Frame s (giveMessage s d v w) :=
  (Frame.setLong s .message (.v d v) none).trans (.setLong _ .message (.v (d + 1) w) none)

theorem eventBegun_mem {s : State} (d : Reg) (m : Msg) (hc : s.th.chunk.count = 0) : (eventBegun s d m).mem = s.mem := by
  obtain ⟨w, hcut⟩ := cutChunk_empty hc 9
  have hmem : (s.cutChunk s.cur 9).mem = s.mem := by rw [hcut]; rfl
  have k : Frame (s.cutChunk s.cur 9) (eventBegun s d m) :=
    ((((Frame.captureImage _).trans (.messageBegun _ m)).trans (.imageLoaded _ m)).trans (.countEvent _ 13 1)).trans (.giveMessage ..)
  exact k.1.trans hmem

/-! ### STIRV, EVEND and OPTOFF -/

theorem stirv_does {s t : State} (p : Bool) (a b : Reg) {pa va : Nat} (h : Calm s) (hev : s.inEvent = true)
    (hc : checkVa s .store (s.x a) 8 = .ok (t, pa, va)) (hroom : s.th.regs.opt.irr.length + pendingIrr t t.cur < s.th.regs.opt.ient) :
    Does (.stirv p a b) s (t.postCommit (.irrLog ⟨s.th.regs.opt.evKey, pa, t.x b, 0⟩)) := by
  have hon : s.th.regs.opt.on = true := (Bool.and_eq_true_iff.1 hev).1
  refine (runInstr_none (if_pos hon) ..).trans
    (run_calm (a := .seq) h ?_ ((Local.checkVa hc).trans (.postCommit t _)) (by decide) (by decide) ⟨nofun, nofun⟩)
  simp only [inEvent_event hev, hc, Nat.not_le.2 hroom, bind, Except.bind, Bool.not_true, Bool.false_eq_true, if_false]

theorem evend_settled {s : State} (p : Bool) (h : Calm s) :
    (s.inEvent = true → Ends (.evend p) s (s.modRegs fun r => { r with opt := r.opt.endEvent }) 10 .ready) ∧
    (s.inEvent = false → Traps (.evend p) s 2 ((encode (.evend p)).setWidth 64)) := by
  refine ⟨fun hev => (runInstr_none (if_pos hev) ..).trans (run_ends (code := 10) (w := none) h rfl (.modRegs rfl rfl) (by decide)
    (by decide) (by decide)), fun hev => runInstr_illegal h.live (if_neg (ne_true_of_eq_false hev)) ..⟩

theorem optoff_settled {s : State} (p : Bool) (h : Calm s) (hon : s.th.regs.opt.on = true) (hev : s.th.regs.opt.inEvent = false) :
    (optoffWaits s s.cur = true → Ends (.optoff p) s s 6 (.wait (.optoff false))) ∧
    (optoffWaits s s.cur = false → Does (.optoff p) s (s.modRegs Regs.leaveOpt)) := by
  have hearly : (if s.th.regs.opt.on && !s.th.regs.opt.inEvent then none else some (illegal (.optoff p))) = none := by
    rw [hon, hev]; rfl
  refine ⟨fun hw => (runInstr_none hearly ..).trans (run_ends (code := 6) (w := some (.optoff false)) h ?_ (.refl s) (by decide)
    (by decide) (by decide)), fun hw => (runInstr_none hearly ..).trans (run_calm (a := .seq) h ?_ (.modRegs rfl rfl) (by decide)
    (by decide) ⟨nofun, nofun⟩)⟩
  · simp only [noRewrite_of_ready h.toReady, hw, bind, Except.bind, if_true]
  · simp only [noRewrite_of_ready h.toReady, hw, bind, Except.bind, Bool.false_eq_true, if_false]

/-- Settles O35. `Tests.witness_optimistic` meets the premises. -/
theorem optimisticEvents : Obligations.OptimisticEvents := by
  refine ⟨fun s t p a va bs h hon hp hal hl hok => ?_, fun s p d m h hon hev hc hm hs => ?_,
    fun s t p a b pa va h hev hc hroom => stirv_does p a b h hev hc hroom,
    fun s p h => ⟨(evend_settled p h).1, (evend_settled p h).2, fun hon hev => optoff_settled p h hon hev⟩⟩
  · have hregs : (completed (t.modRegs fun r => { r with opt := enteredMode va (lineWord bs) r }) (s.pc + 4) .ready).th.regs =
        { s.th.regs with opt := enteredMode va (lineWord bs) s.th.regs, pc := s.pc + 4 } := by
      rw [completed_regs, State.modRegs_eq, State.th_setThr_cur, (SameRegs.loadVa hl).1]
    refine ⟨_, opton_does p a h hon hp hal hl hok, ?_⟩
    exact ⟨congrArg (fun r : Regs => r.opt.on) hregs, congrArg (fun r : Regs => r.opt.inEvent) hregs,
      congrArg (fun r : Regs => r.opt.sbase) hregs, congrArg (fun r : Regs => r.opt.ssize) hregs,
      congrArg (fun r : Regs => r.opt.lvt) hregs, congrArg (fun r : Regs => r.opt.image.x) hregs,
      congrArg (fun r : Regs => r.opt.image.v) hregs, congrArg Regs.pc hregs⟩
  · obtain ⟨l, hl⟩ := eventBegun_regs d m hc
    have hregs : (completed (eventBegun s d m) (s.pc + 4) .ready).th.regs =
        { eventRegs s.th.regs m s.pc with marks := l, pc := s.pc + 4 } := by rw [completed_regs, hl]
    refine ⟨_, recvt_does p d h hon hev hc hm hs, ?_⟩
    exact ⟨congrArg (fun r : Regs => r.opt.inEvent) hregs, congrArg (fun r : Regs => r.opt.evKey) hregs,
      congrArg (fun r : Regs => r.opt.evVrt) hregs, congrArg (fun r : Regs => r.opt.evPc) hregs,
      congrArg (fun r : Regs => r.opt.lvt) hregs, congrArg (fun r : Regs => r.x) hregs, congrArg Regs.pc hregs,
      (completed_mem ..).trans (eventBegun_mem d m hc)⟩

end Sys2Proof.Machine
end

section
/-!
PROOFS. Tasks (01_machine R39, R40, 21_scheduling R305 to R313).
-/
namespace Sys2Proof.Machine

/-! ## Kennels (R39, R302) -/

/-- A step that changes no thread and not which is current. -/
def SameThreads (s t : State) : Prop := t.threads = s.threads ∧ t.cur = s.cur

theorem SameThreads.refl (s : State) : SameThreads s s := ⟨rfl, rfl⟩

theorem SameThreads.trans {s t u : State} (h : SameThreads s t) (k : SameThreads t u) : SameThreads s u :=
  ⟨k.1.trans h.1, k.2.trans h.2⟩

theorem SameThreads.local {s t : State} (h : SameThreads s t) : Local 0 0 s t := .of_threads h.1 h.2

theorem SameThreads.spillOldest (core l n : Nat) (s : State) : SameThreads s (spillOldest core l n s) := by
  induction n generalizing s with
  | zero => exact .refl s
  | succ n ih =>
    unfold Machine.spillOldest
    dsimp only
    split
    · exact .refl s
    · exact SameThreads.trans ⟨rfl, rfl⟩ (ih _)

theorem SameThreads.refillYoungest (core l n : Nat) (s : State) : SameThreads s (refillYoungest core l n s) := by
  induction n generalizing s with
  | zero => exact .refl s
  | succ n ih =>
    unfold Machine.refillYoungest
    dsimp only
    split
    · exact .refl s
    · exact SameThreads.trans ⟨rfl, rfl⟩ (ih _)

theorem SameThreads.settleKennel (s : State) (core l : Nat) : SameThreads s (settleKennel s core l) := by
  unfold Machine.settleKennel
  dsimp only
  split
  · exact .spillOldest ..
  · split
    · exact .refillYoungest ..
    · exact .refl s

theorem SameThreads.pushEntry (s : State) (core l : Nat) (e : KEntry) : SameThreads s (s.pushEntry core l e) :=
  SameThreads.trans ⟨rfl, rfl⟩ (.settleKennel ..)

/-- An entry pushed where the Kennel neither spills nor refills. -/
theorem pushEntry_settled {s : State} {core l : Nat} {e : KEntry}
    (h255 : (((s.coreOf core).kennel l).filter fun e => !e.spilled).length < 255)
    (h64 : 64 ≤ (((s.coreOf core).kennel l).filter fun e => !e.spilled).length) (he : e.spilled = false) :
    s.pushEntry core l e = s.modCore core fun c => c.setKennel l ((s.coreOf core).kennel l ++ [e]) := by
  have hcount : (((s.coreOf core).kennel l ++ [e]).filter fun e => !e.spilled).length =
      (((s.coreOf core).kennel l).filter fun e => !e.spilled).length + 1 := by
    rw [List.filter_append, List.length_append, List.filter_cons_of_pos (by rw [he]; rfl), List.filter_nil]
    rfl
  have hk : ((s.modCore core fun c => c.setKennel l (c.kennel l ++ [e])).coreOf core).kennel l = (s.coreOf core).kennel l ++ [e] := by
    rw [State.coreOf_modCore, if_pos rfl, Core.kennel, Core.setKennel, tabGet_tabSet_same]
  have hstay : settleKennel (s.modCore core fun c => c.setKennel l (c.kennel l ++ [e])) core l =
      s.modCore core fun c => c.setKennel l (c.kennel l ++ [e]) := by
    unfold settleKennel
    dsimp only
    rw [hk, hcount, if_neg (by omega), if_neg (by omega)]
  rw [State.pushEntry, hstay]
  rfl

/-! ## SPAWN and TAKE (R306, R307, R312) -/

theorem taskIllegal_none {s : State} (h : Ready s) (hd : s.launch.det = false) (i : Instr) (det : Bool) : taskIllegal s i det = none := by
  simp only [taskIllegal, hd, h.noRewrite, Bool.and_false, Bool.or_self, Bool.false_eq_true, if_false]

section
variable {s : State} (p : Bool) (d a b : Reg) (h : Calm s) (he : s.inEvent = false)
include h he

theorem spawn_does (hd : s.launch.det = false) (hpc : taskPcOk (s.x a) = true) (hfree : 0 < (s.coreOf s.th.placeCore).freePlaces s.th.lid) :
    Does (.spawn p a b) s (s.pushEntry s.th.placeCore s.th.lid ⟨false, s.x a, s.x b, some s.th.chunk.uid, none, false, 0⟩) := by
  refine (runInstr_none (taskIllegal_none h.toReady hd ..) ..).trans
    (run_calm (a := .seq) h ?_ (SameThreads.pushEntry ..).local (by decide) (by decide) ⟨nofun, nofun⟩)
  simp only [notInEvent_of he, hpc, Nat.ne_of_gt hfree, bind, Except.bind, Bool.not_true, Bool.false_eq_true, if_false]
  rfl

theorem spawn_traps (hd : s.launch.det = false) (hpc : taskPcOk (s.x a) = false) : Traps (.spawn p a b) s 55 (s.x a) := by
  refine (runInstr_none (taskIllegal_none h.toReady hd ..) ..).trans (run_trap h.toReady ?_)
  simp only [notInEvent_of he, hpc, bind, Except.bind, Bool.not_false, if_true]

end

theorem Local.setFarPair (s : State) (d : Reg) (w v : Word) : Local 128 0 s (s.setFarPair d w v) :=
  (Local.setLong s .far (.x d w) none).trans (.setLong _ .far (.x (d + 1) v) none) |>.mono
    (by simp [undoSize, regSize, roundUp, RegVal.name]) (Nat.le_refl _)

/-- Reserving an entry changes the Kennel alone. -/
theorem Local.reserveEntry (s : State) (core i : Nat) : Local 0 0 s (reserveEntry s core i) := .of_threads rfl rfl

section
variable {s : State} (p : Bool) (d : Reg) (h : Calm s) (he : s.inEvent = false)
include h he

theorem take_does (hd : s.launch.det = false) (ht : s.th.regs.tasks = none) {i : Nat} {e : KEntry}
    (hi : youngest false ((s.coreOf s.th.placeCore).kennel s.th.lid) = some i) (hk : ((s.coreOf s.th.placeCore).kennel s.th.lid)[i]? = some e) :
    Does (.take p d) s ((reserveEntry s s.th.placeCore i).setFarPair d (s.readEntry s.th.placeCore s.th.lid e).w0
      (s.readEntry s.th.placeCore s.th.lid e).w1) := by
  refine run_calm (a := .seq) h ?_ ((Local.reserveEntry ..).trans (.setFarPair ..)) (by decide) (by decide) ⟨nofun, nofun⟩
  simp only [notInEvent_of he, noRewrite_of_ready h.toReady, ht, hd, hi, hk, bind, Except.bind, Bool.false_eq_true, if_false,
    Option.map_some, Option.getD_some]

theorem take_waits (hd : s.launch.det = false) (ht : s.th.regs.tasks = none)
    (hi : youngest false ((s.coreOf s.th.placeCore).kennel s.th.lid) = none) : Ends (.take p d) s s 18 (.wait (.take d)) := by
  refine run_ends (code := 18) (w := some (.take d)) h ?_ (.refl s) (by decide) (by decide) (by decide)
  simp only [notInEvent_of he, noRewrite_of_ready h.toReady, ht, hd, hi, bind, Except.bind, Bool.false_eq_true, if_false]

theorem take_exhausted {t : TaskList} (ht : s.th.regs.tasks = some t)
    (hl : listPlace t s.th.lindex s.th.regs.taskPos s.launch.threads = none) :
    Does (.take p d) s ((s.modRegs fun r => { r with taskPos := s.th.regs.taskPos + 1 }).setFarPair d 0 0) := by
  have hlocal : Local 0 0 s (s.modRegs fun r => { r with taskPos := s.th.regs.taskPos + 1 }) := .modRegs rfl rfl
  refine run_calm (a := .seq) h ?_ (hlocal.trans (.setFarPair ..)) (by decide) (by decide) ⟨nofun, nofun⟩
  have hl' : listPlace t (s.modRegs fun r => { r with taskPos := s.th.regs.taskPos + 1 }).th.lindex s.th.regs.taskPos
      (s.modRegs fun r => { r with taskPos := s.th.regs.taskPos + 1 }).launch.threads = none := by
    simp only [State.launch, State.modRegs_eq, State.th_setThr_cur]
    exact hl
  simp only [notInEvent_of he, noRewrite_of_ready h.toReady, ht, hl', bind, Except.bind]

end

/-! ## The task table (R308 to R311) -/

/-- The state that TNEW of a join entry leaves (R309). -/
def joinAllocated (s : State) (d b : Reg) (i : Nat) : State :=
  ((s.modChunk fun c => { c with news := c.news ++ [(i, 0, 0, (s.x b).setWidth 32)] }).modChunk fun c =>
    { c with newJoins := i :: c.newJoins }).setX d
      (BitVec.ofNat 64 (coreY s.th.placeCore * 2 ^ 24 + coreX s.th.placeCore * 2 ^ 16 + i))

theorem Local.joinAllocated (s : State) (d b : Reg) (i : Nat) : Local 32 0 s (joinAllocated s d b i) := by
  refine Local.trans (n := 0) (m := 0) ?_ (Local.setX ..)
  refine Local.noteChunk ?_ fun _ => ⟨rfl, rfl, rfl, rfl⟩
  exact Local.noteChunk (.refl s) fun _ => ⟨rfl, rfl, rfl, rfl⟩

theorem modChunk_x (s : State) (f : Chunk → Chunk) (r : Reg) : (s.modChunk f).x r = s.x r := by
  simp only [State.x, State.modChunk_eq, State.th_setThr_cur]

theorem setX_chunk (s : State) (d : Reg) (w : Word) : ∃ l, (s.setX d w).th.chunk = { s.th.chunk with undo := l } := by
  unfold State.setX
  split
  · exact ⟨_, rfl⟩
  · simp only [State.capture, State.modRegs_eq, State.modChunk_eq, State.th_setThr_cur]
    exact ⟨_, rfl⟩

theorem tnew_does {s : State} (p : Bool) (d a b : Reg) {i : Nat} (h : Calm s) (he : s.inEvent = false) (hd : s.launch.det = false)
    (hcsp : s.launch.csp ≠ 0) (ha : s.x a = 0) (hb : s.x b ≠ 0) (hlt : (s.x b).toNat < 2 ^ 32)
    (hi : freeIndex s s.th.placeCore = some i) : Does (.tnew p d a b) s (joinAllocated s d b i) := by
  have hn : ¬ (s.x b = 0 ∨ 2 ^ 32 ≤ (s.x b).toNat) := not_or.2 ⟨hb, Nat.not_le.2 hlt⟩
  refine (runInstr_none (taskIllegal_none h.toReady hd ..) ..).trans
    (run_calm (a := .seq) h ?_ (.joinAllocated s d b i) (by decide) (by decide) ⟨nofun, nofun⟩)
  simp only [notInEvent_of he, hcsp, hn, ha, hi, modChunk_x, bind, Except.bind, if_false, if_true, decide_true]
  rfl

theorem needHandle_of {s : State} {w : Word} {q : Nat × Nat} (h : handleOf s s.th.lid w = some q) : needHandle s w = .ok q := by
  rw [needHandle, h]

theorem needHandle_bad {s : State} {w : Word} (h : handleOf s s.th.lid w = none) : needHandle s w = .error (.trap 55 w) := by
  rw [needHandle, h]

section
variable {s : State} (p : Bool) (a : Reg) (h : Calm s) (he : s.inEvent = false) (hd : s.launch.det = false)
include h he hd

theorem tdec_does {q : Nat × Nat} (hq : handleOf s s.th.lid (s.x a) = some q) :
    Does (.tdec p a) s (s.postCommit (.decrement (s.x a))) := by
  refine (runInstr_none (taskIllegal_none h.toReady hd ..) ..).trans
    (run_calm (a := .seq) h ?_ (.postCommit ..) (by decide) (by decide) ⟨nofun, nofun⟩)
  simp only [notInEvent_of he, needHandle_of hq, bind, Except.bind]

theorem join_body {q : Nat × Nat} (hq : handleOf s s.th.lid (s.x a) = some q) :
    ∃ body, exec (.join p a) s = runInstr p none [.x a] body s ∧ body s =
      (if joinComing s s.cur q.1 q.2 then .ok (s, .cut 8 (some (.join (s.x a))))
      else
        let (st, n, s') := readEntry s (taskEntry s s.th.lid q.1 q.2)
        if s'.launch.csp = 0 ∨ st ≠ 2 then .error (.trap 55 (s.x a))
        else if n = 0 then .ok (s'.modChunk fun c => { c with joins := c.joins ++ [s.x a] }, .seq)
        else .ok (s', .cut 8 (some (.join (s.x a))))) :=
  ⟨_, runInstr_none (if_neg (ne_true_of_eq_false hd)) .., (bind_ok (notInEvent_of he 0)).trans
    ((bind_ok (noRewrite_of_ready h.toReady)).trans (bind_ok (needHandle_of hq)))⟩

theorem join_settled {core i : Nat} (hq : handleOf s s.th.lid (s.x a) = some (core, i)) :
    (joinComing s s.cur core i = true → Ends (.join p a) s s 8 (.wait (.join (s.x a)))) ∧
    (joinComing s s.cur core i = false → s.launch.csp ≠ 0 → s.spoiled.contains (taskEntry s s.th.lid core i) = false →
      taskState s (taskEntry s s.th.lid core i) = 2 →
      (taskCount s (taskEntry s s.th.lid core i) = 0 →
        Does (.join p a) s (s.modChunk fun c => { c with joins := c.joins ++ [s.x a] })) ∧
      (taskCount s (taskEntry s s.th.lid core i) ≠ 0 → Ends (.join p a) s s 8 (.wait (.join (s.x a))))) := by
  obtain ⟨body, hexec, hbody⟩ := join_body p a h he hd hq
  refine ⟨fun hc => ?_, fun hc hcsp hsp hst => ?_⟩
  · rw [if_pos hc] at hbody
    exact hexec.trans (run_ends (code := 8) (w := some (.join (s.x a))) h hbody (.refl s) (by decide) (by decide) (by decide))
  · have hread : readEntry s (taskEntry s s.th.lid core i) =
        (taskState s (taskEntry s s.th.lid core i), taskCount s (taskEntry s s.th.lid core i), s) :=
      if_neg (ne_true_of_eq_false hsp)
    have hgood : ¬ (s.launch.csp = 0 ∨ taskState s (taskEntry s s.th.lid core i) ≠ 2) := by simp [hcsp, hst]
    simp only [hc, hread, hgood, Bool.false_eq_true, if_false] at hbody
    refine ⟨fun hz => ?_, fun hz => ?_⟩
    · rw [if_pos hz] at hbody
      exact hexec.trans (run_calm (a := .seq) h hbody ((Local.refl s).noteChunk fun _ => ⟨rfl, rfl, rfl, rfl⟩) (by decide) (by decide)
        ⟨nofun, nofun⟩)
    · rw [if_neg hz] at hbody
      exact hexec.trans (run_ends (code := 8) (w := some (.join (s.x a))) h hbody (.refl s) (by decide) (by decide) (by decide))

theorem badHandle_traps (hq : handleOf s s.th.lid (s.x a) = none) :
    Traps (.tdec p a) s 55 (s.x a) ∧ Traps (.join p a) s 55 (s.x a) := by
  refine ⟨(runInstr_none (taskIllegal_none h.toReady hd ..) ..).trans (run_trap h.toReady ?_),
    (runInstr_none (if_neg (ne_true_of_eq_false hd)) ..).trans (run_trap h.toReady ?_)⟩
  · simp only [notInEvent_of he, needHandle_bad hq, bind, Except.bind]
  · simp only [notInEvent_of he, noRewrite_of_ready h.toReady, needHandle_bad hq, bind, Except.bind]

end

/-! ## TLIST and TEXIT (R312, R313) -/

theorem taskIllegal_always {s : State} (h : Ready s) (i : Instr) : taskIllegal s i false = none := by
  simp only [taskIllegal, h.noRewrite, Bool.false_and, Bool.or_self, Bool.false_eq_true, if_false]

theorem tlist_leaves {s : State} (p : Bool) (a : Reg) (h : Calm s) (he : s.inEvent = false) (ha : s.x a = 0) :
    Does (.tlist p a) s (s.modRegs fun r => { r with tasks := none, taskPos := 0 }) := by
  refine (runInstr_none (taskIllegal_always h.toReady _) ..).trans
    (run_calm (a := .seq) h ?_ (.modRegs rfl rfl) (by decide) (by decide) ⟨nofun, nofun⟩)
  simp only [notInEvent_of he, ha, bind, Except.bind, if_true]

theorem texit_ends {s : State} (p : Bool) (h : Calm s) (he : s.inEvent = false) (hon : s.th.regs.opt.on = false) :
    Ends (.texit p) s (s.modChunk fun c => { c with exits := true }) 24 .ready := by
  refine (runInstr_none (taskIllegal_always h.toReady _) ..).trans
    (run_ends (code := 24) (w := none) h ?_ ((Local.refl s).noteChunk fun _ => ⟨rfl, rfl, rfl, rfl⟩) (by decide) (by decide) (by decide))
  simp only [he, hon, Bool.false_and, Bool.false_eq_true, if_false]

/-- Settles O36. `Tests.witness_tasks` and `Tests.witness_table` meet the premises. -/
theorem taskInstructions : Obligations.TaskInstructions := by
  refine ⟨fun s p d a b h he hd => ⟨fun hpc hfree => spawn_does p a b h he hd hpc hfree,
      fun e h255 h64 hs => pushEntry_settled h255 h64 hs, fun hpc => spawn_traps p a b h he hd hpc,
      fun i e ht hi hk => take_does p d h he hd ht hi hk, fun e => ⟨fun hs => ?_, fun hs => ?_⟩,
      fun ht hi => take_waits p d h he hd ht hi, fun t ht hl => take_exhausted p d h he ht hl⟩,
    fun s p d a b i h he hd hcsp ha hb hlt hi => ?_, fun s p a core i h he hd hq => ?_,
    fun s p a h he hd hq => badHandle_traps p a h he hd hq,
    fun s p a h he => ⟨fun ha => tlist_leaves p a h he ha, fun hon => texit_ends p h he hon⟩⟩
  · exact if_neg (ne_true_of_eq_false hs)
  · rw [State.readEntry, if_pos hs]
  · obtain ⟨l, hl⟩ := setX_chunk ((s.modChunk fun c => { c with news := c.news ++ [(i, 0, 0, (s.x b).setWidth 32)] }).modChunk fun c =>
      { c with newJoins := i :: c.newJoins }) d (BitVec.ofNat 64 (coreY s.th.placeCore * 2 ^ 24 + coreX s.th.placeCore * 2 ^ 16 + i))
    refine ⟨_, tnew_does p d a b h he hd hcsp ha hb hlt hi, completed_pc .., ?_, ?_, ?_, ?_⟩
    · rw [completed_mem, joinAllocated, State.setX_mem]; rfl
    · rw [completed_x, joinAllocated, State.x_setX_same]
    · rw [completed_chunk, joinAllocated, hl]
      simp only [State.modChunk_eq, State.th_setThr_cur]
    · rw [completed_chunk, joinAllocated, hl]
      simp only [State.modChunk_eq, State.th_setThr_cur]
  · exact ⟨tdec_does p a h he hd hq, (join_settled p a h he hd hq).1, (join_settled p a h he hd hq).2⟩

end Sys2Proof.Machine
end

section
/-!
PROOFS. Interaction nets (19_nets R277 to R294).
-/
namespace Sys2Proof.Machine

/-! ## Accesses of a rewrite -/

/-- Reads of a thread: within the frame without a capture or a line more, and its chunk stays the rewrite's or not. -/
def Reads (s t : State) : Prop := Local 0 0 s t ∧ t.th.chunk.rewrite = s.th.chunk.rewrite

theorem Reads.refl (s : State) : Reads s s := ⟨.refl s, rfl⟩

theorem Reads.trans {s t u : State} (h : Reads s t) (k : Reads t u) : Reads s u := ⟨h.1.trans k.1, k.2.trans h.2⟩

theorem Reads.of_threads {s t : State} (ht : t.threads = s.threads) (hc : t.cur = s.cur) : Reads s t := by
  have hth : t.th = s.th := by rw [State.th, State.th, State.thr, State.thr, ht, hc]
  exact ⟨.of_threads ht hc, by rw [hth]⟩

theorem Reads.modChunk {s : State} {f : Chunk → Chunk} (h : ∀ c, (f c).count = c.count ∧ (f c).undo = c.undo ∧ (f c).wlines = c.wlines ∧
    (f c).ovf = c.ovf) (hr : ∀ c, (f c).rewrite = c.rewrite) : Reads s (s.modChunk f) := by
  refine ⟨(Local.refl s).noteChunk h, ?_⟩
  rw [State.modChunk_eq, State.th_setThr_cur]
  exact hr _

theorem Reads.postCommit (s : State) (a : Act) : Reads s (s.postCommit a) :=
  .modChunk (fun _ => ⟨rfl, rfl, rfl, rfl⟩) fun _ => rfl

theorem Reads.translateTh {s t : State} {acc : Acc} {va pa : Nat} {lp : Bool} (h : translateTh s acc va = .ok (t, pa, lp)) : Reads s t :=
  .of_threads (translateTh_threads h).1 (translateTh_threads h).2

/-- Reads and writes of a thread: within the frame, and its chunk stays the rewrite's or not. -/
def Onward (s t : State) : Prop := Within s t ∧ t.th.chunk.rewrite = s.th.chunk.rewrite

theorem Onward.refl (s : State) : Onward s s := ⟨.refl s, rfl⟩

theorem Onward.trans {s t u : State} (h : Onward s t) (k : Onward t u) : Onward s u := ⟨h.1.trans k.1, k.2.trans h.2⟩

theorem Reads.onward {s t : State} (h : Reads s t) : Onward s t := ⟨h.1.within, h.2⟩

theorem enterRead_rewrite (s : State) (pa n va : Nat) : (s.enterRead pa n va).th.chunk.rewrite = s.th.chunk.rewrite := by
  unfold State.enterRead
  rw [State.modChunk_eq, State.th_setThr_cur]

theorem fillLine_th (s : State) (core pa : Nat) : (s.fillLine core pa).th = s.th := by
  unfold State.fillLine
  dsimp only
  split
  · rfl
  · exact makeWay_th ..

theorem Reads.readPlain {s t : State} {pa n va : Nat} {w : Bool} {bs : List Byte} (h : readPlain s pa n va w = .ok (t, bs)) : Reads s t := by
  refine ⟨.readPlain h, ?_⟩
  simp only [Machine.readPlain] at h
  repeat' split at h
  all_goals cases h
  · exact enterRead_rewrite ..
  · rw [enterRead_rewrite, fillLine_th]

theorem Reads.loadVa {s t : State} {va n : Nat} {w : Bool} {bs : List Byte} (h : loadVa s va n w = .ok (t, bs)) : Reads s t := by
  simp only [Machine.loadVa] at h
  repeat' split at h
  · cases h
  · cases h
  · next h1 => exact (Reads.translateTh h1).trans (.readPlain h)

theorem enterWrite_rewrite (s : State) (pa va : Nat) : (s.enterWrite pa va).th.chunk.rewrite = s.th.chunk.rewrite := by
  unfold State.enterWrite
  simp only [State.modChunk_eq]
  split
  · rfl
  · split
    · rw [State.th_setThr_cur]
    · rw [State.th_setThr_cur, makeWay_th]

theorem inject_chunk (s : State) (a c o b : Nat) : (s.inject a c o b).th.chunk = s.th.chunk := by
  unfold State.inject
  dsimp only
  split
  · split
    · rfl
    · rw [State.th_modTh, State.th_modCore]
  · rfl

theorem Onward.writePlain {s t : State} {pa va : Nat} {bs : List Byte} (h : writePlain s pa va bs = .ok t) : Onward s t := by
  refine ⟨(Local.writePlain h).within, ?_⟩
  simp only [Machine.writePlain] at h
  repeat' split at h
  all_goals cases h
  all_goals
    unfold State.specWrite
    dsimp only
    rw [inject_chunk, State.th_modCore, State.modChunk_eq, State.th_setThr_cur]
    exact enterWrite_rewrite ..

theorem Onward.writeRing {s t : State} {va k : Nat} {bs : List Byte} (h : writeRing s va bs k = .ok t) : Onward s t := by
  induction k generalizing s va bs with
  | zero => cases bs <;> (simp only [Machine.writeRing] at h; cases h; exact .refl _)
  | succ k ih =>
    cases bs with
    | nil => simp only [Machine.writeRing] at h; cases h; exact .refl _
    | cons b bs =>
      simp only [Machine.writeRing] at h
      split at h
      · cases h
      · next h1 =>
        split at h
        · cases h
        · next h2 => exact ((Reads.translateTh h1).onward.trans (.writePlain h2)).trans (ih h)

theorem Onward.pushUndo {s t : State} {va pa : Nat} (h : pushUndo s va pa = .ok t) : Onward s t := by
  simp only [Machine.pushUndo] at h
  repeat' split at h
  all_goals cases h
  · exact .refl s
  · next h1 =>
    refine (Onward.writeRing h1).trans ⟨(Local.modRegs rfl rfl).within, ?_⟩
    rw [State.modRegs_eq, State.th_setThr_cur]

theorem Onward.storeVa {s t : State} {va : Nat} {bs : List Byte} (h : storeVa s va bs = .ok t) : Onward s t := by
  simp only [Machine.storeVa, Machine.storeAt, Machine.storeTo] at h
  split at h
  · cases h
  · split at h
    · cases h
    · split at h
      · cases h
      · next h1 =>
        refine (Reads.translateTh h1).onward.trans ?_
        repeat' split at h
        · cases h
        · cases h
        · next h2 => exact (Onward.pushUndo h2).trans (.writePlain h)
        · exact .writePlain h

/-! ## Words, nodes and the pool (R277, R289, R293) -/

/-- A do-block of two steps that succeeds. -/
theorem bind_eq_ok {α β : Type} {x : Except Stop α} {f : α → Except Stop β} {b : β} (h : (x >>= f) = .ok b) :
    ∃ a, x = .ok a ∧ f a = .ok b := by
  cases x with
  | error e => cases h
  | ok a => exact ⟨a, rfl, h⟩

theorem Reads.readWord {s t : State} {va : Nat} {w : Word} (h : readWord s va = .ok (t, w)) : Reads s t := by
  obtain ⟨q, hq, h⟩ := bind_eq_ok h
  cases h
  exact .loadVa hq

theorem SameRegs.readWord {s t : State} {va : Nat} {w : Word} (h : readWord s va = .ok (t, w)) : SameRegs s t := by
  obtain ⟨q, hq, h⟩ := bind_eq_ok h
  cases h
  exact .loadVa hq

theorem Onward.writeWord {s t : State} {va : Nat} {w : Word} (h : writeWord s va w = .ok t) : Onward s t := .storeVa h

theorem Reads.loadMany {s t : State} {n : Nat} {w : Bool} {as : List Nat} {bs : List (List Byte)} (h : loadMany s n w as = .ok (t, bs)) :
    Reads s t := by
  induction as generalizing s bs with
  | nil => cases h; exact .refl _
  | cons a as ih =>
    simp only [Machine.loadMany] at h
    split at h
    · cases h
    · next h1 =>
      split at h
      · cases h
      · next h2 => cases h; exact (Reads.loadVa h1).trans (ih h2)

theorem Reads.loadWords {s t : State} {va n : Nat} {ws : List Word} (h : loadWords s va n = .ok (t, ws)) : Reads s t := by
  obtain ⟨q, hq, h⟩ := bind_eq_ok h
  cases h
  exact .loadMany hq

theorem Reads.needPair {s t : State} {a b : Word} (h : needPair s a b = .ok t) : Reads s t := by
  obtain ⟨q, hq, h⟩ := bind_eq_ok h
  obtain ⟨r, hr, h⟩ := bind_eq_ok h
  dsimp only at h
  split at h
  · cases h; exact (Reads.readWord hq).trans (.readWord hr)
  · cases h

theorem SameRegs.needPair {s t : State} {a b : Word} (h : needPair s a b = .ok t) : SameRegs s t := by
  obtain ⟨q, hq, h⟩ := bind_eq_ok h
  obtain ⟨r, hr, h⟩ := bind_eq_ok h
  dsimp only at h
  split at h
  · cases h; exact (SameRegs.readWord hq).trans (.readWord hr)
  · cases h

theorem Reads.needPort {s t : State} {x : Word} (h : needPort s x = .ok t) : Reads s t := by
  obtain ⟨q, hq, h⟩ := bind_eq_ok h
  dsimp only at h
  split at h
  · cases h
  · cases h; exact .readWord hq

theorem Reads.needPool {s t : State} {p : Pool} (h : needPool s = .ok (t, p)) : Reads s t := by
  obtain ⟨q, hq, h⟩ := bind_eq_ok h
  dsimp only at h
  split at h
  · cases h; exact .translateTh hq
  · cases h

theorem Reads.freeNode {s t : State} {w : Word} (h : freeNode s w = .ok t) : Reads s t := by
  obtain ⟨n, -, h⟩ := bind_eq_ok h
  obtain ⟨q, hq, h⟩ := bind_eq_ok h
  dsimp only at h
  split at h
  · cases h; exact (Reads.needPool hq).trans (.modChunk (fun _ => ⟨rfl, rfl, rfl, rfl⟩) fun _ => rfl)
  · cases h

theorem Reads.reservePlaces {s t : State} {n : Nat} (h : reservePlaces s n = .ok t) : Reads s t := by
  simp only [Machine.reservePlaces] at h
  split at h
  · cases h
  · cases h
    refine Reads.trans ?_ (.modChunk ?_ ?_)
    · exact .of_threads rfl rfl
    · exact fun _ => ⟨rfl, rfl, rfl, rfl⟩
    · exact fun _ => rfl

theorem Reads.takeNodes {s t : State} {n : Nat} {ns : List Word} (h : takeNodes s n = .ok (t, ns)) : Reads s t := by
  simp only [Machine.takeNodes] at h
  split at h
  · cases h
    refine Reads.trans ?_ (.modChunk ?_ ?_)
    · exact .of_threads rfl rfl
    · exact fun _ => ⟨rfl, rfl, rfl, rfl⟩
    · exact fun _ => rfl
  · obtain ⟨q, hq, h⟩ := bind_eq_ok h
    split at h <;> cases h

/-! ## A rewrite by a template (R282, R290) -/

theorem Reads.pushPair (s : State) (n m : Nat) : Reads s (pushPair s n m) := .postCommit ..

theorem Onward.ite {s t u : State} {c : Prop} [Decidable c] (h : Onward s t) (k : Onward s u) : Onward s (if c then t else u) := by
  split <;> assumption

theorem Onward.wirePairs {s t : State} {l : List (Word × Word)} (h : wirePairs s l = .ok t) : Onward s t := by
  induction l generalizing s with
  | nil => cases h; exact .refl _
  | cons q l ih =>
    obtain ⟨u, hu, h⟩ := bind_eq_ok h
    obtain ⟨v, hv, h⟩ := bind_eq_ok h
    exact ((Onward.writeWord hu).trans (.writeWord hv)).trans ((Onward.ite (Reads.pushPair ..).onward (.refl v)).trans (ih h))

theorem Reads.readEnds {s t : State} {na nb : Nat} {nodes ws : List Word} {l : List Nat} (h : readEnds s na nb nodes l = .ok (t, ws)) :
    Reads s t := by
  induction l generalizing s ws with
  | nil => cases h; exact .refl _
  | cons e l ih =>
    obtain ⟨q, hq, h⟩ := bind_eq_ok h
    obtain ⟨r, hr, h⟩ := bind_eq_ok h
    cases h
    refine Reads.trans ?_ (ih hr)
    split at hq
    · cases hq; exact .refl _
    · exact .readWord hq

theorem Onward.writeNodes {s u : State} {t : Template} {pa pb : List Word} {l : List (Nat × Word)}
    (h : writeNodes s t pa pb l = .ok u) : Onward s u := by
  induction l generalizing s with
  | nil => cases h; exact .refl _
  | cons q l ih =>
    obtain ⟨v, hv, h⟩ := bind_eq_ok h
    exact (Onward.storeVa hv).trans (ih h)

theorem Reads.readPay {s t : State} {n : Nat} {ws : List Word} {c : Prop} [Decidable c]
    (h : (if c then Machine.readPay s n else Except.ok (s, [])) = .ok (t, ws)) : Reads s t := by
  split at h
  · exact .loadWords h
  · cases h; exact .refl s

/-- The last writes of a rewrite: the ticket and the wiring. -/
theorem Onward.ticket {s t : State} {ticket : Option Word} {nnew va : Nat}
    (h : (match ticket with | some w => if nnew = 0 then Except.ok s else Machine.writeWord s va w | none => .ok s) = Except.ok t) :
    Onward s t := by
  split at h
  · split at h
    · cases h; exact .refl s
    · exact .writeWord h
  · cases h; exact .refl s

theorem Onward.rewrite {s t : State} {first : Word} {na nb tmpl nnew : Nat} {ticket : Option Word}
    (h : rewrite s first na nb tmpl nnew ticket = .ok t) : Onward s t := by
  obtain ⟨⟨s1, bs⟩, h1, h⟩ := bind_eq_ok h
  obtain ⟨⟨s2, ha⟩, h2, h⟩ := bind_eq_ok h
  obtain ⟨⟨s3, hb⟩, h3, h⟩ := bind_eq_ok h
  refine ((Reads.loadVa h1).trans ((Reads.readWord h2).trans (.readWord h3))).onward.trans ?_
  dsimp only at h
  split at h
  · cases h
  split at h
  · cases h
  obtain ⟨⟨s4, nodes⟩, h4, h⟩ := bind_eq_ok h
  obtain ⟨⟨s5, res⟩, h5, h⟩ := bind_eq_ok h
  refine ((Reads.takeNodes h4).trans (.readEnds h5)).onward.trans ?_
  dsimp only at h
  split at h
  · cases h
  split at h
  · cases h
  obtain ⟨⟨s6, payA⟩, h6, h⟩ := bind_eq_ok h
  obtain ⟨⟨s7, payB⟩, h7, h⟩ := bind_eq_ok h
  obtain ⟨s8, h8, h⟩ := bind_eq_ok h
  obtain ⟨s9, h9, h⟩ := bind_eq_ok h
  obtain ⟨s10, h10, h⟩ := bind_eq_ok h
  obtain ⟨s11, h11, h⟩ := bind_eq_ok h
  obtain ⟨s12, h12, h⟩ := bind_eq_ok h
  have hreads := ((Reads.readPay h6).trans (.readPay h7)).trans (((Reads.reservePlaces h8).trans (.freeNode h9)).trans (.freeNode h10))
  exact (hreads.onward.trans (.writeNodes h11)).trans ((Onward.ticket h12).trans (.wirePairs h))

/-! ## The nets group outside a rewrite (R285, R292 to R294) -/

theorem netIllegal_none {s : State} (hd : s.launch.det = false) (i : Instr) : netIllegal s i = none :=
  if_neg (ne_true_of_eq_false hd)

theorem needNode_ok {w : Word} (h : nodeOk w = true) : needNode w = .ok w.toNat := if_pos h

/-- The state that takes the first node of the cache. -/
def nodeTaken (s : State) (n : Word) (ns : List Word) : State :=
  (s.modCore s.th.placeCore fun k => { k with caches := tabSet k.caches s.th.lid ns }).modChunk
    fun k => { k with nodes := k.nodes ++ [n] }

theorem takeNodes_one {s : State} {n : Word} {ns : List Word} (h : s.nodeCache = n :: ns) :
    takeNodes s 1 = .ok (nodeTaken s n ns, [n]) := by
  simp only [takeNodes, h, List.length_cons, Nat.le_add_left, if_true, List.drop_one, List.tail_cons, List.take_succ_cons,
    List.take_zero]
  rfl

theorem Local.nodeTaken (s : State) (n : Word) (ns : List Word) : Local 0 0 s (nodeTaken s n ns) :=
  (Local.modCore ..).noteChunk fun _ => ⟨rfl, rfl, rfl, rfl⟩

theorem ixnew_does {s : State} (p : Bool) (d : Reg) {n : Word} {ns : List Word} (h : Calm s) (he : s.inEvent = false)
    (hd : s.launch.det = false) (hn : s.nodeCache = n :: ns) : Does (.ixnew p d) s ((nodeTaken s n ns).setX d n) := by
  refine (runInstr_none (netIllegal_none hd _) ..).trans
    (run_calm (a := .seq) h ?_ ((Local.nodeTaken s n ns).trans (.setX ..)) (by decide) (by decide) ⟨nofun, nofun⟩)
  simp only [notInEvent_of he, takeNodes_one hn, bind, Except.bind, List.headD_cons]

/-- Writing a register leaves the thread's launch and its place. -/
theorem setX_place (s : State) (d : Reg) (w : Word) : (s.setX d w).th.placeCore = s.th.placeCore ∧ (s.setX d w).th.lid = s.th.lid := by
  unfold State.setX
  split
  · exact ⟨rfl, rfl⟩
  · simp only [State.capture, State.modRegs_eq, State.modChunk_eq, State.th_setThr_cur, and_self]

theorem ixnew_nodeCache (s : State) (d : Reg) (n : Word) (ns : List Word) (q : Word) (st : Status) :
    (completed ((nodeTaken s n ns).setX d n) q st).nodeCache = ns := by
  obtain ⟨hp, hl⟩ := setX_place (nodeTaken s n ns) d n
  have hth : (nodeTaken s n ns).th.placeCore = s.th.placeCore ∧ (nodeTaken s n ns).th.lid = s.th.lid := by
    simp only [nodeTaken, State.modChunk_eq, State.th_setThr_cur, State.th_modCore, and_self]
  have hcores : (completed ((nodeTaken s n ns).setX d n) q st).cores = (nodeTaken s n ns).cores := by
    rw [completed_cores, State.setX_cores]
  have hcore : (nodeTaken s n ns).coreOf s.th.placeCore =
      { s.coreOf s.th.placeCore with caches := tabSet (s.coreOf s.th.placeCore).caches s.th.lid ns } := by
    rw [nodeTaken, State.modChunk_eq, State.coreOf_setThr, State.coreOf_modCore, if_pos rfl]
  have hplace : (completed ((nodeTaken s n ns).setX d n) q st).th.placeCore = s.th.placeCore ∧
      (completed ((nodeTaken s n ns).setX d n) q st).th.lid = s.th.lid := by
    rw [completed_eq, State.th_setThr_cur]
    exact ⟨hp.trans hth.1, hl.trans hth.2⟩
  rw [State.nodeCache, hplace.1, hplace.2, State.coreOf, hcores]
  show tabGet [] ((nodeTaken s n ns).coreOf s.th.placeCore).caches s.th.lid = ns
  rw [hcore]
  exact tabGet_tabSet_same ..

section
variable {s : State} (p : Bool) (a b : Reg) (hd : s.launch.det = false) (he : s.inEvent = false)
include hd he

theorem ixfree_does {t : State} (h : Calm s) (hf : freeNode s (s.x a) = .ok t) : Does (.ixfree p a) s t :=
  (runInstr_none (netIllegal_none hd _) ..).trans (run_calm (a := .seq) h ((bind_ok (notInEvent_of he 0)).trans (bind_ok hf))
    (Reads.freeNode hf).1 (by decide) (by decide) ⟨nofun, nofun⟩)

theorem ixpair_does {t u : State} (h : Calm s) (ha : nodeOk (s.x a) = true) (hb : nodeOk (s.x b) = true)
    (ht : needPair s (s.x a) (s.x b) = .ok t) (hu : reservePlaces t 1 = .ok u) :
    Does (.ixpair p a b) s (pushPair u (s.x a).toNat (s.x b).toNat) :=
  (runInstr_none (netIllegal_none hd _) ..).trans (run_calm (a := .seq) h ((bind_ok (notInEvent_of he 0)).trans
    ((bind_ok (needNode_ok ha)).trans ((bind_ok (needNode_ok hb)).trans ((bind_ok ht).trans (bind_ok hu)))))
    (((Reads.needPair ht).trans (.reservePlaces hu)).trans (.pushPair ..)).1 (by decide) (by decide) ⟨nofun, nofun⟩)

theorem ixlink_stores {t u v w : State} (h : Ready s) (ha : portOk (s.x a) = true) (hb : portOk (s.x b) = true) (hne : s.x a ≠ s.x b)
    (hp : portNum (s.x a) ≠ 0 ∨ portNum (s.x b) ≠ 0) (ht : needPort s (s.x a) = .ok t) (hu : needPort t (s.x b) = .ok u)
    (hv : writeWord u (linkAddr (portNode (s.x a)) (portNum (s.x a))) (s.x b) = .ok v)
    (hw : writeWord v (linkAddr (portNode (s.x b)) (portNum (s.x b))) (s.x a) = .ok w) : Stores (.ixlink p a b) s w := by
  have hp' : ¬ (portNum (s.x a) = 0 ∧ portNum (s.x b) = 0) := by omega
  intro hf
  have k : Onward s w := ((Reads.needPort ht).trans (.needPort hu)).onward.trans ((Onward.writeWord hv).trans (.writeWord hw))
  refine (runInstr_none (netIllegal_none hd _) ..).trans (run_stores h ?_ k.1 hf)
  simp only [notInEvent_of he, ha, hb, beq_eq_false_iff_ne.2 hne, ht, hu, hv, hw, if_neg hp', bind, Except.bind, Bool.not_true,
    Bool.or_self, Bool.false_eq_true, if_false]

end

theorem nets_illegal {s : State} (p : Bool) (d a b : Reg) (hl : s.live = true) (hd : s.launch.det = true) :
    ∀ i ∈ [Instr.ixpop p d, .ixpair p a b, .ixnew p d, .ixfree p a, .ixlink p a b, .ixrule p a b, .ixdone p],
      Traps i s 2 ((encode i).setWidth 64) := by
  have hnet : ∀ i, netIllegal s i = some (illegal i) := fun i => if_pos hd
  have hor : ∀ (c : Bool) (i : Instr), (if s.launch.det || c then some (illegal i) else none) = some (illegal i) := fun c i => by
    rw [hd]; rfl
  simp only [List.forall_mem_cons, List.not_mem_nil, false_implies, implies_true, and_true]
  exact ⟨runInstr_illegal hl (hor _ _) .., runInstr_illegal hl (hnet _) .., runInstr_illegal hl (hnet _) ..,
    runInstr_illegal hl (hnet _) .., runInstr_illegal hl (hnet _) .., runInstr_illegal hl (hor _ _) .., runInstr_illegal hl (hor _ _) ..⟩

theorem nets_optwrite {s : State} (p : Bool) (d a b : Reg) (h : Ready s) (hd : s.launch.det = false) (he : s.inEvent = true) :
    ∀ i ∈ [Instr.ixpop p d, .ixpair p a b, .ixnew p d, .ixfree p a, .ixlink p a b], Traps i s 49 0 := by
  have hev : notInEvent s 0 = .error (.trap 49 0) := if_pos he
  have hpop : (if s.launch.det || s.th.regs.inRewrite then some (illegal (.ixpop p d)) else none) = none := by
    rw [hd, h.noRewrite]; rfl
  simp only [List.forall_mem_cons, List.not_mem_nil, false_implies, implies_true, and_true]
  exact ⟨(runInstr_none hpop ..).trans (run_trap h (bind_error hev)), (runInstr_none (netIllegal_none hd _) ..).trans (run_trap h (bind_error hev)),
    (runInstr_none (netIllegal_none hd _) ..).trans (run_trap h (bind_error hev)),
    (runInstr_none (netIllegal_none hd _) ..).trans (run_trap h (bind_error hev)),
    (runInstr_none (netIllegal_none hd _) ..).trans (run_trap h (bind_error hev))⟩

/-- Settles O37. `Tests.witness_nets` and `Tests.witness_link` meet the premises. -/
theorem netInstructions : Obligations.NetInstructions := by
  refine ⟨fun s p d n ns h he hd hn => ⟨_, ixnew_does p d h he hd hn, completed_pc .., ?_, ixnew_nodeCache .., ?_, ?_⟩,
    fun s t p a h he hd hf => ixfree_does p a hd he h hf,
    fun s t u p a b h he hd ha hb ht hu => ixpair_does p a b hd he h ha hb ht hu,
    fun s t u v w p a b h he hd ha hb hne hp ht hu hv hw => ixlink_stores p a b hd he h ha hb hne hp ht hu hv hw,
    fun s p d a b hl hd => nets_illegal p d a b hl hd, fun s p d a b h hd he => nets_optwrite p d a b h hd he⟩
  · rw [completed_x, State.x_setX_same]
  · obtain ⟨l, hl⟩ := setX_chunk (nodeTaken s n ns) d n
    rw [completed_chunk, hl, nodeTaken, State.modChunk_eq, State.th_setThr_cur]
    rfl
  · rw [completed_mem, State.setX_mem]
    rfl

/-! ## Rewrites (R286 to R290) -/

/-- An instruction of a thread that holds nothing up, in a rewrite or out of one: its effect, the loops' rule, and the cut of
its chunk where its code says so. -/
theorem run_unheld {p : Bool} {regs : List RegName} {body : Body} {s t : State} {a : After} (hl : s.live = true)
    (hres : s.th.results = []) (hm : s.th.regs.marks = []) (hs : s.soundRegs = true) (ho : s.th.older = none)
    (hb : body s = .ok (t, a)) (hcur : t.cur = s.cur) (h0 : t.th.regs.csr.loopC0.getLsbD 0 = false)
    (h1 : t.th.regs.csr.loopC1.getLsbD 0 = false) (hrw : t.th.regs.inRewrite = true → t.th.chunk.count + 1 < 16384)
    (hp : ∀ n, a ≠ .pause n) (hf : Fits (completed t (a.next s.pc) (endWait a))) {code : Nat}
    (hcode : endCode (completed t (a.next s.pc) (endWait a)) a = code) :
    runInstr p none regs body s = .next (if code = 0 then completed t (a.next s.pc) (endWait a)
      else (completed t (a.next s.pc) (endWait a)).cutChunk s.cur code) := by
  have hpark : (if p then s.park else some s) = some s := by cases p <;> simp [State.park, hres, hm]
  have hpend : ∀ l, firstPending s l = none := by simp [firstPending, hm]
  have hret : retire t s.pc a = completed t (a.next s.pc) (endWait a) := by
    cases a with
    | pause n => exact absurd rfl (hp n)
    | _ => simp [retire, loopRule_off h0 h1, completed]
  have hi : ((completed t (a.next s.pc) (endWait a)).th.regs.inRewrite &&
      decide (16384 ≤ (completed t (a.next s.pc) (endWait a)).th.chunk.count)) = false := by
    rw [completed_regs, completed_chunk]
    cases hin : t.th.regs.inRewrite with
    | false => rfl
    | true => simp [Nat.not_le.2 (hrw hin)]
  obtain ⟨hu, hlf⟩ := hf
  have hfin : finishFrom s s t a = if code = 0 then completed t (a.next s.pc) (endWait a)
      else (completed t (a.next s.pc) (endWait a)).cutChunk s.cur code := by
    unfold finishFrom
    simp only [hpend, hret, hi, hu, hlf, hcode, ho, completed_cur, hcur]
    rfl
  simp only [runInstr, hl, if_true, attempt, hpark, hpend, badReg_sound hs, hb, hfin]

/-- In a rewrite an instruction that does not end its chunk goes on: its chunk is never full (R287). -/
theorem endCode_rewrite {s : State} (hr : s.th.chunk.rewrite = true) {a : After} (ha : ∀ n w, a ≠ .cut n w) : endCode s a = 0 := by
  cases a with
  | cut n w => exact absurd rfl (ha n w)
  | _ => simp [endCode, hr]

/-- In a rewrite an instruction that stays in it completes (R287). -/
theorem run_rewriting {p : Bool} {regs : List RegName} {body : Body} {s t : State} {a : After} (h : Rewriting s)
    (hb : body s = .ok (t, a)) (k : Onward s t) (ha : (∀ n w, a ≠ .cut n w) ∧ ∀ n, a ≠ .pause n)
    (hf : Fits (completed t (a.next s.pc) .ready)) :
    runInstr p none regs body s = .next (completed t (a.next s.pc) .ready) := by
  obtain ⟨⟨n, m, hl⟩, hr⟩ := k
  have hw : endWait a = .ready := by
    cases a with
    | cut n w => exact absurd rfl (ha.1 n w)
    | pause n => exact absurd rfl (ha.2 n)
    | _ => rfl
  rw [← hw] at hf ⊢
  have hcode : endCode (completed t (a.next s.pc) (endWait a)) a = 0 := by
    refine endCode_rewrite ?_ ha.1
    rw [completed_chunk]
    exact hr.trans h.rewrite
  have h0 : t.th.regs.csr.loopC0.getLsbD 0 = false := by rw [hl.loop0]; exact h.loop0
  have h1 : t.th.regs.csr.loopC1.getLsbD 0 = false := by rw [hl.loop1]; exact h.loop1
  have hcount : t.th.chunk.count + 1 < 16384 := by rw [hl.count]; exact h.short
  exact run_unheld h.live h.results h.marks h.sound h.older hb hl.cur h0 h1 (fun _ => hcount) ha.2 hf hcode

theorem setX_modRegs_rewrite (s : State) (d : Reg) (w : Word) : (s.setX d w).th.chunk.rewrite = s.th.chunk.rewrite := by
  obtain ⟨l, hl⟩ := setX_chunk s d w
  rw [hl]

theorem Onward.setX (s : State) (d : Reg) (w : Word) : Onward s (s.setX d w) := ⟨(Local.setX s d w).within, setX_modRegs_rewrite s d w⟩

theorem Reads.readRule {s t : State} {ka kb : Nat} {e : RuleEntry} (h : readRule s ka kb = .ok (t, e)) : Reads s t := by
  obtain ⟨⟨u, e0⟩, h0, h⟩ := bind_eq_ok h
  obtain ⟨⟨v, e1⟩, h1, h⟩ := bind_eq_ok h
  cases h
  exact (Reads.readWord h0).trans (.readWord h1)

theorem SameRegs.readRule {s t : State} {ka kb : Nat} {e : RuleEntry} (h : readRule s ka kb = .ok (t, e)) : SameRegs s t := by
  obtain ⟨⟨u, e0⟩, h0, h⟩ := bind_eq_ok h
  obtain ⟨⟨v, e1⟩, h1, h⟩ := bind_eq_ok h
  cases h
  exact (SameRegs.readWord h0).trans (.readWord h1)

theorem rewriteEarly_none {s : State} (hd : s.launch.det = false) (hr : s.th.regs.inRewrite = true) (i : Instr) :
    (if s.launch.det || !s.th.regs.inRewrite then some (illegal i) else none) = none := by
  rw [hd, hr]; rfl

/-- The steps of IXRULE before the rule's kind is looked at: the pair's checks, the two kinds and their rule. -/
theorem ixrule_settled {s t u v w : State} (p : Bool) (a b : Reg) {ha hb : Word} {e : RuleEntry} (h : Rewriting s)
    (he : s.inEvent = false) (hd : s.launch.det = false) (hna : nodeOk (s.x a) = true) (hnb : nodeOk (s.x b) = true)
    (ht : needPair s (s.x a) (s.x b) = .ok t) (hu : readWord t (s.x a).toNat = .ok (u, ha)) (hv : readWord u (s.x b).toNat = .ok (v, hb))
    (hka : bits ha 7 0 ≤ 63) (hkb : bits hb 7 0 ≤ 63) (hw : readRule v (bits ha 7 0) (bits hb 7 0) = .ok (w, e)) (hok : e.ok = true) :
    (e.type = 2 → Fits (completed (w.setX 1 (w.pc + 4)) (BitVec.ofNat 64 (bits e.e1 55 0)) .ready) →
      DoesTo (.ixrule p a b) s (w.setX 1 (w.pc + 4)) (BitVec.ofNat 64 (bits e.e1 55 0))) ∧
    (∀ r, e.type = 1 → rewrite w (s.x a) (s.x a).toNat (s.x b).toNat (bits e.e0 55 6 * 64) (bits e.e0 5 3) none = .ok r →
      Stores (.ixrule p a b) s r) := by
  have hreads : Reads s w := ((Reads.needPair ht).trans (.readWord hu)).trans ((Reads.readWord hv).trans (.readRule hw))
  have hregs : SameRegs s w := ((SameRegs.needPair ht).trans (.readWord hu)).trans ((SameRegs.readWord hv).trans (.readRule hw))
  have hearly := rewriteEarly_none hd h.inRewrite (.ixrule p a b)
  have hnot : ¬ ((2 : Nat) = 0) ∧ ¬ ((1 : Nat) = 0) := by decide
  refine ⟨fun h2 hf => ?_, fun r h1 hr hf => ?_⟩
  · refine (runInstr_none hearly ..).trans
      (run_rewriting (a := .jump (BitVec.ofNat 64 (bits e.e1 55 0))) h ?_ (hreads.onward.trans (.setX ..)) ⟨nofun, nofun⟩ hf)
    have hmarks : w.th.regs.marks.contains (.x 1) = false := by rw [hregs.1, h.marks]; rfl
    simp only [notInEvent_of he, needNode_ok hna, needNode_ok hnb, ht, hu, hv, Nat.not_lt.2 hka, Nat.not_lt.2 hkb, hw, h2, hok,
      hmarks, hnot.1, decide_false, bind, Except.bind, if_false, Bool.not_true, Bool.false_eq_true]
  · refine (runInstr_none hearly ..).trans (run_rewriting (a := .seq) h ?_ (hreads.onward.trans (.rewrite hr)) ⟨nofun, nofun⟩ hf)
    simp only [notInEvent_of he, needNode_ok hna, needNode_ok hnb, ht, hu, hv, Nat.not_lt.2 hka, Nat.not_lt.2 hkb, hw, h1, hok, hr,
      hnot.2, decide_false, bind, Except.bind, if_false, Bool.not_true, Bool.false_eq_true]

theorem ixdone_ends {s : State} (p : Bool) (h : Rewriting s) (he : s.inEvent = false) (hd : s.launch.det = false)
    (hf : Fits (completed (s.modRegs fun r => { r with inRewrite := false }) (s.pc + 4) .ready)) :
    Ends (.ixdone p) s (s.modRegs fun r => { r with inRewrite := false }) 12 .ready := by
  have hregs : (s.modRegs fun r => { r with inRewrite := false }).th.regs = { s.th.regs with inRewrite := false } := by
    rw [State.modRegs_eq, State.th_setThr_cur]
  have hchunk : (s.modRegs fun r => { r with inRewrite := false }).th.chunk = s.th.chunk := by
    rw [State.modRegs_eq, State.th_setThr_cur]
  have hcode : endCode (completed (s.modRegs fun r => { r with inRewrite := false }) (s.pc + 4) .ready) (.cut 12 none) = 12 := by
    simp only [endCode, completed_chunk, completed_regs, hchunk, h.rewrite, Bool.not_true, Bool.and_false, Bool.false_eq_true, if_false]
  refine (runInstr_none (rewriteEarly_none hd h.inRewrite (.ixdone p)) ..).trans ?_
  refine run_unheld (t := s.modRegs fun r => { r with inRewrite := false }) (a := .cut 12 none) (code := 12) h.live h.results h.marks
    h.sound h.older (bind_ok (notInEvent_of he 0)) rfl ?_ ?_ ?_ nofun hf hcode
  · rw [hregs]; exact h.loop0
  · rw [hregs]; exact h.loop1
  · rw [hregs]; nofun

theorem ixdone_illegal {s : State} (p : Bool) (hl : s.live = true) (hr : s.th.regs.inRewrite = false) :
    Traps (.ixdone p) s 2 ((encode (.ixdone p)).setWidth 64) := by
  have he : (if s.launch.det || !s.th.regs.inRewrite then some (illegal (.ixdone p)) else none) = some (illegal (.ixdone p)) := by
    rw [hr, Bool.not_false, Bool.or_true, if_pos rfl]
  exact runInstr_illegal hl he ..

/-- The pair's words in their registers: a rewrite's start but for the note that one runs. -/
def popped (s : State) (d : Reg) (e : KEntry) : State := (s.setX d e.w0).setX (d + 1) e.w1

/-- What a rewrite's start leaves of the thread that its capacities and the loops' rule look at. -/
structure Started (n m : Nat) (s u : State) : Prop where
  threads : ∀ th, tabSet u.threads s.cur th = tabSet s.threads s.cur th
  cur : u.cur = s.cur
  core : u.th.core = s.th.core
  older : u.th.older = s.th.older
  loop0 : u.th.regs.csr.loopC0 = s.th.regs.csr.loopC0
  loop1 : u.th.regs.csr.loopC1 = s.th.regs.csr.loopC1
  count : u.th.chunk.count = s.th.chunk.count
  undo : u.th.chunk.undoBytes ≤ s.th.chunk.undoBytes + n
  lines : u.th.chunk.wlines.length ≤ s.th.chunk.wlines.length + m
  ovf : u.th.chunk.ovf.length ≤ s.th.chunk.ovf.length + m
  rewrite : u.th.chunk.rewrite = true

theorem Started.start {s t : State} {n m : Nat} {d : Reg} {e : KEntry} (k : Local n m s (popped t d e)) : Started n m s (startRewrite t d e) := by
  obtain ⟨h1, h2, h3, h4, -, h6, h7, h8, -, h10, h11, h12⟩ := k
  have hthr : startRewrite t d e = ((popped t d e).modRegs fun r => { r with
      inRewrite := true, popPc := t.pc, popD := d, popW0 := e.w0, popW1 := e.w1 }).modChunk fun c => { c with rewrite := true } := rfl
  have hth : ∃ r, (startRewrite t d e).th = { (popped t d e).th with
      regs := r, chunk := { (popped t d e).th.chunk with rewrite := true } } ∧ r.csr = (popped t d e).th.regs.csr := by
    rw [hthr, State.modRegs_eq, State.modChunk_eq, State.th_setThr_cur, State.th_setThr_cur]
    exact ⟨_, rfl, rfl⟩
  obtain ⟨r, hth, hr⟩ := hth
  have hthreads : ∀ th, tabSet (startRewrite t d e).threads s.cur th = tabSet (popped t d e).threads s.cur th := by
    intro th
    rw [hthr, State.modRegs_eq, State.modChunk_eq, State.setThr_threads, State.setThr_threads, ← h2]
    exact (congrArg (tabSet · _ th) (tabSet_tabSet ..)).trans (tabSet_tabSet ..)
  refine ⟨fun th => (hthreads th).trans (h1 th), h2, ?_, ?_, ?_, ?_, ?_, ?_, ?_, ?_, ?_⟩ <;> rw [hth]
  · exact h3
  · exact h4
  · rw [hr]; exact h6
  · rw [hr]; exact h7
  · exact h8
  · exact h10
  · exact h11
  · exact h12

theorem ixpop_does {s : State} (p : Bool) (d : Reg) {i : Nat} {e : KEntry} (h : Calm s) (he : s.inEvent = false)
    (hd : s.launch.det = false) (hc : s.th.chunk.count = 0)
    (hy : youngest true ((s.coreOf s.th.placeCore).kennel s.th.lid) = some i)
    (hi : ((s.coreOf s.th.placeCore).kennel s.th.lid)[i]? = some e) :
    Does (.ixpop p d) s (startRewrite (reserveEntry (s.cutChunk s.cur 11) s.th.placeCore i) d
      ((s.cutChunk s.cur 11).readEntry s.th.placeCore s.th.lid e)) := by
  have hearly : (if s.launch.det || s.th.regs.inRewrite then some (illegal (.ixpop p d)) else none) = none := by
    rw [hd, h.noRewrite]; rfl
  have hlocal : Local (32 + 32) 0 s (popped (reserveEntry (s.cutChunk s.cur 11) s.th.placeCore i) d
      ((s.cutChunk s.cur 11).readEntry s.th.placeCore s.th.lid e)) :=
    (((Local.cutChunk_empty hc 11).trans (.reserveEntry ..)).trans (.setX ..)).trans (.setX ..)
  obtain ⟨w, hcut⟩ := cutChunk_empty hc 11
  have hth : (s.cutChunk s.cur 11).th.placeCore = s.th.placeCore ∧ (s.cutChunk s.cur 11).th.lid = s.th.lid := by
    rw [hcut, State.th_modTh]; exact ⟨rfl, rfl⟩
  have hcore : (s.cutChunk s.cur 11).coreOf s.th.placeCore = s.coreOf s.th.placeCore := by rw [hcut]; rfl
  have hobtain : obtain (s.cutChunk s.cur 11) true = some (reserveEntry (s.cutChunk s.cur 11) s.th.placeCore i,
      (s.cutChunk s.cur 11).readEntry s.th.placeCore s.th.lid e) := by
    simp only [obtain, hth.1, hth.2, hcore, hy, hi, Option.map_some]
  have k := Started.start hlocal
  have hcode := endCode_rewrite (a := .seq) (s := completed (startRewrite (reserveEntry (s.cutChunk s.cur 11) s.th.placeCore i) d
      ((s.cutChunk s.cur 11).readEntry s.th.placeCore s.th.lid e)) (s.pc + 4) .ready) (by rw [completed_chunk]; exact k.rewrite) nofun
  refine (runInstr_none hearly ..).trans (run_unheld (a := .seq) (code := 0) h.live h.results h.marks h.sound h.older ?_ k.cur ?_ ?_
    (fun _ => ?_) nofun (fits_of h k.threads k.cur k.core k.older (Nat.le_trans k.undo (by omega)) (Nat.le_trans k.lines (by omega))
      (Nat.le_trans k.ovf (by omega))) hcode)
  · simp only [notInEvent_of he, hc, hobtain, bind, Except.bind, ne_eq, not_true, if_false]
  · rw [k.loop0]; exact h.loop0
  · rw [k.loop1]; exact h.loop1
  · rw [k.count, hc]; decide

/-- Settles O38. `Tests.witness_rewrite` meets the premises. -/
theorem rewrites : Obligations.Rewrites :=
  ⟨fun _ p d _ _ h he hd hc hy hi => ixpop_does p d h he hd hc hy hi,
    fun _ _ _ _ _ p a b _ _ _ h he hd hna hnb ht hu hv hka hkb hw hok =>
      have k := ixrule_settled p a b h he hd hna hnb ht hu hv hka hkb hw hok
      ⟨k.1, fun r h1 hr _ => k.2 r h1 hr⟩,
    fun _ p h he hd hf => ixdone_ends p h he hd hf, fun _ p hl hr => ixdone_illegal p hl hr⟩

end Sys2Proof.Machine
end

section
/-!
PROOFS. Engine commands: what posting one leaves (O39).
-/
namespace Sys2Proof.Machine

theorem entriesOf_le (kind : Nat) : entriesOf kind ≤ 5 := by
  unfold entriesOf
  repeat' split
  all_goals decide

/-- A field of 4 bits reads back what was put in. -/
theorem bits_putBits_four (w : Word) (v : BitVec 4) : bits (putBits w 16 4 v.toNat) 19 16 = v.toNat := by
  have hext : (putBits w 16 4 v.toNat).extractLsb' 16 4 = v := by
    ext k hk
    rw [BitVec.getElem_extractLsb', getLsbD_putBits w 16 4 v.toNat (by omega), if_pos (by omega), Nat.add_sub_cancel_left,
      BitVec.testBit_toNat, BitVec.getLsbD_eq_getElem hk]
  have hnat := congrArg BitVec.toNat hext
  rwa [BitVec.extractLsb'_toNat, Nat.shiftRight_eq_div_pow] at hnat

theorem Local.reserveEntries {s t : State} {n : Nat} (h : Machine.reserveEntries s n = .ok t) : Local 0 0 s t := by
  unfold Machine.reserveEntries at h
  dsimp only at h
  split at h
  · cases h
    exact .modChunk rfl (Nat.le_refl _) (Nat.le_refl _) (Nat.le_refl _)
  · split at h
    · cases h
    · split at h <;> cases h

/-- The serial number of a thread's next command: never 0 (R218). -/
def nextSerial (r : Regs) : BitVec 32 := if r.serial + 1 = 0 then 1 else r.serial + 1

theorem nextSerial_ne_zero (r : Regs) : nextSerial r ≠ 0 := by
  unfold nextSerial
  split
  · decide
  · next h => exact h

/-- The command that a thread with the registers `r` posts from the state `s` (R218, R219). -/
def postedOf (s : State) (r : Regs) (w0 w1 w2 w3 : Word) (e : BitVec 2) : Command :=
  let kind := bits w0 7 0
  let mmag := decide (kind = 0x02)
  { id := s.nextCmd, tid := s.cur, lid := s.th.lid, core := s.th.placeCore, engine := e, serial := nextSerial r
    batch := r.csr.batchno, w0 := w0, w1 := w1, w2 := w2, w3 := w3
    snap := if mmag then r.getG (w2.setWidth 3) else 0
    key := if mmag then r.csr.launchkey else 0
    satp := r.csr.satp, cbwin := r.csr.cbwin, entries := entriesOf kind, started := false, state := .waiting, cls := 0, detail := 0
    reported := false, mark := none, satcnt := 0, flags := 0, resend := false, progress := 0, sent := false, data := [], held := [] }

/-- The state after a command is posted. -/
def withPosted (s : State) (serial : BitVec 32) (c : Command) : State :=
  { (s.modRegs fun r => { r with serial := serial }).postCommit (.command c) with nextCmd := s.nextCmd + 1 }

theorem postCommand_eq (s : State) (w0 w1 w2 w3 : Word) (e : BitVec 2) :
    postCommand s w0 w1 w2 w3 e =
      (reserveEntries s (entriesOf (bits (putBits w0 16 4 s.th.regs.csr.batchno.toNat) 7 0))).bind fun u =>
        let c := postedOf u s.th.regs (putBits w0 16 4 s.th.regs.csr.batchno.toNat) w1 w2 w3 e
        .ok (withPosted u (nextSerial s.th.regs) c, c.ticket) := rfl

theorem withPosted_post (s : State) (serial : BitVec 32) (c : Command) :
    (withPosted s serial c).th.chunk.post = s.th.chunk.post ++ [.command c] := by
  change ((s.modRegs _).postCommit _).th.chunk.post = _
  simp only [State.postCommit_eq, State.modRegs_eq, State.th_setThr_cur]

theorem Local.withPosted (s : State) (serial : BitVec 32) (c : Command) : Local 0 0 s (Machine.withPosted s serial c) := by
  have hregs : Local 0 0 s (s.modRegs fun r => { r with serial := serial }) := .modRegs rfl rfl
  exact Local.trans (n := 0) (m := 0) (n' := 0) (m' := 0) (hregs.trans (.postCommit _ (.command c))) (.of_threads rfl rfl)

theorem Local.postCommand {s t : State} {w0 w1 w2 w3 w : Word} {e : BitVec 2} (h : Machine.postCommand s w0 w1 w2 w3 e = .ok (t, w)) :
    Local 0 0 s t := by
  rw [postCommand_eq] at h
  obtain ⟨u, h0, h⟩ := bind_eq_ok h
  cases h
  exact (Local.reserveEntries h0).trans (.withPosted ..)

theorem reserveEntries_free {s : State} {n : Nat} (h : n ≤ s.sbFree s.th.placeCore) :
    reserveEntries s n = .ok (s.modChunk fun c => { c with sbRes := c.sbRes + n }) := if_pos h

theorem batch_does (s : State) (p : Bool) (n : BitVec 4) (h : Calm s) : Does (.batch p n) s (s.setCsr 0x80A fun c => { c with batchno := n }) :=
  run_calm (a := .seq) h rfl (Local.setCsr rfl rfl rfl) (by decide) (by decide) ⟨nofun, nofun⟩

theorem enq_does {s t : State} (p : Bool) (d a : Reg) (e : BitVec 2) {w : Word} (h : Calm s) (he : s.inEvent = false)
    (hm : e = 3 → s.th.regs.smode = true) (ht : postCommand s (s.x a) (s.x (a + 1)) (s.x (a + 2)) (s.x (a + 3)) e = .ok (t, w)) :
    Does (.enq p d a e) s (t.setX d w) := by
  have hearly : (if e = 3 ∧ !s.th.regs.smode then some (illegal (.enq p d a e)) else none) = none :=
    if_neg fun ⟨h3, hn⟩ => by simp [hm h3] at hn
  exact (runInstr_none hearly ..).trans (run_calm (a := .seq) h ((bind_ok (notInEvent_of he 0)).trans (bind_ok ht))
    ((Local.postCommand ht).trans (.setX ..)) (by decide) (by decide) ⟨nofun, nofun⟩)

theorem postCommand_posts (s : State) (w0 w1 w2 w3 : Word) (e : BitVec 2) (h : 5 ≤ s.sbFree s.th.placeCore) :
    ∃ t c, postCommand s w0 w1 w2 w3 e = .ok (t, c.ticket) ∧ t.th.chunk.post = s.th.chunk.post ++ [.command c] ∧
      c.tid = s.cur ∧ c.engine = e ∧ c.batch = s.th.regs.csr.batchno ∧ bits c.w0 19 16 = s.th.regs.csr.batchno.toNat ∧
      c.w1 = w1 ∧ c.w2 = w2 ∧ c.w3 = w3 ∧ c.state = .waiting ∧ c.serial ≠ 0 := by
  have hn := entriesOf_le (bits (putBits w0 16 4 s.th.regs.csr.batchno.toNat) 7 0)
  refine ⟨_, _, (postCommand_eq ..).trans (bind_ok (reserveEntries_free (Nat.le_trans hn h))), (withPosted_post ..).trans ?_, rfl, rfl, rfl,
    bits_putBits_four .., rfl, rfl, rfl, rfl, nextSerial_ne_zero _⟩
  rw [State.modChunk_eq, State.th_setThr_cur]

theorem enq_illegal {s : State} (p : Bool) (d a : Reg) (hl : s.live = true) (hm : s.th.regs.smode = false) :
    Traps (.enq p d a 3) s 2 ((encode (.enq p d a 3)).setWidth 64) := by
  have he : (if (3 : BitVec 2) = 3 ∧ !s.th.regs.smode then some (illegal (.enq p d a 3)) else none) = some (illegal (.enq p d a 3)) :=
    if_pos ⟨rfl, by rw [hm]; rfl⟩
  exact runInstr_illegal hl he ..

/-- Settles O39. `Tests.witness_commands` meets the premises. -/
theorem engineCommands : Obligations.EngineCommands :=
  ⟨batch_does, fun _ _ p d a e _ h he hm ht => enq_does p d a e h he hm ht, postCommand_posts,
    fun _ p d a hl hm => enq_illegal p d a hl hm,
    fun _ _ _ _ h => run_calm (a := .seq) h rfl (Local.setX ..) (by decide) (by decide) ⟨nofun, nofun⟩⟩

end Sys2Proof.Machine
end

section
/-!
PROOFS. Commit: the grant, its broadcast, its release and the token (O41).
-/
namespace Sys2Proof.Machine

/-- What every step of a fold keeps the whole fold keeps. -/
theorem foldl_rel {α : Type} {R : State → State → Prop} (hrefl : ∀ s, R s s) (htrans : ∀ {s t u}, R s t → R t u → R s u)
    {f : State → α → State} (hf : ∀ s a, R s (f s a)) (l : List α) (s : State) : R s (l.foldl f s) := by
  induction l generalizing s with
  | nil => exact hrefl s
  | cons a l ih => exact htrans (hf s a) (ih _)

/-! ## What a grant's array writes leave -/

/-- Memory, the commit requests and the threads stay, but for a thread's armed error injection (R129). -/
structure Injected (s t : State) : Prop where
  mem : t.mem = s.mem
  requests : t.requests = s.requests
  thread : ∀ u, ∃ i e, t.thr u = { s.thr u with injAt := i, errinj := e }

theorem Injected.of_eq {s t : State} (hm : t.mem = s.mem) (hr : t.requests = s.requests) (ht : t.threads = s.threads) : Injected s t :=
  ⟨hm, hr, fun u => ⟨(s.thr u).injAt, (s.thr u).errinj, by rw [State.thr, State.thr, ht]⟩⟩

theorem Injected.refl (s : State) : Injected s s := .of_eq rfl rfl rfl

theorem Injected.trans {s t u : State} (h : Injected s t) (k : Injected t u) : Injected s u := by
  refine ⟨k.mem.trans h.mem, k.requests.trans h.requests, fun v => ?_⟩
  obtain ⟨i, e, hi⟩ := h.thread v
  obtain ⟨j, f, hj⟩ := k.thread v
  exact ⟨j, f, by rw [hj, hi]⟩

theorem Injected.foldl {α : Type} {f : State → α → State} (hf : ∀ s a, Injected s (f s a)) (l : List α) (s : State) :
    Injected s (l.foldl f s) := foldl_rel .refl .trans hf l s

theorem Injected.regs {s t : State} (h : Injected s t) (u : Nat) : (t.thr u).regs = (s.thr u).regs := by
  obtain ⟨i, e, hi⟩ := h.thread u
  rw [hi]

theorem Injected.older {s t : State} (h : Injected s t) (u : Nat) : (t.thr u).older = (s.thr u).older := by
  obtain ⟨i, e, hi⟩ := h.thread u
  rw [hi]

theorem Injected.modCore (s : State) (core : Nat) (f : Core → Core) : Injected s (s.modCore core f) := .of_eq rfl rfl rfl

theorem Injected.modTh {s : State} {f : Thread → Thread} (hf : ∀ th, ∃ i e, f th = { th with injAt := i, errinj := e }) :
    Injected s (s.modTh f) := by
  refine ⟨rfl, rfl, fun u => ?_⟩
  rw [State.modTh_eq, State.thr_setThr]
  split
  · next hu => subst hu; exact hf _
  · exact ⟨_, _, rfl⟩

theorem Injected.makeWay (s : State) (core line : Nat) : Injected s (s.makeWay core line) := by
  unfold State.makeWay
  dsimp only
  split
  · exact .refl s
  · exact .of_eq rfl rfl rfl

theorem Injected.inject (s : State) (a c o b : Nat) : Injected s (s.inject a c o b) := by
  unfold State.inject
  dsimp only
  split
  · split
    · exact .refl s
    · exact .trans (.modCore ..) (.modTh fun _ => ⟨_, _, rfl⟩)
  · exact .refl s

theorem Injected.asThread {s : State} {t : Nat} {f : State → State} (h : Injected { s with cur := t } (f { s with cur := t })) :
    Injected s (s.asThread t f) := ⟨h.mem, h.requests, h.thread⟩

theorem Injected.arrayWrites (s : State) (armed : Bool) (t : Nat) (bytes : Mem) : Injected s (Machine.arrayWrites s armed t bytes) := by
  unfold Machine.arrayWrites
  dsimp only
  refine Injected.trans ?_ (Injected.foldl (fun u w => ?_) _ _)
  · exact .of_eq rfl rfl rfl
  split
  · split
    · exact (Injected.modCore ..).trans (.asThread (.inject ..))
    · exact .modCore ..
  · split
    · exact .asThread (.inject ..)
    · exact .refl u

theorem Injected.commitLines (s : State) (core : Nat) (writes : Mem) : Injected s (Machine.commitLines s core writes) := by
  unfold Machine.commitLines
  dsimp only
  refine (Injected.foldl (fun u l => ?_) ..).trans (.modCore ..)
  split
  · exact .refl u
  · exact .makeWay ..

/-! ## Translations that leave (R88) -/

theorem Injected.dropTranslations (s : State) (v : Option Word × Option Word) : Injected s (Machine.dropTranslations s v) := .of_eq rfl rfl rfl

theorem dropTranslations_keeps {l : List (Option Word × Option Word)} {s : State} {p : Nat × Core} (h : p ∈ (l.foldl dropTranslations s).cores) :
    ∃ q ∈ s.cores, ∀ e ∈ p.2.tlb, e ∈ q.2.tlb := by
  induction l generalizing s with
  | nil => exact ⟨p, h, fun _ he => he⟩
  | cons v l ih =>
    obtain ⟨q, hq, hsub⟩ := ih h
    obtain ⟨r, hr, rfl⟩ := List.mem_map.1 hq
    exact ⟨r, hr, fun e he => (List.mem_filter.1 (hsub e he)).1⟩

theorem dropTranslations_drops {l : List (Option Word × Option Word)} {s : State} {v : Option Word × Option Word} (hv : v ∈ l)
    {p : Nat × Core} (hp : p ∈ (l.foldl dropTranslations s).cores) {e : TlbEntry} (he : e ∈ p.2.tlb) : tlbHit v.1 v.2 e = false := by
  induction l generalizing s with
  | nil => cases hv
  | cons w l ih =>
    rcases List.mem_cons.1 hv with rfl | hv
    · obtain ⟨q, hq, hsub⟩ := dropTranslations_keeps (l := l) hp
      obtain ⟨r, -, rfl⟩ := List.mem_map.1 hq
      simpa using (List.mem_filter.1 (hsub e he)).2
    · exact ih hv hp

/-! ## The grant (R36, R117, R138) -/

theorem commitGrant_grants {s : State} {t : Nat} {c : Chunk} (hp : s.paused = false) (hr : s.requests.contains t = true)
    (hg : grantable s t = true) (hb : behind s t = false) (ho : (s.thr t).older = some c) (hc : c.parity = none) :
    exec (.commitGrant t) s = .next (grantChunk s t c) := by
  show execCommitGrant t s = _
  simp only [execCommitGrant, ho, hc, hp, hr, hg, hb, Option.isSome_none, Bool.false_and, Bool.not_true, Bool.or_self, Bool.false_eq_true,
    if_false, event]

theorem commitGrant_squashes {s : State} {t : Nat} {c : Chunk} (ho : (s.thr t).older = some c) (hs : c.state = .requested)
    (hc : c.parity.isSome = true) : exec (.commitGrant t) s = .next (squash s t true 1) := by
  show execCommitGrant t s = _
  simp only [execCommitGrant, ho, hc, hs, Bool.true_and, if_true, beq_self_eq_true, event]

theorem commitGrant_waits {s : State} {t : Nat} {c : Chunk} (ho : (s.thr t).older = some c) (hc : c.parity = none)
    (hg : grantable s t = false) : exec (.commitGrant t) s = .next s := by
  show execCommitGrant t s = _
  simp only [execCommitGrant, ho, hc, hg, Option.isSome_none, Bool.false_and, Bool.not_false, Bool.or_true, Bool.true_or, Bool.false_eq_true,
    if_false, if_true, event]

theorem commitGrant_none {s : State} {t : Nat} (ho : (s.thr t).older = none) : exec (.commitGrant t) s = .next s := by
  show execCommitGrant t s = _
  simp only [execCommitGrant, ho, event]

/-- The commit point itself: the writes reach memory, the request is gone, and the chunk is granted (R36, R138). -/
def commitPoint (s : State) (t : Nat) (c : Chunk) : State :=
  let th := s.thr t
  let stage := stageOf s th.core c
  let unit := unitOf th.core stage
  let count := tabGet 0 s.grants unit + 1
  let sinks := if c.wlines.isEmpty then [] else s.activeCores.filter (inReach th.core stage)
  { s with
    mem := (c.writes.filter fun e => !s.isFar e.1).foldl (fun m e => memSet m e.1 e.2) s.mem
    grants := tabSet s.grants unit count
    requests := s.requests.filter (· != t)
    tlbinvs := s.tlbinvs ++ c.tlbinv.map fun (v : Option Word × Option Word) => (t, v.1, v.2)
    bcasts := s.bcasts ++ sinks.map fun (k : Nat) => (⟨k, t, th.lid, c.wlines, (c.writes.map fun e => e.1 / 4).eraseDups⟩ : Bcast) }

/-- The chunk as its grant leaves it. -/
def grantedChunk (s : State) (t : Nat) (c : Chunk) : Chunk :=
  let stage := stageOf s (s.thr t).core c
  { c with
    state := .granted, writes := [], post := farSegments s (c.writes.filter fun e => s.isFar e.1) [] c.post
    order := BitVec.ofNat 64 (stage * 2 ^ 62 + (tabGet 0 s.grants (unitOf (s.thr t).core stage) + 1) % 2 ^ 62) }

/-- The state of the grant before the caches, the arrays and the translations follow it. -/
def granting (s : State) (t : Nat) (c : Chunk) : State :=
  (commitPoint s t c).modThr t fun th => { th with older := some (grantedChunk s t c) }

/-- The caches and the arrays after the grant. -/
def grantCopies (s : State) (t : Nat) (c : Chunk) : State :=
  (arrayWrites (commitLines (granting s t c) (s.thr t).core c.writes) true t (c.writes.filter fun e => !s.isFar e.1)).dropFlips (s.thr t).core
    fun f => f.array == 0 && f.owner == c.uid

theorem grantChunk_eq {s : State} {t : Nat} {c : Chunk} (hctx : c.ctx = []) (hfreed : c.freed = []) :
    grantChunk s t c = c.tlbinv.foldl dropTranslations (grantCopies s t c) := by
  have heq : grantChunk s t c = State.asThread (c.ctx.foldl (applyCtx t) (c.tlbinv.foldl dropTranslations (grantCopies s t c))) t
      fun s => freeNodes s c.freed := rfl
  rw [heq, hctx, hfreed]
  rfl

theorem Injected.grantChunk {s : State} {t : Nat} {c : Chunk} (hctx : c.ctx = []) (hfreed : c.freed = []) :
    Injected (granting s t c) (Machine.grantChunk s t c) := by
  rw [grantChunk_eq hctx hfreed]
  refine Injected.trans ?_ (Injected.foldl .dropTranslations _ _)
  unfold grantCopies State.dropFlips
  exact ((Injected.commitLines ..).trans (.arrayWrites ..)).trans (.modCore ..)

theorem grantChunk_fields {s : State} {t : Nat} {c : Chunk} (hctx : c.ctx = []) (hfreed : c.freed = []) :
    let u := grantChunk s t c
    u.mem = (c.writes.filter fun e => !s.isFar e.1).foldl (fun m e => memSet m e.1 e.2) s.mem ∧
    u.requests = s.requests.filter (· != t) ∧
    (∃ k, (u.thr t).older = some k ∧ k.state = .granted ∧ k.uid = c.uid ∧ k.writes = []) ∧
    (u.thr t).regs = (s.thr t).regs ∧
    (∀ v ∈ c.tlbinv, ∀ p ∈ u.cores, ∀ e ∈ p.2.tlb, tlbHit v.1 v.2 e = false) := by
  have hinj := Injected.grantChunk (s := s) (t := t) hctx hfreed
  have ht : (granting s t c).thr t = { s.thr t with older := some (grantedChunk s t c) } := by
    rw [granting, State.modThr_eq, State.thr_setThr_same]; rfl
  refine ⟨hinj.mem, hinj.requests, ⟨grantedChunk s t c, (hinj.older t).trans (by rw [ht]), rfl, rfl, rfl⟩,
    (hinj.regs t).trans (by rw [ht]), fun w hw p hp e he => ?_⟩
  rw [grantChunk_eq hctx hfreed] at hp
  exact dropTranslations_drops hw hp he

/-! ## The release, the broadcast and the token (R37, R38, R139, R140) -/

section
variable {s : State} {t : Nat} {c : Chunk} (ho : (s.thr t).older = some c)
include ho

theorem release_whole (hr : releasable s t c = true) (hn : sendable s (1024 - s.farCount t) c.post = c.post.length) :
    exec (.postCommitRelease t) s = .next (releaseChunk s t c) := by
  show execPostCommitRelease t s = _
  simp only [execPostCommitRelease, ho, hr, hn, if_true, event]

theorem release_part (hr : releasable s t c = true) (hn : sendable s (1024 - s.farCount t) c.post ≠ c.post.length) :
    exec (.postCommitRelease t) s = .next
      ((((c.post.take (sendable s (1024 - s.farCount t) c.post)).foldl (sendAct t) s).modThr t fun th => { th with
        older := th.older.map fun k => { k with post := c.post.drop (sendable s (1024 - s.farCount t) c.post) } }).drained) := by
  show execPostCommitRelease t s = _
  simp only [execPostCommitRelease, ho, hr, hn, if_true, if_false, event]

theorem release_waits (hc : c.state ≠ .granted) : exec (.postCommitRelease t) s = .next s := by
  have hr : releasable s t c = false := by
    have hstate : (c.state == .granted) = false := beq_eq_false_iff_ne.2 hc
    rw [releasable, hstate]; rfl
  show execPostCommitRelease t s = _
  simp only [execPostCommitRelease, ho, hr, Bool.false_eq_true, if_false, event]

end

theorem tokenGrant_grants {s : State} {t : Nat} {q : List Nat} (hk : s.token = none) (hq : s.tokenQ = t :: q) (hl : (s.thr t).loc = .slot)
    (ho : ∀ c, (s.thr t).older = some c → c.inFlight = false) (hb : (s.bcasts.any fun b => b.core == (s.thr t).core) = false) :
    ∃ u, exec .tokenGrant s = .next u ∧ u.token = some t ∧ u.tokenQ = s.tokenQ.filter (· != t) ∧
      (u.thr t).chunk.token = true ∧ (u.thr t).regs = (s.thr t).regs ∧ u.mem = s.mem := by
  refine ⟨({ s with token := some t, tokenQ := s.tokenQ.filter (· != t) } : State).modThr t fun th => { th with
      chunk := { th.chunk with token := true }
      status := match th.status with
        | .retry .token => (match th.chunk.redo with | some w => .wait w | none => .ready)
        | st => st }, ?_, rfl, rfl, ?_, ?_, rfl⟩
  · show execTokenGrant s = _
    unfold execTokenGrant
    rw [hk, hq]
    dsimp only [Option.isSome_none, Bool.false_eq_true, if_false]
    cases hold : (s.thr t).older with
    | none => simp only [hl, hb]; rfl
    | some c => simp only [hl, hb, ho c hold]; rfl
  · rw [State.modThr_eq, State.thr_setThr_same]
  · rw [State.modThr_eq, State.thr_setThr_same]; rfl

/-- Settles O41. `Tests.witness_commit` and `Tests.witness_release` meet the premises. -/
theorem commitAndRelease : Obligations.CommitAndRelease := by
  refine ⟨⟨fun s t c hp hr hg hb ho hc => commitGrant_grants hp hr hg hb ho hc, fun s t c ho hs hc => commitGrant_squashes ho hs hc,
    fun s t c hctx hfreed => grantChunk_fields hctx hfreed, fun s t c ho hc hg => commitGrant_waits ho hc hg,
    fun s t ho => commitGrant_none ho⟩,
    fun s t c ho => ⟨fun hr hn => release_whole ho hr hn, fun hr hn => release_part ho hr hn, fun hc => release_waits ho hc⟩,
    fun s k b hb => ?_, fun s t q hk hq hl ho hb => tokenGrant_grants hk hq hl ho hb⟩
  show execCommitBroadcastApply k s = _
  rw [execCommitBroadcastApply, hb]
  rfl

end Sys2Proof.Machine
end

section
/-!
PROOFS. Reducing copies at their regions, and the retirement of commands (O48).
-/
namespace Sys2Proof.Machine

/-- What the controllers of a region do with a reducing copy, by the distance of its number from NEXT (R238). -/
def regionAnswer (s : State) (c : Command) (r : Nat) : State :=
  let k := s.regionOf r
  let d := (BitVec.ofNat 32 (bits c.w0 63 32) - k.next).toNat
  if k.err then sequenceError s c 3
  else if d = 0 then applyHeld (applyInOrder s c r) r 128
  else if d ≤ 127 then s.modRegion r fun k => { k with held := k.held ++ [c.id] }
  else if d < 2 ^ 31 then s.modCmd c.id fun k => { k with resend := true }
  else sequenceError s c 1

/-- No bank of a destination is refreshing. -/
theorem noBankBusy {s : State} {l : List (Option (Nat × Nat))} (h : ∀ q, some q ∈ l → s.bankBusy q.1 = false) :
    (l.findSome? fun p => p.bind fun q => if s.bankBusy q.1 then some q.1 else none) = none := by
  rw [List.findSome?_eq_none_iff]
  intro p hp
  cases p with
  | none => rfl
  | some q => simp [h q hp]

theorem redcopyApply_answers {s : State} {ticket r : Nat} {c : Command} (hc : s.cmd? ticket = some c) (hk : c.kind = 0x11)
    (hs : c.state = .running) (hsent : c.sent = true) (hre : c.resend = false) (hp : s.paused = false)
    (hh : (s.regions.any fun q => q.2.held.contains c.id) = false)
    (hw : beatWaits s c [⟨touchRun 1 (redDest c) (c.data.length / 4 * redSize c) true, false, id⟩] = false)
    (hb : ∀ q, some q ∈ destPas s c (c.data.length / 4 * redSize c) → s.bankBusy q.1 = false) (hr : (redRegion s c).1 = some r) :
    exec (.redcopyApply ticket) s = .next (regionAnswer s.fresh.2 c r) := by
  have hred : redRegion s c = (some r, (redRegion s c).2) := Prod.ext hr rfl
  show execRedcopyApply ticket s = _
  unfold execRedcopyApply
  rw [hc]
  dsimp only
  simp only [hk, hs, hsent, hre, hp, hh, hw, noBankBusy hb, ne_eq, not_true, Bool.not_true, Bool.false_eq_true, or_self, if_false]
  rw [hred]
  rfl

section
variable {s : State} {c : Command} {r : Nat}

theorem regionAnswer_err (he : (s.regionOf r).err = true) : regionAnswer s c r = sequenceError s c 3 := if_pos he

theorem regionAnswer_sound (he : (s.regionOf r).err = false) : regionAnswer s c r =
    if (BitVec.ofNat 32 (bits c.w0 63 32) - (s.regionOf r).next).toNat = 0 then applyHeld (applyInOrder s c r) r 128
    else if (BitVec.ofNat 32 (bits c.w0 63 32) - (s.regionOf r).next).toNat ≤ 127 then
      s.modRegion r fun k => { k with held := k.held ++ [c.id] }
    else if (BitVec.ofNat 32 (bits c.w0 63 32) - (s.regionOf r).next).toNat < 2 ^ 31 then s.modCmd c.id fun k => { k with resend := true }
    else sequenceError s c 1 := if_neg (ne_true_of_eq_false he)

end

/-- Outside recovery a register block takes its write (R377). -/
theorem blockEvent_of {s : State} (h : s.reg.phase ≠ 15) (t : State) : blockEvent s t = .next t := by
  rw [blockEvent, if_neg h, event]

theorem commandRetire_plain {s : State} {id : Nat} {c : Command} (hc : s.cmd? id = some c) (hd : c.state = .done) (hf : c.flag 9 = false) :
    exec (.commandRetire id) s = .next (retireCommand s c) := by
  show execCommandRetire id s = _
  simp [execCommandRetire, hc, hd, hf, event]

theorem commandRetire_waits {s : State} {id : Nat} {c : Command} (hc : s.cmd? id = some c) (hd : c.state = .done) (hf : c.flag 9 = true)
    (hcls : c.cls ≠ 1) (hr : released s c.tid (commandScope c) c.id = false) : exec (.commandRetire id) s = .next s := by
  show execCommandRetire id s = _
  simp [execCommandRetire, hc, hd, hf, hcls, hr, event]

/-- Settles O48. `Tests.witness_reducing` and `Tests.witness_retire` meet the premises. -/
theorem reducingCopiesAndRetirement : Obligations.ReducingCopiesAndRetirement := by
  refine ⟨fun s id r c hc hk hs hsent hre hp hh hw hb hr => ?_, fun s id => rfl, fun s r hh => ?_, fun s r hh => ?_,
    fun s id c hc hd => ⟨fun hf => commandRetire_plain hc hd hf, fun hf hcls hr => commandRetire_waits hc hd hf hcls hr⟩,
    fun s r hr hp => ⟨?_, ?_⟩, fun s r hr hp => ?_⟩
  · have hans := redcopyApply_answers hc hk hs hsent hre hp hh hw hb hr
    intro u k d
    refine ⟨fun he => ?_, fun he hd => ?_, fun he h1 h2 => ?_, fun he h1 h2 => ?_, fun he hd => ?_⟩ <;>
      refine hans.trans (congrArg _ ?_)
    · exact regionAnswer_err (s := u) he
    · exact (regionAnswer_sound (s := u) he).trans (if_pos hd)
    · exact (regionAnswer_sound (s := u) he).trans ((if_neg (show d ≠ 0 by omega)).trans (if_pos h2))
    · exact (regionAnswer_sound (s := u) he).trans
        ((if_neg (show d ≠ 0 by omega)).trans ((if_neg (show ¬ d ≤ 127 by omega)).trans (if_pos h2)))
    · exact (regionAnswer_sound (s := u) he).trans
        ((if_neg (show d ≠ 0 by omega)).trans ((if_neg (show ¬ d ≤ 127 by omega)).trans (if_neg (show ¬ d < 2 ^ 31 by omega))))
  · show execRegionGapTimeout r s = _
    simp [execRegionGapTimeout, hh, event]
  · show execRegionGapTimeout r s = _
    have hne : (s.regionOf r).held.isEmpty = false := by simpa using hh
    exact congrArg Host.Outcome.next (if_neg (ne_true_of_eq_false hne))
  · show blockEvent s _ = _
    rw [blockEvent_of hp, if_pos hr]
  · show blockEvent s _ = _
    rw [blockEvent_of hp, if_pos hr]
  · show blockEvent s _ = _
    rw [blockEvent_of hp, if_pos hr]

end Sys2Proof.Machine
end

section
/-!
PROOFS. A collective whose first result overwrites the member list (O49).

The switch names every member's part by the ranks that hold when all have contributed. The statement names a member's
part by its rank after the members before it have written. The two differ where a destination lies in the member list.
-/
namespace Sys2Proof.Machine

/-- A running REDSCAT of two elements with OP 1, a sum of integers, with its contribution. -/
def scatterCommand (id core : Nat) (dest : Word) (data : List Byte) : Command :=
  { id := id, tid := 0, lid := 0, core := core, engine := 2, serial := BitVec.ofNat 32 id, batch := 0, w0 := 0x01000022, w1 := 0x2000
    w2 := dest, w3 := 0x0000000200000000, snap := 0, key := 0, satp := 0, cbwin := 0, entries := 1, started := true, state := .running
    cls := 0, detail := 0, reported := false, mark := none, satcnt := 0, flags := 0, resend := false, progress := 0, sent := false
    data := data, held := [] }

/-- Two members of one collective, cores (0, 0) and (1, 0). The first one's destination is the second entry of the member
list, so its result, 5, takes the second member's rank away. -/
def overlappingList : State :=
  { State.reset with
    cmds := [scatterCommand 1 0 0x8004 [5, 0, 0, 0, 7, 0, 0, 0], scatterCommand 2 1 0x3000 [0, 0, 0, 0, 0, 0, 0, 0]]
    mem := memWrite [] 0x8004 [1]
    colls := [(0, { valid := true, gid := 0, list := 0x8000, nmem := 2, next := 0, here := [1, 2] })] }

/-- A byte of memory after a step. -/
def byteAfter (a : Nat) : Out → Option Byte
  | .next u => some (memGet u.mem a)
  | _ => none

/-- In the model the second member gets the sum of the second elements. -/
theorem overlappingList_model : byteAfter 0x3000 (exec (.collectiveContribution 0 []) overlappingList) = some 7 := by decide +kernel

/-- Refutes O49: in the clause on complete collectives a member's rank is read from the memory that earlier members' results
have already changed. In `overlappingList` the second member then gets the first element of the sum, 5, where the model
gives it the second, 7. -/
theorem not_collectivesAndCheckpoints : ¬ Obligations.CollectivesAndCheckpoints := by
  intro h
  obtain ⟨⟨-, -, hresults, -⟩, -⟩ := h
  have hranks : ∀ r, r < (overlappingList.collOf 0).nmem →
      (tabFind (rankData overlappingList (overlappingList.collOf 0) []) r).isSome = true := by
    intro r hr
    have hr2 : r < 2 := hr
    match r, hr2 with
    | 0, _ => decide +kernel
    | 1, _ => decide +kernel
  have hstep := congrArg (byteAfter 0x3000)
    (hresults overlappingList 0 [] (by decide +kernel) (by decide +kernel) hranks (by decide +kernel))
  exact absurd (overlappingList_model.symm.trans hstep) (by decide +kernel)

end Sys2Proof.Machine
end

section
/-!
PROOFS. Refreshes of HBM banks and fills of missed lines (O50).
-/
namespace Sys2Proof.Machine

/-! ## Tables of rising keys -/

theorem Rises.le_of_mem {α : Type} {n : Nat} : ∀ {l : List (Nat × α)}, Rises n l → ∀ p ∈ l, n ≤ p.1
  | [], _, _, hp => absurd hp List.not_mem_nil
  | (k, v) :: m, hl, p, hp => by
    rcases List.mem_cons.1 hp with rfl | hp
    · exact hl.1
    · have := Rises.le_of_mem hl.2 p hp
      have := hl.1
      omega

theorem tabGet_of_mem {α : Type} (d : α) {n : Nat} : ∀ {l : List (Nat × α)}, Rises n l → ∀ {a : Nat} {v : α}, (a, v) ∈ l → tabGet d l a = v
  | [], _, _, _, h => absurd h List.not_mem_nil
  | (k, w) :: m, hl, a, v, h => by
    rcases List.mem_cons.1 h with h | h
    · cases h
      exact if_pos rfl
    · have := Rises.le_of_mem hl.2 _ h
      have hne : k ≠ a := by omega
      exact (if_neg hne).trans (tabGet_of_mem d hl.2 h)

theorem Rises.map {α : Type} {g : Nat × α → α} {n : Nat} : ∀ {l : List (Nat × α)}, Rises n l → Rises n (l.map fun p => (p.1, g p))
  | [], _ => trivial
  | _ :: _, hl => ⟨hl.1, Rises.map hl.2⟩

/-- What a thread becomes where every thread is mapped. -/
theorem thr_map {s t : State} {g : Nat × Thread → Thread} {u : Nat} (hk : keysRise s.threads = true) (hu : (u, s.thr u) ∈ s.threads)
    (ht : t.threads = s.threads.map fun p => (p.1, g p)) : t.thr u = g (u, s.thr u) := by
  rw [State.thr, ht]
  exact tabGet_of_mem _ (rises_of_keysRise hk).map (List.mem_map.2 ⟨_, hu, rfl⟩)

/-! ## Banks (R126) -/

theorem bank_setBank (s : State) (b : Nat) (k : Bank) (c : Nat) : (s.setBank b k).bank c = if b = c then k else s.bank c :=
  tabGet_tabSet ..

/-- Setting the banks of a list of places, each from its own value. -/
def setBanks (key : Nat → Nat) (f : State → Nat → Bank) (l : List Nat) (s : State) : State :=
  l.foldl (fun s j => s.setBank (key j) (f s j)) s

theorem setBanks_bank {key : Nat → Nat} (hkey : ∀ i j, key i = key j → i = j) {f : State → Nat → Bank}
    (hf : ∀ s i j k, i ≠ j → f (s.setBank (key i) k) j = f s j) {l : List Nat} (hl : l.Nodup) (s : State) :
    ∀ j ∈ l, (setBanks key f l s).bank (key j) = f s j := by
  have hout : ∀ (l : List Nat) (s : State) (j : Nat), j ∉ l → (setBanks key f l s).bank (key j) = s.bank (key j) := by
    intro l
    induction l with
    | nil => exact fun s j _ => rfl
    | cons i l ih =>
      intro s j hj
      rw [List.mem_cons, not_or] at hj
      exact (ih _ j hj.2).trans ((bank_setBank ..).trans (if_neg fun h => hj.1 (hkey _ _ h).symm))
  induction l generalizing s with
  | nil => nofun
  | cons i l ih =>
    obtain ⟨hi, hl⟩ := List.nodup_cons.1 hl
    intro j hj
    rcases List.mem_cons.1 hj with rfl | hj
    · exact (hout l _ j hi).trans ((bank_setBank ..).trans (if_pos rfl))
    · exact (ih hl _ j hj).trans (hf _ _ _ _ fun h => hi (h ▸ hj))

theorem bankKey_inj (stack pc : Nat) (i j : Nat) (h : bankKey stack pc i = bankKey stack pc j) : i = j := Nat.add_left_cancel h

theorem setBanks_fields (key : Nat → Nat) (f : State → Nat → Bank) (l : List Nat) (s : State) :
    (setBanks key f l s).hbm = s.hbm ∧ (setBanks key f l s).readers = s.readers := by
  induction l generalizing s with
  | nil => exact ⟨rfl, rfl⟩
  | cons i l ih => exact ih _

theorem serveReaders_none {s : State} (h : s.readers = []) : serveReaders s = s := by
  have hs : { s with readers := [] } = s := by rw [← h]
  simp only [serveReaders, h, List.filter_nil, List.foldl_nil, hs]

section
variable {s : State} {stack pc bank : Nat} (hok : bankOk stack pc bank = true)
include hok

theorem refpbDue_made (hb : (s.bank (bankKey stack pc bank)).busy = 0) (hq : s.queuedRead (bankKey stack pc bank) = false) :
    exec (.refpbDue stack pc bank) s = .next ((s.setBank (bankKey stack pc bank) { s.bank (bankKey stack pc bank) with busy := 1 }).modHbm stack
      fun h => { h with pb := h.pb + 1 }) := by
  show execRefpbDue stack pc bank s = _
  simp only [execRefpbDue, hok, hb, hq, Bool.not_true, Bool.not_false, Bool.false_eq_true, beq_self_eq_true, Bool.and_self, if_false, if_true, event]

theorem refpbDue_owed (ho : (s.bank (bankKey stack pc bank)).owed < 8)
    (hn : (!s.queuedRead (bankKey stack pc bank) && (s.bank (bankKey stack pc bank)).busy == 0) = false) :
    exec (.refpbDue stack pc bank) s = .next ((s.setBank (bankKey stack pc bank)
      { s.bank (bankKey stack pc bank) with owed := (s.bank (bankKey stack pc bank)).owed + 1 }).modHbm stack
        fun h => { h with post := h.post + BitVec.ofNat 64 (b2n (s.queuedRead (bankKey stack pc bank))) }) := by
  show execRefpbDue stack pc bank s = _
  simp only [execRefpbDue, hok, hn, ho, Bool.not_true, Bool.false_eq_true, if_false, if_true, event]

theorem refpbDue_forced (hq : s.queuedRead (bankKey stack pc bank) = true) (ho : 8 ≤ (s.bank (bankKey stack pc bank)).owed) :
    exec (.refpbDue stack pc bank) s = .next ((setBanks (bankKey stack pc) (fun _ _ => { owed := 0, busy := 2 }) (List.range 16) s).modHbm stack
      fun h => { h with forced := h.forced + 1 }) := by
  show execRefpbDue stack pc bank s = _
  simp only [execRefpbDue, hok, hq, Nat.not_lt.2 ho, Bool.not_true, Bool.false_and, Bool.false_eq_true, if_false, event]
  rfl

theorem owedRefresh_made (hb : (s.bank (bankKey stack pc bank)).busy = 0) (ho : 0 < (s.bank (bankKey stack pc bank)).owed)
    (hq : s.queuedRead (bankKey stack pc bank) = false) :
    exec (.owedRefresh stack pc bank) s = .next ((s.setBank (bankKey stack pc bank)
      { owed := (s.bank (bankKey stack pc bank)).owed - 1, busy := 1 }).modHbm stack fun h => { h with pb := h.pb + 1 }) := by
  show execOwedRefresh stack pc bank s = _
  simp only [execOwedRefresh, hok, hb, ho, hq, Bool.not_false, beq_self_eq_true, decide_true, Bool.and_self, if_true, event]

end

section
variable {s : State} {stack pc bank : Nat}

theorem refreshEnd_one (hb : (s.bank (bankKey stack pc bank)).busy = 1) : exec (.refreshEnd stack pc bank) s =
    .next (serveReaders (s.setBank (bankKey stack pc bank) { s.bank (bankKey stack pc bank) with busy := 0 })) := by
  show execRefreshEnd stack pc bank s = _
  simp only [execRefreshEnd, hb, if_true, event]

theorem refreshEnd_all (hb : (s.bank (bankKey stack pc bank)).busy = 2) : exec (.refreshEnd stack pc bank) s =
    .next (serveReaders (setBanks (bankKey stack pc) (fun s j => { s.bank (bankKey stack pc j) with busy := 0 }) (List.range 16) s)) := by
  have h1 : ¬ (2 : Nat) = 1 := by decide
  show execRefreshEnd stack pc bank s = _
  simp only [execRefreshEnd, hb, h1, if_false, if_true, event]
  rfl

/-- A host read that waits at a bank gets its line when the bank is free. -/
theorem serveReaders_host {s : State} {pa : Nat} (hr : s.readers = [(.host, pa)]) (hb : s.bankBusy pa = false) :
    serveReaders s = hostReadLine { s with readers := [] } pa := by
  simp only [serveReaders, hr, hb, List.filter_cons, List.filter_nil, Bool.not_false, Bool.false_eq_true, if_true, if_false, beq_self_eq_true,
    List.foldl_cons, List.foldl_nil]

end

/-! ## Fills (R103, R121) -/

/-- A line of the cluster array without flips is read as it is (R129). -/
theorem settleArray_sound {s : State} {t pa : Nat} (h : s.homeTainted pa = false) : settleArray s t pa = s := by
  have hno : ((s.coreOf ((clusterCores (s.homeOf pa)).headD 0)).flips.filter fun f => f.array == 9 && f.addr / 64 == pa / 64) = [] :=
    List.filter_eq_nil_iff.2 fun f hf hit => (List.any_eq_false.1 h f hf) hit
  have hcorrect : ∀ (addr : Nat → Nat), correctWords s ((clusterCores (s.homeOf pa)).headD 0) 9 (s.instOf pa) t addr
      (fun f => f.addr / 64 == pa / 64) = s := fun addr => by
    rw [correctWords]
    dsimp only
    rw [hno]
    rfl
  rw [settleArray]
  dsimp only
  rw [hcorrect, hno]
  rfl

/-- The threads and memory stay. -/
structure Filled (s t : State) : Prop where
  threads : t.threads = s.threads
  mem : t.mem = s.mem

theorem Filled.modCore (s : State) (core : Nat) (f : Core → Core) : Filled s (s.modCore core f) := ⟨rfl, rfl⟩

theorem Filled.trans {s t u : State} (h : Filled s t) (k : Filled t u) : Filled s u := ⟨k.threads.trans h.threads, k.mem.trans h.mem⟩

theorem Filled.makeWay (s : State) (core line : Nat) : Filled s (s.makeWay core line) := by
  unfold State.makeWay
  dsimp only
  split
  · exact ⟨rfl, rfl⟩
  · exact ⟨rfl, rfl⟩

theorem Filled.fillLine (s : State) (core pa : Nat) : Filled s (s.fillLine core pa) := by
  unfold State.fillLine
  dsimp only
  split
  · exact .modCore ..
  · exact (Filled.makeWay ..).trans (.modCore ..)

theorem Filled.fillCode (s : State) (core pa : Nat) : Filled s (s.fillCode core pa) := by
  unfold State.fillCode
  dsimp only
  split
  · exact .modCore ..
  · exact Filled.trans (t := State.modCore s.fresh.2 core _) ⟨rfl, rfl⟩ (.modCore ..)

theorem tabFind_tabSet_isSome {α : Type} {m : List (Nat × α)} {a b : Nat} {v : α} (h : (tabFind m b).isSome = true) :
    (tabFind (tabSet m a v) b).isSome = true := by
  rw [tabFind_tabSet]
  split
  · rfl
  · exact h

/-- After a fill every byte of the line is there. -/
theorem fillWords_has (s : State) (l : List (Nat × Byte)) (base : Nat) {i : Nat} (hi : i < 64) :
    (tabFind (fillWords s l base) (base + i)).isSome = true := by
  have hkeep : ∀ (is : List Nat) (m : List (Nat × Byte)) (a : Nat), (tabFind m a).isSome = true →
      (tabFind (is.foldl (fun m i => if hasWord l (base + i) then m else tabSet m (base + i) (s.homeByte (base + i))) m) a).isSome = true := by
    intro is
    induction is with
    | nil => exact fun m a h => h
    | cons j is ih =>
      intro m a h
      refine ih _ a ?_
      dsimp only
      split
      · exact h
      · exact tabFind_tabSet_isSome h
  by_cases hw : hasWord l (base + i) = true
  · have hmod := List.all_eq_true.1 hw ((base + i) % 4) (List.mem_range.2 (Nat.mod_lt _ (by decide)))
    rw [Nat.div_add_mod' (base + i) 4] at hmod
    exact hkeep _ l _ hmod
  · have hfill : ∀ (is : List Nat) (m : List (Nat × Byte)), i ∈ is →
        (tabFind (is.foldl (fun m i => if hasWord l (base + i) then m else tabSet m (base + i) (s.homeByte (base + i))) m) (base + i)).isSome
          = true := by
      intro is
      induction is with
      | nil => exact fun m h => absurd h List.not_mem_nil
      | cons j is ih =>
        intro m h
        rcases List.mem_cons.1 h with rfl | h
        · refine hkeep is _ _ ?_
          dsimp only
          rw [if_neg hw, tabFind_tabSet, if_pos rfl]
          rfl
        · exact ih _ h
    exact hfill _ l (List.mem_range.2 hi)

theorem fillCode_has (s : State) (core pa : Nat) {i : Nat} (hi : i < 64) :
    (tabFind ((s.fillCode core pa).coreOf core).l1i (pa / 64 * 64 + i)).isSome = true := by
  unfold State.fillCode
  dsimp only
  rw [State.coreOf_modCore, if_pos rfl]
  exact fillWords_has _ _ _ hi

/-- A thread of a core waits for the line, for data or for code. -/
def waitsFor (core line : Nat) (fetch : Bool) (p : Nat × Thread) : Bool :=
  p.2.core == core && match p.2.status with
    | .retry (.miss a f) => a / 64 * 64 == line && f == fetch
    | _ => false

/-- The waiting threads of a core go on. -/
def wake (core line : Nat) (fetch : Bool) (s : State) : State :=
  { s with threads := s.threads.map fun (p : Nat × Thread) =>
      (p.1, if p.2.loc == .slot && waitsFor core line fetch p then { p.2 with status := .ready } else p.2) }

/-- The state with the line in the cache that the miss is of. -/
def filled (s : State) (core line : Nat) (fetch : Bool) : State := if fetch then s.fillCode core line else s.fillLine core line

theorem Filled.filled (s : State) (core line : Nat) (fetch : Bool) : Filled s (filled s core line fetch) := by
  unfold Machine.filled
  split
  · exact .fillCode ..
  · exact .fillLine ..

section
variable {s : State} {t pa : Nat} {f : Bool} (hm : (t, s.thr t) ∈ s.threads) (hl : (s.thr t).loc = .slot)
  (hs : (s.thr t).status = .retry (.miss pa f))
include hs

theorem waitsFor_self : waitsFor (s.thr t).core (pa / 64 * 64) f (t, s.thr t) = true := by
  simp only [waitsFor, hs, beq_self_eq_true, Bool.and_self]

include hm hl in
theorem missFill_fills (hf : s.isFar (pa / 64 * 64) = false)
    (hb : s.placeOf (pa / 64 * 64) = .own → (s.bank (s.bankAt (pa / 64 * 64))).busy = 0)
    (hi : f = false → s.invalWaits (s.thr t).core (pa / 64 * 64) = false) (ht : s.homeTainted (pa / 64 * 64) = false)
    (hp : s.poison.contains (pa / 64) = false) :
    exec (.missFill (s.thr t).core pa f) s = .next (wake (s.thr t).core (pa / 64 * 64) f (filled s (s.thr t).core (pa / 64 * 64) f)) := by
  have hbusy : s.bankBusy (pa / 64 * 64) = false := by
    cases ho : s.placeOf (pa / 64 * 64) == .own with
    | false => rw [State.bankBusy, ho]; rfl
    | true => rw [State.bankBusy, ho, hb (beq_iff_eq.1 ho)]; rfl
  have hinval : (!f && s.invalWaits (s.thr t).core (pa / 64 * 64)) = false := by
    cases f with
    | false => rw [hi rfl]; rfl
    | true => rfl
  have hfind : (s.resident.find? (waitsFor (s.thr t).core (pa / 64 * 64) f)).isSome = true :=
    List.find?_isSome.2 ⟨_, List.mem_filter.2 ⟨hm, by simp [hl]⟩, waitsFor_self hs⟩
  obtain ⟨⟨u, th⟩, hu⟩ := Option.isSome_iff_exists.1 hfind
  show event (match s.resident.find? (waitsFor (s.thr t).core (pa / 64 * 64) f) with | none => s | some (u, _) => _) = _
  rw [hu]
  dsimp only
  rw [hbusy, hf, hinval, if_neg (by decide), settleArray_sound ht, hp, if_neg (by decide)]
  rfl

end

/-- Settles O50. `Tests.witness_refresh` meets the premises. -/
theorem refreshAndFills : Obligations.RefreshAndFills := by
  refine ⟨fun s stack pc bank h1 h2 h3 => ?_, fun s t pa f hk hm hl hs hf hb hi ht hp => ?_⟩
  · have hok : bankOk stack pc bank = true := by simp [bankOk, h1, h2, h3]
    dsimp only
    refine ⟨fun hb hq => refpbDue_made hok hb hq, fun hb hq ho => ?_, fun hb hq ho => ?_, fun hb hq ho => ?_,
      fun hb ho hq => owedRefresh_made hok hb ho hq, fun hb hr => ?_, fun pa hb hr hp hbank => ?_, fun hb hr => ?_⟩
    · have hgo := refpbDue_owed hok ho (by rw [hq]; rfl)
      rwa [hq] at hgo
    · have hgo := refpbDue_owed hok ho (by simp [hb])
      rw [hq] at hgo
      simpa only [b2n, Bool.false_eq_true, if_false, BitVec.add_zero] using hgo
    · refine ⟨_, refpbDue_forced hok hq ho, fun j hj => ?_, ?_⟩
      · exact setBanks_bank (bankKey_inj stack pc) (fun _ _ _ _ _ => rfl) List.nodup_range s j (List.mem_range.2 hj)
      · have hhbm := (setBanks_fields (bankKey stack pc) (fun _ _ => { owed := 0, busy := 2 }) (List.range 16) s).1
        rw [State.modHbm, hhbm, tabGet_tabSet_same]
    · exact (refreshEnd_one hb).trans (congrArg _ (serveReaders_none hr))
    · refine (refreshEnd_one hb).trans (congrArg _ (serveReaders_host hr ?_))
      · have hfree : ((s.setBank (bankKey stack pc bank) { s.bank (bankKey stack pc bank) with busy := 0 }).bank (s.bankAt pa)).busy = 0 := by
          rw [bank_setBank, if_pos hbank.symm]
        exact Bool.and_eq_false_iff.2 (.inr (by rw [bne_eq_false_iff_eq]; exact hfree))
    · refine ⟨_, refreshEnd_all hb, fun j hj => ?_⟩
      rw [serveReaders_none ((setBanks_fields ..).2.trans hr)]
      refine setBanks_bank (bankKey_inj stack pc) (fun u i j k hij => ?_) List.nodup_range s j (List.mem_range.2 hj)
      rw [bank_setBank, if_neg fun h => hij (bankKey_inj stack pc _ _ h)]
  · have hthread : (wake (s.thr t).core (pa / 64 * 64) f (filled s (s.thr t).core (pa / 64 * 64) f)).thr t =
        { s.thr t with status := .ready } := by
      refine (thr_map hk hm (congrArg (List.map _) (Filled.filled ..).threads)).trans ?_
      rw [if_pos]
      rw [hl, waitsFor_self hs]
      rfl
    refine ⟨_, missFill_fills hm hl hs hf hb hi ht hp, (Filled.filled ..).mem, ?_, ?_, fun h => ?_, fun h i hi' => ?_⟩
    · rw [hthread]
    · rw [hthread]
    · subst h; rfl
    · subst h
      have hhas := fillCode_has s (s.thr t).core (pa / 64 * 64) hi'
      rwa [Nat.mul_div_cancel _ (by decide)] at hhas

end Sys2Proof.Machine
end

section
/-!
PROOFS. What a squash leaves: all but threads, cores, launches, commands, reservations, requests, the token, the cores that
are offline and the trace (R12, R337 to R339).
-/
namespace Sys2Proof.Machine

/-- A state but for what a squash can change. -/
def State.aside (s : State) : State :=
  { s with
    mem := [], threads := [], cores := [], requests := [], tokenQ := [], token := none, nextUid := 0, free := 0, stamp := 0, cmds := []
    reserved := [], launches := [], trace := State.reset.trace, reg := { s.reg with offline := [], offClusters := [] } }

/-- A step that changes only what a squash can change, and memory by whole writes, the packets of a trace that is
enabled. -/
structure Mild (s t : State) : Prop where
  aside : t.aside = s.aside
  wf : Memory.wf s.mem = true → Memory.wf t.mem = true
  en : t.trace.en = s.trace.en
  quiet : s.trace.en = false → t.mem = s.mem

theorem Mild.of_eq {s t : State} (ha : t.aside = s.aside) (hm : t.mem = s.mem) (ht : t.trace.en = s.trace.en) : Mild s t :=
  ⟨ha, fun h => hm ▸ h, ht, fun _ => hm⟩

theorem Mild.refl (s : State) : Mild s s := .of_eq rfl rfl rfl

theorem Mild.trans {s t u : State} (h : Mild s t) (k : Mild t u) : Mild s u :=
  ⟨k.aside.trans h.aside, fun w => k.wf (h.wf w), k.en.trans h.en, fun w => (k.quiet (h.en.trans w)).trans (h.quiet w)⟩

theorem Mild.foldl {α : Type} {f : State → α → State} (hf : ∀ s a, Mild s (f s a)) (l : List α) (s : State) : Mild s (l.foldl f s) :=
  foldl_rel .refl .trans hf l s

theorem Mild.ite {s t u : State} {c : Prop} [Decidable c] (ht : Mild s t) (hu : Mild s u) : Mild s (if c then t else u) := by
  split
  · exact ht
  · exact hu

theorem Mild.modThr (s : State) (t : Nat) (f : Thread → Thread) : Mild s (s.modThr t f) := .of_eq rfl rfl rfl

theorem Mild.modCore (s : State) (c : Nat) (f : Core → Core) : Mild s (s.modCore c f) := .of_eq rfl rfl rfl

theorem Mild.dropFlips (s : State) (c : Nat) (f : Flip → Bool) : Mild s (s.dropFlips c f) := .of_eq rfl rfl rfl

theorem Mild.setThr (s : State) (t : Nat) (th : Thread) : Mild s (s.setThr t th) := .of_eq rfl rfl rfl

theorem Mild.withRequests (s : State) (l : List Nat) : Mild s { s with requests := l } := .of_eq rfl rfl rfl

theorem Mild.restart (s : State) (n : Nat) (l : List Nat) : Mild s { s with nextUid := n, tokenQ := l } := .of_eq rfl rfl rfl

/-! ## Packets and logs -/

theorem Mild.emitAt (s : State) (time slot cluster slice kind : Nat) (ws : List Word) : Mild s (Machine.emitAt s time slot cluster slice kind ws) := by
  unfold Machine.emitAt
  by_cases he : s.trace.en = true
  · rw [he]
    refine .ite (.refl s) (.ite ⟨rfl, fun h => memWrite_wf h _ _, rfl, fun h => ?_⟩ (.ite ?_ ?_))
    · exact absurd (he.symm.trans h) (by decide)
    · exact .of_eq rfl rfl rfl
    · exact .of_eq rfl rfl rfl
  · rw [Bool.eq_false_iff.2 he]
    exact .refl s

theorem Mild.flushLog (s : State) (t : Nat) : Mild s (Machine.flushLog s t) :=
  .ite (.refl s) ((Mild.emitAt ..).trans (.modThr ..))

theorem Mild.addRecord (s : State) (t code detail arg : Nat) : Mild s (Machine.addRecord s t code detail arg) := by
  unfold Machine.addRecord
  dsimp only
  refine Mild.trans ?_ (.ite ((Mild.modThr ..).trans (.flushLog ..)) (.modThr ..))
  exact .ite (.flushLog ..) (.refl s)

theorem Mild.countEvent (s : State) (t ev n : Nat) : Mild s (Machine.countEvent s t ev n) := .ite (.modThr ..) (.refl s)

theorem Mild.logError (s : State) (core array inst addr word t : Nat) (older : Bool) (synd : BitVec 16) (cls : BitVec 4) (inj : Bool) :
    Mild s (s.logError core array inst addr word t older synd cls inj).1 := .of_eq rfl rfl rfl

/-! ## Discarding a chunk (R12) -/

theorem Mild.putBack (s : State) (u : Nat) : Mild s (Machine.putBack s u) := .ite ((Mild.modThr ..).trans (.modCore ..)) (.modThr ..)

theorem Mild.putBackWaiting (s : State) (t : Nat) : Mild s (Machine.putBackWaiting s t) := by
  unfold Machine.putBackWaiting
  split
  · dsimp only
    refine Mild.trans ?_ (.modThr ..)
    split
    · exact (Mild.putBack ..).trans (.putBack ..)
    · exact .putBack ..
  · exact .refl s

theorem Mild.giveBack (s : State) (t : Nat) (c : Chunk) (msgs : List Msg) : Mild s (Machine.giveBack s t c msgs) := by
  unfold Machine.giveBack
  dsimp only
  refine Mild.trans ?_ (.modThr ..)
  refine Mild.trans ?_ (Mild.foldl (fun s op => ?_) _ _)
  · refine Mild.trans ?_ (Mild.foldl (fun _ _ => .modCore ..) _ _)
    exact .of_eq rfl rfl rfl
  · have hback : ∀ (s : State) (u : Option Nat), Mild s (match u with | some u => Machine.putBack s u | none => s) := fun s u => by
      cases u with
      | none => exact .refl s
      | some u => exact .putBack ..
    split
    · exact (hback _ _).trans (hback _ _)
    · exact .refl s

theorem Mild.discardChunk (s : State) (t : Nat) (c : Chunk) (first : Bool) : Mild s (Machine.discardChunk s t c first) := by
  unfold Machine.discardChunk
  refine Mild.trans ?_ (.withRequests ..)
  exact (((Mild.modCore ..).trans (.giveBack ..)).trans (.dropFlips ..)).trans (.dropFlips ..)

theorem Mild.squashFrom (s : State) (t : Nat) (older : Bool) (why : Nat) : Mild s (Machine.squashFrom s t older why) := by
  unfold Machine.squashFrom
  refine Mild.trans ?_ (.restart ..)
  refine Mild.trans ?_ (.setThr ..)
  have hdiscard : Mild s (Machine.discardChunk (Machine.putBackWaiting s t) t ((Machine.putBackWaiting s t).thr t).chunk
      (older && ((Machine.putBackWaiting s t).thr t).older.isSome)) := (Mild.putBackWaiting ..).trans (.discardChunk ..)
  refine Mild.trans hdiscard (.trans ?_ (.ite (.trans (.ite (.addRecord ..) (.refl _)) (.addRecord ..)) (.refl _)))
  refine Mild.trans ?_ ((Mild.countEvent ..).trans (.countEvent ..))
  exact .ite (.discardChunk ..) (.refl _)

/-! ## Launches and units that end (R338, R339) -/

theorem Mild.ended (s : State) (cs : List Command) (rs : List Reservation) (q : List Nat) (t : Option Nat) (l : Nat) (f : Launch → Launch) :
    Mild s (({ s with cmds := cs, reserved := rs, tokenQ := q, token := t } : State).modLaunch l f) := .of_eq rfl rfl rfl

theorem Mild.terminateLaunch (s : State) (l : Nat) : Mild s (Machine.terminateLaunch s l) := by
  unfold Machine.terminateLaunch
  refine Mild.trans ?_ (.ended ..)
  refine .foldl (fun s p => .ite ?_ (.refl s)) ..
  refine Mild.trans ?_ ((Mild.modThr ..).trans (.modCore ..))
  split
  · exact .ite (.discardChunk ..) ((Mild.discardChunk ..).trans (.discardChunk ..))
  · exact .discardChunk ..

theorem Mild.endLaunchesOn (s : State) (cores : List Nat) : Mild s (Machine.endLaunchesOn s cores) := .foldl .terminateLaunch ..

theorem Mild.offClusters (s : State) (l : List Nat) : Mild s { s with reg := { s.reg with offClusters := l } } := .of_eq rfl rfl rfl

theorem Mild.offline (s : State) (l : List Nat) : Mild s { s with reg := { s.reg with offline := l } } := .of_eq rfl rfl rfl

theorem Mild.takeOffline (s : State) (array core : Nat) : Mild s (Machine.takeOffline s array core) := by
  unfold Machine.takeOffline
  dsimp only
  split
  · exact Mild.trans (.offClusters ..) (.endLaunchesOn ..)
  · exact Mild.trans (.offline ..) (.endLaunchesOn ..)

theorem Mild.noteError (s : State) (core array inst addr word t : Nat) (synd : BitVec 16) (cls : BitVec 4) (inj : Bool) :
    Mild s (s.noteError core array inst addr word t synd cls inj) :=
  (Mild.logError ..).trans (.ite (.takeOffline ..) (.refl _))

theorem Mild.secded (s : State) : Mild s s.secded.2 := .of_eq rfl rfl rfl

theorem Mild.undoWord (s : State) (t : Nat) (hits : List Flip) (q : Nat × Bool) : Mild s (Machine.undoWord s t hits q) :=
  (Mild.secded s).trans ((Mild.noteError ..).trans (.dropFlips ..))

theorem Mild.undoErrors (s : State) (t : Nat) : Mild s (Machine.undoErrors s t) :=
  .foldl (fun _ _ => (Mild.undoWord ..).trans (.ite (.terminateLaunch ..) (.refl _))) ..

theorem Mild.squash (s : State) (t : Nat) (older : Bool) (why : Nat) : Mild s (Machine.squash s t older why) := by
  unfold Machine.squash
  dsimp only
  refine Mild.trans ?_ (.ite (.refl _) (.trans (.trans (.squashFrom ..) (.undoErrors ..)) (.ite (.takeOffline ..) (.refl _))))
  refine .ite (.refl s) ?_
  split
  · exact .refl s
  · exact .ite ((Mild.squashFrom ..).trans (.undoErrors ..)) (.refl s)

/-! ## Invalidations (R140) -/

theorem Mild.squashHit (s : State) (core : Nat) (skip : Option Nat) (hit : Chunk → Bool) : Mild s (Machine.squashHit s core skip hit) :=
  .foldl (fun _ _ => .ite (.squash ..) (.ite (.squash ..) (.refl _))) ..

theorem Mild.invalidateAt (s : State) (core pa n : Nat) : Mild s (Machine.invalidateAt s core pa n) := (Mild.modCore ..).trans (.squashHit ..)

theorem Mild.invalidateAll (s : State) (pa n : Nat) : Mild s (Machine.invalidateAll s pa n) := .foldl (fun _ _ => .invalidateAt ..) ..

end Sys2Proof.Machine
end

section
/-!
PROOFS. The host and the links (O51).
-/
namespace Sys2Proof.Machine

theorem Mild.bankBusy {s t : State} (h : Mild s t) (pa : Nat) : t.bankBusy pa = s.bankBusy pa := by
  have haside : ∀ u : State, u.bankBusy pa = u.aside.bankBusy pa := fun _ => rfl
  rw [haside, h.aside, ← haside]

/-! ## Writes by agents that are no threads -/

/-- Memory, the threads and the poison stay. -/
structure ArraysOnly (s t : State) : Prop where
  mem : t.mem = s.mem
  threads : t.threads = s.threads
  poison : t.poison = s.poison

theorem ArraysOnly.refl (s : State) : ArraysOnly s s := ⟨rfl, rfl, rfl⟩

theorem ArraysOnly.trans {s t u : State} (h : ArraysOnly s t) (k : ArraysOnly t u) : ArraysOnly s u :=
  ⟨k.mem.trans h.mem, k.threads.trans h.threads, k.poison.trans h.poison⟩

theorem arrayWrites_unarmed (s : State) (src : Nat) (bytes : Mem) : ArraysOnly s (arrayWrites s false src bytes) := by
  unfold arrayWrites
  refine ArraysOnly.trans ?_ (foldl_rel .refl .trans (fun u w => ?_) _ _)
  · exact ⟨rfl, rfl, rfl⟩
  · dsimp only
    rw [Bool.false_and, if_neg Bool.false_ne_true]
    split
    · exact ⟨rfl, rfl, rfl⟩
    · exact .refl u

theorem agentWrite_fields (s : State) (src pa : Nat) (bs : List Byte) : (agentWrite s src pa bs).mem = memWrite s.mem pa bs ∧
    (agentWrite s src pa bs).threads = s.threads ∧ (agentWrite s src pa bs).poison = s.poison := by
  obtain ⟨hm, ht, hp⟩ := arrayWrites_unarmed { s with mem := memWrite s.mem pa bs } src (layWrite [] pa bs)
  exact ⟨hm, ht, hp⟩

/-! ## Snoops and CXL.mem (R153, R154) -/

section
variable {s : State} {pa : Nat} (hf : s.flipWait pa = false) (hp : s.paused = false) (hh : snoopHeld s pa = false) (hi : s.isHost pa = true)
include hf hp hh hi

theorem hostSnoop_read : exec (.hostSnoop pa none) s = .next (invalidateAll s (pa / 64 * 64) 64) := by
  show execHostSnoop pa none s = _
  simp only [execHostSnoop, hf, hp, hh, hi, Bool.not_true, Bool.false_and, Bool.or_self, Bool.false_eq_true, if_false, event, snoopLine]

theorem hostSnoop_write {bs : List Byte} (hb : inLine pa bs = true) :
    exec (.hostSnoop pa (some bs)) s = .next (invalidateAll (hostWrite s pa bs) pa bs.length) := by
  show execHostSnoop pa (some bs) s = _
  simp only [execHostSnoop, hf, hp, hh, hi, hb, Bool.not_true, Bool.false_and, Bool.or_self, Bool.false_eq_true, if_false, event, snoopLine]

theorem hostBias_read (ho : s.placeOf pa = .own) (hph : s.reg.phase = 4) (hb : s.bankBusy pa = false) :
    exec (.hostCxlMemAccess pa none) s = .next (hostReadLine (invalidateAll s (pa / 64 * 64) 64) pa) := by
  have hbusy : (invalidateAll s (pa / 64 * 64) 64).bankBusy pa = false := (Mild.invalidateAll ..).bankBusy pa |>.trans hb
  show execHostCxlMemAccess pa none s = _
  simp [execHostCxlMemAccess, hf, hp, hh, hi, ho, hph, hbusy, event, snoopLine]

theorem hostBias_write (ho : s.placeOf pa = .own) (hph : s.reg.phase = 4) {bs : List Byte} (hb : inLine pa bs = true) :
    exec (.hostCxlMemAccess pa (some bs)) s = .next (invalidateAll (hostWrite s pa bs) pa bs.length) := by
  show execHostCxlMemAccess pa (some bs) s = _
  simp [execHostCxlMemAccess, hf, hp, hh, hi, ho, hph, hb, event, snoopLine]

end

section
variable {s : State} {pa : Nat} (ho : s.placeOf pa = .own) (hph : s.reg.phase = 4) (hf : s.flipWait pa = false) (hp : s.paused = false)
  (hi : s.isHost pa = false)
include ho hph hf hp hi

theorem deviceBias_read : exec (.hostCxlMemAccess pa none) s = .next (if s.bankBusy pa then s.waitAt .host pa else hostReadLine s pa) := by
  show execHostCxlMemAccess pa none s = _
  simp [execHostCxlMemAccess, hf, hp, hi, ho, hph, event]

theorem deviceBias_write {bs : List Byte} (hb : inLine pa bs = true) : exec (.hostCxlMemAccess pa (some bs)) s = .next
    { agentWrite s noThread pa bs with poison := if bs.length = 64 then (agentWrite s noThread pa bs).poison.filter (· != pa / 64)
                                                  else (agentWrite s noThread pa bs).poison } := by
  show execHostCxlMemAccess pa (some bs) s = _
  simp [execHostCxlMemAccess, hf, hp, hi, ho, hph, hb, event]

end

/-! ## Bias flips (R154) -/

theorem biasFlip_starts {s : State} (hp : s.reg.phase ≠ 15) (hf : s.flipping = none)
    (hb : s.hostBias.contains (flipPage s) = !s.reg.biasReg.getLsbD 1) : exec .biasFlip s = .next { s with
      flipping := some (flipPage s, s.reg.biasReg.getLsbD 1), reg := { s.reg with biasReg := s.reg.biasReg ||| 1 } } := by
  show blockEvent s (startFlip s) = _
  rw [blockEvent_of hp, startFlip]
  dsimp only
  rw [hf, hb, if_neg]
  cases s.reg.biasReg.getLsbD 1 <;> decide

theorem biasFlip_toDevice {s : State} {p : Nat} (hb : pageBusy s p = false) (hf : s.flipping = some (p, false)) :
    exec .biasFlipComplete s = .next { s with
      flipping := none, cmds := s.cmds.map fun (c : Command) => { c with held := c.held.filter fun h => !h.touches p }
      hostBias := s.hostBias.filter (· != p), reg := { s.reg with biasReg := s.reg.biasReg &&& ~~~(1 : Word) } } := by
  show execBiasFlipComplete s = _
  unfold execBiasFlipComplete
  rw [hf]
  dsimp only
  rw [hb]
  rfl

theorem biasFlip_toHost {s : State} {p : Nat} (hb : pageBusy s p = false) (hf : s.flipping = some (p, true))
    (hd : deferredAny s (p * 4096) 4096 = false) :
    exec .biasFlipComplete s = .next { invalidateAll s (p * 4096) 4096 with
      flipping := none
      cmds := (invalidateAll s (p * 4096) 4096).cmds.map fun (c : Command) => { c with held := c.held.filter fun h => !h.touches p }
      hostBias := addNew p (invalidateAll s (p * 4096) 4096).hostBias
      reg := { (invalidateAll s (p * 4096) 4096).reg with biasReg := (invalidateAll s (p * 4096) 4096).reg.biasReg &&& ~~~(1 : Word) } } := by
  show execBiasFlipComplete s = _
  unfold execBiasFlipComplete
  rw [hf]
  dsimp only
  rw [hb, hd]
  rfl

/-- Settles O51. `Tests.witness_host` meets the premises. -/
theorem hostAndLinks : Obligations.HostAndLinks := by
  refine ⟨fun s pa hf hp hh hi => ⟨hostSnoop_read hf hp hh hi, fun bs hb => hostSnoop_write hf hp hh hi hb, fun ho hph =>
      ⟨fun hb => hostBias_read hf hp hh hi ho hph hb, fun bs hb => hostBias_write hf hp hh hi ho hph hb⟩⟩,
    fun s pa bs ho hph hf hp hi => ⟨fun hb => ?_, fun hb => ?_, fun hb => ?_⟩, fun s pa ht => ?_, fun s pa bs => ⟨rfl, rfl⟩,
    fun s hp hf hb => biasFlip_starts hp hf hb, fun s p hb => ⟨biasFlip_toDevice hb, biasFlip_toHost hb⟩, fun s pa ho hc => ?_,
    fun s port => ⟨rfl, fun hp => ?_⟩⟩
  · rw [deviceBias_read ho hph hf hp hi, if_neg (ne_true_of_eq_false hb)]
  · rw [deviceBias_read ho hph hf hp hi, if_pos hb]
  · obtain ⟨hm, ht, hpo⟩ := agentWrite_fields s noThread pa bs
    exact ⟨_, deviceBias_write ho hph hf hp hi hb, hm, ht, by rw [← hpo]⟩
  · rw [hostReadLine, settleArray_sound ht]
  · exact congrArg event (if_pos ⟨ho, hc⟩)
  · exact congrArg event (if_pos hp)

end Sys2Proof.Machine
end

section
/-!
PROOFS. Launch queues: fetching, placing and completing records, and the queues' registers (O52).
-/
namespace Sys2Proof.Machine

/-! ## Records are fetched (R298) -/

/-- A record that has been read: its words are kept, or it is fetched again, or the queue stops. -/
def takeRecord (s : State) (k : Nat) (ws : List Word) : State :=
  let q := s.queueOf k
  if bits (ws.getD 15 0) 63 32 = (q.fetchNext + 1).toNat then
    checkHead (s.modQueue k fun q => { q with
      fetched := q.fetched ++ [(q.fetchNext.toNat, ws)], fetchNext := q.fetchNext + 1, tries := 0 }) k
  else if 64 ≤ q.tries then
    if q.fetched.isEmpty then queueError s k 1 q.fetchNext else s
  else s.modQueue k fun q => { q with tries := q.tries + 1 }

section
variable {s : State} {q : Nat} (hw : s.flipWait (recordPa s (s.queueOf q) (s.queueOf q).fetchNext) = false)
  (hb : s.bankBusy (recordPa s (s.queueOf q) (s.queueOf q).fetchNext) = false)
  (hb' : s.bankBusy (recordPa s (s.queueOf q) (s.queueOf q).fetchNext + 64) = false)
  (ht : s.homeTainted (recordPa s (s.queueOf q) (s.queueOf q).fetchNext) = false)
  (ht' : s.homeTainted (recordPa s (s.queueOf q) (s.queueOf q).fetchNext + 64) = false)
  (hp : s.poison.contains (recordPa s (s.queueOf q) (s.queueOf q).fetchNext / 64) = false)
  (hp' : s.poison.contains (recordPa s (s.queueOf q) (s.queueOf q).fetchNext / 64 + 1) = false)
include hw hb hb' ht ht' hp hp'

theorem fetchRecord_takes :
    fetchRecord s q = takeRecord s q (wordsOf (memRead s.mem (recordPa s (s.queueOf q) (s.queueOf q).fetchNext) 128)) := by
  have hbusy : [recordPa s (s.queueOf q) (s.queueOf q).fetchNext, recordPa s (s.queueOf q) (s.queueOf q).fetchNext + 64].filter s.bankBusy = [] := by
    rw [List.filter_cons_of_neg (ne_true_of_eq_false hb), List.filter_cons_of_neg (ne_true_of_eq_false hb'), List.filter_nil]
  unfold fetchRecord
  dsimp only
  rw [hbusy, hw, List.isEmpty_nil, Bool.not_true, Bool.or_self, if_neg Bool.false_ne_true, if_neg Bool.false_ne_true,
    settleArray_sound ht, settleArray_sound ht', hp, hp', Bool.or_self, if_neg Bool.false_ne_true]
  rfl

end

theorem takeRecord_kept {s : State} {k : Nat} {ws : List Word} (h : bits (ws.getD 15 0) 63 32 = ((s.queueOf k).fetchNext + 1).toNat) :
    takeRecord s k ws = checkHead (s.modQueue k fun q => { q with
      fetched := q.fetched ++ [(q.fetchNext.toNat, ws)], fetchNext := q.fetchNext + 1, tries := 0 }) k := if_pos h

theorem takeRecord_again {s : State} {k : Nat} {ws : List Word} (h : ¬ bits (ws.getD 15 0) 63 32 = ((s.queueOf k).fetchNext + 1).toNat)
    (ht : (s.queueOf k).tries < 64) : takeRecord s k ws = s.modQueue k fun q => { q with tries := q.tries + 1 } :=
  (if_neg h).trans (if_neg (Nat.not_le.2 ht))

theorem takeRecord_error {s : State} {k : Nat} {ws : List Word} (h : ¬ bits (ws.getD 15 0) 63 32 = ((s.queueOf k).fetchNext + 1).toNat)
    (ht : 64 ≤ (s.queueOf k).tries) (hf : (s.queueOf k).fetched = []) : takeRecord s k ws = queueError s k 1 (s.queueOf k).fetchNext := by
  refine (if_neg h).trans ((if_pos ht).trans ?_)
  rw [hf]
  rfl

theorem recordFetch_fetches {s : State} {q : Nat} (hf : fetchable s q = true) (ht : (s.queueOf q).tries = 0) :
    exec (.recordFetch q) s = .next (fetchRecord s q) := by
  show event (if (fetchable s q && (s.queueOf q).tries == 0) = true then _ else _) = _
  rw [hf, ht, if_pos (by decide), event]

theorem recordRefetch_fetches {s : State} {q : Nat} (hf : fetchable s q = true) (ht : (s.queueOf q).tries ≠ 0) :
    exec (.recordRefetch q) s = .next (fetchRecord s q) := by
  show event (if (fetchable s q && (s.queueOf q).tries != 0) = true then _ else _) = _
  rw [hf, if_pos (by simpa using ht), event]

/-! ## Placing and completing (R299, R301, R303) -/

theorem launchPlacement_places {s : State} {k : Nat} {r : LRec}
    (h : (serviceOrder ((List.range 64).foldl checkHead s)).find? (fun q => canPlace ((List.range 64).foldl checkHead s) q.2) = some (k, r)) :
    exec .launchPlacement s = .next (placeRecord ((List.range 64).foldl checkHead s) k r) := by
  show execLaunchPlacement s = _
  unfold execLaunchPlacement
  dsimp only
  rw [h]
  rfl

theorem startRegs_fields (s : State) (r : LRec) (ts : Option TaskList) (i : Nat) :
    (startRegs s r ts i).getX 10 = r.args ∧ (startRegs s r ts i).getX 11 = BitVec.ofNat 64 i := by
  constructor <;> simp [startRegs, Regs.getX]

theorem launchOf_of_find {s : State} {l : Nat} {la : Launch} (h : tabFind s.launches l = some la) : s.launchOf l = la := by
  have hget : ∀ m : List (Nat × Launch), tabFind m l = some la → tabGet Launch.reset m l = la := by
    intro m
    induction m with
    | nil => nofun
    | cons p m ih =>
      intro h
      rw [tabFind] at h
      rw [tabGet]
      split
      · next hp => exact Option.some.inj ((if_pos hp).symm.trans h)
      · next hp => exact ih ((if_neg hp).symm.trans h)
  exact hget _ h

section
variable {s : State} {l : Nat} {la : Launch} (hl : tabFind s.launches l = some la) (hd : launchDone s l = true) (hp : s.paused = false)
include hl hd hp

theorem launchComplete_quiet (h0 : la.doneAddr = 0) : exec (.launchComplete l) s = .next (forgetLaunch (s.modQueue la.queue fun q =>
    if q.out then { q with outDone := q.outDone + 1 } else { q with qdone := q.qdone + 1 }) l) := by
  have hla := launchOf_of_find hl
  show execLaunchComplete l s = _
  unfold execLaunchComplete
  dsimp only
  rw [hla, hl, hd, hp, h0]
  rfl

theorem launchComplete_writes {pa : Nat} (h0 : la.doneAddr ≠ 0) (ht : engineTranslate s true .store la.doneAddr.toNat = .ok pa)
    (ha : s.inAlias pa = false) (hf : s.isFar pa = false) :
    exec (.launchComplete l) s = .next (forgetLaunch ((homeWrite s noThread none pa (leBytes 8 (completionWord s l).toNat)).modQueue
      la.queue fun q => if q.out then { q with outDone := q.outDone + 1 } else { q with qdone := q.qdone + 1 }) l) := by
  have hla := launchOf_of_find hl
  have hw : writeDone s l (some pa) = (homeWrite s noThread none pa (leBytes 8 (completionWord s l).toNat), true) := by
    simp only [writeDone, ha, hf, Bool.false_eq_true, if_false]
  show execLaunchComplete l s = _
  unfold execLaunchComplete
  dsimp only
  rw [hla, hl, hd, hp, ht, if_neg h0]
  dsimp only
  rw [hw, Bool.and_false, if_neg (by simp)]
  rfl

end

/-! ## The queues' registers (R297, R300, R304) -/

theorem queueOf_modQueue (s : State) (q : Nat) (f : Queue → Queue) : (s.modQueue q f).queueOf q = f (s.queueOf q) := tabGet_tabSet_same ..

section
variable {s : State} {q : Nat} (hq : q < 64) (hp : s.reg.phase ≠ 15)
include hq hp

/-- Outside recovery a register of one of the 64 queues takes its write. -/
theorem queueBlock (t : State) : blockEvent s (if q < 64 then t else s) = .next t := by rw [blockEvent_of hp, if_pos hq]

theorem queueConfig_held (size : Bool) (v : Word) (h : (s.queueOf q).res = true ∨ (s.queueOf q).qdone ≠ (s.queueOf q).qtail) :
    exec (.queueConfigWrite q size v) s = .next s := by
  have hheld : ((s.queueOf q).res || (s.queueOf q).qdone != (s.queueOf q).qtail) = true := by simpa using h
  refine (queueBlock hq hp _).trans (congrArg _ ?_)
  rw [writeQueueConfig]
  exact if_pos hheld

theorem queueConfig_writes (size : Bool) (v : Word) (hr : (s.queueOf q).res = false) (hd : (s.queueOf q).qdone = (s.queueOf q).qtail) :
    exec (.queueConfigWrite q size v) s = .next (s.modQueue q fun _ =>
      { (if size then { s.queueOf q with qsize := Nat.min 16 (bits v 4 0) } else { s.queueOf q with qbase := v &&& 0xFFFFFFFF80 }) with
        qhead := (s.queueOf q).qtail, qdone := (s.queueOf q).qtail, fetchNext := (s.queueOf q).qtail, fetched := [], tries := 0 }) := by
  have hfree : ((s.queueOf q).res || (s.queueOf q).qdone != (s.queueOf q).qtail) = false := by simp [hr, hd]
  refine (queueBlock hq hp _).trans (congrArg _ ?_)
  rw [writeQueueConfig]
  dsimp only
  rw [hfree]
  cases size <;> rfl

theorem queueSwitchOut_leaves (hr : (s.queueOf q).res = true) :
    ∃ u, exec (.queueSwitchOut q) s = .next u ∧ u.queueOf q = { s.queueOf q with res := false, out := true } :=
  ⟨_, queueBlock hq hp _, (queueOf_modQueue ..).trans (if_pos hr)⟩

theorem queueSwitchIn_enters (hr : (s.queueOf q).res = false) : ∃ u, exec (.queueSwitchIn q) s = .next u ∧ u.queueOf q =
    { s.queueOf q with res := true, out := false, qdone := (s.queueOf q).qdone + BitVec.ofNat 32 (s.queueOf q).outDone, outDone := 0 } :=
  ⟨_, queueBlock hq hp _, (queueOf_modQueue ..).trans (if_neg (ne_true_of_eq_false hr))⟩

theorem queueClear_clears : ∃ u, exec (.queueClear q) s = .next u ∧ u.queueOf q =
    if (s.queueOf q).stopped then { s.queueOf q with code := 0, fetched := [], fetchNext := (s.queueOf q).qhead, tries := 0 }
    else { s.queueOf q with code := 0 } :=
  ⟨_, queueBlock hq hp _, queueOf_modQueue ..⟩

theorem queueClearSkip_skips : ∃ u, exec (.queueClearSkip q) s = .next u ∧ u.queueOf q =
    if (s.queueOf q).stopped then
      { s.queueOf q with code := 0, qhead := (s.queueOf q).qhead + 1, fetched := [], fetchNext := (s.queueOf q).qhead + 1, tries := 0 }
    else { s.queueOf q with code := 0 } :=
  ⟨_, queueBlock hq hp _, queueOf_modQueue ..⟩

end

/-- Settles O52. `Tests.witness_queue`, `Tests.witness_placement` and `Tests.witness_completion` meet the premises. -/
theorem launchEngineAndQueues : Obligations.LaunchEngineAndQueues := by
  refine ⟨⟨fun s q hf => ?_, ?_, fun s r ts i => ⟨rfl, (startRegs_fields s r ts i).1, (startRegs_fields s r ts i).2, rfl, rfl, rfl, rfl, rfl, rfl⟩,
    fun s l la hl hd hp h0 => launchComplete_quiet hl hd hp h0,
    fun s l pa la hl hd hp h0 ht ha hfar => launchComplete_writes hl hd hp h0 ht ha hfar⟩, fun s q hq hp => ?_⟩
  · dsimp only
    intro hw hb hb' ht ht' hp hp'
    have htake := fetchRecord_takes hw hb hb' ht ht' hp hp'
    refine ⟨fun h0 hg => ?_, fun h0 hg => ?_, fun h0 hg => ?_, fun h0 hlt hg => ?_, fun hge hg he => ?_⟩
    · rw [recordFetch_fetches hf h0, htake, takeRecord_kept hg]
    · rw [recordFetch_fetches hf h0, htake, takeRecord_again hg (by omega)]
    · rw [recordRefetch_fetches hf h0, htake, takeRecord_kept hg]
    · rw [recordRefetch_fetches hf h0, htake, takeRecord_again hg hlt]
    · rw [recordRefetch_fetches hf (by omega), htake, takeRecord_error hg hge he]
  · intro s s1 k r h
    exact launchPlacement_places h
  · dsimp only
    refine ⟨fun v => queueBlock hq hp _, fun v hr hd => ⟨queueConfig_writes hq hp true v hr hd, queueConfig_writes hq hp false v hr hd⟩,
      fun size v h => queueConfig_held hq hp size v h, fun hr => queueSwitchOut_leaves hq hp hr, fun hr => queueSwitchIn_enters hq hp hr,
      fun hs => ?_, fun hs => ?_⟩
    · have hclear := queueClear_clears hq hp
      have hskip := queueClearSkip_skips hq hp
      rw [if_pos hs] at hclear hskip
      exact ⟨hclear, hskip⟩
    · have hclear := queueClear_clears hq hp
      have hskip := queueClearSkip_skips hq hp
      rw [hs, if_neg Bool.false_ne_true] at hclear hskip
      exact ⟨hclear, hskip⟩

end Sys2Proof.Machine
end

section
/-!
PROOFS. Contexts that leave slots and come back, and slots that are disabled (O53).
-/
namespace Sys2Proof.Machine

/-! ## A context and the TCC (R316) -/

/-- The context of thread t, the TCC of a core and the token stay. -/
structure SameContext (t core : Nat) (s u : State) : Prop where
  regs : (u.thr t).regs = (s.thr t).regs
  loc : (u.thr t).loc = (s.thr t).loc
  home : (u.thr t).core = (s.thr t).core
  runnable : (u.thr t).runnable = (s.thr t).runnable
  halted : (u.thr t).halted = (s.thr t).halted
  tcc : (u.coreOf core).tcc = (s.coreOf core).tcc
  token : u.token = s.token

section
variable {t core : Nat}

theorem SameContext.of_eq {s u : State} (ht : u.threads = s.threads) (hc : u.cores = s.cores) (hk : u.token = s.token) :
    SameContext t core s u := by
  have hth : u.thr t = s.thr t := by rw [State.thr, ht]; rfl
  have hco : u.coreOf core = s.coreOf core := by rw [State.coreOf, hc]; rfl
  exact ⟨by rw [hth], by rw [hth], by rw [hth], by rw [hth], by rw [hth], by rw [hco], hk⟩

theorem SameContext.refl (s : State) : SameContext t core s s := .of_eq rfl rfl rfl

theorem SameContext.trans {s u v : State} (h : SameContext t core s u) (k : SameContext t core u v) : SameContext t core s v :=
  ⟨k.regs.trans h.regs, k.loc.trans h.loc, k.home.trans h.home, k.runnable.trans h.runnable, k.halted.trans h.halted, k.tcc.trans h.tcc,
    k.token.trans h.token⟩

theorem SameContext.modThr (s : State) (v : Nat) {f : Thread → Thread}
    (hf : v = t → (f (s.thr v)).regs = (s.thr v).regs ∧ (f (s.thr v)).loc = (s.thr v).loc ∧ (f (s.thr v)).core = (s.thr v).core ∧
      (f (s.thr v)).runnable = (s.thr v).runnable ∧ (f (s.thr v)).halted = (s.thr v).halted) : SameContext t core s (s.modThr v f) := by
  by_cases hv : v = t
  · subst hv
    obtain ⟨h1, h2, h3, h4, h5⟩ := hf rfl
    have hth : (s.modThr v f).thr v = f (s.thr v) := by rw [State.modThr_eq, State.thr_setThr_same]
    exact ⟨hth ▸ h1, hth ▸ h2, hth ▸ h3, hth ▸ h4, hth ▸ h5, rfl, rfl⟩
  · have hth : (s.modThr v f).thr t = s.thr t := by rw [State.modThr_eq, State.thr_setThr, if_neg hv]
    exact ⟨by rw [hth], by rw [hth], by rw [hth], by rw [hth], by rw [hth], rfl, rfl⟩

theorem SameContext.modCore (s : State) (c : Nat) {f : Core → Core} (hf : (f (s.coreOf c)).tcc = (s.coreOf c).tcc) :
    SameContext t core s (s.modCore c f) := by
  refine ⟨rfl, rfl, rfl, rfl, rfl, ?_, rfl⟩
  rw [State.coreOf_modCore]
  split
  · next h => subst h; exact hf
  · rfl

theorem coreOf_map_tcc {s u : State} {g : Core → Core} (hg : ∀ c, (g c).tcc = c.tcc) (hu : u.cores = s.cores.map fun q => (q.1, g q.2)) :
    (u.coreOf core).tcc = (s.coreOf core).tcc := by
  rw [State.coreOf, State.coreOf, hu]
  generalize s.cores = l
  induction l with
  | nil => rfl
  | cons p l ih =>
    rw [List.map_cons, tabGet, tabGet]
    split
    · exact hg _
    · exact ih

theorem SameContext.quietWrite (s : State) (pa : Nat) (bs : List Byte) : SameContext t core s (s.quietWrite pa bs) :=
  ⟨rfl, rfl, rfl, rfl, rfl, coreOf_map_tcc (g := fun c => c.keepCopies (outsideWords pa bs.length)) (fun _ => rfl) rfl, rfl⟩

theorem SameContext.emitAt (s : State) (time slot cluster slice kind : Nat) (ws : List Word) :
    SameContext t core s (emitAt s time slot cluster slice kind ws) := by
  unfold Machine.emitAt
  dsimp only
  split
  · exact .refl s
  · split
    · exact .of_eq rfl rfl rfl
    · split <;> exact .of_eq rfl rfl rfl

theorem SameContext.flushLog (s : State) (v : Nat) : SameContext t core s (flushLog s v) := by
  unfold Machine.flushLog
  dsimp only
  split
  · exact .refl s
  · exact (SameContext.emitAt ..).trans (.modThr _ _ fun _ => ⟨rfl, rfl, rfl, rfl, rfl⟩)

theorem SameContext.flushCommits (s : State) (v : Nat) : SameContext t core s (flushCommits s v) := by
  unfold Machine.flushCommits
  dsimp only
  split
  · exact .refl s
  · exact (SameContext.emitAt ..).trans (.modThr _ _ fun _ => ⟨rfl, rfl, rfl, rfl, rfl⟩)

theorem SameContext.inject (s : State) (a c o b : Nat) : SameContext t core s (s.inject a c o b) := by
  unfold State.inject
  dsimp only
  split
  · split
    · exact .refl s
    · refine SameContext.trans ?_ (.modThr _ _ fun _ => ⟨rfl, rfl, rfl, rfl, rfl⟩)
      exact .modCore _ _ rfl
  · exact .refl s

theorem SameContext.asThread {s : State} {v : Nat} {f : State → State} (h : SameContext t core { s with cur := v } (f { s with cur := v })) :
    SameContext t core s (s.asThread v f) := ⟨h.regs, h.loc, h.home, h.runnable, h.halted, h.tcc, h.token⟩

/-- The oldest contexts leave a TCC; the youngest four stay, and thread t where it is among them. -/
theorem evictTcc_keeps {s : State} {l : List (Nat × Bool)} {b : Bool} (hl : (s.coreOf core).tcc = l ++ [(t, b)]) (hne : ∀ e ∈ l, e.1 ≠ t) :
    ((evictTcc s core).coreOf core).tcc = (l ++ [(t, b)]).drop (l.length - 3) ∧ ((evictTcc s core).thr t).regs = (s.thr t).regs ∧
    ((evictTcc s core).thr t).loc = (s.thr t).loc ∧ ((evictTcc s core).thr t).core = (s.thr t).core ∧
    ((evictTcc s core).thr t).runnable = (s.thr t).runnable ∧ ((evictTcc s core).thr t).halted = (s.thr t).halted ∧
    (evictTcc s core).token = s.token := by
  have hlen : (l ++ [(t, b)]).length - 4 = l.length - 3 := by rw [List.length_append, List.length_singleton]; omega
  have hout : ∀ e ∈ (l ++ [(t, b)]).take ((l ++ [(t, b)]).length - 4), e.1 ≠ t := by
    intro e he
    rw [List.take_append_of_le_length (by omega)] at he
    exact hne e (List.mem_of_mem_take he)
  have hfold : ∀ (out : List (Nat × Bool)) (u : State), (∀ e ∈ out, e.1 ≠ t) → SameContext t core u (out.foldl (fun (s : State) (e : Nat × Bool) =>
      (if e.2 then writeArea s e.1 else s).modThr e.1 fun w => { w with loc := .area }) u) := by
    intro out
    induction out with
    | nil => exact fun u _ => .refl u
    | cons e out ih =>
      intro u he
      refine SameContext.trans ?_ (ih _ fun f hf => he f (List.mem_cons_of_mem _ hf))
      refine SameContext.trans ?_ (.modThr _ _ fun h => absurd h (he e (List.mem_cons_self ..)))
      split
      · exact .quietWrite ..
      · exact .refl u
  unfold evictTcc
  rw [hl]
  obtain ⟨h1, h2, h3, h4, h5, h6, h7⟩ := hfold _ s hout
  refine ⟨?_, h1, h2, h3, h4, h5, h7⟩
  rw [State.coreOf_modCore, if_pos rfl, hlen]

end

/-! ## Leaving for the TCC (R316) -/

theorem yieldToken_leaves (s : State) (t core : Nat) : ((yieldToken s t).thr t).regs = (s.thr t).regs ∧
    ((yieldToken s t).thr t).core = (s.thr t).core ∧ ((yieldToken s t).coreOf core).tcc = (s.coreOf core).tcc ∧
    (yieldToken s t).token ≠ some t := by
  unfold yieldToken
  dsimp only
  split
  · rw [State.modThr_eq, State.thr_setThr_same]
    exact ⟨rfl, rfl, rfl, nofun⟩
  · next h => exact ⟨rfl, rfl, rfl, fun k => h (beq_iff_eq.2 k)⟩

/-- A thread whose context is in the TCC. -/
def enterTcc (run : Bool) (th : Thread) : Thread :=
  { th with
    loc := .tcc
    status := th.status.kept
    nextIssue := 0
    cutReq := none
    halted := false
    runnable := run
    capture := if th.capture.on then { th.capture with pre := true, preCnt := th.capture.preCnt + 1 } else th.capture }

/-- A context that enters the TCC, before older ones make room. -/
def enteringTcc (s : State) (t : Nat) (run : Bool) : State :=
  let s := yieldToken s t
  let th := s.thr t
  let s := flushCommits (if s.traces t 0 || s.traces t 1 then flushLog s t else s) t
  (s.modThr t (enterTcc run)).modCore th.core fun c => { c with tcc := c.tcc ++ [(t, true)] }

theorem toTcc_eq (s : State) (t : Nat) (run : Bool) : toTcc s t run = (evictTcc (enteringTcc s t run) ((yieldToken s t).thr t).core).asThread t
    fun s' => s'.inject 8 ((yieldToken s t).thr t).core t (16384 * (Nat.min 4 (s'.coreOf ((yieldToken s t).thr t).core).tcc.length - 1)) := rfl

theorem enteringTcc_fields (s : State) (t : Nat) (run : Bool) :
    ((enteringTcc s t run).thr t).loc = .tcc ∧ ((enteringTcc s t run).thr t).regs = (s.thr t).regs ∧
    ((enteringTcc s t run).thr t).runnable = run ∧ ((enteringTcc s t run).thr t).core = (s.thr t).core ∧
    ((enteringTcc s t run).thr t).halted = false ∧
    ((enteringTcc s t run).coreOf (s.thr t).core).tcc = (s.coreOf (s.thr t).core).tcc ++ [(t, true)] ∧
    (enteringTcc s t run).token ≠ some t := by
  obtain ⟨hregs, hcore, htcc, htoken⟩ := yieldToken_leaves s t (s.thr t).core
  have hflush : SameContext t (s.thr t).core (yieldToken s t) (flushCommits
      (if (yieldToken s t).traces t 0 || (yieldToken s t).traces t 1 then flushLog (yieldToken s t) t else yieldToken s t) t) := by
    refine SameContext.trans ?_ (.flushCommits ..)
    split
    · exact .flushLog ..
    · exact .refl _
  have heq : enteringTcc s t run = ((flushCommits (if (yieldToken s t).traces t 0 || (yieldToken s t).traces t 1 then
      flushLog (yieldToken s t) t else yieldToken s t) t).modThr t (enterTcc run)).modCore (s.thr t).core
        fun c => { c with tcc := c.tcc ++ [(t, true)] } := by rw [← hcore]; rfl
  rw [heq]
  obtain ⟨h1, -, h3, -, -, h6, h7⟩ := hflush
  generalize flushCommits (if (yieldToken s t).traces t 0 || (yieldToken s t).traces t 1 then
      flushLog (yieldToken s t) t else yieldToken s t) t = u at h1 h3 h6 h7 ⊢
  have hth : ((u.modThr t (enterTcc run)).modCore (s.thr t).core fun c => { c with tcc := c.tcc ++ [(t, true)] }).thr t =
      enterTcc run (u.thr t) := State.thr_setThr_same ..
  rw [hth]
  refine ⟨rfl, h1.trans hregs, rfl, h3.trans hcore, rfl, ?_, fun h => htoken (h7.symm.trans h)⟩
  rw [State.coreOf_modCore, if_pos rfl]
  exact congrArg (· ++ [(t, true)]) (h6.trans htcc)

theorem toTcc_fields (s : State) (t : Nat) (run : Bool) (hne : ∀ e ∈ (s.coreOf (s.thr t).core).tcc, e.1 ≠ t) :
    ((toTcc s t run).thr t).loc = .tcc ∧ ((toTcc s t run).thr t).regs = (s.thr t).regs ∧
    ((toTcc s t run).thr t).runnable = run ∧ ((toTcc s t run).thr t).core = (s.thr t).core ∧ ((toTcc s t run).thr t).halted = false ∧
    ((toTcc s t run).coreOf (s.thr t).core).tcc =
      ((s.coreOf (s.thr t).core).tcc ++ [(t, true)]).drop ((s.coreOf (s.thr t).core).tcc.length - 3) ∧
    (toTcc s t run).token ≠ some t := by
  obtain ⟨hloc, hregs, hrun, hcore, hhalt, htcc, htoken⟩ := enteringTcc_fields s t run
  obtain ⟨e1, e2, e3, e4, e5, e6, e7⟩ := evictTcc_keeps htcc hne
  obtain ⟨-, hyield, -, -⟩ := yieldToken_leaves s t (s.thr t).core
  have hinject : SameContext t (s.thr t).core (evictTcc (enteringTcc s t run) (s.thr t).core) (toTcc s t run) := by
    rw [toTcc_eq, hyield]
    exact .asThread (.inject ..)
  obtain ⟨i1, i2, i3, i4, i5, i6, i7⟩ := hinject
  exact ⟨i2.trans (e3.trans hloc), i1.trans (e2.trans hregs), i4.trans (e5.trans hrun), i3.trans (e4.trans hcore), i5.trans (e6.trans hhalt),
    i6.trans e1, fun h => htoken (e7.symm.trans (i7.symm.trans h))⟩

/-! ## Coming back (R299, R317) -/

theorem intoSlot_fields (s : State) (t core slot : Nat) : ((intoSlot s t core slot).thr t).loc = .slot ∧
    ((intoSlot s t core slot).thr t).core = core ∧ ((intoSlot s t core slot).thr t).slot = slot ∧
    ((intoSlot s t core slot).thr t).regs = (s.thr t).regs ∧ (intoSlot s t core slot).mem = s.mem := by
  unfold intoSlot
  dsimp only
  rw [State.modThr_eq, State.thr_setThr_same]
  split
  · exact ⟨rfl, rfl, rfl, rfl, rfl⟩
  · exact ⟨rfl, rfl, rfl, rfl, rfl⟩

/-- An array without flips is read as it is. -/
theorem correctWords_none {s : State} {core : Nat} (h : (s.coreOf core).flips = []) (array inst t : Nat) (addr : Nat → Nat)
    (hit : Flip → Bool) : correctWords s core array inst t addr hit = s := by
  rw [correctWords]
  dsimp only
  rw [h]
  rfl

theorem tccErrors_none {s : State} {core : Nat} (h : (s.coreOf core).flips = []) (t : Nat) : tccErrors s t core = s := by
  rw [tccErrors]
  dsimp only
  rw [correctWords_none h, h]
  rfl

theorem comeBack_alone {s : State} {t k : Nat} (hl : (s.thr t).loc = .tcc) (hf : (s.coreOf (s.thr t).core).flips = [])
    (ho : (s.thr t).regs.opt.on = false) : comeBack s t none (s.thr t).core k = intoSlot s t (s.thr t).core k := by
  have hbring : bringContext s t = s := by
    rw [bringContext, hl, if_neg (by decide), tccErrors_none hf]
  have hout : (s.thr t).isOut = true := by rw [Thread.isOut, hl]; rfl
  have hopt : ((intoSlot s t (s.thr t).core k).thr t).regs.opt.on = false := by rw [(intoSlot_fields ..).2.2.2.1, ho]
  unfold comeBack
  dsimp only
  rw [hbring, hout, if_pos rfl]
  show collectOnReturn (intoSlot s t (s.thr t).core k) t = _
  rw [collectOnReturn, hopt, if_neg Bool.false_ne_true]

theorem contextRestore_enters {s : State} {t k : Nat} (hl : (s.thr t).loc = .tcc) (hr : restorable s t = true) (hp : s.outPartner t = none)
    (hd : s.reg.d3hot = false) (ha : recordAwaits s (s.launchOf (s.thr t).lid).prio (s.thr t).core = false)
    (hg : s.reg.gated.contains (clusterOf (s.thr t).core) = false)
    (hs : (s.coreOf (s.thr t).core).disabled.getLsbD (s.thr t).slot = false) (hk : s.slotFor (s.thr t).core (s.thr t).tile = some k)
    (hf : (s.coreOf (s.thr t).core).flips = []) (ho : (s.thr t).regs.opt.on = false) :
    exec (.contextRestore t) s = .next (intoSlot s t (s.thr t).core k) := by
  have hout : (s.thr t).isOut = true := by rw [Thread.isOut, hl]; rfl
  have hcores : [(s.thr t).core].filter (fun c => !recordAwaits s (s.launchOf (s.thr t).lid).prio c && !s.reg.gated.contains (clusterOf c)) =
      [(s.thr t).core] := List.filter_cons_of_pos (by rw [ha, hg]; rfl)
  have hplace : findPlace s (s.thr t).tile false [(s.thr t).core] = some ((s.thr t).core, k) := by
    simp [findPlace, hk]
  show execContextRestore t s = _
  unfold execContextRestore
  dsimp only
  rw [hp, hr, hd, hout, hs, if_neg Bool.false_ne_true, hcores, if_neg (by simp)]
  show event (match findPlace s (s.thr t).tile false [(s.thr t).core] with | none => s | some (c, k) => comeBack s t none c k) = _
  rw [hplace]
  exact congrArg event (comeBack_alone hl hf ho)

/-! ## Leaving (R85, R316) -/

section
variable {s : State} {t : Nat} (hl : (s.thr t).loc = .slot) (hq : (s.thr t).cutReq = some .preempt)
  (hh : (s.coreOf (s.thr t).core).halted = false) (hp : s.partner t = none) (hr : (s.thr t).regs.inRewrite = false)
  (ho : (s.thr t).older = none) (hw : ∀ u, (s.thr t).status ≠ .retry (.ctx u))
include hr ho hw in
theorem preemptCut_cuts : preemptCut s t = s.cutChunk t 15 := by
  have hback : putBackWaiting s t = s := by
    unfold putBackWaiting
    split
    · next u h => exact absurd h (hw u)
    · rfl
  rw [preemptCut, hr, if_neg Bool.false_ne_true, if_pos (.inr (by rw [ho]; rfl)), hback]

include hl hq hh hp hr ho hw

theorem preemption_cuts : exec (.preemption t) s =
    .next (if settled (s.cutChunk t 15) t then leaveSlot (s.cutChunk t 15) t none else s.cutChunk t 15) := by
  have hgo : ((s.thr t).loc != .slot || (s.thr t).cutReq != some .preempt || (s.coreOf (s.thr t).core).halted) = false := by
    rw [hl, hq, hh]; rfl
  show execPreemption t s = _
  unfold execPreemption
  dsimp only
  rw [hgo, if_neg Bool.false_ne_true, hp]
  dsimp only
  rw [preemptCut_cuts hr ho hw, event]

theorem preemption_leaves (hc : (s.thr t).chunk.count = 0) (hres : (s.thr t).results = [])
    (hd : (s.coreOf (s.thr t).core).disabled.getLsbD (s.thr t).slot = false) :
    exec (.preemption t) s = .next (toTcc (s.cutChunk t 15) t (noWait ((s.cutChunk t 15).thr t))) := by
  have hcut : ∃ w, s.cutChunk t 15 = s.modThr t fun th => { th with cutwhy := w } := by
    simp only [State.cutChunk, hc, if_true]
    exact ⟨_, rfl⟩
  obtain ⟨w, hcut⟩ := hcut
  have hth : (s.cutChunk t 15).thr t = { s.thr t with cutwhy := w } := by rw [hcut, State.modThr_eq, State.thr_setThr_same]
  have hcore : ∀ c, (s.cutChunk t 15).coreOf c = s.coreOf c := fun c => by rw [hcut]; rfl
  have hsettled : settled (s.cutChunk t 15) t = true := by
    rw [settled, hth]
    simp only [ho, hc, hres]
    rfl
  have hhot : ((s.cutChunk t 15).coreOf ((s.cutChunk t 15).thr t).core).disabled.getLsbD ((s.cutChunk t 15).thr t).slot = false := by
    rw [hth, hcore]; exact hd
  rw [preemption_cuts hl hq hh hp hr ho hw, hsettled, if_pos rfl]
  unfold leaveSlot
  simp only [hhot, Bool.or_self, Bool.false_eq_true, if_false]

end

/-! ## Slots, and TMARK (R318, R321, R374) -/

theorem slotDisable_disables {s : State} {core slot : Nat} (hc : core < Config.coreCount) (hs : slot < 16)
    (hd : (s.coreOf core).disabled.getLsbD slot = false) (ha : ∀ i, slot < i → i < 16 → (s.coreOf core).disabled.getLsbD i = true) :
    ∃ u, exec (.slotDisable core slot) s = .next u ∧ (u.coreOf core).disabled.getLsbD slot = true ∧ u.mem = s.mem ∧
      ∀ t, s.inSlot core slot = some t → (u.thr t).cutReq = some .preempt := by
  have habove : ((List.range 16).all fun i => decide (i ≤ slot) || (s.coreOf core).disabled.getLsbD i) = true := by
    refine List.all_eq_true.2 fun i hi => ?_
    rw [Bool.or_eq_true, decide_eq_true_eq]
    exact (Nat.lt_or_ge slot i).elim (fun h => .inr (ha i h (List.mem_range.1 hi))) .inl
  have hexec : exec (.slotDisable core slot) s = .next (disableSlot s core slot) :=
    congrArg event (if_pos ⟨hc, hs, habove, by rw [hd]; rfl⟩)
  have hbit : ((s.coreOf core).disabled ||| BitVec.ofNat 16 (2 ^ slot)).getLsbD slot = true := by
    rw [BitVec.getLsbD_or, BitVec.getLsbD_ofNat, Nat.testBit_two_pow_self, decide_eq_true hs]
    simp
  refine ⟨_, hexec, ?_⟩
  rw [disableSlot]
  cases hin : s.inSlot core slot with
  | none =>
    have hin' : (s.modCore core fun c => { c with disabled := c.disabled ||| BitVec.ofNat 16 (2 ^ slot) }).inSlot core slot = none := hin
    rw [hin']
    exact ⟨by rw [State.coreOf_modCore, if_pos rfl]; exact hbit, rfl, nofun⟩
  | some t =>
    have hin' : (s.modCore core fun c => { c with disabled := c.disabled ||| BitVec.ofNat 16 (2 ^ slot) }).inSlot core slot = some t := hin
    rw [hin']
    dsimp only
    refine ⟨?_, rfl, fun v hv => ?_⟩
    · rw [askPreempt, State.modThr_eq, State.coreOf_setThr, State.coreOf_modCore, if_pos rfl]
      exact hbit
    · cases hv
      rw [askPreempt, State.modThr_eq, State.thr_setThr_same]

theorem slotEnable_enables {s : State} {core slot : Nat} (hs : slot < 16) (hd : (s.coreOf core).disabled.getLsbD slot = true)
    (hb : ∀ i, i < slot → (s.coreOf core).disabled.getLsbD i = false) :
    ∃ u, exec (.slotEnable core slot) s = .next u ∧ (u.coreOf core).disabled.getLsbD slot = false ∧ u.mem = s.mem ∧ u.threads = s.threads := by
  have hbelow : ((List.range slot).any fun i => (s.coreOf core).disabled.getLsbD i) = false :=
    List.any_eq_false.2 fun i hi => ne_true_of_eq_false (hb i (List.mem_range.1 hi))
  refine ⟨_, congrArg event (if_pos ⟨hs, hd, by rw [hbelow]; rfl⟩), ?_, rfl, rfl⟩
  rw [State.coreOf_modCore, if_pos rfl]
  show ((s.coreOf core).disabled &&& ~~~(BitVec.ofNat 16 (2 ^ slot))).getLsbD slot = false
  rw [BitVec.getLsbD_and, BitVec.getLsbD_not, BitVec.getLsbD_ofNat, Nat.testBit_two_pow_self, decide_eq_true hs]
  simp

theorem flushTcc_clean (s : State) (core : Nat) : ∀ e ∈ ((s.flushTcc core).coreOf core).tcc, e.2 = false := by
  intro e he
  rw [State.flushTcc, State.coreOf_modCore, if_pos rfl] at he
  obtain ⟨f, -, rfl⟩ := List.mem_map.1 he
  rfl

/-- Settles O53. `Tests.witness_contexts` meets the premises. -/
theorem contextMoves : Obligations.ContextMoves := by
  refine ⟨fun s t hl hq hh hp hr ho hw => ⟨fun hc hs => ?_, fun hc hres hd => preemption_leaves hl hq hh hp hr ho hw hc hres hd⟩, ?_, ?_,
    fun s t core slot => intoSlot_fields s t core slot,
    fun s core slot hc hs => ⟨fun hd ha => slotDisable_disables hc hs hd ha, fun hd hb => slotEnable_enables hs hd hb⟩,
    fun s core => ⟨rfl, flushTcc_clean s core⟩,
    fun s t v hl => ⟨fun h => congrArg event (if_pos ⟨h, hl⟩), fun h => congrArg event (if_pos ⟨h, hl⟩),
      fun h h' => congrArg event (if_pos ⟨h, h', hl⟩)⟩⟩
  · rw [preemption_cuts hl hq hh hp hr ho hw, hs, if_neg Bool.false_ne_true]
  · intro s t k hl hr hp hd core ha hg hs hk hf ho
    exact contextRestore_enters hl hr hp hd ha hg hs hk hf ho
  · intro s t run core hne
    exact toTcc_fields s t run hne

end Sys2Proof.Machine
end

section
/-!
PROOFS. The debug modules, the trace ring's read pointer and the domain block (O54).
-/
namespace Sys2Proof.Machine

/-! ## Halts and resumes (R365, R366) -/

theorem haltCore_empty {s : State} {core : Nat} (hn : (s.resident.filter fun p => p.2.core == core) = [])
    (hh : (s.coreOf core).halted = false) : haltCore s core = s.modCore core fun c => { c with halted := true } := by
  have hn' : ((s.modCore core fun c => { c with halted := true }).resident.filter fun p => p.2.core == core) = [] := hn
  rw [haltCore, hh, if_neg Bool.false_ne_true]
  dsimp only
  rw [hn']
  rfl

theorem haltThread_boundary {s : State} {t : Nat} (hl : (s.thr t).loc = .slot) (ht : (s.thr t).halted = false)
    (hc : (s.coreOf (s.thr t).core).halted = true) (hr : (s.thr t).regs.inRewrite = false)
    (ho : (s.thr t).chunk.count = 0 ∨ (s.thr t).older = none) (hw : ∀ u, (s.thr t).status ≠ .retry (.ctx u)) :
    haltThread s t = flushCommits (flushLog (logChange ((s.cutChunk t 19).modThr t fun th => { th with halted := true }) t) t) t := by
  have hback : putBackWaiting s t = s := by
    unfold putBackWaiting
    split
    · next u h => exact absurd h (hw u)
    · rfl
  have hgo : ((s.thr t).loc != .slot || (s.thr t).halted || !(s.coreOf (s.thr t).core).halted) = false := by rw [hl, ht, hc]; rfl
  have hcut : ¬((s.thr t).chunk.count ≠ 0 ∧ (s.thr t).older.isSome) := fun ⟨hn, hs⟩ => by
    rcases ho with ho | ho
    · exact hn ho
    · rw [ho] at hs; exact Bool.false_ne_true hs
  rw [haltThread, hgo, if_neg Bool.false_ne_true]
  dsimp only
  rw [hr, if_neg Bool.false_ne_true, if_neg hcut, hback]

/-- The cores of a list go on. -/
def wakeCores (cores : List Nat) (s : State) : State :=
  cores.foldl (fun (s : State) c => s.modCore c fun q => { q with halted := false }) s

theorem wakeCores_fields (cores : List Nat) (s : State) :
    (wakeCores cores s).mem = s.mem ∧ (wakeCores cores s).threads = s.threads ∧
      ∀ c, c ∈ cores ∨ (s.coreOf c).halted = false → ((wakeCores cores s).coreOf c).halted = false := by
  induction cores generalizing s with
  | nil => exact ⟨rfl, rfl, fun c h => h.elim (fun h => absurd h List.not_mem_nil) id⟩
  | cons d ds ih =>
    obtain ⟨hm, ht, hc⟩ := ih (s.modCore d fun q => { q with halted := false })
    refine ⟨hm, ht, fun c h => hc c ?_⟩
    rw [State.coreOf_modCore]
    by_cases hd : d = c
    · exact .inr (by rw [if_pos hd])
    · rw [if_neg hd]
      exact h.imp (fun h => (List.mem_cons.1 h).resolve_left (Ne.symm hd)) id

theorem resumeCluster_empty {s : State} {k : Nat}
    (hn : ∀ c ∈ clusterCores k, (s.resident.filter fun p => p.2.core == c) = []) :
    resumeCluster s k = (wakeCores ((clusterCores k).filter fun c => (s.coreOf c).halted) s).modDebug k fun d => { d with halt := false } := by
  have hts : (s.resident.filter fun p => ((clusterCores k).filter fun c => (s.coreOf c).halted).contains p.2.core) = [] := by
    refine List.filter_eq_nil_iff.2 fun p hp hc => ?_
    have hmem := (List.mem_filter.1 (List.contains_iff_mem.1 hc)).1
    exact List.filter_eq_nil_iff.1 (hn _ hmem) p hp (beq_self_eq_true _)
  unfold resumeCluster
  dsimp only
  rw [hts]
  simp only [List.map_nil, List.filter_nil, List.foldr_nil, List.append_nil, List.foldl_nil]
  rfl

/-! ## Registers through DMDATA (R364, R367) -/

theorem State.debugOf_modDebug (s : State) (k : Nat) (f : Debug → Debug) : (s.modDebug k f).debugOf k = f (s.debugOf k) :=
  tabGet_tabSet_same ..

theorem fileReg_x (n : Reg) : fileReg 0 n.toNat = some (.x n, 1) := by
  have hn : n.toNat < 32 := n.isLt
  have hz : (32 * 0 + n.toNat) / 32 = 0 := by omega
  have hr : regOfCode (32 * 0 + n.toNat) = some (.x n) := by
    unfold regOfCode
    rw [hz]
    simp
  simp only [fileReg, if_pos (And.intro hn (by decide : (0 : Nat) < 6)), hr, regSize]

theorem fileReg_words {n w : Nat} (h : 32 ≤ n ∨ 1 ≤ w) : fileReg 0 n = none ∨ ∃ r, fileReg 0 n = some (r, 1) ∧ ¬w < 1 := by
  by_cases hn : n < 32
  · exact .inr ⟨.x (BitVec.ofNat 5 n), by simpa [Nat.mod_eq_of_lt hn] using fileReg_x (BitVec.ofNat 5 n), by omega⟩
  · exact .inl (by simp [fileReg, hn])

theorem word64_zero (x : Word) : word64 x.toNat 0 = x := by simp [word64]

theorem putWord64_zero (x v : Word) : BitVec.ofNat 64 (putWord64 x.toNat 0 v) = v := by
  have hx := x.isLt
  have : putWord64 x.toNat 0 v = v.toNat := by
    simp only [putWord64, Nat.mul_zero, Nat.pow_zero, Nat.div_one, Nat.mul_one, Nat.mod_eq_of_lt hx]
    omega
  rw [this, BitVec.ofNat_toNat, BitVec.setWidth_eq]

section
variable {s : State} {k t : Nat} (ht : selectedThread s k = some t)
include ht

theorem debugRead_x {n : Reg} (hr : selectedReg s k = (0, n.toNat, 0)) : debugRead s k = some ((s.thr t).regs.getX n) := by
  simp only [debugRead, ht, hr, fileReg_x, regNat, word64_zero]
  rfl

theorem debugRead_bad {n w : Nat} (hr : selectedReg s k = (0, n, w)) (h : 32 ≤ n ∨ 1 ≤ w) : debugRead s k = none := by
  rcases fileReg_words h with hf | ⟨r, hf, hw⟩
  · simp [debugRead, ht, hr, hf]
  · simp [debugRead, ht, hr, hf, hw]

theorem debugWrite_bad {n w : Nat} {v : Word} (hr : selectedReg s k = (0, n, w)) (h : 32 ≤ n ∨ 1 ≤ w) : debugWrite s k v = none := by
  rcases fileReg_words h with hf | ⟨r, hf, hw⟩
  · simp [debugWrite, ht, hr, hf]
  · simp [debugWrite, ht, hr, hf, hw]

end

/-- A debugger's write of an x register in the current thread. -/
def putDebugX (n : Reg) (v : Word) (s : State) : State :=
  (s.capture (.reg (.x n))).modRegs fun r => putNat r (.x n) (putWord64 (regNat r (.x n)) 0 v)

theorem putDebugX_regs (n : Reg) (v : Word) (s : State) : (putDebugX n v s).th.regs = s.th.regs.putX n v := by
  rw [putDebugX, State.modRegs_regs, State.capture_regs]
  simp only [putNat, regNat, putWord64_zero]

theorem debugWrite_x {s : State} {k t : Nat} (ht : selectedThread s k = some t) {n : Reg} (v : Word)
    (hr : selectedReg s k = (0, n.toNat, 0)) (hn : n ≠ 0) (ho : (s.thr t).older = none) :
    debugWrite s k v = some (s.asThread t (putDebugX n v)) := by
  have hreal : realReg (.x n) = true := bne_iff_ne.2 hn
  simp only [debugWrite, ht, hr, fileReg_x, inHeld, ho, hreal, if_true]
  rfl

theorem asThread_putDebugX (s : State) (t : Nat) (n : Reg) (v : Word) :
    ((s.asThread t (putDebugX n v)).thr t).regs = (s.thr t).regs.putX n v ∧ (s.asThread t (putDebugX n v)).mem = s.mem :=
  ⟨putDebugX_regs n v { s with cur := t }, rfl⟩

/-! ## The trace ring's read pointer (R372) -/

theorem settleTrace_idle {s : State} (ho : s.trace.owed = 0) (hb : s.trace.buf = []) : settleTrace s = s := by
  rw [settleTrace, hb]
  dsimp only
  rw [if_neg fun h => h.1 ho]
  rfl

/-! ## The domain block (R352) -/

/-- The doubleword's place in the block. -/
def domainMask (i : Nat) : BitVec 2048 := BitVec.ofNat 2048 ((2 ^ 64 - 1) * 2 ^ (64 * i))

theorem domainMask_getLsbD {i : Nat} (hi : i < 32) (d : Nat) : (domainMask i).getLsbD d = decide (d / 64 = i) := by
  rw [domainMask, BitVec.getLsbD_ofNat, Nat.testBit_mul_two_pow, Nat.testBit_two_pow_sub_one]
  rcases Nat.lt_trichotomy (d / 64) i with h | h | h
  · simp only [show ¬64 * i ≤ d by omega, show ¬d / 64 = i by omega, decide_false, Bool.false_and, Bool.and_false]
  · simp [h, show d < 2048 by omega, show 64 * i ≤ d by omega, show d - 64 * i < 64 by omega]
  · simp only [show ¬d - 64 * i < 64 by omega, show ¬d / 64 = i by omega, decide_false, Bool.and_false]

theorem domainWord_getLsbD {i : Nat} (hi : i < 32) (v : Word) (d : Nat) :
    (BitVec.ofNat 2048 (v.toNat * 2 ^ (64 * i))).getLsbD d = (decide (d / 64 = i) && v.getLsbD (d - 64 * i)) := by
  rw [BitVec.getLsbD_ofNat, Nat.testBit_mul_two_pow, ← BitVec.getLsbD]
  rcases Nat.lt_trichotomy (d / 64) i with h | h | h
  · simp only [show ¬64 * i ≤ d by omega, show ¬d / 64 = i by omega, decide_false, Bool.false_and, Bool.and_false]
  · simp [h, show d < 2048 by omega, show 64 * i ≤ d by omega]
  · rw [BitVec.getLsbD_of_ge v _ (by omega)]; simp

theorem domainOwn_getLsbD (own : BitVec 11) (d : Nat) : (BitVec.ofNat 2048 (2 ^ own.toNat)).getLsbD d = decide (d = own.toNat) := by
  have := own.isLt
  rw [BitVec.getLsbD_ofNat, Nat.testBit_two_pow]
  by_cases h : own.toNat = d
  · simp [h, show d < 2048 by omega]
  · simp [h, Ne.symm h]

/-- The domain after a write of doubleword i. -/
def newDomain (old : BitVec 2048) (own : BitVec 11) (i : Nat) (v : Word) : BitVec 2048 :=
  (old &&& ~~~domainMask i) ||| BitVec.ofNat 2048 (v.toNat * 2 ^ (64 * i)) ||| BitVec.ofNat 2048 (2 ^ own.toNat)

theorem newDomain_getLsbD (old : BitVec 2048) (own : BitVec 11) {i : Nat} (hi : i < 32) (v : Word) (d : Nat) :
    (newDomain old own i v).getLsbD d =
      ((old.getLsbD d && !decide (d / 64 = i)) || (decide (d / 64 = i) && v.getLsbD (d - 64 * i)) || decide (d = own.toNat)) := by
  by_cases hd : d < 2048
  · simp only [newDomain, BitVec.getLsbD_or, BitVec.getLsbD_and, BitVec.getLsbD_not, domainMask_getLsbD hi, domainWord_getLsbD hi,
      domainOwn_getLsbD, decide_eq_true hd, Bool.true_and]
  · have := own.isLt
    simp [BitVec.getLsbD_of_ge _ _ (Nat.le_of_not_lt hd), show ¬d / 64 = i by omega, show ¬d = own.toNat by omega]

theorem newDomain_word (old : BitVec 2048) (own : BitVec 11) {i : Nat} (hi : i < 32) (v : Word) {d : Nat} (hd : d < 64)
    (hown : 64 * i + d ≠ own.toNat) : (newDomain old own i v).getLsbD (64 * i + d) = v.getLsbD d := by
  rw [newDomain_getLsbD old own hi]
  simp [hown, show (64 * i + d) / 64 = i by omega]

theorem foldl_unchanged {α β : Type} (f : β → α → β) (b : β) : ∀ l : List α, (∀ a ∈ l, f b a = b) → l.foldl f b = b
  | [], _ => rfl
  | a :: l, h => by
    rw [List.foldl_cons, h a List.mem_cons_self]
    exact foldl_unchanged f b l fun c hc => h c (List.mem_cons_of_mem a hc)

theorem writeDomain_adds {s : State} {i : Nat} {v : Word} (hi : i < 32)
    (h : ∀ d, d < 64 → s.reg.domain.getLsbD (64 * i + d) = true → v.getLsbD d = true ∨ 64 * i + d = s.reg.devnum.toNat) :
    writeDomain s i v = { s with reg := { s.reg with domain := newDomain s.reg.domain s.reg.devnum i v } } := by
  refine foldl_unchanged _ _ _ fun a ha => ?_
  obtain ⟨d, hd, rfl⟩ := List.mem_map.1 ha
  have hd := List.mem_range.1 hd
  have hkeep : (s.reg.domain.getLsbD (64 * i + d) && !(newDomain s.reg.domain s.reg.devnum i v).getLsbD (64 * i + d)) = false := by
    cases ho : s.reg.domain.getLsbD (64 * i + d) with
    | false => rfl
    | true =>
      rw [newDomain_getLsbD _ _ hi, show (64 * i + d) / 64 = i by omega, Nat.add_sub_cancel_left]
      rcases h d hd ho with hv | hv
      · rw [hv]; simp
      · simp [hv]
  exact if_neg (by rw [← domainMask, ← newDomain, hkeep]; exact Bool.false_ne_true)

/-- Settles O54. A halt and a resume of an empty core are one field of it; files 0 to 5 go through the lemmas on numbers of
64 bits, and a write of the domain that clears no member's bit makes nothing end. The premises are met by
`witness_debug` and `witness_debug_waits`. -/
theorem debugModules : Obligations.DebugModules := by
  unfold Obligations.DebugModules
  refine ⟨fun s k => ⟨fun hk hp => ?_, fun hw => ?_, rfl⟩, fun s core => haltCore_empty, fun s t hl ht hc hr ho hw =>
    haltThread_boundary hl ht hc hr ho hw, fun s k hk hp hn => ?_, fun s k t hp ht => ⟨fun n hr => ?_, fun n v hr hn ho => ?_,
      fun n w v hr h => ⟨?_, ?_⟩⟩, fun s k v hp hn => ⟨?_, ?_, ?_, ?_⟩, fun s k t pa v hp => ⟨fun ha hpo hv => ?_, fun ha hv => ?_,
      fun ha => ?_, fun ha => ?_, fun ha => ?_⟩, fun s v hp => ⟨fun hle ho hb => ?_, fun hlt => ?_⟩, fun s i v hi hp h => ?_⟩
  · show blockEvent s _ = _
    rw [blockEvent_of hp, if_pos hk]
  · rw [haltCluster, hw, if_neg Bool.false_ne_true]
  · obtain ⟨hm, ht, hc⟩ := wakeCores_fields ((clusterCores k).filter fun c => (s.coreOf c).halted) s
    refine ⟨(wakeCores ((clusterCores k).filter fun c => (s.coreOf c).halted) s).modDebug k fun d => { d with halt := false }, ?_,
      congrArg Debug.halt (State.debugOf_modDebug ..), hm, ht, fun c hmem => hc c ?_⟩
    · show blockEvent s _ = _
      rw [blockEvent_of hp, if_pos hk, resumeCluster_empty hn]
    · cases hh : (s.coreOf c).halted with
      | false => exact .inr rfl
      | true => exact .inl (List.mem_filter.2 ⟨hmem, hh⟩)
  · show blockEvent s _ = _
    rw [blockEvent_of hp, readDmdata, debugRead_x ht hr]
    rfl
  · obtain ⟨hregs, hm⟩ := asThread_putDebugX s t n v
    refine ⟨debugDone (s.asThread t (putDebugX n v)) k false fun d => { d with data := v }, ?_, ?_, fun r hrn => ?_, hm,
      congrArg Debug.dmerr (State.debugOf_modDebug ..)⟩
    · show blockEvent s _ = _
      rw [blockEvent_of hp, writeDmdata, debugWrite_x ht v hr hn ho]
    · show ((s.asThread t (putDebugX n v)).thr t).regs.getX n = v
      rw [hregs, getX_putX, if_pos rfl, if_neg hn]
    · show ((s.asThread t (putDebugX n v)).thr t).regs.getX r = _
      rw [hregs, getX_putX, if_neg hrn]
  · show blockEvent s _ = _
    rw [blockEvent_of hp, readDmdata, debugRead_bad ht hr h]
    rfl
  · show blockEvent s _ = _
    rw [blockEvent_of hp, writeDmdata, debugWrite_bad ht hr h]
    rfl
  · show blockEvent s _ = _
    rw [blockEvent_of hp, readDmdata, debugRead, hn]
    rfl
  · show blockEvent s _ = _
    rw [blockEvent_of hp, writeDmdata, debugWrite, hn]
    rfl
  · show blockEvent s _ = _
    rw [blockEvent_of hp, readDmmem, debugPa, hn]
    rfl
  · show blockEvent s _ = _
    rw [blockEvent_of hp, writeDmmem, debugPa, hn]
    rfl
  · show blockEvent s _ = _
    rw [blockEvent_of hp, readDmmem, ha]
    dsimp only
    rw [hpo, if_neg Bool.false_ne_true, hv, if_neg Bool.false_ne_true]
    rfl
  · show blockEvent s _ = _
    rw [blockEvent_of hp, writeDmmem, ha]
    dsimp only
    rw [hv]
    rfl
  · show blockEvent s _ = _
    rw [blockEvent_of hp, readDmmem, ha]
  · show blockEvent s _ = _
    rw [blockEvent_of hp, writeDmmem, ha]
  · show blockEvent s _ = _
    rw [blockEvent_of hp, writeDmmem, ha]
    rfl
  · show blockEvent s _ = _
    rw [blockEvent_of hp, writeTrrdptr]
    dsimp only
    rw [if_neg (Nat.not_lt.2 hle)]
    exact congrArg event (settleTrace_idle (s := { s with trace := { s.trace with rdptr := v.setWidth 32 } }) ho hb)
  · show blockEvent s _ = _
    rw [blockEvent_of hp, writeTrrdptr, if_pos hlt]
  · refine ⟨{ s with reg := { s.reg with domain := newDomain s.reg.domain s.reg.devnum i v } }, ?_, ?_,
      fun d hd hown => newDomain_word _ _ hi v hd hown, fun d hd hown => ?_, rfl⟩
    · show blockEvent s _ = _
      rw [blockEvent_of hp, if_pos hi, writeDomain_adds hi h]
    · show (newDomain _ _ i v).getLsbD _ = true
      rw [newDomain_getLsbD _ _ hi, decide_eq_true rfl, Bool.or_true]
    · show (newDomain _ _ i v).getLsbD d = _
      rw [newDomain_getLsbD _ _ hi, decide_eq_false hd, decide_eq_false hown]
      simp

end Sys2Proof.Machine
end

section
/-!
PROOFS. Freeze, resets, bring-up and power (O55).
-/
namespace Sys2Proof.Machine

/-! ## Tables that keep some keys -/

theorem tabGet_filter {α : Type} (d : α) (f : Nat → Bool) (l : List (Nat × α)) (a : Nat) :
    tabGet d (l.filter fun e => f e.1) a = if f a then tabGet d l a else d := by
  induction l with
  | nil => simp [tabGet]
  | cons e l ih =>
    obtain ⟨k, v⟩ := e
    by_cases hk : k = a
    · subst hk
      cases hf : f k
      · rw [List.filter_cons_of_neg (by simp [hf]), ih, hf]; simp
      · rw [List.filter_cons_of_pos (by simp [hf])]; simp [tabGet]
    · cases hf : f k
      · rw [List.filter_cons_of_neg (by simp [hf]), ih]; simp [tabGet, hk]
      · rw [List.filter_cons_of_pos (by simp [hf])]; simp only [tabGet, if_neg hk, ih]

theorem tabFind_filter_out {α : Type} (f : Nat → Bool) (l : List (Nat × α)) {a : Nat} (ha : f a = false) :
    tabFind (l.filter fun e => f e.1) a = none := by
  induction l with
  | nil => rfl
  | cons e l ih =>
    obtain ⟨k, v⟩ := e
    cases hf : f k
    · rw [List.filter_cons_of_neg (by simp [hf]), ih]
    · have hk : k ≠ a := fun h => by rw [h, ha] at hf; exact Bool.false_ne_true hf
      rw [List.filter_cons_of_pos (by simp [hf])]
      simp only [tabFind, if_neg hk, ih]

/-! ## Resets (R376) -/

theorem memGet_filter (f : Nat → Bool) (m : Mem) (a : Nat) : memGet (m.filter fun e => f e.1) a = if f a then memGet m a else 0 :=
  tabGet_filter ..

theorem warmReset_memory (s : State) : ∃ u, exec .warmReset s = .next u ∧ u.threads = [] ∧ u.launches = [] ∧ u.cores = [] ∧ u.poison = s.poison ∧
    u.reg.frozen = false ∧ u.reg.phase = 0 ∧ u.reg.flash = s.reg.flash ∧ u.reg.domain = BitVec.ofNat 2048 (2 ^ s.reg.devnum.toNat) ∧
    (Memory.wf s.mem = true → (∀ a, a < 2 ^ 55 → memGet u.mem a = memGet s.mem a) ∧ ∀ a, 2 ^ 55 ≤ a → memGet u.mem a = 0) := by
  refine ⟨resetWith s (s.mem.filter fun e => decide (e.1 < 2 ^ 55)) s.poison, rfl, rfl, rfl, rfl, rfl, rfl, rfl, rfl, rfl,
    fun _ => ⟨fun a ha => ?_, fun a ha => ?_⟩⟩
  · exact (memGet_filter (fun a => decide (a < 2 ^ 55)) s.mem a).trans (if_pos (decide_eq_true ha))
  · exact (memGet_filter (fun a => decide (a < 2 ^ 55)) s.mem a).trans (if_neg (by rw [decide_eq_false (Nat.not_lt.2 ha)]; exact Bool.false_ne_true))

theorem coldReset_memory (s : State) : ∃ u, exec .coldReset s = .next u ∧ u.threads = [] ∧ u.launches = [] ∧ u.cores = [] ∧
    u.reg.frozen = false ∧ u.reg.phase = 0 ∧ u.reg.flash = s.reg.flash ∧
    (Memory.wf s.mem = true → (∀ a, a < 2 ^ 55 → s.placeOf a = .own → memGet u.mem a = 0) ∧
      (∀ a, a < 2 ^ 55 → s.placeOf a ≠ .own → memGet u.mem a = memGet s.mem a) ∧ ∀ a, 2 ^ 55 ≤ a → memGet u.mem a = 0) := by
  let other : Nat → Bool := fun pa => decide (pa < 2 ^ 55) && s.placeOf pa != .own
  have hmem := memGet_filter other s.mem
  refine ⟨resetWith s (s.mem.filter fun e => other e.1) (s.poison.filter fun l => other (l * 64)), rfl, rfl, rfl, rfl, rfl, rfl, rfl,
    fun _ => ⟨fun a ha hp => (hmem a).trans (if_neg ?_), fun a ha hp => (hmem a).trans (if_pos ?_), fun a ha => (hmem a).trans (if_neg ?_)⟩⟩
  · simp only [other, hp, bne_self_eq_false, Bool.and_false]; exact Bool.false_ne_true
  · simp only [other, decide_eq_true ha, bne_iff_ne.2 hp, Bool.and_self]
  · simp only [other, decide_eq_false (Nat.not_lt.2 ha), Bool.false_and]; exact Bool.false_ne_true

/-! ## Bring-up (R377) -/

section
variable {s : State} {ldb : BitVec 4} {conf : BootConfig} {e r : Bool} {off : List Nat}

theorem boot_begins (h : s.reg.phase = 0) : exec (.boot ldb conf e r off) s = .next { s with reg := { s.reg with phase := 1 } } := by
  show execBoot ldb conf e r off s = _
  rw [execBoot, h]
  rfl

theorem boot_recovers (h : s.reg.phase = 1) : exec (.boot ldb conf e true off) s = .next { s with reg := { s.reg with phase := 15 } } := by
  show execBoot ldb conf e true off s = _
  rw [execBoot, h]
  rfl

theorem boot_configures (h : s.reg.phase = 1) (hl : ldb.toNat ≤ 8) : exec (.boot ldb conf e false off) s = .next { s with reg := { s.reg with
    phase := 2, ldb := ldb, devnum := conf.devnum, imgErr := e, farto := conf.farto, barto := conf.barto, poolBase := conf.poolBase
    poolSize := conf.poolSize, domain := BitVec.ofNat 2048 (2 ^ conf.devnum.toNat) } } := by
  show execBoot ldb conf e false off s = _
  rw [execBoot, h]
  exact congrArg event ((if_neg Bool.false_ne_true).trans (if_neg (Nat.not_lt.2 hl)))

theorem boot_trains (h : s.reg.phase = 2) : exec (.boot ldb conf e r off) s = .next { s with reg := { s.reg with phase := 3 } } := by
  show execBoot ldb conf e r off s = _
  rw [execBoot, h]
  rfl

theorem boot_ready (h : s.reg.phase = 3) : exec (.boot ldb conf e r off) s = .next { s with reg := { s.reg with
    phase := 4, offline := (off.filter fun c => decide (c < Config.coreCount)).eraseDups } } := by
  show execBoot ldb conf e r off s = _
  rw [execBoot, h]
  rfl

end

/-! ## Power (R341, R378) -/

/-- The cap that a write of c stores. -/
def capOf (c : Nat) : Nat := if c = 0 then 0 else if c < 800 then 800 else if 3200 < c then 3200 else c

theorem pwrcap_stores {s : State} {v : Word} (hp : s.reg.phase ≠ 15) :
    let c := bits v 15 0
    ∃ u, exec (.pwrcapWrite v) s = .next u ∧ u = { s with reg := { s.reg with cap := u.reg.cap } } ∧
      (c = 0 → u.reg.cap = 0) ∧ (c ≠ 0 → c < 800 → u.reg.cap = 800) ∧ (3200 < c → u.reg.cap = 3200) ∧
      (800 ≤ c → c ≤ 3200 → u.reg.cap.toNat = c) := by
  intro c
  have hcap : writePwrcap s v = { s with reg := { s.reg with cap := BitVec.ofNat 16 (capOf c) } } := rfl
  refine ⟨writePwrcap s v, ?_, by rw [hcap], fun h => ?_, fun h h' => ?_, fun h => ?_, fun h h' => ?_⟩
  · show blockEvent s _ = _
    rw [blockEvent_of hp]
  · rw [hcap, capOf, if_pos h]; rfl
  · rw [hcap, capOf, if_neg h, if_pos h']; rfl
  · rw [hcap, capOf, if_neg (by omega), if_neg (by omega), if_pos h]; rfl
  · rw [hcap]
    show (BitVec.ofNat 16 (capOf c)).toNat = c
    rw [capOf, if_neg (by omega), if_neg (by omega), if_neg (by omega), BitVec.toNat_ofNat, Nat.mod_eq_of_lt (by omega)]

theorem powerThrottle_slows {s : State} (h : 1200 < s.reg.clk.toNat) :
    exec .powerThrottle s = .next { s with reg := { s.reg with clk := s.reg.clk - 100 } } := congrArg event (if_pos h)

/-- The core whose slots a throttle disables. -/
def throttledCore (s : State) : Nat := s.fresh.1.toNat % Config.coreCount

theorem powerThrottle_eq {s : State} (h : s.reg.clk.toNat ≤ 1200) : exec .powerThrottle s =
    event (match topSlot s.fresh.2 (throttledCore s) with | some i => disableSlot s.fresh.2 (throttledCore s) i | none => s.fresh.2) :=
  congrArg event (if_neg (Nat.not_lt.2 h))

theorem powerThrottle_disables {s : State} (h : s.reg.clk.toNat ≤ 1200) :
    (∀ i, topSlot s.fresh.2 (throttledCore s) = some i → exec .powerThrottle s = .next (disableSlot s.fresh.2 (throttledCore s) i)) ∧
    (topSlot s.fresh.2 (throttledCore s) = none → exec .powerThrottle s = .next s.fresh.2) := by
  refine ⟨fun i hi => ?_, fun hn => ?_⟩
  · rw [powerThrottle_eq h, hi]; rfl
  · rw [powerThrottle_eq h, hn]; rfl

/-! ### Copies that go -/

/-- A core without its copies. -/
def Core.dropCopies (k : Core) : Core := { k with l1 := [], l1i := [], tlb := [], flips := k.flips.filter fun f => decide (2 ≤ f.array) }

/-- The cores of a list lose their copies. -/
def emptyCores (cores : List Nat) (s : State) : State := cores.foldl (fun (s : State) c => s.modCore c Core.dropCopies) s

theorem dropCopies_eq (s : State) (cores : List Nat) : dropCopies s cores =
    { emptyCores cores s with ctlbs := (emptyCores cores s).ctlbs.filter fun q => !cores.any fun c => clusterOf c == q.1 } := rfl

theorem emptyCores_fields (cores : List Nat) (s : State) :
    (emptyCores cores s).mem = s.mem ∧ (emptyCores cores s).threads = s.threads ∧ ∀ c, c ∈ cores ∨ ((s.coreOf c).l1 = [] ∧ (s.coreOf c).l1i = [] ∧ (s.coreOf c).tlb = []) →
      ((emptyCores cores s).coreOf c).l1 = [] ∧ ((emptyCores cores s).coreOf c).l1i = [] ∧ ((emptyCores cores s).coreOf c).tlb = [] := by
  induction cores generalizing s with
  | nil => exact ⟨rfl, rfl, fun c h => h.elim (fun h => absurd h List.not_mem_nil) id⟩
  | cons d ds ih =>
    obtain ⟨hm, ht, hc⟩ := ih (s.modCore d Core.dropCopies)
    refine ⟨hm, ht, fun c h => hc c ?_⟩
    rw [State.coreOf_modCore]
    by_cases hd : d = c
    · exact .inr (by rw [if_pos hd]; exact ⟨rfl, rfl, rfl⟩)
    · rw [if_neg hd]
      exact h.imp (fun h => (List.mem_cons.1 h).resolve_left (Ne.symm hd)) id

theorem dropCopies_fields (s : State) (cores : List Nat) : (dropCopies s cores).mem = s.mem ∧ (dropCopies s cores).threads = s.threads ∧
    ∀ c ∈ cores, ((dropCopies s cores).coreOf c).l1 = [] ∧ ((dropCopies s cores).coreOf c).l1i = [] ∧ ((dropCopies s cores).coreOf c).tlb = [] := by
  obtain ⟨hm, ht, hc⟩ := emptyCores_fields cores s
  exact ⟨hm, ht, fun c h => hc c (.inl h)⟩

theorem dropCopies_ctlb (s : State) {cores : List Nat} {k : Nat} (h : (cores.any fun c => clusterOf c == k) = true) :
    tabFind (dropCopies s cores).ctlbs k = none :=
  tabFind_filter_out (fun a => !cores.any fun c => clusterOf c == a) _ (by rw [h]; rfl)

theorem clusterOf_first (k : Nat) : ((clusterCores k).any fun c => clusterOf c == k) = true := by
  refine List.any_eq_true.2 ⟨coreAt (k % 12 * 4 + 0 % 4) (k / 12 * 2 + 0 / 4), List.mem_map_of_mem (List.mem_range.2 (by decide)), beq_iff_eq.2 ?_⟩
  simp only [clusterOf, coreAt, coreX, coreY]
  omega

/-- Something keeps a cluster from being gated (R38, R141). -/
def gateWaits (s : State) (k : Nat) : Bool :=
  s.invals.any (fun v => v.home == k) || (hostLinesAt s k).any fun l => deferredAny s (l * 64) 64

theorem clusterPowerGate_waits {s : State} {k : Nat} (h : gateWaits s k = true) : exec (.clusterPowerGate k) s = .next s :=
  congrArg event (if_neg fun ⟨_, _, hw⟩ => by rw [← gateWaits, h] at hw; exact Bool.false_ne_true hw)

/-- The state at a gate, but for the cluster's own mark. -/
def gateCopies (s : State) (k : Nat) : State :=
  dropCopies ((hostLinesAt s k).foldl (fun s l => invalidateAll s (l * 64) 64) s) (clusterCores k)

theorem clusterPowerGate_gates {s : State} {k : Nat} (hk : k < 168) (hn : s.onCluster k = []) (h : gateWaits s k = false) :
    exec (.clusterPowerGate k) s =
      .next { gateCopies s k with reg := { (gateCopies s k).reg with gated := addNew k (gateCopies s k).reg.gated } } :=
  congrArg event (if_pos ⟨hk, by rw [hn]; rfl, by rw [← gateWaits, h]; rfl⟩)

theorem gateCopies_fields (s : State) (k : Nat) : (s.trace.en = false → (gateCopies s k).mem = s.mem) ∧
    tabFind (gateCopies s k).ctlbs k = none ∧ ∀ c ∈ clusterCores k,
      ((gateCopies s k).coreOf c).l1 = [] ∧ ((gateCopies s k).coreOf c).l1i = [] ∧ ((gateCopies s k).coreOf c).tlb = [] := by
  obtain ⟨hm, -, hc⟩ := dropCopies_fields ((hostLinesAt s k).foldl (fun s l => invalidateAll s (l * 64) 64) s) (clusterCores k)
  exact ⟨fun he => hm.trans ((Mild.foldl (fun s l => .invalidateAll ..) _ s).quiet he), dropCopies_ctlb _ (clusterOf_first k), hc⟩

/-! ### Contexts that are flushed -/

theorem writeAreas_threads (s : State) (l : List Nat) : (l.foldl writeArea s).threads = s.threads :=
  foldl_rel (f := writeArea) (R := fun s u => u.threads = s.threads) (fun _ => rfl) (fun h k => k.trans h) (fun _ _ => rfl) l s

theorem flushTcc_threads (s : State) (core : Nat) : (s.flushTcc core).threads = s.threads := writeAreas_threads ..

theorem flushTccs_threads (s : State) (cores : List Nat) : (cores.foldl State.flushTcc s).threads = s.threads :=
  foldl_rel (R := fun s u => u.threads = s.threads) (fun _ => rfl) (fun h k => k.trans h) flushTcc_threads cores s

/-- A context that leaves the TCC for its area. -/
def toArea (p : Nat × Thread) : Nat × Thread := (p.1, if p.2.loc == .tcc then { p.2 with loc := .area } else p.2)

theorem toArea_loc (p : Nat × Thread) : (toArea p).2.loc ≠ .tcc ∧ ((toArea p).2.loc = .slot → p.2.loc = .slot) := by
  cases h : p.2.loc <;> simp [toArea, h]

theorem d3hot_enters {s : State} (h : s.resident = []) : ∃ u, exec .d3hotEntry s = .next u ∧ u.reg.d3hot = true ∧ u.reg.selfRefresh = true ∧
    u.reg.gated = List.range 168 ∧ u.resident = [] ∧ ∀ p ∈ u.threads, p.2.loc ≠ .tcc := by
  have hthreads : (dropCopies ((s.cores.map (·.1)).foldl State.flushTcc s) (s.cores.map (·.1))).threads = s.threads :=
    (dropCopies_fields ..).2.1.trans (flushTccs_threads ..)
  refine ⟨_, congrArg event (if_neg (by rw [h]; exact Bool.false_ne_true)), rfl, rfl, rfl, List.filter_eq_nil_iff.2 fun p hp hl => ?_, fun p hp => ?_⟩
  all_goals
    obtain ⟨q, hq, rfl⟩ := List.mem_map.1 hp
  · rw [hthreads] at hq
    exact List.filter_eq_nil_iff.1 h q hq (beq_iff_eq.2 ((toArea_loc q).2 (beq_iff_eq.1 hl)))
  · exact (toArea_loc q).1

/-! ## The freeze (R376) -/

theorem frozen_stays {s t : State} (hf : s.reg.frozen = true) (h : step s = .next t) :
    (s.agenda.head? = some (.event .warmReset) ∨ s.agenda.head? = some (.event .coldReset)) ∨ t = { s with agenda := s.agenda.tail } := by
  unfold step at h
  cases ha : s.agenda with
  | nil =>
    rw [ha] at h
    dsimp only at h
    rw [auto, if_pos hf] at h
    cases h
    exact .inr (by rw [List.tail_nil, ← ha])
  | cons m rest =>
    rw [ha] at h
    dsimp only at h
    have hkeeps : runMove { s with agenda := rest } m = .next { s with agenda := rest } → t = { s with agenda := (m :: rest).tail } :=
      fun hm => by rw [hm] at h; cases h; rfl
    cases m with
    | issue u => exact .inr (hkeeps (if_pos hf))
    | upset u => exact .inr (hkeeps (if_pos hf))
    | undoRead u => exact .inr (hkeeps (if_pos hf))
    | window u => exact .inr (hkeeps (if_pos hf))
    | event i =>
      cases hr : isReset i with
      | false => exact .inr (hkeeps (if_pos (by rw [hr]; exact Bool.and_eq_true_iff.2 ⟨hf, rfl⟩)))
      | true =>
        unfold isReset at hr
        split at hr
        · exact .inl (.inl rfl)
        · exact .inl (.inr rfl)
        · exact absurd hr Bool.false_ne_true

/-- Settles O55. `witness_power` and `witness_boot` meet the premises. -/
theorem freezeResetAndPower : Obligations.FreezeResetAndPower := by
  unfold Obligations.FreezeResetAndPower
  refine ⟨⟨fun s => ⟨rfl, fun hp => ?_, fun v hv => ?_⟩, warmReset_memory, coldReset_memory, fun s ldb c e r off =>
    ⟨boot_begins, boot_recovers, boot_configures, boot_trains, boot_ready⟩, fun s off v h h' => congrArg event (if_pos ⟨h, h'⟩),
    fun s v hp => pwrcap_stores hp, fun s => ⟨powerThrottle_slows, fun h => ⟨throttledCore s, Nat.mod_lt _ (by decide), powerThrottle_disables h⟩⟩,
    ?_, fun s k h => ?_, fun s => ⟨fun h => ?_, d3hot_enters, fun h => congrArg event (if_pos h)⟩⟩, fun s t => frozen_stays⟩
  · exact (blockEvent_of hp _).trans (congrArg _ (if_pos rfl))
  · show event (if s.reg.phase = 15 then s else writeFreeze s v) = _
    rw [writeFreeze, if_neg hv, ite_self, event]
  · exact fun s k hk hn => ⟨clusterPowerGate_waits, fun hw => ⟨clusterPowerGate_gates hk hn hw, gateCopies_fields s k⟩⟩
  · exact congrArg event (if_neg (by rw [h]; exact Bool.false_ne_true))
  · exact congrArg event (if_pos (by rw [Bool.not_eq_true', List.isEmpty_eq_false_iff]; exact h))

end Sys2Proof.Machine
end

section
/-!
PROOFS. Results that return, waits that end, vector credit, state packets and interrupts (O40).
-/
namespace Sys2Proof.Machine

/-! ## Results (R26, R182) -/

theorem regs_take (r : Regs) (q : Result) : r.take q = (q.val.map r.put).getD r := by
  unfold Regs.take
  cases q.val <;> rfl

/-- Result k of thread t is back. -/
def resultBack (s : State) (t k : Nat) (r : Result) : State :=
  s.modThr t fun th => { th with
    regs := th.regs.take r
    chunk := if r.uid == th.chunk.uid then th.chunk else { th.chunk with start := th.chunk.start.take r }
    results := th.results.eraseIdx k }

theorem resultBack_eq (s : State) (t k : Nat) (r : Result) : resultBack s t k r =
    s.modThr t fun th => { th with
      regs := (r.val.map th.regs.put).getD th.regs
      chunk := if r.uid == th.chunk.uid then th.chunk else { th.chunk with start := (r.val.map th.chunk.start.put).getD th.chunk.start }
      results := th.results.eraseIdx k } := by
  simp only [resultBack, regs_take]

theorem longLatencyResult_eq {s : State} {t k : Nat} {r : Result} (h : (s.thr t).results[k]? = some r) :
    exec (.longLatencyResult t k) s =
      event (if mayReturn s t k r then (if r.vec then vectorGrant (resultBack s t k r) t else resultBack s t k r) else s) := by
  show execLongLatencyResult t k s = _
  unfold execLongLatencyResult
  rw [h]
  rfl

theorem mayReturn_iff {s : State} {t k : Nat} {r : Result} (hf : r.far = none) : mayReturn s t k r =
    (!r.vec || (!((s.thr t).results.take k).any (·.vec) && vectorChoice s (s.thr t).core == some t)) := by
  rw [mayReturn, Result.known, hf]
  rfl

/-! ## The vector arbiter's window (R315) -/

theorem Rises.filter {α : Type} (f : Nat × α → Bool) {n : Nat} : ∀ {l : List (Nat × α)}, Rises n l → Rises n (l.filter f)
  | [], _ => trivial
  | e :: l, ⟨hn, hl⟩ => by
    cases he : f e with
    | true => rw [List.filter_cons_of_pos he]; exact ⟨hn, hl.filter f⟩
    | false =>
      rw [List.filter_cons_of_neg (by simp [he])]
      exact (hl.filter f).mono (by omega)

/-- Every thread of a table is changed once. -/
def modAll (f : Thread → Thread) (l : List (Nat × Thread)) (s : State) : State := l.foldl (fun (s : State) p => s.modThr p.1 f) s

theorem modAll_thr (f : Thread → Thread) {n : Nat} : ∀ {l : List (Nat × Thread)}, Rises n l → ∀ (s : State) (t : Nat),
    ((modAll f l s).thr t) = if t ∈ l.map (·.1) then f (s.thr t) else s.thr t
  | [], _, s, t => by simp [modAll]
  | (k, th) :: l, ⟨_, hl⟩, s, t => by
    refine (modAll_thr f hl (s.modThr k f) t).trans ?_
    rw [State.modThr_eq, State.thr_setThr]
    by_cases hk : k = t
    · subst hk
      have hout : k ∉ l.map (·.1) := fun h => by
        obtain ⟨p, hp, hpk⟩ := List.mem_map.1 h
        have := hl.le_of_mem p hp
        omega
      rw [if_neg hout, if_pos rfl, if_pos (by simp)]
    · have hmem : t ∈ ((k, th) :: l).map (·.1) ↔ t ∈ l.map (·.1) := by simp [Ne.symm hk]
      simp only [if_neg hk, hmem]

/-! ## Interrupts (R327, R330) -/

theorem mpWake_sets (s : State) (t : Nat) : ∃ u, exec (.mpWake t) s = .next u ∧ (u.thr t).regs.csr.ssip = true ∧
    (u.thr t).chunk.start.csr.ssip = true ∧ (u.thr t).regs.x = (s.thr t).regs.x ∧ (∀ v, v ≠ t → u.thr v = s.thr v) ∧ u.mem = s.mem := by
  refine ⟨_, rfl, ?_, ?_, ?_, fun v hv => ?_, rfl⟩
  · rw [State.modThr_eq, State.thr_setThr_same]
  · rw [State.modThr_eq, State.thr_setThr_same]
  · rw [State.modThr_eq, State.thr_setThr_same]
  · rw [State.modThr_eq, State.thr_setThr_other _ _ hv]

theorem interrupt_taken {s : State} {t c : Nat} (hc : interruptCause s t = some c) (hb : atBoundary s t = true)
    (he : earlierEvent (s.thr t) = false) : exec (.interrupt t) s = .next (takeInterrupt s t c) := by
  show execInterrupt t s = _
  rw [execInterrupt, hc]
  dsimp only
  rw [hb, he]
  rfl

theorem interrupt_none {s : State} {t : Nat} (hc : interruptCause s t = none) : exec (.interrupt t) s = .next s := by
  show execInterrupt t s = _
  rw [execInterrupt, hc]
  rfl

/-- Settles O40. A window changes every thread of its core once, as no number stands twice in the table. The premises are
met by `witness_thread_events`. -/
theorem threadEvents_settled : Obligations.ThreadEvents := by
  unfold Obligations.ThreadEvents
  refine ⟨⟨?_, fun s t hs hn => congrArg event (if_pos ⟨hs, hn⟩), fun s t h => congrArg event (if_neg fun ⟨_, h'⟩ => Nat.not_lt.2 h' h), ?_,
    fun s t hl hs => congrArg event (if_pos ?_)⟩, fun s t => ⟨fun _ => rfl, fun _ => rfl, mpWake_sets s t, fun c => interrupt_taken, interrupt_none⟩⟩
  · intro s t k r hr hf
    dsimp only
    rw [← resultBack_eq, longLatencyResult_eq hr, mayReturn_iff hf]
    refine ⟨fun hv => ?_, fun hv hfirst hch => ?_, fun hv hfirst => ?_⟩
    · rw [hv]; rfl
    · rw [hv, hfirst, hch, beq_self_eq_true]; rfl
    · rw [hv, hfirst]; rfl
  · intro s core t ht hl hc hk
    dsimp only
    have hhere : Rises 0 (s.resident.filter fun p => p.2.core == core) := (((keysRise_iff.1 hk).filter _).filter _)
    have hin : t ∈ (s.resident.filter fun p => p.2.core == core).map (·.1) :=
      List.mem_map.2 ⟨_, List.mem_filter.2 ⟨List.mem_filter.2 ⟨ht, beq_iff_eq.2 hl⟩, beq_iff_eq.2 hc⟩, rfl⟩
    exact ⟨_, rfl, congrArg Thread.credit ((modAll_thr _ hhere s t).trans (if_pos hin))⟩
  · rw [decide_eq_true hs, Bool.and_true, Bool.not_eq_true', List.isEmpty_eq_false_iff]
    exact hl

end Sys2Proof.Machine
end

section
/-!
PROOFS. What a thread's actions do at their homes (O42).
-/
namespace Sys2Proof.Machine

/-! ## Holders stay holders (R137, R141) -/

theorem mem_tabSet_self {α : Type} (l : List (Nat × α)) (a : Nat) (w : α) : (a, w) ∈ tabSet l a w := by
  induction l with
  | nil => exact List.mem_singleton.2 rfl
  | cons e l ih =>
    obtain ⟨k, v⟩ := e
    rw [tabSet]
    split
    · exact List.mem_cons_self
    · split
      · exact List.mem_cons_self
      · exact List.mem_cons_of_mem _ ih

/-- An entry stays in a table, but for the one that is set. -/
theorem mem_tabSet_keeps {α : Type} (d : α) {l : List (Nat × α)} {a : Nat} (w : α) {p : Nat × α} (h : p ∈ l) :
    p ∈ tabSet l a w ∨ p = (a, tabGet d l a) := by
  induction l with
  | nil => cases h
  | cons e l ih =>
    obtain ⟨k, v⟩ := e
    rw [tabSet]
    split
    · exact .inl (List.mem_cons_of_mem _ h)
    · split
      · next hk =>
        rcases List.mem_cons.1 h with rfl | h
        · exact .inr (by rw [tabGet, if_pos hk.symm, hk])
        · exact .inl (List.mem_cons_of_mem _ h)
      · next hk =>
        rcases List.mem_cons.1 h with rfl | h
        · exact .inl List.mem_cons_self
        · rw [tabGet, if_neg (Ne.symm hk)]
          exact (ih h).imp (List.mem_cons_of_mem _) id

/-- Whatever core has state, an L1 copy or a chunk's line in s still has it in u. -/
structure StillHeld (s u : State) : Prop where
  active : ∀ c ∈ s.cores.map (·.1), c ∈ u.cores.map (·.1)
  copies : ∀ c, (u.coreOf c).l1.map (·.1) = (s.coreOf c).l1.map (·.1)
  threads : ∀ p ∈ s.threads, ∃ q ∈ u.threads, q.2.loc = p.2.loc ∧ q.2.core = p.2.core ∧ q.2.chunks = p.2.chunks
  invals : u.invals = s.invals
  home : ∀ pa, u.homeOf pa = s.homeOf pa

theorem StillHeld.refl (s : State) : StillHeld s s := ⟨fun _ h => h, fun _ => rfl, fun p h => ⟨p, h, rfl, rfl, rfl⟩, rfl, fun _ => rfl⟩

theorem StillHeld.trans {s t u : State} (h : StillHeld s t) (k : StillHeld t u) : StillHeld s u := by
  refine ⟨fun c hc => k.active c (h.active c hc), fun c => (k.copies c).trans (h.copies c), fun p hp => ?_, k.invals.trans h.invals,
    fun pa => (k.home pa).trans (h.home pa)⟩
  obtain ⟨q, hq, hl, hc, hch⟩ := h.threads p hp
  obtain ⟨r, hr, hl', hc', hch'⟩ := k.threads q hq
  exact ⟨r, hr, hl'.trans hl, hc'.trans hc, hch'.trans hch⟩

theorem StillHeld.modCore {s : State} {core : Nat} {f : Core → Core} (hf : ∀ k, (f k).l1.map (·.1) = k.l1.map (·.1)) :
    StillHeld s (s.modCore core f) := by
  refine ⟨fun c hc => ?_, fun c => ?_, fun p h => ⟨p, h, rfl, rfl, rfl⟩, rfl, fun _ => rfl⟩
  · obtain ⟨p, hp, rfl⟩ := List.mem_map.1 hc
    rcases mem_tabSet_keeps Core.reset (a := core) (f (s.coreOf core)) hp with h | h
    · exact List.mem_map.2 ⟨p, h, rfl⟩
    · exact List.mem_map.2 ⟨_, mem_tabSet_self .., by rw [h]⟩
  · rw [State.coreOf_modCore]
    split
    · next h => rw [hf, h]
    · rfl

theorem StillHeld.dropFlips (s : State) (core : Nat) (f : Flip → Bool) : StillHeld s (s.dropFlips core f) := .modCore fun _ => rfl

theorem StillHeld.modTh {s : State} {f : Thread → Thread} (hf : ∀ th, (f th).loc = th.loc ∧ (f th).core = th.core ∧ (f th).chunks = th.chunks) :
    StillHeld s (s.modTh f) := by
  refine ⟨fun _ h => h, fun _ => rfl, fun p hp => ?_, rfl, fun _ => rfl⟩
  rcases mem_tabSet_keeps Thread.reset (a := s.cur) (f s.th) hp with h | h
  · exact ⟨p, h, rfl, rfl, rfl⟩
  · obtain ⟨h1, h2, h3⟩ := hf s.th
    refine ⟨_, mem_tabSet_self .., ?_⟩
    rw [h]
    exact ⟨h1, h2, h3⟩

theorem StillHeld.inject (s : State) (a c o b : Nat) : StillHeld s (s.inject a c o b) := by
  unfold State.inject
  dsimp only
  split
  · split
    · exact .refl s
    · refine StillHeld.trans (.modCore ?_) (.modTh ?_)
      · exact fun _ => rfl
      · exact fun _ => ⟨rfl, rfl, rfl⟩
  · exact .refl s

theorem StillHeld.asThread {s : State} {t : Nat} {f : State → State} (h : StillHeld { s with cur := t } (f { s with cur := t })) :
    StillHeld s (s.asThread t f) := ⟨h.active, h.copies, h.threads, h.invals, h.home⟩

theorem StillHeld.arrayWrites (s : State) (armed : Bool) (t : Nat) (bytes : Mem) : StillHeld s (Machine.arrayWrites s armed t bytes) := by
  unfold Machine.arrayWrites
  dsimp only
  refine StillHeld.trans ?_ (foldl_rel .refl .trans (fun u w => ?_) _ _)
  · exact ⟨fun _ h => h, fun _ => rfl, fun p h => ⟨p, h, rfl, rfl, rfl⟩, rfl, fun _ => rfl⟩
  split
  · split
    · exact (StillHeld.dropFlips ..).trans (.asThread (.inject ..))
    · exact .dropFlips ..
  · split
    · exact .asThread (.inject ..)
    · exact .refl u

theorem updateBytes_addresses (k : Core) (pa : Nat) (bs : List Byte) : (k.updateBytes pa bs).l1.map (·.1) = k.l1.map (·.1) := by
  simp only [Core.updateBytes, Core.freshCopies, List.map_map]
  rfl

theorem StillHeld.activeCores {s u : State} (h : StillHeld s u) {c : Nat} (hc : c ∈ s.activeCores) : c ∈ u.activeCores := by
  rw [State.activeCores, List.mem_eraseDups, List.mem_append] at hc ⊢
  refine hc.imp (h.active c) fun hr => ?_
  obtain ⟨p, hp, rfl⟩ := List.mem_map.1 hr
  obtain ⟨hp, hl⟩ := List.mem_filter.1 hp
  obtain ⟨q, hq, hql, hqc, -⟩ := h.threads p hp
  exact List.mem_map.2 ⟨q, List.mem_filter.2 ⟨hq, by rw [hql]; exact hl⟩, hqc⟩

theorem StillHeld.holdsLine {s u : State} (h : StillHeld s u) {c l : Nat} (hc : s.holdsLine c l = true) : u.holdsLine c l = true := by
  have hcopies : ((u.coreOf c).l1.any fun e => e.1 / 64 == l) = ((s.coreOf c).l1.any fun e => e.1 / 64 == l) := by
    have := congrArg (List.any · fun a => a / 64 == l) (h.copies c)
    simp only [List.any_map] at this
    exact this
  rw [State.holdsLine, Bool.or_eq_true] at hc ⊢
  refine hc.imp (fun h => hcopies.trans h) fun hch => ?_
  obtain ⟨k, hk, hin⟩ := List.any_eq_true.1 hch
  obtain ⟨p, hp, hkp⟩ := List.mem_flatMap.1 hk
  obtain ⟨hp, hpc⟩ := List.mem_filter.1 hp
  obtain ⟨q, hq, hql, hqc, hqch⟩ := h.threads p hp
  exact List.any_eq_true.2 ⟨k, List.mem_flatMap.2 ⟨q, List.mem_filter.2 ⟨hq, by rw [hql, hqc]; exact hpc⟩, by rw [hqch]; exact hkp⟩, hin⟩

/-! ## A store at its home (R94, R100, R141) -/

/-- The state of a store at its home before its invalidations are sent. -/
def storedAtHome (s : State) (src : Nat) (own : Option Nat) (pa : Nat) (bs : List Byte) : State :=
  match own with
  | some c => (arrayWrites { s with mem := memWrite s.mem pa bs } true src (layWrite [] pa bs)).modCore c fun k => k.updateBytes pa bs
  | none => arrayWrites { s with mem := memWrite s.mem pa bs } true src (layWrite [] pa bs)

theorem homeWrite_eq (s : State) (src : Nat) (own : Option Nat) (pa : Nat) (bs : List Byte) :
    homeWrite s src own pa bs = sendInvals (storedAtHome s src own pa bs) src own pa bs.length := by
  cases own <;> rfl

theorem storedAtHome_mem (s : State) (src : Nat) (own : Option Nat) (pa : Nat) (bs : List Byte) :
    (storedAtHome s src own pa bs).mem = memWrite s.mem pa bs := by
  have h := (Injected.arrayWrites { s with mem := memWrite s.mem pa bs } true src (layWrite [] pa bs)).mem
  cases own <;> exact h

theorem homeWrite_mem (s : State) (src : Nat) (own : Option Nat) (pa : Nat) (bs : List Byte) :
    (homeWrite s src own pa bs).mem = memWrite s.mem pa bs := by
  rw [homeWrite_eq]
  exact storedAtHome_mem ..

theorem storedAtHome_held (s : State) (src : Nat) (own : Option Nat) (pa : Nat) (bs : List Byte) : StillHeld s (storedAtHome s src own pa bs) := by
  have h : StillHeld s (arrayWrites { s with mem := memWrite s.mem pa bs } true src (layWrite [] pa bs)) := by
    obtain ⟨h1, h2, h3, h4, h5⟩ := StillHeld.arrayWrites { s with mem := memWrite s.mem pa bs } true src (layWrite [] pa bs)
    exact ⟨h1, h2, h3, h4, h5⟩
  cases own with
  | none => exact h
  | some c => exact h.trans (.modCore fun k => updateBytes_addresses k pa bs)

theorem homeWrite_invalidates {s : State} {src pa : Nat} {own : Option Nat} {bs : List Byte} {c : Nat} (hc : c ∈ s.activeCores) (hown : some c ≠ own)
    (hl : (spanLines pa bs.length).any (s.holdsLine c) = true) :
    (⟨c, pa, bs.length, src, s.homeOf pa⟩ : Inval) ∈ (homeWrite s src own pa bs).invals := by
  have hheld := storedAtHome_held s src own pa bs
  obtain ⟨l, hmem, hline⟩ := List.any_eq_true.1 hl
  rw [homeWrite_eq, ← hheld.home]
  refine List.mem_append_right _ (List.mem_map_of_mem (List.mem_filter.2 ⟨hheld.activeCores hc, ?_⟩))
  exact Bool.and_eq_true_iff.2 ⟨bne_iff_ne.2 hown, List.any_eq_true.2 ⟨l, hmem, hheld.holdsLine hline⟩⟩

theorem storeHome_plain {s : State} {t pa : Nat} {bs : List Byte} (ha : s.inAlias pa = false) :
    storeHome s t pa bs = homeWrite s t (if t = noThread then none else some (s.thr t).core) pa bs := by
  rw [storeHome, ha, if_neg Bool.false_ne_true]

/-! ## Reductions at their homes (R94, R95) -/

theorem homeTainted_clean {s : State} {pa : Nat} (h : (s.coreOf ((clusterCores (s.homeOf pa)).headD 0)).flips = []) : s.homeTainted pa = false := by
  rw [State.homeTainted, h]
  rfl

theorem applyReduction_settled {s : State} {t l pa n : Nat} {op : RedOp} {x : BitVec 128} (hf : s.isFar pa = false)
    (hs : settleArray s t pa = s) :
    applyReduction s t l op pa n x = if s.poison.contains (pa / 64) then logPoisoned s t pa else
      groupFlags (homeWrite s t none pa (leBytes n (reduceValue op n (leNat (memRead s.mem pa n)) x).1)) t l
        ((reduceValue op n (leNat (memRead s.mem pa n)) x).2.setWidth 7) := by
  rw [applyReduction]
  dsimp only
  rw [hf, if_neg Bool.false_ne_true, hs]

/-! ## Invalidations and removals (R88, R141) -/

theorem squashHit_none {s : State} {core : Nat} {skip : Option Nat} {hit : Chunk → Bool}
    (h : ∀ t, hit (s.thr t).chunk = false ∧ ∀ c, (s.thr t).older = some c → hit c = false) : squashHit s core skip hit = s := by
  refine foldl_unchanged _ s _ fun t _ => ?_
  obtain ⟨hchunk, holder⟩ := h t
  cases ho : (s.thr t).older with
  | none => simp only [ho, hchunk, Bool.false_eq_true, if_false]
  | some c => simp only [ho, hchunk, holder c ho, Bool.and_false, Bool.false_eq_true, if_false]

theorem invalidateAt_unread {s : State} {core pa n : Nat} (h : ∀ t, ∀ l ∈ spanLines pa n, lineMeets l (s.thr t).chunk = false ∧
    ∀ c, (s.thr t).older = some c → lineMeets l c = false) : invalidateAt s core pa n = s.modCore core (·.dropBytes pa n) :=
  squashHit_none (s := s.modCore core (·.dropBytes pa n)) fun t =>
    ⟨List.any_eq_false.2 fun l hl => by simp [show lineMeets l (s.thr t).chunk = false from (h t l hl).1],
      fun c hc => List.any_eq_false.2 fun l hl => by simp [(h t l hl).2 c hc]⟩

theorem dropTranslations_empties (s : State) (va id : Option Word) :
    (∀ p ∈ (dropTranslations s (va, id)).cores, ∀ e ∈ p.2.tlb, tlbHit va id e = false) ∧
    (∀ p ∈ (dropTranslations s (va, id)).ctlbs, ∀ e ∈ p.2, tlbHit va id e = false) ∧
    ∀ p ∈ (dropTranslations s (va, id)).walkers, ∀ e ∈ p.2, ptrHit va id e = false := by
  refine ⟨fun p hp e he => ?_, fun p hp e he => ?_, fun p hp e he => ?_⟩
  all_goals
    obtain ⟨q, -, rfl⟩ := List.mem_map.1 hp
    have := (List.mem_filter.1 he).2
    rwa [Bool.not_eq_true'] at this

/-- Settles O42. A store at its home sends its invalidations to every core that held a line of its span before it, as the
write of the arrays takes no copy away. The premises are met by `witness_homes`, `witness_home_effects`,
`witness_home_holder`, `witness_home_reduce`, `witness_invalidate` and `witness_grain`. -/
theorem actionsAtTheirHomes : Obligations.ActionsAtTheirHomes := by
  unfold Obligations.ActionsAtTheirHomes
  refine ⟨fun s k t l core c hk hfree hroom h8 h9 => ?_, fun s k t l core pa bs z hk hw => ?_, fun s t pa bs ha => ⟨?_, fun c hc hown hl _ => ?_⟩,
    fun s k t l core pa n op x hk hw hf => ⟨fun hb => ?_, fun hb => ?_⟩, fun s t l pa n op x hf hflips => ⟨fun hp => ?_, fun hp => ?_⟩,
    fun s k v hk hfirst hd => ?_, fun s core pa n h => ⟨invalidateAt_unread h, ?_⟩, fun s k t l core w hk hr => ?_,
    fun s k t va id hk => ⟨fun hg => ?_, fun hg => ?_⟩⟩
  · show execCommandInstall k s = _
    unfold execCommandInstall
    rw [hk]
    dsimp only
    rw [hfree, decide_eq_true hroom, h8, h9]
    simp [event]
  · show let u := storeHome (s.dropFlight k) t pa bs
      (aliasHeld s pa = false → execRelaxedStorePerform k s = .next
        (if z then { u with poison := u.poison.filter (· != pa / 64) } else u).drained) ∧
      (aliasHeld s pa = true → execRelaxedStorePerform k s = .next s)
    unfold execRelaxedStorePerform
    dsimp only
    rw [hk]
    dsimp only
    rw [hw]
    refine ⟨fun ha => ?_, fun ha => ?_⟩ <;> rw [ha] <;> rfl
  · rw [storeHome_plain ha, homeWrite_mem]
  · rw [storeHome_plain ha]
    refine homeWrite_invalidates (List.contains_iff_mem.1 hc) ?_ hl
    split
    · exact Option.some_ne_none c
    · next ht => exact fun h => (hown.resolve_left ht) (Option.some.inj h)
  · show execReductionApply k s = _
    unfold execReductionApply
    rw [hk]
    dsimp only
    rw [hw, hf, hb]
    rfl
  · show execReductionApply k s = _
    unfold execReductionApply
    rw [hk]
    dsimp only
    rw [hw, hf, hb]
    rfl
  · rw [applyReduction_settled hf (settleArray_sound (homeTainted_clean hflips)), hp, if_neg Bool.false_ne_true]
    exact homeWrite_mem s t none pa _
  · rw [applyReduction_settled hf (settleArray_sound (homeTainted_clean hflips)), hp, if_pos rfl]
    rfl
  · show execInvalidationApply k s = _
    unfold execInvalidationApply
    rw [hk]
    dsimp only
    rw [hfirst, hd]
    rfl
  · rw [invalidateAt_unread h, State.coreOf_modCore, if_pos rfl]
    rfl
  · show execReleaseComplete k s = _
    unfold execReleaseComplete
    rw [hk]
    dsimp only
    rw [hr]
    rfl
  · show execTlbinvComplete k s = _
    unfold execTlbinvComplete
    rw [hk]
    dsimp only
    rw [hg]
    rfl
  · refine ⟨dropTranslations { s with tlbinvs := s.tlbinvs.eraseIdx k } (va, id), ?_, rfl, rfl, rfl, dropTranslations_empties _ va id⟩
    show execTlbinvComplete k s = _
    unfold execTlbinvComplete
    rw [hk]
    dsimp only
    rw [hg]
    rfl

end Sys2Proof.Machine
end

section
/-!
PROOFS. Far requests (O43).
-/
namespace Sys2Proof.Machine

/-! ## A group at its device (R149) -/

/-- Memory after one part of a group. -/
def partMem (m : Mem) (p : FarPart) : Mem :=
  match p with
  | .plain b => b.foldl (fun m e => memSet m e.1 e.2) m
  | .store b => b.foldl (fun m e => memSet m e.1 e.2) m
  | .red op pa n x => memWrite m pa (leBytes n (reduceValue op n (leNat (memRead m pa n)) x).1)

theorem performPart_mem (t l : Nat) (s : State) (p : FarPart) : (performPart t l s p).mem = partMem s.mem p := by cases p <;> rfl

theorem performParts_mem (t l : Nat) (parts : List FarPart) (s : State) :
    (parts.foldl (performPart t l) s).mem = parts.foldl partMem s.mem := by
  induction parts generalizing s with
  | nil => rfl
  | cons p ps ih => exact (ih _).trans (by rw [performPart_mem]; rfl)

/-- The thread's core takes the new words of a list. -/
def takeWords (core : Nat) (ws : List Nat) (s : State) : State :=
  ws.foldl (fun (s : State) w => s.modCore core fun k => k.updateBytes (w * 4) (memRead s.mem (w * 4) 4)) s

theorem takeWords_mem (core : Nat) (ws : List Nat) (s : State) : (takeWords core ws s).mem = s.mem := by
  induction ws generalizing s with
  | nil => rfl
  | cons w ws ih => exact ih _

theorem performGroup_mem (s : State) (t l : Nat) (parts : List FarPart) : (performGroup s t l parts).mem = parts.foldl partMem s.mem :=
  (takeWords_mem ..).trans (performParts_mem ..)

theorem farStoreGroup_performs {s : State} {k t l core : Nat} {d : BitVec 11} {num : BitVec 32} {bs : List Host.Cell} {zs : List Nat}
    {parts : List FarPart} (hk : s.flights[k]? = some ⟨t, l, core, .farGroup d num bs zs parts⟩) (hfree : s.free_ k t = true)
    (hfirst : ((s.earlier k t).any fun f => match f.act with
      | .farGroup e _ _ _ _ => e == d
      | .reduce _ pa n _ => (Act.farGroup d num bs zs parts).meets pa n
      | _ => false) = false) (hp : (bs.any fun b => s.poison.contains (b.1 / 64) && !zs.contains (b.1 / 64)) = false) :
    exec (.farStoreGroup k) s = .next ({ markServed (performGroup s t l parts) t num with
      poison := (markServed (performGroup s t l parts) t num).poison.filter fun l => !zs.contains l }.dropFlight k).drained := by
  show execFarStoreGroup k s = _
  unfold execFarStoreGroup
  rw [hk]
  refine congrArg event (if_pos ?_)
  rw [Bool.and_eq_true, Bool.and_eq_true, hp]
  exact ⟨⟨hfree, congrArg (!·) hfirst⟩, rfl⟩

/-! ## Requests (R150) -/

section
variable {s : State} {k : Nat} {f : FarReq} (hk : s.far[k]? = some f)
include hk

section
variable (hs : f.served = false) (hp : s.poison.contains (f.pa / 64) = false)
include hs hp

theorem farServe_line (hkind : f.kind = .line) : exec (.farRequestServe k) s = .next (markServed s f.tid f.num) := by
  show execFarRequestServe k s = _
  unfold execFarRequestServe
  rw [hk]
  dsimp only
  rw [hs, hp, hkind]
  rfl

theorem farServe_release {irr : Bool} {j : Nat} {sc : Word} {bs : List Byte} (hkind : f.kind = .rel irr)
    (hj : relFlight s k f irr = some (j, sc, bs)) (hr : s.releaseReady j f.tid sc true = true) :
    exec (.farRequestServe k) s = .next (markServed ((dropEntry (performGroup s f.tid (s.thr f.tid).lid
      [.store (layWrite [] f.pa bs)]) j).dropFlight j) f.tid f.num).drained := by
  show execFarRequestServe k s = _
  unfold execFarRequestServe
  rw [hk]
  dsimp only
  rw [hs, hp, hkind]
  dsimp only
  rw [hj]
  exact congrArg event (if_pos hr)

theorem farServe_reduction {j t l pa n core : Nat} {op : RedOp} {x : BitVec 128} (hkind : f.kind = .red) (hj : redFlight s k f = some j)
    (hf : s.flights[j]? = some ⟨t, l, core, .reduce op pa n x⟩) (hw : writeReady s j t pa n = true) :
    exec (.farRequestServe k) s = .next (markServed ((applyReduction s t l op pa n x).dropFlight j) t f.num).drained := by
  show execFarRequestServe k s = _
  unfold execFarRequestServe
  rw [hk]
  dsimp only
  rw [hs, hp, hkind]
  dsimp only
  rw [hj]
  dsimp only
  rw [hf]
  exact congrArg event (if_pos hw)

end

theorem farAck_waits (h : f.served = false ∨ (f.kind = .line ∧ s.invalWaits (s.thr f.tid).core f.pa = true)) :
    exec (.farAck k) s = .next s := by
  show execFarAck k s = _
  unfold execFarAck
  rw [hk]
  refine congrArg event (if_pos ?_)
  rcases h with h | ⟨h, h'⟩
  · rw [h]; rfl
  · rw [h, h', beq_self_eq_true, Bool.and_self, Bool.or_true]

theorem farAck_line (hs : f.served = true) (hkind : f.kind = .line) (hi : s.invalWaits (s.thr f.tid).core f.pa = false) :
    exec (.farAck k) s = .next ((s.dropFar k).fillLine ((s.dropFar k).thr f.tid).core f.pa) := by
  show execFarAck k s = _
  unfold execFarAck
  rw [hk]
  dsimp only
  rw [hs, hkind, hi]
  rfl

theorem farAck_leaves (hs : f.served = true) (hkind : f.kind = .group ∨ f.kind = .red ∨ f.kind = .rel false) :
    exec (.farAck k) s = .next (s.dropFar k) := by
  show execFarAck k s = _
  unfold execFarAck
  rw [hk]
  dsimp only
  rw [hs]
  rcases hkind with h | h | h <;> rw [h] <;> rfl

end

/-- Settles O43. The premises are met by `witness_far` and `witness_far_red`. -/
theorem farRequests : Obligations.FarRequests := by
  unfold Obligations.FarRequests
  refine ⟨fun s k t l core d num bs zs parts hk hfree hfirst hp => ⟨?_, farStoreGroup_performs hk hfree hfirst hp⟩,
    fun s k f hk => ⟨fun hs hp => farServe_line hk hs hp, fun hs => farAck_waits hk (.inl hs), fun irr j sc bs hs hp => farServe_release hk hs hp,
      fun hs => farAck_leaves hk hs, fun j t l op pa n x hs hp => farServe_reduction hk hs hp,
      fun _ hl hi => farAck_waits hk (.inr ⟨hl, hi⟩), fun hs => farAck_line hk hs⟩,
    fun s k => ⟨rfl, rfl, rfl⟩, fun s pa b bs hf hlen hd hi => congrArg event (if_neg ?_)⟩
  · refine (performGroup_mem s t l parts).trans ?_
    congr 1
  · rw [hf, hd, hi, decide_eq_false (Nat.not_lt.2 hlen)]
    exact Bool.false_ne_true

end Sys2Proof.Machine
end

section
/-!
PROOFS. Barriers, and reservation queues with their waiters (O44).
-/
namespace Sys2Proof.Machine

/-! ## Barriers (R80, R358) -/

theorem barrierArrival_arrives {s : State} {k t l core : Nat} {w : Word} {d : Reg} (hk : s.flights[k]? = some ⟨t, l, core, .arrive w d⟩)
    (hr : s.releaseReady k t w false = true) : exec (.barrierArrival k) s = .next (arriveBar (s.dropFlight k) t w d).drained := by
  show execBarrierArrival k s = _
  unfold execBarrierArrival
  rw [hk]
  exact congrArg event (if_pos hr)

theorem barrierArrival_elsewhere {s : State} {k : Nat} {b : Barrier} (hk : s.flights[k]? = none)
    (hb : s.barriers[k - s.flights.length]? = some b) (he : b.elsewhere = true) (hn : b.ended = none) :
    exec (.barrierArrival k) s = .next (settleBarriers { s with barriers := s.barriers.map fun (c : Barrier) =>
      if c = b then { b with elsewhere := false } else c }) := by
  show execBarrierArrival k s = _
  unfold execBarrierArrival
  rw [hk]
  dsimp only
  rw [hb]
  exact congrArg event (if_pos (by rw [he, hn]; rfl))

theorem barrierTimeout_ends {s : State} {k : Nat} {b : Barrier} (hb : s.barriers[k]? = some b) (hn : b.ended = none) (ha : b.arrived ≠ [])
    (habsent : absentOf s b ≠ [] ∨ b.elsewhere = true)
    (hproxy : ((absentOf s b).any fun t => (s.thr t).loc != .slot && (s.coreOf (s.thr t).core).proxy) = false) :
    exec (.barrierTimeout k) s = .next (endBarrier (timeoutStatus s b).1 b (timeoutStatus s b).2) := by
  have hopen : ((absentOf s b).isEmpty && !b.elsewhere) = false := by
    rcases habsent with h | h
    · rw [List.isEmpty_eq_false_iff.2 h, Bool.false_and]
    · rw [h, Bool.not_true, Bool.and_false]
  show execBarrierTimeout k s = _
  unfold execBarrierTimeout
  rw [hb]
  dsimp only
  rw [hn, hopen, List.isEmpty_eq_false_iff.2 ha, hproxy]
  rfl

theorem timeoutStatus_own {s : State} {b : Barrier} {t : Nat} (he : b.elsewhere = false) (ht : firstAbsent s b = some t) :
    (timeoutStatus s b).2 = absentWord s.reg.devnum.toNat (s.thr t).lindex := by
  unfold timeoutStatus
  dsimp only
  rw [ht, he, if_neg Bool.false_ne_true]
  simp [Nat.mod_one]

/-! ## Reservations (R96 to R98) -/

theorem grantTimeout_requeues {s : State} {k t pa n : Nat} {d : Reg} {pc va : Word} {r : Reservation} (hk : s.reserved[k]? = some r)
    (hh : r.holder = some t) (hs : r.started = false) (hw : (s.thr t).status = .wait (.reservation pa n d pc va)) (hpa : r.pa = pa) :
    exec (.grantTimeout k) s = .next (enterQueue (freeWord s t pa) t pa n d) := by
  show execGrantTimeout k s = _
  unfold execGrantTimeout
  rw [hk]
  dsimp only
  rw [hh, hs]
  dsimp only
  rw [hw]
  exact congrArg event (if_pos hpa.symm)

/-- A change of a thread that leaves its place, its launch and its registers leaves who is its partner. -/
theorem partner_modThr {s : State} {t : Nat} {f : Thread → Thread} (hcore : (f (s.thr t)).core = (s.thr t).core)
    (hslot : (f (s.thr t)).slot = (s.thr t).slot) (hlid : (f (s.thr t)).lid = (s.thr t).lid) (hregs : (f (s.thr t)).regs = (s.thr t).regs) :
    (s.modThr t f).partner t = s.partner t := by
  let other := if (s.thr t).slot < 8 then (s.thr t).slot + 8 else (s.thr t).slot - 8
  have hother : (s.thr t).slot ≠ other := by
    simp only [other]
    split <;> omega
  have hfind := find_tabSet (fun p : Nat × Thread => p.2.loc == .slot && p.2.core == (s.thr t).core && p.2.slot == other) s.threads t
    Thread.reset (f (s.thr t)) (Bool.and_eq_false_iff.2 (.inr (beq_eq_false_iff_ne.2 (hslot ▸ hother))))
    (Bool.and_eq_false_iff.2 (.inr (beq_eq_false_iff_ne.2 hother)))
  have hin : (s.modThr t f).inSlot (s.thr t).core other = s.inSlot (s.thr t).core other :=
    congrArg (Option.map (fun p : Nat × Thread => p.1)) hfind
  have hthr : ∀ u, ((s.modThr t f).thr u).lid = (s.thr u).lid ∧ ((s.modThr t f).thr u).regs = (s.thr u).regs := fun u => by
    rw [State.modThr_eq, State.thr_setThr]
    split
    · next hu => subst hu; exact ⟨hlid, hregs⟩
    · exact ⟨rfl, rfl⟩
  have hself : (s.modThr t f).thr t = f (s.thr t) := by rw [State.modThr_eq, State.thr_setThr_same]
  unfold State.partner
  dsimp only
  rw [hself, hcore, hslot, hin]
  cases s.inSlot (s.thr t).core other with
  | none => rfl
  | some u =>
    dsimp only
    split
    · rw [hregs, (hthr u).1, hlid]
    · rw [(hthr u).2, (hthr u).1, hlid]

theorem waitswapExpiry_swaps {s : State} {t pa n : Nat} {d : Reg} {pc va : Word} (hl : (s.thr t).loc = .slot)
    (hw : (s.thr t).status = .wait (.reservation pa n d pc va)) (hr : (s.reserved.any fun r => r.pa == pa && r.holder == some t) = false)
    (ho : (s.thr t).older = none) (hc : (s.thr t).chunk.count = 0) (hn : (s.thr t).regs.csr.waitswap ≠ 0) (hp : s.partner t = none) :
    exec (.waitswapExpiry t) s = .next (toTcc (s.modThr t fun th => { th with swapped := true }) t false) := by
  have hpartner : (s.modThr t fun th => { th with swapped := true }).partner t = none := (partner_modThr rfl rfl rfl rfl).trans hp
  show execWaitswapExpiry t s = _
  unfold execWaitswapExpiry
  simp only [hl, hw, hr, ho, hc, hpartner, bne_iff_ne.2 hn, Option.isNone_none, beq_self_eq_true, Bool.not_false, Bool.and_self, if_true, event]

theorem enterQueue_grants {s : State} {t pa n : Nat} {d : Reg} (hr : (s.reserved.find? fun r => r.pa == pa) = none)
    (hf : (s.coreOf ((clusterCores (s.homeOf pa)).headD 0)).flips = []) : (enterQueue s t pa n d).reserved = s.reserved ++
      [{ pa := pa, holder := some t, started := false, size := n, value := leNat (memRead s.mem pa n), waiters := [] }] := by
  unfold enterQueue
  rw [hr]
  dsimp only
  rw [show s.readWord (some t) pa = s from settleArray_sound (homeTainted_clean hf)]

/-- Settles O44. The premises are met by `witness_barriers`. -/
theorem barriersAndReservations : Obligations.BarriersAndReservations := by
  unfold Obligations.BarriersAndReservations
  refine ⟨fun s k t l core w d => barrierArrival_arrives, fun s k b hb hn ha hab hp => ⟨barrierTimeout_ends hb hn ha hab hp,
      fun t => timeoutStatus_own⟩, fun s k b => barrierArrival_elsewhere, fun s k t l core pa n d hk hfree => ?_,
    fun s k t l core pa hk hfree => ?_, fun s k t pa n d hk => ?_, fun s k t pa n d pc va r => grantTimeout_requeues,
    fun s t pa n d pc va => waitswapExpiry_swaps, fun s t pa n d => enterQueue_grants⟩
  · show execReservationRequest k s = _
    unfold execReservationRequest
    rw [hk]
    exact congrArg event (if_pos hfree)
  · show execReservationHandover k s = _
    unfold execReservationHandover
    rw [hk]
    exact congrArg event (if_pos hfree)
  · show execReservationResend k s = _
    unfold execReservationResend
    rw [hk]
    rfl

end Sys2Proof.Machine
end

section
/-!
PROOFS. Messages on their way, rollbacks, GVT and waits for a ring (O45).
-/
namespace Sys2Proof.Machine

/-! ## Arrivals (R250 to R252, R268, R270) -/

section
variable {s : State} {k t l core u : Nat} {dst : Position} {m : Msg} (hk : s.flights[k]? = some ⟨t, l, core, .message dst m⟩)
include hk

section
variable (hp : m.anti = false)
include hp

theorem messageArrival_places (hd : dst.dev = s.reg.devnum) (hu : receiver s (s.launchOf l).launchkey dst = some u)
    (ha : arrives s k t dst m (some u) = true) : exec (.messageArrival k) s = .next
      (if straggles ((acknowledge (s.dropFlight k) t m).thr u) m then
        askRollback (placeMessage (acknowledge (s.dropFlight k) t m) u m) u m.key
      else placeMessage (acknowledge (s.dropFlight k) t m) u m).drained := by
  show execMessageArrival k s = _
  unfold execMessageArrival
  rw [hk]
  dsimp only
  rw [hp, if_neg Bool.false_ne_true, if_neg (Classical.not_not.2 hd), hu, ha]
  rfl

theorem messageArrival_leaves (hd : dst.dev ≠ s.reg.devnum) (ha : arrives s k t dst m none = true) :
    exec (.messageArrival k) s = .next (acknowledge (s.dropFlight k) t m).drained := by
  show execMessageArrival k s = _
  unfold execMessageArrival
  rw [hk]
  dsimp only
  rw [hp, if_neg Bool.false_ne_true, if_pos hd, ha]
  rfl

theorem messageArrival_drops (hd : dst.dev = s.reg.devnum) (hu : receiver s (s.launchOf l).launchkey dst = none)
    (ha : arrives s k t dst m none = true) :
    exec (.messageArrival k) s = .next (dropPacket (acknowledge (s.dropFlight k) t m) dst.core 1 m.low m.vrt).drained := by
  show execMessageArrival k s = _
  unfold execMessageArrival
  rw [hk]
  dsimp only
  rw [hp, if_neg Bool.false_ne_true, if_neg (Classical.not_not.2 hd), hu, ha]
  rfl

end

variable (hp : m.anti = true) (hd : dst.dev = s.reg.devnum) (hu : receiver s (s.launchOf l).launchkey dst = some u)
  (ha : arrives s k t dst m (some u) = true)
include hp hd hu ha

theorem antiMessageArrival_eq : exec (.antiMessageArrival k) s = event
    (match (((s.dropFlight k).thr u).recvq.filter fun p => m.twin p).getLast? with
      | none => (dropPacket (s.dropFlight k) dst.core 1 m.low m.vrt).drained
      | some p =>
        if p.processed then (askRollback (placeMessage (s.dropFlight k) u m) u m.key).drained
        else ((placeMessage (s.dropFlight k) u m).modThr u fun th =>
          { th with recvq := dropMates th.recvq (s.thr u).arrivals.toNat p.ordinal.toNat }).drained) := by
  show execAntiMessageArrival k s = _
  unfold execAntiMessageArrival
  rw [hk]
  dsimp only
  rw [hp, if_neg (by decide), if_neg (Classical.not_not.2 hd), hu, ha]
  rfl

end

theorem dropMates_leaves {q : List Msg} {a p : Word} {x : Msg} (hx : x ∈ dropMates q a.toNat p.toNat) : x.ordinal ≠ a ∧ x.ordinal ≠ p := by
  have h := (List.mem_filter.1 hx).2
  rw [Bool.and_eq_true, bne_iff_ne, bne_iff_ne] at h
  exact ⟨fun he => h.1 (by rw [he]), fun he => h.2 (by rw [he])⟩

theorem spillRingDrain_moves {s : State} {t : Nat} {c : BitVec 2} {m : Msg} (hh : (s.thr t).atHome = true)
    (hq : queueCount (s.thr t) < Config.recvEntries) (hm : (s.thr t).recvq.find? (fun m => m.ring && m.ch == c) = some m)
    (hp : s.poison.contains (s.ringEntry t m / 64) = false) (hp' : s.poison.contains (s.ringEntry t m / 64 + 1) = false) :
    exec (.spillRingDrain t c) s = .next (s.modThr t (·.mapMsgs fun k =>
      if k.ordinal == m.ordinal then { k with ring := false, place := 0, payload := s.msgPayload t m } else k)) := by
  show execSpillRingDrain t c s = _
  unfold execSpillRingDrain
  dsimp only
  rw [hh, decide_eq_true hq, hm]
  dsimp only
  rw [hp, hp']
  rfl

/-! ## Rollbacks and GVT (R267 to R273) -/

theorem rollback_runs {s : State} {t : Nat} {ks : BitVec 128} (hk : (s.thr t).ks = some ks) (hr : rollbackReady (s.thr t) = true)
    (hh : (s.coreOf (s.thr t).core).halted = false) : exec (.rollback t) s = .next (rollBack
      (if (s.thr t).older.isSome || (s.thr t).chunk.count != 0 then squash s t true 3 else s) t ks) := by
  show execRollback t s = _
  unfold execRollback
  dsimp only
  rw [hk]
  dsimp only
  rw [hr, hh]
  rfl

theorem farGvt_gvts (s : State) : (farGvt s).1.gvts = s.gvts := by
  unfold farGvt
  split <;> rfl

theorem farGvt_alone {s : State} (h : s.peers = []) : farGvt s = (s, 2 ^ 64 - 1) := by
  rw [farGvt, h]
  rfl

/-- The value that a group publishes, given its part on other devices. -/
def newGvt (s : State) (key : Word) (far : State × Nat) : Nat :=
  Nat.max (tabGet (0 : Word) s.gvts key.toNat).toNat (Nat.min far.2 (gvtOf far.1 key))

/-- The state with a group's value published. -/
def withGvt (s : State) (key : Word) (g : Nat) : State := { s with gvts := tabSet s.gvts key.toNat (BitVec.ofNat 64 g) }

/-- The group's resident threads collect their fossils. -/
def collectGroup (s : State) (key : Word) (g : Nat) : State :=
  ((groupOf s key).filter fun p => p.2.loc == .slot).foldl (fun s p => fossilCollect s p.1 g) s

theorem gvtPublish_publishes {s : State} {key : Word} (hp : s.paused = false) (hg : groupOf s key ≠ []) :
    exec (.gvtPublish key) s = .next
      (collectGroup (withGvt (farGvt s).1 key (newGvt s key (farGvt s))) key (newGvt s key (farGvt s))) := by
  have hgvts := farGvt_gvts s
  show execGvtPublish key s = _
  unfold execGvtPublish
  rw [hp, List.isEmpty_eq_false_iff.2 hg, Bool.or_self, if_neg Bool.false_ne_true]
  generalize farGvt s = f at hgvts
  obtain ⟨v, far⟩ := f
  rw [newGvt, ← hgvts]
  rfl

theorem ringWaitTimeout_traps {s : State} {t : Nat} {field : Word} (hs : (s.thr t).status = .retry (.ring field)) (hl : (s.thr t).loc = .slot)
    (ho : (s.thr t).older = none) (hh : (s.coreOf (s.thr t).core).halted = false) :
    exec (.ringWaitTimeout t) s = .next (s.asThread t fun u => takeTrap u 55 ((s.thr t).regs.opt.desc + field)) := by
  have hin : (s.thr t).isOut = false := by rw [Thread.isOut, hl]; rfl
  show execRingWaitTimeout t s = _
  unfold execRingWaitTimeout
  dsimp only
  rw [hs]
  dsimp only
  rw [hin, hl, hh, ho]
  rfl

/-- Settles O45. The premises are met by `witness_messages` and `witness_rollback`. -/
theorem messageEvents : Obligations.MessageEvents := by
  unfold Obligations.MessageEvents
  refine ⟨⟨fun s k t l core u dst m hk hd hu ha => ⟨fun hp => messageArrival_places hk hp hd hu ha, fun q hp hq => ?_, fun hp hq => ?_⟩,
    fun s k t l core dst m hk hp ha => ⟨fun hd => messageArrival_leaves hk hp hd ha, fun hd hu => messageArrival_drops hk hp hd hu ha⟩,
    fun s k t hk => ?_, fun s t c m => spillRingDrain_moves⟩, fun s t ks => rollback_runs, fun s key hp hg => ?_,
    fun s t field => ringWaitTimeout_traps⟩
  · refine ⟨fun hpr => ?_, fun hpr => ⟨?_, fun x hx => ?_⟩⟩
    · rw [antiMessageArrival_eq hk hp hd hu ha, hq]
      exact congrArg event (if_pos hpr)
    · rw [antiMessageArrival_eq hk hp hd hu ha, hq]
      exact congrArg event (if_neg (by rw [hpr]; exact Bool.false_ne_true))
    · have hq : x ∈ dropMates ((placeMessage (s.dropFlight k) u m).thr u).recvq (s.thr u).arrivals.toNat q.ordinal.toNat := by
        rw [State.modThr_eq, State.thr_setThr_same] at hx
        exact hx
      exact dropMates_leaves hq
  · rw [antiMessageArrival_eq hk hp hd hu ha, hq]
    rfl
  · show execMessageAck k s = _
    unfold execMessageAck
    rw [hk]
    rfl
  · exact ⟨farGvt_alone, by rw [gvtPublish_publishes hp hg, withGvt, newGvt, farGvt_gvts]; rfl⟩

end Sys2Proof.Machine
end

section
/-!
PROOFS. Steals, decrements, quiescence and refills of node caches (O46).
-/
namespace Sys2Proof.Machine

/-! ## Steals (R40, R286, R307) -/

theorem reg_ne_succ (d : Reg) : d ≠ d + 1 := by bv_omega

theorem startTask_thread (s : State) (t : Nat) (d : Reg) (e : KEntry) :
    ((startTask s t d e).thr t).regs.getX d = (if d = 0 then 0 else if d + 1 = d then e.w1 else e.w0) ∧
    ((startTask s t d e).thr t).regs.getX (d + 1) = (if d + 1 = 0 then 0 else e.w1) ∧ ((startTask s t d e).thr t).status = .ready ∧
    ((startTask s t d e).thr t).retired = (s.thr t).retired := by
  have hregs : ((startTask s t d e).thr t).regs.x = (((s.thr t).regs.putX d e.w0).putX (d + 1) e.w1).x ∧
      ((startTask s t d e).thr t).status = .ready ∧ ((startTask s t d e).thr t).retired = (s.thr t).retired := by
    simp only [startTask, State.sealStart, State.modThr_eq, State.thr_setThr_same, and_self]
  obtain ⟨hx, hst, hret⟩ := hregs
  have hget : ∀ r, ((startTask s t d e).thr t).regs.getX r = (((s.thr t).regs.putX d e.w0).putX (d + 1) e.w1).getX r := fun r => by
    simp only [Regs.getX, hx]
  refine ⟨?_, ?_, hst, hret⟩
  · rw [hget, getX_putX, if_neg (reg_ne_succ d), getX_putX, if_pos rfl, if_neg (reg_ne_succ d).symm]
  · rw [hget, getX_putX, if_pos rfl]

section
variable {s : State} {t : Nat} {d : Reg}

theorem steal_held (h : s.begins t = false) : exec (.steal t) s = .next s := congrArg event (if_pos (by rw [h]; rfl))

variable (hb : s.begins t = true)
include hb

theorem steal_take (hw : (s.thr t).status = .wait (.take d)) : exec (.steal t) s = .next
    (match obtain { s with cur := t } false with | some (s', e) => startTask { s' with cur := s.cur } t d e | none => s) := by
  show execSteal t s = _
  unfold execSteal
  dsimp only
  rw [hb, hw]
  rfl

theorem steal_pop (hw : (s.thr t).status = .retry (.ixpop d)) : exec (.steal t) s = event
    (if (s.thr t).chunk.count = 0 then popPair s t d else s) := by
  show execSteal t s = _
  unfold execSteal
  dsimp only
  rw [hb, hw]
  rfl

end

/-- A pair that is obtained at the start of a chunk begins its rewrite, and IXPOP completes. -/
theorem finish_rewrite {s r : State} (h0 : r.th.regs.csr.loopC0.getLsbD 0 = false) (h1 : r.th.regs.csr.loopC1.getLsbD 0 = false)
    (hc : r.th.chunk.count = 0) (hw : r.th.chunk.rewrite = true) (hf : Fits (completed r (s.pc + 4) .ready)) :
    finish s r .seq = completed r (s.pc + 4) .ready := by
  have hret : retire r s.pc .seq = completed r (s.pc + 4) .ready := by simp [retire, loopRule_off h0 h1, completed, endWait, After.next]
  have hcode : endCode (completed r (s.pc + 4) .ready) .seq = 0 := endCode_rewrite (by rw [completed_chunk]; exact hw) nofun
  have hshort : decide (16384 ≤ (completed r (s.pc + 4) .ready).th.chunk.count) = false := by rw [completed_chunk, hc]; rfl
  obtain ⟨hu, hl⟩ := hf
  unfold finish finishFrom
  simp only [loopReads_off h0 h1, firstPending, List.find?_nil, hret, hshort, hu, hl, hcode, Bool.and_false, Bool.false_eq_true, if_false,
    Bool.not_true, if_true]

theorem startRewrite_marks (s : State) (d : Reg) (e : KEntry) : (startRewrite s d e).th.chunk.rewrite = true := by
  simp only [startRewrite, State.modChunk_eq, State.th_setThr_cur]

theorem popPair_pops {s s1 : State} {t : Nat} {d : Reg} {e : KEntry} (ho : obtain { s with cur := t } true = some (s1, e))
    (h0 : (startRewrite s1 d e).th.regs.csr.loopC0.getLsbD 0 = false) (h1 : (startRewrite s1 d e).th.regs.csr.loopC1.getLsbD 0 = false)
    (hc : (startRewrite s1 d e).th.chunk.count = 0) (hr : (startRewrite s1 d e).th.retired = (s.thr t).retired)
    (hcur : (startRewrite s1 d e).cur = t) (hf : Fits (completed (startRewrite s1 d e) ((s.thr t).regs.pc + 4) .ready)) :
    popPair s t d = countEvent { completed (startRewrite s1 d e) ((s.thr t).regs.pc + 4) .ready with cur := s.cur } t 2 1 := by
  have hfin : finish { s with cur := t } (startRewrite s1 d e) .seq = completed (startRewrite s1 d e) ((s.thr t).regs.pc + 4) .ready :=
    finish_rewrite (s := { s with cur := t }) h0 h1 hc (startRewrite_marks ..) hf
  have hret : (({ completed (startRewrite s1 d e) ((s.thr t).regs.pc + 4) .ready with cur := s.cur } : State).thr t).retired
      = (s.thr t).retired + 1 := by
    rw [completed_eq, hcur, ← hr]
    exact congrArg Thread.retired (State.thr_setThr_same ..)
  unfold popPair State.asThread
  dsimp only
  rw [ho]
  dsimp only
  rw [hfin]
  exact if_neg (by rw [hret]; omega)

theorem popPair_none {s : State} {t : Nat} {d : Reg} (ho : obtain { s with cur := t } true = none) : popPair s t d = s := by
  unfold popPair State.asThread
  dsimp only
  rw [ho]
  exact if_pos rfl

/-! ## Decrements (R310) -/

theorem taskDecrement_applies {s : State} {k t l core : Nat} {h : Word} (hk : s.flights[k]? = some ⟨t, l, core, .decrement h⟩)
    (hfree : s.free_ k t = true) : exec (.taskDecrement k) s = .next (decrement (s.dropFlight k) l h).drained := by
  show execTaskDecrement k s = _
  unfold execTaskDecrement
  rw [hk]
  exact congrArg event (if_pos hfree)

theorem decrement_eq {s : State} {l home i pa n st : Nat} {h : Word} (hh : handleOf s l h = some (home, i)) (hpa : taskEntry s l home i = pa)
    (hn : taskCount s pa = n) (hst : taskState s pa = st) (hs : s.spoiled.contains pa = false) : decrement s l h =
    if st = 0 ∨ n = 0 then dropPacket s home 2 h 0
    else
      let u := s.quietWrite (pa + 16) (leBytes 4 (n - 1))
      if n = 1 ∧ st = 1 then
        ((u.modCore home fun c => { c with kreserved := tabSet c.kreserved l (tabGet 0 c.kreserved l - 1) }).pushEntry home l
          ⟨false, u.dword pa, u.dword (pa + 8), none, none, false, 0⟩).quietWrite (pa + 20) [0]
      else u := by
  have hread : readEntry s pa = (st, n, s) := by rw [readEntry, hs, if_neg Bool.false_ne_true, hn, hst]
  unfold decrement
  rw [hh]
  dsimp only
  rw [hpa, hread]
  rfl

/-! ## Quiescence (R286, R307) -/

/-- Steps over a table that each change only their own thread, and no core: what one does at its turn. -/
theorem foldl_thr {f : State → Nat × Thread → State} {l : List (Nat × Thread)} {n : Nat} (hl : Rises n l)
    (hf : ∀ s, ∀ p ∈ l, (f s p).cores = s.cores ∧ ∀ v, v ≠ p.1 → (f s p).thr v = s.thr v) (s : State) :
    (∀ v, v < n → (l.foldl f s).thr v = s.thr v) ∧
    ∀ p ∈ l, ∃ u, u.thr p.1 = s.thr p.1 ∧ u.cores = s.cores ∧ (l.foldl f s).thr p.1 = (f u p).thr p.1 := by
  induction l generalizing n s with
  | nil => exact ⟨fun _ _ => rfl, fun _ h => absurd h List.not_mem_nil⟩
  | cons q l ih =>
    obtain ⟨k, th⟩ := q
    obtain ⟨hn, hl⟩ := hl
    obtain ⟨hcores, hother⟩ := hf s (k, th) List.mem_cons_self
    obtain ⟨hrest, hin⟩ := ih hl (fun s p hp => hf s p (List.mem_cons_of_mem _ hp)) (f s (k, th))
    have hbelow : ∀ v, v < k → v < k + 1 ∧ v ≠ k := fun v hv => ⟨Nat.lt_succ_of_lt hv, Nat.ne_of_lt hv⟩
    refine ⟨fun v hv => ?_, fun p hp => ?_⟩
    · obtain ⟨h1, h2⟩ := hbelow v (Nat.lt_of_lt_of_le hv hn)
      exact (hrest v h1).trans (hother v h2)
    · rcases List.mem_cons.1 hp with rfl | hp
      · exact ⟨s, rfl, rfl, hrest k (Nat.lt_succ_self k)⟩
      · obtain ⟨u, hu, hc, hv⟩ := hin p hp
        exact ⟨u, hu.trans (hother p.1 (Nat.ne_of_gt (hl.le_of_mem p hp))), hc.trans hcores, hv⟩

/-- Zeros for a waiting TAKE, as its chunk's first effect. -/
theorem giveZeros_eq (s : State) (t : Nat) (d : Reg) : countRetired s (giveZeros s t d false) t =
    (startTask s t d (kennelRecord false 0 0 none)).modThr t fun th => { th with chunk := { th.chunk with redo := none } } := by
  obtain ⟨-, -, -, hret⟩ := startTask_thread s t d (kennelRecord false 0 0 none)
  have hgive : giveZeros s t d false =
      (startTask s t d (kennelRecord false 0 0 none)).modThr t fun th => { th with chunk := { th.chunk with redo := none } } :=
    if_neg Bool.false_ne_true
  rw [countRetired, hgive]
  refine if_pos ?_
  rw [State.modThr_eq, State.thr_setThr_same]
  exact hret

theorem returnZeros_take {p : Nat × Thread} {d : Reg} (hp : p.2.status = .wait (.take d)) (s : State) : returnZeros s p =
    if s.begins p.1 then
      (startTask s p.1 d (kennelRecord false 0 0 none)).modThr p.1 fun th => { th with chunk := { th.chunk with redo := none } }
    else s.modThr p.1 fun th => { th with status := .wait (.zeros d false), runnable := th.loc != .slot } := by
  rw [← giveZeros_eq]
  unfold returnZeros
  rw [hp]

theorem startTask_other (s : State) (t : Nat) (d : Reg) (e : KEntry) {v : Nat} (hv : v ≠ t) : (startTask s t d e).thr v = s.thr v := by
  simp only [startTask, State.sealStart, State.modThr_eq, State.thr_setThr_other _ _ hv]

theorem returnZeros_other {p : Nat × Thread} {d : Reg} (hp : p.2.status = .wait (.take d)) (s : State) : (returnZeros s p).mem = s.mem ∧
    (returnZeros s p).cores = s.cores ∧ ∀ v, v ≠ p.1 → (returnZeros s p).thr v = s.thr v := by
  rw [returnZeros_take hp]
  split
  · exact ⟨rfl, rfl, fun v hv => by rw [State.modThr_eq, State.thr_setThr_other _ _ hv, startTask_other _ _ _ _ hv]⟩
  · exact ⟨rfl, rfl, fun v hv => by rw [State.modThr_eq, State.thr_setThr_other _ _ hv]⟩

theorem returnZeros_self {p : Nat × Thread} {d : Reg} (hp : p.2.status = .wait (.take d)) (s : State) :
    (s.begins p.1 = true → ((returnZeros s p).thr p.1).regs.getX d = 0 ∧ ((returnZeros s p).thr p.1).regs.getX (d + 1) = 0 ∧
      ((returnZeros s p).thr p.1).status = .ready) ∧
    (s.begins p.1 = false → ((returnZeros s p).thr p.1).status = .wait (.zeros d false)) := by
  rw [returnZeros_take hp]
  refine ⟨fun h => ?_, fun h => ?_⟩
  · obtain ⟨hd, hd', hst, -⟩ := startTask_thread s p.1 d (kennelRecord false 0 0 none)
    rw [h, if_pos rfl, State.modThr_eq, State.thr_setThr_same]
    refine ⟨hd.trans ?_, hd'.trans ?_, hst⟩
    · simp only [kennelRecord, ite_self]
    · simp only [kennelRecord, ite_self]
  · rw [h, if_neg Bool.false_ne_true, State.modThr_eq, State.thr_setThr_same]

theorem begins_congr {s u : State} {t : Nat} (ht : u.thr t = s.thr t) (hc : u.cores = s.cores) : u.begins t = s.begins t := by
  rw [State.begins, ht, State.coreOf, hc]
  rfl

theorem launchQuiescent_returns {s : State} {l : Nat} (hq : quiescent s l = true) :
    exec (.launchQuiescent l) s = .next ((s.members l).foldl returnZeros s) := congrArg event (if_pos hq)

theorem returnZeros_all {s : State} {l : Nat} (hk : keysRise s.threads = true) (hm : ∀ p ∈ s.members l, ∃ d, p.2.status = .wait (.take d)) :
    ((s.members l).foldl returnZeros s).mem = s.mem ∧ ∀ p ∈ s.members l, ∀ d, p.2.status = .wait (.take d) →
      (s.begins p.1 = true → (((s.members l).foldl returnZeros s).thr p.1).regs.getX d = 0 ∧
        (((s.members l).foldl returnZeros s).thr p.1).regs.getX (d + 1) = 0 ∧ (((s.members l).foldl returnZeros s).thr p.1).status = .ready) ∧
      (s.begins p.1 = false → (((s.members l).foldl returnZeros s).thr p.1).status = .wait (.zeros d false)) := by
  refine ⟨?_, fun p hp d hd => ?_⟩
  · have hmem : ∀ (ps : List (Nat × Thread)), (∀ p ∈ ps, ∃ d, p.2.status = .wait (.take d)) → ∀ u, (ps.foldl returnZeros u).mem = u.mem := by
      intro ps
      induction ps with
      | nil => exact fun _ _ => rfl
      | cons p ps ih =>
        intro h u
        obtain ⟨d, hd⟩ := h p List.mem_cons_self
        exact (ih (fun q hq => h q (List.mem_cons_of_mem _ hq)) _).trans (returnZeros_other hd u).1
    exact hmem _ hm s
  · obtain ⟨-, hin⟩ := foldl_thr (f := returnZeros) ((keysRise_iff.1 hk).filter _)
      (fun u q hq => (hm q hq).elim fun d hd => (returnZeros_other hd u).2) s
    obtain ⟨u, hu, hc, hv⟩ := hin p hp
    rw [show ((s.members l).foldl returnZeros s).thr p.1 = _ from hv, ← begins_congr hu hc]
    exact returnZeros_self hd u

/-! ## Refills (R293) -/

theorem tabGet_map {α : Type} (g : α → α) (d : α) (l : List (Nat × α)) (a : Nat) :
    tabGet (g d) (l.map fun q => (q.1, g q.2)) a = g (tabGet d l a) := by
  induction l with
  | nil => rfl
  | cons e l ih =>
    simp only [List.map_cons, tabGet, ih]
    split <;> rfl

theorem coreOf_quietWrite (s : State) (pa : Nat) (bs : List Byte) (c : Nat) :
    (s.quietWrite pa bs).coreOf c = (s.coreOf c).keepCopies (outsideWords pa bs.length) :=
  tabGet_map (fun k : Core => k.keepCopies (outsideWords pa bs.length)) Core.reset s.cores c

/-- The pool's counter after a refill that takes fresh nodes. -/
def takeFresh (s : State) (p : Pool) (fresh : Nat) : State :=
  if fresh = 0 then s else s.quietWrite (p.pa + 16) (leBytes 8 (p.next + fresh))

theorem takeFresh_fields (s : State) (p : Pool) (fresh c : Nat) : ((takeFresh s p fresh).coreOf c).caches = (s.coreOf c).caches ∧
    ((takeFresh s p fresh).coreOf c).stacked = (s.coreOf c).stacked ∧ (takeFresh s p fresh).threads = s.threads ∧
    (0 < fresh → (takeFresh s p fresh).mem = memWrite s.mem (p.pa + 16) (leBytes 8 (p.next + fresh))) ∧
    (fresh = 0 → (takeFresh s p fresh).mem = s.mem) := by
  unfold takeFresh
  split
  · next h => exact ⟨rfl, rfl, rfl, fun h' => absurd h (by omega), fun _ => rfl⟩
  · next h => exact ⟨by rw [coreOf_quietWrite]; rfl, by rw [coreOf_quietWrite]; rfl, rfl, fun _ => rfl, fun h' => absurd h' h⟩

/-- A core with nodes added to a launch's cache, and its spill stack of a height. -/
def Core.withNodes (l : Nat) (ns : List Word) (height : Nat) (k : Core) : Core :=
  { k with caches := tabSet k.caches l (tabGet [] k.caches l ++ ns), stacked := tabSet k.stacked l height }

/-- The threads that wait for the refill go on. -/
def wakeRefilled (s : State) (core l : Nat) : State :=
  { s with threads := s.threads.map fun (q : Nat × Thread) =>
      (q.1, if q.2.placeCore == core && q.2.lid == l && q.2.status == .retry .refill then { q.2 with status := .ready } else q.2) }

/-- A thread that a refill lets go on. -/
def afterRefill (core l : Nat) (q : Nat × Thread) : Thread :=
  if q.2.placeCore == core && q.2.lid == l && q.2.status == .retry .refill then { q.2 with status := .ready } else q.2

theorem refilled_fields {s u : State} {p : Pool} {fresh core l height : Nat} {ns : List Word}
    (hu : u = wakeRefilled ((takeFresh s p fresh).modCore core (Core.withNodes l ns height)) core l) :
    tabGet [] (u.coreOf core).caches l = tabGet [] (s.coreOf core).caches l ++ ns ∧ tabGet 0 (u.coreOf core).stacked l = height ∧
    u.threads = s.threads.map (fun q => (q.1, afterRefill core l q)) ∧
    (0 < fresh → u.mem = memWrite s.mem (p.pa + 16) (leBytes 8 (p.next + fresh))) ∧ (fresh = 0 → u.mem = s.mem) := by
  obtain ⟨hcaches, -, hthreads, hmem, hsame⟩ := takeFresh_fields s p fresh core
  have hcore : u.coreOf core = Core.withNodes l ns height ((takeFresh s p fresh).coreOf core) := by
    rw [hu]
    exact (State.coreOf_modCore ..).trans (if_pos rfl)
  refine ⟨?_, ?_, ?_, fun h => ?_, fun h => ?_⟩
  · rw [hcore, Core.withNodes, hcaches, tabGet_tabSet_same]
  · rw [hcore, Core.withNodes, tabGet_tabSet_same]
  · rw [hu, ← hthreads]; rfl
  · rw [hu]; exact hmem h
  · rw [hu]; exact hsame h

section
variable {s s1 : State} {pa : Nat} {lp : Bool} {p : Pool} {addr : Nat → Nat}

/-- The nodes that a refill takes from the spill stack, and how many fresh ones. -/
def popCount (s : State) : Nat := Nat.min 32 (tabGet 0 (s.coreOf s.th.placeCore).stacked s.th.lid)
def freshCount (s : State) (p : Pool) : Nat := Nat.min (32 - popCount s) (p.count - p.next)

theorem refillCache_eq (hp : translateTh s .load s.th.regs.csr.ixpool.toNat = .ok (s1, pa, lp)) (hpool : poolAt s pa = some p)
    (hstack : ∀ i, i < popCount s → ∃ s2 q, translateTh s .load (stackEntry p (s.launchOf s.th.lid).rect s.th.placeCore
      (tabGet 0 (s.coreOf s.th.placeCore).stacked s.th.lid - popCount s + i)) = .ok (s2, addr i, q)) :
    refillCache s = wakeRefilled ((takeFresh s p (freshCount s p)).modCore s.th.placeCore (Core.withNodes s.th.lid
      ((List.range (popCount s)).map (fun i => s.dword (addr i)) ++
        (List.range (freshCount s p)).map fun i => p.base + BitVec.ofNat 64 (64 * (p.next + i))).reverse
      (tabGet 0 (s.coreOf s.th.placeCore).stacked s.th.lid - popCount s))) s.th.placeCore s.th.lid := by
  have hpopped : (List.range (popCount s)).map (fun i => s.dword (addr i)) = (List.range (popCount s)).map fun i =>
      match (match translateTh s .load (stackEntry p (s.launchOf s.th.lid).rect s.th.placeCore
        (tabGet 0 (s.coreOf s.th.placeCore).stacked s.th.lid - popCount s + i)) with | .ok (_, pa, _) => some pa | .error _ => none) with
      | some a => s.dword a
      | none => 0 := List.map_congr_left fun i hi => by
    obtain ⟨s2, q, h⟩ := hstack i (List.mem_range.1 hi)
    rw [h]
  rw [hpopped]
  unfold refillCache
  dsimp only
  rw [hp]
  dsimp only
  rw [hpool]
  rfl

end

theorem nodeCacheRefill_fields {s s1 : State} {core l t pa : Nat} {lp : Bool} {th : Thread} {p : Pool} {addr : Nat → Nat}
    (hk : keysRise s.threads = true)
    (hfind : s.threads.find? (fun p => p.2.placeCore == core && p.2.lid == l && p.2.status == .retry .refill) = some (t, th))
    (hth : s.thr t = th) (hcore : th.placeCore = core) (hlid : th.lid = l)
    (htr : translateTh { s with cur := t } .load th.regs.csr.ixpool.toNat = .ok (s1, pa, lp)) (hpool : poolAt s pa = some p) :
    let held := tabGet 0 (s.coreOf core).stacked l
    let n := Nat.min 32 held
    let fresh := Nat.min (32 - n) (p.count - p.next)
    (∀ i, i < n → ∃ s2 q, translateTh { s with cur := t } .load (stackEntry p (s.launchOf l).rect core (held - n + i)) =
      .ok (s2, addr i, q)) →
    ∃ u, exec (.nodeCacheRefill core l) s = .next u ∧
      tabGet [] (u.coreOf core).caches l = tabGet [] (s.coreOf core).caches l ++ ((List.range n).map (fun i => s.dword (addr i)) ++
        (List.range fresh).map fun i => p.base + BitVec.ofNat 64 (64 * (p.next + i))).reverse ∧
      tabGet 0 (u.coreOf core).stacked l = held - n ∧
      (0 < fresh → u.mem = memWrite s.mem (p.pa + 16) (leBytes 8 (p.next + fresh))) ∧ (fresh = 0 → u.mem = s.mem) ∧
      (u.thr t).status = .ready := by
  intro held n fresh hstack
  subst hth hcore hlid
  have hin : (t, s.thr t) ∈ s.threads := List.mem_of_find?_eq_some hfind
  have hwait := List.find?_some hfind
  obtain ⟨hcaches, hstacked, hthreads, hmem, hsame⟩ := refilled_fields (refillCache_eq (s := { s with cur := t }) htr hpool hstack)
  refine ⟨s.asThread t refillCache, ?_, hcaches, hstacked, hmem, hsame, ?_⟩
  · show execNodeCacheRefill _ _ s = _
    unfold execNodeCacheRefill
    rw [hfind]
    rfl
  · exact congrArg Thread.status ((thr_map (t := s.asThread t refillCache) hk hin hthreads).trans (if_pos hwait))

/-- Settles O46. The members of a quiescent launch get their zeros one after the other, each in its own thread, and no step
changes whether a later one can begin. The premises are met by `witness_take`, `witness_decrement`, `witness_quiescent` and
`witness_refill`. -/
theorem taskOperations : Obligations.TaskOperations := by
  unfold Obligations.TaskOperations
  refine ⟨fun s t => steal_held, fun s s1 t d e hb => ⟨fun hw ho => ?_, fun hw ho => ?_, fun hw hc ho => ?_, fun hw ho => ?_⟩,
    fun s k t l core home i h hk hfree hh => ?_, fun s l hk hq hm => ⟨_, launchQuiescent_returns hq, returnZeros_all hk hm⟩,
    fun s l => launchQuiescent_returns, ?_⟩
  · obtain ⟨h1, h2, h3, -⟩ := startTask_thread { s1 with cur := s.cur } t d e
    refine ⟨_, ?_, h1, h2, h3, rfl⟩
    rw [steal_take hb hw, ho]
  · rw [steal_take hb hw, ho]
  · intro r h0 h1 hcount hret hcur hf
    rw [steal_pop hb hw, if_pos hc, popPair_pops ho h0 h1 hcount hret hcur hf]
    rfl
  · rw [steal_pop hb hw, popPair_none ho, ite_self]
    rfl
  · intro pa n st hs u
    rw [taskDecrement_applies hk hfree, decrement_eq (s := s.dropFlight k) (pa := pa) (n := n) (st := st) hh rfl rfl rfl hs]
    refine ⟨fun hst hn => ?_, fun hst hn => ?_, fun hst hn => ?_, fun hst => ?_⟩
    · rw [if_neg (by omega), if_neg (by omega)]
    · rw [if_neg (by omega), if_neg (by omega)]
    · rw [if_neg (by omega), if_pos ⟨hn, hst⟩]
    · rw [if_pos hst]
  · intro s s1 core l t pa lp th p addr hk hfind htr hpool held n fresh hstack
    have hth : s.thr t = th := tabGet_of_mem _ (keysRise_iff.1 hk) (List.mem_of_find?_eq_some hfind)
    have hwait := List.find?_some hfind
    obtain ⟨⟨hcore, hlid⟩, hst⟩ : (th.placeCore = core ∧ th.lid = l) ∧ th.status = .retry .refill := by
      simpa only [Bool.and_eq_true, beq_iff_eq] using hwait
    exact nodeCacheRefill_fields hk hfind hth hcore hlid htr hpool hstack

end Sys2Proof.Machine
end

section
/-!
PROOFS. The heads of the matrix and copy queues (O47).
-/
namespace Sys2Proof.Machine

/-! ## Heads that start (R216) -/

theorem readyHead_some {s s1 : State} {core e kind : Nat} {c : Command} (h : readyHead s core e kind = some (s1, c)) :
    headOf s core e = some c ∧ c.kind = kind ∧ c.state = .waiting := by
  unfold readyHead at h
  cases hc : headOf s core e with
  | none => rw [hc] at h; cases h
  | some d =>
    rw [hc] at h
    dsimp only at h
    split at h
    · next hd => cases h; exact ⟨rfl, hd.1, hd.2.1⟩
    · cases h

theorem serveHead_starts {s s1 : State} {core e kind : Nat} {c : Command} {f : State → Command → State} (hs : canStart s1 c = true)
    (h : readyHead s core e kind = some (s1, c)) : serveHead s core e kind f = f (started s1 c) c := by
  obtain ⟨hhead, hkind, hstate⟩ := readyHead_some h
  rw [serveHead, hhead]
  dsimp only
  rw [if_neg (Classical.not_not.2 hkind), if_pos hstate, startHead, h]
  exact if_pos hs

theorem serveHead_runs {s : State} {core e kind : Nat} {c : Command} {f : State → Command → State} (hc : headOf s core e = some c)
    (hk : c.kind = kind) (hr : c.state = .running) (hh : engineHalted s c = false) : serveHead s core e kind f = f s c := by
  rw [serveHead, hc]
  dsimp only
  rw [if_neg (Classical.not_not.2 hk), hr, if_neg (by decide), hh, if_neg Bool.false_ne_true]

/-! ## Beats (R225) -/

/-- The step of an ACCZ for block i from the first one. -/
def acczStep (c : Command) (i : Nat) : Step :=
  { touches := [⟨0, .buf c.core .cb ((bits c.w3 3 0 + i) * 16384), 16384, true⟩], together := false
    run := fun a => (zeroRange a.1 c.core .cb ((bits c.w3 3 0 + i) * 16384) 16384, a.2) }

theorem acczBeats_getD {c : Command} {i : Nat} (h : i < bits c.w3 7 4 + 1 - bits c.w3 3 0) : (acczBeats c).getD i [] = [acczStep c i] := by
  have hbeats : acczBeats c = ((List.range (bits c.w3 7 4 + 1 - bits c.w3 3 0)).map (acczStep c)).map fun p => [p] := rfl
  rw [hbeats, List.getD_eq_getElem?_getD, List.getElem?_map, List.getElem?_map, List.getElem?_range h]
  rfl

/-- A beat whose accesses are all sound. -/
theorem runCommand_beat {x : State} {c : Command} {all rest : List (List Step)} {b : List Step} (hd : all.drop c.progress = b :: rest)
    (hcls : c.cls ≠ 8) (hp : x.paused = false) (hw : beatWaits x c b = false) (hpages : beatPages x c b = c.held)
    (hs : soundSteps (settleTouches x c (b.flatMap (·.touches))) c (b ++ rest.flatten) = (b ++ rest.flatten, none)) :
    let r := b.foldl (fun (a : State × Stat) p => p.run a) (settleTouches x c (b.flatMap (·.touches)), Stat.none_)
    runCommand x c all = if rest.isEmpty then finishCommand (keepTouches r.1 c b) c.id r.2 none
      else (keepTouches r.1 c b).modCmd c.id fun c => { c.gather r.2 with progress := c.progress + 1 } := by
  intro r
  have htake : (b ++ rest.flatten).take b.length = b := List.take_left ..
  rw [runCommand, runBeat, hd]
  dsimp only
  rw [if_neg fun h => hcls h.1, hp, Bool.false_and, if_neg Bool.false_ne_true, hw, if_neg Bool.false_ne_true, if_neg (Classical.not_not.2 hpages), hs]
  dsimp only
  simp only [htake, Nat.lt_irrefl, if_false]
  rfl

theorem matrixCommand_badMeta {x : State} {c : Command} {d : Nat} (hp : c.progress = 0) (hs : c.mat.sparse = true)
    (hf : (metaStep c c.mat).findSome? (stepFault x c) = none) (hb : metaBad x c c.mat = some d) :
    matrixCommand x c = finishCommand x c.id Stat.none_ (some (7, BitVec.ofNat 64 d)) := by
  rw [matrixCommand, hp, hs, hf, hb]
  rfl

/-! ## The copy engine's turn (R216) -/

/-- The round-robin pointer of a core's cluster stands at the core. -/
def turned (core : Nat) (v : State) : State :=
  { v with copyPtr := tabSet v.copyPtr (clusterOf core) ((clusterCores (clusterOf core)).idxOf core) }

section
variable {s s1 : State} {core kind : Nat} {c : Command} {f : State → Command → State}

theorem copyTurn_ready (ht : copyTurn s (clusterOf core) = some core) : copyReady s core = true := List.find?_some ht

theorem serveCopy_serves (hs : canStart s1 c = true) (ht : copyTurn s (clusterOf core) = some core)
    (h : readyHead s core 1 kind = some (s1, c)) : serveCopy s core kind f = turned core (f (started s1 c) c) := by
  obtain ⟨hhead, hkind, -⟩ := readyHead_some h
  rw [serveCopy]
  dsimp only
  rw [hhead, if_pos (show (some c).any (fun c => c.kind == kind) = true from beq_iff_eq.2 hkind), copyTurn_ready ht, if_pos rfl, if_pos ht, serveHead_starts hs h]
  rfl

theorem serveCopy_otherTurn {other : Nat} (ht : copyTurn s (clusterOf core) = some core) (hne : other ≠ core)
    (hk : clusterOf other = clusterOf core) (hr : copyReady s other = true) : serveCopy s other kind f = s := by
  have hturn : copyTurn s (clusterOf other) ≠ some other := by
    rw [hk, ht]
    exact fun h => hne (Option.some.inj h).symm
  rw [serveCopy]
  dsimp only
  rw [if_pos hr, if_neg hturn, ite_self]

theorem serveCopy_none (h : headOf s core 1 = none) : serveCopy s core kind f = s := by
  rw [serveCopy]
  dsimp only
  rw [h]
  rfl

end

/-- Settles O47. A head that can start is served in the state with its start; the beat is `runBeat`'s, whose steps are all made
where none faults. The premises are met by `witness_matrix`, `witness_running`, `witness_metadata` and `witness_copies`. -/
theorem matrixAndCopyCommands : Obligations.MatrixAndCopyCommands := by
  unfold Obligations.MatrixAndCopyCommands
  refine ⟨fun s s1 core c hs => ⟨fun h => congrArg event (serveHead_starts hs h), fun h => congrArg event (serveHead_starts hs h),
    fun h => congrArg event (serveHead_starts hs h), fun h => congrArg event (serveHead_starts hs h),
    fun h => congrArg event (serveHead_starts hs h), fun h => congrArg event (serveHead_starts hs h),
    fun hc hr hh => ⟨fun hk => congrArg event (serveHead_runs hc hk hr hh), fun hk => congrArg event (serveHead_runs hc hk hr hh)⟩,
    fun i hi hlo p hp a => ?_, ?_, fun x d => matrixCommand_badMeta⟩, fun s s1 core c hs => ?_⟩
  · rw [acczBeats_getD (by omega), List.mem_singleton] at hp
    rw [hp]
    rfl
  · intro x all rest b hd hcls hp hw hpages y hsound r z
    have hbeat := runCommand_beat hd hcls hp hw hpages hsound
    refine ⟨fun hn => hbeat.trans (if_pos ?_), fun hn => hbeat.trans (if_neg ?_)⟩
    · rw [hn]; rfl
    · rw [List.isEmpty_iff]; exact hn
  · intro u turn ht
    refine ⟨fun h => congrArg event (serveCopy_serves hs ht h), fun h => congrArg event (serveCopy_serves hs ht h),
      fun h => congrArg event (serveCopy_serves hs ht h), fun h => congrArg event (serveCopy_serves hs ht h),
      fun h => congrArg event (serveCopy_serves hs ht h), fun other hne hk hr => ⟨congrArg event (serveCopy_otherTurn ht hne hk hr),
        congrArg event (serveCopy_otherTurn ht hne hk hr)⟩, fun h => congrArg event (serveCopy_none h)⟩

end Sys2Proof.Machine
end

section
/-!
PROOFS. Memory's canonical form: what the functions of the model keep (O60).
-/
set_option Elab.async false
namespace Sys2Proof.Machine

/-- Memory stands in its canonical form (log 1). -/
def Canonical (s : State) : Prop := Memory.wf s.mem = true

theorem Canonical.same {s t : State} (h : Canonical s) (e : t.mem = s.mem := by rfl) : Canonical t := by rw [Canonical, e]; exact h

theorem Canonical.write {s t : State} (h : Canonical s) {a : Nat} {bs : List Byte} (e : t.mem = memWrite s.mem a bs := by rfl) : Canonical t := by
  rw [Canonical, e]; exact memWrite_wf h a bs

theorem memSets_wf {m : Mem} (h : Memory.wf m = true) (l : List Host.Cell) :
    Memory.wf (l.foldl (fun (m : Mem) e => memSet m e.1 e.2) m) = true :=
  List.foldlRecOn l _ (motive := fun m => Memory.wf m = true) h fun _ hm e _ => memSet_wf hm e.1 e.2

theorem Memory.wf_filter {m : Mem} (h : Memory.wf m = true) (f : Host.Cell → Bool) : Memory.wf (m.filter f) = true := by
  obtain ⟨hrise, hbytes⟩ := Memory.wf_iff.1 h
  exact Memory.wf_iff.2 ⟨hrise.filter f, fun c hc => hbytes c (List.mem_filter.1 hc).1⟩

theorem Canonical.cells {s t : State} (h : Canonical s) {l : List Host.Cell}
    (e : t.mem = l.foldl (fun (m : Mem) e => memSet m e.1 e.2) s.mem := by rfl) : Canonical t := by
  rw [Canonical, e]; exact memSets_wf h l

theorem Canonical.cleared {s t : State} (h : Canonical s) {f : Host.Cell → Bool} (e : t.mem = s.mem.filter f := by rfl) : Canonical t := by
  rw [Canonical, e]; exact Memory.wf_filter h f

theorem Canonical.snd {α : Type} {p : α × State} {a : α} {s : State} (h : Canonical p.2) (e : p = (a, s)) : Canonical s := by
  cases e; exact h

theorem Canonical.third {α β : Type} {p : α × β × State} {a : α} {b : β} {s : State} (h : Canonical p.2.2) (e : p = (a, b, s)) :
    Canonical s := by
  cases e; exact h

theorem Canonical.fst {α : Type} {p : State × α} {a : α} {s : State} (h : Canonical p.1) (e : p = (s, a)) : Canonical s := by
  cases e; exact h

theorem Canonical.foldl {α : Type} {s : State} (h : Canonical s) {f : State → α → State} (hf : ∀ s a, Canonical s → Canonical (f s a))
    (l : List α) : Canonical (l.foldl f s) := List.foldlRecOn l f h fun s hs a _ => hf s a hs

theorem Canonical.foldl_fst {α β : Type} {r : State × β} (h : Canonical r.1) {f : State × β → α → State × β}
    (hf : ∀ r a, Canonical r.1 → Canonical (f r a).1) (l : List α) : Canonical (l.foldl f r).1 :=
  List.foldlRecOn l f (motive := fun r => Canonical r.1) h fun r hr a _ => hf r a hr

theorem Canonical.asThread {s : State} (h : Canonical s) (t : Nat) {f : State → State} (hf : ∀ s, Canonical s → Canonical (f s)) :
    Canonical (s.asThread t f) := (hf { s with cur := t } h.same).same

/-- A stop whose state, where it carries one, keeps memory canonical. -/
def Stop.Canonical : Stop → Prop
  | .leave s => Machine.Canonical s
  | .squash s _ => Machine.Canonical s
  | .settle s _ => Machine.Canonical s
  | _ => True

/-- A result that meets a property, or a stop that keeps memory canonical. -/
def Holds {α : Type} (P : α → Prop) : Except Stop α → Prop
  | .ok a => P a
  | .error e => e.Canonical

/-- An answer, where there is one, that meets a property. -/
def Gives {α : Type} (P : α → Prop) : Option α → Prop
  | .some a => P a
  | .none => True

theorem Gives.none {α : Type} {P : α → Prop} : Gives P Option.none := trivial

theorem Gives.some {α : Type} {P : α → Prop} {o : Option α} {a : α} (h : Gives P o) (e : o = some a) : P a := by
  cases e; exact h

theorem Gives.state {α : Type} {o : Option (State × α)} {s : State} {a : α} (h : Gives (fun a => Canonical a.1) o)
    (e : o = Option.some (s, a)) : Canonical s := by
  cases e; exact h

theorem Gives.of {α : Type} {P : α → Prop} {a : α} (h : P a) : Gives P (Option.some a) := h

theorem Gives.map {α β : Type} {P : β → Prop} {o : Option α} {f : α → β} (h : ∀ a, P (f a)) : Gives P (o.map f) := by
  cases o with
  | some a => exact h a
  | none => trivial

theorem Gives.findSome {α β : Type} {P : β → Prop} {f : α → Option β} (h : ∀ a, Gives P (f a)) (l : List α) : Gives P (l.findSome? f) := by
  cases he : l.findSome? f with
  | none => trivial
  | some b =>
    obtain ⟨a, -, ha⟩ := List.exists_of_findSome?_eq_some he
    exact (h a).some ha

/-- A result, where there is one, that meets a property. -/
def Gets {ε α : Type} (P : α → Prop) : Except ε α → Prop
  | .ok a => P a
  | .error _ => True

theorem Gets.ok {ε α : Type} {P : α → Prop} {r : Except ε α} {a : α} (h : Gets P r) (e : r = .ok a) : P a := by
  cases e; exact h

/-- A result with a state that keeps memory canonical. -/
abbrev Keeps {α : Type} : Except Stop (State × α) → Prop := Holds fun a => Canonical a.1

theorem Holds.bind {α β : Type} {P : α → Prop} {Q : β → Prop} {r : Except Stop α} {k : α → Except Stop β} (h : Holds P r)
    (hk : ∀ a, P a → Holds Q (k a)) : Holds Q (r >>= k) := by
  cases r with
  | ok a => exact hk a h
  | error e => exact h

theorem Holds.of {α : Type} {P : α → Prop} {a : α} (h : P a) : Holds P (.ok a) := h

theorem Holds.foldlM {α β : Type} {P : β → Prop} {f : β → α → Except Stop β} {b : β} (h : P b) (hf : ∀ b a, P b → Holds P (f b a))
    (l : List α) : Holds P (l.foldlM f b) := by
  induction l generalizing b with
  | nil => exact h
  | cons a l ih => exact Holds.bind (hf b a h) fun _ => ih

theorem Holds.ok {α : Type} {P : α → Prop} {r : Except Stop α} {a : α} (h : Holds P r) (e : r = .ok a) : P a := by
  cases e; exact h

theorem Holds.state {α : Type} {r : Except Stop (State × α)} {s : State} {a : α} (h : Holds (fun a => Canonical a.1) r)
    (e : r = .ok (s, a)) : Canonical s := by
  cases e; exact h

theorem Holds.error {α : Type} {P : α → Prop} {r : Except Stop α} {e : Stop} (h : Holds P r) (he : r = .error e) : e.Canonical := by
  cases he; exact h

/-- An outcome whose next state keeps memory canonical. -/
def KeepsOut : Out → Prop
  | .next s => Canonical s
  | _ => True

theorem Canonical.event {s : State} (h : Canonical s) : KeepsOut (event s) := h

theorem Canonical.blockEvent {s t : State} (h : Canonical s) (ht : Canonical t) : KeepsOut (blockEvent s t) := by
  show Canonical (if s.reg.phase = 15 then s else t)
  split
  · exact h
  · exact ht

/-- A step of a command that keeps memory canonical. -/
def Step.Canonical (p : Step) : Prop := ∀ a, Machine.Canonical a.1 → Machine.Canonical (p.run a).1

theorem Canonical.foldl_run {r : State × Stat} (h : Canonical r.1) : ∀ {ps : List Step}, (∀ p ∈ ps, p.Canonical) →
    Canonical (ps.foldl (fun (a : State × Stat) p => p.run a) r).1
  | [], _ => h
  | p :: _, hps => foldl_run (hps p (.head _) r h) fun q hq => hps q (.tail _ hq)

theorem soundSteps_subset (s : State) (c : Command) (ps : List Step) : (soundSteps s c ps).1 ⊆ ps := by
  unfold soundSteps
  split
  · exact fun _ hp => hp
  · exact fun _ hp => List.takeWhile_subset _ hp

theorem mem_single {ps b : List Step} (hb : b ∈ single ps) : b ⊆ ps := by
  obtain ⟨p, hp, rfl⟩ := List.mem_map.1 hb
  exact fun q hq => List.mem_singleton.1 hq ▸ hp

theorem KeepsOut.next {o : Out} {s : State} (h : KeepsOut o) (e : o = .next s) : Canonical s := by
  cases e; exact h

/-- What a thread's turn begins with, its state canonical. -/
def Issue.Canonical : Issue → Prop
  | .idle s => Machine.Canonical s
  | .run _ s => Machine.Canonical s

theorem Issue.Canonical.idle {i : Issue} {s : State} (h : i.Canonical) (e : i = .idle s) : Machine.Canonical s := by
  cases e; exact h

theorem Issue.Canonical.run {i : Issue} {j : Instr} {s : State} (h : i.Canonical) (e : i = .run j s) : Machine.Canonical s := by
  cases e; exact h

end Sys2Proof.Machine
end

section
/-!
PROOFS. Memory's canonical form: the state and its threads (O60).
-/
set_option Elab.async false
namespace Sys2Proof.Machine

theorem Canonical.setThr {s : State} (h : Canonical s) (t : Nat) (th : Thread) : Canonical (s.setThr t th) := h.same

theorem Canonical.modThr {s : State} (h : Canonical s) (t : Nat) (f : Thread → Thread) : Canonical (s.modThr t f) := h.same

theorem Canonical.modTh {s : State} (h : Canonical s) (f : Thread → Thread) : Canonical (s.modTh f) := h.same

theorem Canonical.modRegs {s : State} (h : Canonical s) (f : Regs → Regs) : Canonical (s.modRegs f) := h.same

theorem Canonical.modChunk {s : State} (h : Canonical s) (f : Chunk → Chunk) : Canonical (s.modChunk f) := h.same

theorem Canonical.modCore {s : State} (h : Canonical s) (c : Nat) (f : Core → Core) : Canonical (s.modCore c f) := h.same

theorem Canonical.modLaunch {s : State} (h : Canonical s) (l : Nat) (f : Launch → Launch) : Canonical (s.modLaunch l f) := h.same

theorem Canonical.modQueue {s : State} (h : Canonical s) (q : Nat) (f : Queue → Queue) : Canonical (s.modQueue q f) := h.same

theorem Canonical.modRegion {s : State} (h : Canonical s) (r : Nat) (f : Region → Region) : Canonical (s.modRegion r f) := h.same

theorem Canonical.modColl {s : State} (h : Canonical s) (k : Nat) (f : Collective → Collective) :
    Canonical (s.modColl k f) := h.same

theorem Canonical.modDebug {s : State} (h : Canonical s) (k : Nat) (f : Debug → Debug) : Canonical (s.modDebug k f) := h.same

theorem Canonical.quietWrite {s : State} (h : Canonical s) (pa : Nat) (bs : List Byte) : Canonical (s.quietWrite pa bs) := h.write

theorem Canonical.fresh {s : State} (h : Canonical s) : Canonical s.fresh.2 := h.same

theorem Canonical.freshList (n : Nat) : ∀ {s : State}, Canonical s → Canonical (s.freshList n).2 := by
  induction n with
  | zero => exact id
  | succ n ih => exact fun h => ih h.fresh

theorem Canonical.putPacket {s : State} (h : Canonical s) (bs : List Byte) : Canonical (Machine.putPacket s bs) := h.write

theorem Canonical.emitAt {s : State} (h : Canonical s) (time slot cluster slice kind : Nat) (ws : List Word) :
    Canonical (Machine.emitAt s time slot cluster slice kind ws) := by
  unfold Machine.emitAt
  split
  · exact h
  · split
    · exact h.putPacket ..
    · split
      · exact h.same
      · exact h.same

theorem Canonical.emitThread {s : State} (h : Canonical s) (t kind : Nat) (ws : List Word) :
    Canonical (Machine.emitThread s t kind ws) := h.emitAt ..

theorem Canonical.emitCore {s : State} (h : Canonical s) (core : Option Nat) (kind : Nat) (ws : List Word) :
    Canonical (Machine.emitCore s core kind ws) := by
  unfold Machine.emitCore
  split
  · exact h.emitAt ..
  · exact h.emitAt ..

theorem Canonical.flushLog {s : State} (h : Canonical s) (t : Nat) : Canonical (Machine.flushLog s t) := by
  unfold Machine.flushLog
  extract_lets _ s1
  have h1 : Canonical s1 := h.emitAt ..
  split
  · exact h
  · exact h1.modThr ..

theorem Canonical.flushCommits {s : State} (h : Canonical s) (t : Nat) : Canonical (Machine.flushCommits s t) := by
  unfold Machine.flushCommits
  extract_lets
  split
  · exact h
  · exact (h.emitThread ..).modThr ..

theorem Canonical.addCommit {s : State} (h : Canonical s) (t : Nat) (ws : List Word) : Canonical (Machine.addCommit s t ws) := by
  unfold Machine.addCommit
  extract_lets
  split
  · exact h.modThr ..
  · exact (h.emitThread ..).modThr ..

theorem Canonical.addRecord {s : State} (h : Canonical s) (t code detail arg : Nat) :
    Canonical (Machine.addRecord s t code detail arg) := by
  unfold Machine.addRecord
  extract_lets s1 _ _ _ s2
  have h1 : Canonical s1 := by
    dsimp only [s1]
    split
    · exact h.flushLog ..
    · exact h
  have h2 : Canonical s2 := h1.modThr ..
  split
  · exact h2.flushLog ..
  · exact h2

theorem Canonical.countEvent {s : State} (h : Canonical s) (t ev n : Nat) : Canonical (Machine.countEvent s t ev n) := by
  unfold Machine.countEvent
  dsimp only
  split
  · exact h.modThr ..
  · exact h

theorem Canonical.capture {s : State} (h : Canonical s) (k : UndoKey) : Canonical (s.capture k) := h.same

theorem Canonical.setX {s : State} (h : Canonical s) (n : Reg) (w : Word) : Canonical (s.setX n w) := by
  unfold State.setX
  split
  · exact h
  · exact (h.capture ..).modRegs ..

theorem Canonical.setG {s : State} (h : Canonical s) (n : BitVec 3) (w : GReg) : Canonical (s.setG n w) := h.same

theorem Canonical.markPending {s : State} (h : Canonical s) (n : RegName) : Canonical (s.markPending n) := h.same

theorem Canonical.setLong {s : State} (h : Canonical s) (cls : ResClass) (v : RegVal) (far : Option Nat) :
    Canonical (s.setLong cls v far) := by
  unfold State.setLong
  split
  · exact (h.markPending ..).modTh ..
  · exact h

theorem Canonical.enterVec {s : State} (h : Canonical s) (cls : ResClass) (v : Option RegVal) : Canonical (s.enterVec cls v) := by
  unfold State.enterVec
  extract_lets v1 s1
  clear_value v1
  have h1 : Canonical s1 := by
    dsimp only [s1]
    split
    · exact h.markPending ..
    · exact h
  exact h1.modTh ..

theorem Canonical.setCsr {s : State} (h : Canonical s) (n : BitVec 12) (f : Csrs → Csrs) : Canonical (s.setCsr n f) := h.same

theorem Canonical.orFlags {s : State} (h : Canonical s) (f : BitVec 6) : Canonical (s.orFlags f) := by
  unfold State.orFlags
  split
  · exact h
  · exact h.setCsr ..

theorem Canonical.setPc {s : State} (h : Canonical s) (a : Word) : Canonical (s.setPc a) := h.same

theorem Canonical.postCommit {s : State} (h : Canonical s) (a : Act) : Canonical (s.postCommit a) := h.same

theorem Canonical.park {s : State} (h : Canonical s) : Gives Canonical s.park := by
  unfold State.park
  split
  · refine Gives.of ?_
    split
    · exact h
    · exact (h.capture ..).modRegs ..
  · exact trivial

theorem Canonical.logError {s : State} (h : Canonical s) (core array inst addr word t : Nat) (older : Bool) (synd : BitVec 16)
    (cls : BitVec 4) (inj : Bool) :
    Canonical (s.logError core array inst addr word t older synd cls inj).1 := by
  unfold State.logError
  extract_lets _ _ _ s1
  have h1 : Canonical s1 := h.same
  exact h1.modCore ..

theorem Canonical.dropFlips {s : State} (h : Canonical s) (core : Nat) (f : Flip → Bool) :
    Canonical (s.dropFlips core f) := h.same

theorem Canonical.logRebuild {s : State} (h : Canonical s) (t : Nat) (older : Bool) (f : Flip) :
    Canonical (Machine.logRebuild s t older f).1 := by
  unfold Machine.logRebuild
  split
  next heq =>
    exact (((h.fresh ..).snd heq).logError ..).dropFlips ..

theorem Canonical.newChunk {s : State} (h : Canonical s) (t : Nat) : Canonical (s.newChunk t) := h.same

theorem Canonical.sealStart {s : State} (h : Canonical s) (t : Nat) (keys : List UndoKey) :
    Canonical (s.sealStart t keys) := h.same

theorem Canonical.checkLines {s : State} (h : Canonical s) (t : Nat) (c : Chunk) : Canonical (Machine.checkLines s t c).1 := by
  unfold Machine.checkLines
  refine h.foldl_fst (fun _ _ h1 => ?_) _
  exact h1.logRebuild ..

theorem Canonical.requestChunk {s : State} (h : Canonical s) (t : Nat) (c : Chunk) : Canonical (Machine.requestChunk s t c) := by
  unfold Machine.requestChunk
  extract_lets
  split
  next heq =>
    extract_lets _ s2 s3 s4
    have h1 : Canonical s2 := ((h.checkLines ..).fst heq).modThr ..
    have h2 : Canonical s3 := h1.same
    have h3 : Canonical s4 := h2.newChunk ..
    exact h3.modThr ..

theorem Canonical.cutChunk {s : State} (h : Canonical s) (t code : Nat) : Canonical (s.cutChunk t code) := by
  unfold State.cutChunk
  extract_lets
  split
  · exact h.modThr ..
  · exact (h.requestChunk ..).modThr ..

theorem Canonical.stall {s : State} (h : Canonical s) (w : Why) : Canonical (s.stall w) := h.same

theorem Canonical.putBack {s : State} (h : Canonical s) (u : Nat) : Canonical (Machine.putBack s u) := by
  unfold Machine.putBack
  extract_lets
  split
  · exact (h.modThr ..).modCore ..
  · exact h.modThr ..

theorem Canonical.putBackWaiting {s : State} (h : Canonical s) (t : Nat) : Canonical (Machine.putBackWaiting s t) := by
  unfold Machine.putBackWaiting
  split
  · extract_lets v1 s1 s2
    clear_value v1
    have h1 : Canonical s1 := h.putBack ..
    have h2 : Canonical s2 := by
      dsimp only [s2]
      split
      · exact h1.putBack ..
      · exact h1
    exact h2.modThr ..
  · exact h

theorem Canonical.giveBack {s : State} (h : Canonical s) (t : Nat) (c : Chunk) (msgs : List Msg) :
    Canonical (Machine.giveBack s t c msgs) := by
  unfold Machine.giveBack
  extract_lets _ _ _ s1 _ _ s2 s3 f1 s4 f2 s5
  have h1 : Canonical s1 := h.same
  have h2 : Canonical s2 := h1.modCore ..
  have h3 : Canonical s3 := h2.modCore ..
  have hf1 : ∀ s a1, Canonical s → Canonical (f1 s a1) := by
    intro s _ h4
    dsimp only [f1]
    exact h4.modCore ..
  have h4 : Canonical s4 := h3.foldl (fun _ _ h => h.modCore ..) _
  have hf2 : ∀ s a1, Canonical s → Canonical (f2 s a1) := by
    intro s _ h5
    dsimp only [f2]
    split
    · exact h5.putBack ..
    · exact h5
  have h5 : Canonical s5 := by
    dsimp only [s5]
    refine h4.foldl (fun _ _ h5 => ?_) _
    split
    · exact hf2 _ _ (hf2 _ _ h5)
    · exact h5
  exact h5.modThr ..

theorem Canonical.discardChunk {s : State} (h : Canonical s) (t : Nat) (c : Chunk) (first : Bool) :
    Canonical (Machine.discardChunk s t c first) := by
  unfold Machine.discardChunk
  extract_lets s1 s2 s3 s4
  have h1 : Canonical s1 := h.modCore ..
  have h2 : Canonical s2 := h1.giveBack ..
  have h3 : Canonical s3 := h2.dropFlips ..
  have h4 : Canonical s4 := h3.dropFlips ..
  exact h4.same

theorem Canonical.squashFrom {s : State} (h : Canonical s) (t : Nat) (older : Bool) (why : Nat) :
    Canonical (Machine.squashFrom s t older why) := by
  unfold Machine.squashFrom
  extract_lets s1 _ _ s2 _ _ s3 _ _ _ s4 s5 s6 _ _ _ _ _ _ _ _ _ _ s7
  have h1 : Canonical s1 := h.putBackWaiting ..
  have h2 : Canonical s2 := h1.discardChunk ..
  have h3 : Canonical s3 := by
    dsimp only [s3]
    split
    · exact h2.discardChunk ..
    · exact h2
  have h4 : Canonical s4 := (h3.countEvent ..).countEvent ..
  have h5 : Canonical s5 := by
    dsimp only [s5]
    split
    · exact h4.addRecord ..
    · exact h4
  have h6 : Canonical s6 := by
    dsimp only [s6]
    split
    · exact h5.addRecord ..
    · exact h4
  have h7 : Canonical s7 := h6.setThr ..
  exact h7.same

theorem Canonical.terminateLaunch {s : State} (h : Canonical s) (l : Nat) : Canonical (Machine.terminateLaunch s l) := by
  unfold Machine.terminateLaunch
  extract_lets f1 s1 s2
  have hf1 : ∀ s a1, Canonical s → Canonical (f1 s a1) := by
    intro s _ h1
    dsimp only [f1]
    split
    · refine (Canonical.modThr ?_ ..).modCore ..
      split
      · dsimp only
        split
        · exact h1.discardChunk ..
        · exact (h1.discardChunk ..).discardChunk ..
      · exact h1.discardChunk ..
    · exact h1
  have h1 : Canonical s1 := by
    dsimp only [s1]
    refine h.foldl (fun _ _ h1 => ?_) _
    exact hf1 _ _ h1
  have h2 : Canonical s2 := h1.same
  exact h2.modLaunch ..

theorem Canonical.endLaunchesOn {s : State} (h : Canonical s) (cores : List Nat) :
    Canonical (Machine.endLaunchesOn s cores) := h.foldl (fun _ _ h => h.terminateLaunch ..) _

theorem Canonical.takeOffline {s : State} (h : Canonical s) (array core : Nat) :
    Canonical (Machine.takeOffline s array core) := by
  unfold Machine.takeOffline
  split
  · exact h.same.endLaunchesOn ..
  · exact h.same.endLaunchesOn ..

theorem Canonical.noteError {s : State} (h : Canonical s) (core array inst addr word t : Nat) (synd : BitVec 16)
    (cls : BitVec 4) (inj : Bool) :
    Canonical (s.noteError core array inst addr word t synd cls inj) := by
  unfold State.noteError
  dsimp only
  split
  · exact (h.logError ..).takeOffline ..
  · exact h.logError ..

theorem Canonical.secded {s : State} (h : Canonical s) : Canonical s.secded.2 := h.fresh ..

theorem Canonical.undoWord {s : State} (h : Canonical s) (t : Nat) (hits : List Flip) (q : Nat × Bool) :
    Canonical (Machine.undoWord s t hits q) := by
  unfold Machine.undoWord
  extract_lets
  split
  next heq =>
    extract_lets s2
    have h1 : Canonical s2 := ((h.secded ..).snd heq).noteError ..
    exact h1.dropFlips ..

theorem Canonical.undoErrors {s : State} (h : Canonical s) (t : Nat) : Canonical (Machine.undoErrors s t) := by
  unfold Machine.undoErrors
  refine h.foldl (fun _ _ h1 => ?_) _
  extract_lets s2
  have h2 : Canonical s2 := h1.undoWord ..
  split
  · exact h2.terminateLaunch ..
  · exact h2

theorem Canonical.correctWords {s : State} (h : Canonical s) (core array inst t : Nat) (addr : Nat → Nat) (hit : Flip → Bool) :
    Canonical (Machine.correctWords s core array inst t addr hit) := by
  unfold Machine.correctWords
  refine h.foldl (fun _ _ h1 => ?_) _
  split
  · exact h1
  · exact ((h1.secded ..).noteError ..).dropFlips ..

theorem Canonical.settleArray {s : State} (h : Canonical s) (t pa : Nat) : Canonical (Machine.settleArray s t pa) := by
  unfold Machine.settleArray
  extract_lets _ _ _ _ s1
  have h1 : Canonical s1 := h.correctWords ..
  refine h1.foldl (fun _ _ h2 => ?_) _
  split
  next heq =>
    split
    next heq1 =>
      extract_lets _ _ s5 s6
      have h3 : Canonical s5 := ((((h2.secded ..).snd heq).fresh ..).snd heq1).noteError ..
      have h4 : Canonical s6 := h3.dropFlips ..
      split
      · exact h4.same
      · exact h4

theorem Canonical.settleLine {s : State} (h : Canonical s) (t core pa : Nat) (code : Bool) :
    Canonical (Machine.settleLine s t core pa code) := by
  unfold Machine.settleLine
  extract_lets _ _ v1 _ s1
  clear_value v1
  have h1 : Canonical s1 := by
    dsimp only [s1]
    split
    · exact h
    · exact ((h.noteError ..).dropFlips ..).modCore ..
  exact h1.settleArray ..

theorem Canonical.settleSite {s : State} (h : Canonical s) (t : Nat) (a : Site) : Canonical (Machine.settleSite s t a) := by
  unfold Machine.settleSite
  split
  · exact h.settleLine ..
  · exact h.correctWords ..

theorem Canonical.squash {s : State} (h : Canonical s) (t : Nat) (older : Bool) (why : Nat) :
    Canonical (Machine.squash s t older why) := by
  unfold Machine.squash
  extract_lets _ _ _ _ s1 s2
  have h1 : Canonical s1 := by
    dsimp only [s1]
    split
    · exact h
    · split
      · exact h
      · split
        · split
          · exact (h.squashFrom ..).undoErrors ..
          · exact h
        · split
          · exact (h.squashFrom ..).undoErrors ..
          · exact h
  have h2 : Canonical s2 := (h1.squashFrom ..).undoErrors ..
  split
  · exact h1
  · split
    · exact h2.takeOffline ..
    · exact h2

theorem Canonical.errorSquash {s : State} (h : Canonical s) (t : Nat) (f : Flip) : Canonical (Machine.errorSquash s t f) := by
  unfold Machine.errorSquash
  extract_lets
  split
  next heq =>
    extract_lets s2
    have h1 : Canonical s2 := ((h.logRebuild ..).fst heq).squash ..
    split
    · exact h1.takeOffline ..
    · exact h1

theorem Canonical.undoRead {s : State} (h : Canonical s) (t : Nat) : Canonical (Machine.undoRead s t) := by
  unfold Machine.undoRead
  extract_lets _ _ _ _ s1
  have h1 : Canonical s1 := h.foldl (fun _ _ h => h.undoWord ..) _
  split
  · exact h1.errorSquash ..
  · exact h1

theorem Canonical.registerError {s : State} (h : Canonical s) (t : Nat) (n : RegName) (f : Flip) :
    Canonical (Machine.registerError s t n f) := by
  unfold Machine.registerError
  extract_lets _ _ s1
  have h1 : Canonical s1 := h.noteError ..
  split
  · exact h.errorSquash ..
  · exact (h1.dropFlips ..).terminateLaunch ..

theorem Canonical.settleErrors {s : State} (h : Canonical s) (t : Nat) : Canonical (Machine.settleErrors s t) := h.same

theorem Canonical.enterHandler {s : State} (h : Canonical s) (t : Nat) (interrupt : Bool) (cause : Nat) (tval epc : Word) :
    Canonical (Machine.enterHandler s t interrupt cause tval epc) := h.same

theorem Canonical.leaveRewrite {s : State} (h : Canonical s) (t : Nat) (keep : Bool) :
    Canonical (Machine.leaveRewrite s t keep) := by
  unfold Machine.leaveRewrite
  extract_lets _ _ f1 _ s1
  have hf1 : ∀ a1 a2 s, Canonical s → Canonical (f1 a1 a2 s) := by
    intro _ _ s h1
    dsimp only [f1]
    exact h1.same
  have h1 : Canonical s1 := (hf1 _ _ _ h.same).squash ..
  split
  · exact hf1 _ _ _ h1
  · exact h.squash ..

theorem Canonical.takeTrap {s : State} (h : Canonical s) (cause : Nat) (tval : Word) :
    Canonical (Machine.takeTrap s cause tval) := by
  unfold Machine.takeTrap
  extract_lets _ s1 s2 _ s3
  have h1 : Canonical s1 := (h.leaveRewrite ..).cutChunk ..
  have h2 : Canonical s2 := h1.enterHandler ..
  have h3 : Canonical s3 := h.cutChunk ..
  split
  · exact h.stall ..
  · split
    · split
      · exact (h2.modThr ..).sealStart ..
      · exact h2
    · split
      · exact h.stall ..
      · exact h3.enterHandler ..

theorem Holds.noRewrite (s : State) : Holds (fun _ => True) (Machine.noRewrite s) := by
  unfold Machine.noRewrite
  split
  · exact trivial
  · exact trivial

theorem Canonical.loopClear {s : State} (h : Canonical s) (l : Nat) : Canonical (s.loopClear l) := by
  unfold State.loopClear
  split
  · exact h.setCsr ..
  · exact h.setCsr ..

theorem Canonical.loopTest {s : State} (h : Canonical s) (l : Nat) (q : Word) : Canonical (Machine.loopTest s l q).1 := by
  unfold Machine.loopTest
  dsimp only
  split
  · split
    · exact h.setX ..
    · exact h.loopClear ..
  · exact h

theorem Canonical.loopLeave {s : State} (h : Canonical s) (l : Nat) (n : Word) : Canonical (Machine.loopLeave s l n) := by
  unfold Machine.loopLeave
  dsimp only
  split
  · exact h.loopClear ..
  · exact h

theorem Canonical.loopRule {s : State} (h : Canonical s) (q : Word) (a : After) : Canonical (Machine.loopRule s q a).1 := by
  unfold Machine.loopRule
  split
  · exact (h.loopLeave ..).loopLeave ..
  · exact h
  · extract_lets
    split
    next heq => exact (h.loopTest ..).fst heq
    next r _ heq =>
      split
      next heq1 => exact (((h.loopTest ..).fst heq).loopTest ..).fst heq1
      next heq1 => exact (((h.loopTest ..).fst heq).loopTest ..).fst heq1
  · extract_lets
    split
    next heq => exact (h.loopTest ..).fst heq
    next r _ heq =>
      split
      next heq1 => exact (((h.loopTest ..).fst heq).loopTest ..).fst heq1
      next heq1 => exact (((h.loopTest ..).fst heq).loopTest ..).fst heq1
  · extract_lets
    split
    next heq => exact (h.loopTest ..).fst heq
    next r _ heq =>
      split
      next heq1 => exact (((h.loopTest ..).fst heq).loopTest ..).fst heq1
      next heq1 => exact (((h.loopTest ..).fst heq).loopTest ..).fst heq1
  · extract_lets
    split
    next heq => exact (h.loopTest ..).fst heq
    next r _ heq =>
      split
      next heq1 => exact (((h.loopTest ..).fst heq).loopTest ..).fst heq1
      next heq1 => exact (((h.loopTest ..).fst heq).loopTest ..).fst heq1

theorem Canonical.holdRewrite {s : State} (hs : Canonical s) (h : Hold) :
    Canonical (Machine.holdRewrite s h) := (hs.leaveRewrite ..).modTh ..

theorem Canonical.capacityCut {s : State} (hs : Canonical s) (code : Nat) (alone : Bool) (h : Hold) :
    Canonical (Machine.capacityCut s code alone h) := by
  unfold Machine.capacityCut
  extract_lets
  split
  · split
    · exact hs.takeTrap ..
    · exact hs.holdRewrite ..
  · split
    · exact hs.stall ..
    · exact (hs.cutChunk ..).stall ..

theorem Canonical.askFar {s : State} (h : Canonical s) (kind : FarKind) (pa : Nat) : Canonical (s.askFar kind pa).1 := by
  unfold State.askFar
  extract_lets _ s1
  have h1 : Canonical s1 := h.same
  exact h1.modTh ..

theorem Canonical.pressHolder {s : State} (h : Canonical s) (t : Nat) (sp : Space) (g : Nat) :
    Canonical (Machine.pressHolder s t sp g) := by
  unfold Machine.pressHolder
  extract_lets
  split
  · exact h
  · split
    · split
      · exact h
      · exact h.squash ..
    · exact h.modThr ..

theorem Canonical.keepInjected {s : State} (h : Canonical s) (s' : State) : Canonical (s.keepInjected s') := h.same

theorem Canonical.applyStop {s : State} (h : Canonical s) {e : Stop} (he : e.Canonical) : Canonical (Machine.applyStop s e) := by
  unfold Machine.applyStop
  split
  · exact h.takeTrap ..
  · exact h.stall _
  · split
    · exact h.stall _
    · exact (h.cutChunk ..).stall _
  · exact h.holdRewrite _
  · exact Canonical.errorSquash he ..
  · exact (h.keepInjected _).settleSite ..
  · extract_lets v
    split
    · exact h.takeTrap ..
    · split
      next heq => exact ((((h.secded ..).snd heq).noteError ..).takeTrap ..)
  · exact he
  · extract_lets s1
    have h1 : Canonical s1 := h.pressHolder ..
    split
    · split
      · exact h1.stall _
      · exact h1.holdRewrite _
    · split
      · exact h1.stall _
      · exact (h1.cutChunk ..).stall _
  · split
    · exact h.stall _
    · split
      · exact h.stall _
      · exact (h.askFar ..).stall _
  · split
    · exact h.stall _
    · exact ((h.capture _).modRegs _).takeTrap ..

theorem Canonical.retire {s : State} (h : Canonical s) (q : Word) (a : After) : Canonical (Machine.retire s q a) := by
  unfold Machine.retire
  split
  next heq =>
    extract_lets s2
    have h1 : Canonical s2 := ((h.loopRule ..).fst heq).setPc ..
    exact h1.modTh ..

theorem Canonical.finishFrom {s0 s1 s2 : State} (h0 : Canonical s0) (h1 : Canonical s1) (h2 : Canonical s2) (a : After) :
    Canonical (Machine.finishFrom s0 s1 s2 a) := by
  unfold Machine.finishFrom
  extract_lets tested s3 code
  split
  · exact h1.takeTrap ..
  · have h3 : Canonical s3 := h2.retire ..
    split
    · exact h1.takeTrap ..
    · split
      · exact h0.capacityCut ..
      · split
        · exact h0.capacityCut ..
        · split
          · exact h3
          · split
            · exact h0.stall _
            · exact h3.cutChunk ..

theorem Canonical.finish {s1 s2 : State} (h1 : Canonical s1) (h2 : Canonical s2) (a : After) :
    Canonical (Machine.finish s1 s2 a) :=
  h1.finishFrom h1 h2 a

theorem Canonical.keepMarks {s : State} (h : Canonical s) (l : List RegName) : Canonical (s.keepMarks l) := by
  unfold State.keepMarks
  split
  · exact h
  · exact h.modTh ..

theorem Canonical.stopAt {s0 s1 : State} (h0 : Canonical s0) (h1 : Canonical s1) {e : Stop} (he : e.Canonical) :
    Canonical (Machine.stopAt s0 s1 e) := by
  unfold Machine.stopAt
  split
  · exact h1.takeTrap ..
  · split
    · exact Canonical.modTh (Canonical.keepMarks he _) _
    · refine Canonical.applyStop ?_ he
      split
      · exact h1
      · exact h0

theorem Canonical.attempt {s : State} (h : Canonical s) (p : Bool) {early : Option Stop} (hearly : Gives Stop.Canonical early) (regs : List RegName)
    {body : Body} (hbody : ∀ s, Canonical s → Keeps (body s)) : Canonical (Machine.attempt p early regs body s) := by
  unfold Machine.attempt
  split
  next e => exact h.applyStop hearly
  · have hparked : Gives Canonical (if p then s.park else some s) := by
      split
      · exact h.park
      · exact h
    split
    · exact h.stall _
    next s1 hs1 =>
      have h1 := hparked.some hs1
      split
      · exact h1.takeTrap ..
      · split
        · exact h1.registerError ..
        · split
          next heq => exact h.stopAt h1 ((hbody _ h1).error heq)
          next heq => exact h.finishFrom h1 ((hbody _ h1).ok heq) _

theorem Canonical.runInstr {s : State} (h : Canonical s) (p : Bool) {early : Option Stop} (hearly : Gives Stop.Canonical early) (regs : List RegName)
    {body : Body} (hbody : ∀ s, Canonical s → Keeps (body s)) : KeepsOut (Machine.runInstr p early regs body s) := by
  unfold Machine.runInstr
  split
  · exact h.attempt p hearly regs hbody
  · trivial

end Sys2Proof.Machine
end

section
/-!
PROOFS. Memory's canonical form: operands, issue and local memory (O60).
-/
set_option Elab.async false
namespace Sys2Proof.Machine

theorem Holds.pointerAddr (base : Word) (off : Int) : Holds (fun _ => True) (Machine.pointerAddr base off) := by
  unfold Machine.pointerAddr
  dsimp only
  split
  · exact trivial
  · split
    · exact trivial
    · exact trivial

theorem Canonical.setBank {s : State} (h : Canonical s) (b : Nat) (k : Bank) : Canonical (s.setBank b k) := h.same

theorem Canonical.keepTranslation {s : State} (h : Canonical s) (core : Nat) (e : TlbEntry) (ps : List PtrEntry) :
    Canonical (s.keepTranslation core e ps) := h.same

theorem Canonical.keepWalk {s : State} (h : Canonical s) (core : Nat) (w : Who) (acc : Acc) (va : Nat) (m : Met) :
    Canonical (Machine.keepWalk s core w acc va m) := by
  unfold Machine.keepWalk
  split
  · extract_lets _ s1
    have h1 : Canonical s1 := by
      dsimp only [s1]
      split
      · exact h.keepTranslation ..
      · exact h
    split
    · exact h1.same
    · exact h1
  · exact h

theorem Canonical.transChoice {s : State} (h : Canonical s) (a : List Met) : Canonical (Machine.transChoice s a).1 := by
  unfold Machine.transChoice
  split
  · exact h
  · exact h
  · exact h.fresh ..

theorem Canonical.useLeaf {s : State} (h : Canonical s) (core : Nat) (w : Who) (acc : Acc) (va : Nat) (m : Met) :
    Gets (fun a => Canonical a.1) (Machine.useLeaf s core w acc va m) := by
  unfold Machine.useLeaf
  split
  · exact trivial
  · extract_lets
    split
    · exact trivial
    · split
      · exact trivial
      · split
        · exact trivial
        · split
          · exact trivial
          · exact h.keepWalk ..

theorem Canonical.translate {s : State} (h : Canonical s) (core : Nat) (own : Option Nat) (w : Who) (acc : Acc) (va : Nat) :
    Gets (fun a => Canonical a.1) (Machine.translate s core own w acc va) := by
  unfold Machine.translate
  split
  · split
    · exact trivial
    · split
      · exact trivial
      · exact h
  · exact (h.transChoice ..).useLeaf ..

theorem Canonical.translateBy {s : State} (h : Canonical s) (al : Bool) (acc : Acc) (va : Nat) :
    Keeps (Machine.translateBy s al acc va) := by
  unfold Machine.translateBy
  split
  · exact trivial
  · exact trivial
  · exact trivial
  next heq => exact (h.translate ..).ok heq

theorem Canonical.translateTh {s : State} (h : Canonical s) (acc : Acc) (va : Nat) :
    Keeps (Machine.translateTh s acc va) := h.translateBy ..

theorem Canonical.makeWay {s : State} (h : Canonical s) (core line : Nat) : Canonical (s.makeWay core line) := by
  unfold State.makeWay
  dsimp only
  split
  · exact h
  · exact (h.fresh ..).modCore ..

theorem Canonical.fillLine {s : State} (h : Canonical s) (core pa : Nat) : Canonical (s.fillLine core pa) := by
  unfold State.fillLine
  extract_lets _ s1
  have h1 : Canonical s1 := by
    dsimp only [s1]
    split
    · exact h
    · exact h.makeWay ..
  exact h1.modCore ..

theorem Canonical.fillCode {s : State} (h : Canonical s) (core pa : Nat) : Canonical (s.fillCode core pa) := by
  unfold State.fillCode
  extract_lets _ _ s1
  have h1 : Canonical s1 := by
    dsimp only [s1]
    split
    · exact h
    · exact (h.fresh ..).modCore ..
  exact h1.modCore ..

theorem Canonical.enterRead {s : State} (h : Canonical s) (pa n va : Nat) : Canonical (s.enterRead pa n va) := h.same

theorem Canonical.enterWrite {s : State} (h : Canonical s) (pa va : Nat) : Canonical (s.enterWrite pa va) := by
  unfold State.enterWrite
  extract_lets _ _ _ s1
  have h1 : Canonical s1 := by
    dsimp only [s1]
    split
    · exact h
    · exact h.makeWay ..
  split
  · exact h
  · exact h1.modChunk ..

theorem Canonical.readStop {s : State} (h : Canonical s) (pa n va : Nat) : Gives Stop.Canonical (Machine.readStop s pa n va) := by
  unfold Machine.readStop
  split
  · exact trivial
  · split
    · exact trivial
    · split
      · exact h
      · split
        · exact h
        · exact trivial

theorem Canonical.readPlain {s : State} (h : Canonical s) (pa n va : Nat) (wait : Bool) :
    Keeps (Machine.readPlain s pa n va wait) := by
  unfold Machine.readPlain
  split
  next heq => exact (h.readStop ..).some heq
  · extract_lets _ s1 s2
    have h1 : Canonical s1 := h.enterRead ..
    have h2 : Canonical s2 := (h.fillLine ..).enterRead ..
    split
    · exact trivial
    · split
      · exact h1
      · split
        · exact trivial
        · split
          · exact trivial
          · exact h2

theorem Canonical.inject {s : State} (h : Canonical s) (array core owner addr : Nat) :
    Canonical (s.inject array core owner addr) := by
  unfold State.inject
  extract_lets _ _ _ v1 s1
  clear_value v1
  have h1 : Canonical s1 := h.modCore ..
  split
  · split
    · exact h
    · exact h1.modTh ..
  · exact h

theorem Canonical.specWrite {s : State} (h : Canonical s) (pa va : Nat) (bs : List Byte) : Canonical (s.specWrite pa va bs) := by
  unfold State.specWrite
  extract_lets s1 s2 _ s3
  have h1 : Canonical s1 := h.enterWrite ..
  have h2 : Canonical s2 := h1.modChunk ..
  have h3 : Canonical s3 := h2.modCore ..
  exact h3.inject ..

theorem Gives.plainStop (s : State) (pa n : Nat) : Gives Stop.Canonical (Machine.plainStop s pa n) := by
  unfold Machine.plainStop
  split
  · refine Gives.of ?_
    split
    · exact trivial
    · exact trivial
  · exact trivial

theorem Canonical.writePlain {s : State} (h : Canonical s) (pa va : Nat) (bs : List Byte) :
    Holds Canonical (Machine.writePlain s pa va bs) := by
  unfold Machine.writePlain
  split
  next heq => exact (Gives.plainStop ..).some heq
  · extract_lets
    split
    · exact h
    · split
      · exact h
      · exact h.specWrite ..

theorem Holds.notInEvent (s : State) (v : Word) : Holds (fun _ => True) (Machine.notInEvent s v) := by
  unfold Machine.notInEvent
  split
  · exact trivial
  · exact trivial

theorem Canonical.writeRing {s : State} (h : Canonical s) (va : Nat) (bs : List Byte) (fuel : Nat) :
    Holds Canonical (Machine.writeRing s va bs fuel) := by
  induction fuel generalizing s va bs with
  | zero => cases bs <;> exact h
  | succ fuel ih =>
    cases bs with
    | nil => exact h
    | cons b bs =>
      unfold Machine.writeRing
      extract_lets n
      split
      next heq => exact (h.translateTh ..).error heq
      next heq =>
        have h1 := (h.translateTh ..).state heq
        split
        next heq1 => exact (h1.writePlain ..).error heq1
        next heq1 => exact ih ((h1.writePlain ..).ok heq1) _ _

theorem Canonical.pushUndo {s : State} (h : Canonical s) (va pa : Nat) : Holds Canonical (Machine.pushUndo s va pa) := by
  unfold Machine.pushUndo
  extract_lets
  split
  · exact h
  · split
    · exact trivial
    · split
      next heq => exact (h.readStop ..).some heq
      · split
        next heq => exact (h.writeRing ..).error heq
        next heq => exact ((h.writeRing ..).ok heq).modRegs ..

theorem Canonical.loadVa {s : State} (h : Canonical s) (va n : Nat) (wait : Bool) : Keeps (Machine.loadVa s va n wait) := by
  unfold Machine.loadVa
  split
  · exact trivial
  · split
    next heq => exact (h.translateTh ..).error heq
    next heq => exact ((h.translateTh ..).ok heq).readPlain ..

theorem Canonical.storeTo {s : State} (h : Canonical s) (va pa : Nat) (lp : Bool) (bs : List Byte) :
    Holds Canonical (Machine.storeTo s va pa lp bs) := by
  unfold Machine.storeTo
  split
  · split
    · exact trivial
    · split
      next heq => exact (h.pushUndo ..).error heq
      next heq => exact ((h.pushUndo ..).ok heq).writePlain ..
  · exact h.writePlain ..

theorem Canonical.storeAt {s : State} (h : Canonical s) (va : Nat) (bs : List Byte) :
    Holds Canonical (Machine.storeAt s va bs) := by
  unfold Machine.storeAt
  split
  · exact trivial
  · split
    next heq => exact (h.translateTh ..).error heq
    next heq => exact ((h.translateTh ..).state heq).storeTo ..

theorem Canonical.storeVa {s : State} (h : Canonical s) (va : Nat) (bs : List Byte) :
    Holds Canonical (Machine.storeVa s va bs) := by
  unfold Machine.storeVa
  split
  · exact trivial
  · split
    · exact trivial
    · exact h.storeAt ..

theorem Canonical.loadMany {s : State} (h : Canonical s) (n : Nat) (wait : Bool) (a : List Nat) :
    Keeps (Machine.loadMany s n wait a) := by
  induction a generalizing s with
  | nil =>
    unfold Machine.loadMany
    exact h
  | cons x a ih =>
    unfold Machine.loadMany
    split
    next heq => exact (h.loadVa ..).error heq
    next heq =>
      split
      next heq1 => exact (ih ((h.loadVa ..).state heq)).error heq1
      next heq1 => exact (ih ((h.loadVa ..).state heq)).state heq1

theorem Canonical.storeMany {s : State} (h : Canonical s) (a : List (Nat × List Byte)) :
    Holds Canonical (Machine.storeMany s a) := by
  induction a generalizing s with
  | nil =>
    unfold Machine.storeMany
    exact h
  | cons x a ih =>
    unfold Machine.storeMany
    split
    next heq => exact (h.storeVa ..).error heq
    next heq => exact ih ((h.storeVa ..).ok heq)

theorem Canonical.checkVaBy {s : State} (h : Canonical s) (al : Bool) (acc : Acc) (base : Word) (n : Nat) :
    Keeps (Machine.checkVaBy s al acc base n) := by
  unfold Machine.checkVaBy
  split
  next heq => exact (Holds.pointerAddr ..).error heq
  · split
    · exact trivial
    · split
      next heq => exact (h.translateBy ..).error heq
      next heq => exact (h.translateBy ..).ok heq

theorem Canonical.checkVa {s : State} (h : Canonical s) (acc : Acc) (base : Word) (n : Nat) :
    Keeps (Machine.checkVa s acc base n) := h.checkVaBy ..

theorem Holds.localPlace (s : State) (sp o n mode : Nat) (store : Bool) :
    Holds (fun _ => True) (Machine.localPlace s sp o n mode store) := by
  unfold Machine.localPlace
  extract_lets
  dsimp only
  split
  · exact trivial
  · split
    · split
      · exact trivial
      · split
        · dsimp only
          split
          · exact trivial
          · exact trivial
        · split
          · dsimp only
            split
            · exact trivial
            · exact trivial
          · dsimp only
            split
            · exact trivial
            · exact trivial
    · split
      · exact trivial
      · split
        · exact trivial
        · split
          · exact trivial
          · exact trivial

theorem Canonical.bufErrors {s : State} (h : Canonical s) (core : Nat) (sp : Space) (o n : Nat) :
    Gives Stop.Canonical (Machine.bufErrors s core sp o n) := by
  unfold Machine.bufErrors
  extract_lets
  split
  · refine Gives.of ?_
    split
    · exact h
    · exact trivial
  · split
    · exact trivial
    · exact h

theorem Canonical.bufRead {s : State} (h : Canonical s) (sp : Space) (o n : Nat) : Keeps (Machine.bufRead s sp o n) := by
  unfold Machine.bufRead
  extract_lets
  split
  · exact trivial
  · split
    · exact trivial
    · split
      next heq => exact (h.bufErrors ..).some heq
      · exact h

theorem Canonical.captureGran {s : State} (h : Canonical s) (sp : Space) (o : Nat) : Canonical (s.captureGran sp o) := by
  unfold State.captureGran
  extract_lets
  split
  · exact h
  · exact (h.capture ..).modChunk ..

theorem Canonical.bufPut {s : State} (h : Canonical s) (sp : Space) (o : Nat) (bs : List Byte) :
    Holds Canonical (Machine.bufPut s sp o bs) := by
  unfold Machine.bufPut
  extract_lets _ s1 s2
  have h1 : Canonical s1 := h.captureGran ..
  have h2 : Canonical s2 := h1.modCore ..
  split
  · exact trivial
  · split
    next heq => exact (Gives.findSome (fun _ => h.bufErrors ..) _).some heq
    · exact h2.inject ..

theorem Canonical.bufWrite {s : State} (h : Canonical s) (sp : Space) (o : Nat) (bs : List Byte) :
    Holds Canonical (Machine.bufWrite s sp o bs) := by
  unfold Machine.bufWrite
  split
  · exact trivial
  · exact h.bufPut ..

theorem Canonical.localRead {s : State} (h : Canonical s) (p : LocalPlace) (va n : Nat) : Keeps (Machine.localRead s p va n) := by
  unfold Machine.localRead
  split
  · exact h.bufRead ..
  · exact h.readPlain ..

theorem Canonical.localWrite {s : State} (h : Canonical s) (p : LocalPlace) (la : Word) (bs : List Byte) :
    Holds Canonical (Machine.localWrite s p la bs) := by
  unfold Machine.localWrite
  split
  · exact h.bufWrite ..
  · split
    · exact trivial
    · exact h.writePlain ..

theorem Holds.needScope (w : Word) : Holds (fun _ => True) (Machine.needScope w) := by
  unfold Machine.needScope
  split
  · exact trivial
  · exact trivial

theorem Gives.needS (s : State) (i : Instr) : Gives Stop.Canonical (Machine.needS i s) := by
  unfold Machine.needS
  split
  · exact trivial
  · exact trivial

theorem Canonical.execChunk {s : State} (h : Canonical s) (p : Bool) : KeepsOut (Machine.execChunk p s) :=
  h.runInstr _ Gives.none _ fun _ h1 => Holds.bind (Holds.noRewrite ..) fun _ _ => h1

theorem Canonical.execYield {s : State} (h : Canonical s) (p : Bool) : KeepsOut (Machine.execYield p s) :=
  h.runInstr _ Gives.none _ fun _ h1 => h1

theorem Canonical.execPause {s : State} (h : Canonical s) (p : Bool) (a : Reg) : KeepsOut (Machine.execPause p a s) :=
  h.runInstr _ Gives.none _ fun _ h1 => h1

theorem Canonical.execFenceS {s : State} (h : Canonical s) (p : Bool) (a : Reg) : KeepsOut (Machine.execFenceS p a s) :=
  h.runInstr _ Gives.none _ fun _ h1 => Holds.bind (Holds.needScope ..) fun _ _ => h1.postCommit ..

theorem Canonical.execBar {s : State} (h : Canonical s) (p : Bool) (d a : Reg) : KeepsOut (Machine.execBar p d a s) := by
  unfold Machine.execBar
  refine h.runInstr _ Gives.none _ fun _ h1 => ?_
  refine Holds.bind (Holds.notInEvent ..) fun _ _ => ?_
  refine Holds.bind (Holds.noRewrite ..) fun _ _ => ?_
  split
  · exact (h1.capture ..).postCommit ..
  · exact trivial

theorem Canonical.execLclr {s : State} (h : Canonical s) (p : Bool) (l : BitVec 1) : KeepsOut (Machine.execLclr p l s) :=
  h.runInstr _ Gives.none _ fun _ h1 => h1.loopClear ..

theorem Canonical.execLoop {s : State} (h : Canonical s) (p : Bool) (l : BitVec 1) (a : Reg) (len : BitVec 11) :
    KeepsOut (Machine.execLoop p l a len s) := by
  unfold Machine.execLoop
  refine h.runInstr _ Gives.none _ fun _ h1 => ?_
  split
  · exact h1.loopClear ..
  · refine Holds.of ?_
    split
    · exact ((h1.setX ..).setCsr ..).setCsr ..
    · exact ((h1.setX ..).setCsr ..).setCsr ..

theorem Canonical.setPair {s : State} (h : Canonical s) (q : Pair) : Canonical (s.setPair q) := h.same

theorem Gives.needsPair (s : State) (i : Instr) : Gives Stop.Canonical (Machine.needsPair i s) := by
  unfold Machine.needsPair
  split
  · exact trivial
  · exact trivial

theorem Canonical.execAeqw {s : State} (h : Canonical s) (p : Bool) (a : Reg) : KeepsOut (Machine.execAeqw p a s) := by
  unfold Machine.execAeqw
  refine h.runInstr _ (Gives.needsPair ..) _ fun _ h1 => ?_
  refine Holds.bind (Holds.notInEvent ..) fun _ _ => ?_
  extract_lets
  split
  · split
    · exact trivial
    · exact h1.setPair ..
  · split
    · exact trivial
    · exact h1.setPair ..

theorem Canonical.execAeqr {s : State} (h : Canonical s) (p : Bool) (d : Reg) : KeepsOut (Machine.execAeqr p d s) := by
  unfold Machine.execAeqr
  refine h.runInstr _ (Gives.needsPair ..) _ fun _ h1 => ?_
  refine Holds.bind (Holds.notInEvent ..) fun _ _ => ?_
  refine Holds.bind (Holds.noRewrite ..) fun _ _ => ?_
  extract_lets _ f1
  have hf1 : ∀ s a1, Canonical s → Canonical (f1 s a1) := by
    intro s _ h2
    dsimp only [f1]
    exact (h2.setX ..).modChunk ..
  split
  · split
    · exact trivial
    · exact hf1 _ _ (h1.setPair ..)
  · split
    · exact hf1 _ _ (h1.setPair ..)
    · exact trivial

theorem Holds.slotOperand (i : Instr) (w : Word) : Holds (fun _ => True) (Machine.slotOperand i w) := by
  unfold Machine.slotOperand
  split
  · exact trivial
  · exact trivial

theorem Canonical.askPreempt {s : State} (h : Canonical s) (t : Nat) : Canonical (Machine.askPreempt s t) := h.same

theorem Canonical.areaBlocks {s : State} (h : Canonical s) (acc : Acc) (base : Word) (n : Nat) :
    Keeps (Machine.areaBlocks s acc base n) := by
  unfold Machine.areaBlocks
  extract_lets
  split
  · exact trivial
  · split
    · exact trivial
    · split
      · exact trivial
      · split
        · exact trivial
        · exact h

theorem Canonical.execCtxsave {s : State} (h : Canonical s) (p : Bool) (a b : Reg) : KeepsOut (Machine.execCtxsave p a b s) := by
  unfold Machine.execCtxsave
  refine h.runInstr _ (Gives.needS ..) _ fun _ h1 => ?_
  refine Holds.bind (Holds.slotOperand ..) fun _ _ => ?_
  split
  · exact trivial
  · split
    · split
      · split
        · exact trivial
        · refine Holds.bind (h1.areaBlocks ..) ?_
          rintro ⟨s2, _⟩ (h2 : Canonical s2)
          exact ((h2.askPreempt ..).askPreempt ..).stall ..
      · refine Holds.bind (h1.areaBlocks ..) ?_
        rintro ⟨s2, _⟩ (h2 : Canonical s2)
        exact (h2.askPreempt ..).stall ..
    · split
      · split
        · split
          · split
            · refine Holds.bind (h1.areaBlocks ..) ?_
              rintro ⟨s2, _⟩ (h2 : Canonical s2)
              exact h2.modChunk ..
            · refine Holds.bind (h1.areaBlocks ..) ?_
              rintro ⟨s2, _⟩ (h2 : Canonical s2)
              exact h2.modChunk ..
          · refine Holds.bind (h1.areaBlocks ..) ?_
            rintro ⟨s2, _⟩ (h2 : Canonical s2)
            exact h2.modChunk ..
        · refine Holds.bind (h1.areaBlocks ..) ?_
          rintro ⟨s2, _⟩ (h2 : Canonical s2)
          exact h2.modChunk ..
      · refine Holds.bind (h1.areaBlocks ..) ?_
        rintro ⟨s2, _⟩ (h2 : Canonical s2)
        exact h2.modChunk ..

theorem Canonical.execCtxload {s : State} (h : Canonical s) (p : Bool) (a b : Reg) : KeepsOut (Machine.execCtxload p a b s) := by
  unfold Machine.execCtxload
  refine h.runInstr _ (Gives.needS ..) _ fun _ h1 => ?_
  refine Holds.bind (Holds.slotOperand ..) fun _ _ => ?_
  dsimp only
  split
  · exact trivial
  · refine Holds.bind (h1.areaBlocks ..) ?_
    rintro ⟨s2, _⟩ (h2 : Canonical s2)
    split
    · exact trivial
    · refine Holds.bind (P := fun a => Canonical a.1) ?_ ?_
      · split
        · exact h2.areaBlocks ..
        · exact h2
      rintro ⟨s3, _⟩ (h3 : Canonical s3)
      exact h3.modChunk ..

theorem Canonical.execTlbinv {s : State} (h : Canonical s) (p : Bool) (a b : Reg) : KeepsOut (Machine.execTlbinv p a b s) :=
  h.runInstr _ (Gives.needS ..) _ fun _ h1 => h1.modChunk ..

theorem Canonical.execZline {s : State} (h : Canonical s) (p : Bool) (a : Reg) : KeepsOut (Machine.execZline p a s) := by
  unfold Machine.execZline
  refine h.runInstr _ (Gives.needS ..) _ fun _ h1 => ?_
  refine Holds.bind (Holds.notInEvent ..) fun _ _ => ?_
  refine Holds.bind (h1.checkVa ..) ?_
  rintro ⟨s2, _⟩ (h2 : Canonical s2)
  exact h2.postCommit ..

theorem Canonical.execPtrfmt {s : State} (h : Canonical s) (p : Bool) (d a b : Reg) :
    KeepsOut (Machine.execPtrfmt p d a b s) := by
  unfold Machine.execPtrfmt
  refine h.runInstr _ Gives.none _ fun _ h1 => ?_
  extract_lets
  split
  · exact h1.setX ..
  · exact trivial

theorem Canonical.execPtrinfo {s : State} (h : Canonical s) (p : Bool) (d a : Reg) : KeepsOut (Machine.execPtrinfo p d a s) :=
  h.runInstr _ Gives.none _ fun _ h1 => h1.setX ..

theorem Canonical.execPtrclr {s : State} (h : Canonical s) (p : Bool) (d a : Reg) : KeepsOut (Machine.execPtrclr p d a s) :=
  h.runInstr _ Gives.none _ fun _ h1 => h1.setX ..

theorem Holds.ldlPlace (s : State) (base : Word) (mode size : BitVec 2) (off : BitVec 7) (store : Bool) :
    Holds (fun _ => True) (Machine.ldlPlace s base mode size off store) :=
  Holds.bind (Holds.localPlace ..) fun _ _ => trivial

theorem Canonical.execLdl {s : State} (h : Canonical s) (p : Bool) (d a : Reg) (mode size : BitVec 2) (off : BitVec 7) :
    KeepsOut (Machine.execLdl p d a mode size off s) := by
  unfold Machine.execLdl
  refine h.runInstr _ Gives.none _ fun _ h1 => ?_
  refine Holds.bind (Holds.ldlPlace ..) fun _ _ => ?_
  refine Holds.bind (h1.localRead ..) ?_
  rintro ⟨s2, _⟩ (h2 : Canonical s2)
  exact h2.setLong ..

theorem Canonical.execStl {s : State} (h : Canonical s) (p : Bool) (a b : Reg) (mode size : BitVec 2) (off : BitVec 7) :
    KeepsOut (Machine.execStl p a b mode size off s) := by
  unfold Machine.execStl
  refine h.runInstr _ Gives.none _ fun _ h1 => ?_
  exact Holds.bind (Holds.ldlPlace ..) fun _ _ => Holds.bind (h1.localWrite ..) fun _ h2 => h2

end Sys2Proof.Machine
end

section
/-!
PROOFS. Memory's canonical form: standard and vector instructions (O60).
-/
set_option Elab.async false
namespace Sys2Proof.Machine

theorem Canonical.reduceBody {s : State} (h : Canonical s) (op : RedOp) (n : Nat) (a : Reg) (operand : State → BitVec 128) :
    Keeps (Machine.reduceBody op n a operand s) := by
  unfold Machine.reduceBody
  refine Holds.bind (Holds.notInEvent ..) fun _ _ => ?_
  refine Holds.bind (h.checkVa ..) ?_
  rintro ⟨s1, _⟩ (h1 : Canonical s1)
  exact h1.postCommit ..

theorem Canonical.execRedAddW {s : State} (h : Canonical s) (p : Bool) (a b : Reg) : KeepsOut (Machine.execRedAddW p a b s) :=
  h.runInstr _ Gives.none _ fun _ h1 => h1.reduceBody ..

theorem Canonical.execRedAddD {s : State} (h : Canonical s) (p : Bool) (a b : Reg) : KeepsOut (Machine.execRedAddD p a b s) :=
  h.runInstr _ Gives.none _ fun _ h1 => h1.reduceBody ..

theorem Canonical.execRedMinW {s : State} (h : Canonical s) (p : Bool) (a b : Reg) : KeepsOut (Machine.execRedMinW p a b s) :=
  h.runInstr _ Gives.none _ fun _ h1 => h1.reduceBody ..

theorem Canonical.execRedMinD {s : State} (h : Canonical s) (p : Bool) (a b : Reg) : KeepsOut (Machine.execRedMinD p a b s) :=
  h.runInstr _ Gives.none _ fun _ h1 => h1.reduceBody ..

theorem Canonical.execRedMaxW {s : State} (h : Canonical s) (p : Bool) (a b : Reg) : KeepsOut (Machine.execRedMaxW p a b s) :=
  h.runInstr _ Gives.none _ fun _ h1 => h1.reduceBody ..

theorem Canonical.execRedMaxD {s : State} (h : Canonical s) (p : Bool) (a b : Reg) : KeepsOut (Machine.execRedMaxD p a b s) :=
  h.runInstr _ Gives.none _ fun _ h1 => h1.reduceBody ..

theorem Canonical.execRedAndD {s : State} (h : Canonical s) (p : Bool) (a b : Reg) : KeepsOut (Machine.execRedAndD p a b s) :=
  h.runInstr _ Gives.none _ fun _ h1 => h1.reduceBody ..

theorem Canonical.execRedOrD {s : State} (h : Canonical s) (p : Bool) (a b : Reg) : KeepsOut (Machine.execRedOrD p a b s) :=
  h.runInstr _ Gives.none _ fun _ h1 => h1.reduceBody ..

theorem Canonical.execRedXorD {s : State} (h : Canonical s) (p : Bool) (a b : Reg) : KeepsOut (Machine.execRedXorD p a b s) :=
  h.runInstr _ Gives.none _ fun _ h1 => h1.reduceBody ..

theorem Canonical.execRedFaddS {s : State} (h : Canonical s) (p : Bool) (a b : Reg) :
    KeepsOut (Machine.execRedFaddS p a b s) := by
  unfold Machine.execRedFaddS
  refine h.runInstr _ Gives.none _ fun _ h1 => ?_
  refine Holds.bind (Holds.notInEvent ..) fun _ _ => ?_
  refine Holds.bind (h1.checkVa ..) ?_
  rintro ⟨s2, _⟩ (h2 : Canonical s2)
  dsimp only
  split
  · exact trivial
  · exact h2.postCommit ..

theorem Canonical.execRedFxa {s : State} (h : Canonical s) (p : Bool) (a b : Reg) : KeepsOut (Machine.execRedFxa p a b s) := by
  unfold Machine.execRedFxa
  refine h.runInstr _ Gives.none _ fun _ h1 => ?_
  refine Holds.bind (Holds.notInEvent ..) fun _ _ => ?_
  refine Holds.bind (h1.checkVa ..) ?_
  rintro ⟨s2, _⟩ (h2 : Canonical s2)
  exact (h2.orFlags ..).postCommit ..

theorem Canonical.lrwBody {s : State} (h : Canonical s) (n : Nat) (d a : Reg) : Keeps (Machine.lrwBody n d a s) := by
  unfold Machine.lrwBody
  refine Holds.bind (Holds.notInEvent ..) fun _ _ => ?_
  refine Holds.bind (Holds.noRewrite ..) fun _ _ => ?_
  refine Holds.bind (h.checkVa ..) ?_
  rintro ⟨s1, _⟩ (h1 : Canonical s1)
  dsimp only
  split
  · exact trivial
  · split
    · exact trivial
    · exact (h1.capture ..).postCommit ..

theorem Canonical.execLrwW {s : State} (h : Canonical s) (p : Bool) (d a : Reg) : KeepsOut (Machine.execLrwW p d a s) :=
  h.runInstr _ Gives.none _ fun _ h1 => h1.lrwBody ..

theorem Canonical.execLrwD {s : State} (h : Canonical s) (p : Bool) (d a : Reg) : KeepsOut (Machine.execLrwD p d a s) :=
  h.runInstr _ Gives.none _ fun _ h1 => h1.lrwBody ..

theorem Canonical.schBody {s : State} (h : Canonical s) (n : Nat) (a b : Reg) : Keeps (Machine.schBody n a b s) := by
  unfold Machine.schBody
  refine Holds.bind (Holds.notInEvent ..) fun _ _ => ?_
  refine Holds.bind (h.checkVa ..) ?_
  rintro ⟨s1, _⟩ (h1 : Canonical s1)
  dsimp only
  split
  · exact trivial
  · exact Holds.bind (h1.writePlain ..) fun _ h2 => h2.postCommit ..

theorem Canonical.execSchW {s : State} (h : Canonical s) (p : Bool) (a b : Reg) : KeepsOut (Machine.execSchW p a b s) :=
  h.runInstr _ Gives.none _ fun _ h1 => h1.schBody ..

theorem Canonical.execSchD {s : State} (h : Canonical s) (p : Bool) (a b : Reg) : KeepsOut (Machine.execSchD p a b s) :=
  h.runInstr _ Gives.none _ fun _ h1 => h1.schBody ..

theorem Canonical.execLrwq {s : State} (h : Canonical s) (p : Bool) (d a : Reg) : KeepsOut (Machine.execLrwq p d a s) := by
  unfold Machine.execLrwq
  refine h.runInstr _ Gives.none _ fun _ h1 => ?_
  refine Holds.bind (h1.checkVa ..) ?_
  rintro ⟨s2, _⟩ (h2 : Canonical s2)
  dsimp only
  split
  · exact trivial
  · exact h2.setLong ..

theorem Canonical.stxBody {s : State} (h : Canonical s) (n : Nat) (a b : Reg) : Keeps (Machine.stxBody n a b s) := by
  unfold Machine.stxBody
  refine Holds.bind (Holds.notInEvent ..) fun _ _ => ?_
  refine Holds.bind (h.checkVaBy ..) ?_
  rintro ⟨s1, _⟩ (h1 : Canonical s1)
  exact h1.postCommit ..

theorem Canonical.execStxW {s : State} (h : Canonical s) (p : Bool) (a b : Reg) : KeepsOut (Machine.execStxW p a b s) :=
  h.runInstr _ Gives.none _ fun _ h1 => h1.stxBody ..

theorem Canonical.execStxD {s : State} (h : Canonical s) (p : Bool) (a b : Reg) : KeepsOut (Machine.execStxD p a b s) :=
  h.runInstr _ Gives.none _ fun _ h1 => h1.stxBody ..

theorem Canonical.stxRelBody {s : State} (h : Canonical s) (n : Nat) (a b d : Reg) : Keeps (Machine.stxRelBody n a b d s) := by
  unfold Machine.stxRelBody
  refine Holds.bind (Holds.notInEvent ..) fun _ _ => ?_
  refine Holds.bind (Holds.needScope ..) fun _ _ => ?_
  refine Holds.bind (h.checkVaBy ..) ?_
  rintro ⟨s1, _⟩ (h1 : Canonical s1)
  exact h1.postCommit ..

theorem Canonical.execStxRelW {s : State} (h : Canonical s) (p : Bool) (a b d : Reg) : KeepsOut (Machine.execStxRelW p a b d s) :=
  h.runInstr _ Gives.none _ fun _ h1 => h1.stxRelBody ..

theorem Canonical.execStxRelD {s : State} (h : Canonical s) (p : Bool) (a b d : Reg) : KeepsOut (Machine.execStxRelD p a b d s) :=
  h.runInstr _ Gives.none _ fun _ h1 => h1.stxRelBody ..

theorem Canonical.ldaBody {s : State} (h : Canonical s) (n : Nat) (d a b : Reg) : Keeps (Machine.ldaBody n d a b s) := by
  unfold Machine.ldaBody
  refine Holds.bind (Holds.needScope ..) fun _ _ => ?_
  refine Holds.bind (h.checkVa ..) ?_
  rintro ⟨s1, _⟩ (h1 : Canonical s1)
  dsimp only
  split
  · exact trivial
  · split
    · exact trivial
    · split
      · exact trivial
      · split
        · exact h1
        · split
          · split
            · exact trivial
            · exact ((h1.enterRead ..).askFar ..).setLong ..
          · exact (h1.enterRead ..).setLong ..

theorem Canonical.execLdaW {s : State} (h : Canonical s) (p : Bool) (d a b : Reg) : KeepsOut (Machine.execLdaW p d a b s) :=
  h.runInstr _ Gives.none _ fun _ h1 => h1.ldaBody ..

theorem Holds.baseAddr (s : State) (rs1 : Reg) (imm : BitVec 12) :
    Holds (fun _ => True) (Machine.baseAddr s rs1 imm) := Holds.pointerAddr ..

theorem Canonical.execStandardLoad {s : State} (h : Canonical s) (f : LoadOp) (rd rs1 : Reg) (imm : BitVec 12) :
    KeepsOut (Machine.execStandardLoad f rd rs1 imm s) := by
  unfold Machine.execStandardLoad
  refine h.runInstr _ Gives.none _ fun _ h1 => ?_
  refine Holds.bind (Holds.baseAddr ..) fun _ _ => ?_
  refine Holds.bind (h1.loadVa ..) ?_
  rintro ⟨s2, _⟩ (h2 : Canonical s2)
  exact h2.setX ..

theorem Canonical.execStandardStore {s : State} (h : Canonical s) (f : StoreOp) (rs1 rs2 : Reg) (imm : BitVec 12) :
    KeepsOut (Machine.execStandardStore f rs1 rs2 imm s) := by
  unfold Machine.execStandardStore
  refine h.runInstr _ Gives.none _ fun _ h1 => ?_
  exact Holds.bind (Holds.baseAddr ..) fun _ _ => Holds.bind (h1.storeVa ..) fun _ h2 => h2

theorem Canonical.execBaseCompute {s : State} (h : Canonical s) (c : Compute) : KeepsOut (Machine.execBaseCompute c s) :=
  h.runInstr _ Gives.none _ fun _ h1 => h1.setX ..

theorem Canonical.jumpTo {s : State} (h : Canonical s) (n : Word) : Keeps (Machine.jumpTo s n) := by
  unfold Machine.jumpTo
  split
  · exact trivial
  · exact h

theorem Canonical.jumpBody {s : State} (h : Canonical s) (j : Jump) : Keeps (Machine.jumpBody j s) := by
  unfold Machine.jumpBody
  split
  · split
    · exact h.jumpTo ..
    · exact h
  · refine Holds.bind (h.jumpTo ..) ?_
    rintro ⟨s1, _⟩ (h1 : Canonical s1)
    exact h1.setX ..
  · refine Holds.bind (h.jumpTo ..) ?_
    rintro ⟨s1, _⟩ (h1 : Canonical s1)
    exact h1.setX ..

theorem Canonical.execBranchJump {s : State} (h : Canonical s) (j : Jump) : KeepsOut (Machine.execBranchJump j s) :=
  h.runInstr _ Gives.none _ fun _ h1 => h1.jumpBody ..

theorem Canonical.execFence {s : State} (h : Canonical s) (_fm _pred _succ : BitVec 4) (_rd _rs1 : Reg) :
    KeepsOut (Machine.execFence _fm _pred _succ _rd _rs1 s) :=
  h.runInstr _ Gives.none _ fun _ h1 => h1.postCommit ..

theorem Canonical.execFenceTso {s : State} (h : Canonical s) (_rd _rs1 : Reg) : KeepsOut (Machine.execFenceTso _rd _rs1 s) :=
  h.runInstr _ Gives.none _ fun _ h1 => h1.postCommit ..

theorem Canonical.execFenceI {s : State} (h : Canonical s) (_imm : BitVec 12) (_rd _rs1 : Reg) :
    KeepsOut (Machine.execFenceI _imm _rd _rs1 s) := by
  unfold Machine.execFenceI
  refine h.runInstr _ Gives.none _ fun _ h1 => ?_
  extract_lets s2 s3
  have h2 : Canonical s2 := h1.modCore ..
  have h3 : Canonical s3 := h2.modRegs ..
  exact h3.modChunk ..

theorem Canonical.execLr {s : State} (h : Canonical s) (dbl aq rl : Bool) (rd rs1 : Reg) :
    KeepsOut (Machine.execLr dbl aq rl rd rs1 s) := by
  unfold Machine.execLr
  refine h.runInstr _ Gives.none _ fun _ h1 => ?_
  refine Holds.bind (Holds.pointerAddr ..) fun _ _ => ?_
  dsimp only
  split
  · exact trivial
  · split
    · exact trivial
    · refine Holds.bind (h1.translateTh ..) ?_
      rintro ⟨s2, _⟩ (h2 : Canonical s2)
      refine Holds.bind (P := fun a => Canonical a.1) ?_ ?_
      · dsimp only
        split
        · exact trivial
        · exact h2.readPlain ..
      rintro ⟨s3, _⟩ (h3 : Canonical s3)
      refine Holds.bind (P := Canonical) ?_ ?_
      · dsimp only
        split
        next heq => exact (Gives.plainStop ..).some heq
        · exact (h3.enterWrite ..).modChunk ..
      rintro s4 (h4 : Canonical s4)
      exact h4.setX ..

theorem Canonical.execSc {s : State} (h : Canonical s) (dbl aq rl : Bool) (rd rs1 rs2 : Reg) :
    KeepsOut (Machine.execSc dbl aq rl rd rs1 rs2 s) := by
  unfold Machine.execSc
  refine h.runInstr _ Gives.none _ fun _ h1 => ?_
  refine Holds.bind (Holds.pointerAddr ..) fun _ _ => ?_
  split
  · exact trivial
  · refine Holds.bind (h1.translateTh ..) ?_
    rintro ⟨s2, _⟩ (h2 : Canonical s2)
    dsimp only
    split
    · refine Holds.bind (P := Canonical) ?_ ?_
      · split
        · exact trivial
        · exact h2.storeTo ..
      rintro s3 (h3 : Canonical s3)
      exact (h3.enterRead ..).setX ..
    · exact h2.setX ..

theorem Canonical.execAmo {s : State} (h : Canonical s) (f : AmoOp) (dbl aq rl : Bool) (rd rs1 rs2 : Reg) :
    KeepsOut (Machine.execAmo f dbl aq rl rd rs1 rs2 s) := by
  unfold Machine.execAmo
  refine h.runInstr _ Gives.none _ fun _ h1 => ?_
  refine Holds.bind (Holds.pointerAddr ..) fun _ _ => ?_
  split
  · exact trivial
  · split
    · exact trivial
    · refine Holds.bind (h1.translateTh ..) ?_
      rintro ⟨s2, _⟩ (h2 : Canonical s2)
      refine Holds.bind (h2.readPlain ..) ?_
      rintro ⟨s3, _⟩ (h3 : Canonical s3)
      exact Holds.bind (h3.storeTo ..) fun _ h4 => h4.setX ..

theorem Canonical.execWfi {s : State} (h : Canonical s) : KeepsOut (Machine.execWfi s) := by
  unfold Machine.execWfi
  refine h.runInstr _ Gives.none _ fun _ h1 => ?_
  exact Holds.bind (Holds.notInEvent ..) fun _ _ => Holds.bind (Holds.noRewrite ..) fun _ _ => h1

theorem Canonical.fenceTlb {s : State} (h : Canonical s) (core : Nat) (va id : Option Word) :
    Canonical (s.fenceTlb core va id) := h.same

theorem Canonical.execSfenceVma {s : State} (h : Canonical s) (rs1 rs2 : Reg) : KeepsOut (Machine.execSfenceVma rs1 rs2 s) :=
  h.runInstr _ (Gives.needS ..) _ fun _ h1 => (h1.fenceTlb ..).modChunk ..

theorem Canonical.execEcall {s : State} (h : Canonical s) : KeepsOut (Machine.execEcall s) :=
  h.runInstr _ Gives.none _ fun _ _ => trivial

theorem Canonical.execEbreak {s : State} (h : Canonical s) : KeepsOut (Machine.execEbreak s) :=
  h.runInstr _ Gives.none _ fun _ _ => trivial

theorem Canonical.execSret {s : State} (h : Canonical s) : KeepsOut (Machine.execSret s) := by
  unfold Machine.execSret
  refine h.runInstr _ (Gives.needS ..) _ fun _ h1 => ?_
  extract_lets s2 s3
  have h2 : Canonical s2 := (((h1.capture ..).capture ..).capture ..).capture ..
  have h3 : Canonical s3 := h2.modRegs ..
  exact h3

theorem Holds.vecStart (s : State) (ok : Nat → Bool) : Holds (fun _ => True) (Machine.vecStart s ok) := by
  unfold Machine.vecStart
  extract_lets
  split
  · exact trivial
  · split
    · exact trivial
    · exact trivial

theorem Canonical.vecBody {s : State} (h : Canonical s) (ok : Nat → Bool) (g : BitVec 3) (d : Reg)
    (f : State → VType → Nat → Nat × BitVec 6) :
    Keeps (Machine.vecBody ok g d f s) :=
  Holds.bind (Holds.vecStart ..) fun _ _ => (h.orFlags ..).enterVec ..

theorem Canonical.arithBody {s : State} (h : Canonical s) (op : VOp) (g : BitVec 3) (d a b : Reg) :
    Keeps (Machine.arithBody op g d a b s) := h.vecBody ..

theorem Canonical.execVadd {s : State} (h : Canonical s) (p : Bool) (g : BitVec 3) (d a b : Reg) :
    KeepsOut (Machine.execVadd p g d a b s) :=
  h.runInstr _ Gives.none _ fun _ h1 => h1.arithBody ..

theorem Canonical.execVsub {s : State} (h : Canonical s) (p : Bool) (g : BitVec 3) (d a b : Reg) :
    KeepsOut (Machine.execVsub p g d a b s) :=
  h.runInstr _ Gives.none _ fun _ h1 => h1.arithBody ..

theorem Canonical.execVmul {s : State} (h : Canonical s) (p : Bool) (g : BitVec 3) (d a b : Reg) :
    KeepsOut (Machine.execVmul p g d a b s) :=
  h.runInstr _ Gives.none _ fun _ h1 => h1.arithBody ..

theorem Canonical.execVfma {s : State} (h : Canonical s) (p : Bool) (g : BitVec 3) (d a b : Reg) :
    KeepsOut (Machine.execVfma p g d a b s) :=
  h.runInstr _ Gives.none _ fun _ h1 => h1.arithBody ..

theorem Canonical.execVfms {s : State} (h : Canonical s) (p : Bool) (g : BitVec 3) (d a b : Reg) :
    KeepsOut (Machine.execVfms p g d a b s) :=
  h.runInstr _ Gives.none _ fun _ h1 => h1.arithBody ..

theorem Canonical.execVmin {s : State} (h : Canonical s) (p : Bool) (g : BitVec 3) (d a b : Reg) :
    KeepsOut (Machine.execVmin p g d a b s) :=
  h.runInstr _ Gives.none _ fun _ h1 => h1.arithBody ..

theorem Canonical.execVmax {s : State} (h : Canonical s) (p : Bool) (g : BitVec 3) (d a b : Reg) :
    KeepsOut (Machine.execVmax p g d a b s) :=
  h.runInstr _ Gives.none _ fun _ h1 => h1.arithBody ..

theorem Canonical.execVabs {s : State} (h : Canonical s) (p : Bool) (g : BitVec 3) (d a : Reg) :
    KeepsOut (Machine.execVabs p g d a s) :=
  h.runInstr _ Gives.none _ fun _ h1 => h1.arithBody ..

theorem Canonical.execVneg {s : State} (h : Canonical s) (p : Bool) (g : BitVec 3) (d a : Reg) :
    KeepsOut (Machine.execVneg p g d a s) :=
  h.runInstr _ Gives.none _ fun _ h1 => h1.arithBody ..

theorem Canonical.bitBody {s : State} (h : Canonical s) (f : Nat → Nat → Nat → Nat) (g : BitVec 3) (d a b : Reg) :
    Keeps (Machine.bitBody f g d a b s) := h.vecBody ..

theorem Canonical.execVand {s : State} (h : Canonical s) (p : Bool) (g : BitVec 3) (d a b : Reg) :
    KeepsOut (Machine.execVand p g d a b s) :=
  h.runInstr _ Gives.none _ fun _ h1 => h1.bitBody ..

theorem Canonical.execVor {s : State} (h : Canonical s) (p : Bool) (g : BitVec 3) (d a b : Reg) :
    KeepsOut (Machine.execVor p g d a b s) :=
  h.runInstr _ Gives.none _ fun _ h1 => h1.bitBody ..

theorem Canonical.execVxor {s : State} (h : Canonical s) (p : Bool) (g : BitVec 3) (d a b : Reg) :
    KeepsOut (Machine.execVxor p g d a b s) :=
  h.runInstr _ Gives.none _ fun _ h1 => h1.bitBody ..

theorem Canonical.execVshl {s : State} (h : Canonical s) (p : Bool) (g : BitVec 3) (d a b : Reg) :
    KeepsOut (Machine.execVshl p g d a b s) :=
  h.runInstr _ Gives.none _ fun _ h1 => h1.bitBody ..

theorem Canonical.execVshr {s : State} (h : Canonical s) (p : Bool) (g : BitVec 3) (d a b : Reg) :
    KeepsOut (Machine.execVshr p g d a b s) :=
  h.runInstr _ Gives.none _ fun _ h1 => h1.bitBody ..

theorem Canonical.execVshrl {s : State} (h : Canonical s) (p : Bool) (g : BitVec 3) (d a b : Reg) :
    KeepsOut (Machine.execVshrl p g d a b s) :=
  h.runInstr _ Gives.none _ fun _ h1 => h1.bitBody ..

theorem Canonical.cmpBody {s : State} (h : Canonical s) (c : VCmp) (g d : BitVec 3) (a b : Reg) :
    Keeps (Machine.cmpBody c g d a b s) :=
  Holds.bind (Holds.vecStart ..) fun _ _ => (h.orFlags ..).enterVec ..

theorem Canonical.execVcmpeq {s : State} (h : Canonical s) (p : Bool) (g d : BitVec 3) (a b : Reg) :
    KeepsOut (Machine.execVcmpeq p g d a b s) :=
  h.runInstr _ Gives.none _ fun _ h1 => h1.cmpBody ..

theorem Canonical.execVcmplt {s : State} (h : Canonical s) (p : Bool) (g d : BitVec 3) (a b : Reg) :
    KeepsOut (Machine.execVcmplt p g d a b s) :=
  h.runInstr _ Gives.none _ fun _ h1 => h1.cmpBody ..

theorem Canonical.execVcmple {s : State} (h : Canonical s) (p : Bool) (g d : BitVec 3) (a b : Reg) :
    KeepsOut (Machine.execVcmple p g d a b s) :=
  h.runInstr _ Gives.none _ fun _ h1 => h1.cmpBody ..

theorem Canonical.execVsel {s : State} (h : Canonical s) (p : Bool) (g : BitVec 3) (d a b : Reg) :
    KeepsOut (Machine.execVsel p g d a b s) :=
  h.runInstr _ Gives.none _ fun _ h1 => Holds.bind (Holds.vecStart ..) fun _ _ => h1.enterVec ..

theorem Canonical.execVmov {s : State} (h : Canonical s) (p : Bool) (g : BitVec 3) (d a : Reg) :
    KeepsOut (Machine.execVmov p g d a s) :=
  h.runInstr _ Gives.none _ fun _ h1 => h1.vecBody ..

theorem Canonical.execVbcast {s : State} (h : Canonical s) (p : Bool) (g : BitVec 3) (d a : Reg) :
    KeepsOut (Machine.execVbcast p g d a s) :=
  h.runInstr _ Gives.none _ fun _ h1 => h1.vecBody ..

theorem Canonical.execVins {s : State} (h : Canonical s) (p : Bool) (g : BitVec 3) (d a b : Reg) :
    KeepsOut (Machine.execVins p g d a b s) :=
  h.runInstr _ Gives.none _ fun _ h1 => h1.vecBody ..

theorem Canonical.execVext {s : State} (h : Canonical s) (p : Bool) (g : BitVec 3) (d a b : Reg) :
    KeepsOut (Machine.execVext p g d a b s) :=
  h.runInstr _ Gives.none _ fun _ h1 => Holds.bind (Holds.vecStart ..) fun _ _ => h1.enterVec ..

theorem Canonical.execVperm {s : State} (h : Canonical s) (p : Bool) (g : BitVec 3) (d a b : Reg) :
    KeepsOut (Machine.execVperm p g d a b s) :=
  h.runInstr _ Gives.none _ fun _ h1 => h1.vecBody ..

theorem Canonical.execVcvt {s : State} (h : Canonical s) (p : Bool) (g : BitVec 3) (d a : Reg) (fmt : BitVec 4) (u : Bool) :
    KeepsOut (Machine.execVcvt p g d a fmt u s) := by
  unfold Machine.execVcvt
  refine h.runInstr _ Gives.none _ fun _ h1 => ?_
  refine Holds.bind (Holds.vecStart ..) fun _ _ => ?_
  extract_lets
  split
  · exact trivial
  · exact (h1.orFlags ..).enterVec ..

theorem Canonical.reduceVecBody {s : State} (h : Canonical s) (op : VOp) (g : BitVec 3) (d a : Reg) :
    Keeps (Machine.reduceVecBody op g d a s) := by
  unfold Machine.reduceVecBody
  refine Holds.bind (Holds.vecStart ..) fun _ _ => ?_
  extract_lets
  split
  · extract_lets
    exact (h.orFlags ..).enterVec ..

theorem Canonical.execVrsum {s : State} (h : Canonical s) (p : Bool) (g : BitVec 3) (d a : Reg) :
    KeepsOut (Machine.execVrsum p g d a s) :=
  h.runInstr _ Gives.none _ fun _ h1 => h1.reduceVecBody ..

theorem Canonical.execVrmax {s : State} (h : Canonical s) (p : Bool) (g : BitVec 3) (d a : Reg) :
    KeepsOut (Machine.execVrmax p g d a s) :=
  h.runInstr _ Gives.none _ fun _ h1 => h1.reduceVecBody ..

theorem Canonical.execVrmin {s : State} (h : Canonical s) (p : Bool) (g : BitVec 3) (d a : Reg) :
    KeepsOut (Machine.execVrmin p g d a s) :=
  h.runInstr _ Gives.none _ fun _ h1 => h1.reduceVecBody ..

theorem Canonical.fnBody {s : State} (h : Canonical s) (fn : Fn) (g : BitVec 3) (d a : Reg) :
    Keeps (Machine.fnBody fn g d a s) := h.vecBody ..

theorem Canonical.execVrcp {s : State} (h : Canonical s) (p : Bool) (g : BitVec 3) (d a : Reg) :
    KeepsOut (Machine.execVrcp p g d a s) :=
  h.runInstr _ Gives.none _ fun _ h1 => h1.fnBody ..

theorem Canonical.execVrsqrt {s : State} (h : Canonical s) (p : Bool) (g : BitVec 3) (d a : Reg) :
    KeepsOut (Machine.execVrsqrt p g d a s) :=
  h.runInstr _ Gives.none _ fun _ h1 => h1.fnBody ..

theorem Canonical.execVexp2 {s : State} (h : Canonical s) (p : Bool) (g : BitVec 3) (d a : Reg) :
    KeepsOut (Machine.execVexp2 p g d a s) :=
  h.runInstr _ Gives.none _ fun _ h1 => h1.fnBody ..

theorem Canonical.execVlog2 {s : State} (h : Canonical s) (p : Bool) (g : BitVec 3) (d a : Reg) :
    KeepsOut (Machine.execVlog2 p g d a s) :=
  h.runInstr _ Gives.none _ fun _ h1 => h1.fnBody ..

theorem Canonical.execVsett {s : State} (h : Canonical s) (p : Bool) (d a : Reg) : KeepsOut (Machine.execVsett p d a s) :=
  h.runInstr _ Gives.none _ fun _ h1 => (h1.setX ..).setCsr ..

theorem Canonical.predBody {s : State} (h : Canonical s) (w : State → RegVal) : Keeps (Machine.predBody w s) := by
  unfold Machine.predBody
  split
  · exact trivial
  · exact h.enterVec ..

theorem Canonical.execPand {s : State} (h : Canonical s) (p : Bool) (d a b : BitVec 3) : KeepsOut (Machine.execPand p d a b s) :=
  h.runInstr _ Gives.none _ fun _ h1 => h1.predBody ..

theorem Canonical.execPor {s : State} (h : Canonical s) (p : Bool) (d a b : BitVec 3) : KeepsOut (Machine.execPor p d a b s) :=
  h.runInstr _ Gives.none _ fun _ h1 => h1.predBody ..

theorem Canonical.execPnot {s : State} (h : Canonical s) (p : Bool) (d a : BitVec 3) : KeepsOut (Machine.execPnot p d a s) :=
  h.runInstr _ Gives.none _ fun _ h1 => h1.predBody ..

theorem Canonical.execPcnt {s : State} (h : Canonical s) (p : Bool) (d : Reg) (a : BitVec 3) :
    KeepsOut (Machine.execPcnt p d a s) :=
  h.runInstr _ Gives.none _ fun _ h1 => h1.predBody ..

theorem Canonical.execPfirst {s : State} (h : Canonical s) (p : Bool) (d : Reg) (a : BitVec 3) :
    KeepsOut (Machine.execPfirst p d a s) :=
  h.runInstr _ Gives.none _ fun _ h1 => h1.predBody ..

theorem Canonical.execPset {s : State} (h : Canonical s) (p : Bool) (d : BitVec 3) (a : Reg) :
    KeepsOut (Machine.execPset p d a s) :=
  h.runInstr _ Gives.none _ fun _ h1 => h1.predBody ..

theorem Holds.elemAddrs (base : Word) (off : Nat → Int) (l : List Nat) :
    Holds (fun _ => True) (Machine.elemAddrs base off l) := by
  induction l with
  | nil => trivial
  | cons i is ih =>
    unfold Machine.elemAddrs
    split
    next heq => exact (Holds.pointerAddr ..).error heq
    · split
      next heq => exact ih.error heq
      · trivial

theorem Canonical.vloadBody {s : State} (h : Canonical s) (m : VMem) (g : BitVec 3) (d a : Reg) :
    Keeps (Machine.vloadBody m g d a s) := by
  unfold Machine.vloadBody
  refine Holds.bind (Holds.vecStart ..) fun _ _ => ?_
  refine Holds.bind (Holds.pointerAddr ..) fun _ _ => ?_
  refine Holds.bind (Holds.elemAddrs ..) fun _ _ => ?_
  refine Holds.bind (h.loadMany ..) ?_
  rintro ⟨s1, _⟩ (h1 : Canonical s1)
  exact h1.enterVec ..

theorem Canonical.vstoreBody {s : State} (h : Canonical s) (m : VMem) (g : BitVec 3) (d a : Reg) :
    Keeps (Machine.vstoreBody m g d a s) := by
  unfold Machine.vstoreBody
  refine Holds.bind (Holds.vecStart ..) fun _ _ => ?_
  refine Holds.bind (Holds.pointerAddr ..) fun _ _ => ?_
  exact Holds.bind (Holds.elemAddrs ..) fun _ _ => Holds.bind (h.storeMany ..) fun _ h1 => h1.enterVec ..

theorem Canonical.execVld {s : State} (h : Canonical s) (p : Bool) (g : BitVec 3) (d a : Reg) :
    KeepsOut (Machine.execVld p g d a s) :=
  h.runInstr _ Gives.none _ fun _ h1 => h1.vloadBody ..

theorem Canonical.execVst {s : State} (h : Canonical s) (p : Bool) (g : BitVec 3) (d a : Reg) :
    KeepsOut (Machine.execVst p g d a s) :=
  h.runInstr _ Gives.none _ fun _ h1 => h1.vstoreBody ..

theorem Canonical.execVlds {s : State} (h : Canonical s) (p : Bool) (g : BitVec 3) (d a b : Reg) :
    KeepsOut (Machine.execVlds p g d a b s) :=
  h.runInstr _ Gives.none _ fun _ h1 => h1.vloadBody ..

theorem Canonical.execVsts {s : State} (h : Canonical s) (p : Bool) (g : BitVec 3) (d a b : Reg) :
    KeepsOut (Machine.execVsts p g d a b s) :=
  h.runInstr _ Gives.none _ fun _ h1 => h1.vstoreBody ..

theorem Canonical.execVgath {s : State} (h : Canonical s) (p : Bool) (g : BitVec 3) (d a b : Reg) :
    KeepsOut (Machine.execVgath p g d a b s) :=
  h.runInstr _ Gives.none _ fun _ h1 => h1.vloadBody ..

theorem Canonical.execVscat {s : State} (h : Canonical s) (p : Bool) (g : BitVec 3) (d a b : Reg) :
    KeepsOut (Machine.execVscat p g d a b s) :=
  h.runInstr _ Gives.none _ fun _ h1 => h1.vstoreBody ..

theorem Holds.vlocalPlace (s : State) (la : Word) : Holds (fun _ => True) (Machine.vlocalPlace s la) := by
  unfold Machine.vlocalPlace
  extract_lets
  split
  · exact Holds.localPlace ..
  · exact trivial

theorem Canonical.readElems {s : State} (h : Canonical s) (pl : LocalPlace) (la n : Nat) (a : List Nat) :
    Keeps (Machine.readElems s pl la n a) := by
  induction a generalizing s with
  | nil =>
    unfold Machine.readElems
    exact h
  | cons x a ih =>
    unfold Machine.readElems
    split
    next heq => exact (h.localRead ..).error heq
    next heq =>
      split
      next heq1 => exact (ih ((h.localRead ..).state heq)).error heq1
      next heq1 => exact (ih ((h.localRead ..).state heq)).state heq1

theorem Canonical.writeElems {s : State} (h : Canonical s) (pl : LocalPlace) (la : Word) (a : List (Nat × List Byte)) :
    Holds Canonical (Machine.writeElems s pl la a) := by
  induction a generalizing s with
  | nil =>
    unfold Machine.writeElems
    exact h
  | cons x a ih =>
    unfold Machine.writeElems
    split
    next heq => exact (h.localWrite ..).error heq
    next heq => exact ih ((h.localWrite ..).ok heq)

theorem Canonical.execVldl {s : State} (h : Canonical s) (p : Bool) (g : BitVec 3) (d a : Reg) :
    KeepsOut (Machine.execVldl p g d a s) := by
  unfold Machine.execVldl
  refine h.runInstr _ Gives.none _ fun _ h1 => ?_
  refine Holds.bind (Holds.vecStart ..) fun _ _ => ?_
  refine Holds.bind (Holds.vlocalPlace ..) fun _ _ => ?_
  refine Holds.bind (h1.readElems ..) ?_
  rintro ⟨s2, _⟩ (h2 : Canonical s2)
  exact h2.enterVec ..

theorem Canonical.execVstl {s : State} (h : Canonical s) (p : Bool) (g : BitVec 3) (d a : Reg) :
    KeepsOut (Machine.execVstl p g d a s) := by
  unfold Machine.execVstl
  refine h.runInstr _ Gives.none _ fun _ h1 => ?_
  refine Holds.bind (Holds.vecStart ..) fun _ _ => ?_
  exact Holds.bind (Holds.vlocalPlace ..) fun _ _ => Holds.bind (h1.writeElems ..) fun _ h2 => h2.enterVec ..

end Sys2Proof.Machine
end

section
/-!
PROOFS. Memory's canonical form: generators, tiles and CSRs (O60).
-/
set_option Elab.async false
namespace Sys2Proof.Machine

theorem Gives.needTile (s : State) (i : Instr) : Gives Stop.Canonical (Machine.needTile i s) := by
  unfold Machine.needTile
  split
  · exact trivial
  · exact trivial

theorem Canonical.gsetBody {s : State} (h : Canonical s) (gd : BitVec 3) (f : Word → GReg → GReg) (a : Reg) :
    Keeps (Machine.gsetBody gd f a s) := h.setG ..

theorem Canonical.execGsetK {s : State} (h : Canonical s) (p : Bool) (gd : BitVec 3) (a : Reg) :
    KeepsOut (Machine.execGsetK p gd a s) :=
  h.runInstr _ (Gives.needTile ..) _ fun _ h1 => h1.gsetBody ..

theorem Canonical.execGsetSeed {s : State} (h : Canonical s) (p : Bool) (gd : BitVec 3) (a : Reg) :
    KeepsOut (Machine.execGsetSeed p gd a s) :=
  h.runInstr _ (Gives.needTile ..) _ fun _ h1 => h1.gsetBody ..

theorem Canonical.execGsetScope {s : State} (h : Canonical s) (p : Bool) (gd : BitVec 3) (a : Reg) (loc : Bool) :
    KeepsOut (Machine.execGsetScope p gd a loc s) :=
  h.runInstr _ (Gives.needTile ..) _ fun _ h1 => h1.gsetBody ..

theorem Canonical.execGsetOrg {s : State} (h : Canonical s) (p : Bool) (gd : BitVec 3) (a : Reg) :
    KeepsOut (Machine.execGsetOrg p gd a s) :=
  h.runInstr _ (Gives.needTile ..) _ fun _ h1 => h1.gsetBody ..

theorem Canonical.execGsetPar {s : State} (h : Canonical s) (p : Bool) (gd : BitVec 3) (a : Reg) :
    KeepsOut (Machine.execGsetPar p gd a s) :=
  h.runInstr _ (Gives.needTile ..) _ fun _ h1 => h1.gsetBody ..

theorem Canonical.readRope {s : State} (h : Canonical s) (o : Nat) : Keeps (Machine.readRope s o) := by
  unfold Machine.readRope
  split
  · exact trivial
  · refine Holds.bind (h.bufRead ..) ?_
    rintro ⟨s1, _⟩ (h1 : Canonical s1)
    refine Holds.bind (h1.bufRead ..) ?_
    rintro ⟨s2, _⟩ (h2 : Canonical s2)
    refine Holds.bind (h2.bufRead ..) ?_
    rintro ⟨s3, _⟩ (h3 : Canonical s3)
    refine Holds.bind (h3.bufRead ..) ?_
    rintro ⟨s4, _⟩ (h4 : Canonical s4)
    exact h4

theorem Canonical.readRopes {s : State} (h : Canonical s) (g : GReg) (n : Nat) : Keeps (Machine.readRopes s g n) := by
  unfold Machine.readRopes
  split
  · exact h
  · refine Holds.foldlM ?_ ?_ _
    · exact h
    · intro _ _ h1
      refine Holds.bind (h1.readRope ..) ?_
      rintro ⟨s1, _⟩ (h2 : Canonical s1)
      exact h2

theorem Holds.needShape (w : BitVec 32) : Holds (fun _ => True) (Machine.needShape w) := by
  unfold Machine.needShape
  split
  · exact trivial
  · exact trivial

theorem Canonical.setTshape {s : State} (h : Canonical s) (n : BitVec 3) (w : BitVec 32) : Canonical (s.setTshape n w) := h.same

theorem Canonical.addTsat {s : State} (h : Canonical s) (n : BitVec 3) (k : Nat) : Canonical (s.addTsat n k) := by
  unfold State.addTsat
  split
  · exact h
  · exact h.setCsr ..

theorem Canonical.readScales {s : State} (hs : Canonical s) (h : Shape) (t : Tile) : Keeps (Machine.readScales s h t) := by
  unfold Machine.readScales
  split
  · exact hs
  · split
    · exact hs
    · refine Holds.foldlM ?_ ?_ _
      · exact hs
      · intro _ _ h1
        split
        · exact trivial
        · refine Holds.bind (h1.bufRead ..) ?_
          rintro ⟨s1, _⟩ (h2 : Canonical s1)
          exact h2

theorem Holds.rowStart (s : State) (h : Shape) (a : Reg) (pitched : Bool) (acc : Acc) (r : Nat) :
    Holds (fun _ => True) (Machine.rowStart s h a pitched acc r) := by
  unfold Machine.rowStart
  refine Holds.bind (Holds.pointerAddr ..) fun _ _ => ?_
  refine Holds.bind (Holds.pointerAddr ..) fun _ _ => ?_
  split
  · exact trivial
  · exact trivial

theorem Canonical.loadSpan {s : State} (h : Canonical s) (a : List (Nat × Nat)) : Keeps (Machine.loadSpan s a) := by
  induction a generalizing s with
  | nil =>
    unfold Machine.loadSpan
    exact h
  | cons x a ih =>
    unfold Machine.loadSpan
    split
    next heq => exact (h.translateTh ..).error heq
    next heq =>
      split
      next heq1 => exact (((h.translateTh ..).state heq).readPlain ..).error heq1
      next heq1 =>
        split
        next heq2 => exact (ih ((((h.translateTh ..).state heq).readPlain ..).state heq1)).error heq2
        next heq2 => exact (ih ((((h.translateTh ..).state heq).readPlain ..).state heq1)).state heq2

theorem Canonical.storeSpan {s : State} (h : Canonical s) (bs : List Byte) (l : List (Nat × Nat)) :
    Holds Canonical (Machine.storeSpan s bs l) := by
  induction l generalizing s bs with
  | nil => exact h
  | cons p l ih =>
    unfold Machine.storeSpan
    split
    next heq => exact (h.storeAt ..).error heq
    next heq => exact ih ((h.storeAt ..).ok heq) _

theorem Canonical.loadRows {s : State} (hs : Canonical s) (h : Shape) (a : Reg) (pitched : Bool) (b : List Nat) :
    Keeps (Machine.loadRows s h a pitched b) := by
  induction b generalizing s with
  | nil =>
    unfold Machine.loadRows
    exact hs
  | cons x b ih =>
    unfold Machine.loadRows
    split
    next heq => exact (Holds.rowStart ..).error heq
    · split
      next heq => exact (hs.loadSpan ..).error heq
      next heq =>
        split
        next heq1 => exact (ih ((hs.loadSpan ..).state heq)).error heq1
        next heq1 => exact (ih ((hs.loadSpan ..).state heq)).state heq1

theorem Canonical.storeRows {s : State} (hs : Canonical s) (h : Shape) (a : Reg) (pitched : Bool) (t : Tile) (l : List Nat) :
    Holds Canonical (Machine.storeRows s h a pitched t l) := by
  induction l generalizing s with
  | nil => exact hs
  | cons r l ih =>
    unfold Machine.storeRows
    split
    next heq => exact (Holds.rowStart ..).error heq
    · split
      next heq => exact (hs.storeSpan ..).error heq
      next heq => exact ih ((hs.storeSpan ..).ok heq)

theorem Canonical.execTld {s : State} (h : Canonical s) (p : Bool) (td : BitVec 3) (a : Reg) (pitched : Bool) :
    KeepsOut (Machine.execTld p td a pitched s) := by
  unfold Machine.execTld
  refine h.runInstr _ (Gives.needTile ..) _ fun _ h1 => ?_
  extract_lets _ _ s2
  have h2 : Canonical s2 := by
    dsimp only [s2]
    split
    · exact h1
    · exact h1.setTshape ..
  refine Holds.bind (Holds.pointerAddr ..) fun _ _ => ?_
  refine Holds.bind (Holds.needShape ..) fun _ _ => ?_
  refine Holds.bind (h2.loadRows ..) ?_
  rintro ⟨s3, _⟩ (h3 : Canonical s3)
  exact h3.setLong ..

theorem Canonical.execTst {s : State} (h : Canonical s) (p : Bool) (td : BitVec 3) (a : Reg) (pitched : Bool) :
    KeepsOut (Machine.execTst p td a pitched s) := by
  unfold Machine.execTst
  refine h.runInstr _ (Gives.needTile ..) _ fun _ h1 => ?_
  extract_lets
  refine Holds.bind (Holds.pointerAddr ..) fun _ _ => ?_
  split
  · exact trivial
  · exact Holds.bind (Holds.needShape ..) fun _ _ => Holds.bind (h1.storeRows ..) fun _ h2 => h2

theorem Canonical.execTzero {s : State} (h : Canonical s) (p : Bool) (td : BitVec 3) : KeepsOut (Machine.execTzero p td s) :=
  h.runInstr _ (Gives.needTile ..) _ fun _ h1 => h1.setLong ..

theorem Canonical.execTfill {s : State} (h : Canonical s) (p : Bool) (td : BitVec 3) (a : Reg) :
    KeepsOut (Machine.execTfill p td a s) :=
  h.runInstr _ (Gives.needTile ..) _ fun _ h1 => Holds.bind (Holds.needShape ..) fun _ _ => h1.setLong ..

theorem Canonical.execTmov {s : State} (h : Canonical s) (p : Bool) (td ta : BitVec 3) : KeepsOut (Machine.execTmov p td ta s) :=
  h.runInstr _ (Gives.needTile ..) _ fun _ h1 => (h1.setTshape ..).setLong ..

theorem Canonical.execTtrans {s : State} (h : Canonical s) (p : Bool) (td ta : BitVec 3) :
    KeepsOut (Machine.execTtrans p td ta s) := by
  unfold Machine.execTtrans
  refine h.runInstr _ (Gives.needTile ..) _ fun _ h1 => ?_
  refine Holds.bind (Holds.needShape ..) fun _ _ => ?_
  split
  · exact trivial
  · exact (h1.setTshape ..).setLong ..

theorem Holds.accWindow (s : State) (w : Word) : Holds (fun _ => True) (Machine.accWindow s w) := by
  unfold Machine.accWindow
  extract_lets
  split
  · exact trivial
  · exact trivial

theorem Canonical.execAcld {s : State} (h : Canonical s) (p : Bool) (td : BitVec 2) (a : Reg) :
    KeepsOut (Machine.execAcld p td a s) := by
  unfold Machine.execAcld
  refine h.runInstr _ (Gives.needTile ..) _ fun _ h1 => ?_
  refine Holds.bind (Holds.accWindow ..) fun _ _ => ?_
  refine Holds.bind (P := fun a => Canonical a.1) ?_ ?_
  · dsimp only
    refine Holds.foldlM ?_ ?_ _
    · exact h1
    · intro _ _ h2
      refine Holds.bind (h2.bufRead ..) ?_
      rintro ⟨s2, _⟩ (h3 : Canonical s2)
      exact h3
  rintro ⟨s2, _⟩ (h2 : Canonical s2)
  exact h2.setLong ..

theorem Canonical.execAcst {s : State} (h : Canonical s) (p : Bool) (td : BitVec 2) (a : Reg) :
    KeepsOut (Machine.execAcst p td a s) := by
  unfold Machine.execAcst
  refine h.runInstr _ (Gives.needTile ..) _ fun _ h1 => ?_
  refine Holds.bind (Holds.accWindow ..) fun _ _ => ?_
  split
  · exact trivial
  · exact trivial
  · extract_lets
    refine Holds.bind (P := Canonical) ?_ ?_
    · refine Holds.foldlM ?_ ?_ _
      · exact h1
      · intro s2 _ h2
        exact h2.bufPut ..
    rintro s2 (h2 : Canonical s2)
    exact h2

theorem Canonical.execAcz {s : State} (h : Canonical s) (p : Bool) (td : BitVec 2) : KeepsOut (Machine.execAcz p td s) :=
  h.runInstr _ (Gives.needTile ..) _ fun _ h1 => h1.setLong ..

theorem Canonical.execTcvt {s : State} (h : Canonical s) (p : Bool) (td : BitVec 3) (ta : BitVec 2) :
    KeepsOut (Machine.execTcvt p td ta s) := by
  unfold Machine.execTcvt
  refine h.runInstr _ (Gives.needTile ..) _ fun _ h1 => ?_
  refine Holds.bind (Holds.needShape ..) fun _ _ => ?_
  split
  · exact trivial
  · exact ((h1.orFlags ..).addTsat ..).setLong ..

theorem Holds.needGenerator (g : GReg) : Holds (fun _ => True) (Machine.needGenerator g) := by
  unfold Machine.needGenerator
  split
  · exact trivial
  · exact trivial

theorem Canonical.execTgen {s : State} (h : Canonical s) (p : Bool) (td g : BitVec 3) (tr : Bool) :
    KeepsOut (Machine.execTgen p td g tr s) := by
  unfold Machine.execTgen
  refine h.runInstr _ (Gives.needTile ..) _ fun _ h1 => ?_
  extract_lets _ s2
  have h2 : Canonical s2 := h1.setTshape ..
  refine Holds.bind (Holds.needGenerator ..) fun _ _ => ?_
  refine Holds.bind (Holds.needShape ..) fun _ _ => ?_
  refine Holds.bind (h2.readRopes ..) ?_
  rintro ⟨s3, _⟩ (h3 : Canonical s3)
  exact ((h3.orFlags ..).addTsat ..).setLong ..

theorem Canonical.deliver {s : State} (h : Canonical s) (td : BitVec 2) (r : BitVec 8192 × BitVec 6 × Nat × Option (Nat × Nat))
    (fl : BitVec 6) (sat : Nat) :
    Keeps (Machine.deliver s td r fl sat) := by
  unfold Machine.deliver
  extract_lets _ s1 s2
  have h1 : Canonical s1 := (h.orFlags ..).addTsat ..
  have h2 : Canonical s2 := by
    dsimp only [s2]
    split
    · exact (h1.markPending ..).modRegs ..
    · exact h1.setLong ..
  split
  · exact trivial
  · exact h2

theorem Canonical.execTmma {s : State} (h : Canonical s) (p : Bool) (td : BitVec 2) (ta tb : BitVec 3) (tr : Bool) :
    KeepsOut (Machine.execTmma p td ta tb tr s) := by
  unfold Machine.execTmma
  refine h.runInstr _ (Gives.needTile ..) _ fun _ h1 => ?_
  refine Holds.bind (Holds.needShape ..) fun _ _ => ?_
  refine Holds.bind (Holds.needShape ..) fun _ _ => ?_
  split
  · exact trivial
  · refine Holds.bind (h1.readScales ..) ?_
    rintro ⟨s2, _⟩ (h2 : Canonical s2)
    refine Holds.bind (h2.readScales ..) ?_
    rintro ⟨s3, _⟩ (h3 : Canonical s3)
    exact h3.deliver ..

theorem Canonical.execTmmas {s : State} (h : Canonical s) (p : Bool) (td : BitVec 2) (ta tb tm : BitVec 3) (tr : Bool) :
    KeepsOut (Machine.execTmmas p td ta tb tm tr s) := by
  unfold Machine.execTmmas
  refine h.runInstr _ (Gives.needTile ..) _ fun _ h1 => ?_
  refine Holds.bind (Holds.needShape ..) fun _ _ => ?_
  refine Holds.bind (Holds.needShape ..) fun _ _ => ?_
  extract_lets
  split
  · exact trivial
  · split
    · exact trivial
    · refine Holds.bind (h1.readScales ..) ?_
      rintro ⟨s2, _⟩ (h2 : Canonical s2)
      exact h2.deliver ..

theorem Canonical.execTmmag {s : State} (h : Canonical s) (p : Bool) (td : BitVec 2) (ta g : BitVec 3) (tr : Bool) :
    KeepsOut (Machine.execTmmag p td ta g tr s) := by
  unfold Machine.execTmmag
  refine h.runInstr _ (Gives.needTile ..) _ fun _ h1 => ?_
  refine Holds.bind (Holds.needGenerator ..) fun _ _ => ?_
  refine Holds.bind (Holds.needShape ..) fun _ _ => ?_
  dsimp only
  split
  · exact trivial
  · refine Holds.bind (h1.readScales ..) ?_
    rintro ⟨s2, _⟩ (h2 : Canonical s2)
    refine Holds.bind (h2.readRopes ..) ?_
    rintro ⟨s3, _⟩ (h3 : Canonical s3)
    exact h3.deliver ..

theorem Canonical.writeChunklen {s : State} (h : Canonical s) (v : Word) : Canonical (Machine.writeChunklen s v) := h.same

theorem Canonical.writeAerole {s : State} (h : Canonical s) (v : Word) : Canonical (Machine.writeAerole s v) := by
  unfold Machine.writeAerole
  extract_lets _ _ s1
  have h1 : Canonical s1 := h.modChunk ..
  split
  · exact h
  · split
    · split
      · split
        · exact h.setCsr ..
        · exact h
      · exact h
    · exact (h1.setPair ..).setCsr ..

theorem Canonical.writeSquashmax {s : State} (h : Canonical s) (v : Word) : Canonical (Machine.writeSquashmax s v) := h.same

theorem Canonical.writeVshare {s : State} (h : Canonical s) (v : Word) : Canonical (Machine.writeVshare s v) := h.same

theorem Canonical.writeStealdom {s : State} (h : Canonical s) (v : Word) : Holds Canonical (Machine.writeStealdom s v) :=
  Holds.bind (Holds.needScope ..) fun _ _ => h.setCsr ..

theorem Canonical.writeLoops {s : State} (h : Canonical s) (l : Nat) (v : Word) : Canonical (Machine.writeLoops s l v) := by
  unfold Machine.writeLoops
  split
  · exact h.setCsr ..
  · exact h.setCsr ..

theorem Canonical.writeLoopc {s : State} (h : Canonical s) (l : Nat) (v : Word) : Canonical (Machine.writeLoopc s l v) := by
  unfold Machine.writeLoopc
  split
  · exact h.setCsr ..
  · exact h.setCsr ..

theorem Canonical.writeErrinj {s : State} (h : Canonical s) (v : Word) : Canonical (Machine.writeErrinj s v) := h.same

theorem Canonical.writeErrlog {s : State} (h : Canonical s) (v : Word) : Canonical (Machine.writeErrlog s v) := by
  unfold Machine.writeErrlog
  split
  · extract_lets
    split
    · split
      · exact ((h.capture ..).modChunk ..).modCore ..
      · exact h
    · exact h

theorem Canonical.writeSatp {s : State} (h : Canonical s) (v : Word) : Canonical (Machine.writeSatp s v) := by
  unfold Machine.writeSatp
  split
  · exact h.setCsr ..
  · exact h

theorem Canonical.writeStvec {s : State} (h : Canonical s) (v : Word) : Canonical (Machine.writeStvec s v) := h.same

theorem Canonical.writeEvent {s : State} (h : Canonical s) (cnt : Bool) (n : BitVec 3) (v : Word) :
    Canonical (Machine.writeEvent s cnt n v) := h.same

theorem Canonical.writePerCore {s : State} (h : Canonical s) (therm : Bool) (v : Word) :
    Canonical (Machine.writePerCore s therm v) := h.same

theorem Canonical.csrWrite {s : State} (h : Canonical s) (n : BitVec 12) (v : Word) :
    Holds Canonical (Machine.csrWrite s n v) := by
  unfold Machine.csrWrite
  split
  · exact h.setCsr ..
  · exact h.setCsr ..
  · exact h.writeStvec ..
  · exact h.setCsr ..
  · exact h.setCsr ..
  · exact h.setCsr ..
  · exact h.setCsr ..
  · exact h.setCsr ..
  · exact h.writeSatp ..
  · exact h.setCsr ..
  · exact h.setCsr ..
  · exact h.setCsr ..
  · exact h.writeErrinj ..
  · exact h.writeErrlog ..
  · exact h.setCsr ..
  · exact h.writePerCore ..
  · exact h.writePerCore ..
  · exact h.writeSquashmax ..
  · exact h.setCsr ..
  · exact h.setCsr ..
  · exact h.setCsr ..
  · exact h.writeChunklen ..
  · exact h.writeVshare ..
  · exact h.writeStealdom ..
  · exact h.writeAerole ..
  · exact h.setCsr ..
  · exact h.setCsr ..
  · exact h.setCsr ..
  · exact h.setCsr ..
  · exact h.writeLoops ..
  · exact h.writeLoopc ..
  · exact h.writeLoops ..
  · exact h.writeLoopc ..
  · exact h.postCommit ..
  · extract_lets
    split
    · exact h.setTshape ..
    · exact h.setCsr ..
    · exact h.writeEvent ..
    · exact h.writeEvent ..
    · exact h

theorem Canonical.execCsrInstruction {s : State} (h : Canonical s) (f : CsrOp) (immediate : Bool) (csr : BitVec 12) (rd src : Reg) :
    KeepsOut (Machine.execCsrInstruction f immediate csr rd src s) := by
  refine h.runInstr _ ?_ _ ?_
  · split
    · trivial
    · trivial
  · intro _ h1
    refine Holds.bind (P := fun _ => True) ?_ ?_
    · split
      · trivial
      · trivial
    · intro _ _
      extract_lets old w finish
      have hfinish : ∀ s, Canonical s → Keeps (finish s) := fun _ h => h.setX ..
      split
      · exact Holds.bind (h1.csrWrite ..) hfinish
      · exact hfinish _ h1

theorem Canonical.threadWrite {s : State} (h : Canonical s) {f : State → Except Stop State} (hf : Holds Canonical (f s)) :
    Canonical (Machine.threadWrite s f) := by
  unfold Machine.threadWrite
  split
  · split
    next heq => exact hf.ok heq
    next heq => exact h.applyStop (hf.error heq)
  · exact h

theorem Canonical.execChunklenWrite {s : State} (h : Canonical s) (v : Word) : KeepsOut (Machine.execChunklenWrite v s) := by
  unfold Machine.execChunklenWrite
  refine h.threadWrite ?_
  exact h.writeChunklen ..

theorem Canonical.execAeroleWrite {s : State} (h : Canonical s) (v : Word) : KeepsOut (Machine.execAeroleWrite v s) := by
  unfold Machine.execAeroleWrite
  refine h.threadWrite ?_
  exact h.writeAerole ..

theorem Canonical.execSquashmaxWrite {s : State} (h : Canonical s) (v : Word) : KeepsOut (Machine.execSquashmaxWrite v s) := by
  unfold Machine.execSquashmaxWrite
  refine h.threadWrite ?_
  exact h.writeSquashmax ..

theorem Canonical.execStealdomWrite {s : State} (h : Canonical s) (v : Word) : KeepsOut (Machine.execStealdomWrite v s) := by
  unfold Machine.execStealdomWrite
  refine h.threadWrite ?_
  exact h.writeStealdom ..

theorem Canonical.execLoopcWrite {s : State} (h : Canonical s) (l : BitVec 1) (v : Word) :
    KeepsOut (Machine.execLoopcWrite l v s) := by
  unfold Machine.execLoopcWrite
  refine h.threadWrite ?_
  exact h.writeLoopc ..

theorem Canonical.execErrinjWrite {s : State} (h : Canonical s) (v : Word) : KeepsOut (Machine.execErrinjWrite v s) := by
  unfold Machine.execErrinjWrite
  refine h.threadWrite ?_
  exact h.writeErrinj ..

theorem Canonical.execErrlogEntryClear {s : State} (h : Canonical s) (v : Word) :
    KeepsOut (Machine.execErrlogEntryClear v s) := by
  unfold Machine.execErrlogEntryClear
  refine h.threadWrite ?_
  exact h.writeErrlog ..

theorem Canonical.execEventCsrWrite {s : State} (h : Canonical s) (cnt : Bool) (n : BitVec 3) (v : Word) :
    KeepsOut (Machine.execEventCsrWrite cnt n v s) := by
  unfold Machine.execEventCsrWrite
  refine h.threadWrite ?_
  exact h.writeEvent ..

theorem Canonical.execPerCoreCsrWrite {s : State} (h : Canonical s) (therm : Bool) (v : Word) :
    KeepsOut (Machine.execPerCoreCsrWrite therm v s) := by
  unfold Machine.execPerCoreCsrWrite
  refine h.threadWrite ?_
  exact h.writePerCore ..

theorem Canonical.execSatpWrite {s : State} (h : Canonical s) (v : Word) : KeepsOut (Machine.execSatpWrite v s) := by
  unfold Machine.execSatpWrite
  refine h.threadWrite ?_
  exact h.writeSatp ..

theorem Canonical.execStvecWrite {s : State} (h : Canonical s) (v : Word) : KeepsOut (Machine.execStvecWrite v s) := by
  unfold Machine.execStvecWrite
  refine h.threadWrite ?_
  exact h.writeStvec ..

theorem Canonical.execVshareWrite {s : State} (h : Canonical s) (v : Word) : KeepsOut (Machine.execVshareWrite v s) := by
  unfold Machine.execVshareWrite
  refine h.threadWrite ?_
  exact h.writeVshare ..

end Sys2Proof.Machine
end

section
/-!
PROOFS. Memory's canonical form: messages, tasks, engines and nets (O60).
-/
set_option Elab.async false
namespace Sys2Proof.Machine

theorem Canonical.reserveSend {s : State} (h : Canonical s) : Holds Canonical (Machine.reserveSend s) := by
  unfold Machine.reserveSend
  split
  · exact h.modChunk ..
  · split
    · exact trivial
    · split
      · exact trivial
      · exact trivial

theorem Canonical.formMessage {s : State} (h : Canonical s) (desc vrt : Word) (b : Reg) :
    Canonical (Machine.formMessage s desc vrt b).1 := by
  unfold Machine.formMessage
  extract_lets _ _ _ _ _ _ _ s1
  have h1 : Canonical s1 := h.modRegs ..
  exact h1.postCommit ..

theorem Canonical.execSend {s : State} (h : Canonical s) (p : Bool) (a b : Reg) : KeepsOut (Machine.execSend p a b s) := by
  unfold Machine.execSend
  refine h.runInstr _ Gives.none _ fun _ h1 => ?_
  refine Holds.bind (Holds.notInEvent ..) fun _ _ => ?_
  extract_lets
  split
  · exact trivial
  · exact Holds.bind (h1.reserveSend ..) fun _ h2 => h2.formMessage ..

theorem Canonical.execSendt {s : State} (h : Canonical s) (p : Bool) (a b d : Reg) : KeepsOut (Machine.execSendt p a b d s) := by
  unfold Machine.execSendt
  refine h.runInstr _ Gives.none _ fun _ h1 => ?_
  dsimp only
  split
  · exact trivial
  · split
    · exact trivial
    · split
      · exact trivial
      · split
        · exact trivial
        · split
          · exact trivial
          · refine Holds.bind (h1.reserveSend ..) fun _ h2 => ?_
            refine Holds.of ?_
            split
            · exact (h2.formMessage ..).postCommit ..
            · exact h2.formMessage ..

theorem Gives.ringStop (s : State) (d : Reg) (m : Msg) : Gives Stop.Canonical (Machine.ringStop s d m) := by
  unfold Machine.ringStop
  extract_lets
  split
  · exact trivial
  · split
    · exact trivial
    · split
      · exact trivial
      · exact trivial

theorem Canonical.giveMessage {s : State} (h : Canonical s) (d : Reg) (payload image : VReg) :
    Canonical (Machine.giveMessage s d payload image) := (h.setLong ..).setLong ..

theorem Canonical.takeMessage {s : State} (h : Canonical s) (d : Reg) (m : Msg) :
    Holds Canonical (Machine.takeMessage s d m) := by
  unfold Machine.takeMessage
  split
  next heq => exact (Gives.ringStop ..).some heq
  · extract_lets _ _ s1 s2
    have h1 : Canonical s1 := h.modTh ..
    have h2 : Canonical s2 := h1.countEvent ..
    exact h2.giveMessage ..

theorem Canonical.recvBody {s : State} (h : Canonical s) (d : Reg) (mask : BitVec 4) (sel : Option Word) :
    Keeps (Machine.recvBody d mask sel s) := by
  unfold Machine.recvBody
  split
  · exact Holds.bind (h.takeMessage ..) fun _ h1 => h1
  · exact h

theorem Canonical.execRecv {s : State} (h : Canonical s) (p : Bool) (d a : Reg) : KeepsOut (Machine.execRecv p d a s) := by
  unfold Machine.execRecv
  refine h.runInstr _ Gives.none _ fun _ h1 => ?_
  exact Holds.bind (Holds.notInEvent ..) fun _ _ => Holds.bind (Holds.noRewrite ..) fun _ _ => h1.recvBody ..

theorem Canonical.execRecvs {s : State} (h : Canonical s) (p : Bool) (d a b : Reg) : KeepsOut (Machine.execRecvs p d a b s) := by
  unfold Machine.execRecvs
  refine h.runInstr _ Gives.none _ fun _ h1 => ?_
  refine Holds.bind (Holds.notInEvent ..) fun _ _ => ?_
  refine Holds.bind (Holds.noRewrite ..) fun _ _ => ?_
  split
  · exact trivial
  · exact h1.recvBody ..

theorem Canonical.captureImage {s : State} (h : Canonical s) :
    Canonical (Machine.captureImage s) := h.foldl (fun _ _ h => h.capture ..) _

theorem Canonical.execRecvt {s : State} (h : Canonical s) (p : Bool) (d : Reg) : KeepsOut (Machine.execRecvt p d s) := by
  unfold Machine.execRecvt
  refine h.runInstr _ ?_ _ ?_
  · split
    · exact trivial
    · exact trivial
  · intro _ h1
    refine Holds.bind (Holds.noRewrite ..) fun _ _ => ?_
    split
    · exact trivial
    · split
      · exact (h1.cutChunk ..).stall ..
      · split
        next heq => exact (Gives.ringStop ..).some heq
        · exact (((((h1.cutChunk ..).captureImage ..).modTh ..).modRegs ..).countEvent ..).giveMessage ..

theorem Canonical.execEvend {s : State} (h : Canonical s) (p : Bool) : KeepsOut (Machine.execEvend p s) := by
  unfold Machine.execEvend
  refine h.runInstr _ ?_ _ ?_
  · split
    · exact trivial
    · exact trivial
  · intro _ h1
    exact h1.modRegs ..

theorem Canonical.execStirv {s : State} (h : Canonical s) (p : Bool) (a b : Reg) : KeepsOut (Machine.execStirv p a b s) := by
  unfold Machine.execStirv
  refine h.runInstr _ ?_ _ ?_
  · split
    · exact trivial
    · exact trivial
  · intro _ h1
    dsimp only
    split
    · exact trivial
    · refine Holds.bind (h1.checkVa ..) ?_
      rintro ⟨s2, _⟩ (h2 : Canonical s2)
      split
      · exact trivial
      · exact h2.postCommit ..

theorem Canonical.execOpton {s : State} (h : Canonical s) (p : Bool) (a : Reg) : KeepsOut (Machine.execOpton p a s) := by
  unfold Machine.execOpton
  refine h.runInstr _ ?_ _ ?_
  · split
    · exact trivial
    · exact trivial
  · intro _ h1
    refine Holds.bind (Holds.noRewrite ..) fun _ _ => ?_
    refine Holds.bind (Holds.pointerAddr ..) fun _ _ => ?_
    split
    · exact trivial
    · refine Holds.bind (h1.loadVa ..) ?_
      rintro ⟨s2, _⟩ (h2 : Canonical s2)
      dsimp only
      split
      · exact trivial
      · split
        · exact trivial
        · exact h2.modRegs ..

theorem Canonical.execOptoff {s : State} (h : Canonical s) (p : Bool) : KeepsOut (Machine.execOptoff p s) := by
  unfold Machine.execOptoff
  refine h.runInstr _ ?_ _ ?_
  · split
    · exact trivial
    · exact trivial
  · intro _ h1
    refine Holds.bind (Holds.noRewrite ..) fun _ _ => ?_
    split
    · exact h1
    · exact h1.modRegs ..

theorem Canonical.execMsgq {s : State} (h : Canonical s) (p : Bool) (d a : Reg) : KeepsOut (Machine.execMsgq p d a s) :=
  h.runInstr _ Gives.none _ fun _ h1 => h1.setX ..

theorem Canonical.modEntry {s : State} (h : Canonical s) (core l i : Nat) (f : KEntry → KEntry) :
    Canonical (s.modEntry core l i f) := h.same

theorem Canonical.spillOldest (core l n : Nat) : ∀ {s : State}, Canonical s → Canonical (Machine.spillOldest core l n s) := by
  induction n with
  | zero => exact id
  | succ n ih =>
    intro s h
    unfold Machine.spillOldest
    extract_lets
    split
    · exact h
    · exact ih ((h.quietWrite ..).modEntry ..)

theorem Canonical.refillYoungest (core l n : Nat) :
    ∀ {s : State}, Canonical s → Canonical (Machine.refillYoungest core l n s) := by
  induction n with
  | zero => exact id
  | succ n ih =>
    intro s h
    unfold Machine.refillYoungest
    split
    · exact h
    · exact ih (h.modEntry ..)

theorem Canonical.settleKennel {s : State} (h : Canonical s) (core l : Nat) : Canonical (Machine.settleKennel s core l) := by
  unfold Machine.settleKennel
  extract_lets
  split
  · exact h.spillOldest ..
  · split
    · exact h.refillYoungest ..
    · exact h

theorem Canonical.pushEntry {s : State} (h : Canonical s) (core l : Nat) (e : KEntry) :
    Canonical (s.pushEntry core l e) := (h.modCore ..).settleKennel ..

theorem Canonical.reserveEntry {s : State} (h : Canonical s) (core i : Nat) : Canonical (Machine.reserveEntry s core i) := h.same

theorem Canonical.reservePlaces {s : State} (h : Canonical s) (n : Nat) : Holds Canonical (Machine.reservePlaces s n) := by
  unfold Machine.reservePlaces
  extract_lets
  split
  · exact trivial
  · exact (h.modCore ..).modChunk ..

theorem Canonical.obtain {s : State} (h : Canonical s) (pair : Bool) :
    Gives (fun a => Canonical a.1) (Machine.obtain s pair) := by
  unfold Machine.obtain
  extract_lets
  split
  · refine Gives.map ?_
    intro _
    exact h.reserveEntry ..
  · split
    · exact trivial
    · split
      · exact trivial
      · split
        · refine Gives.map ?_
          intro _
          exact (h.reserveEntry ..).countEvent ..
        · exact trivial

theorem Gives.taskIllegal (s : State) (i : Instr) (det : Bool) : Gives Stop.Canonical (Machine.taskIllegal s i det) := by
  unfold Machine.taskIllegal
  split
  · exact trivial
  · exact trivial

theorem Canonical.readEntry {s : State} (h : Canonical s) (pa : Nat) : Canonical (Machine.readEntry s pa).2.2 := by
  unfold Machine.readEntry
  split
  · dsimp only
    exact h.freshList ..
  · dsimp only
    exact h

theorem Holds.needHandle (s : State) (h : Word) : Holds (fun _ => True) (Machine.needHandle s h) := by
  unfold Machine.needHandle
  split
  · exact trivial
  · exact trivial

theorem Canonical.execSpawn {s : State} (h : Canonical s) (p : Bool) (a b : Reg) : KeepsOut (Machine.execSpawn p a b s) := by
  unfold Machine.execSpawn
  refine h.runInstr _ (Gives.taskIllegal ..) _ fun _ h1 => ?_
  refine Holds.bind (Holds.notInEvent ..) fun _ _ => ?_
  dsimp only
  split
  · exact trivial
  · split
    · exact trivial
    · exact h1.pushEntry ..

theorem Canonical.loadWords {s : State} (h : Canonical s) (va n : Nat) : Keeps (Machine.loadWords s va n) := by
  unfold Machine.loadWords
  refine Holds.bind (h.loadMany ..) ?_
  rintro ⟨s1, _⟩ (h1 : Canonical s1)
  exact h1

theorem Canonical.setFarPair {s : State} (h : Canonical s) (d : Reg) (w0 w1 : Word) :
    Canonical (s.setFarPair d w0 w1) := (h.setLong ..).setLong ..

theorem Canonical.execTake {s : State} (h : Canonical s) (p : Bool) (d : Reg) : KeepsOut (Machine.execTake p d s) := by
  unfold Machine.execTake
  refine h.runInstr _ Gives.none _ fun _ h1 => ?_
  refine Holds.bind (Holds.notInEvent ..) fun _ _ => ?_
  refine Holds.bind (Holds.noRewrite ..) fun _ _ => ?_
  extract_lets _ s2
  have h2 : Canonical s2 := h1.modRegs ..
  split
  · dsimp only
    split
    · refine Holds.bind (h2.loadWords ..) ?_
      rintro ⟨s3, _⟩ (h3 : Canonical s3)
      exact h3.setFarPair ..
    · exact h2.setFarPair ..
  · dsimp only
    split
    · exact h1.setFarPair ..
    · split
      · exact (h1.reserveEntry ..).setFarPair ..
      · exact h1

theorem Canonical.execTnew {s : State} (h : Canonical s) (p : Bool) (d a b : Reg) : KeepsOut (Machine.execTnew p d a b s) := by
  unfold Machine.execTnew
  refine h.runInstr _ (Gives.taskIllegal ..) _ fun _ h1 => ?_
  refine Holds.bind (Holds.notInEvent ..) fun _ _ => ?_
  dsimp only
  split
  · exact trivial
  · split
    · exact trivial
    · refine Holds.bind (P := fun a => Canonical a.1) ?_ ?_
      · split
        · exact h1
        · refine Holds.bind (Holds.pointerAddr ..) fun _ _ => ?_
          refine Holds.bind (h1.loadWords ..) ?_
          rintro ⟨s2, _⟩ (h2 : Canonical s2)
          split
          · exact h2
          · exact trivial
      rintro ⟨s2, _⟩ (h2 : Canonical s2)
      split
      · exact trivial
      · refine Holds.bind (P := Canonical) ?_ ?_
        · split
          · exact h2
          · exact h2.reservePlaces ..
        rintro s3 (h3 : Canonical s3)
        exact ((h3.modChunk ..).modChunk ..).setX ..

theorem Canonical.execTdec {s : State} (h : Canonical s) (p : Bool) (a : Reg) : KeepsOut (Machine.execTdec p a s) := by
  unfold Machine.execTdec
  refine h.runInstr _ (Gives.taskIllegal ..) _ fun _ h1 => ?_
  exact Holds.bind (Holds.notInEvent ..) fun _ _ => Holds.bind (Holds.needHandle ..) fun _ _ => h1.postCommit ..

theorem Canonical.execJoin {s : State} (h : Canonical s) (p : Bool) (a : Reg) : KeepsOut (Machine.execJoin p a s) := by
  unfold Machine.execJoin
  refine h.runInstr _ ?_ _ ?_
  · split
    · exact trivial
    · exact trivial
  · intro _ h1
    refine Holds.bind (Holds.notInEvent ..) fun _ _ => ?_
    refine Holds.bind (Holds.noRewrite ..) fun _ _ => ?_
    refine Holds.bind (Holds.needHandle ..) fun _ _ => ?_
    split
    · extract_lets
      dsimp only
      split
      · exact h1
      · split
        · exact trivial
        · split
          · exact (h1.readEntry ..).modChunk ..
          · exact h1.readEntry ..

theorem Canonical.execTexit {s : State} (h : Canonical s) (p : Bool) : KeepsOut (Machine.execTexit p s) := by
  unfold Machine.execTexit
  refine h.runInstr _ (Gives.taskIllegal ..) _ fun _ h1 => ?_
  extract_lets s2 s3 s4
  have h2 : Canonical s2 := by
    dsimp only [s2]
    split
    · exact h1.modRegs ..
    · exact h1
  have h3 : Canonical s3 := h2.cutChunk ..
  have h4 : Canonical s4 := by
    dsimp only [s4]
    split
    · exact h2.modRegs ..
    · exact h2
  split
  · split
    · exact trivial
    · exact h3.modTh ..
  · exact h4.modChunk ..

theorem Canonical.execTlist {s : State} (h : Canonical s) (p : Bool) (a : Reg) : KeepsOut (Machine.execTlist p a s) := by
  unfold Machine.execTlist
  refine h.runInstr _ (Gives.taskIllegal ..) _ fun _ h1 => ?_
  refine Holds.bind (Holds.notInEvent ..) fun _ _ => ?_
  split
  · exact h1.modRegs ..
  · refine Holds.bind (Holds.pointerAddr ..) fun _ _ => ?_
    refine Holds.bind (h1.loadWords ..) ?_
    rintro ⟨s2, _⟩ (h2 : Canonical s2)
    dsimp only
    split
    · exact h2.modRegs ..
    · exact trivial

theorem Canonical.reserveEntries {s : State} (h : Canonical s) (n : Nat) : Holds Canonical (Machine.reserveEntries s n) := by
  unfold Machine.reserveEntries
  extract_lets
  split
  · exact h.modChunk ..
  · split
    · exact trivial
    · split
      · exact trivial
      · exact trivial

theorem Canonical.postCommand {s : State} (h : Canonical s) (w0 w1 w2 w3 : Word) (e : BitVec 2) :
    Keeps (Machine.postCommand s w0 w1 w2 w3 e) := by
  unfold Machine.postCommand
  extract_lets
  refine Holds.bind (h.reserveEntries ..) fun _ h1 => ?_
  extract_lets _ s2
  have h2 : Canonical s2 := (h1.modRegs ..).postCommit ..
  exact h2.same

theorem Canonical.execBatch {s : State} (h : Canonical s) (p : Bool) (n : BitVec 4) : KeepsOut (Machine.execBatch p n s) :=
  h.runInstr _ Gives.none _ fun _ h1 => h1.setCsr ..

theorem Canonical.execEnq {s : State} (h : Canonical s) (p : Bool) (d a : Reg) (e : BitVec 2) :
    KeepsOut (Machine.execEnq p d a e s) := by
  unfold Machine.execEnq
  refine h.runInstr _ ?_ _ ?_
  · split
    · exact trivial
    · exact trivial
  · intro _ h1
    refine Holds.bind (Holds.notInEvent ..) fun _ _ => ?_
    refine Holds.bind (h1.postCommand ..) ?_
    rintro ⟨s2, _⟩ (h2 : Canonical s2)
    exact h2.setX ..

theorem Canonical.execEngq {s : State} (h : Canonical s) (p : Bool) (d a : Reg) : KeepsOut (Machine.execEngq p d a s) :=
  h.runInstr _ Gives.none _ fun _ h1 => h1.setX ..

theorem Canonical.execWaitb {s : State} (h : Canonical s) (p : Bool) (n : BitVec 4) : KeepsOut (Machine.execWaitb p n s) := by
  unfold Machine.execWaitb
  refine h.runInstr _ Gives.none _ fun _ h1 => ?_
  exact Holds.bind (Holds.notInEvent ..) fun _ _ => Holds.bind (Holds.noRewrite ..) fun _ _ => h1

theorem Canonical.finishBatch {s : State} (h : Canonical s) (t : Nat) (n : BitVec 4) (pc : Word) :
    Canonical (Machine.finishBatch s t n pc) := by
  unfold Machine.finishBatch
  split
  · extract_lets _ s1
    have h1 : Canonical s1 := h.same
    split
    · exact h1.enterHandler ..
    · exact h1.enterHandler ..
  · extract_lets s1
    have h1 : Canonical s1 := h.same
    exact (h1.modThr ..).sealStart ..

theorem Holds.needNode (w : Word) : Holds (fun _ => True) (Machine.needNode w) := by
  unfold Machine.needNode
  split
  · exact trivial
  · exact trivial

theorem Canonical.readWord {s : State} (h : Canonical s) (va : Nat) : Keeps (Machine.readWord s va) := by
  unfold Machine.readWord
  refine Holds.bind (h.loadVa ..) ?_
  rintro ⟨s1, _⟩ (h1 : Canonical s1)
  exact h1

theorem Canonical.writeWord {s : State} (h : Canonical s) (va : Nat) (w : Word) :
    Holds Canonical (Machine.writeWord s va w) := h.storeVa ..

theorem Gives.netIllegal (s : State) (i : Instr) : Gives Stop.Canonical (Machine.netIllegal s i) := by
  unfold Machine.netIllegal
  split
  · exact trivial
  · exact trivial

theorem Canonical.pushPair {s : State} (h : Canonical s) (n m : Nat) : Canonical (Machine.pushPair s n m) := h.same

theorem Canonical.needPool {s : State} (h : Canonical s) : Keeps (Machine.needPool s) := by
  unfold Machine.needPool
  refine Holds.bind (h.translateTh ..) ?_
  rintro ⟨s1, _⟩ (h1 : Canonical s1)
  dsimp only
  split
  · exact h1
  · exact trivial

theorem Canonical.takeNodes {s : State} (h : Canonical s) (n : Nat) : Keeps (Machine.takeNodes s n) := by
  unfold Machine.takeNodes
  extract_lets _ _ _ s1
  have h1 : Canonical s1 := (h.modCore ..).modChunk ..
  split
  · exact h1
  · refine Holds.bind (h.needPool ..) ?_
    rintro ⟨s2, _⟩ (h2 : Canonical s2)
    dsimp only
    split
    · exact trivial
    · exact trivial

theorem Canonical.refillCache {s : State} (h : Canonical s) : Canonical (Machine.refillCache s) := by
  unfold Machine.refillCache
  extract_lets
  split
  · exact h
  · split
    · exact h
    · extract_lets _ _ _ s1 s2
      have h1 : Canonical s1 := by
        dsimp only [s1]
        split
        · exact h
        · exact h.quietWrite ..
      have h2 : Canonical s2 := h1.modCore ..
      exact h2.same

theorem Canonical.freeNodes {s : State} (h : Canonical s) (nodes : List Word) : Canonical (Machine.freeNodes s nodes) := by
  unfold Machine.freeNodes
  refine h.foldl (fun _ _ h1 => ?_) _
  extract_lets
  split
  next heq =>
    extract_lets _ _ _ s3
    have h2 : Canonical s3 := by
      dsimp only [s3]
      refine (Canonical.snd ?_ heq).modCore ..
      split
      · exact h1.fresh ..
      · exact h1
    dsimp only
    split
    · refine (Canonical.snd ?_ heq).modCore ..
      split
      · exact h1.fresh ..
      · exact h1
    · split
      · exact h2
      · refine h2.foldl (fun _ _ h3 => ?_) _
        split
        · exact h3.quietWrite ..
        · refine Canonical.modCore ?_ ..
          split
          · exact h3.quietWrite ..
          · exact h3

theorem Canonical.startRewrite {s : State} (h : Canonical s) (d : Reg) (e : KEntry) : Canonical (Machine.startRewrite s d e) := by
  unfold Machine.startRewrite
  extract_lets _ s1 s2
  have h1 : Canonical s1 := (h.setX ..).setX ..
  have h2 : Canonical s2 := h1.modRegs ..
  exact h2.modChunk ..

theorem Canonical.execIxpop {s : State} (h : Canonical s) (p : Bool) (d : Reg) : KeepsOut (Machine.execIxpop p d s) := by
  unfold Machine.execIxpop
  refine h.runInstr _ ?_ _ ?_
  · split
    · exact trivial
    · exact trivial
  · intro _ h1
    refine Holds.bind (Holds.notInEvent ..) fun _ _ => ?_
    dsimp only
    split
    · exact trivial
    · split
      next heq => exact (((h1.cutChunk ..).obtain ..).some heq).startRewrite ..
      · exact (h1.cutChunk ..).stall ..

theorem Canonical.execIxdone {s : State} (h : Canonical s) (p : Bool) : KeepsOut (Machine.execIxdone p s) := by
  unfold Machine.execIxdone
  refine h.runInstr _ ?_ _ ?_
  · split
    · exact trivial
    · exact trivial
  · intro _ h1
    exact Holds.bind (Holds.notInEvent ..) fun _ _ => h1.modRegs ..

theorem Canonical.execIxnew {s : State} (h : Canonical s) (p : Bool) (d : Reg) : KeepsOut (Machine.execIxnew p d s) := by
  unfold Machine.execIxnew
  refine h.runInstr _ (Gives.netIllegal ..) _ fun _ h1 => ?_
  refine Holds.bind (Holds.notInEvent ..) fun _ _ => ?_
  refine Holds.bind (h1.takeNodes ..) ?_
  rintro ⟨s2, _⟩ (h2 : Canonical s2)
  exact h2.setX ..

theorem Canonical.freeNode {s : State} (h : Canonical s) (w : Word) : Holds Canonical (Machine.freeNode s w) := by
  unfold Machine.freeNode
  refine Holds.bind (Holds.needNode ..) fun _ _ => ?_
  refine Holds.bind (h.needPool ..) ?_
  rintro ⟨s1, _⟩ (h1 : Canonical s1)
  dsimp only
  split
  · exact h1.modChunk ..
  · exact trivial

theorem Canonical.execIxfree {s : State} (h : Canonical s) (p : Bool) (a : Reg) : KeepsOut (Machine.execIxfree p a s) := by
  unfold Machine.execIxfree
  refine h.runInstr _ (Gives.netIllegal ..) _ fun _ h1 => ?_
  exact Holds.bind (Holds.notInEvent ..) fun _ _ => Holds.bind (h1.freeNode ..) fun _ h2 => h2

theorem Canonical.needPair {s : State} (h : Canonical s) (na nb : Word) : Holds Canonical (Machine.needPair s na nb) := by
  unfold Machine.needPair
  refine Holds.bind (h.readWord ..) ?_
  rintro ⟨s1, _⟩ (h1 : Canonical s1)
  refine Holds.bind (h1.readWord ..) ?_
  rintro ⟨s2, _⟩ (h2 : Canonical s2)
  dsimp only
  split
  · exact h2
  · exact trivial

theorem Canonical.execIxpair {s : State} (h : Canonical s) (p : Bool) (a b : Reg) : KeepsOut (Machine.execIxpair p a b s) := by
  unfold Machine.execIxpair
  refine h.runInstr _ (Gives.netIllegal ..) _ fun _ h1 => ?_
  refine Holds.bind (Holds.notInEvent ..) fun _ _ => ?_
  refine Holds.bind (Holds.needNode ..) fun _ _ => ?_
  refine Holds.bind (Holds.needNode ..) fun _ _ => ?_
  exact Holds.bind (h1.needPair ..) fun _ h2 => Holds.bind (h2.reservePlaces ..) fun _ h3 => h3.pushPair ..

theorem Canonical.needPort {s : State} (h : Canonical s) (x : Word) : Holds Canonical (Machine.needPort s x) := by
  unfold Machine.needPort
  refine Holds.bind (h.readWord ..) ?_
  rintro ⟨s1, _⟩ (h1 : Canonical s1)
  dsimp only
  split
  · exact trivial
  · exact h1

theorem Canonical.execIxlink {s : State} (h : Canonical s) (p : Bool) (a b : Reg) : KeepsOut (Machine.execIxlink p a b s) := by
  unfold Machine.execIxlink
  refine h.runInstr _ (Gives.netIllegal ..) _ fun _ h1 => ?_
  refine Holds.bind (Holds.notInEvent ..) fun _ _ => ?_
  extract_lets
  split
  · exact trivial
  · split
    · exact trivial
    · refine Holds.bind (h1.needPort ..) fun _ h2 => ?_
      refine Holds.bind (h2.needPort ..) fun _ h3 => ?_
      refine Holds.bind (P := Canonical) ?_ ?_
      · split
        · exact h3.reservePlaces ..
        · exact h3
      rintro s4 (h4 : Canonical s4)
      refine Holds.bind (h4.writeWord ..) fun _ h5 => ?_
      refine Holds.bind (h5.writeWord ..) fun _ h6 => ?_
      refine Holds.of ?_
      split
      · exact h6.pushPair ..
      · exact h6

theorem Canonical.readRule {s : State} (h : Canonical s) (ka kb : Nat) : Keeps (Machine.readRule s ka kb) := by
  unfold Machine.readRule
  refine Holds.bind (h.readWord ..) ?_
  rintro ⟨s1, _⟩ (h1 : Canonical s1)
  refine Holds.bind (h1.readWord ..) ?_
  rintro ⟨s2, _⟩ (h2 : Canonical s2)
  exact h2

theorem Canonical.wirePairs {s : State} (h : Canonical s) (a : List (Word × Word)) : Holds Canonical (Machine.wirePairs s a) := by
  induction a generalizing s with
  | nil =>
    unfold Machine.wirePairs
    exact h
  | cons x a ih =>
    unfold Machine.wirePairs
    refine Holds.bind (h.writeWord ..) fun _ h1 => ?_
    refine Holds.bind (h1.writeWord ..) fun _ h2 => ?_
    refine ih ?_
    split
    · exact h2.pushPair ..
    · exact h2

theorem Canonical.readEnds {s : State} (h : Canonical s) (na nb : Nat) (nodes : List Word) (a : List Nat) :
    Keeps (Machine.readEnds s na nb nodes a) := by
  induction a generalizing s with
  | nil =>
    unfold Machine.readEnds
    exact h
  | cons x a ih =>
    unfold Machine.readEnds
    refine Holds.bind (P := fun a => Canonical a.1) ?_ ?_
    · split
      · exact h
      · exact h.readWord ..
    rintro ⟨s1, _⟩ (h1 : Canonical s1)
    refine Holds.bind (ih h1) ?_
    rintro ⟨s2, _⟩ (h2 : Canonical s2)
    exact h2

theorem Canonical.readPay {s : State} (h : Canonical s) (n : Nat) : Keeps (Machine.readPay s n) := h.loadWords ..

theorem Canonical.writeNodes {s : State} (h : Canonical s) (t : Template) (payA : List Word) (payB : List Word) (a : List
    (Nat × Word)) :
    Holds Canonical (Machine.writeNodes s t payA payB a) := by
  induction a generalizing s with
  | nil =>
    unfold Machine.writeNodes
    exact h
  | cons x a ih =>
    unfold Machine.writeNodes
    exact Holds.bind (h.storeVa ..) fun _ h1 => ih h1

theorem Canonical.rewrite {s : State} (h : Canonical s) (first : Word) (na nb tmpl nnew : Nat) (ticket : Option Word) :
    Holds Canonical (Machine.rewrite s first na nb tmpl nnew ticket) := by
  unfold Machine.rewrite
  refine Holds.bind (h.loadVa ..) ?_
  rintro ⟨s1, _⟩ (h1 : Canonical s1)
  refine Holds.bind (h1.readWord ..) ?_
  rintro ⟨s2, _⟩ (h2 : Canonical s2)
  refine Holds.bind (h2.readWord ..) ?_
  rintro ⟨s3, _⟩ (h3 : Canonical s3)
  dsimp only
  split
  · exact trivial
  · split
    · exact trivial
    · refine Holds.bind (h3.takeNodes ..) ?_
      rintro ⟨s4, _⟩ (h4 : Canonical s4)
      refine Holds.bind (h4.readEnds ..) ?_
      rintro ⟨s5, _⟩ (h5 : Canonical s5)
      split
      · exact trivial
      · split
        · exact trivial
        · refine Holds.bind (P := fun a => Canonical a.1) ?_ ?_
          · split
            · exact h5.readPay ..
            · exact h5
          rintro ⟨s6, _⟩ (h6 : Canonical s6)
          refine Holds.bind (P := fun a => Canonical a.1) ?_ ?_
          · dsimp only
            split
            · exact h6.readPay ..
            · exact h6
          rintro ⟨s7, _⟩ (h7 : Canonical s7)
          refine Holds.bind (h7.reservePlaces ..) fun _ h8 => ?_
          refine Holds.bind (h8.freeNode ..) fun _ h9 => ?_
          refine Holds.bind (h9.freeNode ..) fun _ h10 => ?_
          refine Holds.bind (h10.writeNodes ..) fun _ h11 => ?_
          refine Holds.bind (P := Canonical) ?_ ?_
          · split
            · split
              · exact h11
              · exact h11.writeWord ..
            · exact h11
          rintro s12 (h12 : Canonical s12)
          exact h12.wirePairs ..

theorem Canonical.selectWord {s : State} (h : Canonical s) (sel : Nat) (tmpl : Word) (na nb : Nat) :
    Keeps (Machine.selectWord s sel tmpl na nb) := by
  unfold Machine.selectWord
  split
  · exact h
  · exact h.readWord ..
  · exact h.readWord ..
  · exact h.readWord ..

theorem Canonical.fire {s : State} (h : Canonical s) (first : Word) (na nb : Nat) (e : RuleEntry) :
    Holds Canonical (Machine.fire s first na nb e) := by
  unfold Machine.fire
  refine Holds.bind (h.loadWords ..) ?_
  rintro ⟨s1, _⟩ (h1 : Canonical s1)
  refine Holds.bind (h1.selectWord ..) ?_
  rintro ⟨s2, _⟩ (h2 : Canonical s2)
  refine Holds.bind (h2.selectWord ..) ?_
  rintro ⟨s3, _⟩ (h3 : Canonical s3)
  refine Holds.bind (h3.selectWord ..) ?_
  rintro ⟨s4, _⟩ (h4 : Canonical s4)
  refine Holds.bind (h4.postCommand ..) ?_
  rintro ⟨s5, _⟩ (h5 : Canonical s5)
  exact h5.rewrite ..

theorem Canonical.execIxrule {s : State} (h : Canonical s) (p : Bool) (a b : Reg) : KeepsOut (Machine.execIxrule p a b s) := by
  unfold Machine.execIxrule
  refine h.runInstr _ ?_ _ ?_
  · split
    · exact trivial
    · exact trivial
  · intro _ h1
    refine Holds.bind (Holds.notInEvent ..) fun _ _ => ?_
    refine Holds.bind (Holds.needNode ..) fun _ _ => ?_
    refine Holds.bind (Holds.needNode ..) fun _ _ => ?_
    refine Holds.bind (h1.needPair ..) fun _ h2 => ?_
    refine Holds.bind (h2.readWord ..) ?_
    rintro ⟨s3, _⟩ (h3 : Canonical s3)
    refine Holds.bind (h3.readWord ..) ?_
    rintro ⟨s4, _⟩ (h4 : Canonical s4)
    dsimp only
    split
    · exact trivial
    · split
      · exact trivial
      · refine Holds.bind (h4.readRule ..) ?_
        rintro ⟨s5, _⟩ (h5 : Canonical s5)
        refine Holds.bind (P := fun a => Canonical a.1) ?_ ?_
        · dsimp only
          split
          · exact h5.readRule ..
          · exact h5
        rintro ⟨s6, _⟩ (h6 : Canonical s6)
        split
        · exact trivial
        · split
          · exact trivial
          · split
            · split
              · exact trivial
              · refine Canonical.setX ?_ ..
                split
                · exact (h6.setX ..).setX ..
                · exact h6
            · exact Holds.bind (h6.rewrite ..) fun _ h7 => h7
            · exact Holds.bind (h6.fire ..) fun _ h7 => h7

end Sys2Proof.Machine
end

section
/-!
PROOFS. Memory's canonical form: coherence, contexts, commits and requests (O60).
-/
set_option Elab.async false
namespace Sys2Proof.Machine

theorem Canonical.arrayWrites {s : State} (h : Canonical s) (armed : Bool) (t : Nat) (bytes : Mem) :
    Canonical (Machine.arrayWrites s armed t bytes) := by
  unfold Machine.arrayWrites
  extract_lets _ _ s1
  have h1 : Canonical s1 := h.same
  refine h1.foldl (fun _ _ h2 => ?_) _
  extract_lets _ _ s3
  have h3 : Canonical s3 := by
    dsimp only [s3]
    split
    · exact h2.dropFlips ..
    · exact h2
  split
  · exact h3.asThread _ (fun _ h => h.inject ..)
  · exact h3

theorem Canonical.sendInvals {s : State} (h : Canonical s) (src : Nat) (own : Option Nat) (pa n : Nat) :
    Canonical (Machine.sendInvals s src own pa n) := h.same

theorem Canonical.homeWriteBy {s : State} (h : Canonical s) (armed : Bool) (src : Nat) (own : Option Nat) (pa : Nat)
    (bs : List Byte) :
    Canonical (Machine.homeWriteBy s armed src own pa bs) := by
  unfold Machine.homeWriteBy
  extract_lets s1 s2
  have h1 : Canonical s1 := h.write.arrayWrites ..
  have h2 : Canonical s2 := by
    dsimp only [s2]
    split
    · exact h1.modCore ..
    · exact h1
  exact h2.sendInvals ..

theorem Canonical.homeWrite {s : State} (h : Canonical s) (src : Nat) (own : Option Nat) (pa : Nat) (bs : List Byte) :
    Canonical (Machine.homeWrite s src own pa bs) := h.homeWriteBy ..

theorem Canonical.agentWrite {s : State} (h : Canonical s) (src pa : Nat) (bs : List Byte) :
    Canonical (Machine.agentWrite s src pa bs) := h.homeWriteBy ..

theorem Canonical.squashHit {s : State} (h : Canonical s) (core : Nat) (skip : Option Nat) (hit : Chunk → Bool) :
    Canonical (Machine.squashHit s core skip hit) := by
  unfold Machine.squashHit
  refine h.foldl (fun _ _ h1 => ?_) _
  extract_lets
  split
  · exact h1.squash ..
  · split
    · exact h1.squash ..
    · exact h1

theorem Canonical.invalidateAt {s : State} (h : Canonical s) (core pa n : Nat) :
    Canonical (Machine.invalidateAt s core pa n) := by
  unfold Machine.invalidateAt
  extract_lets s1
  have h1 : Canonical s1 := h.modCore ..
  exact h1.squashHit ..

theorem Canonical.invalidateAll {s : State} (h : Canonical s) (pa n : Nat) :
    Canonical (Machine.invalidateAll s pa n) := h.foldl (fun _ _ h => h.invalidateAt ..) _

theorem Canonical.execInvalidationApply {s : State} (h : Canonical s) (k : Nat) :
    KeepsOut (Machine.execInvalidationApply k s) := by
  unfold Machine.execInvalidationApply
  refine Canonical.event ?_
  split
  · split
    · exact h
    · exact h.same.invalidateAt ..
  · exact h

theorem Canonical.numberFar {s : State} (h : Canonical s) (t : Nat) (k : FarKind) (pa : Nat) :
    Canonical (s.numberFar t k pa) := h.same

theorem Canonical.sendAct {s : State} (h : Canonical s) (t : Nat) (a : Act) : Canonical (Machine.sendAct t s a) := by
  unfold Machine.sendAct
  extract_lets _ f1 s1 s2
  have hf1 : ∀ s a1, Canonical s → Canonical (f1 s a1) := by
    intro s _ h1
    dsimp only [f1]
    exact h1.same
  have h1 : Canonical s1 := by
    dsimp only [s1]
    split
    · exact h.numberFar ..
    · exact h
  have h2 : Canonical s2 := h1.countEvent ..
  split
  · exact hf1 _ _ h1
  · refine hf1 _ _ ?_
    split
    · exact h2
    · exact h2.modThr ..
  · exact hf1 _ _ h1

theorem Canonical.dropFlight {s : State} (h : Canonical s) (k : Nat) : Canonical (s.dropFlight k) := h.same

theorem Canonical.modOpt {s : State} (h : Canonical s) (t : Nat) (f : Opt → Opt) : Canonical (Machine.modOpt s t f) := h.same

theorem Canonical.ringStore {s : State} (h : Canonical s) (t va : Nat) (bs : List Byte) :
    Canonical (Machine.ringStore s t va bs) := by
  unfold Machine.ringStore
  refine h.asThread _ ?_
  intro _ h1
  refine h1.foldl (fun _ _ h2 => ?_) _
  split
  · exact h2.quietWrite ..
  · exact h2

theorem Canonical.writeArea {s : State} (h : Canonical s) (t : Nat) : Canonical (Machine.writeArea s t) := h.quietWrite ..

theorem Canonical.flushTcc {s : State} (h : Canonical s) (core : Nat) :
    Canonical (s.flushTcc core) := (h.foldl (fun _ _ h => h.writeArea ..) _).modCore ..

theorem Canonical.applyTmark {s : State} (h : Canonical s) (t : Nat) (w : Word) : Canonical (Machine.applyTmark s t w) := by
  unfold Machine.applyTmark
  extract_lets _ _ s1 _ _ _ s2 _ _ s3
  have h1 : Canonical s1 := h.modThr ..
  have h2 : Canonical s2 := h1.modThr ..
  have h3 : Canonical s3 := by
    dsimp only [s3]
    split
    · exact h1.emitThread ..
    · exact h1
  split
  · split
    · exact h2.emitThread ..
    · exact h2
  · split
    · exact h3.modThr ..
    · split
      · exact h1.emitThread ..
      · exact h1

theorem Canonical.applyAct {s : State} (h : Canonical s) (f : Flight) : Gives Canonical (Machine.applyAct s f) := by
  unfold Machine.applyAct
  split
  · extract_lets _ s1
    have h1 : Canonical s1 := h.modCore ..
    exact h1.pushEntry ..
  · extract_lets _ s1
    have h1 : Canonical s1 := h.ringStore ..
    exact h1.modOpt ..
  · extract_lets _ s1
    have h1 : Canonical s1 := h.ringStore ..
    exact h1.modOpt ..
  · exact h.modCore ..
  · exact h.applyTmark ..
  · dsimp only
    split
    · exact h.modCore ..
    · refine Gives.of ?_
      split
      · exact (h.modCore ..).flushTcc ..
      · exact h.modCore ..
  · exact trivial

theorem Canonical.drain (n : Nat) : ∀ {s : State}, Canonical s → Canonical (Machine.drain n s) := by
  induction n with
  | zero => exact id
  | succ n ih =>
    intro s h
    unfold Machine.drain
    extract_lets hit
    rcases hhit : hit with _ | ⟨k, s'⟩
    · exact h
    · obtain ⟨q, -, hq⟩ := List.exists_of_findSome?_eq_some hhit
      split at hq
      · obtain ⟨s1, hs1, he⟩ := Option.map_eq_some_iff.1 hq
        cases he
        exact ih (((h.applyAct _).some hs1).dropFlight _)
      · cases hq

theorem Canonical.drained {s : State} (h : Canonical s) : Canonical s.drained := h.drain ..

theorem Canonical.yieldToken {s : State} (h : Canonical s) (t : Nat) : Canonical (Machine.yieldToken s t) := by
  unfold Machine.yieldToken
  extract_lets s1
  have h1 : Canonical s1 := h.same
  split
  · exact h1.same.modThr ..
  · exact h1

theorem Canonical.evictTcc {s : State} (h : Canonical s) (core : Nat) : Canonical (Machine.evictTcc s core) := by
  unfold Machine.evictTcc
  extract_lets _ _ s1
  have h1 : Canonical s1 := by
    dsimp only [s1]
    refine h.foldl (fun _ _ h1 => ?_) _
    refine Canonical.modThr ?_ ..
    split
    · exact h1.writeArea ..
    · exact h1
  exact h1.modCore ..

theorem Canonical.toTcc {s : State} (h : Canonical s) (t : Nat) (runnable : Bool) : Canonical (Machine.toTcc s t runnable) := by
  unfold Machine.toTcc
  extract_lets s1 _ s2 s3 s4 s5 s6
  have h1 : Canonical s1 := h.yieldToken ..
  have h2 : Canonical s2 := by
    dsimp only [s2]
    split
    · exact h1.flushLog ..
    · exact h1
  have h3 : Canonical s3 := h2.flushCommits ..
  have h4 : Canonical s4 := h3.modThr ..
  have h5 : Canonical s5 := h4.modCore ..
  have h6 : Canonical s6 := h5.evictTcc ..
  exact h6.asThread _ (fun _ h => h.inject ..)

theorem Canonical.pairOut {s : State} (h : Canonical s) (t : Nat) : Canonical (Machine.pairOut s t) := h.same

theorem Canonical.intoSlot {s : State} (h : Canonical s) (t core slot : Nat) : Canonical (Machine.intoSlot s t core slot) := by
  unfold Machine.intoSlot
  extract_lets _ s1 s2 s3
  have h1 : Canonical s1 := h.modCore ..
  have h2 : Canonical s2 := h1.modCore ..
  have h3 : Canonical s3 := by
    dsimp only [s3]
    split
    · exact h2.same
    · exact h2
  exact h3.modThr ..

theorem Canonical.unbind {s : State} (h : Canonical s) (t : Nat) : Canonical (s.unbind t) := h.same

theorem Canonical.pairMove {s : State} (h : Canonical s) (t oldCore core slot : Nat) :
    Canonical (Machine.pairMove s t oldCore core slot) := h.same

theorem Canonical.pairIn {s : State} (h : Canonical s) (t oldCore core slot : Nat) :
    Canonical (Machine.pairIn s t oldCore core slot) := by
  unfold Machine.pairIn
  extract_lets s1
  have h1 : Canonical s1 := h.pairMove ..
  split
  · exact h1
  · exact (h1.modCore ..).unbind ..

theorem Canonical.tccErrors {s : State} (h : Canonical s) (t core : Nat) : Canonical (Machine.tccErrors s t core) := by
  unfold Machine.tccErrors
  extract_lets _ s1
  have h1 : Canonical s1 := h.correctWords ..
  split
  · exact h1
  · split
    next heq =>
      extract_lets s3
      have h2 : Canonical s3 := ((h1.secded ..).snd heq).noteError ..
      exact (h2.dropFlips ..).terminateLaunch ..

theorem Canonical.writeBlocks {s : State} (h : Canonical s) (src : Nat) (blocks : List Nat) (bs : List Byte) :
    Canonical (Machine.writeBlocks s src blocks bs) := h.foldl (fun _ _ h => h.homeWrite ..) _

theorem Canonical.contextLost {s : State} (h : Canonical s) (t pa : Nat) :
    Canonical (Machine.contextLost s t pa) := ((h.secded ..).noteError ..).terminateLaunch ..

theorem Canonical.readContext {s : State} (h : Canonical s) (t : Nat) (lines : List Nat) :
    Canonical (Machine.readContext s t lines).1 := by
  unfold Machine.readContext
  extract_lets s1
  have h1 : Canonical s1 := h.foldl (fun _ _ h => h.settleArray ..) _
  exact h1

theorem Canonical.saveContext {s : State} (h : Canonical s) (src t : Nat) (blocks : List Nat) (pair : Bool) :
    Canonical (Machine.saveContext s src t blocks pair) := by
  unfold Machine.saveContext
  extract_lets s1 s2
  have h1 : Canonical s1 := h.writeBlocks ..
  have h2 : Canonical s2 := h1.modCore ..
  exact h2.modThr ..

/-- The 256 lines of an area become a variable first: the kernel would else compute through them. -/
theorem Canonical.areaIn {s : State} (h : Canonical s) (t : Nat) : Canonical (Machine.areaIn s t) := by
  have hall : ∀ f : State → Nat → State, f = Machine.areaIn → Canonical (f s t) := by
    intro f hf
    delta Machine.areaIn at hf
    generalize 256 = lines, 16384 = bytes at hf
    subst hf
    dsimp -zeta -iota only
    generalize s.threadArea t = a
    extract_lets
    split
    next heq =>
      have h1 := (h.readContext ..).fst heq
      split
      · exact h1.contextLost ..
      · exact h1.modThr ..
  exact hall _ rfl

theorem Canonical.fossilCollect {s : State} (h : Canonical s) (t g : Nat) : Canonical (Machine.fossilCollect s t g) := by
  unfold Machine.fossilCollect
  extract_lets _ _ _ _ _ _ _ s1 s2
  have h1 : Canonical s1 := h.modThr ..
  have h2 : Canonical s2 := h1.modOpt ..
  split
  · exact h
  · exact h2.same

theorem Canonical.collectOnReturn {s : State} (h : Canonical s) (t : Nat) : Canonical (Machine.collectOnReturn s t) := by
  unfold Machine.collectOnReturn
  split
  · exact h.fossilCollect ..
  · exact h

theorem Canonical.loadBind {s : State} (h : Canonical s) (t core slot : Nat) (image : Word) :
    Canonical (Machine.loadBind s t core slot image) := h.same

theorem Canonical.spoilContext {s : State} (h : Canonical s) (t : Nat) : Canonical (Machine.spoilContext s t) := h.same

theorem Canonical.startContext {s : State} (h : Canonical s) (blocks : List Nat) (core slot : Nat) :
    Canonical (Machine.startContext s blocks core slot) := by
  unfold Machine.startContext
  dsimp only
  split
  · exact h
  · split
    · exact (h.readContext ..).contextLost ..
    · refine ((Canonical.intoSlot ?_ ..).loadBind ..).collectOnReturn ..
      split
      · exact ((h.readContext ..).modThr ..).spoilContext ..
      · exact (h.readContext ..).modThr ..

theorem Canonical.applyCtx {s : State} (h : Canonical s) (src : Nat) (a : CtxOp) : Canonical (Machine.applyCtx src s a) := by
  unfold Machine.applyCtx
  split
  · exact h.homeWrite ..
  · exact h.saveContext ..
  · exact (h.saveContext ..).saveContext ..
  · extract_lets _ _ _ s1 s2 s3
    have h1 : Canonical s1 := h.startContext ..
    have h2 : Canonical s2 := h1.startContext ..
    have h3 : Canonical s3 := h2.pairMove ..
    split
    · exact h3.modThr ..
    · exact h1

theorem Canonical.dropTranslations {s : State} (h : Canonical s) (v : Option Word × Option Word) :
    Canonical (Machine.dropTranslations s v) := h.same

theorem Canonical.commitLines {s : State} (h : Canonical s) (core : Nat) (writes : Mem) :
    Canonical (Machine.commitLines s core writes) := by
  unfold Machine.commitLines
  extract_lets _ _ s1
  have h1 : Canonical s1 := by
    dsimp only [s1]
    refine h.foldl (fun _ _ h1 => ?_) _
    split
    · exact h1
    · exact h1.makeWay ..
  exact h1.modCore ..

theorem Canonical.grantChunk {s : State} (h : Canonical s) (t : Nat) (c : Chunk) : Canonical (Machine.grantChunk s t c) := by
  unfold Machine.grantChunk
  extract_lets _ _ _ _ _ _ _ _ _ _ s1 s2 s3 s4 s5 s6
  have h1 : Canonical s1 := h.cells
  have h2 : Canonical s2 := h1.modThr ..
  have h3 : Canonical s3 := (h2.commitLines ..).arrayWrites ..
  have h4 : Canonical s4 := h3.dropFlips ..
  have h5 : Canonical s5 := h4.foldl (fun _ _ h => h.dropTranslations ..) _
  have h6 : Canonical s6 := h5.foldl (fun _ _ h => h.applyCtx ..) _
  exact h6.asThread _ (fun _ h => h.freeNodes ..)

theorem Canonical.execCommitGrant {s : State} (h : Canonical s) (t : Nat) : KeepsOut (Machine.execCommitGrant t s) := by
  unfold Machine.execCommitGrant
  refine Canonical.event ?_
  split
  · exact h
  · split
    · exact h.squash ..
    · split
      · exact h
      · exact h.grantChunk ..

theorem Canonical.takeConflict {s : State} (h : Canonical s) (t : Nat) (va : Word) : Canonical (Machine.takeConflict s t va) := by
  unfold Machine.takeConflict
  extract_lets _ s1 s2
  have h1 : Canonical s1 := h.modThr ..
  have h2 : Canonical s2 := by
    dsimp only [s2]
    split
    · exact h1.leaveRewrite ..
    · exact h1.putBackWaiting ..
  split
  · exact h
  · exact (h2.cutChunk ..).enterHandler ..

theorem Canonical.detConflict {s : State} (h : Canonical s) (t : Nat) (older : Bool) (n : Nat) (va : Word) :
    Canonical (Machine.detConflict s t older n va) := (h.squash ..).modThr ..

theorem Canonical.castHit {s : State} (h : Canonical s) (b : Bcast) (t : Nat) : Canonical (Machine.castHit b s t) := by
  unfold Machine.castHit
  extract_lets
  split
  · split
    · split
      · exact h.detConflict ..
      · exact h.detConflict ..
      · exact h.squash ..
    · split
      · split
        · exact h.detConflict ..
        · exact h.squash ..
      · exact h
  · split
    · split
      · exact h.detConflict ..
      · exact h.squash ..
    · exact h

theorem Canonical.execCommitBroadcastApply {s : State} (h : Canonical s) (k : Nat) :
    KeepsOut (Machine.execCommitBroadcastApply k s) := by
  unfold Machine.execCommitBroadcastApply
  refine Canonical.event ?_
  split
  · exact h
  · extract_lets s1 s2
    have h1 : Canonical s1 := h.same
    have h2 : Canonical s2 := by
      dsimp only [s2]
      split
      · exact h1
      · exact h1.modCore ..
    exact h2.foldl (fun _ _ h => h.castHit ..) _

theorem Canonical.execTokenGrant {s : State} (h : Canonical s) : KeepsOut (Machine.execTokenGrant s) := by
  unfold Machine.execTokenGrant
  refine Canonical.event ?_
  dsimp only
  split
  · exact h
  · split
    · exact h
    · split
      · split
        · exact h
        · exact h.same.modThr ..
      · split
        · exact h
        · exact h.same.modThr ..

theorem Canonical.readWord_state {s : State} (h : Canonical s) (t : Option Nat) (pa : Nat) : Canonical (s.readWord t pa) := by
  cases t with
  | none => exact h
  | some t => exact h.settleArray ..

theorem Canonical.grantNext {s : State} (h : Canonical s) (pa : Nat) : Canonical (Machine.grantNext s pa) := by
  unfold Machine.grantNext
  extract_lets s1
  have h1 : Canonical s1 := h.readWord_state ..
  split
  · exact h1
  · extract_lets
    exact h1.same

theorem Canonical.freeWord {s : State} (h : Canonical s) (t pa : Nat) : Canonical (Machine.freeWord s t pa) := h.same.grantNext ..

theorem Canonical.resumeBar {s : State} (h : Canonical s) (v : Word) (p : Nat × Reg) : Canonical (Machine.resumeBar v s p) := by
  unfold Machine.resumeBar
  split
  · exact (h.modThr ..).sealStart ..
  · exact h.modThr ..

theorem Canonical.endBarrier {s : State} (h : Canonical s) (b : Barrier) (v : Word) : Canonical (Machine.endBarrier s b v) := by
  unfold Machine.endBarrier
  extract_lets s1
  have h1 : Canonical s1 := h.foldl (fun _ _ h => h.resumeBar ..) _
  exact h1.same

theorem Canonical.settleBarriers {s : State} (h : Canonical s) : Canonical (Machine.settleBarriers s) := by
  unfold Machine.settleBarriers
  refine h.foldl (fun _ _ h1 => ?_) _
  split
  · exact h1.endBarrier ..
  · exact h1

theorem Canonical.unpair {s : State} (h : Canonical s) (t : Nat) : Canonical (Machine.unpair s t) := by
  unfold Machine.unpair
  split
  · exact h
  · extract_lets _ s1
    have h1 : Canonical s1 := ((h.unbind ..).unbind ..).modThr ..
    exact h1.modCore ..

theorem Canonical.exitThread {s : State} (h : Canonical s) (t : Nat) : Canonical (Machine.exitThread s t) := by
  unfold Machine.exitThread
  extract_lets _ s1 s2 s3 s4 s5
  have h1 : Canonical s1 := h.foldl (fun _ _ h => h.freeWord ..) _
  have h2 : Canonical s2 := h1.unpair ..
  have h3 : Canonical s3 := h2.modCore ..
  have h4 : Canonical s4 := by
    dsimp only [s4]
    refine Canonical.flushCommits ?_ ..
    split
    · exact h3.flushLog ..
    · exact h3
  have h5 : Canonical s5 := h4.same
  exact (h5.modThr ..).settleBarriers ..

theorem Canonical.writeEntry {s : State} (h : Canonical s) (l core : Nat) (joins : List Nat) (e : Nat × Word × Word × BitVec 32) :
    Canonical (Machine.writeEntry s l core joins e) := h.same.quietWrite ..

theorem Canonical.freeEntry {s : State} (hs : Canonical s) (l : Nat) (h : Word) : Canonical (Machine.freeEntry l s h) := by
  unfold Machine.freeEntry
  split
  · exact hs.quietWrite ..
  · exact hs

theorem Canonical.settleChunk {s : State} (h : Canonical s) (l u core : Nat) : Canonical (Machine.settleChunk l u s core) := by
  unfold Machine.settleChunk
  extract_lets
  split
  · exact (h.modCore ..).settleKennel ..
  · exact h

theorem Canonical.releaseChunk {s : State} (h : Canonical s) (t : Nat) (c : Chunk) : Canonical (Machine.releaseChunk s t c) := by
  unfold Machine.releaseChunk
  extract_lets _ _ s1 s2 s3 s4 s5 s6 s7 s8 _ _ s9 s10 _ s11 s12
  have h1 : Canonical s1 := h.settleErrors ..
  have h2 : Canonical s2 := by
    dsimp only [s2]
    split
    · exact h1.addCommit ..
    · exact h1
  have h3 : Canonical s3 := h2.countEvent ..
  have h4 : Canonical s4 := h3.foldl (fun _ _ h => h.writeEntry ..) _
  have h5 : Canonical s5 := h4.foldl (fun _ _ h => h.freeEntry ..) _
  have h6 : Canonical s6 := h5.foldl (fun _ _ h => h.settleChunk ..) _
  have h7 : Canonical s7 := h6.same
  have h8 : Canonical s8 := h7.dropFlips ..
  have h9 : Canonical s9 := h8.modLaunch ..
  have h10 : Canonical s10 := by
    dsimp only [s10]
    split
    · exact h9.same
    · exact h9
  have h11 : Canonical s11 := h10.modThr ..
  have h12 : Canonical s12 := h11.foldl (fun _ _ h => h.sendAct ..) _
  refine Canonical.drained ?_ ..
  split
  · exact h12.exitThread ..
  · exact h12

theorem Canonical.execPostCommitRelease {s : State} (h : Canonical s) (t : Nat) :
    KeepsOut (Machine.execPostCommitRelease t s) := by
  unfold Machine.execPostCommitRelease
  refine Canonical.event ?_
  split
  · dsimp only
    split
    · split
      · exact h.releaseChunk ..
      · exact ((h.foldl (fun _ _ h => h.sendAct ..) _).modThr ..).drained ..
    · exact h
  · exact h

theorem Canonical.vectorGrant {s : State} (h : Canonical s) (t : Nat) : Canonical (Machine.vectorGrant s t) := h.same

theorem Canonical.execLongLatencyResult {s : State} (h : Canonical s) (t k : Nat) :
    KeepsOut (Machine.execLongLatencyResult t k s) := by
  unfold Machine.execLongLatencyResult
  refine Canonical.event ?_
  split
  · dsimp only
    split
    · split
      · exact (h.modThr ..).vectorGrant ..
      · exact h.modThr ..
    · exact h
  · exact h

theorem Canonical.execYieldEnd {s : State} (h : Canonical s) (t : Nat) : KeepsOut (Machine.execYieldEnd t s) := by
  unfold Machine.execYieldEnd
  refine Canonical.event ?_
  split
  · exact h.modThr ..
  · exact h

theorem Canonical.groupFlags {s : State} (h : Canonical s) (t l : Nat) (f : BitVec 7) :
    Canonical (Machine.groupFlags s t l f) := h.same

theorem Canonical.logPoisoned {s : State} (h : Canonical s) (t pa : Nat) : Canonical (Machine.logPoisoned s t pa) := h.same

theorem Canonical.applyReduction {s : State} (h : Canonical s) (t l : Nat) (op : RedOp) (pa n : Nat) (x : BitVec 128) :
    Canonical (Machine.applyReduction s t l op pa n x) := by
  unfold Machine.applyReduction
  extract_lets s1
  have h1 : Canonical s1 := by
    dsimp only [s1]
    split
    · exact h
    · exact h.settleArray ..
  split
  · exact h1.logPoisoned ..
  · exact (h1.homeWrite ..).groupFlags ..

theorem Canonical.execReductionApply {s : State} (h : Canonical s) (k : Nat) : KeepsOut (Machine.execReductionApply k s) := by
  unfold Machine.execReductionApply
  refine Canonical.event ?_
  split
  · split
    · exact ((h.applyReduction ..).dropFlight ..).drained ..
    · exact h
  · exact h

theorem Canonical.execTlbinvComplete {s : State} (h : Canonical s) (k : Nat) : KeepsOut (Machine.execTlbinvComplete k s) := by
  unfold Machine.execTlbinvComplete
  refine Canonical.event ?_
  split
  · split
    · exact h
    · exact h.same.dropTranslations ..
  · exact h

theorem Canonical.modHbm {s : State} (h : Canonical s) (stack : Nat) (f : Hbm → Hbm) : Canonical (s.modHbm stack f) := h.same

theorem Canonical.waitAt {s : State} (h : Canonical s) (r : Reader) (pa : Nat) : Canonical (s.waitAt r pa) := h.same

theorem Canonical.execMissFill {s : State} (h : Canonical s) (core pa : Nat) (fetch : Bool) :
    KeepsOut (Machine.execMissFill core pa fetch s) := by
  unfold Machine.execMissFill
  refine Canonical.event ?_
  split
  · exact h
  · split
    · exact h
    · extract_lets s1 s2
      have h1 : Canonical s1 := h.settleArray ..
      have h2 : Canonical s2 := by
        dsimp only [s2]
        split
        · exact h1
        · split
          · exact h1.fillCode ..
          · exact h1.fillLine ..
      exact h2.same

theorem Canonical.execRefpbDue {s : State} (h : Canonical s) (stack pc bank : Nat) :
    KeepsOut (Machine.execRefpbDue stack pc bank s) := by
  unfold Machine.execRefpbDue
  extract_lets _ _ _ s1
  have h1 : Canonical s1 := h.foldl (fun _ _ h => h.setBank ..) _
  refine Canonical.event ?_
  split
  · exact h
  · split
    · exact (h.setBank ..).modHbm ..
    · split
      · exact (h.setBank ..).modHbm ..
      · exact h1.modHbm ..

theorem Canonical.execOwedRefresh {s : State} (h : Canonical s) (stack pc bank : Nat) :
    KeepsOut (Machine.execOwedRefresh stack pc bank s) := by
  unfold Machine.execOwedRefresh
  refine Canonical.event ?_
  split
  · exact (h.setBank ..).modHbm ..
  · exact h

theorem Canonical.hostReadLine {s : State} (h : Canonical s) (pa : Nat) : Canonical (Machine.hostReadLine s pa) := by
  unfold Machine.hostReadLine
  extract_lets s1
  have h1 : Canonical s1 := h.settleArray ..
  exact h1.same

theorem Canonical.serveReaders {s : State} (h : Canonical s) : Canonical (Machine.serveReaders s) := by
  unfold Machine.serveReaders
  extract_lets _ s1
  have h1 : Canonical s1 := h.same
  exact h1.foldl (fun _ _ h => h.hostReadLine ..) _

theorem Canonical.execRefreshEnd {s : State} (h : Canonical s) (stack pc bank : Nat) :
    KeepsOut (Machine.execRefreshEnd stack pc bank s) := by
  unfold Machine.execRefreshEnd
  refine Canonical.event ?_
  split
  · exact (h.setBank ..).serveReaders ..
  · split
    · exact (h.foldl (fun _ _ h => h.setBank ..) _).serveReaders ..
    · exact h

theorem Canonical.markServed {s : State} (h : Canonical s) (t : Nat) (num : BitVec 32) :
    Canonical (Machine.markServed s t num) := h.same

theorem Canonical.performPart {s : State} (h : Canonical s) (t l : Nat) (a : FarPart) :
    Canonical (Machine.performPart t l s a) := by
  unfold Machine.performPart
  split
  · exact h.cells
  · exact h.cells
  · exact h.write.groupFlags ..

theorem Canonical.performGroup {s : State} (h : Canonical s) (t l : Nat) (parts : List FarPart) :
    Canonical (Machine.performGroup s t l parts) := by
  unfold Machine.performGroup
  extract_lets _ s1 _ _ _ s2
  have h1 : Canonical s1 := h.foldl (fun _ _ h => h.performPart ..) _
  have h2 : Canonical s2 := h1.foldl (fun _ _ h => h.modCore ..) _
  exact h2.same

theorem Canonical.execFarStoreGroup {s : State} (h : Canonical s) (k : Nat) : KeepsOut (Machine.execFarStoreGroup k s) := by
  unfold Machine.execFarStoreGroup
  refine Canonical.event ?_
  split
  · extract_lets _ s1
    have h1 : Canonical s1 := (h.performGroup ..).markServed ..
    split
    · exact (h1.same.dropFlight ..).drained ..
    · exact h
  · exact h

theorem Canonical.dropEntry {s : State} (h : Canonical s) (j : Nat) : Canonical (Machine.dropEntry s j) := by
  unfold Machine.dropEntry
  split
  · exact h.modOpt ..
  · exact h

theorem Canonical.execFarRequestServe {s : State} (h : Canonical s) (k : Nat) : KeepsOut (Machine.execFarRequestServe k s) := by
  unfold Machine.execFarRequestServe
  refine Canonical.event ?_
  split
  · exact h
  · dsimp only
    split
    · exact h
    · split
      · exact h.markServed ..
      · split
        · exact h
        · exact (h.modThr ..).markServed ..
      · exact h
      · split
        · exact h
        · split
          · split
            · exact (((h.applyReduction ..).dropFlight ..).markServed ..).drained ..
            · exact h
          · exact h
      · split
        · exact h
        · split
          · exact ((((h.performGroup ..).dropEntry ..).dropFlight ..).markServed ..).drained ..
          · exact h

theorem Canonical.dropFar {s : State} (h : Canonical s) (k : Nat) : Canonical (s.dropFar k) := h.same

theorem Canonical.execFarAck {s : State} (h : Canonical s) (k : Nat) : KeepsOut (Machine.execFarAck k s) := by
  unfold Machine.execFarAck
  refine Canonical.event ?_
  split
  · exact h
  · dsimp only
    split
    · exact h
    · split
      · exact (h.dropFar ..).fillLine ..
      · exact (h.dropFar ..).modThr ..
      · exact h.dropFar ..

theorem Canonical.retract {s : State} (h : Canonical s) (t : Nat) (parts : List FarPart) :
    Canonical (Machine.retract s t parts) := by
  unfold Machine.retract
  refine h.foldl (fun _ _ h1 => ?_) _
  refine h1.foldl (fun _ _ h2 => ?_) _
  extract_lets
  split
  · exact h2.same
  · exact h2.invalidateAt ..

theorem Canonical.refuse {s : State} (h : Canonical s) (k : Nat) (cls : BitVec 4) : Canonical (Machine.refuse s k cls) := by
  unfold Machine.refuse
  split
  · exact h
  · dsimp only
    split
    · exact h
    · split
      · exact (h.dropFar ..).modThr ..
      · exact ((h.dropFar ..).modThr ..).modThr ..
      · split
        · exact ((((h.dropFar ..).modThr ..).dropFlight ..).retract ..).drained ..
        · exact (h.dropFar ..).modThr ..
      · split
        · exact (((h.dropFar ..).modThr ..).dropFlight ..).drained ..
        · exact (h.dropFar ..).modThr ..
      · split
        · exact ((((h.dropFar ..).modThr ..).dropEntry ..).dropFlight ..).drained ..
        · exact (h.dropFar ..).modThr ..

theorem Canonical.execFarRefusal {s : State} (h : Canonical s) (k : Nat) (cls : BitVec 4) :
    KeepsOut (Machine.execFarRefusal k cls s) := by
  unfold Machine.execFarRefusal
  refine Canonical.event ?_
  split
  · exact h.refuse ..
  · exact h

theorem Canonical.execFarTimeout {s : State} (h : Canonical s) (k : Nat) : KeepsOut (Machine.execFarTimeout k s) := h.refuse ..

theorem Canonical.execSwitchInvalidation {s : State} (h : Canonical s) (pa : Nat) (data : List Byte) :
    KeepsOut (Machine.execSwitchInvalidation pa data s) := by
  unfold Machine.execSwitchInvalidation
  refine Canonical.event ?_
  split
  · exact h
  · exact h.write.invalidateAll ..

theorem Canonical.reportRefusal {s : State} (h : Canonical s) (t : Nat) : Canonical (Machine.reportRefusal s t) := by
  unfold Machine.reportRefusal
  extract_lets
  split
  · exact h
  · extract_lets s1
    have h1 : Canonical s1 := h.modThr ..
    exact (h1.enterHandler ..).modThr ..

end Sys2Proof.Machine
end

section
/-!
PROOFS. Memory's canonical form: waits, message events and task events (O60).
-/
set_option Elab.async false
namespace Sys2Proof.Machine

theorem Canonical.arriveBar {s : State} (h : Canonical s) (t : Nat) (w : Word) (d : Reg) :
    Canonical (Machine.arriveBar s t w d) := by
  unfold Machine.arriveBar
  extract_lets _ _ _ s1
  have h1 : Canonical s1 := h.modThr ..
  split
  · split
    · exact h1.resumeBar ..
    · exact h1.same.settleBarriers ..
  · exact h1.same.settleBarriers ..

theorem Canonical.execBarrierArrival {s : State} (h : Canonical s) (k : Nat) : KeepsOut (Machine.execBarrierArrival k s) := by
  unfold Machine.execBarrierArrival
  refine Canonical.event ?_
  split
  · split
    · exact ((h.dropFlight ..).arriveBar ..).drained ..
    · exact h
  · exact h
  · split
    · split
      · exact h.same.settleBarriers ..
      · exact h
    · exact h

theorem Canonical.timeoutStatus {s : State} (h : Canonical s) (b : Barrier) : Canonical (Machine.timeoutStatus s b).1 := by
  unfold Machine.timeoutStatus
  extract_lets
  split
  next heq =>
    exact (h.fresh ..).snd heq

theorem Canonical.execBarrierTimeout {s : State} (h : Canonical s) (k : Nat) : KeepsOut (Machine.execBarrierTimeout k s) := by
  unfold Machine.execBarrierTimeout
  refine Canonical.event ?_
  split
  · extract_lets
    dsimp only
    split
    · exact h
    · exact (h.timeoutStatus ..).endBarrier ..
  · exact h

theorem Canonical.enterQueue {s : State} (h : Canonical s) (t pa n : Nat) (d : Reg) :
    Canonical (Machine.enterQueue s t pa n d) := by
  unfold Machine.enterQueue
  split
  · extract_lets s1
    have h1 : Canonical s1 := h.readWord_state ..
    exact h1.same
  · dsimp only
    split
    · exact h.same.grantNext ..
    · split
      · exact h.same
      · exact h.same

theorem Canonical.execReservationRequest {s : State} (h : Canonical s) (k : Nat) :
    KeepsOut (Machine.execReservationRequest k s) := by
  unfold Machine.execReservationRequest
  refine Canonical.event ?_
  split
  · split
    · exact ((h.dropFlight ..).enterQueue ..).drained ..
    · exact h
  · exact h

theorem Canonical.execReservationHandover {s : State} (h : Canonical s) (k : Nat) :
    KeepsOut (Machine.execReservationHandover k s) := by
  unfold Machine.execReservationHandover
  refine Canonical.event ?_
  split
  · split
    · exact ((h.dropFlight ..).freeWord ..).drained ..
    · exact h
  · exact h

theorem Canonical.execReservationResend {s : State} (h : Canonical s) (k : Nat) :
    KeepsOut (Machine.execReservationResend k s) := by
  unfold Machine.execReservationResend
  refine Canonical.event ?_
  split
  · exact h.same.enterQueue ..
  · exact h

theorem Canonical.execGrantTimeout {s : State} (h : Canonical s) (k : Nat) : KeepsOut (Machine.execGrantTimeout k s) := by
  unfold Machine.execGrantTimeout
  refine Canonical.event ?_
  split
  · split
    · split
      · split
        · exact (h.freeWord ..).enterQueue ..
        · exact h
      · exact h
    · exact h
  · exact h

theorem Canonical.execWaitswapExpiry {s : State} (h : Canonical s) (t : Nat) : KeepsOut (Machine.execWaitswapExpiry t s) := by
  unfold Machine.execWaitswapExpiry
  extract_lets _ _ s1
  have h1 : Canonical s1 := h.modThr ..
  refine Canonical.event ?_
  split
  · split
    · exact h1.toTcc ..
    · exact (h1.askPreempt ..).askPreempt ..
  · exact h

theorem Canonical.waitTrap {s : State} (h : Canonical s) (t cause : Nat) (tval pc : Word) :
    Canonical (Machine.waitTrap s t cause tval pc) := by
  unfold Machine.waitTrap
  split
  · exact h
  · exact h.enterHandler ..

theorem Canonical.startReservation {s : State} (h : Canonical s) (t pa n : Nat) (d : Reg) (pc va : Word) :
    Canonical (Machine.startReservation s t pa n d pc va) := by
  unfold Machine.startReservation
  extract_lets s1 s2 _ _ s3 s4 s5 s6
  have h1 : Canonical s1 := h.readWord_state ..
  have h2 : Canonical s2 := (h1.freeWord ..).modThr ..
  have h3 : Canonical s3 := h1.same
  have h4 : Canonical s4 := h3.modThr ..
  have h5 : Canonical s5 := h4.sealStart ..
  have h6 : Canonical s6 := h5.modThr ..
  split
  · exact h1
  · split
    · split
      · exact h1
      · exact h2.enterHandler ..
    · exact h6.asThread _ (fun _ h => h.enterRead ..)

theorem Canonical.startReceive {s : State} (h : Canonical s) (t : Nat) (d : Reg) (m : Msg) (pc : Word) :
    Canonical (Machine.startReceive s t d m pc) := by
  unfold Machine.startReceive
  extract_lets _ _ s1 s2 s3
  have h1 : Canonical s1 := h.modThr ..
  have h2 : Canonical s2 := h.modThr ..
  have h3 : Canonical s3 := (h2.sealStart ..).countEvent ..
  split
  · exact h.waitTrap ..
  · split
    · split
      · exact h
      · exact (h1.enterHandler ..).sealStart ..
    · exact h3.modThr ..

theorem Canonical.startTask {s : State} (h : Canonical s) (t : Nat) (d : Reg) (e : KEntry) :
    Canonical (Machine.startTask s t d e) := h.same

theorem Canonical.countRetired {s : State} (h : Canonical s) (s0 : State) (t : Nat) :
    Canonical (Machine.countRetired s0 s t) := by
  unfold Machine.countRetired
  split
  · exact h
  · exact h.countEvent ..

theorem Canonical.giveZeros {s : State} (h : Canonical s) (t : Nat) (d : Reg) (pop : Bool) :
    Canonical (Machine.giveZeros s t d pop) := by
  unfold Machine.giveZeros
  split
  · exact h.asThread _ (fun _ h => h.finish ((h.setX ..).setX ..) ..)
  · exact (h.startTask ..).modThr ..

theorem Canonical.pollWait {s : State} (h : Canonical s) (t : Nat) (w : Wait) : Canonical (Machine.pollWait s t w) := by
  unfold Machine.pollWait
  dsimp only
  split
  · exact h
  · split
    · exact h.finishBatch ..
    · exact h.startReservation ..
    · exact h
    · exact (h.modThr ..).sealStart ..
    · exact (h.giveZeros ..).countRetired ..
    · split
      · exact (h.modThr ..).quietWrite ..
      · exact h.modThr ..
    · split
      next heq => exact (((h.same.obtain ..).state heq).same).startTask ..
      · exact h
    · split
      · exact h.startReceive ..
      · exact h
    · split
      · exact h.startReceive ..
      · exact h
    · exact h.modThr ..
    · exact (h.modThr ..).sealStart ..

theorem Canonical.arrivalPackets {s : State} (h : Canonical s) (u : Nat) (m : Msg) :
    Canonical (Machine.arrivalPackets s u m) := by
  unfold Machine.arrivalPackets
  extract_lets _ _ s1
  have h1 : Canonical s1 := by
    dsimp only [s1]
    split
    · exact h.emitThread ..
    · exact h
  split
  · exact h1.emitThread ..
  · exact h1

theorem Canonical.placeMessage {s : State} (h : Canonical s) (u : Nat) (m : Msg) : Canonical (Machine.placeMessage s u m) := by
  unfold Machine.placeMessage
  extract_lets _ _ _ _ s1 s2
  have h1 : Canonical s1 := by
    dsimp only [s1]
    split
    · exact h.quietWrite ..
    · exact h
  have h2 : Canonical s2 := h1.modThr ..
  exact h2.arrivalPackets ..

theorem Canonical.dropPacket {s : State} (h : Canonical s) (core code : Nat) (a b : Word) :
    Canonical (Machine.dropPacket s core code a b) := h.emitCore ..

theorem Canonical.acknowledge {s : State} (h : Canonical s) (t : Nat) (m : Msg) : Canonical (Machine.acknowledge s t m) := by
  unfold Machine.acknowledge
  split
  · exact h
  · exact h.same

theorem Canonical.askRollback {s : State} (h : Canonical s) (u : Nat) (k : BitVec 128) :
    Canonical (Machine.askRollback s u k) := h.same

theorem Canonical.execMessageArrival {s : State} (h : Canonical s) (k : Nat) : KeepsOut (Machine.execMessageArrival k s) := by
  unfold Machine.execMessageArrival
  refine Canonical.event ?_
  split
  · dsimp only
    split
    · exact h
    · split
      · split
        · exact ((h.dropFlight ..).acknowledge ..).drained ..
        · exact h
      · split
        · exact h
        · split
          · exact (((h.dropFlight ..).acknowledge ..).dropPacket ..).drained ..
          · refine Canonical.drained ?_ ..
            split
            · exact (((h.dropFlight ..).acknowledge ..).placeMessage ..).askRollback ..
            · exact ((h.dropFlight ..).acknowledge ..).placeMessage ..
  · exact h

theorem Canonical.execMessageAck {s : State} (h : Canonical s) (k : Nat) : KeepsOut (Machine.execMessageAck k s) := by
  unfold Machine.execMessageAck
  refine Canonical.event ?_
  split
  · exact h.same.modThr ..
  · exact h

theorem Canonical.execSpillRingDrain {s : State} (h : Canonical s) (t : Nat) (c : BitVec 2) :
    KeepsOut (Machine.execSpillRingDrain t c s) := by
  unfold Machine.execSpillRingDrain
  refine Canonical.event ?_
  dsimp only
  split
  · split
    · split
      · exact h
      · exact h.modThr ..
    · exact h
  · exact h

theorem Canonical.execAntiMessageArrival {s : State} (h : Canonical s) (k : Nat) :
    KeepsOut (Machine.execAntiMessageArrival k s) := by
  unfold Machine.execAntiMessageArrival
  refine Canonical.event ?_
  split
  · dsimp only
    split
    · exact h
    · split
      · split
        · exact (h.dropFlight ..).drained ..
        · exact h
      · split
        · exact h
        · split
          · exact ((h.dropFlight ..).dropPacket ..).drained ..
          · split
            · exact ((h.dropFlight ..).dropPacket ..).drained ..
            · split
              · exact (((h.dropFlight ..).placeMessage ..).askRollback ..).drained ..
              · exact (((h.dropFlight ..).placeMessage ..).modThr ..).drained ..
  · exact h

theorem Canonical.settleLogs {s : State} (h : Canonical s) (t : Nat) (ks : BitVec 128) :
    Canonical (Machine.settleLogs s t ks) := h.same

theorem Canonical.hardwareChunk {s : State} (h : Canonical s) (t : Nat) (ks : BitVec 128) :
    Canonical (Machine.hardwareChunk s t ks) := h.requestChunk ..

theorem Canonical.restoreLine {s : State} (h : Canonical s) (e : UndoEntry) : Canonical (Machine.restoreLine s e) := by
  unfold Machine.restoreLine
  dsimp only
  refine Canonical.specWrite ?_ ..
  split
  · exact h.freshList ..
  · exact h

theorem Canonical.rollbackLines {s : State} (h : Canonical s) (t : Nat) (ks : BitVec 128) (es : List UndoEntry) :
    Canonical (Machine.rollbackLines s t ks es) := by
  unfold Machine.rollbackLines
  extract_lets s1 s2
  have h1 : Canonical s1 := h.asThread _ (fun _ h => h.foldl (fun _ _ h => h.restoreLine ..) _)
  have h2 : Canonical s2 := h1.modThr ..
  exact h2.hardwareChunk ..

theorem Canonical.rollbackEvents {s : State} (h : Canonical s) (t : Nat) (ks : BitVec 128) :
    Canonical (Machine.rollbackEvents s t ks) := by
  unfold Machine.rollbackEvents
  extract_lets _ _ _ _ _ _ _ _ _ _ _ s1
  have h1 : Canonical s1 := h.modThr ..
  exact h1.hardwareChunk ..

theorem Canonical.rollBack {s : State} (h : Canonical s) (t : Nat) (ks : BitVec 128) : Canonical (Machine.rollBack s t ks) := by
  unfold Machine.rollBack
  extract_lets s1
  have h1 : Canonical s1 := h.settleLogs ..
  split
  · exact h1.rollbackEvents ..
  · split
    · exact h1.rollbackLines ..
    · exact h1

theorem Canonical.execRollback {s : State} (h : Canonical s) (t : Nat) : KeepsOut (Machine.execRollback t s) := by
  unfold Machine.execRollback
  extract_lets _ s1
  have h1 : Canonical s1 := by
    dsimp only [s1]
    split
    · exact h.squash ..
    · exact h
  refine Canonical.event ?_
  split
  · split
    · exact h1.rollBack ..
    · exact h
  · exact h

theorem Canonical.farGvt {s : State} (h : Canonical s) : Canonical (Machine.farGvt s).1 := by
  unfold Machine.farGvt
  split
  · exact h
  · exact h.fresh ..

theorem Canonical.execGvtPublish {s : State} (h : Canonical s) (key : Word) : KeepsOut (Machine.execGvtPublish key s) := by
  unfold Machine.execGvtPublish
  refine Canonical.event ?_
  split
  · exact h
  · split
    next heq =>
      extract_lets _ s2
      have h1 : Canonical s2 := ((h.farGvt ..).fst heq).same
      exact h1.foldl (fun _ _ h => h.fossilCollect ..) _

theorem Canonical.execRingWaitTimeout {s : State} (h : Canonical s) (t : Nat) : KeepsOut (Machine.execRingWaitTimeout t s) := by
  unfold Machine.execRingWaitTimeout
  refine Canonical.event ?_
  split
  · split
    · exact h.modThr ..
    · split
      · exact h.asThread _ (fun _ h => h.takeTrap ..)
      · exact h
  · exact h

theorem Canonical.popPair {s : State} (h : Canonical s) (t : Nat) (d : Reg) : Canonical (Machine.popPair s t d) := by
  unfold Machine.popPair
  refine (h.asThread _ ?_).countRetired ..
  intro _ h1
  split
  next heq => exact h1.finish (((h1.obtain ..).some heq).startRewrite ..) ..
  · exact h1

theorem Canonical.execSteal {s : State} (h : Canonical s) (t : Nat) : KeepsOut (Machine.execSteal t s) := by
  unfold Machine.execSteal
  refine Canonical.event ?_
  split
  · exact h
  · split
    · exact h.pollWait ..
    · split
      · exact h.popPair ..
      · exact h
    · exact h

theorem Canonical.decrement {s : State} (hs : Canonical s) (l : Nat) (h : Word) : Canonical (Machine.decrement s l h) := by
  unfold Machine.decrement
  split
  · exact hs
  · extract_lets
    split
    next heq =>
      split
      · exact ((hs.readEntry ..).third heq).dropPacket ..
      · split
        · exact (((((hs.readEntry ..).third heq).quietWrite ..).modCore ..).pushEntry ..).quietWrite ..
        · exact ((hs.readEntry ..).third heq).quietWrite ..

theorem Canonical.execTaskDecrement {s : State} (h : Canonical s) (k : Nat) : KeepsOut (Machine.execTaskDecrement k s) := by
  unfold Machine.execTaskDecrement
  refine Canonical.event ?_
  split
  · split
    · exact ((h.dropFlight ..).decrement ..).drained ..
    · exact h
  · exact h

theorem Canonical.returnZeros {s : State} (h : Canonical s) (p : Nat × Thread) : Canonical (Machine.returnZeros s p) := by
  unfold Machine.returnZeros
  extract_lets f1
  have hf1 : ∀ a1 a2, Canonical (f1 a1 a2) := by
    intro _ _
    dsimp only [f1]
    split
    · exact (h.giveZeros ..).countRetired ..
    · exact h.modThr ..
  split
  · exact hf1 _ _
  · exact hf1 _ _
  · exact h

theorem Canonical.execLaunchQuiescent {s : State} (h : Canonical s) (l : Nat) : KeepsOut (Machine.execLaunchQuiescent l s) := by
  unfold Machine.execLaunchQuiescent
  refine Canonical.event ?_
  split
  · exact h.foldl (fun _ _ h => h.returnZeros ..) _
  · exact h

theorem Canonical.execNodeCacheRefill {s : State} (h : Canonical s) (core l : Nat) :
    KeepsOut (Machine.execNodeCacheRefill core l s) := by
  unfold Machine.execNodeCacheRefill
  refine Canonical.event ?_
  split
  · exact h.asThread _ (fun _ h => h.refillCache ..)
  · exact h

end Sys2Proof.Machine
end

section
/-!
PROOFS. Memory's canonical form: the commands of the matrix and copy engines (O60).
-/
set_option Elab.async false
namespace Sys2Proof.Machine

theorem Canonical.pressRange {s : State} (h : Canonical s) (r : Range) : Canonical (Machine.pressRange s r) :=
  h.foldl (fun _ _ h1 => h1.foldl (fun _ _ h => h.pressHolder ..) _) _

theorem Canonical.freeEntries {s : State} (h : Canonical s) (id : Nat) : Canonical (Machine.freeEntries s id) := h.same

theorem Canonical.modCmd {s : State} (h : Canonical s) (id : Nat) (f : Command → Command) : Canonical (s.modCmd id f) := h.same

theorem Canonical.takeEntries {s : State} (h : Canonical s) (c : Command) (core : Nat) :
    Canonical (Machine.takeEntries s c core) := by
  unfold Machine.takeEntries
  extract_lets
  split
  · exact h
  · split
    · exact (h.modCore ..).foldl (fun _ _ h => h.pressRange ..) _
    · exact h

theorem Canonical.installCommand {s : State} (h : Canonical s) (c : Command) : Canonical (Machine.installCommand s c) := by
  unfold Machine.installCommand
  extract_lets _ _ _ s1 s2 _ s3 s4
  have h1 : Canonical s1 := h.same
  have h2 : Canonical s2 := h1.countEvent ..
  have h3 : Canonical s3 := h2.modCore ..
  have h4 : Canonical s4 := h3.foldl (fun _ _ h => h.pressRange ..) _
  split
  · exact h2
  · split
    · exact h3
    · exact h4.foldl (fun _ _ h => h.takeEntries ..) _

theorem Canonical.execCommandInstall {s : State} (h : Canonical s) (k : Nat) : KeepsOut (Machine.execCommandInstall k s) := by
  unfold Machine.execCommandInstall
  refine Canonical.event ?_
  split
  · extract_lets
    split
    · exact ((h.dropFlight ..).installCommand ..).drained ..
    · exact h
  · exact h

theorem Canonical.consumeTerm {s : State} (h : Canonical s) (c : Command) : Canonical (Machine.consumeTerm s c) := by
  unfold Machine.consumeTerm
  dsimp only
  split
  · exact h
  · exact h.modCore ..

theorem Canonical.readyHead {s : State} (h : Canonical s) (core e kind : Nat) :
    Gives (fun a => Canonical a.1) (Machine.readyHead s core e kind) := by
  unfold Machine.readyHead
  split
  · exact trivial
  · split
    · exact h.foldl (fun _ _ h => h.takeEntries ..) _
    · exact trivial

theorem Canonical.startHead {s : State} (h : Canonical s) (core e kind : Nat) {f : State → Command → State}
    (hf : ∀ s c, Canonical s → Canonical (f s c)) : Canonical (Machine.startHead s core e kind f) := by
  unfold Machine.startHead
  split
  · exact h
  next heq =>
    have h1 := (h.readyHead core e kind).state heq
    split
    · exact hf _ _ ((h1.consumeTerm _).modCmd ..)
    · exact h1

theorem Canonical.cmdAnswer {s : State} (h : Canonical s) (c : Command) (acc : Acc) (va : Nat) :
    Gets (fun a => Canonical a.1) (Machine.cmdAnswer s c acc va) := by
  unfold Machine.cmdAnswer
  split
  · exact trivial
  · split
    · exact h.useLeaf ..
    · exact h.translate ..

theorem Canonical.settleTouch {s : State} (h : Canonical s) (c : Command) (t : Touch) :
    Canonical (Machine.settleTouch s c t) := by
  unfold Machine.settleTouch
  split
  · extract_lets
    exact h.foldl (fun _ _ h => h.correctWords ..) _
  · split
    · exact h
    · split
      · split
        · exact h
        · exact h.settleArray ..
      · exact h
  · split
    · exact h
    · exact h.settleArray ..

theorem Canonical.settleTouches {s : State} (h : Canonical s) (c : Command) (l : List Touch) :
    Canonical (Machine.settleTouches s c l) := h.foldl (fun _ _ h => h.settleTouch ..) _

theorem Canonical.runSteps {s : State} (h : Canonical s) (c : Command) {ps : List Step} (hps : ∀ p ∈ ps, p.Canonical) (st : Stat) :
    Canonical (Machine.runSteps s c ps st).1 := by
  unfold Machine.runSteps
  extract_lets s1
  have h1 : Canonical s1 := h.settleTouches ..
  exact Canonical.foldl_run (r := (s1, st)) h1 fun p hp => hps p (soundSteps_subset _ _ _ hp)

theorem Canonical.spotWrite {s : State} (h : Canonical s) (c : Command) (p : Spot) (bs : List Byte) :
    Canonical (Machine.spotWrite s c p bs) := by
  unfold Machine.spotWrite
  split
  · split
    · split
      · exact h
      · exact h.agentWrite ..
    · exact h
  · exact h.modCore ..
  · split
    · exact h
    · exact h.agentWrite ..

theorem Canonical.runWrite {s : State} (h : Canonical s) (c : Command) (p : Spot) (bs : List Byte) :
    Canonical (Machine.runWrite s c p bs) := h.foldl (fun _ _ h => h.spotWrite ..) _

theorem Canonical.finishCommand {s : State} (h : Canonical s) (id : Nat) (st : Stat) (f : Option (Nat × Word)) :
    Canonical (Machine.finishCommand s id st f) := h.same

theorem Canonical.logLost {s : State} (h : Canonical s) (c : Command) (ps : List Step) : Canonical (Machine.logLost s c ps) := by
  unfold Machine.logLost
  split
  · split
    · split
      next heq =>
        split
        · exact ((h.secded ..).snd heq).noteError ..
        · exact (h.secded ..).snd heq
    · exact h
  · exact h

theorem Canonical.holdBeat {s : State} (h : Canonical s) (c : Command) (b : List Step) : Canonical (Machine.holdBeat s c b) := by
  unfold Machine.holdBeat
  split
  · exact h.waitAt ..
  · exact h

theorem Canonical.keepTouches {s : State} (h : Canonical s) (c : Command) (b : List Step) :
    Canonical (Machine.keepTouches s c b) := by
  unfold Machine.keepTouches
  refine h.foldl (fun _ _ h1 => ?_) _
  split
  · split
    next heq => exact (h1.cmdAnswer ..).ok heq
    · exact h1
  · exact h1

theorem Canonical.runBeat {s : State} (h : Canonical s) (c : Command) {all : List (List Step)} (hall : ∀ b ∈ all, ∀ p ∈ b, p.Canonical)
    {fin : State → Stat → Option (Nat × Word) → State} (hfin : ∀ s st f, Canonical s → Canonical (fin s st f)) :
    Canonical (Machine.runBeat s c all fin) := by
  unfold Machine.runBeat
  split
  · exact hfin _ _ _ h
  next b rest hdrop =>
    have hb : ∀ p ∈ b, p.Canonical := hall b (List.mem_of_mem_drop (i := c.progress) (hdrop ▸ List.mem_cons_self))
    have hrest : ∀ p ∈ rest.flatten, p.Canonical := fun p hp =>
      let ⟨d, hd, hpd⟩ := List.mem_flatten.1 hp
      hall d (List.mem_of_mem_drop (i := c.progress) (hdrop ▸ List.mem_cons_of_mem _ hd)) p hpd
    split
    · exact hfin _ _ _ h
    · split
      · exact h
      · split
        · exact h.holdBeat ..
        · split
          · exact h.fresh.modCmd ..
          · extract_lets s1 ps
            have h1 : Canonical s1 := h.settleTouches ..
            rcases hsound : soundSteps s1 c ps with ⟨ok, f⟩
            have hok : ∀ p ∈ ok.take b.length, p.Canonical := fun p hp =>
              (List.mem_append.1 (soundSteps_subset s1 c ps (hsound ▸ List.mem_of_mem_take hp))).elim (hb p) (hrest p)
            dsimp only
            generalize ok.take b.length = here at hok ⊢
            split
            · exact hfin _ _ _ ((Canonical.foldl_run (r := (_, Stat.none_)) (h1.logLost ..) hok).keepTouches ..)
            · have h2 := (Canonical.foldl_run (r := (_, Stat.none_)) h1 hok).keepTouches c here
              split
              · exact hfin _ _ _ h2
              · exact h2.modCmd ..

theorem Canonical.serveHead {s : State} (h : Canonical s) (core e kind : Nat) {f : State → Command → State}
    (hf : ∀ s c, Canonical s → Canonical (f s c)) : Canonical (Machine.serveHead s core e kind f) := by
  unfold Machine.serveHead
  split
  · exact h
  · split
    · exact h
    · split
      · exact h.startHead _ _ _ hf
      · split
        · exact h
        · exact hf _ _ h

theorem Canonical.runCommand {s : State} (h : Canonical s) (c : Command) {all : List (List Step)} (hall : ∀ b ∈ all, ∀ p ∈ b, p.Canonical) :
    Canonical (Machine.runCommand s c all) := h.runBeat c hall fun _ _ _ h => h.finishCommand ..

theorem Canonical.signalEvent {s : State} (h : Canonical s) (c : Command) : Canonical (Machine.signalEvent s c) := by
  unfold Machine.signalEvent
  dsimp only
  split
  · exact h.modCore ..
  · exact h

theorem Canonical.retireCommand {s : State} (h : Canonical s) (c : Command) : Canonical (Machine.retireCommand s c) := by
  unfold Machine.retireCommand
  extract_lets s1 s2
  have h1 : Canonical s1 := (h.freeEntries ..).modCmd ..
  have h2 : Canonical s2 := h1.groupFlags ..
  exact (h2.signalEvent ..).drained ..

theorem Canonical.execCommandRetire {s : State} (h : Canonical s) (ticketId : Nat) :
    KeepsOut (Machine.execCommandRetire ticketId s) := by
  unfold Machine.execCommandRetire
  refine Canonical.event ?_
  split
  · exact h
  · dsimp only
    split
    · split
      · exact h
      · exact h.retireCommand ..
    · split
      · exact (h.modCmd ..).retireCommand ..
      · exact h

theorem Canonical.tileRun (c : Command) (g : Mat) (us : List Unit_) (ti tj : Nat) {a : State × Stat} (h : Canonical a.1) :
    Canonical (Machine.tileRun c g us ti tj a).1 := by
  unfold Machine.tileRun
  split
  · exact h
  · refine Canonical.foldl_fst (by exact h) ?_ _
    exact fun r i hr => hr.spotWrite ..

theorem unitSteps_canonical (c : Command) (g : Mat) (m n : Nat) (us : List Unit_) : ∀ p ∈ unitSteps c g m n us, p.Canonical := by
  intro p hp
  obtain ⟨u, -, hp⟩ := List.mem_flatMap.1 hp
  obtain ⟨ti, -, hp⟩ := List.mem_flatMap.1 hp
  obtain ⟨tj, -, rfl⟩ := List.mem_map.1 hp
  intro a h
  split
  · exact h.tileRun ..
  · exact h

theorem metaStep_canonical (c : Command) (g : Mat) : ∀ p ∈ metaStep c g, p.Canonical := by
  unfold metaStep
  split
  · exact fun _ hp => absurd hp List.not_mem_nil
  · exact fun p hp => List.mem_singleton.1 hp ▸ fun _ h => h

theorem matrixBeats_canonical (c : Command) (g : Mat) : ∀ b ∈ matrixBeats c g, ∀ p ∈ b, p.Canonical := by
  intro b hb p hp
  rcases List.mem_append.1 (mem_single hb hp) with hm | hu
  · exact metaStep_canonical c g p hm
  · obtain ⟨q, -, hq⟩ := List.mem_flatMap.1 hu
    exact unitSteps_canonical _ _ _ _ _ p hq

theorem Canonical.matrixCommand {s : State} (h : Canonical s) (c : Command) : Canonical (Machine.matrixCommand s c) := by
  unfold Machine.matrixCommand
  extract_lets g bad
  clear_value bad
  split
  · exact h.finishCommand ..
  · exact h.runCommand c (matrixBeats_canonical _ _)

theorem Canonical.execMma {s : State} (h : Canonical s) (core : Nat) : KeepsOut (Machine.execMma core s) :=
  Canonical.event (h.serveHead _ _ _ fun _ _ h => h.matrixCommand _)

theorem Canonical.execMmag {s : State} (h : Canonical s) (core : Nat) : KeepsOut (Machine.execMmag core s) :=
  Canonical.event (h.serveHead _ _ _ fun _ _ h => h.matrixCommand _)

theorem Canonical.execMmas {s : State} (h : Canonical s) (core : Nat) : KeepsOut (Machine.execMmas core s) :=
  Canonical.event (h.serveHead _ _ _ fun _ _ h => h.matrixCommand _)

theorem Canonical.execGangmma {s : State} (h : Canonical s) (core : Nat) : KeepsOut (Machine.execGangmma core s) :=
  Canonical.event (h.serveHead _ _ _ fun _ _ h => h.matrixCommand _)

theorem Canonical.zeroRange {s : State} (h : Canonical s) (core : Nat) (sp : Space) (o n : Nat) :
    Canonical (Machine.zeroRange s core sp o n) := h.same

theorem acczBeats_canonical (c : Command) : ∀ b ∈ acczBeats c, ∀ p ∈ b, p.Canonical := by
  intro b hb p hp
  obtain ⟨i, -, rfl⟩ := List.mem_map.1 (mem_single hb hp)
  exact fun a h => h.zeroRange ..

theorem Canonical.execAccz {s : State} (h : Canonical s) (core : Nat) : KeepsOut (Machine.execAccz core s) :=
  Canonical.event (h.serveHead _ _ _ fun _ c h => h.runCommand c (acczBeats_canonical _))

theorem outBeats_canonical (s : State) (c : Command) : ∀ b ∈ outBeats s c, ∀ p ∈ b, p.Canonical := by
  intro b hb p hp
  obtain ⟨i, -, rfl⟩ := List.mem_map.1 hb
  obtain ⟨q, -, rfl⟩ := List.mem_map.1 hp
  intro a h
  dsimp only
  split
  · exact (h.spotWrite ..).foldl (fun _ _ h => h.zeroRange ..) _
  · exact h.spotWrite ..

theorem Canonical.execAccout {s : State} (h : Canonical s) (core : Nat) : KeepsOut (Machine.execAccout core s) :=
  Canonical.event (h.serveHead _ _ _ fun _ c h => h.runCommand c (outBeats_canonical _ _))

theorem copySteps_canonical (c : Command) (before : List Touch) (src dst : Spot) (so do_ n : Nat) :
    ∀ p ∈ copySteps c before src dst so do_ n, p.Canonical := by
  intro p hp
  obtain ⟨q, -, rfl⟩ := List.mem_map.1 hp
  exact fun a h => h.spotWrite ..

theorem Canonical.serveCopy {s : State} (h : Canonical s) (core kind : Nat) {f : State → Command → State}
    (hf : ∀ s c, Canonical s → Canonical (f s c)) : Canonical (Machine.serveCopy s core kind f) := by
  unfold Machine.serveCopy
  extract_lets k s1
  have h1 : Canonical s1 := h.serveHead _ _ _ hf
  split
  · split
    · split
      · exact h1.same
      · exact h
    · exact h1
  · exact h

theorem copyBeats_canonical (s : State) (c : Command) : ∀ b ∈ copyBeats s c, ∀ p ∈ b, p.Canonical := by
  exact fun b hb p hp => copySteps_canonical _ _ _ _ _ _ _ p (mem_single hb hp)

theorem Canonical.execCopy {s : State} (h : Canonical s) (core : Nat) : KeepsOut (Machine.execCopy core s) :=
  Canonical.event (h.serveCopy _ _ fun _ c h => h.runCommand c (copyBeats_canonical _ _))

theorem indexedBeat_canonical (s : State) (c : Command) (scatter : Bool) (t : Nat) :
    ∀ p ∈ indexedBeat s c scatter t, p.Canonical := by
  unfold indexedBeat
  split
  · exact copySteps_canonical _ _ _ _ _ _ _
  · exact copySteps_canonical _ _ _ _ _ _ _

theorem indexedBeats_canonical (s : State) (c : Command) (scatter : Bool) :
    ∀ b ∈ indexedBeats s c scatter, ∀ p ∈ b, p.Canonical := by
  unfold indexedBeats
  refine List.foldlRecOn _ _ (motive := fun (a : State × List (List Step)) => ∀ b ∈ a.2, ∀ p ∈ b, p.Canonical) (fun b hb => absurd hb List.not_mem_nil) ?_
  intro a ha t _ b hb p hp
  rcases List.mem_append.1 hb with hb | hb
  · exact ha b hb p hp
  · exact indexedBeat_canonical a.1 c scatter t p (List.mem_singleton.1 hb ▸ hp)

theorem Canonical.execGather {s : State} (h : Canonical s) (core : Nat) : KeepsOut (Machine.execGather core s) :=
  Canonical.event (h.serveCopy _ _ fun _ c h => h.runCommand c (indexedBeats_canonical _ _ _))

theorem Canonical.execScatter {s : State} (h : Canonical s) (core : Nat) : KeepsOut (Machine.execScatter core s) :=
  Canonical.event (h.serveCopy _ _ fun _ c h => h.runCommand c (indexedBeats_canonical _ _ _))

theorem castBeats_canonical (s : State) (c : Command) : ∀ b ∈ castBeats s c, ∀ p ∈ b, p.Canonical := by
  intro b hb p hp
  obtain ⟨q, -, rfl⟩ := List.mem_map.1 (mem_single hb hp)
  exact fun a h => h.foldl (fun _ _ h => h.spotWrite ..) _

theorem Canonical.execScalecast {s : State} (h : Canonical s) (core : Nat) : KeepsOut (Machine.execScalecast core s) :=
  Canonical.event (h.serveCopy _ _ fun _ c h => h.runCommand c (castBeats_canonical _ _))

theorem redBeats_canonical (s : State) (c : Command) : ∀ b ∈ redBeats s c, ∀ p ∈ b, p.Canonical := by
  intro b hb p hp
  obtain ⟨i, -, rfl⟩ := List.mem_map.1 hb
  obtain ⟨j, -, rfl⟩ := List.mem_map.1 hp
  exact fun a h => h.modCmd ..

theorem Canonical.redSent {s : State} (h : Canonical s) (id : Nat) (st : Stat) (f : Option (Nat × Word)) :
    Canonical (Machine.redSent s id st f) := by
  unfold Machine.redSent
  split
  · exact h
  · split
    · exact h.finishCommand ..
    · exact h.modCmd ..

theorem applyStep_canonical (c : Command) (r : Option Nat) (t : Nat) : (applyStep c r t).Canonical := by
  intro a h
  unfold applyStep
  dsimp only
  split
  · exact (h.runWrite ..).modRegion ..
  · exact h.runWrite ..

theorem Canonical.applyElements {s : State} (h : Canonical s) (c : Command) (r : Option Nat) :
    Canonical (Machine.applyElements s c r).1 := by
  unfold Machine.applyElements
  extract_lets n s1
  have h1 : Canonical s1 := h.settleTouches ..
  refine Canonical.foldl_run (r := (s1, Stat.none_)) h1 fun p hp => ?_
  obtain ⟨t, -, rfl⟩ := List.mem_map.1 (soundSteps_subset _ _ _ hp)
  exact applyStep_canonical c r t

theorem Canonical.sequenceError {s : State} (h : Canonical s) (c : Command) (reason : Nat) :
    Canonical (Machine.sequenceError s c reason) := h.same

theorem Canonical.applyInOrder {s : State} (h : Canonical s) (c : Command) (r : Nat) :
    Canonical (Machine.applyInOrder s c r) := by
  unfold Machine.applyInOrder
  split
  next heq =>
    extract_lets s2
    have h1 : Canonical s2 := by
      dsimp only [s2]
      split
      · exact ((h.applyElements ..).fst heq).modRegion ..
      · exact (h.applyElements ..).fst heq
    exact h1.finishCommand ..

theorem Canonical.applyHeld {s : State} (h : Canonical s) (r fuel : Nat) : Canonical (Machine.applyHeld s r fuel) := by
  induction fuel generalizing s with
  | zero => exact h
  | succ fuel ih =>
    unfold Machine.applyHeld
    extract_lets k
    split
    · exact h
    · exact ih ((h.modRegion ..).applyInOrder ..)

theorem Canonical.execRedcopy {s : State} (h : Canonical s) (core : Nat) : KeepsOut (Machine.execRedcopy core s) :=
  Canonical.event (h.serveCopy _ _ fun s c h => h.runBeat c (redBeats_canonical s c) fun _ _ _ h => h.redSent ..)

theorem Canonical.execRedcopyApply {s : State} (h : Canonical s) (ticketId : Nat) :
    KeepsOut (Machine.execRedcopyApply ticketId s) := by
  unfold Machine.execRedcopyApply
  refine Canonical.event ?_
  split
  · exact h
  · split
    · exact h
    · split
      · exact h.waitAt ..
      · split
        · extract_lets s1
          have h1 : Canonical s1 := h.fresh ..
          split
          · exact h1.sequenceError ..
          · split
            · exact (h1.applyInOrder ..).applyHeld ..
            · split
              · exact h1.modRegion ..
              · split
                · exact h1.modCmd ..
                · exact h1.sequenceError ..
        · split
          next heq =>
            dsimp only
            split
            · exact (((h.fresh ..).snd heq).applyElements ..).finishCommand ..
            · split
              · exact ((h.fresh ..).snd heq).sequenceError ..
              · exact ((h.fresh ..).snd heq).modCmd ..
        · exact h.sequenceError ..

theorem Canonical.execRedcopyResend {s : State} (h : Canonical s) (ticketId : Nat) :
    KeepsOut (Machine.execRedcopyResend ticketId s) := h.modCmd ..

theorem Canonical.execRegionGapTimeout {s : State} (h : Canonical s) (r : Nat) : KeepsOut (Machine.execRegionGapTimeout r s) := by
  unfold Machine.execRegionGapTimeout
  extract_lets _ s1
  have h1 : Canonical s1 := h.modRegion ..
  refine Canonical.event ?_
  split
  · exact h
  · refine h1.foldl (fun _ _ h2 => ?_) _
    split
    · split
      · exact h2.sequenceError ..
      · exact h2
    · exact h2

theorem Canonical.setRegionValid {s : State} (h : Canonical s) (r : Nat) (on : Bool) :
    Canonical (Machine.setRegionValid s r on) := h.same

theorem Canonical.execRegionValid {s : State} (h : Canonical s) (r : Nat) : KeepsOut (Machine.execRegionValid r s) := by
  unfold Machine.execRegionValid
  refine h.blockEvent ?_
  split
  · exact h.setRegionValid ..
  · exact h

theorem Canonical.resetRegion {s : State} (h : Canonical s) (r : Nat) : Canonical (Machine.resetRegion s r) := by
  unfold Machine.resetRegion
  extract_lets _ s1
  have h1 : Canonical s1 := h.modRegion ..
  exact h1.foldl (fun _ _ h => h.modCmd ..) _

theorem Canonical.execRegionReset {s : State} (h : Canonical s) (r : Nat) : KeepsOut (Machine.execRegionReset r s) := by
  unfold Machine.execRegionReset
  refine h.blockEvent ?_
  split
  · exact h.resetRegion ..
  · exact h

end Sys2Proof.Machine
end

section
/-!
PROOFS. Memory's canonical form: collectives, checkpoints and launches (O60).
-/
set_option Elab.async false
namespace Sys2Proof.Machine

theorem Canonical.contribute {s : State} (h : Canonical s) (c : Command) : Canonical (Machine.contribute s c) := by
  unfold Machine.contribute
  split
  · exact h
  · extract_lets _ _ _ s1
    have h1 : Canonical s1 := h.settleTouches ..
    dsimp only
    split
    · exact h.sequenceError ..
    · split
      · exact h1.finishCommand ..
      · exact (h1.modCmd ..).modColl ..

theorem Canonical.collectiveHead {s : State} (h : Canonical s) (core kind : Nat) :
    Canonical (Machine.collectiveHead s core kind) := by
  unfold Machine.collectiveHead
  split
  · exact h
  · split
    · exact h
    · extract_lets
      split
      · exact h
      · split
        · exact h.holdBeat ..
        · refine h.startHead _ _ _ ?_
          intro _ _ h1
          exact h1.contribute ..

theorem Canonical.execAllred {s : State} (h : Canonical s) (core : Nat) :
    KeepsOut (Machine.execAllred core s) := h.collectiveHead ..

theorem Canonical.execBcast {s : State} (h : Canonical s) (core : Nat) :
    KeepsOut (Machine.execBcast core s) := h.collectiveHead ..

theorem Canonical.execRedscat {s : State} (h : Canonical s) (core : Nat) :
    KeepsOut (Machine.execRedscat core s) := h.collectiveHead ..

theorem Canonical.execAllgath {s : State} (h : Canonical s) (core : Nat) :
    KeepsOut (Machine.execAllgath core s) := h.collectiveHead ..

theorem Canonical.setSlotValid {s : State} (h : Canonical s) (k : Nat) : Canonical (Machine.setSlotValid s k) := h.same

theorem Canonical.execCollectiveSlotValid {s : State} (h : Canonical s) (slot : Nat) :
    KeepsOut (Machine.execCollectiveSlotValid slot s) := by
  unfold Machine.execCollectiveSlotValid
  refine h.blockEvent ?_
  split
  · exact h.setSlotValid ..
  · exact h

theorem resultSteps_canonical (c : Command) (bs : List Byte) : ∀ p ∈ resultSteps c bs, p.Canonical := by
  intro p hp
  obtain ⟨q, -, rfl⟩ := List.mem_map.1 hp
  exact fun a h => h.spotWrite ..

theorem Canonical.writeResult {s : State} (h : Canonical s) (c : Command) (bs : List Byte) (f : BitVec 6) (n : Nat) :
    Canonical (Machine.writeResult s c bs f n) := by
  unfold Machine.writeResult
  split
  next heq => exact (((h.runSteps c (resultSteps_canonical _ _) Stat.none_).fst heq).groupFlags ..).finishCommand ..

theorem Canonical.execCollectiveContribution {s : State} (h : Canonical s) (slot : Nat) (remote : List (Nat × List Byte)) :
    KeepsOut (Machine.execCollectiveContribution slot remote s) := by
  unfold Machine.execCollectiveContribution
  extract_lets _ _ _ _ s1
  have h1 : Canonical s1 := by
    dsimp only [s1]
    exact h.foldl (fun _ _ h => h.writeResult ..) _
  refine Canonical.event ?_
  split
  · exact h1.modColl ..
  · exact h

theorem Canonical.abortCollective {s : State} (h : Canonical s) (slot dev : Nat) :
    Canonical (Machine.abortCollective s slot dev) := by
  unfold Machine.abortCollective
  extract_lets _ s1
  have h1 : Canonical s1 := h.foldl (fun _ _ h => h.finishCommand ..) _
  exact h1.modColl ..

theorem Canonical.execCollectiveTimeout {s : State} (h : Canonical s) (slot : Nat) :
    KeepsOut (Machine.execCollectiveTimeout slot s) := by
  unfold Machine.execCollectiveTimeout
  extract_lets
  split
  · refine Canonical.event ?_
    split
    · exact h
    · exact (h.fresh ..).abortCollective ..

theorem mapSteps_canonical (c : Command) (src dst : Spot) (n m cnt : Nat) (f : List Byte → List Byte × BitVec 6 × Nat) :
    ∀ p ∈ mapSteps c src dst n m cnt f, p.Canonical := by
  intro p hp
  obtain ⟨i, -, rfl⟩ := List.mem_map.1 hp
  exact fun a h => h.runWrite ..

theorem dataSteps_canonical (c : Command) (src dst : Spot) (narrow len : Nat) (restore : Bool) :
    ∀ p ∈ dataSteps c src dst narrow len restore, p.Canonical := by
  unfold dataSteps
  split
  · exact copySteps_canonical _ _ _ _ _ _ _
  · split
    · split
      · exact mapSteps_canonical _ _ _ _ _ _ _
      · exact mapSteps_canonical _ _ _ _ _ _ _
    · split
      · exact mapSteps_canonical _ _ _ _ _ _ _
      · exact mapSteps_canonical _ _ _ _ _ _ _

theorem saveSteps_canonical (c : Command) (e : CkEntry) : ∀ p ∈ saveSteps c e, p.Canonical := by
  intro p hp
  rcases List.mem_cons.1 hp with rfl | hp
  · exact fun a h => h.runWrite ..
  · exact dataSteps_canonical _ _ _ _ _ _ p hp

theorem Canonical.execCkpt {s : State} (h : Canonical s) : KeepsOut (Machine.execCkpt s) := by
  unfold Machine.execCkpt
  refine Canonical.event ?_
  split
  · exact h
  · split
    · refine h.startHead _ _ _ ?_
      intro s1 _ h1
      exact h1.finishCommand ..
    · exact h
    · split
      · exact h
      · refine h.startHead _ _ _ ?_
        intro s1 _ h1
        exact h1.same

theorem Canonical.execCkptAllArrived {s : State} (h : Canonical s) : KeepsOut (Machine.execCkptAllArrived s) := by
  unfold Machine.execCkptAllArrived
  refine Canonical.event ?_
  split
  · exact h.same
  · exact h

theorem Canonical.execCkptTimeout {s : State} (h : Canonical s) : KeepsOut (Machine.execCkptTimeout s) := by
  unfold Machine.execCkptTimeout
  refine Canonical.event ?_
  split
  · extract_lets
    dsimp only
    split
    · exact h
    · split
      · split
        · exact ((h.fresh ..).same).finishCommand ..
        · exact (h.fresh ..).same
      · exact (h.fresh ..).same
  · exact h

theorem Canonical.startDrain {s : State} (h : Canonical s) (cut : Nat) (ps : List (Nat × Nat × Nat)) :
    Canonical (Machine.startDrain s cut ps) := by
  unfold Machine.startDrain
  split
  · exact h.same
  · exact h

theorem Canonical.execCkptResume {s : State} (h : Canonical s) : KeepsOut (Machine.execCkptResume s) := by
  refine Canonical.event ?_
  split
  · extract_lets _ go
    have hgo : Canonical go := h.same
    split
    · exact hgo
    · split
      · exact hgo
      · split
        · exact h
        · split
          · exact hgo.finishCommand ..
          next es _ =>
            extract_lets ps
            have hps : ∀ p ∈ ps, p.Canonical := fun p hp =>
              let ⟨e, _, he⟩ := List.mem_flatMap.1 hp
              saveSteps_canonical _ e p he
            split
            · exact h
            · split
              next heq =>
                extract_lets s2
                have h2 : Canonical s2 := ((hgo.runSteps _ hps _).fst heq).finishCommand ..
                split
                · exact h2
                · exact h2.startDrain ..
  · exact h

theorem Canonical.restoreEntries {s : State} (h : Canonical s) (c : Command) (st : Stat) (es : List CkEntry) :
    Canonical (Machine.restoreEntries s c st es).1 := by
  induction es generalizing s st with
  | nil => exact h
  | cons e es ih =>
    unfold Machine.restoreEntries
    extract_lets a narrow
    split
    · exact h
    · split
      · exact h
      · split
        next heq => exact (h.runSteps c (dataSteps_canonical _ _ _ _ _ _) st).fst heq
        next heq => exact ih ((h.runSteps c (dataSteps_canonical _ _ _ _ _ _) st).fst heq) _

theorem Canonical.execCkptRestore {s : State} (h : Canonical s) : KeepsOut (Machine.execCkptRestore s) := by
  unfold Machine.execCkptRestore
  refine Canonical.event ?_
  split
  · exact h
  · split
    · refine h.startHead _ _ _ ?_
      intro _ _ h1
      exact (h1.restoreEntries ..).finishCommand ..
    · exact h

theorem Canonical.execCkptDrain {s : State} (h : Canonical s) : KeepsOut (Machine.execCkptDrain s) := by
  unfold Machine.execCkptDrain
  extract_lets
  refine Canonical.event ?_
  split
  · exact h
  · split
    · exact h
    · extract_lets s1 _ _ _ s2 s3
      have h1 : Canonical s1 := h.settleArray ..
      have h2 : Canonical s2 := by
        dsimp only [s2]
        split
        · exact h1.agentWrite ..
        · exact h1
      have h3 : Canonical s3 := by
        dsimp only [s3]
        split
        · exact h2.agentWrite ..
        · exact h2
      split
      · exact h1.same
      · exact h3.same

theorem Canonical.queueError {s : State} (h : Canonical s) (k : Nat) (code : BitVec 8) (r : BitVec 32) :
    Canonical (Machine.queueError s k code r) := h.same

theorem Canonical.checkHead {s : State} (h : Canonical s) (k : Nat) : Canonical (Machine.checkHead s k) := by
  unfold Machine.checkHead
  split
  · split
    · split
      · exact h.waitAt ..
      · exact h
    · split
      · exact h.queueError ..
      · exact h
  · exact h

theorem Canonical.fetchRecord {s : State} (h : Canonical s) (k : Nat) : Canonical (Machine.fetchRecord s k) := by
  unfold Machine.fetchRecord
  extract_lets _ _ _ _ _ s1
  have h1 : Canonical s1 := by
    dsimp only [s1]
    split
    · exact h
    · exact (h.settleArray ..).settleArray ..
  split
  · exact h1.foldl (fun _ _ h => h.waitAt ..) _
  · split
    · split
      · exact h1.queueError ..
      · exact h1
    · split
      · exact (h1.modQueue ..).checkHead ..
      · split
        · split
          · exact h1.queueError ..
          · exact h1
        · exact h1.modQueue ..

theorem Canonical.execRecordFetch {s : State} (h : Canonical s) (q : Nat) : KeepsOut (Machine.execRecordFetch q s) := by
  unfold Machine.execRecordFetch
  refine Canonical.event ?_
  split
  · exact h.fetchRecord ..
  · exact h

theorem Canonical.execRecordRefetch {s : State} (h : Canonical s) (q : Nat) : KeepsOut (Machine.execRecordRefetch q s) := by
  unfold Machine.execRecordRefetch
  refine Canonical.event ?_
  split
  · exact h.fetchRecord ..
  · exact h

theorem Canonical.writeQtail {s : State} (h : Canonical s) (k : Nat) (v : Word) : Canonical (Machine.writeQtail s k v) := h.same

theorem Canonical.execQtailWrite {s : State} (h : Canonical s) (q : Nat) (v : Word) :
    KeepsOut (Machine.execQtailWrite q v s) := by
  unfold Machine.execQtailWrite
  refine h.blockEvent ?_
  split
  · exact h.writeQtail ..
  · exact h

theorem Canonical.writeQueueConfig {s : State} (h : Canonical s) (k : Nat) (size : Bool) (v : Word) :
    Canonical (Machine.writeQueueConfig s k size v) := by
  unfold Machine.writeQueueConfig
  extract_lets
  split
  · exact h
  · exact h.modQueue ..

theorem Canonical.execQueueConfigWrite {s : State} (h : Canonical s) (q : Nat) (size : Bool) (v : Word) :
    KeepsOut (Machine.execQueueConfigWrite q size v s) := by
  unfold Machine.execQueueConfigWrite
  refine h.blockEvent ?_
  split
  · exact h.writeQueueConfig ..
  · exact h

theorem Canonical.switchOut {s : State} (h : Canonical s) (k : Nat) : Canonical (Machine.switchOut s k) := h.same

theorem Canonical.execQueueSwitchOut {s : State} (h : Canonical s) (q : Nat) : KeepsOut (Machine.execQueueSwitchOut q s) := by
  unfold Machine.execQueueSwitchOut
  refine h.blockEvent ?_
  split
  · exact h.switchOut ..
  · exact h

theorem Canonical.switchIn {s : State} (h : Canonical s) (k : Nat) : Canonical (Machine.switchIn s k) := h.same

theorem Canonical.execQueueSwitchIn {s : State} (h : Canonical s) (q : Nat) : KeepsOut (Machine.execQueueSwitchIn q s) := by
  unfold Machine.execQueueSwitchIn
  refine h.blockEvent ?_
  split
  · exact h.switchIn ..
  · exact h

theorem Canonical.clearQueue {s : State} (h : Canonical s) (k : Nat) : Canonical (Machine.clearQueue s k) := h.same

theorem Canonical.execQueueClear {s : State} (h : Canonical s) (q : Nat) : KeepsOut (Machine.execQueueClear q s) := by
  unfold Machine.execQueueClear
  refine h.blockEvent ?_
  split
  · exact h.clearQueue ..
  · exact h

theorem Canonical.skipRecord {s : State} (h : Canonical s) (k : Nat) : Canonical (Machine.skipRecord s k) := h.same

theorem Canonical.execQueueClearSkip {s : State} (h : Canonical s) (q : Nat) : KeepsOut (Machine.execQueueClearSkip q s) := by
  unfold Machine.execQueueClearSkip
  refine h.blockEvent ?_
  split
  · exact h.skipRecord ..
  · exact h

theorem Canonical.preemptFor {s : State} (h : Canonical s) (r : LRec) : Canonical (Machine.preemptFor s r) := by
  unfold Machine.preemptFor
  split
  · exact h
  · split
    · exact h.foldl (fun _ _ h => h.askPreempt ..) _
    · exact h

theorem Canonical.startThread {s : State} (h : Canonical s) (r : LRec) (tasks : Option TaskList) (lid core i : Nat) :
    Canonical (Machine.startThread r tasks lid core s i) := by
  unfold Machine.startThread
  extract_lets
  split
  · exact h
  · extract_lets _ s1
    have h1 : Canonical s1 := h.setThr ..
    exact h1.same

theorem Canonical.freshCore {s : State} (h : Canonical s) (core : Nat) : Canonical (Machine.freshCore s core) := by
  unfold Machine.freshCore
  split
  · exact h
  · exact h.modCore ..

theorem Canonical.clearCsp {s : State} (h : Canonical s) (rect : Word) : Canonical (Machine.clearCsp s rect) := h.cleared

theorem Canonical.placeRecord {s : State} (h : Canonical s) (k : Nat) (r : LRec) : Canonical (Machine.placeRecord s k r) := by
  unfold Machine.placeRecord
  extract_lets tasks lid src l s1 s2 first s3 s4
  have h1 : Canonical s1 := by
    dsimp only [s1]
    split
    · exact h
    · exact h.clearCsp _
  have h2 : Canonical s2 := h1.foldl (fun _ _ h => h.freshCore _) _
  have h3 : Canonical s3 := h2.same (by dsimp only [s3])
  have h4 : Canonical s4 := h3.modQueue ..
  exact h4.foldl (fun _ _ h => (h.modCore ..).foldl (fun _ _ h => h.startThread ..) _) _

theorem Canonical.execLaunchPlacement {s : State} (h : Canonical s) : KeepsOut (Machine.execLaunchPlacement s) := by
  unfold Machine.execLaunchPlacement
  refine Canonical.event ?_
  extract_lets s1
  have h1 : Canonical s1 := h.foldl (fun _ _ h => h.checkHead ..) _
  split
  · exact h1.placeRecord ..
  · refine h1.foldl (fun _ _ h2 => ?_) _
    split
    · exact h2.preemptFor ..
    · exact h2

theorem Canonical.preemptCut {s : State} (h : Canonical s) (t : Nat) : Canonical (Machine.preemptCut s t) := by
  unfold Machine.preemptCut
  extract_lets
  split
  · exact h.leaveRewrite ..
  · split
    · exact (h.putBackWaiting ..).cutChunk ..
    · exact h

theorem Canonical.enterPlace {s : State} (h : Canonical s) (t : Nat) (u : Option Nat) (core slot : Nat) :
    Canonical (Machine.enterPlace s t u core slot) := by
  unfold Machine.enterPlace
  split
  · exact h.intoSlot ..
  · split
    · extract_lets
      exact ((h.intoSlot ..).intoSlot ..).pairIn ..

theorem Canonical.bringContext {s : State} (h : Canonical s) (t : Nat) : Canonical (Machine.bringContext s t) := by
  unfold Machine.bringContext
  split
  · exact h.areaIn ..
  · exact h.tccErrors ..

theorem Canonical.comeBack {s : State} (h : Canonical s) (t : Nat) (u : Option Nat) (core slot : Nat) :
    Canonical (Machine.comeBack s t u core slot) := by
  unfold Machine.comeBack
  extract_lets s1 s2 s3
  have h1 : Canonical s1 := h.bringContext ..
  have h2 : Canonical s2 := by
    dsimp only [s2]
    split
    · exact h1.bringContext ..
    · exact h1
  have h3 : Canonical s3 := (h2.enterPlace ..).collectOnReturn ..
  split
  · split
    · exact h3.collectOnReturn ..
    · exact h3
  · exact h2

theorem Canonical.leaveSlot {s : State} (h : Canonical s) (t : Nat) (u : Option Nat) : Canonical (Machine.leaveSlot s t u) := by
  unfold Machine.leaveSlot
  extract_lets _ _ _ s1
  have h1 : Canonical s1 := by
    dsimp only [s1]
    split
    · exact h.toTcc ..
    · exact ((h.toTcc ..).toTcc ..).pairOut ..
  split
  · exact h1.comeBack ..
  · exact h1

theorem Canonical.execPreemption {s : State} (h : Canonical s) (t : Nat) : KeepsOut (Machine.execPreemption t s) := by
  unfold Machine.execPreemption
  refine Canonical.event ?_
  extract_lets _ s1
  have h1 : Canonical s1 := h.preemptCut ..
  split
  · exact h
  · split
    · split
      · exact h1.leaveSlot ..
      · exact h1
    · extract_lets s2
      have h2 : Canonical s2 := ((h.askPreempt ..).preemptCut ..).preemptCut ..
      split
      · exact h2.leaveSlot ..
      · exact h2

theorem Canonical.execContextRestore {s : State} (h : Canonical s) (t : Nat) : KeepsOut (Machine.execContextRestore t s) := by
  unfold Machine.execContextRestore
  refine Canonical.event ?_
  extract_lets _ v1
  clear_value v1
  split
  · exact h
  · split
    · exact h
    · exact h.comeBack ..

theorem Canonical.disableSlot {s : State} (h : Canonical s) (core slot : Nat) : Canonical (Machine.disableSlot s core slot) := by
  unfold Machine.disableSlot
  extract_lets s1
  have h1 : Canonical s1 := h.modCore ..
  split
  · exact h1.askPreempt ..
  · exact h1

theorem Canonical.execSlotDisable {s : State} (h : Canonical s) (core slot : Nat) :
    KeepsOut (Machine.execSlotDisable core slot s) := by
  unfold Machine.execSlotDisable
  refine Canonical.event ?_
  extract_lets
  split
  · exact h.disableSlot ..
  · exact h

theorem Canonical.execSlotEnable {s : State} (h : Canonical s) (core slot : Nat) :
    KeepsOut (Machine.execSlotEnable core slot s) := by
  unfold Machine.execSlotEnable
  refine Canonical.event ?_
  extract_lets
  split
  · exact h.modCore ..
  · exact h

theorem Canonical.vectorWindow {s : State} (h : Canonical s) (core : Nat) :
    Canonical (Machine.vectorWindow s core) := h.foldl (fun _ _ h => h.modThr ..) _

theorem Canonical.execVectorWindow {s : State} (h : Canonical s) (core : Nat) :
    KeepsOut (Machine.execVectorWindow core s) := h.vectorWindow ..

theorem Canonical.execTccFlush {s : State} (h : Canonical s) (core : Nat) :
    KeepsOut (Machine.execTccFlush core s) := h.flushTcc ..

theorem Canonical.execTmarkMark {s : State} (h : Canonical s) (t : Nat) (v : Word) : KeepsOut (Machine.execTmarkMark t v s) := by
  unfold Machine.execTmarkMark
  refine Canonical.event ?_
  split
  · exact h.applyTmark ..
  · exact h

theorem Canonical.execTmarkStart {s : State} (h : Canonical s) (t : Nat) (v : Word) :
    KeepsOut (Machine.execTmarkStart t v s) := by
  unfold Machine.execTmarkStart
  refine Canonical.event ?_
  split
  · exact h.applyTmark ..
  · exact h

theorem Canonical.execTmarkStop {s : State} (h : Canonical s) (t : Nat) (v : Word) : KeepsOut (Machine.execTmarkStop t v s) := by
  unfold Machine.execTmarkStop
  refine Canonical.event ?_
  split
  · exact h.applyTmark ..
  · exact h

theorem Canonical.takeInterrupt {s : State} (h : Canonical s) (t cause : Nat) : Canonical (Machine.takeInterrupt s t cause) := by
  unfold Machine.takeInterrupt
  extract_lets _ s1
  have h1 : Canonical s1 := (h.leaveRewrite ..).cutChunk ..
  split
  · exact h
  · split
    · exact h1.enterHandler ..
    · split
      · exact h
      · exact ((h.putBackWaiting ..).cutChunk ..).enterHandler ..

theorem Canonical.execInterrupt {s : State} (h : Canonical s) (t : Nat) : KeepsOut (Machine.execInterrupt t s) := by
  unfold Machine.execInterrupt
  refine Canonical.event ?_
  split
  · split
    · exact h.takeInterrupt ..
    · exact h
  · exact h

theorem Canonical.execSeiChange {s : State} (h : Canonical s) (t : Nat) (on : Bool) :
    KeepsOut (Machine.execSeiChange t on s) := h.modThr ..

theorem Canonical.execStiTimer {s : State} (h : Canonical s) (t : Nat) (on : Bool) :
    KeepsOut (Machine.execStiTimer t on s) := h.modThr ..

theorem Canonical.execMpWake {s : State} (h : Canonical s) (t : Nat) : KeepsOut (Machine.execMpWake t s) := h.modThr ..

end Sys2Proof.Machine
end

section
/-!
PROOFS. Memory's canonical form: the host, the debug modules and power (O60).
-/
set_option Elab.async false
namespace Sys2Proof.Machine

theorem Canonical.hostWrite {s : State} (h : Canonical s) (pa : Nat) (bs : List Byte) :
    Canonical (Machine.hostWrite s pa bs) := h.write

theorem Canonical.snoopLine {s : State} (h : Canonical s) (pa : Nat) (data : Option (List Byte)) :
    Canonical (Machine.snoopLine s pa data) := by
  unfold Machine.snoopLine
  split
  · exact (h.hostWrite ..).invalidateAll ..
  · exact h.invalidateAll ..

theorem Canonical.execHostSnoop {s : State} (h : Canonical s) (pa : Nat) (data : Option (List Byte)) :
    KeepsOut (Machine.execHostSnoop pa data s) := by
  unfold Machine.execHostSnoop
  extract_lets
  refine Canonical.event ?_
  split
  · exact h
  · exact h.snoopLine ..

theorem Canonical.execHostCxlMemAccess {s : State} (h : Canonical s) (pa : Nat) (data : Option (List Byte)) :
    KeepsOut (Machine.execHostCxlMemAccess pa data s) := by
  unfold Machine.execHostCxlMemAccess
  refine Canonical.event ?_
  split
  · exact h
  · split
    · dsimp only
      split
      · exact h
      · split
        · split
          · exact h
          · split
            · exact h.snoopLine ..
            · split
              · exact (h.snoopLine ..).waitAt ..
              · exact (h.snoopLine ..).hostReadLine ..
        · exact (h.agentWrite ..).same
    · dsimp only
      split
      · exact h
      · split
        · split
          · exact h
          · split
            · exact h.snoopLine ..
            · split
              · exact (h.snoopLine ..).waitAt ..
              · exact (h.snoopLine ..).hostReadLine ..
        · split
          · exact h.waitAt ..
          · exact h.hostReadLine ..

theorem Canonical.startFlip {s : State} (h : Canonical s) : Canonical (Machine.startFlip s) := by
  unfold Machine.startFlip
  extract_lets
  split
  · exact h
  · exact h.same

theorem Canonical.execBiasFlip {s : State} (h : Canonical s) : KeepsOut (Machine.execBiasFlip s) := h.blockEvent (h.startFlip ..)

theorem Canonical.execBiasFlipComplete {s : State} (h : Canonical s) : KeepsOut (Machine.execBiasFlipComplete s) := by
  unfold Machine.execBiasFlipComplete
  refine Canonical.event ?_
  split
  · exact h
  · split
    · exact h
    · extract_lets s1
      have h1 : Canonical s1 := by
        dsimp only [s1]
        split
        · exact h.invalidateAll ..
        · exact h
      exact h1.same

theorem Canonical.execHostAgentFailure {s : State} (h : Canonical s) (pa : Nat) :
    KeepsOut (Machine.execHostAgentFailure pa s) := by
  unfold Machine.execHostAgentFailure
  refine Canonical.event ?_
  split
  · exact h.same
  · exact h

theorem Canonical.execFlitCrcReplay {s : State} (h : Canonical s) (_port : Nat) :
    KeepsOut (Machine.execFlitCrcReplay _port s) := h

theorem Canonical.execPortDown {s : State} (h : Canonical s) (port : Nat) : KeepsOut (Machine.execPortDown port s) := by
  unfold Machine.execPortDown
  refine Canonical.event ?_
  split
  · exact h.same
  · exact h

theorem Canonical.logChange {s : State} (h : Canonical s) (t : Nat) : Canonical (Machine.logChange s t) := by
  unfold Machine.logChange
  extract_lets _ _ _ s1
  have h1 : Canonical s1 := h.addRecord ..
  split
  · exact h
  · exact h1.modThr ..

theorem Canonical.logChanges {s : State} (h : Canonical s) :
    Canonical (Machine.logChanges s) := h.foldl (fun _ _ h => h.logChange ..) _

theorem Canonical.haltThread {s : State} (h : Canonical s) (t : Nat) : Canonical (Machine.haltThread s t) := by
  unfold Machine.haltThread
  extract_lets _ s1 _ s2
  have h1 : Canonical s1 := by
    dsimp only [s1]
    split
    · exact h.leaveRewrite ..
    · exact h
  have h2 : Canonical s2 := ((h1.putBackWaiting ..).cutChunk ..).modThr ..
  split
  · exact h
  · split
    · exact h1
    · exact ((h2.logChange ..).flushLog ..).flushCommits ..

theorem Canonical.haltCore {s : State} (h : Canonical s) (core : Nat) : Canonical (Machine.haltCore s core) := by
  unfold Machine.haltCore
  split
  · exact h
  · exact (h.modCore ..).foldl (fun _ _ h => h.haltThread ..) _

theorem Canonical.haltModule {s : State} (h : Canonical s) (k : Nat) :
    Canonical (Machine.haltModule s k) := (h.modDebug ..).foldl (fun _ _ h => h.haltCore ..) _

theorem Canonical.haltCluster {s : State} (h : Canonical s) (k : Nat) : Canonical (Machine.haltCluster s k) := by
  unfold Machine.haltCluster
  extract_lets s1
  have h1 : Canonical s1 := h.haltModule ..
  split
  · exact h1.foldl (fun _ _ h => h.haltModule ..) _
  · exact h1

theorem Canonical.execDebugHalt {s : State} (h : Canonical s) (cluster : Nat) : KeepsOut (Machine.execDebugHalt cluster s) := by
  unfold Machine.execDebugHalt
  refine h.blockEvent ?_
  split
  · exact h.haltCluster ..
  · exact h

theorem Canonical.resumeCluster {s : State} (h : Canonical s) (k : Nat) : Canonical (Machine.resumeCluster s k) := by
  unfold Machine.resumeCluster
  extract_lets _ _ _ s1 s2 s3
  have h1 : Canonical s1 := h.same
  have h2 : Canonical s2 := h1.foldl (fun _ _ h => h.modThr ..) _
  have h3 : Canonical s3 := h2.foldl (fun _ _ h => h.modCore ..) _
  exact h3.modDebug ..

theorem Canonical.execDebugResume {s : State} (h : Canonical s) (cluster : Nat) :
    KeepsOut (Machine.execDebugResume cluster s) := by
  unfold Machine.execDebugResume
  refine h.blockEvent ?_
  split
  · exact h.resumeCluster ..
  · exact h

theorem Canonical.inHeld {s : State} (h : Canonical s) (t : Nat) {f : State → State} (hf : ∀ s, Canonical s → Canonical (f s)) :
    Canonical (Machine.inHeld s t f) := by
  unfold Machine.inHeld
  extract_lets go
  have hgo : ∀ s, Canonical s → Canonical (go s) := fun s h => h.asThread t hf
  split
  · split
    · exact (hgo _ (h.modThr ..)).modThr ..
    · exact hgo _ h
  · exact hgo _ h

theorem Canonical.debugWrite {s : State} (h : Canonical s) (k : Nat) (v : Word) : Gives Canonical (Machine.debugWrite s k v) := by
  unfold Machine.debugWrite
  split
  · trivial
  · split
    extract_lets csr set
    have hcsr : ∀ s, Canonical s → Holds Canonical (csr s) := fun _ h => h.csrWrite ..
    have hset : ∀ s, Canonical s → Canonical (set s) := fun _ h => (h.capture _).modRegs _
    split
    · split
      · trivial
      · split
        · refine Gives.of (h.inHeld _ fun s1 h1 => ?_)
          split
          next heq => exact (hcsr _ h1).ok heq
          · exact h1
        · trivial
    · split
      · split
        · exact h.inHeld _ fun _ h => h.setPc _
        · split
          · exact h.inHeld _ hset
          · trivial
      · split
        · split
          · refine Gives.of (h.inHeld _ fun s1 h1 => ?_)
            split
            · exact (h1.capture _).modRegs _
            · exact h1
          · trivial
        · trivial

theorem Canonical.debugDone {s : State} (h : Canonical s) (k : Nat) (failed : Bool) (f : Debug → Debug) :
    Canonical (Machine.debugDone s k failed f) := h.same

theorem Canonical.readDmdata {s : State} (h : Canonical s) (k : Nat) : Canonical (Machine.readDmdata s k) := by
  unfold Machine.readDmdata
  split
  · exact h.debugDone ..
  · exact h.debugDone ..

theorem Canonical.execDmdataRead {s : State} (h : Canonical s) (cluster : Nat) :
    KeepsOut (Machine.execDmdataRead cluster s) := h.blockEvent (h.readDmdata ..)

theorem Canonical.writeDmdata {s : State} (h : Canonical s) (k : Nat) (v : Word) : Canonical (Machine.writeDmdata s k v) := by
  unfold Machine.writeDmdata
  split
  next heq => exact ((h.debugWrite ..).some heq).debugDone ..
  · exact h.debugDone ..

theorem Canonical.execDmdataWrite {s : State} (h : Canonical s) (cluster : Nat) (v : Word) :
    KeepsOut (Machine.execDmdataWrite cluster v s) := h.blockEvent (h.writeDmdata ..)

theorem Canonical.readDmmem {s : State} (h : Canonical s) (k : Nat) : Canonical (Machine.readDmmem s k) := by
  unfold Machine.readDmmem
  split
  · dsimp only
    split
    · exact h.debugDone ..
    · exact h.debugDone ..
  · exact h
  · exact h.debugDone ..

theorem Canonical.execDmmemRead {s : State} (h : Canonical s) (cluster : Nat) :
    KeepsOut (Machine.execDmmemRead cluster s) := h.blockEvent (h.readDmmem ..)

theorem Canonical.writeDmmem {s : State} (h : Canonical s) (k : Nat) (v : Word) : Canonical (Machine.writeDmmem s k v) := by
  unfold Machine.writeDmmem
  extract_lets
  split
  · split
    · exact (h.agentWrite ..).debugDone ..
    · split
      · exact h.debugDone ..
      · extract_lets s1
        have h1 : Canonical s1 := by
          dsimp only [s1]
          refine h.inHeld _ ?_
          intro _ h1
          exact h1.specWrite ..
        exact h1.debugDone ..
  · exact h
  · exact h.debugDone ..

theorem Canonical.execDmmemWrite {s : State} (h : Canonical s) (cluster : Nat) (v : Word) :
    KeepsOut (Machine.execDmmemWrite cluster v s) := h.blockEvent (h.writeDmmem ..)

theorem Canonical.execStatePacketFlush {s : State} (h : Canonical s) (t : Nat) : KeepsOut (Machine.execStatePacketFlush t s) := by
  unfold Machine.execStatePacketFlush
  refine Canonical.event ?_
  split
  · exact h.flushLog ..
  · exact h

theorem Canonical.drainTrace {b : State} (h : Canonical b) (a : Nat) : Canonical (Machine.drainTrace a b) := by
  induction a generalizing b with
  | zero =>
    unfold Machine.drainTrace
    exact h
  | succ a ih =>
    unfold Machine.drainTrace
    split
    · exact h
    · dsimp only
      split
      · exact ih ((h.putPacket ..).same)
      · exact h

theorem Canonical.settleTrace {s : State} (h : Canonical s) : Canonical (Machine.settleTrace s) := by
  unfold Machine.settleTrace
  extract_lets t s1 _ s2
  have h1 : Canonical s1 := h.putPacket _
  have h2 : Canonical s2 := by
    dsimp only [s2]
    clear_value s1 t
    split
    · exact h1.same
    · exact h
  exact h2.drainTrace _

theorem Canonical.writeTrrdptr {s : State} (h : Canonical s) (v : Word) : Canonical (Machine.writeTrrdptr s v) := by
  unfold Machine.writeTrrdptr
  extract_lets
  split
  · exact h
  · exact h.same.settleTrace ..

theorem Canonical.execTrrdptrWrite {s : State} (h : Canonical s) (v : Word) :
    KeepsOut (Machine.execTrrdptrWrite v s) := h.blockEvent (h.writeTrrdptr ..)

theorem Canonical.freeze {s : State} (h : Canonical s) : Canonical (Machine.freeze s) := h.same

theorem Canonical.execFreezeSignal {s : State} (h : Canonical s) : KeepsOut (Machine.execFreezeSignal s) := h.freeze ..

theorem Canonical.writeFreeze {s : State} (h : Canonical s) (v : Word) : Canonical (Machine.writeFreeze s v) := by
  unfold Machine.writeFreeze
  split
  · exact h.freeze ..
  · exact h

theorem Canonical.execFreezeRegisterWrite {s : State} (h : Canonical s) (v : Word) :
    KeepsOut (Machine.execFreezeRegisterWrite v s) := h.blockEvent (h.writeFreeze ..)

theorem Canonical.resetWith (s : State) {m : Mem} (hm : Memory.wf m = true) (poison : List Nat) :
    Canonical (Machine.resetWith s m poison) := hm

theorem Canonical.execWarmReset {s : State} (h : Canonical s) : KeepsOut (Machine.execWarmReset s) :=
  Canonical.event (Canonical.resetWith s (Memory.wf_filter h _) _)

theorem Canonical.execColdReset {s : State} (h : Canonical s) : KeepsOut (Machine.execColdReset s) :=
  Canonical.event (Canonical.resetWith s (Memory.wf_filter h _) _)

theorem Canonical.configure {s : State} (h : Canonical s) (ldb : BitVec 4) (conf : BootConfig) (imgErr : Bool) :
    Canonical (Machine.configure s ldb conf imgErr) := h.same

theorem Canonical.execBoot {s : State} (h : Canonical s) (ldb : BitVec 4) (conf : BootConfig) (imgErr recovery : Bool)
    (offline : List Nat) :
    KeepsOut (Machine.execBoot ldb conf imgErr recovery offline s) := by
  unfold Machine.execBoot
  extract_lets f1
  have hf1 : ∀ s a1, Canonical s → Canonical (f1 s a1) := by
    intro s _ h1
    dsimp only [f1]
    exact h1.same
  refine Canonical.event ?_
  split
  · exact hf1 _ _ h
  · split
    · exact hf1 _ _ h
    · split
      · exact h
      · exact hf1 _ _ (h.configure ..)
  · exact hf1 _ _ h
  · exact hf1 _ _ h.same
  · exact h

theorem Canonical.writeFlash {s : State} (h : Canonical s) (off : Nat) (v : Word) : Canonical (Machine.writeFlash s off v) := by
  unfold Machine.writeFlash
  split
  · exact h.same
  · exact h

theorem Canonical.execFlashWindowWrite {s : State} (h : Canonical s) (off : Nat) (v : Word) :
    KeepsOut (Machine.execFlashWindowWrite off v s) := h.writeFlash ..

theorem Canonical.writePwrcap {s : State} (h : Canonical s) (v : Word) : Canonical (Machine.writePwrcap s v) := h.same

theorem Canonical.execPwrcapWrite {s : State} (h : Canonical s) (v : Word) :
    KeepsOut (Machine.execPwrcapWrite v s) := h.blockEvent (h.writePwrcap ..)

theorem Canonical.execPowerThrottle {s : State} (h : Canonical s) : KeepsOut (Machine.execPowerThrottle s) := by
  unfold Machine.execPowerThrottle
  refine Canonical.event ?_
  dsimp only
  split
  · exact h.same
  · split
    · exact (h.fresh ..).disableSlot ..
    · exact h.fresh ..

theorem Canonical.dropCopies {s : State} (h : Canonical s) (cores : List Nat) : Canonical (Machine.dropCopies s cores) := by
  unfold Machine.dropCopies
  extract_lets s1
  have h1 : Canonical s1 := h.foldl (fun _ _ h => h.modCore ..) _
  exact h1.same

theorem Canonical.execClusterPowerGate {s : State} (h : Canonical s) (cluster : Nat) :
    KeepsOut (Machine.execClusterPowerGate cluster s) := by
  unfold Machine.execClusterPowerGate
  refine Canonical.event ?_
  extract_lets _ _ s1 s2
  have h1 : Canonical s1 := h.foldl (fun _ _ h => h.invalidateAll ..) _
  have h2 : Canonical s2 := h1.dropCopies ..
  split
  · exact h2.same
  · exact h

theorem Canonical.execClusterWake {s : State} (h : Canonical s) (cluster : Nat) :
    KeepsOut (Machine.execClusterWake cluster s) := by
  unfold Machine.execClusterWake
  refine Canonical.event ?_
  split
  · exact h
  · exact h.same

theorem Canonical.execD3hotEntry {s : State} (h : Canonical s) : KeepsOut (Machine.execD3hotEntry s) := by
  unfold Machine.execD3hotEntry
  refine Canonical.event ?_
  split
  · exact h.foldl (fun _ _ h => h.askPreempt ..) _
  · exact ((h.foldl (fun _ _ h => h.flushTcc ..) _).dropCopies ..).same

theorem Canonical.execD3hotExit {s : State} (h : Canonical s) : KeepsOut (Machine.execD3hotExit s) := by
  unfold Machine.execD3hotExit
  refine Canonical.event ?_
  split
  · exact h.same
  · exact h

theorem Canonical.leaveDomain {s : State} (h : Canonical s) (d : Nat) : Canonical (Machine.leaveDomain s d) := by
  unfold Machine.leaveDomain
  extract_lets _ s1
  have h1 : Canonical s1 := by
    dsimp only [s1]
    refine h.foldl (fun s2 _ h1 => ?_) _
    split
    · exact ((h1.fresh ..).fresh ..).endBarrier ..
    · exact (h1.fresh ..).fresh ..
  refine h1.foldl (fun s2 _ h2 => ?_) _
  split
  next heq =>
    extract_lets
    split
    · exact ((h2.fresh ..).snd heq).abortCollective ..
    · exact (h2.fresh ..).snd heq

theorem Canonical.writeDomain {s : State} (h : Canonical s) (i : Nat) (v : Word) : Canonical (Machine.writeDomain s i v) := by
  unfold Machine.writeDomain
  extract_lets _ _ _ _ _ s1
  have h1 : Canonical s1 := h.same
  refine h1.foldl (fun _ _ h2 => ?_) _
  split
  · exact h2.leaveDomain ..
  · exact h2

theorem Canonical.execDomainMembershipWrite {s : State} (h : Canonical s) (i : Nat) (v : Word) :
    KeepsOut (Machine.execDomainMembershipWrite i v s) := by
  unfold Machine.execDomainMembershipWrite
  refine h.blockEvent ?_
  split
  · exact h.writeDomain ..
  · exact h

theorem Canonical.writeRegion {s : State} (h : Canonical s) (r o : Nat) (v : Word) : Canonical (Machine.writeRegion s r o v) := by
  unfold Machine.writeRegion
  extract_lets _ s1
  have h1 : Canonical s1 := by
    dsimp only [s1]
    split
    · exact h.resetRegion ..
    · exact h
  split
  · split
    · exact h
    · exact h.modRegion ..
  · split
    · exact h
    · exact h.modRegion ..
  · split
    · exact h
    · exact h.modRegion ..
  · exact h1.setRegionValid ..
  · exact h

theorem Canonical.writeColl {s : State} (h : Canonical s) (r o : Nat) (v : Word) : Canonical (Machine.writeColl s r o v) := by
  unfold Machine.writeColl
  split
  · extract_lets s1
    have h1 : Canonical s1 := h.modColl ..
    split
    · exact h1.setSlotValid ..
    · exact h1
  · exact h.modColl ..
  · exact h.modColl ..
  · exact h

theorem Canonical.writeCkpt {s : State} (h : Canonical s) (o : Nat) (v : Word) : Canonical (Machine.writeCkpt s o v) := by
  unfold Machine.writeCkpt
  split
  · exact h.same
  · exact h.same
  · exact h.same
  · exact h

theorem Canonical.writeQueue {s : State} (h : Canonical s) (r o : Nat) (v : Word) : Canonical (Machine.writeQueue s r o v) := by
  unfold Machine.writeQueue
  split
  · exact h.writeQueueConfig ..
  · extract_lets s1 s2
    have h1 : Canonical s1 := h.writeQueueConfig ..
    have h2 : Canonical s2 := h1.modQueue ..
    split
    · exact h2.switchIn ..
    · exact h2.switchOut ..
  · exact h.writeQtail ..
  · split
    · split
      · exact h.skipRecord ..
      · exact h.clearQueue ..
    · exact h
  · exact h

theorem Canonical.writeTrace {s : State} (h : Canonical s) (o : Nat) (v : Word) : Canonical (Machine.writeTrace s o v) := by
  unfold Machine.writeTrace
  extract_lets
  split
  · split
    · exact h
    · exact h.same
  · exact h.same.settleTrace ..
  · exact h.writeTrrdptr ..
  · exact h

theorem Canonical.writeDebug {s : State} (h : Canonical s) (k o : Nat) (v : Word) : Canonical (Machine.writeDebug s k o v) := by
  unfold Machine.writeDebug
  split
  · extract_lets s1
    have h1 : Canonical s1 := h.modDebug ..
    split
    · exact h1.resumeCluster ..
    · split
      · exact h1.haltCluster ..
      · exact h1.modDebug ..
  · split
    · exact h.modDebug ..
    · exact h
  · exact h.modDebug ..
  · exact h.writeDmdata ..
  · exact h.modDebug ..
  · exact h.writeDmmem ..
  · exact h

theorem Canonical.writeHbm {s : State} (h : Canonical s) (k o : Nat) (v : Word) : Canonical (Machine.writeHbm s k o v) := by
  unfold Machine.writeHbm
  split
  · exact h.modHbm ..
  · exact h.modHbm ..
  · exact h.modHbm ..
  · exact h.modHbm ..
  · exact h

theorem Canonical.writeBias {s : State} (h : Canonical s) (o : Nat) (v : Word) : Canonical (Machine.writeBias s o v) := by
  unfold Machine.writeBias
  split
  · dsimp only
    split
    · exact h
    · split
      · exact h.same.startFlip ..
      · exact h.same
  · exact h.same
  · exact h

theorem Canonical.bar0Read {s : State} (h : Canonical s) (off : Nat) : Canonical (Machine.bar0Read s off).1 := by
  unfold Machine.bar0Read
  extract_lets s1
  have h1 : Canonical s1 := by
    dsimp only [s1]
    split
    · split
      · exact h.readDmdata ..
      · exact h
    · split
      · exact h.readDmmem ..
      · exact h
    · exact h
  exact h1

theorem Canonical.bar0Write {s : State} (h : Canonical s) (off : Nat) (v : Word) : Canonical (Machine.bar0Write s off v) := by
  unfold Machine.bar0Write
  split
  · split
    · exact h
    · split
      · split
        · exact h.same
        · split
          · exact h.same
          · exact h
      · exact h.writeBias ..
      · exact h.writeDomain ..
      · exact h.writeHbm ..
      · exact h.writeRegion ..
      · exact h.writeColl ..
      · exact h.writeCkpt ..
      · exact h.writeQueue ..
      · exact h.writeTrace ..
      · exact h.writeFreeze ..
      · exact h.writePwrcap ..
      · exact h.writeDebug ..
      · exact h.writeFlash ..
      · exact h
      · exact h
      · exact h
      · exact h

theorem Canonical.execRegisterWrite {s : State} (h : Canonical s) (r : RegTarget) (v : Word) :
    KeepsOut (Machine.execRegisterWrite r v s) := by
  unfold Machine.execRegisterWrite
  refine Canonical.event ?_
  split
  · split
    · exact h
    · refine h.threadWrite ?_
      exact h.csrWrite ..
  · split
    · exact h.bar0Write ..
    · exact h

theorem Canonical.execLdaD {s : State} (h : Canonical s) (p : Bool) (d a b : Reg) : KeepsOut (Machine.execLdaD p d a b s) := by
  unfold Machine.execLdaD
  refine h.runInstr _ Gives.none _ fun _ h1 => ?_
  refine Holds.bind (Holds.needScope ..) fun _ _ => ?_
  refine Holds.bind (h1.checkVaBy ..) ?_
  rintro ⟨s2, _⟩ (h2 : Canonical s2)
  dsimp only
  split
  · split
    · exact trivial
    · split
      · exact trivial
      · refine (Canonical.enterRead ?_ ..).setLong ..
        split
        · exact h2
        · exact h2.bar0Read ..
  · exact h1.ldaBody ..

theorem Canonical.storeHome {s : State} (h : Canonical s) (t pa : Nat) (bs : List Byte) :
    Canonical (Machine.storeHome s t pa bs) := by
  unfold Machine.storeHome
  extract_lets
  split
  · exact (h.bar0Write ..).sendInvals ..
  · exact h.homeWrite ..

theorem Canonical.execRelaxedStorePerform {s : State} (h : Canonical s) (k : Nat) :
    KeepsOut (Machine.execRelaxedStorePerform k s) := by
  unfold Machine.execRelaxedStorePerform
  refine Canonical.event ?_
  split
  · split
    · extract_lets s1
      have h1 : Canonical s1 := (h.dropFlight ..).storeHome ..
      refine Canonical.drained ?_ ..
      split
      · exact h1.same
      · exact h1
    · exact h
  · exact h

theorem Canonical.execReleaseComplete {s : State} (h : Canonical s) (k : Nat) : KeepsOut (Machine.execReleaseComplete k s) := by
  unfold Machine.execReleaseComplete
  refine Canonical.event ?_
  split
  · split
    · exact (h.dropFlight ..).drained ..
    · exact h
  · split
    · exact ((h.dropFlight ..).storeHome ..).drained ..
    · exact h
  · split
    · exact h
    · split
      · split
        · exact h
        · exact h.numberFar ..
      · extract_lets s1
        have h1 : Canonical s1 := (h.dropEntry ..).homeWrite ..
        exact (h1.dropFlight ..).drained ..
  · exact h

theorem Canonical.writeDone {s : State} (h : Canonical s) (l : Nat) (pa : Option Nat) :
    Canonical (Machine.writeDone s l pa).1 := by
  unfold Machine.writeDone
  dsimp only
  split
  · exact h
  · split
    · exact h.storeHome ..
    · split
      · split
        · exact h.fresh ..
        · exact (h.fresh ..).write
      · exact h.homeWrite ..

theorem Canonical.forgetLaunch {s : State} (h : Canonical s) (l : Nat) : Canonical (Machine.forgetLaunch s l) := by
  unfold Machine.forgetLaunch
  extract_lets _ _ _ s1 _ s2
  have h1 : Canonical s1 := by
    dsimp only [s1]
    split
    · exact h
    · exact h.clearCsp ..
  have h2 : Canonical s2 := h1.same
  exact h2.same.settleBarriers ..

theorem Canonical.execLaunchComplete {s : State} (h : Canonical s) (l : Nat) : KeepsOut (Machine.execLaunchComplete l s) := by
  unfold Machine.execLaunchComplete
  extract_lets _ v1
  clear_value v1
  refine Canonical.event ?_
  split
  · exact h
  · split
    next heq =>
      extract_lets s2 s3
      have h1 : Canonical s2 := by
        dsimp only [s2]
        split
        · refine Canonical.fst ?_ heq
          split
          · exact h
          · exact h.writeDone ..
        · refine (Canonical.fst ?_ heq).queueError ..
          split
          · exact h
          · exact h.writeDone ..
      have h2 : Canonical s3 := h1.modQueue ..
      exact h2.forgetLaunch ..

end Sys2Proof.Machine
end

section
/-!
PROOFS. Memory's canonical form: the step (O60).
-/
set_option Elab.async false
namespace Sys2Proof.Machine

theorem Canonical.trackCode {s : State} (h : Canonical s) (s0 : State) : Canonical (Machine.trackCode s0 s) := by
  unfold Machine.trackCode
  dsimp only
  split
  · exact h
  · refine h.foldl (fun _ _ h1 => ?_) _
    split
    · exact h1
    · exact h1.modThr ..

theorem Canonical.trackOwn {s : State} (h : Canonical s) (s0 : State) (t : Nat) : Canonical (Machine.trackOwn s0 s t) := by
  unfold Machine.trackOwn
  dsimp only
  split
  · exact h
  · exact h.modThr ..

theorem Canonical.chooseWord {s : State} (h : Canonical s) (l : List Nat) : Canonical (Machine.chooseWord s l).1 := by
  unfold Machine.chooseWord
  split
  · exact h
  · exact h
  · exact h.fresh ..

theorem Canonical.fetchWord {s : State} (h : Canonical s) : Keeps (Machine.fetchWord s) := by
  unfold Machine.fetchWord
  extract_lets
  split
  · exact trivial
  · split
    · exact trivial
    · split
      next heq => exact (h.translateTh ..).error heq
      next heq =>
        split
        · exact trivial
        · split
          · split
            · exact (h.translateTh ..).ok heq
            · exact trivial
          · split
            · exact (h.translateTh ..).ok heq
            · split
              · exact ((h.translateTh ..).ok heq).chooseWord ..
              · exact trivial

theorem Canonical.takeLateRefusal {s : State} (h : Canonical s) (t : Nat) : Canonical (Machine.takeLateRefusal s t) := by
  unfold Machine.takeLateRefusal
  extract_lets
  split
  · exact h
  · split
    · exact ((h.leaveRewrite ..).cutChunk ..).reportRefusal ..
    · split
      · exact h
      · exact ((h.putBackWaiting ..).cutChunk ..).reportRefusal ..

theorem Canonical.giveWay {s : State} (h : Canonical s) (t : Nat) : Canonical (Machine.giveWay s t) := by
  unfold Machine.giveWay
  extract_lets
  split
  · exact h
  · exact (h.cutChunk ..).modThr ..

theorem Canonical.boundary {s : State} (h : Canonical s) (t : Nat) : Gives Canonical (Machine.boundary s t) := by
  unfold Machine.boundary
  extract_lets th failed
  split
  · exact h.squash ..
  · split
    · exact h.haltThread _
    · split
      · exact h
      · split
        · exact h.takeConflict ..
        · split
          · exact h.takeLateRefusal _
          · split
            · exact h
            · split
              · split
                next heq => exact (h.execRollback _).next heq
                · exact h
              · split
                · exact h.takeInterrupt ..
                · split
                  · split
                    next heq => exact (h.execPreemption _).next heq
                    · exact h
                  · exact h.giveWay _
                  · trivial

theorem Canonical.fetchIssue {s : State} (h : Canonical s) : (Machine.fetchIssue s).Canonical := by
  unfold Machine.fetchIssue
  split
  next heq => exact h.applyStop (h.fetchWord.error heq)
  next heq =>
    have h1 := h.fetchWord.state heq
    split
    · split
      · exact h1
      · exact h1
    · exact h1.takeTrap ..

theorem Canonical.prepare {s : State} (h : Canonical s) (t : Nat) : (Machine.prepare s t).Canonical := by
  unfold Machine.prepare
  extract_lets s1 th
  have h1 : Canonical s1 := h.same
  split
  · exact h1
  · split
    next heq => exact (h1.boundary t).some heq
    · split
      · exact h1
      · split
        · exact h1.pollWait ..
        · exact h1
        · split
          · exact h1.fetchIssue
          · exact h1
        · split
          · exact h1.stall _
          · exact h1.fetchIssue
        · split
          · exact h1
          · exact h1.fetchIssue

theorem Canonical.injectUndo {s : State} (h : Canonical s) (s0 : State) (t : Nat) : Canonical (Machine.injectUndo s0 s t) := by
  unfold Machine.injectUndo
  extract_lets
  split
  · exact h.asThread _ (fun _ h => h.inject ..)
  · exact h

theorem Canonical.afterIssue {s : State} (h : Canonical s) (s0 : State) (t : Nat) (i : Instr) :
    Canonical (Machine.afterIssue s0 t i s) := by
  unfold Machine.afterIssue
  extract_lets s1
  have h1 : Canonical s1 := (h.trackOwn ..).injectUndo ..
  split
  · exact h1
  · exact (h1.countEvent ..).countEvent ..

theorem Canonical.settleMove {s : State} (h : Canonical s) (s0 : State) :
    Canonical (Machine.settleMove s0 s) := (h.trackCode ..).logChanges ..

theorem Canonical.takeSlot {s : State} (h : Canonical s) {run : Instr → State → Out} (hrun : ∀ i s, Canonical s → KeepsOut (run i s)) (t : Nat) :
    KeepsOut (Machine.takeSlot run s t).1 := by
  have hp := h.prepare t
  unfold Machine.takeSlot
  split
  next heq => exact Canonical.settleMove (hp.idle heq) _
  next i s1 heq =>
    have hr : KeepsOut (run i s1) := hrun _ _ (hp.run heq)
    split
    next hnext => exact Canonical.settleMove (Canonical.afterIssue (hr.next hnext) ..) _
    · exact hr

theorem Canonical.takeSlots {run : Instr → State → Out} (hrun : ∀ i s, Canonical s → KeepsOut (run i s)) (ts : List Nat) :
    ∀ {s : State}, Canonical s → KeepsOut (Machine.takeSlots run ts s).1 := by
  induction ts with
  | nil => exact id
  | cons t ts ih =>
    intro s h
    have ht := h.takeSlot hrun t
    unfold Machine.takeSlots
    split
    next heq =>
      rw [heq] at ht
      exact ih ht
    · exact ht

theorem Canonical.coreSlot {s : State} (h : Canonical s) {run : Instr → State → Out} (hrun : ∀ i s, Canonical s → KeepsOut (run i s)) (core : Nat) :
    KeepsOut (Machine.coreSlot run s core) := by
  have ht := Canonical.takeSlots hrun (s.inSlot core (s.cycle % 16)).toList h
  unfold Machine.coreSlot
  split
  next heq =>
    rw [heq] at ht
    exact Canonical.takeSlots hrun _ ht
  · exact ht

theorem Canonical.strike {s : State} (h : Canonical s) (u : Upset) : Canonical (Machine.strike s u) := by
  unfold Machine.strike
  split
  · split
    · exact h.same
    · exact h
  · split
    · exact h.modCore ..
    · exact h

theorem Canonical.tickThread {s : State} (h : Canonical s) (t : Nat) : Canonical (Machine.tickThread s t) := by
  unfold Machine.tickThread
  extract_lets _ _ s1 s2 s3
  have h1 : Canonical s1 := h.modThr ..
  have h2 : Canonical s2 := h1.countEvent ..
  have h3 : Canonical s3 := by
    dsimp only [s3]
    split
    · exact h2.countEvent ..
    · exact h2
  split
  · exact h3.countEvent ..
  · split
    · exact h3.countEvent ..
    · exact h3

theorem Canonical.tick {s : State} (h : Canonical s) : Canonical (Machine.tick s) := by
  unfold Machine.tick
  extract_lets s1 s2 s3
  have h1 : Canonical s1 := h.foldl (fun _ _ h => h.tickThread ..) _
  have h2 : Canonical s2 := h1.foldl (fun _ _ h => h.modHbm ..) _
  have h3 : Canonical s3 := h2.same
  split
  · exact h3.foldl (fun _ _ h => h.vectorWindow ..) _
  · exact h3

theorem Canonical.exec {s : State} (h : Canonical s) (i : Instr) : KeepsOut (Machine.exec i s) := by
  cases i
  case chunk => exact h.execChunk ..
  case yield => exact h.execYield ..
  case pause => exact h.execPause ..
  case fenceS => exact h.execFenceS ..
  case bar => exact h.execBar ..
  case waitb => exact h.execWaitb ..
  case batch => exact h.execBatch ..
  case enq => exact h.execEnq ..
  case engq => exact h.execEngq ..
  case lclr => exact h.execLclr ..
  case aeqw => exact h.execAeqw ..
  case aeqr => exact h.execAeqr ..
  case ctxsave => exact h.execCtxsave ..
  case ctxload => exact h.execCtxload ..
  case tlbinv => exact h.execTlbinv ..
  case zline => exact h.execZline ..
  case loop => exact h.execLoop ..
  case spawn => exact h.execSpawn ..
  case join => exact h.execJoin ..
  case take => exact h.execTake ..
  case tnew => exact h.execTnew ..
  case tdec => exact h.execTdec ..
  case texit => exact h.execTexit ..
  case tlist => exact h.execTlist ..
  case send => exact h.execSend ..
  case sendt => exact h.execSendt ..
  case recv => exact h.execRecv ..
  case recvs => exact h.execRecvs ..
  case recvt => exact h.execRecvt ..
  case evend => exact h.execEvend ..
  case stirv => exact h.execStirv ..
  case opton => exact h.execOpton ..
  case optoff => exact h.execOptoff ..
  case msgq => exact h.execMsgq ..
  case ixpop => exact h.execIxpop ..
  case ixpair => exact h.execIxpair ..
  case ixnew => exact h.execIxnew ..
  case ixfree => exact h.execIxfree ..
  case ixlink => exact h.execIxlink ..
  case ixrule => exact h.execIxrule ..
  case ixdone => exact h.execIxdone ..
  case ptrfmt => exact h.execPtrfmt ..
  case ptrinfo => exact h.execPtrinfo ..
  case ptrclr => exact h.execPtrclr ..
  case ldl => exact h.execLdl ..
  case stl => exact h.execStl ..
  case redAddW => exact h.execRedAddW ..
  case redAddD => exact h.execRedAddD ..
  case redMinW => exact h.execRedMinW ..
  case redMinD => exact h.execRedMinD ..
  case redMaxW => exact h.execRedMaxW ..
  case redMaxD => exact h.execRedMaxD ..
  case redAndD => exact h.execRedAndD ..
  case redOrD => exact h.execRedOrD ..
  case redXorD => exact h.execRedXorD ..
  case redFaddS => exact h.execRedFaddS ..
  case redFxa => exact h.execRedFxa ..
  case lrwW => exact h.execLrwW ..
  case lrwD => exact h.execLrwD ..
  case schW => exact h.execSchW ..
  case schD => exact h.execSchD ..
  case lrwq => exact h.execLrwq ..
  case stxW => exact h.execStxW ..
  case stxD => exact h.execStxD ..
  case stxRelW => exact h.execStxRelW ..
  case stxRelD => exact h.execStxRelD ..
  case ldaW => exact h.execLdaW ..
  case ldaD => exact h.execLdaD ..
  case vld => exact h.execVld ..
  case vst => exact h.execVst ..
  case vlds => exact h.execVlds ..
  case vsts => exact h.execVsts ..
  case vgath => exact h.execVgath ..
  case vscat => exact h.execVscat ..
  case vldl => exact h.execVldl ..
  case vstl => exact h.execVstl ..
  case vadd => exact h.execVadd ..
  case vsub => exact h.execVsub ..
  case vmul => exact h.execVmul ..
  case vfma => exact h.execVfma ..
  case vfms => exact h.execVfms ..
  case vmin => exact h.execVmin ..
  case vmax => exact h.execVmax ..
  case vabs => exact h.execVabs ..
  case vneg => exact h.execVneg ..
  case vand => exact h.execVand ..
  case vor => exact h.execVor ..
  case vxor => exact h.execVxor ..
  case vshl => exact h.execVshl ..
  case vshr => exact h.execVshr ..
  case vshrl => exact h.execVshrl ..
  case vcmpeq => exact h.execVcmpeq ..
  case vcmplt => exact h.execVcmplt ..
  case vcmple => exact h.execVcmple ..
  case vsel => exact h.execVsel ..
  case vmov => exact h.execVmov ..
  case vbcast => exact h.execVbcast ..
  case vins => exact h.execVins ..
  case vext => exact h.execVext ..
  case vperm => exact h.execVperm ..
  case vcvt => exact h.execVcvt ..
  case vrsum => exact h.execVrsum ..
  case vrmax => exact h.execVrmax ..
  case vrmin => exact h.execVrmin ..
  case vrcp => exact h.execVrcp ..
  case vrsqrt => exact h.execVrsqrt ..
  case vexp2 => exact h.execVexp2 ..
  case vlog2 => exact h.execVlog2 ..
  case vsett => exact h.execVsett ..
  case pand => exact h.execPand ..
  case por => exact h.execPor ..
  case pnot => exact h.execPnot ..
  case pcnt => exact h.execPcnt ..
  case pfirst => exact h.execPfirst ..
  case pset => exact h.execPset ..
  case tld => exact h.execTld ..
  case tst => exact h.execTst ..
  case tzero => exact h.execTzero ..
  case tmov => exact h.execTmov ..
  case ttrans => exact h.execTtrans ..
  case acld => exact h.execAcld ..
  case acst => exact h.execAcst ..
  case acz => exact h.execAcz ..
  case tcvt => exact h.execTcvt ..
  case tgen => exact h.execTgen ..
  case tfill => exact h.execTfill ..
  case tmma => exact h.execTmma ..
  case tmmas => exact h.execTmmas ..
  case tmmag => exact h.execTmmag ..
  case gsetK => exact h.execGsetK ..
  case gsetSeed => exact h.execGsetSeed ..
  case gsetScope => exact h.execGsetScope ..
  case gsetOrg => exact h.execGsetOrg ..
  case gsetPar => exact h.execGsetPar ..
  case standardLoad => exact h.execStandardLoad ..
  case standardStore => exact h.execStandardStore ..
  case baseCompute => exact h.execBaseCompute ..
  case branchJump => exact h.execBranchJump ..
  case fence fm pred succ rd rs1 => exact h.execFence fm pred succ rd rs1
  case fenceTso rd rs1 => exact h.execFenceTso rd rs1
  case fenceI imm rd rs1 => exact h.execFenceI imm rd rs1
  case lr dbl aq rl rd rs1 => exact h.execLr dbl aq rl rd rs1
  case sc dbl aq rl rd rs1 rs2 => exact h.execSc dbl aq rl rd rs1 rs2
  case amo op dbl aq rl rd rs1 rs2 => exact h.execAmo op dbl aq rl rd rs1 rs2
  case wfi => exact h.execWfi ..
  case sfenceVma => exact h.execSfenceVma ..
  case ecall => exact h.execEcall ..
  case ebreak => exact h.execEbreak ..
  case sret => exact h.execSret ..
  case csrInstruction => exact h.execCsrInstruction ..
  case longLatencyResult => exact h.execLongLatencyResult ..
  case interrupt => exact h.execInterrupt ..
  case seiChange => exact h.execSeiChange ..
  case stiTimer => exact h.execStiTimer ..
  case mpWake => exact h.execMpWake ..
  case yieldEnd => exact h.execYieldEnd ..
  case commitGrant => exact h.execCommitGrant ..
  case commitBroadcastApply => exact h.execCommitBroadcastApply ..
  case tokenGrant => exact h.execTokenGrant ..
  case postCommitRelease => exact h.execPostCommitRelease ..
  case commandInstall => exact h.execCommandInstall ..
  case relaxedStorePerform => exact h.execRelaxedStorePerform ..
  case reductionApply => exact h.execReductionApply ..
  case invalidationApply => exact h.execInvalidationApply ..
  case releaseComplete => exact h.execReleaseComplete ..
  case tlbinvComplete => exact h.execTlbinvComplete ..
  case farStoreGroup => exact h.execFarStoreGroup ..
  case farRequestServe => exact h.execFarRequestServe ..
  case farAck => exact h.execFarAck ..
  case farRefusal => exact h.execFarRefusal ..
  case farTimeout => exact h.execFarTimeout ..
  case switchInvalidation => exact h.execSwitchInvalidation ..
  case barrierArrival => exact h.execBarrierArrival ..
  case barrierTimeout => exact h.execBarrierTimeout ..
  case reservationRequest => exact h.execReservationRequest ..
  case reservationHandover => exact h.execReservationHandover ..
  case reservationResend => exact h.execReservationResend ..
  case grantTimeout => exact h.execGrantTimeout ..
  case waitswapExpiry => exact h.execWaitswapExpiry ..
  case messageArrival => exact h.execMessageArrival ..
  case messageAck => exact h.execMessageAck ..
  case spillRingDrain => exact h.execSpillRingDrain ..
  case antiMessageArrival => exact h.execAntiMessageArrival ..
  case rollback => exact h.execRollback ..
  case gvtPublish key => exact h.execGvtPublish key
  case ringWaitTimeout => exact h.execRingWaitTimeout ..
  case steal => exact h.execSteal ..
  case taskDecrement => exact h.execTaskDecrement ..
  case launchQuiescent => exact h.execLaunchQuiescent ..
  case nodeCacheRefill => exact h.execNodeCacheRefill ..
  case mma => exact h.execMma ..
  case mmag => exact h.execMmag ..
  case mmas => exact h.execMmas ..
  case accz => exact h.execAccz ..
  case accout => exact h.execAccout ..
  case gangmma => exact h.execGangmma ..
  case copy => exact h.execCopy ..
  case redcopy => exact h.execRedcopy ..
  case gather => exact h.execGather ..
  case scatter => exact h.execScatter ..
  case scalecast => exact h.execScalecast ..
  case allred => exact h.execAllred ..
  case bcast => exact h.execBcast ..
  case redscat => exact h.execRedscat ..
  case allgath => exact h.execAllgath ..
  case ckpt => exact h.execCkpt ..
  case ckptRestore => exact h.execCkptRestore ..
  case commandRetire => exact h.execCommandRetire ..
  case redcopyApply => exact h.execRedcopyApply ..
  case redcopyResend => exact h.execRedcopyResend ..
  case regionGapTimeout => exact h.execRegionGapTimeout ..
  case collectiveContribution => exact h.execCollectiveContribution ..
  case collectiveTimeout => exact h.execCollectiveTimeout ..
  case ckptAllArrived => exact h.execCkptAllArrived ..
  case ckptTimeout => exact h.execCkptTimeout ..
  case ckptResume => exact h.execCkptResume ..
  case ckptDrain => exact h.execCkptDrain ..
  case vectorWindow => exact h.execVectorWindow ..
  case refpbDue => exact h.execRefpbDue ..
  case owedRefresh => exact h.execOwedRefresh ..
  case hostSnoop => exact h.execHostSnoop ..
  case hostCxlMemAccess => exact h.execHostCxlMemAccess ..
  case biasFlip => exact h.execBiasFlip ..
  case biasFlipComplete => exact h.execBiasFlipComplete ..
  case qtailWrite => exact h.execQtailWrite ..
  case recordFetch => exact h.execRecordFetch ..
  case recordRefetch => exact h.execRecordRefetch ..
  case launchPlacement => exact h.execLaunchPlacement ..
  case preemption => exact h.execPreemption ..
  case contextRestore => exact h.execContextRestore ..
  case slotDisable => exact h.execSlotDisable ..
  case slotEnable => exact h.execSlotEnable ..
  case launchComplete => exact h.execLaunchComplete ..
  case queueConfigWrite => exact h.execQueueConfigWrite ..
  case queueSwitchOut => exact h.execQueueSwitchOut ..
  case queueSwitchIn => exact h.execQueueSwitchIn ..
  case queueClear => exact h.execQueueClear ..
  case queueClearSkip => exact h.execQueueClearSkip ..
  case chunklenWrite => exact h.execChunklenWrite ..
  case aeroleWrite => exact h.execAeroleWrite ..
  case squashmaxWrite => exact h.execSquashmaxWrite ..
  case stealdomWrite => exact h.execStealdomWrite ..
  case loopcWrite => exact h.execLoopcWrite ..
  case errinjWrite => exact h.execErrinjWrite ..
  case errlogEntryClear => exact h.execErrlogEntryClear ..
  case eventCsrWrite => exact h.execEventCsrWrite ..
  case perCoreCsrWrite => exact h.execPerCoreCsrWrite ..
  case tccFlush => exact h.execTccFlush ..
  case tmarkMark => exact h.execTmarkMark ..
  case tmarkStart => exact h.execTmarkStart ..
  case tmarkStop => exact h.execTmarkStop ..
  case satpWrite => exact h.execSatpWrite ..
  case stvecWrite => exact h.execStvecWrite ..
  case vshareWrite => exact h.execVshareWrite ..
  case registerWrite => exact h.execRegisterWrite ..
  case domainMembershipWrite => exact h.execDomainMembershipWrite ..
  case regionValid => exact h.execRegionValid ..
  case regionReset => exact h.execRegionReset ..
  case collectiveSlotValid => exact h.execCollectiveSlotValid ..
  case flitCrcReplay port => exact h.execFlitCrcReplay port
  case portDown => exact h.execPortDown ..
  case debugHalt => exact h.execDebugHalt ..
  case debugResume => exact h.execDebugResume ..
  case dmdataRead => exact h.execDmdataRead ..
  case dmdataWrite => exact h.execDmdataWrite ..
  case dmmemRead => exact h.execDmmemRead ..
  case dmmemWrite => exact h.execDmmemWrite ..
  case statePacketFlush => exact h.execStatePacketFlush ..
  case trrdptrWrite => exact h.execTrrdptrWrite ..
  case freezeSignal => exact h.execFreezeSignal ..
  case freezeRegisterWrite => exact h.execFreezeRegisterWrite ..
  case warmReset => exact h.execWarmReset ..
  case coldReset => exact h.execColdReset ..
  case boot => exact h.execBoot ..
  case flashWindowWrite => exact h.execFlashWindowWrite ..
  case pwrcapWrite => exact h.execPwrcapWrite ..
  case powerThrottle => exact h.execPowerThrottle ..
  case clusterPowerGate => exact h.execClusterPowerGate ..
  case clusterWake => exact h.execClusterWake ..
  case d3hotEntry => exact h.execD3hotEntry ..
  case missFill => exact h.execMissFill ..
  case refreshEnd => exact h.execRefreshEnd ..
  case hostAgentFailure => exact h.execHostAgentFailure ..
  case d3hotExit => exact h.execD3hotExit ..

theorem KeepsOut.thenDo {o : Out} (h : KeepsOut o) {f : State → State} (hf : ∀ s, Canonical s → Canonical (f s)) :
    KeepsOut (Machine.thenDo o f) := by
  unfold Machine.thenDo
  split
  · exact hf _ h
  · trivial
  · trivial

theorem Canonical.issue {s : State} (h : Canonical s) (t : Nat) : KeepsOut (Machine.issue s t) :=
  h.takeSlot (fun _ _ h => h.exec _) t

theorem Canonical.runMove {s : State} (h : Canonical s) (m : Move) : KeepsOut (Machine.runMove s m) := by
  unfold Machine.runMove
  split
  · split
    · exact h
    · exact h.issue _
  · split
    · exact h
    · exact (h.exec _).thenDo fun _ h => h.settleMove _
  · split
    · exact h
    · exact h.strike _
  · split
    · exact h
    · exact (h.undoRead _).settleMove _
  · split
    · exact h
    · exact h.same

theorem KeepsOut.changed {s : State} {o : Out} (h : KeepsOut o) : Gives KeepsOut (Machine.changed s o) := by
  unfold Machine.changed
  split
  · split
    · trivial
    · exact h
  · exact h

theorem Canonical.firstMove {s : State} (h : Canonical s) (l : List Move) : Gives KeepsOut (Machine.firstMove s l) :=
  Gives.findSome (fun _ => (h.runMove _).changed) l

theorem Canonical.issueCore {s : State} (h : Canonical s) (core : Nat) : KeepsOut (Machine.issueCore s core) :=
  (h.coreSlot (fun _ _ h => h.exec _) core).thenDo fun _ h => h.same

theorem Canonical.auto {s : State} (h : Canonical s) : KeepsOut (Machine.auto s) := by
  unfold Machine.auto
  split
  · exact h
  · split
    next heq => exact (h.firstMove _).some heq
    · split
      · exact h.issueCore _
      · exact h.tick

theorem Canonical.step {s : State} (h : Canonical s) : KeepsOut (Machine.step s) := by
  unfold Machine.step
  split
  · exact Canonical.runMove h.same _
  · exact h.auto

/-- Settles O60: what each function of a step does to memory keeps its form, up to the step. -/
theorem memoryStaysCanonical : Obligations.MemoryStaysCanonical := by
  unfold Obligations.MemoryStaysCanonical
  intro s t hcanonical hstep
  exact (Canonical.step hcanonical).next hstep

end Sys2Proof.Machine
end
